-- ==== Sys2Proof/Word.lean ====
section
/-! DEFINITION. The word types of the D2 (R3, R4) and their plainest forms. -/

namespace Sys2Proof

/-- A byte. -/
abbrev Byte := BitVec 8
/-- A 32-bit word: an instruction word, an FP32 pattern. -/
abbrev W32 := BitVec 32
/-- A 64-bit word: a scalar register, an address. -/
abbrev W64 := BitVec 64
/-- The data of a vector register: 1,024 bits; profile B uses the low 512 (R1, R367). -/
abbrev VData := BitVec 1024
/-- A predicate register: 128 bits for a vector of any type (R219). -/
abbrev PData := BitVec 128

end Sys2Proof
end

