-- ==== Sys2Proof/Config.lean ====
section
/-! DEFINITION. The free values of the model: what the spec leaves open where the machine goes on. -/

namespace Sys2Proof

/-- DESIGN CHOICE (log entry 1). The free value number k of the step whose counter (`State.fresh`) is n: 64 bits of
which nothing is known. Used wherever the spec allows any of several outcomes: an old or a new value of a breached
register unit (R126), a unit of an overlapping copy (R337), a twice-named scatter row (R340). -/
opaque Config.freeBits : Nat → Nat → BitVec 64

/-- DESIGN CHOICE (log entry 7). Which other packages the fabric group holds (R27, R291): fixed by the installation. -/
opaque Config.peerPresent : Nat → Bool

/-- DESIGN CHOICE (log entry 101). The fabric port that requests to a die of another package leave through (R322): the spec says
that the die's global address fixes it, and not how. -/
opaque Config.fabricPort : Nat → Nat

end Sys2Proof
end

