-- ==== Sys2Proof/Machine/Numbers.lean ====
section
/-! DEFINITION. Number formats, exact values and rounding (R173 to R185), and the special functions of R230 as exact
values with a sticky bit. -/

namespace Sys2Proof.Machine

/-- A floating-point format (R173): exponent bits, fraction bits, bias; E4M3 has no infinities (R174). -/
structure Fmt where
  eb : Nat
  fb : Nat
  bias : Nat
  e4 : Bool
deriving DecidableEq, Repr

def f32 : Fmt := ⟨8, 23, 127, false⟩
def bf16 : Fmt := ⟨8, 7, 127, false⟩
def f16 : Fmt := ⟨5, 10, 15, false⟩
def e4m3 : Fmt := ⟨4, 3, 7, true⟩

/-- What a pattern stands for: NaN with its sign, an infinity, or (-1)^neg x m x 2^e. -/
inductive FVal where
  | nan (neg : Bool)
  | inf (neg : Bool)
  | fin (neg : Bool) (m : Nat) (e : Int)
deriving DecidableEq, Repr

/-- A set of exception flags: IV [0], DZ [1], OF [2], UF [3], NX [4] (R177, R180). -/
abbrev Flags := BitVec 5
def flIV : Flags := 1
def flDZ : Flags := 2
def flOF : Flags := 4
def flUF : Flags := 8
def flNX : Flags := 16

/-- The sign of a value. -/
def FVal.neg : FVal → Bool
  | .nan s => s
  | .inf s => s
  | .fin s _ _ => s
def FVal.isNaN : FVal → Bool
  | .nan _ => true
  | _ => false
def FVal.isInf : FVal → Bool
  | .inf _ => true
  | _ => false
def FVal.isZero : FVal → Bool
  | .fin _ 0 _ => true
  | _ => false
/-- The value with another sign. -/
def FVal.withSign (s : Bool) : FVal → FVal
  | .nan _ => .nan s
  | .inf _ => .inf s
  | .fin _ m e => .fin s m e
def FVal.negate (v : FVal) : FVal := v.withSign (!v.neg)
def FVal.abs (v : FVal) : FVal := v.withSign false

/-- The sign bit, exponent field and fraction field of a pattern (R173). -/
def signOf (f : Fmt) (n : Nat) : Bool := n / 2 ^ (f.eb + f.fb) % 2 == 1
def expOf (f : Fmt) (n : Nat) : Nat := n / 2 ^ f.fb % 2 ^ f.eb
def fracOf (f : Fmt) (n : Nat) : Nat := n % 2 ^ f.fb

/-- The exponent of the smallest normal (R173). -/
def Fmt.emin (f : Fmt) : Int := 1 - (f.bias : Int)

/-- What a pattern of the format stands for (R173, R174). -/
def unpack (f : Fmt) (n : Nat) : FVal :=
  let s := signOf f n
  let x := expOf f n
  let r := fracOf f n
  if f.e4 && x == 15 && r == 7 then .nan s
  else if !f.e4 && x == 2 ^ f.eb - 1 then (if r == 0 then .inf s else .nan s)
  else if x == 0 then .fin s r (f.emin - f.fb)
  else .fin s (2 ^ f.fb + r) ((x : Int) - f.bias - f.fb)

/-- A pattern is subnormal in its format (R182). -/
def isSub (f : Fmt) (n : Nat) : Bool := expOf f n == 0 && fracOf f n != 0

/-- The zero of a sign. -/
def zeroPat (f : Fmt) (s : Bool) : Nat := if s then 2 ^ (f.eb + f.fb) else 0
/-- The infinity of a sign; for E4M3 the greatest finite value. -/
def infPat (f : Fmt) (s : Bool) : Nat :=
  zeroPat f s + (if f.e4 then 0x7E else (2 ^ f.eb - 1) * 2 ^ f.fb)
/-- The greatest finite value of a sign (R173). -/
def maxPat (f : Fmt) (s : Bool) : Nat := if f.e4 then zeroPat f s + 0x7E else infPat f s - 1
/-- The canonical NaN (R173). -/
def nanPat (f : Fmt) : Nat := if f.e4 then 0x7F else (2 ^ f.eb - 1) * 2 ^ f.fb + 2 ^ (f.fb - 1)

/-- FZI (R182): a subnormal input becomes the zero of its sign. -/
def unpackZ (f : Fmt) (fzi : Bool) (n : Nat) : FVal :=
  if fzi && isSub f n then .fin (signOf f n) 0 0 else unpack f n

/-! ## Rounding -/

/-- The outcome of a rounding to a grid: the value n x 2^q, whether it differs from the exact value, and whether the
exact value is tiny (R180). -/
structure Rnd where
  n : Nat
  q : Int
  inexact : Bool
  tiny : Bool
deriving DecidableEq, Repr

/-- Round (m + ε) x 2^e to an integer multiple of 2^q, where 0 < ε < 1 if sticky and ε = 0 otherwise; a sticky value
must have q at least e + 2. Answers the multiple and whether it is inexact. -/
def toGrid (rm : BitVec 2) (neg : Bool) (m : Nat) (e q : Int) (sticky : Bool) : Nat × Bool :=
  if q ≤ e then (m * 2 ^ (e - q).toNat, sticky)
  else
    let k := (q - e).toNat
    let n := m / 2 ^ k
    let r := m % 2 ^ k
    let half := 2 ^ (k - 1)
    let inexact := r != 0 || sticky
    let up := match rm.toNat with
      | 0 => half < r || (r == half && (sticky || n % 2 == 1))
      | 1 => false
      | 2 => neg && inexact
      | _ => !neg && inexact
    (if up then n + 1 else n, inexact)

/-- Round to fb + 1 significant bits with the step of the subnormals below 2^emin (R179), and test tininess (R180). -/
def rnd (fb : Nat) (emin : Int) (rm : BitVec 2) (neg : Bool) (m : Nat) (e : Int) (sticky : Bool) : Rnd :=
  if m == 0 && !sticky then ⟨0, emin - fb, false, false⟩
  else
    let lg : Int := (Nat.log2 m : Int) + e
    let q := max (lg - fb) (emin - fb)
    let g := toGrid rm neg m e q sticky
    let u := toGrid rm neg m e (lg - fb) sticky
    let tiny := lg < emin && !(u.1 == 2 ^ (fb + 1) && lg + 1 == emin)
    if g.1 == 2 ^ (fb + 1) then ⟨2 ^ fb, q + 1, g.2, tiny⟩ else ⟨g.1, q, g.2, tiny⟩

/-- The overflow value of R179 for a sign and mode. -/
def overflowPat (f : Fmt) (rm : BitVec 2) (s : Bool) : Nat :=
  match rm.toNat with
  | 0 => infPat f s
  | 1 => maxPat f s
  | 2 => if s then infPat f s else maxPat f s
  | _ => if s then maxPat f s else infPat f s

/-- RoundFmt (R179) of an exact value, or of a value with a sticky bit, with FZO (R182) and the flags of R180. -/
def roundFmt (f : Fmt) (rm : BitVec 2) (fzo : Bool) (v : FVal) (sticky : Bool) : Nat × Flags :=
  match v with
  | .nan _ => (nanPat f, 0)
  | .inf s => (infPat f s, 0)
  | .fin s m e =>
    let r := rnd f.fb f.emin rm s m e sticky
    if r.n == 0 then
      (zeroPat f s, if r.inexact then flUF ||| flNX else 0)
    else if r.n < 2 ^ f.fb then
      if fzo then (zeroPat f s, flUF ||| flNX)
      else (zeroPat f s + r.n, if r.inexact then flUF ||| flNX else 0)
    else
      let x := r.q + f.fb + f.bias
      if (2 : Int) ^ f.eb - 1 ≤ x then (overflowPat f rm s, flOF ||| flNX)
      else (zeroPat f s + x.toNat * 2 ^ f.fb + (r.n - 2 ^ f.fb),
            if r.inexact then (if r.tiny then flUF ||| flNX else flNX) else 0)

/-- SatE4M3 (R183) of an exact value, or of a value with a sticky bit. -/
def satE4M3 (rm : BitVec 2) (fzo : Bool) (v : FVal) (sticky : Bool) : Nat × Flags :=
  match v with
  | .nan s => (zeroPat e4m3 s + 0x7F, 0)
  | .inf s => (zeroPat e4m3 s + 0x7E, flOF ||| flNX)
  | .fin s m e =>
    let r := rnd 3 (-6) rm s m e sticky
    if r.n == 0 then (zeroPat e4m3 s, if r.inexact then flUF ||| flNX else 0)
    else if r.n < 8 then
      if fzo then (zeroPat e4m3 s, flUF ||| flNX)
      else (zeroPat e4m3 s + r.n, if r.inexact then flUF ||| flNX else 0)
    else
      let x := r.q + 10
      if 15 < x || (x == 15 && 14 < r.n) then (zeroPat e4m3 s + 0x7E, flOF ||| flNX)
      else (zeroPat e4m3 s + x.toNat * 8 + (r.n - 8),
            if r.inexact then (if r.tiny then flUF ||| flNX else flNX) else 0)

/-- Round to a format, E4M3 by SatE4M3 (R183, R184). -/
def roundTo (f : Fmt) (rm : BitVec 2) (fzo : Bool) (v : FVal) (sticky : Bool) : Nat × Flags :=
  if f.e4 then satE4M3 rm fzo v sticky else roundFmt f rm fzo v sticky

/-! ## Exact arithmetic -/

/-- A finite value as an integer multiple of 2^q, for q at most its exponent. -/
def scaled (s : Bool) (m : Nat) (e q : Int) : Int :=
  let n : Int := (m * 2 ^ (e - q).toNat : Nat)
  if s then -n else n

/-- An exact sum of finite values as a value: an exact zero has the sign given. -/
def ofScaled (zs : Bool) (n q : Int) : FVal :=
  if n == 0 then .fin zs 0 q else .fin (n < 0) n.natAbs q

/-- Addition (R165): infinities, NaN, and the sign of an exact zero. -/
def addF (rm : BitVec 2) (x y : FVal) : FVal × Flags :=
  match x, y with
  | .nan s, _ => (.nan s, 0)
  | _, .nan s => (.nan s, 0)
  | .inf a, .inf b => if a == b then (.inf a, 0) else (.nan false, flIV)
  | .inf a, _ => (.inf a, 0)
  | _, .inf b => (.inf b, 0)
  | .fin a m e, .fin b n k =>
    if m == 0 && n == 0 then (.fin (if a == b then a else rm == 2) 0 0, 0)
    else
      let q := min e k
      (ofScaled (rm == 2) (scaled a m e q + scaled b n k q) q, 0)

/-- Multiplication (R165): 0 x ∞ is NaN with IV. -/
def mulF (x y : FVal) : FVal × Flags :=
  match x, y with
  | .nan s, _ => (.nan s, 0)
  | _, .nan s => (.nan s, 0)
  | .inf a, .inf b => (.inf (a != b), 0)
  | .inf a, .fin b n _ => if n == 0 then (.nan false, flIV) else (.inf (a != b), 0)
  | .fin a m _, .inf b => if m == 0 then (.nan false, flIV) else (.inf (a != b), 0)
  | .fin a m e, .fin b n k => (.fin (a != b) (m * n) (e + k), 0)

/-- Fused multiply-add (R165, R228): 0 x ∞ raises IV even when the addend is NaN. -/
def fmaF (rm : BitVec 2) (x y z : FVal) : FVal × Flags :=
  let p := mulF x y
  let r := addF rm p.1 z
  (r.1, p.2 ||| r.2)

/-- Division (R165): the quotient with a sticky bit. -/
def divF (x y : FVal) : (FVal × Bool) × Flags :=
  match x, y with
  | .nan s, _ => ((.nan s, false), 0)
  | _, .nan s => ((.nan s, false), 0)
  | .inf _, .inf _ => ((.nan false, false), flIV)
  | .inf a, .fin b _ _ => ((.inf (a != b), false), 0)
  | .fin a _ _, .inf b => ((.fin (a != b) 0 0, false), 0)
  | .fin a m e, .fin b n k =>
    if n == 0 then
      if m == 0 then ((.nan false, false), flIV) else ((.inf (a != b), false), flDZ)
    else if m == 0 then ((.fin (a != b) 0 0, false), 0)
    else
      let sh := 80 + Nat.log2 n
      let num := m * 2 ^ sh
      ((.fin (a != b) (num / n) (e - k - sh), num % n != 0), 0)

/-- The order of two values that are not NaN; zeros of either sign are equal. -/
def cmpF (x y : FVal) : Ordering :=
  match x, y with
  | .inf a, .inf b => if a == b then .eq else if a then .lt else .gt
  | .inf a, _ => if a then .lt else .gt
  | _, .inf b => if b then .gt else .lt
  | .fin a m e, .fin b n k =>
    let q := min e k
    compare (scaled a m e q) (scaled b n k q)
  | _, _ => .eq

/-- fmin and fmax (R165): -0 is smaller than +0; a NaN operand gives NaN. -/
def minF (x y : FVal) : FVal :=
  if x.isNaN || y.isNaN then .nan false
  else match cmpF x y with
    | .lt => x
    | .gt => y
    | .eq => if x.neg then x else y
def maxF (x y : FVal) : FVal :=
  if x.isNaN || y.isNaN then .nan false
  else match cmpF x y with
    | .lt => y
    | .gt => x
    | .eq => if x.neg then y else x

/-- The integer nearest to (-1)^s x m x 2^e under a mode, and whether it differs. -/
def toIntF (rm : BitVec 2) (s : Bool) (m : Nat) (e : Int) (sticky : Bool) : Int × Bool :=
  let g := toGrid rm s m e 0 sticky
  (if s then -(g.1 : Int) else g.1, g.2)

/-- A conversion to an integer in lo to hi (R167, R184): NaN gives 0 with IV, saturation raises IV. -/
def toIntSat (rm : BitVec 2) (lo hi : Int) (v : FVal) : Int × Flags :=
  match v with
  | .nan _ => (0, flIV)
  | .inf s => (if s then lo else hi, flIV)
  | .fin s m e =>
    let r := toIntF rm s m e false
    if r.1 < lo then (lo, flIV) else if hi < r.1 then (hi, flIV)
    else (r.1, if r.2 then flNX else 0)

/-- An integer as an exact value. -/
def ofInt (i : Int) : FVal := .fin (i < 0) i.natAbs 0

/-! ## Roots and special functions (R230) -/

/-- The integer square root by bits b - 1 down to 0. -/
def isqrtFrom (b n r : Nat) : Nat :=
  match b with
  | 0 => r
  | k + 1 => isqrtFrom k n (if (r + 2 ^ k) ^ 2 ≤ n then r + 2 ^ k else r)
def isqrt (n : Nat) : Nat := isqrtFrom (Nat.log2 n / 2 + 1) n 0

/-- √(m x 2^e) for m not 0, with a sticky bit. -/
def sqrtX (m : Nat) (e : Int) : FVal × Bool :=
  let odd : Nat := if e % 2 == 0 then 0 else 1
  let n := m * 2 ^ (160 + odd)
  let r := isqrt n
  (.fin false r ((e - odd - 160) / 2), r * r != n)

/-- 1 / √(m x 2^e) for m not 0, with a sticky bit. -/
def rsqrtX (m : Nat) (e : Int) : FVal × Bool :=
  let odd : Nat := if e % 2 == 0 then 0 else 1
  let n := m * 2 ^ odd
  let k := 160 + 2 * (Nat.log2 n / 2 + 1)
  let r := isqrt (2 ^ (2 * k) / n)
  (.fin false r (-(k : Int) - (e - odd) / 2), r * r * n != 2 ^ (2 * k))

/-- The fixed-point precision of the special functions, in bits. Every function below is computed to within a few units
of 2^-fpP (log entry 8). -/
def fpP : Nat := 700

/-- atanh(a / b) x 2^fpP by its series: term holds (a/b)^(2k+1) x 2^fpP. -/
def atanhSum (fuel k term a2 b2 acc : Nat) : Nat :=
  match fuel with
  | 0 => acc
  | n + 1 => if term == 0 then acc else atanhSum n (k + 1) (term * a2 / b2) a2 b2 (acc + term / (2 * k + 1))
def atanhFx (a b : Nat) : Nat := atanhSum 400 0 (a * 2 ^ fpP / b) (a * a) (b * b) 0

/-- ln 2 x 2^fpP: twice atanh(1/3). -/
def ln2Fx : Nat := 2 * atanhFx 1 3

/-- e^(r / 2^fpP) x 2^fpP for 0 ≤ r < 2^fpP, by its series. -/
def expSum (fuel k term r acc : Nat) : Nat :=
  match fuel with
  | 0 => acc
  | n + 1 => if term == 0 then acc else expSum n (k + 1) (term * r / 2 ^ fpP / (k + 1)) r (acc + term)
def expFx (r : Nat) : Nat := expSum 250 0 (2 ^ fpP) r 0

/-- A magnitude m x 2^e in fixed point, rounded down. -/
def toFx (m : Nat) (e : Int) : Nat :=
  if 0 ≤ e + fpP then m * 2 ^ (e + fpP).toNat else m / 2 ^ (-(e + fpP)).toNat

/-- e^(-x) x 2^fpP for x = m x 2^e ≥ 0: with x = n ln 2 + r it is 2^-n x e^-r, taken as 2^-(n+1) x e^(ln 2 - r). -/
def expNegFx (m : Nat) (e : Int) : Nat :=
  if 12 < (Nat.log2 m : Int) + e then 0
  else
    let x := toFx m e
    let n := x / ln2Fx
    let r := x % ln2Fx
    expFx (ln2Fx - r) / 2 ^ (n + 1)

/-- 2^n x y for a fixed-point y in [1, 2]. -/
def pow2Fx (n : Int) (y : Nat) : FVal × Bool := (.fin false y (n - fpP), true)

/-- 2^x, by the integer part of x and e^(fraction x ln 2); exact for integers. Magnitudes of 2^11 and more stand for
any overflowing or underflowing value. -/
def exp2X (s : Bool) (m : Nat) (e : Int) : FVal × Bool :=
  if 10 < (Nat.log2 m : Int) + e then (.fin false (2 ^ 100) (if s then -4200 else 4000), true)
  else
    let x := toFx m e
    let fl : Int := if s then -(((x + 2 ^ fpP - 1) / 2 ^ fpP : Nat) : Int) else (x / 2 ^ fpP : Nat)
    let fr : Nat := ((if s then -(x : Int) else x) - fl * 2 ^ fpP).toNat
    if fr == 0 then (.fin false 1 fl, false)
    else pow2Fx fl (expFx (fr * ln2Fx / 2 ^ fpP))

/-- e^x for x not 0. -/
def expX (s : Bool) (m : Nat) (e : Int) : FVal × Bool :=
  if 10 < (Nat.log2 m : Int) + e then (.fin false (2 ^ 100) (if s then -4200 else 4000), true)
  else
    let x := toFx m e
    if s then
      let n := x / ln2Fx
      pow2Fx (-(n : Int) - 1) (expFx (ln2Fx - x % ln2Fx))
    else pow2Fx ((x / ln2Fx : Nat) : Int) (expFx (x % ln2Fx))

/-- log₂ of m x 2^e for m not 0; exact for powers of two. -/
def log2X (m : Nat) (e : Int) : FVal × Bool :=
  let lg := Nat.log2 m
  let k : Int := (lg : Int) + e
  if m == 2 ^ lg then (ofInt k, false)
  else
    let a := m - 2 ^ lg
    let b := m + 2 ^ lg
    let fr := 2 * atanhFx a b * 2 ^ fpP / ln2Fx
    let v : Int := k * 2 ^ fpP + fr
    if v < 0 then (.fin true ((-v).toNat - 1) (-(fpP : Int)), true)
    else (.fin false v.toNat (-(fpP : Int)), true)

/-- A quotient of fixed-point magnitudes that is not exact. -/
def quoFx (a b : Nat) : FVal × Bool := (.fin false (a * 2 ^ fpP / b) (-(fpP : Int)), true)

/-- tanh of x not 0: (1 - t) / (1 + t) with t = e^(-2|x|); the sign is x's. -/
def tanhX (s : Bool) (m : Nat) (e : Int) : FVal × Bool :=
  let t := expNegFx m (e + 1)
  let q := quoFx (2 ^ fpP - t - 1) (2 ^ fpP + t)
  (q.1.withSign s, true)

/-- 1 / (1 + e^-x) for x not 0. -/
def sigmX (s : Bool) (m : Nat) (e : Int) : FVal × Bool :=
  if s && 10 < (Nat.log2 m : Int) + e then (.fin false (2 ^ 100) (-4200), true)
  else
    let t := expNegFx m e
    if s then quoFx t (2 ^ fpP + t) else quoFx (2 ^ fpP) (2 ^ fpP + t + 1)

/-- x / (1 + e^-x) for x not 0. -/
def siluX (s : Bool) (m : Nat) (e : Int) : FVal × Bool :=
  match (sigmX s m e).1 with
  | .fin _ n k => (.fin s (m * n) (e + k), true)
  | v => (v, true)

/-! ## FP32 helpers -/

/-- The value of an FP32 pattern. -/
def val32 (w : W32) : FVal := unpack f32 w.toNat
/-- RoundF32 under RNE with no flags used (R178). -/
def rne32 (v : FVal) : W32 := BitVec.ofNat 32 (roundFmt f32 0 false v false).1
/-- RoundF32 under RNE of a value with a sticky bit. -/
def rne32s (v : FVal × Bool) : W32 := BitVec.ofNat 32 (roundFmt f32 0 false v.1 v.2).1
/-- The canonical NaN of FP32. -/
def nan32 : W32 := 0x7FC00000

/-- RoundInt(n x 2^e, RNE) for an integer n (R189). -/
def rneInt (n : Int) (e : Int) : Int := (toIntF 0 (n < 0) n.natAbs e false).1

end Sys2Proof.Machine
end

