-- ==== Sys2Proof/Syntax.lean ====
section
/-! DEFINITION. The instructions and steps of the D2: one constructor for every row of the opcode table.
An instruction word carries the fields of its format (R102); a device step carries what it acts on. -/

namespace Sys2Proof

/-- The seven instruction streams of a core (R93). -/
inductive Stream where
  | c | s | v | m | x | a | y
deriving DecidableEq, Repr

/-- The kinds of access that a page-table leaf allows (R293). -/
inductive AccessKind where
  | rd | wr | ex | rw
deriving DecidableEq, Repr

/-- Which access a step names: a context's outstanding access of the S stream (R168), or one of its load or store queue (R202), or an
access of the host or the loop core (R332). -/
inductive AccQ where
  | glob | load | store | host
deriving DecidableEq, Repr

/-- What the ECC of the bytes read found (R308): nothing, a corrected error, or an uncorrectable line. -/
inductive EccOutcome where
  | clean | corrected | uncorrectable
deriving DecidableEq, Repr

/-- The boot image as the security block finds it (R449): what each step finds, and the image's bytes. -/
structure BootImage where
  present : Bool
  headerOk : Bool
  hashOk : Bool
  sigOk : Bool
  fwsvn : Nat
  bytes : List Byte
deriving DecidableEq, Repr

/-- A context: die ID, core number on the die (for a base vector core 16 x stack + number), whether it is a base vector
core, and the context number (R10, R14, R68). -/
structure CtxId where
  die : Nat
  core : Nat
  bvc : Bool
  ctx : Nat
deriving DecidableEq, Repr

/-- What a device step acts on. Each device step's constructor says which fields name its subject; the machine reads
them from its state (`State.sub`), where the agenda has put them. `torn` names the batch-table entries that software changes while a snapshot copies them (R60). -/
structure Subject where
  a : Nat := 0
  b : Nat := 0
  c : Nat := 0
  d : Nat := 0
  x : W64 := 0
  y : W64 := 0
  p : Bool := false
  q : Bool := false
  ctx : CtxId := ⟨0, 0, false, 0⟩
  kind : AccessKind := .rd
  acc : AccQ := .glob
  ecc : EccOutcome := .clean
  img : BootImage := ⟨false, false, false, false, 0, []⟩
  opt : Option Nat := none
  torn : List Nat := []
deriving DecidableEq, Repr

/-- Format Z (R102): the gate only. -/
structure FZ where
  g : BitVec 2
deriving DecidableEq, Repr

/-- Format J (R102): a signed offset in lines. -/
structure FJ where
  g : BitVec 2
  off : BitVec 24
deriving DecidableEq, Repr

/-- Format R (R102). -/
structure FR where
  g : BitVec 2
  d : BitVec 6
  a : BitVec 6
  b : BitVec 6
  f : BitVec 6
deriving DecidableEq, Repr

/-- Format I (R102) with its immediate E words (R106). -/
structure FI where
  g : BitVec 2
  d : BitVec 6
  a : BitVec 6
  imm : BitVec 12
  x : List W32
deriving DecidableEq, Repr

/-- Format IM (R102) with at most one E word, a byte offset (R97). -/
structure FIM where
  g : BitVec 2
  d : BitVec 6
  a : BitVec 6
  sz : BitVec 3
  off : BitVec 9
  x : List W32
deriving DecidableEq, Repr

/-- Format K (R102): a control-register number or a code. -/
structure FK where
  g : BitVec 2
  d : BitVec 6
  a : BitVec 6
  num : BitVec 12
deriving DecidableEq, Repr

/-- Formats V and VS (R102, R110) with their E words: an immediate and a modifier (R106). -/
structure FV where
  g : BitVec 2
  d : BitVec 6
  a : BitVec 6
  b : BitVec 6
  t : BitVec 3
  fzi : Bool
  fzo : Bool
  p : Bool
  x : List W32
deriving DecidableEq, Repr

/-- Format VK (R102): a conversion from type `s` to type `t`. -/
structure FVK where
  g : BitVec 2
  d : BitVec 6
  a : BitVec 6
  s : BitVec 3
  t : BitVec 3
  fzi : Bool
  fzo : Bool
  p : Bool
  x : List W32
deriving DecidableEq, Repr

/-- Format VC (R102): a comparison or class test into predicate `pd`. -/
structure FVC where
  g : BitVec 2
  pd : BitVec 4
  cc : BitVec 2
  a : BitVec 6
  b : BitVec 6
  t : BitVec 3
  fzi : Bool
  p : Bool
  x : List W32
deriving DecidableEq, Repr

/-- Format VP (R102): predicate logic. -/
structure FVP where
  g : BitVec 2
  pd : BitVec 4
  pa : BitVec 4
  pb : BitVec 4
  op : BitVec 4
  sd : BitVec 6
deriving DecidableEq, Repr

/-- Format VT (R102) with its one E word, the target offset in lines (R97). -/
structure FVT where
  g : BitVec 2
  p : BitVec 4
  mode : BitVec 2
  e : W32
deriving DecidableEq, Repr

/-- Format BC (R102). -/
structure FBC where
  g : BitVec 2
  a : BitVec 6
  cc : BitVec 3
  off : BitVec 15
deriving DecidableEq, Repr

/-- Format BR2 (R102). -/
structure FBR2 where
  g : BitVec 2
  a : BitVec 6
  b : BitVec 6
  cc : BitVec 3
  off : BitVec 9
deriving DecidableEq, Repr

/-- Format L (R102) with its E word of strides, present exactly when n is not 0 (R97, R103). -/
structure FL where
  g : BitVec 2
  a : BitVec 6
  bx : BitVec 6
  by' : BitVec 6
  n : BitVec 2
  x : List W32
deriving DecidableEq, Repr

/-- Format W (R102): the four counter limits. -/
structure FW where
  g : BitVec 2
  ncl : BitVec 6
  ncs : BitVec 6
  ncx : BitVec 6
  ncm : BitVec 6
deriving DecidableEq, Repr

/-- Format F (R102): scope, class mask and id. -/
structure FF where
  g : BitVec 2
  scope : BitVec 3
  cls : BitVec 6
  id : BitVec 6
deriving DecidableEq, Repr

/-- Format PH (R102) with its two E words, the liveness bitmaps (R103). -/
structure FPH where
  g : BitVec 2
  sr : BitVec 4
  e1 : W32
  e2 : W32
deriving DecidableEq, Repr

/-- Every instruction and every device step of the D2, one constructor for each row of the opcode table. -/
inductive Instr where
  /-- R153: No effect. -/
  | nop (w : FZ)
  /-- R138: Branches always to PC + 32 × off at the end of the line. -/
  | br (w : FJ)
  /-- R138: Branches to PC + 32 × off and writes the link to s63. -/
  | call (w : FJ)
  /-- R138: Branches to s[a] and writes the link to s[d]. -/
  | callr (w : FR)
  /-- R138: Branches to s63. -/
  | ret (w : FZ)
  /-- R138: Branches to the line address in s[a]. -/
  | brr (w : FR)
  /-- R138: Branches when s[a] meets cc against zero. -/
  | bc (w : FBC)
  /-- R138: Branches when s[a] cc s[b] holds. -/
  | bcr (w : FBR2)
  /-- R128: Pushes a loop level with count s[a] and no bindings, or skips a zero-count body. -/
  | loop (w : FL)
  /-- R128: Pushes a loop level with one or two stride-bound registers whose strides stand in its E word. -/
  | loopBound (w : FL)
  /-- R130: Closes an iteration of the innermost level, checking its target against LBODY. -/
  | lend (w : FJ)
  /-- R132: Pops the innermost level at once and continues at the offset. -/
  | lbrk (w : FJ)
  /-- R131: Ends the current iteration early through an iteration end. -/
  | lcont (w : FJ)
  /-- R134: Reads a loop level's index, count or remaining into s[d]. -/
  | lrd (w : FR)
  /-- R141: Waits for and consumes the oldest control token and branches if it says TAKE. -/
  | btok (w : FZ)
  /-- R143: Holds delivery until the completion counters fall to their limits. -/
  | wait (w : FW)
  /-- R144: Holds delivery until earlier operations of the named classes are performed at the scope. -/
  | fence (w : FF)
  /-- R145: Arrives at a barrier and waits for its phase. -/
  | bar (w : FF)
  /-- R145: Arrives at a barrier with release. -/
  | barv (w : FF)
  /-- R145: Waits for the phase of the outstanding arrival, then acquires. -/
  | barw (w : FF)
  /-- R146: Waits for NCX = 0, then acts as bar. -/
  | sstep (w : FF)
  /-- R147: Writes an S-marked control register from s[a] and returns its old value. -/
  | setm (w : FK)
  /-- R148: Declares the pre-emption hint with its liveness bitmaps on the innermost level. -/
  | phint (w : FPH)
  /-- R151: Re-issues captured operations with skew and transfers to the saved PC while the resume record is armed. -/
  | resume (w : FZ)
  /-- R152: Waits for all work to complete, then ends the tile iteration and frees the context. -/
  | exit (w : FZ)
  /-- R150: Makes the end of its line a pre-emption boundary while a hint is in force. -/
  | cede (w : FZ)
  /-- R156: s[d] := s[a] + s[b] modulo 2^64. -/
  | add (w : FR)
  /-- R156: s[d] := s[a] − s[b]. -/
  | sub (w : FR)
  /-- R156: Low 64 bits of the product. -/
  | mul (w : FR)
  /-- R156: High 64 bits of the signed product. -/
  | mulh (w : FR)
  /-- R156: High 64 bits of the unsigned product. -/
  | mulhu (w : FR)
  /-- R156: Signed division toward zero, never trapping. -/
  | div (w : FR)
  /-- R156: Unsigned division. -/
  | divu (w : FR)
  /-- R156: Signed remainder. -/
  | rem (w : FR)
  /-- R156: Unsigned remainder. -/
  | remu (w : FR)
  /-- R156: Bitwise AND. -/
  | and (w : FR)
  /-- R156: Bitwise OR. -/
  | or (w : FR)
  /-- R156: Bitwise XOR. -/
  | xor (w : FR)
  /-- R156: Shift left by s[b] mod 64. -/
  | sll (w : FR)
  /-- R156: Logical shift right. -/
  | srl (w : FR)
  /-- R156: Arithmetic shift right. -/
  | sra (w : FR)
  /-- R156: Signed minimum. -/
  | min (w : FR)
  /-- R156: Signed maximum. -/
  | max (w : FR)
  /-- R156: Unsigned minimum. -/
  | minu (w : FR)
  /-- R156: Unsigned maximum. -/
  | maxu (w : FR)
  /-- R159: Writes 1 if s[a] and s[b] meet the condition, else 0. -/
  | cmp (w : FR)
  /-- R160: s[d] := s[a] if s[c] ≠ 0, else s[b]. -/
  | sel (w : FR)
  /-- R161: Population count. -/
  | popc (w : FR)
  /-- R161: Count leading zeros. -/
  | clz (w : FR)
  /-- R161: Count trailing zeros. -/
  | ctz (w : FR)
  /-- R162: Translates a block position to its packed slot under the survivor bitmap. -/
  | ppopc (w : FR)
  /-- R163: Deposits the low len bits of s[a] into s[d] at pos. -/
  | dep (w : FR)
  /-- R163: Extracts a zero-extended bit field. -/
  | ext (w : FR)
  /-- R163: Extracts a sign-extended bit field. -/
  | exts (w : FR)
  /-- R165: FP32 addition with one rounding. -/
  | fadd (w : FR)
  /-- R165: FP32 subtraction. -/
  | fsub (w : FR)
  /-- R165: FP32 multiplication. -/
  | fmul (w : FR)
  /-- R165: FP32 division. -/
  | fdiv (w : FR)
  /-- R165: FP32 fused multiply-add into s[d]. -/
  | fma (w : FR)
  /-- R165: FP32 minimum. -/
  | fmin (w : FR)
  /-- R165: FP32 maximum. -/
  | fmax (w : FR)
  /-- R166: FP32 comparison writing 1 or 0. -/
  | fcmp (w : FR)
  /-- R167: Converts between 64-bit integers, FP32 and 16-bit floats. -/
  | fcvt (w : FR)
  /-- R172: Atomically reads a 32-bit amax word and resets it to zero. -/
  | amaxx (w : FR)
  /-- R158: s[d] := s[a] + immediate. -/
  | addi (w : FI)
  /-- R158: Bitwise AND with immediate. -/
  | andi (w : FI)
  /-- R158: Bitwise OR with immediate. -/
  | ori (w : FI)
  /-- R158: Bitwise XOR with immediate. -/
  | xori (w : FI)
  /-- R158: Shift left by immediate. -/
  | slli (w : FI)
  /-- R158: Logical shift right by immediate. -/
  | srli (w : FI)
  /-- R158: Arithmetic shift right by immediate. -/
  | srai (w : FI)
  /-- R170: Uncached global load, extended to 64 bits, holding the S stream. -/
  | gld (w : FIM)
  /-- R170: Uncached global store of the low bytes of s[d]. -/
  | gst (w : FIM)
  /-- R171: 64-bit read-modify-write at the home returning the old value, with optional acquire or release. -/
  | gatom (w : FR)
  /-- R227: Elementwise addition. -/
  | vadd (w : FV)
  /-- R227: Elementwise subtraction. -/
  | vsub (w : FV)
  /-- R227: Elementwise multiplication. -/
  | vmul (w : FV)
  /-- R228: d := a × b + d with one rounding. -/
  | vfma (w : FV)
  /-- R228: d := −(a × b) + d with one rounding. -/
  | vfnma (w : FV)
  /-- R227: Elementwise float division. -/
  | vdiv (w : FV)
  /-- R227: Elementwise minimum. -/
  | vmin (w : FV)
  /-- R227: Elementwise maximum. -/
  | vmax (w : FV)
  /-- R229: Elementwise absolute value. -/
  | vabs (w : FV)
  /-- R229: Elementwise negation. -/
  | vneg (w : FV)
  /-- R230: Square root, one rounding. -/
  | vsqrt (w : FV)
  /-- R230: Reciprocal square root. -/
  | vrsqrt (w : FV)
  /-- R230: Reciprocal. -/
  | vrcp (w : FV)
  /-- R230: 2 to the x. -/
  | vexp2 (w : FV)
  /-- R230: Base-2 logarithm. -/
  | vlog2 (w : FV)
  /-- R230: e to the x. -/
  | vexp (w : FV)
  /-- R230: Hyperbolic tangent. -/
  | vtanh (w : FV)
  /-- R230: Logistic sigmoid. -/
  | vsigm (w : FV)
  /-- R230: SiLU. -/
  | vsilu (w : FV)
  /-- R231: Bitwise AND of element patterns. -/
  | vand (w : FV)
  /-- R231: Bitwise OR of element patterns. -/
  | vor (w : FV)
  /-- R231: Bitwise XOR of element patterns. -/
  | vxor (w : FV)
  /-- R231: Shift left by b mod w, optionally saturating. -/
  | vshl (w : FV)
  /-- R231: Shift right by b mod w. -/
  | vshr (w : FV)
  /-- R232: Compares A and B and writes a predicate. -/
  | vcmp (w : FVC)
  /-- R233: Tests the class of each element and writes a predicate. -/
  | vclass (w : FVC)
  /-- R234: Selects elements of A or B by the governing predicate. -/
  | vsel (w : FV)
  /-- R236: Converts elements from type S to type T. -/
  | vcvt (w : FVK)
  /-- R237: Quantises a 1 × 128 group to e4m3 with a computed scale. -/
  | vquant (w : FVK)
  /-- R238: Expands an e4m3 vector into a group of float vectors. -/
  | vdequant (w : FVK)
  /-- R239: Writes a vector's scale sidecar from a scalar. -/
  | vsetsc (w : FV)
  /-- R239: Reads a vector's scale sidecar into a scalar. -/
  | vgetsc (w : FV)
  /-- R240: Tree-ordered sum reduction into element 0. -/
  | vredsum (w : FV)
  /-- R240: Tree max reduction. -/
  | vredmax (w : FV)
  /-- R240: Tree min reduction. -/
  | vredmin (w : FV)
  /-- R240: Tree max-magnitude reduction. -/
  | vredamax (w : FV)
  /-- R241: Inclusive prefix sums by a Kogge-Stone network. -/
  | vscan (w : FV)
  /-- R241: Inclusive prefix maxima. -/
  | vscanmax (w : FV)
  /-- R242: Permutes A by indices in B. -/
  | vperm (w : FV)
  /-- R243: Broadcasts element s[b] of A. -/
  | vbcast (w : FV)
  /-- R243: Inserts a scalar into element s[a] of D. -/
  | vins (w : FV)
  /-- R243: Extracts element s[b] of A into a scalar. -/
  | vext (w : FV)
  /-- R242: Interleaves A and B. -/
  | vzip (w : FV)
  /-- R242: De-interleaves A and B. -/
  | vunzip (w : FV)
  /-- R245: Merges online-softmax row states (m, l) and yields their weights. -/
  | vsmx (w : FV)
  /-- R246: Evaluates a predicate and appends a control token to the sequencer's queue. -/
  | vtok (w : FVT)
  /-- R242: Copies A, or broadcasts an immediate. -/
  | vmov (w : FV)
  /-- R242: Writes each element's index. -/
  | viota (w : FV)
  /-- R235: Combines two predicates with AND, OR, XOR, AND-NOT or NOT. -/
  | vplog (w : FVP)
  /-- R235: Counts the set bits of pa AND pb into a scalar. -/
  | vpcnt (w : FVP)
  /-- R256: Loads a weight tile and scale table into a great-array buffer. -/
  | mldb (w : FR)
  /-- R257: Streams A rows through the great array into an accumulator slot, opening or closing groups. -/
  | mma (w : FR)
  /-- R258: Runs a tile-level GEMM from a descriptor, one lease command per K group. -/
  | mmacro (w : FR)
  /-- R261: Drains slot rows to scratch, to team cores, or merges a split-K slot. -/
  | mdrain (w : FR)
  /-- R259: Claims and clears a great-array slot, optionally in split-K mode. -/
  | mzero (w : FR)
  /-- R262: Loads a row-former descriptor and the stream's SGEN. -/
  | mrowf (w : FR)
  /-- R281: Composes an affine chunk along rows and with the chunk carries. -/
  | mscan (w : FR)
  /-- R264: Releases owned slots and optionally ends the lease after earlier M work completes. -/
  | mrel (w : FR)
  /-- R278: Sets a slot plain or affine and clears its elements, keeping carries. -/
  | mmode (w : FR)
  /-- R279: Loads the gains of a range of affine elements. -/
  | mgain (w : FR)
  /-- R280: Loads or stores chunk carries between a slot and memory. -/
  | mcarry (w : FR)
  /-- R265: Attaches or removes a tree-mask parameter block on a slot. -/
  | mmask (w : FR)
  /-- R267: Reads slot status, a block's CE or MACDONE into a scalar after earlier M work. -/
  | mstat (w : FR)
  /-- R268: Loads activation vectors into stationary decode-array columns. -/
  | dmvld (w : FR)
  /-- R269: Streams weight rows from a port through the decode array. -/
  | dmv (w : FR)
  /-- R270: Drains decode-array results in row- or column-major order. -/
  | dmdrain (w : FR)
  /-- R268: Claims and clears a decode-array slot. -/
  | dmzero (w : FR)
  /-- R283: Advances each active affine element by one recurrent step against its carry. -/
  | dmstep (w : FR)
  /-- R339: Copies bytes, converting between scratch formats where they differ. -/
  | xcopy (w : FR)
  /-- R339: Copies NROWS strided rows. -/
  | xcopy2d (w : FR)
  /-- R340: Gathers rows under an index list. -/
  | xgath (w : FR)
  /-- R340: Scatters rows under an index list. -/
  | xscat (w : FR)
  /-- R341: Writes one source to the same own-scratch offset of masked team cores. -/
  | xmcast (w : FR)
  /-- R343: Writes a 4- or 8-byte value as one request message. -/
  | xsend (w : FR)
  /-- R345: Adds elements exactly into home-side reduction registers, optionally closing them. -/
  | xred (w : FR)
  /-- R348: Combines elements into words by atomic max or max-magnitude. -/
  | xredmax (w : FR)
  /-- R349: Registers a shadowed buffer if needed and opens its shadow. -/
  | xshadOpen (w : FR)
  /-- R349: Closes a buffer's shadow without an exchange. -/
  | xshadDiscard (w : FR)
  /-- R349: Discards the shadow and frees the buffer's entry. -/
  | xshadUnreg (w : FR)
  /-- R350: Publishes a shadowed buffer: release, then exchange of images at every home. -/
  | xpub (w : FR)
  /-- R351: Appends token rows to a stream's KV blocks, allocating blocks as needed. -/
  | xkvapp (w : FR)
  /-- R352: Deals a snapshot's blocks evenly over cores as span lists. -/
  | xplan (w : FR)
  /-- R342: Fills bytes with a 32-bit pattern. -/
  | xfill (w : FR)
  /-- R342: Writes zero in whole lines, making them correctable, and resets covered scale cells. -/
  | xwipe (w : FR)
  /-- R343: Stores, adds or ORs a word atomically as a release at the named scope. -/
  | xsig (w : FR)
  /-- R377: Writes the exact, once-rounded sum of each group in a vault. -/
  | xnred (w : FR)
  /-- R378: Writes the greatest finite magnitude of each group. -/
  | xnamax (w : FR)
  /-- R379: Copies vault bytes exactly, in-array where possible. -/
  | xnclone (w : FR)
  /-- R381: Compacts a KV block in place under a keep mask. -/
  | xncomp (w : FR)
  /-- R383: Computes CRC-32C over vault bytes, optionally chained. -/
  | xncrc (w : FR)
  /-- R384: Zeroes vault rows with fresh ECC, discarding covered write-combining lines. -/
  | xnwipe (w : FR)
  /-- R385: Copies a quad vault's status registers into own scratch. -/
  | xnstat (w : FR)
  /-- R382: Recomputes a KV block's scale and requantises its survivors in place. -/
  | xnscale (w : FR)
  /-- R208: Writes one field of an address-generator parameter set. -/
  | agset (w : FR)
  /-- R209: Starts a run that fills a load port. -/
  | agld (w : FR)
  /-- R209: Starts a run that drains a store port. -/
  | agst (w : FR)
  /-- R210: Ends a set's run early. -/
  | agstop (w : FR)
  /-- R211: Reads a set's field, progress or status into an a-register. -/
  | aget (w : FR)
  /-- R212: Loads one vector and its sidecar. -/
  | ldv (w : FR)
  /-- R212: Stores one vector. -/
  | stv (w : FR)
  /-- R212: Loads one scalar, extended. -/
  | lds (w : FR)
  /-- R212: Stores the low bytes of a scalar. -/
  | sts (w : FR)
  /-- R214: Orders every later access after every earlier A-stream access. -/
  | amark (w : FZ)
  /-- R215: Sets the FMT of one or more scratch banks. -/
  | spfmt (w : FR)
  /-- R216: Read-modify-write of a scratch location at its bank, returning the old value. -/
  | atom (w : FR)
  /-- R217: a[d] := s[a]. -/
  | amovToA (w : FR)
  /-- R217: s[d] := a[a]. -/
  | amovToS (w : FR)
  /-- R217: a[d] := a[a] + immediate. -/
  | aadd (w : FI)
  /-- R406: Reads a control register. -/
  | ycsrr (w : FK)
  /-- R406: Writes a control register and returns its old value. -/
  | ycsrw (w : FK)
  /-- R406: Sets bits of a control register. -/
  | ycsrs (w : FK)
  /-- R406: Clears bits of a control register. -/
  | ycsrc (w : FK)
  /-- R407: Raises the software trap with a code and payload. -/
  | ytrap (w : FK)
  /-- R408: Posts a host or loop-core interrupt and sets SIGDATA with release. -/
  | ysig (w : FR)
  /-- R409: Reads a per-context performance counter. -/
  | yperf (w : FR)
  /-- R299: Drops cached translations of an ASID or one page across the package. -/
  | ytlbi (w : FR)
  /-- R300: Translates an address as an access would and reports the result. -/
  | yprobe (w : FR)
  /-- R301: Advances an ASID's generation, optionally installing a new root. -/
  | ygen (w : FR)
  /-- R73: Sends a 64-bit entry to a token queue with timeout. -/
  | ytqs (w : FR)
  /-- R73: Receives a 64-bit entry from a token queue with timeout. -/
  | ytqr (w : FR)
  /-- R410: Writes the issuing context into a save area and continues. -/
  | ysave (w : FR)
  /-- R411: Loads a save area into the context and arms its resume record. -/
  | yrest (w : FR)
  /-- R412: Gives the core to the other context at the end of its line if that context can run. -/
  | yswap (w : FR)
  /-- R413: Reads context, placement, node or ordinal information. -/
  | yctx (w : FR)
  /-- R23: A UCIe module fails training or retraining; it is removed, its link runs on at proportionally lower bandwidth and the error counters record the loss. Subject: a = a, b = b. -/
  | moduleFailure
  /-- R23: A flit found in error is replayed by UCIe link-level retry, and the order of flits on the link is kept. Subject: a = a, b = b. -/
  | flitRetry
  /-- R25: A request waiting at its source takes a freed request slot of its die pair, in issue order for one engine. Subject: a = src, b = dst. -/
  | requestSlotGrant
  /-- R26: The lanes of a fabric port fail training; the port stays down, is reported in the port status, and the other ports carry on. Subject: a = port. -/
  | fabricPortTrainingFailure
  /-- R446: At the end of each 1 ms window the power manager updates PWRW, WITHHELD and THROTCNT and adjusts withheld issue to hold the package limit. Subject: a = watts, b = withheld, c = tmax. -/
  | powerWindow
  /-- R446: A die junction sensor exceeds 120 °C; the die is reset under R417 and bit 8 of LINKERR is set. Subject: a = die. -/
  | junctionOvertemp
  /-- R35: A region starts when its parent starts or its entry starts it; its graph instance opens at GRAPH, and a partition whose core set intersects an active one completes MALFORMED. Subject: a = rid. -/
  | regionStart
  /-- R36: A region whose graph and children have completed completes: the completion record is written with release, then the parent is completed. Subject: a = rid. -/
  | regionCompletion
  /-- R39: A task-graph node completes and the scheduler decrements the pending count of each successor. Subject: a = nid. -/
  | nodeCompletion
  /-- R41: A ready KERNEL node starts; CANCEL is sampled, its KHD and LNR are read, and its tile iterations become eligible for placement. Subject: a = nid. -/
  | kernelNodeStart
  /-- R43: A COND node reads its word, evaluates CMP, and opens the THEN or ELSE instance. Subject: a = nid. -/
  | condNode
  /-- R44: A LOOP node starts, latches COUNT or evaluates its condition, and opens its first body instance. Subject: a = nid. -/
  | loopNode
  /-- R43: A SWITCH node computes k = x >> SHIFT and opens CASES[k] or DEFAULT. Subject: a = nid. -/
  | switchNode
  /-- R45: A SIGNAL node performs its store, add or OR as a package release and raises its event. Subject: a = nid. -/
  | signalNode
  /-- R423: A SAMPLE node reads its stream record, SCB chain and logits descriptor and starts the sampler engines on the shards. Subject: a = nid. -/
  | sampleNode
  /-- R82: A HANDOFF node starts, acts on the stream state and has the seal unit seal each named layer. Subject: a = nid. -/
  | handoffNode
  /-- R368: A MIDNIGHT node starts, and its iterations become placeable only on base vector cores under the BVC cap. Subject: a = nid. -/
  | midnightNode
  /-- R65: When a context is free, the scheduler gives the next tile iteration of the first eligible node to the lowest-keyed free context and loads s1-s9. Subject: ctx = c. -/
  | tileDispatch
  /-- R52: Software stores 1 to word 1 of a stream record; the store is ordered at the home against every transition. Subject: a = asid, x = va. -/
  | cancelRequest
  /-- R53: A write setting EN enables a VI, or is refused when its ASID or queue ranges overlap or exceed limits or MINCORES oversubscribes. Subject: a = vi. -/
  | viEnable
  /-- R54: A write of 0 to EN disables the VI: queues stop, iterations end, streams fault, regions complete STOPPED, queues flush, then EN reads 0. Subject: a = vi. -/
  | viDisable
  /-- R53: Setting STOP suspends placement of the VI's work while running iterations finish; clearing it resumes placement. Subject: a = vi, p = stop. -/
  | viStop
  /-- R56: A write to a configuration or VI-page register with no behaviour of its own stores its fields, ignoring reserved bits. Subject: opt = page, a = off, x = v. -/
  | registerWrite
  /-- R57: A WQTAIL write exposes new entries; an overflow beyond the ring clears WQEN and records error 1. Subject: a = vi, b = k, x = v. -/
  | wqTailWrite
  /-- R58: A NOP work-queue entry is taken and does nothing. Subject: a = vi, b = k. -/
  | wqNop
  /-- R58: A START entry starts an RCB as child of the root, or as the root with ASROOT. Subject: a = vi, b = k. -/
  | wqStart
  /-- R58: An ADMIT entry checks the stream record and starts its region as a child of the root. Subject: a = vi, b = k. -/
  | wqAdmit
  /-- R63: An ITERATE entry, once no iteration of its RCB is in flight, takes a snapshot if asked and starts the RCB under the root. Subject: a = vi, b = k. -/
  | wqIterate
  /-- R56: A read of WQERR returns the first recorded failure and clears it. Subject: a = vi. -/
  | wqerrRead
  /-- R56: A DEPTH_l write sets a token queue's capacity, or is ignored below its current COUNT_l; 0 disables it. Subject: a = vi, b = l, c = v. -/
  | tokenQueueDepthWrite
  /-- R72: A write of 1 to FLUSH_l discards every entry of the token queue atomically at the hub. Subject: a = vi, b = l. -/
  | tokenQueueFlush
  /-- R73: One ytqs or ytqr attempt arrives at the hub and appends, removes, or returns full, empty or disabled atomically. -/
  | tokenQueueAttempt
  /-- R67: A ready node with no eligible free context asks the lowest-priority iteration in its placement set to yield. Subject: a = nid, ctx = c. -/
  | preemptionRequest
  /-- R67: A VI below MINCORES with ready compute work for 65,536 cycles has an iteration of a VI above its guarantee asked to yield. Subject: a = vi, ctx = c. -/
  | mincoresStarvation
  /-- R68: After 64 cycles of a blocking wait with the other context ready, the active context changes. -/
  | contextStallSwitch
  /-- R68: The 8-cycle context change ends and the new active context begins to issue. -/
  | contextChangeComplete
  /-- R70: The great array grants one waiting request: urgent first, then within share by priority and age, then over share. Subject: a = g. -/
  | leaseArbitration
  /-- R254: A lease whose command limit, time limit or idle end was reached ends once its issued commands complete, and re-arbitration follows. Subject: a = g. -/
  | leaseEnd
  /-- R69: 4,096 cycles after a grant no further command issues under the lease. Subject: a = g. -/
  | leaseTimeLimit
  /-- R69: The holding context has no pending great-array instruction for 16 cycles, and the lease ends. Subject: a = g. -/
  | leaseIdleEnd
  /-- R398: A lease reaching 16,384 cycles has its commands aborted and its holder takes the lease-timeout trap. Subject: a = g. -/
  | leaseTimeout
  /-- R83: The Twilight engine of the chosen Dusk die reserves the stream's blocks as IN_FLIGHT once a die has room. Subject: a = nid. -/
  | twilightReservation
  /-- R84: A Twilight engine receives a sealed notice, samples CANCEL, reads the seal record with acquire and issues the layer's pulls. Subject: x = srec, a = layer. -/
  | sealedNotice
  /-- R85: A pulled source block arrives, is converted to E4M3, written LANDED with its header and table half, and added into LANDCRC and LANDN. Subject: x = srec, a = layer, b = blk, p = readFault, q = writeFault. -/
  | twilightPullReturn
  /-- R87: The source seal unit receives the release notice after commit and frees its source copies lazily. Subject: x = srec. -/
  | releaseNotice
  /-- R88: The source seal unit receives release-done, frees its copies and issues the CANCELLED transition. Subject: x = srec. -/
  | releaseDoneNotice
  /-- R90: A fabric path down for 1 ms counts as a reset of the die beyond it for the side that lost it. Subject: a = die. -/
  | fabricPathTimeout
  /-- R81: Within 64 µs after commit each LANDED header's STATE is rewritten to LIVE. Subject: a = asid, x = va. -/
  | headerLiveRewrite
  /-- R81: The home controller completes the wipe of a FREED block, which returns to EMPTY in its pool. Subject: a = vi, b = die, c = slot. -/
  | blockWipeComplete
  /-- R91: A fetch line returns from the global window, or its translation or stale-generation fault is reported at the line. -/
  | lineFetch
  /-- R94: The sequencer decodes a whole line and delivers its slots to the stream queues when they have room. -/
  | lineDelivery
  /-- R125: An S, V or M result lands in its register, predicate, sidecar or port entry L cycles after issue, and raises its flags. Subject: a = k. -/
  | resultWrite
  /-- R142: A counted instruction completes and decrements NCL, NCS, NCX or NCM. Subject: a = k. -/
  | completionCounterDecrement
  /-- R333: A barrier phase completes when every iteration is dispatched and every participant has arrived or exited, releasing barw waiters with acquire. Subject: a = k. -/
  | barrierPhaseComplete
  /-- R168: The response of an uncached S-stream access returns, writing its register and releasing the S stream. -/
  | globalAccessResponse
  /-- R207: An address-generator run generates its next access when a port entry can be reserved or store data is ready. Subject: a = set. -/
  | agAccessGenerate
  /-- R312: An access reaches its home and is performed, taking its place in the coherence order. Subject: acc = q, a = k, ecc = e. -/
  | accessPerformed
  /-- R258: An mmacro runs one K group, two passes with buffer loads, and sets MACDONE at its group boundary. -/
  | mmacroGroup
  /-- R282: An mscan runs one atomic step: offsets, one Kogge-Stone level, or the carry composition, and advances STEP. -/
  | mscanStep
  /-- R294: A translation miss takes a walk slot, reads one entry per level, and fills the caches or raises a translation or permission fault. Subject: a = die, b = asid, x = va, kind = kind. -/
  | pageTableWalk
  /-- R287: A write to a vault's DWIN sets its direct-window range and ASID, or is ignored when BASE or LIMIT is invalid. Subject: a = w, x = v. -/
  | dwinWrite
  /-- R297: A memory controller or fabric port adopts an ASID's new GEN at one instant and rejects later old-generation accesses. Subject: a = ctl, b = asid. -/
  | generationAdoption
  /-- R297: After caches and replay buffers are dropped and old fabric accesses answered, a generation advance completes. Subject: a = asid. -/
  | generationAdvanceComplete
  /-- R302: VI-page command OP 1 drops every cached translation of the ASID. Subject: a = vi. -/
  | viTlbInvalidateAll
  /-- R302: VI-page command OP 2 drops the ASID's translations of the page at ARG. Subject: a = vi. -/
  | viTlbInvalidatePage
  /-- R302: VI-page command OP 3 advances the ASID's generation and returns the new GEN in RES. Subject: a = vi. -/
  | viGenAdvance
  /-- R302: VI-page command OP 4 advances the generation and installs the root at ARG. Subject: a = vi. -/
  | viGenAdvanceRoot
  /-- R302: VI-page command OP 5 probes ARG as a read and returns the yprobe result in RES. Subject: a = vi. -/
  | viProbe
  /-- R303: A bank idle for RETIDLE × 64 ns enters retention sleep. Subject: a = w, b = bank. -/
  | bankRetentionSleep
  /-- R303: A sleeping bank completes its wake, and waiting accesses are performed. Subject: a = w, b = bank. -/
  | bankWake
  /-- R303: At 120 ns without a completed wake the controller returns the access unperformed for reissue and counts WAKEREPLAY. Subject: a = w, b = bank. -/
  | longWakeReturn
  /-- R304: Every 10 µs a bank's temperature sets its refresh rate and throttling, stepping up at once and down after 1 ms. Subject: a = w, b = bank, c = temp, p = coolFor1ms. -/
  | thermalSensorRead
  /-- R304: A bank refreshes rows at its current rate, sleeping or not. Subject: a = w, b = bank. -/
  | bankRefresh
  /-- R305: At the end of each 16 µs window a vault replaces RTAX in one action. Subject: a = w, b = lost, c = busy, d = cycles. -/
  | rtaxWindowEnd
  /-- R373: A yielded Midnight iteration is restored on its own base vector core once its quad's FGD has fallen to its threshold for a window. Subject: a = k, ctx = c. -/
  | midnightRestore
  /-- R307: A write-combining line drains to DRAM after 512 cycles without a write, when full, or when its place is needed. Subject: a = line. -/
  | wcLineDrain
  /-- R375: A base vector core's direct-row access holds its lines, drains them from the write-combining buffer, accesses DRAM and releases them. Subject: a = k, ecc = e. -/
  | directRowAccess
  /-- R345: The reduction unit accepts an xred addition, opening a line if needed, or closes a line from another region first. Subject: a = die, b = k. -/
  | reductionAddition
  /-- R358: A write to a die's pool registers while FREE equals POOLN sets the pool and starts wiping every slot; otherwise it is ignored. Subject: a = vi, b = die, p = hi, x = v. -/
  | blockPoolWrite
  /-- R358: The pool wipe completes and FREE reaches POOLN. Subject: a = vi, b = die. -/
  | poolWipeComplete
  /-- R361: On the loop core's request, the owner die frees every LIVE block whose last survivor lies before WSTART. Subject: a = asid, x = srec. -/
  | slidingWindowRelease
  /-- R394: A trap is taken at its precision point: queued instructions are discarded, runs stop, issued work completes and the context ends as exit does. -/
  | trap
  /-- R397: A context that delivers no line for WDLIM × 65,536 cycles takes the watchdog trap. -/
  | watchdogExpiry
  /-- R401: The save engine captures in-flight operations, drains access streams, transfers and matrix commands, and writes the save area to a free slot. -/
  | save
  /-- R404: The scheduler restores a saved iteration on its core: slots, FMT, ranges, registers, pending commands, and skewed re-issue of captured operations. Subject: a = k, ctx = c. -/
  | restore
  /-- R396: A read of TRAPLOST returns the count of lost trap records and clears it. Subject: a = vi. -/
  | traplostRead
  /-- R396: A read of DEGCNT returns the count of degraded completions and clears it. Subject: a = vi. -/
  | degcntRead
  /-- R446: A read of THROTCNT returns the throttled milliseconds and clears it. -/
  | throtcntRead
  /-- R396: A write to SAVEBASE, SAVEN or SAVESZ takes effect only while SAVEUSE is 0. Subject: a = vi, b = off, x = v. -/
  | saveSlotConfigWrite
  /-- R416: RSTCTL.CORE resets a die's core domain: iterations end with cause 0x12, served transfers get error completions, scratch and pools are wiped. Subject: a = die. -/
  | coreReset
  /-- R417: RSTCTL.DIE starts a die reset: the hub sends QUIESCE to every linked die. Subject: a = die. -/
  | dieReset
  /-- R417: A neighbour receives QUIESCE, fences its link and gives waiting requests error completions. Subject: a = die, b = nb. -/
  | quiesce
  /-- R417: After 10 µs a neighbour answers every request still outstanding to the resetting die with an error completion and reports FENCED. Subject: a = die, b = nb. -/
  | quiesceWindowEnd
  /-- R417: With every neighbour FENCED the hub resets both domains of the die, wiping memory and reloading generations. Subject: a = die. -/
  | dieResetExecute
  /-- R417: The links of a reset die retrain, the hub lifts the fence and traffic resumes. Subject: a = die. -/
  | linkRetrain
  /-- R418: An access receiving an error completion ends with the die-unreachable fault, and a read yields zeros. Subject: acc = q, a = k. -/
  | errorCompletion
  /-- R427: A sampler engine applies the stages to its shard of a row and reports its local maximum, candidate list and exact weight sums. Subject: a = nid, b = shard. -/
  | samplerShard
  /-- R428: The hub merge stage fixes M, merges candidate lists, decides survivors and draws for each row. Subject: a = nid. -/
  | samplerMerge
  /-- R434: On a completion interrupt the firmware writes TOKS, POS and GENTOK, applies the window, ends or cancels streams and clears batch entries. Subject: a = vi, x = srec, y = out, opt = slot. -/
  | loopCoreCommit
  /-- R443: Power-on starts a package reset through RESET, BOOT, LINKS and READY. -/
  | powerOn
  /-- R443: The reset pin starts a package reset. -/
  | resetPin
  /-- R443: A write of 1 to PKGRST starts a package reset, wiping every die, memory and hub structure. -/
  | pkgrst
  /-- R449: After the wipe the security block verifies the firmware image hash, signature, key and FWSVN, and releases the loop core or sets BOOTSTAT. Subject: img = img. -/
  | bootVerify
  /-- R444: In LINKS the UCIe and fabric links train, the package number is assigned, and the package enters READY. Subject: a = num, b = up, p = clash, q = the package bridges. -/
  | linkTraining
  /-- R446: A write of PWRLIM within 400-2,000 W changes the power limit within 1 ms; other values are ignored. Subject: a = v. -/
  | pwrlimWrite
  /-- R448: A signed lifecycle command advances LCS along an allowed edge, wipes everything and resets the package, or is refused. Subject: a = target, p = signed, q = devMatch. -/
  | lifecycleAdvance
  /-- R450: An attestation request with a nonce returns a signed report of identity, firmware hash and VI state. Subject: a = nonce. -/
  | attestationRequest
  /-- R451: An MCTP control message over I3C is served. Subject: a = cmd. -/
  | mctpControlMessage
  /-- R451: A Flewiac vendor-defined message returns the identity registers. -/
  | readIdentity
  /-- R451: A Flewiac vendor-defined message returns the device counters. -/
  | readCounters
  /-- R322: A fabric port that fixed traffic to a remote die goes down; traffic for that die moves to another port only after every request on the old port has been answered. Subject: a = port. -/
  | fabricPortDown
  /-- R28: The PCIe endpoint trains down to x8 or x4 when lanes of its x16 link fail. Subject: a = lanes. -/
  | endpointTrainDown
  /-- R451: The board's I3C controller assigns the package its dynamic address as an I3C target. Subject: a = addr. -/
  | dynamicAddressAssignment
deriving DecidableEq, Repr

end Sys2Proof
end

