-- ==== Sys2Proof/WellFormed.lean ====
section
/-! DEFINITION. Which instructions are well formed: the static checks of R99. `wf` is the absence of every cause of the
illegal-instruction trap that the words alone decide; `present` says which profile has an opcode (R2); `operandsOk` is
the absence of every cause of the illegal-operand trap that the words and the context's requests decide. -/

namespace Sys2Proof

/-- The profiles of the instruction set (R1). -/
inductive Profile where
  | p | d | b
deriving DecidableEq, Repr

/-- What a kernel header requests (R48, R49), as the checks of R99 use it: registers, sets, and which scratch ranges
are used. -/
structure Request where
  vregs : Nat
  pregs : Nat
  agsets : Nat
  ranges : BitVec 4
deriving DecidableEq, Repr

/-- The integer types of R105. -/
def isIntTy (t : BitVec 3) : Bool := 4 ≤ t.toNat
/-- The types float and int of R224. -/
def tyNum (t : BitVec 3) : Bool := t != 3
/-- f32, bf16 and f16 (R224). -/
def tyFloat (t : BitVec 3) : Bool := t.toNat ≤ 2
/-- s32, z32, s16 and s8 (R224). -/
def tyInt (t : BitVec 3) : Bool := isIntTy t
/-- All eight types. -/
def tyAll (_ : BitVec 3) : Bool := true
/-- float and e4m3, the types of vclass (R224). -/
def tyCls (t : BitVec 3) : Bool := t.toNat ≤ 3
/-- e4m3 only. -/
def tyE4M3 (t : BitVec 3) : Bool := t == 3
/-- f32 only. -/
def tyF32 (t : BitVec 3) : Bool := t == 0

/-- The bits of an immediate of a type that R106 uses. -/
def immBits (t : BitVec 3) : Nat :=
  match t.toNat with
  | 0 | 4 | 5 => 32
  | 1 | 2 | 6 => 16
  | _ => 8

/-- A source field holds the immediate code 0x39 (R104). -/
def usesImm (a b : BitVec 6) : Bool := a == 0x39 || b == 0x39

/-- A modifier word of R106 names one of the five modes and nothing else. -/
def modOk (e : W32) : Bool := e.toNat ≤ 4

/-- The E words of a vector instruction: the immediate when a source field asks for it, then at most one modifier where
the instruction takes one (R97, R106, R225). -/
def vWords (imm mod : Bool) (x : List W32) : Bool :=
  match imm, x with
  | true, [_] => true
  | true, [_, m] => mod && modOk m
  | false, [] => true
  | false, [m] => mod && modOk m
  | _, _ => false

/-- The bits and words of a V-format instruction (R105, R109, R224, R225). -/
def vOk (w : FV) (ty : BitVec 3 → Bool) (one mod fz0 sat0 p0 : Bool) : Bool :=
  ty w.t && (!isIntTy w.t || !w.fzi) && (!one || w.b == 0x38) && (!fz0 || (!w.fzi && !w.fzo))
    && (!(sat0 && isIntTy w.t) || !w.fzo) && (!p0 || !w.p)
    && vWords (usesImm w.a w.b) (mod && !isIntTy w.t) w.x

/-- The bits and words of a VS-format instruction whose vector source field is `src` (R110, R225). -/
def vsOk (w : FV) (ty : BitVec 3 → Bool) (src : Option (BitVec 6)) : Bool :=
  ty w.t && !w.fzi && !w.fzo && !w.p && vWords (src == some 0x39) false w.x

/-- The bits and words of a VC-format instruction (R102, R225). -/
def vcOk (w : FVC) (ty : BitVec 3 → Bool) : Bool :=
  ty w.t && (!isIntTy w.t || !w.fzi) && vWords (usesImm w.a w.b) false w.x

/-- In VK, bits [2] and [1] follow the result type (R105). -/
def vkOk (w : FVK) : Bool := !isIntTy w.t || !w.fzi
/-- The E words of a VK-format instruction. -/
def vkWords (w : FVK) (mod : Bool) : Bool := vWords (w.a == 0x39) mod w.x

/-- The limits of loop (R103, R128). -/
def loopOk (w : FL) : Bool :=
  match w.n.toNat, w.x with
  | 0, [] => w.bx == 0 && w.by' == 0
  | 1, [e] => w.bx != 0 && w.by' == 0 && e.toNat < 65536
  | 2, [_] => w.bx != 0 && w.by' != 0 && w.bx != w.by'
  | _, _ => false

/-- f = 0 [5], FZO [4], FZI [3], RM [2:0] with RM 0 to 4 (R164, R165). -/
def rmOk (f : BitVec 6) : Bool := f.toNat / 32 == 0 && f.toNat % 8 ≤ 4

/-- The SRC field of mma and its a field (R249). -/
def mmaSrc (w : FR) : Bool :=
  match w.f.toNat % 4 with
  | 0 => w.a.toNat ≤ 7
  | 1 => true
  | 2 => w.a == 0
  | _ => false

/-- TY and the low field of atom (R216). -/
def atomOk (f : BitVec 6) : Bool :=
  if f.toNat / 16 < 2 then f.toNat % 2 == 0 || 6 ≤ f.toNat / 2 % 8
  else f.toNat / 4 % 4 != 3 || f.toNat % 4 == 0

/-- The registers that setm reaches (R121, R147). -/
def setmNum (n : BitVec 12) : Bool := 3 ≤ n.toNat && n.toNat ≤ 7
/-- The numbers of the control registers (R121, R244). -/
def isCr (n : BitVec 12) : Bool := n.toNat ≤ 0x0E || (0x10 ≤ n.toNat && n.toNat ≤ 0x27)
/-- The read-only control registers (R121). -/
def crReadOnly (n : BitVec 12) : Bool :=
  n.toNat ≤ 1 || (8 ≤ n.toNat && n.toNat ≤ 0x0D)

/-- The instruction shows no cause of the illegal-instruction trap (R99). A device step carries no word. -/
def wf (i : Instr) : Bool :=
  match i with
  | .moduleFailure | .flitRetry | .requestSlotGrant | .fabricPortTrainingFailure | .powerWindow
  | .junctionOvertemp | .regionStart | .regionCompletion | .nodeCompletion | .kernelNodeStart | .condNode
  | .loopNode | .switchNode | .signalNode | .sampleNode | .handoffNode | .midnightNode | .tileDispatch
  | .cancelRequest | .viEnable | .viDisable | .viStop | .registerWrite | .wqTailWrite | .wqNop | .wqStart
  | .wqAdmit | .wqIterate | .wqerrRead | .tokenQueueDepthWrite | .tokenQueueFlush | .tokenQueueAttempt
  | .preemptionRequest | .mincoresStarvation | .contextStallSwitch | .contextChangeComplete | .leaseArbitration
  | .leaseEnd | .leaseTimeLimit | .leaseIdleEnd | .leaseTimeout | .twilightReservation | .sealedNotice
  | .twilightPullReturn | .releaseNotice | .releaseDoneNotice | .fabricPathTimeout | .headerLiveRewrite
  | .blockWipeComplete | .lineFetch | .lineDelivery | .resultWrite | .completionCounterDecrement
  | .barrierPhaseComplete | .globalAccessResponse | .agAccessGenerate | .accessPerformed | .mmacroGroup
  | .mscanStep | .pageTableWalk | .dwinWrite | .generationAdoption | .generationAdvanceComplete
  | .viTlbInvalidateAll | .viTlbInvalidatePage | .viGenAdvance | .viGenAdvanceRoot | .viProbe
  | .bankRetentionSleep | .bankWake | .longWakeReturn | .thermalSensorRead | .bankRefresh | .rtaxWindowEnd
  | .midnightRestore | .wcLineDrain | .directRowAccess | .reductionAddition | .blockPoolWrite | .poolWipeComplete
  | .slidingWindowRelease | .trap | .watchdogExpiry | .save | .restore | .traplostRead | .degcntRead
  | .throtcntRead | .saveSlotConfigWrite | .coreReset | .dieReset | .quiesce | .quiesceWindowEnd
  | .dieResetExecute | .linkRetrain | .errorCompletion | .samplerShard | .samplerMerge | .loopCoreCommit
  | .powerOn | .resetPin | .pkgrst | .bootVerify | .linkTraining | .pwrlimWrite | .lifecycleAdvance
  | .attestationRequest | .mctpControlMessage | .readIdentity | .readCounters | .nop _ | .br _ | .call _ | .ret _
  | .btok _ | .wait _ | .phint _ | .resume _ | .exit _ | .cede _ | .sel _ | .vtok _ | .xcopy2d _ | .xgath _
  | .xscat _ | .xmcast _ | .xnred _ | .xnamax _ | .amark _ | .ytqs _ | .fabricPortDown | .endpointTrainDown
  | .dynamicAddressAssignment =>
      true
  | .callr w | .popc w | .clz w | .ctz w | .amaxx w | .xnstat w | .agld w | .agst w | .ldv w | .stv w | .amovToA w
  | .yperf w =>
      w.b == 0 && w.f == 0
  | .brr w | .mrowf w | .xpub w | .xkvapp w | .agstop w | .yrest w =>
      w.d == 0 && w.b == 0 && w.f == 0
  | .bc w | .bcr w =>
      w.cc.toNat ≤ 5
  | .loop w =>
      w.g == 0 && loopOk w && w.n == 0
  | .loopBound w =>
      w.g == 0 && loopOk w && w.n != 0
  | .lend w | .lbrk w | .lcont w =>
      w.g == 0
  | .lrd w =>
      (w.a.toNat ≤ 5 || w.a == 7) && w.b.toNat ≤ 2 && w.f == 0
  | .fence w =>
      w.scope.toNat ≤ 4 && w.cls != 0 && w.id == 0
  | .bar w | .barv w | .barw w | .sstep w =>
      w.cls == 0 && 1 ≤ w.scope.toNat && w.scope.toNat ≤ 3
  | .setm w =>
      setmNum w.num
  | .add w | .sub w | .mul w | .mulh w | .mulhu w | .div w | .divu w | .rem w | .remu w | .and w | .or w | .xor w
  | .sll w | .srl w | .sra w | .min w | .max w | .minu w | .maxu w | .ppopc w | .xcopy w | .xshadOpen w | .xplan w
  | .xfill w | .xnclone w | .xncomp w | .xnscale w | .ygen w | .ysave w =>
      w.f == 0
  | .cmp w =>
      w.f.toNat ≤ 5
  | .dep w | .ext w | .exts w =>
      w.b.toNat + w.f.toNat + 1 ≤ 64
  | .fadd w | .fsub w | .fmul w | .fdiv w | .fma w =>
      rmOk w.f
  | .fmin w | .fmax w =>
      rmOk w.f && w.f.extractLsb' 0 3 == 0
  | .fcmp w =>
      w.f.toNat / 16 == 0 && w.f.toNat % 8 ≤ 4
  | .fcvt w =>
      w.b == 0 && w.f.toNat % 8 ≤ 4 && (w.f.toNat / 16 != 3 || w.f.toNat % 8 == 0)
  | .addi w | .andi w | .ori w | .xori w | .aadd w =>
      w.x.length ≤ 2
  | .slli w | .srli w | .srai w =>
      w.x.length == 0 && w.imm.toNat < 64
  | .gld w =>
      w.sz.toNat ≤ 6 && w.x.length ≤ 1 && (w.x.length == 0 || w.off == 0)
  | .gst w =>
      w.sz.toNat ≤ 6 && w.sz.toNat % 2 == 0 && w.x.length ≤ 1 && (w.x.length == 0 || w.off == 0)
  | .gatom w =>
      w.f.toNat % 16 ≤ 12
  | .vadd w | .vsub w | .vmul w | .vfma w | .vfnma w =>
      vOk w tyNum false true false false false
  | .vdiv w =>
      vOk w tyFloat false true false false false
  | .vmin w | .vmax w =>
      vOk w tyNum false false false true false
  | .vabs w | .vneg w =>
      vOk w tyNum true false false false false
  | .vsqrt w | .vrsqrt w | .vrcp w | .vexp2 w | .vlog2 w | .vexp w | .vtanh w | .vsigm w | .vsilu w =>
      vOk w tyFloat true true false false false
  | .vand w | .vor w | .vxor w =>
      vOk w tyAll false false true true false
  | .vshl w =>
      vOk w tyInt false false false false false
  | .vshr w =>
      vOk w tyInt false false false true false
  | .vcmp w =>
      vcOk w tyNum
  | .vclass w =>
      vcOk w tyCls && w.b == 0x38 && !w.fzi
  | .vsel w =>
      vOk w tyAll false false true false true
  | .vcvt w =>
      vkOk w && vkWords w (!(isIntTy w.s && isIntTy w.t)) && !(!isIntTy w.s && isIntTy w.t && w.fzo)
  | .vquant w =>
      vkOk w && vkWords w true && tyFloat w.s && w.t == 3 && !w.p
  | .vdequant w =>
      vkOk w && vkWords w true && w.s == 3 && tyFloat w.t && !w.p
  | .vsetsc w =>
      vsOk w tyE4M3 none && w.a == 0x38
  | .vgetsc w =>
      vsOk w tyE4M3 (some w.a) && w.b == 0
  | .vredsum w | .vscan w =>
      vOk w tyNum true true false false false
  | .vredmax w | .vredmin w | .vscanmax w =>
      vOk w tyNum true false false true false
  | .vredamax w =>
      vOk w tyFloat true false false false false
  | .vperm w | .vzip w | .vunzip w =>
      vOk w tyAll false false true false false
  | .vbcast w | .vext w =>
      vsOk w tyAll (some w.a)
  | .vins w =>
      vsOk w tyAll none
  | .vsmx w =>
      vOk w tyF32 false false true false true
  | .vmov w =>
      vOk w tyAll true false true false false
  | .viota w =>
      vOk w tyInt true false true false false && w.a == 0x38
  | .vplog w =>
      w.sd == 0 && w.op.toNat ≤ 4 && (w.op != 4 || w.pb == 0)
  | .vpcnt w =>
      w.pd == 0 && w.op == 0
  | .mldb w =>
      w.d.toNat ≤ 1 && w.f.toNat ≤ 1
  | .mma w =>
      w.d.toNat ≤ 1 && mmaSrc w
  | .mmacro w =>
      w.d.toNat ≤ 1 && w.b == 0 && w.f == 0
  | .mdrain w =>
      w.d.toNat ≤ 1 && w.f.toNat ≤ 15 && w.f.toNat / 2 % 4 != 3
  | .mzero w =>
      w.d.toNat ≤ 1 && w.a == 0 && w.b == 0 && w.f.toNat ≤ 1
  | .mscan w =>
      w.d.toNat ≤ 1 && w.a == 0 && w.f == 0
  | .mrel w =>
      w.d == 0 && w.a == 0 && w.b == 0 && w.f.toNat ≤ 7
  | .mmode w =>
      w.d.toNat ≤ 3 && w.a == 0 && w.b == 0 && w.f.toNat ≤ 1
  | .mgain w | .mcarry w =>
      w.d.toNat ≤ 3 && w.f.toNat ≤ 1
  | .mmask w =>
      w.d.toNat ≤ 3 && w.b == 0 && w.f == 0
  | .mstat w =>
      w.a.toNat ≤ 3 && w.b.toNat ≤ 5 && w.f == 0
  | .dmvld w =>
      w.d.toNat ≤ 7 && 1 ≤ w.b.toNat && w.d.toNat + w.b.toNat ≤ 8 && w.f.toNat ≤ 1
  | .dmv w =>
      w.d.toNat ≤ 3 && w.a.toNat ≤ 7 && w.f.toNat ≤ 7
  | .dmdrain w =>
      w.d.toNat ≤ 3 && w.f.toNat ≤ 7
  | .dmzero w =>
      w.d.toNat ≤ 3 && w.a == 0 && w.b == 0 && w.f == 0
  | .dmstep w =>
      w.d.toNat ≤ 3 && w.a == 0 && w.f == 0
  | .xsend w =>
      w.b == 0 && w.f.toNat ≤ 1
  | .xred w =>
      w.f.toNat ≤ 7 && (w.f.toNat / 4 == 0 || (w.f.toNat % 2 == 1 && w.a == 0))
  | .xredmax w | .xncrc w =>
      w.f.toNat ≤ 1
  | .xshadDiscard w =>
      w.f == 1 && w.d == 0 && w.b == 0
  | .xshadUnreg w =>
      w.f == 2 && w.d == 0 && w.b == 0
  | .xwipe w | .xnwipe w =>
      w.a == 0 && w.f == 0
  | .xsig w =>
      w.b == 0 && w.f.toNat % 4 ≤ 2 && w.f.toNat / 4 ≤ 4
  | .agset w =>
      w.b.toNat ≤ 5 && w.f == 0
  | .aget w =>
      w.b.toNat ≤ 7 && w.f == 0
  | .lds w =>
      w.b.toNat ≤ 6 && w.f == 0
  | .sts w =>
      w.b.toNat ≤ 6 && w.b.toNat % 2 == 0 && w.f == 0
  | .spfmt w =>
      w.d.toNat ≤ 6 && w.f == 0
  | .atom w =>
      atomOk w.f
  | .amovToS w =>
      w.b == 1 && w.f == 0
  | .ycsrr w =>
      w.a == 0 && isCr w.num
  | .ycsrw w | .ycsrs w | .ycsrc w =>
      isCr w.num && (w.a == 0 || !crReadOnly w.num)
  | .ytrap w =>
      w.d == 0
  | .ysig w | .ytlbi w =>
      w.d == 0 && w.f == 0
  | .yprobe w =>
      w.b.toNat ≤ 3 && w.f == 0
  | .ytqr w =>
      w.d != w.b || w.d == 0
  | .yswap w =>
      w.d == 0 && w.a == 0 && w.b == 0 && w.f == 0
  | .yctx w =>
      w.a == 0 && w.b.toNat ≤ 3 && w.f == 0

/-- The executing core's profile has the instruction, with the slots and codes it takes there (R2, R111, R112, R114,
R249, R267, R277). -/
def present (p : Profile) (i : Instr) : Bool :=
  match i with
  | .moduleFailure | .flitRetry | .requestSlotGrant | .fabricPortTrainingFailure | .powerWindow
  | .junctionOvertemp | .regionStart | .regionCompletion | .nodeCompletion | .kernelNodeStart | .condNode
  | .loopNode | .switchNode | .signalNode | .sampleNode | .handoffNode | .midnightNode | .tileDispatch
  | .cancelRequest | .viEnable | .viDisable | .viStop | .registerWrite | .wqTailWrite | .wqNop | .wqStart
  | .wqAdmit | .wqIterate | .wqerrRead | .tokenQueueDepthWrite | .tokenQueueFlush | .tokenQueueAttempt
  | .preemptionRequest | .mincoresStarvation | .contextStallSwitch | .contextChangeComplete | .leaseArbitration
  | .leaseEnd | .leaseTimeLimit | .leaseIdleEnd | .leaseTimeout | .twilightReservation | .sealedNotice
  | .twilightPullReturn | .releaseNotice | .releaseDoneNotice | .fabricPathTimeout | .headerLiveRewrite
  | .blockWipeComplete | .lineFetch | .lineDelivery | .resultWrite | .completionCounterDecrement
  | .barrierPhaseComplete | .globalAccessResponse | .agAccessGenerate | .accessPerformed | .mmacroGroup
  | .mscanStep | .pageTableWalk | .dwinWrite | .generationAdoption | .generationAdvanceComplete
  | .viTlbInvalidateAll | .viTlbInvalidatePage | .viGenAdvance | .viGenAdvanceRoot | .viProbe
  | .bankRetentionSleep | .bankWake | .longWakeReturn | .thermalSensorRead | .bankRefresh | .rtaxWindowEnd
  | .midnightRestore | .wcLineDrain | .directRowAccess | .reductionAddition | .blockPoolWrite | .poolWipeComplete
  | .slidingWindowRelease | .trap | .watchdogExpiry | .save | .restore | .traplostRead | .degcntRead
  | .throtcntRead | .saveSlotConfigWrite | .coreReset | .dieReset | .quiesce | .quiesceWindowEnd
  | .dieResetExecute | .linkRetrain | .errorCompletion | .samplerShard | .samplerMerge | .loopCoreCommit
  | .powerOn | .resetPin | .pkgrst | .bootVerify | .linkTraining | .pwrlimWrite | .lifecycleAdvance
  | .attestationRequest | .mctpControlMessage | .readIdentity | .readCounters | .nop _ | .br _ | .call _
  | .callr _ | .ret _ | .brr _ | .bc _ | .bcr _ | .loop _ | .loopBound _ | .lend _ | .lbrk _ | .lcont _ | .lrd _
  | .btok _ | .wait _ | .fence _ | .bar _ | .barv _ | .barw _ | .sstep _ | .setm _ | .phint _ | .resume _
  | .exit _ | .cede _ | .add _ | .sub _ | .mul _ | .mulh _ | .mulhu _ | .div _ | .divu _ | .rem _ | .remu _
  | .and _ | .or _ | .xor _ | .sll _ | .srl _ | .sra _ | .min _ | .max _ | .minu _ | .maxu _ | .cmp _ | .sel _
  | .popc _ | .clz _ | .ctz _ | .ppopc _ | .dep _ | .ext _ | .exts _ | .fadd _ | .fsub _ | .fmul _ | .fdiv _
  | .fma _ | .fmin _ | .fmax _ | .fcmp _ | .fcvt _ | .amaxx _ | .addi _ | .andi _ | .ori _ | .xori _ | .slli _
  | .srli _ | .srai _ | .gld _ | .gst _ | .gatom _ | .vadd _ | .vsub _ | .vmul _ | .vfma _ | .vfnma _ | .vdiv _
  | .vmin _ | .vmax _ | .vabs _ | .vneg _ | .vsqrt _ | .vrsqrt _ | .vrcp _ | .vexp2 _ | .vlog2 _ | .vexp _
  | .vtanh _ | .vsigm _ | .vsilu _ | .vand _ | .vor _ | .vxor _ | .vshl _ | .vshr _ | .vcmp _ | .vclass _
  | .vsel _ | .vcvt _ | .vquant _ | .vdequant _ | .vsetsc _ | .vgetsc _ | .vredsum _ | .vredmax _ | .vredmin _
  | .vredamax _ | .vscan _ | .vscanmax _ | .vperm _ | .vbcast _ | .vins _ | .vext _ | .vzip _ | .vunzip _
  | .vsmx _ | .vtok _ | .vmov _ | .viota _ | .vplog _ | .vpcnt _ | .xcopy _ | .xcopy2d _ | .xgath _ | .xscat _
  | .xmcast _ | .xsend _ | .xred _ | .xredmax _ | .xshadOpen _ | .xshadDiscard _ | .xshadUnreg _ | .xpub _
  | .xkvapp _ | .xplan _ | .xfill _ | .xwipe _ | .xsig _ | .agset _ | .agld _ | .agst _ | .agstop _ | .aget _
  | .ldv _ | .stv _ | .lds _ | .sts _ | .amark _ | .spfmt _ | .atom _ | .amovToA _ | .amovToS _ | .aadd _
  | .fabricPortDown | .endpointTrainDown | .dynamicAddressAssignment =>
      true
  | .mldb _ | .mma _ | .mmacro _ | .mdrain _ | .mzero _ | .mrowf _ | .mscan _ | .mrel _ =>
      p == .p
  | .mmode w | .mcarry w | .mmask w =>
      p == .d || (p == .p && w.d.toNat ≤ 1)
  | .mgain w =>
      (p == .d && w.a.toNat ≤ 7) || (p == .p && w.d.toNat ≤ 1)
  | .mstat w =>
      p == .d || (p == .p && w.a.toNat ≤ 1 && w.b != 3 && w.b != 4)
  | .dmvld _ | .dmv _ | .dmdrain _ | .dmzero _ | .dmstep _ =>
      p == .d
  | .xnred _ | .xnamax _ | .xnclone _ | .xncomp _ | .xncrc _ | .xnwipe _ | .xnstat _ | .xnscale _ =>
      p == .b
  | .ycsrr _ | .ycsrw _ | .ycsrs _ | .ycsrc _ | .ytrap _ | .ysig _ | .yperf _ | .ytlbi _ | .yprobe _ | .ygen _
  | .ytqs _ | .ytqr _ | .ysave _ | .yrest _ | .yswap _ | .yctx _ =>
      p != .b

/-- A register source or destination group of n registers lies within the request (R49, R226). -/
def groupIn (q : Request) (c n : Nat) : Bool := c + n ≤ 48 && c + n ≤ q.vregs
/-- A source operand code (R104) of a group of n vectors (R226). -/
def srcOk (q : Request) (c : BitVec 6) (n : Nat) : Bool :=
  if c.toNat < 0x30 then groupIn q c.toNat n else c.toNat ≤ 0x39
/-- A destination operand code (R104) of a group of n vectors (R226). -/
def dstOk (q : Request) (c : BitVec 6) (n : Nat) : Bool :=
  if c.toNat < 0x30 then groupIn q c.toNat n else c.toNat ≤ 0x38
/-- A field that must name a register (R104, R212, R239, R243). -/
def regOk (q : Request) (c : BitVec 6) : Bool := c.toNat < 0x30 && groupIn q c.toNat 1
/-- A predicate within the request; p0 is always accepted (R49, R119). -/
def prOk (q : Request) (p : BitVec 4) : Bool := p == 0 || p.toNat < q.pregs
/-- The vectors of a group (R226). -/
def groupOf (t : BitVec 3) : Nat := if t == 0 then 4 else 2
/-- The unused high bits of an immediate are zero (R99, R106). -/
def immOk (t : BitVec 3) (imm : Bool) (x : List W32) : Bool :=
  match imm, x with
  | true, e :: _ => e.toNat < 2 ^ immBits t
  | _, _ => true
/-- The unused bits of a second immediate word of the I format are zero (R106). -/
def iOk (x : List W32) : Bool :=
  match x with
  | [_, e] => e.toNat < 2 ^ 20
  | _ => true
/-- phint names only registers and ranges of the request (R148). -/
def phOk (q : Request) (w : FPH) : Bool :=
  w.e1.toNat / 2 ^ q.vregs == 0 && (w.e2.toNat % 65536) * 2 ^ 32 / 2 ^ q.vregs == 0
    && w.e2.toNat / 65536 / 2 ^ q.pregs == 0 && (w.sr &&& ~~~ q.ranges) == 0
/-- The source of dmvld (R249). -/
def dmOk (q : Request) (w : FR) : Bool :=
  if w.a.toNat < 0x30 then groupIn q w.a.toNat w.b.toNat else w.a.toNat ≤ 0x38

/-- The instruction shows no cause of the illegal-operand trap that its words and the request decide (R99, R49). -/
def operandsOk (q : Request) (i : Instr) : Bool :=
  match i with
  | .moduleFailure | .flitRetry | .requestSlotGrant | .fabricPortTrainingFailure | .powerWindow
  | .junctionOvertemp | .regionStart | .regionCompletion | .nodeCompletion | .kernelNodeStart | .condNode
  | .loopNode | .switchNode | .signalNode | .sampleNode | .handoffNode | .midnightNode | .tileDispatch
  | .cancelRequest | .viEnable | .viDisable | .viStop | .registerWrite | .wqTailWrite | .wqNop | .wqStart
  | .wqAdmit | .wqIterate | .wqerrRead | .tokenQueueDepthWrite | .tokenQueueFlush | .tokenQueueAttempt
  | .preemptionRequest | .mincoresStarvation | .contextStallSwitch | .contextChangeComplete | .leaseArbitration
  | .leaseEnd | .leaseTimeLimit | .leaseIdleEnd | .leaseTimeout | .twilightReservation | .sealedNotice
  | .twilightPullReturn | .releaseNotice | .releaseDoneNotice | .fabricPathTimeout | .headerLiveRewrite
  | .blockWipeComplete | .lineFetch | .lineDelivery | .resultWrite | .completionCounterDecrement
  | .barrierPhaseComplete | .globalAccessResponse | .agAccessGenerate | .accessPerformed | .mmacroGroup
  | .mscanStep | .pageTableWalk | .dwinWrite | .generationAdoption | .generationAdvanceComplete
  | .viTlbInvalidateAll | .viTlbInvalidatePage | .viGenAdvance | .viGenAdvanceRoot | .viProbe
  | .bankRetentionSleep | .bankWake | .longWakeReturn | .thermalSensorRead | .bankRefresh | .rtaxWindowEnd
  | .midnightRestore | .wcLineDrain | .directRowAccess | .reductionAddition | .blockPoolWrite | .poolWipeComplete
  | .slidingWindowRelease | .trap | .watchdogExpiry | .save | .restore | .traplostRead | .degcntRead
  | .throtcntRead | .saveSlotConfigWrite | .coreReset | .dieReset | .quiesce | .quiesceWindowEnd
  | .dieResetExecute | .linkRetrain | .errorCompletion | .samplerShard | .samplerMerge | .loopCoreCommit
  | .powerOn | .resetPin | .pkgrst | .bootVerify | .linkTraining | .pwrlimWrite | .lifecycleAdvance
  | .attestationRequest | .mctpControlMessage | .readIdentity | .readCounters | .nop _ | .br _ | .call _
  | .callr _ | .ret _ | .brr _ | .bc _ | .bcr _ | .loop _ | .loopBound _ | .lend _ | .lbrk _ | .lcont _ | .lrd _
  | .btok _ | .wait _ | .fence _ | .bar _ | .barv _ | .barw _ | .sstep _ | .setm _ | .resume _ | .exit _ | .cede _
  | .add _ | .sub _ | .mul _ | .mulh _ | .mulhu _ | .div _ | .divu _ | .rem _ | .remu _ | .and _ | .or _ | .xor _
  | .sll _ | .srl _ | .sra _ | .min _ | .max _ | .minu _ | .maxu _ | .cmp _ | .sel _ | .popc _ | .clz _ | .ctz _
  | .ppopc _ | .dep _ | .ext _ | .exts _ | .fadd _ | .fsub _ | .fmul _ | .fdiv _ | .fma _ | .fmin _ | .fmax _
  | .fcmp _ | .fcvt _ | .amaxx _ | .slli _ | .srli _ | .srai _ | .gld _ | .gst _ | .gatom _ | .mldb _ | .mma _
  | .mmacro _ | .mdrain _ | .mzero _ | .mrowf _ | .mscan _ | .mrel _ | .mmode _ | .mgain _ | .mcarry _ | .mmask _
  | .mstat _ | .dmv _ | .dmdrain _ | .dmzero _ | .dmstep _ | .xcopy _ | .xcopy2d _ | .xgath _ | .xscat _
  | .xmcast _ | .xsend _ | .xred _ | .xredmax _ | .xshadOpen _ | .xshadDiscard _ | .xshadUnreg _ | .xpub _
  | .xkvapp _ | .xplan _ | .xfill _ | .xwipe _ | .xsig _ | .xnred _ | .xnamax _ | .xnclone _ | .xncomp _
  | .xncrc _ | .xnwipe _ | .xnstat _ | .xnscale _ | .amark _ | .ycsrr _ | .ycsrw _ | .ycsrs _ | .ycsrc _
  | .ytrap _ | .ysig _ | .yperf _ | .ytlbi _ | .yprobe _ | .ygen _ | .ytqs _ | .ytqr _ | .ysave _ | .yrest _
  | .yswap _ | .yctx _ | .fabricPortDown | .endpointTrainDown | .dynamicAddressAssignment =>
      true
  | .phint w =>
      phOk q w
  | .addi w | .andi w | .ori w | .xori w =>
      iOk w.x
  | .vadd w | .vsub w | .vmul w | .vdiv w | .vmin w | .vmax w | .vabs w | .vneg w | .vsqrt w | .vrsqrt w | .vrcp w
  | .vexp2 w | .vlog2 w | .vexp w | .vtanh w | .vsigm w | .vsilu w | .vand w | .vor w | .vxor w | .vshl w
  | .vshr w | .vsel w | .vredsum w | .vredmax w | .vredmin w | .vredamax w | .vscan w | .vscanmax w | .vperm w
  | .vzip w | .vunzip w | .vsmx w | .vmov w | .viota w =>
      dstOk q w.d 1 && srcOk q w.a 1 && srcOk q w.b 1 && immOk w.t (usesImm w.a w.b) w.x
  | .vfma w | .vfnma w =>
      regOk q w.d && srcOk q w.a 1 && srcOk q w.b 1 && immOk w.t (usesImm w.a w.b) w.x
  | .vcmp w | .vclass w =>
      prOk q w.pd && srcOk q w.a 1 && srcOk q w.b 1 && immOk w.t (usesImm w.a w.b) w.x
  | .vcvt w =>
      dstOk q w.d 1 && srcOk q w.a 1 && immOk w.s (usesImm w.a 0) w.x
  | .vquant w =>
      dstOk q w.d 1 && srcOk q w.a (groupOf w.s) && immOk w.s (usesImm w.a 0) w.x
  | .vdequant w =>
      dstOk q w.d (groupOf w.t) && srcOk q w.a 1 && immOk w.s (usesImm w.a 0) w.x
  | .vsetsc w | .vins w =>
      regOk q w.d
  | .vgetsc w | .vext w =>
      srcOk q w.a 1 && immOk w.t (usesImm w.a 0) w.x
  | .vbcast w =>
      dstOk q w.d 1 && srcOk q w.a 1 && immOk w.t (usesImm w.a 0) w.x
  | .vtok w =>
      prOk q w.p
  | .vplog w =>
      prOk q w.pd && prOk q w.pa && prOk q w.pb
  | .vpcnt w =>
      prOk q w.pa && prOk q w.pb
  | .dmvld w =>
      dmOk q w
  | .agset w =>
      w.d.toNat < q.agsets && w.a.toNat < 32
  | .agld w | .agst w =>
      w.d.toNat < 8 && w.a.toNat < q.agsets
  | .agstop w =>
      w.a.toNat < q.agsets
  | .aget w =>
      w.d.toNat < 32 && w.a.toNat < q.agsets
  | .ldv w | .stv w =>
      regOk q w.d && w.a.toNat < 32
  | .lds w | .sts w | .spfmt w | .atom w | .amovToS w =>
      w.a.toNat < 32
  | .amovToA w =>
      w.d.toNat < 32
  | .aadd w =>
      w.d.toNat < 32 && w.a.toNat < 32 && iOk w.x

end Sys2Proof
end

