-- ==== Sys2Proof/Decode.lean ====
section
/-! DEFINITION. Decoding words and fetch lines (R91 to R114), and the encoder written from the same tables. -/

namespace Sys2Proof

/-- The word of an instruction's stream, with its E words in order (R97). -/
structure Enc where
  st : Stream
  word : W32
  ext : List W32
deriving DecidableEq, Repr

/-! ## Packing the formats of R102 -/

def packZ (op : BitVec 6) (w : FZ) : W32 := op ++ w.g ++ (0 : BitVec 24)
def packJ (op : BitVec 6) (w : FJ) : W32 := op ++ w.g ++ w.off
def packR (op : BitVec 6) (w : FR) : W32 := op ++ w.g ++ w.d ++ w.a ++ w.b ++ w.f
def packI (op : BitVec 6) (w : FI) : W32 := op ++ w.g ++ w.d ++ w.a ++ w.imm
def packIM (op : BitVec 6) (w : FIM) : W32 := op ++ w.g ++ w.d ++ w.a ++ w.sz ++ w.off
def packK (op : BitVec 6) (w : FK) : W32 := op ++ w.g ++ w.d ++ w.a ++ w.num
def packV (op : BitVec 6) (w : FV) : W32 :=
  op ++ w.g ++ w.d ++ w.a ++ w.b ++ w.t ++ BitVec.ofBool w.fzi ++ BitVec.ofBool w.fzo ++ BitVec.ofBool w.p
def packVK (op : BitVec 6) (w : FVK) : W32 :=
  op ++ w.g ++ w.d ++ w.a ++ (0 : BitVec 3) ++ w.s ++ w.t ++ BitVec.ofBool w.fzi ++ BitVec.ofBool w.fzo
    ++ BitVec.ofBool w.p
def packVC (op : BitVec 6) (w : FVC) : W32 :=
  op ++ w.g ++ w.pd ++ w.cc ++ w.a ++ w.b ++ w.t ++ BitVec.ofBool w.fzi ++ (0 : BitVec 1) ++ BitVec.ofBool w.p
def packVP (op : BitVec 6) (w : FVP) : W32 := op ++ w.g ++ w.pd ++ w.pa ++ w.pb ++ w.op ++ (0 : BitVec 2) ++ w.sd
def packVT (op : BitVec 6) (w : FVT) : W32 := op ++ w.g ++ w.p ++ w.mode ++ (0 : BitVec 18)
def packBC (op : BitVec 6) (w : FBC) : W32 := op ++ w.g ++ w.a ++ w.cc ++ w.off
def packBR2 (op : BitVec 6) (w : FBR2) : W32 := op ++ w.g ++ w.a ++ w.b ++ w.cc ++ w.off
def packL (op : BitVec 6) (w : FL) : W32 := op ++ w.g ++ w.a ++ w.bx ++ w.by' ++ w.n ++ (0 : BitVec 4)
def packW (op : BitVec 6) (w : FW) : W32 := op ++ w.g ++ w.ncl ++ w.ncs ++ w.ncx ++ w.ncm
def packF (op : BitVec 6) (w : FF) : W32 := op ++ w.g ++ w.scope ++ w.cls ++ w.id ++ (0 : BitVec 9)
def packPH (op : BitVec 6) (w : FPH) : W32 := op ++ w.g ++ w.sr ++ (0 : BitVec 20)

/-! ## Taking the fields out (R102) -/

/-- The gate G (R100). -/
def gateOf (w : W32) : BitVec 2 := w.extractLsb' 24 2
def fZ (w : W32) : FZ := { g := gateOf w }
def fJ (w : W32) : FJ := { g := gateOf w, off := w.extractLsb' 0 24 }
def fR (w : W32) : FR :=
  { g := gateOf w, d := w.extractLsb' 18 6, a := w.extractLsb' 12 6, b := w.extractLsb' 6 6, f := w.extractLsb' 0 6 }
def fI (w : W32) (x : List W32) : FI :=
  { g := gateOf w, d := w.extractLsb' 18 6, a := w.extractLsb' 12 6, imm := w.extractLsb' 0 12, x := x }
def fIM (w : W32) (x : List W32) : FIM :=
  { g := gateOf w, d := w.extractLsb' 18 6, a := w.extractLsb' 12 6, sz := w.extractLsb' 9 3,
    off := w.extractLsb' 0 9, x := x }
def fK (w : W32) : FK :=
  { g := gateOf w, d := w.extractLsb' 18 6, a := w.extractLsb' 12 6, num := w.extractLsb' 0 12 }
def fV (w : W32) (x : List W32) : FV :=
  { g := gateOf w, d := w.extractLsb' 18 6, a := w.extractLsb' 12 6, b := w.extractLsb' 6 6, t := w.extractLsb' 3 3,
    fzi := w.getLsbD 2, fzo := w.getLsbD 1, p := w.getLsbD 0, x := x }
def fVK (w : W32) (x : List W32) : FVK :=
  { g := gateOf w, d := w.extractLsb' 18 6, a := w.extractLsb' 12 6, s := w.extractLsb' 6 3, t := w.extractLsb' 3 3,
    fzi := w.getLsbD 2, fzo := w.getLsbD 1, p := w.getLsbD 0, x := x }
def fVC (w : W32) (x : List W32) : FVC :=
  { g := gateOf w, pd := w.extractLsb' 20 4, cc := w.extractLsb' 18 2, a := w.extractLsb' 12 6,
    b := w.extractLsb' 6 6, t := w.extractLsb' 3 3, fzi := w.getLsbD 2, p := w.getLsbD 0, x := x }
def fVP (w : W32) : FVP :=
  { g := gateOf w, pd := w.extractLsb' 20 4, pa := w.extractLsb' 16 4, pb := w.extractLsb' 12 4,
    op := w.extractLsb' 8 4, sd := w.extractLsb' 0 6 }
def fVT (w : W32) (x : List W32) : FVT :=
  { g := gateOf w, p := w.extractLsb' 20 4, mode := w.extractLsb' 18 2, e := x.getD 0 0 }
def fBC (w : W32) : FBC :=
  { g := gateOf w, a := w.extractLsb' 18 6, cc := w.extractLsb' 15 3, off := w.extractLsb' 0 15 }
def fBR2 (w : W32) : FBR2 :=
  { g := gateOf w, a := w.extractLsb' 18 6, b := w.extractLsb' 12 6, cc := w.extractLsb' 9 3, off := w.extractLsb' 0 9 }
def fL (w : W32) (x : List W32) : FL :=
  { g := gateOf w, a := w.extractLsb' 18 6, bx := w.extractLsb' 12 6, by' := w.extractLsb' 6 6,
    n := w.extractLsb' 4 2, x := x }
def fW (w : W32) : FW :=
  { g := gateOf w, ncl := w.extractLsb' 18 6, ncs := w.extractLsb' 12 6, ncx := w.extractLsb' 6 6,
    ncm := w.extractLsb' 0 6 }
def fF (w : W32) : FF :=
  { g := gateOf w, scope := w.extractLsb' 21 3, cls := w.extractLsb' 15 6, id := w.extractLsb' 9 6 }
def fPH (w : W32) (x : List W32) : FPH :=
  { g := gateOf w, sr := w.extractLsb' 20 4, e1 := x.getD 0 0, e2 := x.getD 1 0 }

/-! ## The opcode maps (R107 to R114) -/

/-- The C-stream opcode map: the instruction a word would be, its fields taken out (R102, R107). -/
def candC (w : W32) (x : List W32) : Option Instr :=
  match (w.extractLsb' 26 6).toNat with
  | 0x00 => some (.nop (fZ w))
  | 0x01 => some (.br (fJ w))
  | 0x02 => some (.call (fJ w))
  | 0x03 => some (.callr (fR w))
  | 0x04 => some (.ret (fZ w))
  | 0x05 => some (.brr (fR w))
  | 0x06 => some (.bc (fBC w))
  | 0x07 => some (.bcr (fBR2 w))
  | 0x08 => some (if (fL w x).n == 0 then .loop (fL w x) else .loopBound (fL w x))
  | 0x09 => some (.lend (fJ w))
  | 0x0A => some (.lbrk (fJ w))
  | 0x0B => some (.lcont (fJ w))
  | 0x0C => some (.lrd (fR w))
  | 0x0D => some (.btok (fZ w))
  | 0x10 => some (.wait (fW w))
  | 0x11 => some (.fence (fF w))
  | 0x12 => some (.bar (fF w))
  | 0x13 => some (.barv (fF w))
  | 0x14 => some (.barw (fF w))
  | 0x15 => some (.sstep (fF w))
  | 0x18 => some (.setm (fK w))
  | 0x19 => some (.phint (fPH w x))
  | 0x1A => some (.resume (fZ w))
  | 0x1B => some (.exit (fZ w))
  | 0x1C => some (.cede (fZ w))
  | _ => none

/-- The S-stream opcode map: the instruction a word would be, its fields taken out (R102, R108). -/
def candS (w : W32) (x : List W32) : Option Instr :=
  match (w.extractLsb' 26 6).toNat with
  | 0x00 => some (.add (fR w))
  | 0x01 => some (.sub (fR w))
  | 0x02 => some (.mul (fR w))
  | 0x03 => some (.mulh (fR w))
  | 0x04 => some (.mulhu (fR w))
  | 0x05 => some (.div (fR w))
  | 0x06 => some (.divu (fR w))
  | 0x07 => some (.rem (fR w))
  | 0x08 => some (.remu (fR w))
  | 0x09 => some (.and (fR w))
  | 0x0A => some (.or (fR w))
  | 0x0B => some (.xor (fR w))
  | 0x0C => some (.sll (fR w))
  | 0x0D => some (.srl (fR w))
  | 0x0E => some (.sra (fR w))
  | 0x0F => some (.min (fR w))
  | 0x10 => some (.max (fR w))
  | 0x11 => some (.minu (fR w))
  | 0x12 => some (.maxu (fR w))
  | 0x13 => some (.cmp (fR w))
  | 0x14 => some (.sel (fR w))
  | 0x15 => some (.popc (fR w))
  | 0x16 => some (.clz (fR w))
  | 0x17 => some (.ctz (fR w))
  | 0x18 => some (.ppopc (fR w))
  | 0x19 => some (.dep (fR w))
  | 0x1A => some (.ext (fR w))
  | 0x1B => some (.exts (fR w))
  | 0x1C => some (.fadd (fR w))
  | 0x1D => some (.fsub (fR w))
  | 0x1E => some (.fmul (fR w))
  | 0x1F => some (.fdiv (fR w))
  | 0x20 => some (.fma (fR w))
  | 0x21 => some (.fmin (fR w))
  | 0x22 => some (.fmax (fR w))
  | 0x23 => some (.fcmp (fR w))
  | 0x24 => some (.fcvt (fR w))
  | 0x25 => some (.amaxx (fR w))
  | 0x28 => some (.addi (fI w x))
  | 0x29 => some (.andi (fI w x))
  | 0x2A => some (.ori (fI w x))
  | 0x2B => some (.xori (fI w x))
  | 0x2C => some (.slli (fI w x))
  | 0x2D => some (.srli (fI w x))
  | 0x2E => some (.srai (fI w x))
  | 0x30 => some (.gld (fIM w x))
  | 0x31 => some (.gst (fIM w x))
  | 0x32 => some (.gatom (fR w))
  | _ => none

/-- The V-stream opcode map: the instruction a word would be, its fields taken out (R102, R109). -/
def candV (w : W32) (x : List W32) : Option Instr :=
  match (w.extractLsb' 26 6).toNat with
  | 0x00 => some (.vadd (fV w x))
  | 0x01 => some (.vsub (fV w x))
  | 0x02 => some (.vmul (fV w x))
  | 0x03 => some (.vfma (fV w x))
  | 0x04 => some (.vfnma (fV w x))
  | 0x05 => some (.vdiv (fV w x))
  | 0x06 => some (.vmin (fV w x))
  | 0x07 => some (.vmax (fV w x))
  | 0x08 => some (.vabs (fV w x))
  | 0x09 => some (.vneg (fV w x))
  | 0x0A => some (.vsqrt (fV w x))
  | 0x0B => some (.vrsqrt (fV w x))
  | 0x0C => some (.vrcp (fV w x))
  | 0x0D => some (.vexp2 (fV w x))
  | 0x0E => some (.vlog2 (fV w x))
  | 0x0F => some (.vexp (fV w x))
  | 0x10 => some (.vtanh (fV w x))
  | 0x11 => some (.vsigm (fV w x))
  | 0x12 => some (.vsilu (fV w x))
  | 0x13 => some (.vand (fV w x))
  | 0x14 => some (.vor (fV w x))
  | 0x15 => some (.vxor (fV w x))
  | 0x16 => some (.vshl (fV w x))
  | 0x17 => some (.vshr (fV w x))
  | 0x18 => some (.vcmp (fVC w x))
  | 0x19 => some (.vclass (fVC w x))
  | 0x1A => some (.vsel (fV w x))
  | 0x1B => some (.vcvt (fVK w x))
  | 0x1C => some (.vquant (fVK w x))
  | 0x1D => some (.vdequant (fVK w x))
  | 0x1E => some (.vsetsc (fV w x))
  | 0x1F => some (.vgetsc (fV w x))
  | 0x20 => some (.vredsum (fV w x))
  | 0x21 => some (.vredmax (fV w x))
  | 0x22 => some (.vredmin (fV w x))
  | 0x23 => some (.vredamax (fV w x))
  | 0x24 => some (.vscan (fV w x))
  | 0x25 => some (.vscanmax (fV w x))
  | 0x26 => some (.vperm (fV w x))
  | 0x27 => some (.vbcast (fV w x))
  | 0x28 => some (.vins (fV w x))
  | 0x29 => some (.vext (fV w x))
  | 0x2A => some (.vzip (fV w x))
  | 0x2B => some (.vunzip (fV w x))
  | 0x2C => some (.vsmx (fV w x))
  | 0x2D => some (.vtok (fVT w x))
  | 0x2E => some (.vmov (fV w x))
  | 0x2F => some (.viota (fV w x))
  | 0x30 => some (.vplog (fVP w))
  | 0x31 => some (.vpcnt (fVP w))
  | _ => none

/-- The M-stream opcode map: the instruction a word would be, its fields taken out (R102, R111). -/
def candM (w : W32) (x : List W32) : Option Instr :=
  match (w.extractLsb' 26 6).toNat with
  | 0x00 => some (.mldb (fR w))
  | 0x01 => some (.mma (fR w))
  | 0x02 => some (.mmacro (fR w))
  | 0x03 => some (.mdrain (fR w))
  | 0x04 => some (.mzero (fR w))
  | 0x05 => some (.mrowf (fR w))
  | 0x06 => some (.mscan (fR w))
  | 0x07 => some (.mrel (fR w))
  | 0x08 => some (.mmode (fR w))
  | 0x09 => some (.mgain (fR w))
  | 0x0A => some (.mcarry (fR w))
  | 0x0B => some (.mmask (fR w))
  | 0x0C => some (.mstat (fR w))
  | 0x10 => some (.dmvld (fR w))
  | 0x11 => some (.dmv (fR w))
  | 0x12 => some (.dmdrain (fR w))
  | 0x13 => some (.dmzero (fR w))
  | 0x14 => some (.dmstep (fR w))
  | _ => none

/-- The X-stream opcode map: the instruction a word would be, its fields taken out (R102, R112). -/
def candX (w : W32) (x : List W32) : Option Instr :=
  match (w.extractLsb' 26 6).toNat with
  | 0x00 => some (.xcopy (fR w))
  | 0x01 => some (.xcopy2d (fR w))
  | 0x02 => some (.xgath (fR w))
  | 0x03 => some (.xscat (fR w))
  | 0x04 => some (.xmcast (fR w))
  | 0x05 => some (.xsend (fR w))
  | 0x06 => some (.xred (fR w))
  | 0x07 => some (.xredmax (fR w))
  | 0x08 => some (if (fR w).f == 1 then .xshadDiscard (fR w) else if (fR w).f == 2 then .xshadUnreg (fR w) else .xshadOpen (fR w))
  | 0x09 => some (.xpub (fR w))
  | 0x0A => some (.xkvapp (fR w))
  | 0x0B => some (.xplan (fR w))
  | 0x0C => some (.xfill (fR w))
  | 0x0D => some (.xwipe (fR w))
  | 0x0E => some (.xsig (fR w))
  | 0x38 => some (.xnred (fR w))
  | 0x39 => some (.xnamax (fR w))
  | 0x3A => some (.xnclone (fR w))
  | 0x3B => some (.xncomp (fR w))
  | 0x3C => some (.xncrc (fR w))
  | 0x3D => some (.xnwipe (fR w))
  | 0x3E => some (.xnstat (fR w))
  | 0x3F => some (.xnscale (fR w))
  | _ => none

/-- The A-stream opcode map: the instruction a word would be, its fields taken out (R102, R113). -/
def candA (w : W32) (x : List W32) : Option Instr :=
  match (w.extractLsb' 26 6).toNat with
  | 0x00 => some (.agset (fR w))
  | 0x01 => some (.agld (fR w))
  | 0x02 => some (.agst (fR w))
  | 0x03 => some (.agstop (fR w))
  | 0x04 => some (.aget (fR w))
  | 0x08 => some (.ldv (fR w))
  | 0x09 => some (.stv (fR w))
  | 0x0A => some (.lds (fR w))
  | 0x0B => some (.sts (fR w))
  | 0x10 => some (.amark (fZ w))
  | 0x11 => some (.spfmt (fR w))
  | 0x12 => some (.atom (fR w))
  | 0x18 => some (if (fR w).b == 1 then .amovToS (fR w) else .amovToA (fR w))
  | 0x19 => some (.aadd (fI w x))
  | _ => none

/-- The Y-stream opcode map: the instruction a word would be, its fields taken out (R102, R114). -/
def candY (w : W32) (x : List W32) : Option Instr :=
  match (w.extractLsb' 26 6).toNat with
  | 0x00 => some (.ycsrr (fK w))
  | 0x01 => some (.ycsrw (fK w))
  | 0x02 => some (.ycsrs (fK w))
  | 0x03 => some (.ycsrc (fK w))
  | 0x04 => some (.ytrap (fK w))
  | 0x05 => some (.ysig (fR w))
  | 0x06 => some (.yperf (fR w))
  | 0x08 => some (.ytlbi (fR w))
  | 0x09 => some (.yprobe (fR w))
  | 0x0A => some (.ygen (fR w))
  | 0x0C => some (.ytqs (fR w))
  | 0x0D => some (.ytqr (fR w))
  | 0x10 => some (.ysave (fR w))
  | 0x11 => some (.yrest (fR w))
  | 0x12 => some (.yswap (fR w))
  | 0x13 => some (.yctx (fR w))
  | _ => none

/-- Why a word is refused. -/
inductive Reject where
  /-- The stream has no such opcode (R107 to R114). -/
  | reservedOpcode
  /-- A reserved bit of the format is not zero, or E words stand where the owner takes none (R97, R102). -/
  | reservedBits
  /-- A field holds a code that the instruction does not take, or the E words are wrong (R99). -/
  | illegalForm
deriving DecidableEq, Repr

/-- The words of an instruction (R102 to R114); a device step has none. -/
def encode (i : Instr) : Option Enc :=
  match i with
  | .nop w => some ⟨.c, packZ 0x00 w, []⟩
  | .br w => some ⟨.c, packJ 0x01 w, []⟩
  | .call w => some ⟨.c, packJ 0x02 w, []⟩
  | .callr w => some ⟨.c, packR 0x03 w, []⟩
  | .ret w => some ⟨.c, packZ 0x04 w, []⟩
  | .brr w => some ⟨.c, packR 0x05 w, []⟩
  | .bc w => some ⟨.c, packBC 0x06 w, []⟩
  | .bcr w => some ⟨.c, packBR2 0x07 w, []⟩
  | .loop w => some ⟨.c, packL 0x08 w, w.x⟩
  | .loopBound w => some ⟨.c, packL 0x08 w, w.x⟩
  | .lend w => some ⟨.c, packJ 0x09 w, []⟩
  | .lbrk w => some ⟨.c, packJ 0x0A w, []⟩
  | .lcont w => some ⟨.c, packJ 0x0B w, []⟩
  | .lrd w => some ⟨.c, packR 0x0C w, []⟩
  | .btok w => some ⟨.c, packZ 0x0D w, []⟩
  | .wait w => some ⟨.c, packW 0x10 w, []⟩
  | .fence w => some ⟨.c, packF 0x11 w, []⟩
  | .bar w => some ⟨.c, packF 0x12 w, []⟩
  | .barv w => some ⟨.c, packF 0x13 w, []⟩
  | .barw w => some ⟨.c, packF 0x14 w, []⟩
  | .sstep w => some ⟨.c, packF 0x15 w, []⟩
  | .setm w => some ⟨.c, packK 0x18 w, []⟩
  | .phint w => some ⟨.c, packPH 0x19 w, [w.e1, w.e2]⟩
  | .resume w => some ⟨.c, packZ 0x1A w, []⟩
  | .exit w => some ⟨.c, packZ 0x1B w, []⟩
  | .cede w => some ⟨.c, packZ 0x1C w, []⟩
  | .add w => some ⟨.s, packR 0x00 w, []⟩
  | .sub w => some ⟨.s, packR 0x01 w, []⟩
  | .mul w => some ⟨.s, packR 0x02 w, []⟩
  | .mulh w => some ⟨.s, packR 0x03 w, []⟩
  | .mulhu w => some ⟨.s, packR 0x04 w, []⟩
  | .div w => some ⟨.s, packR 0x05 w, []⟩
  | .divu w => some ⟨.s, packR 0x06 w, []⟩
  | .rem w => some ⟨.s, packR 0x07 w, []⟩
  | .remu w => some ⟨.s, packR 0x08 w, []⟩
  | .and w => some ⟨.s, packR 0x09 w, []⟩
  | .or w => some ⟨.s, packR 0x0A w, []⟩
  | .xor w => some ⟨.s, packR 0x0B w, []⟩
  | .sll w => some ⟨.s, packR 0x0C w, []⟩
  | .srl w => some ⟨.s, packR 0x0D w, []⟩
  | .sra w => some ⟨.s, packR 0x0E w, []⟩
  | .min w => some ⟨.s, packR 0x0F w, []⟩
  | .max w => some ⟨.s, packR 0x10 w, []⟩
  | .minu w => some ⟨.s, packR 0x11 w, []⟩
  | .maxu w => some ⟨.s, packR 0x12 w, []⟩
  | .cmp w => some ⟨.s, packR 0x13 w, []⟩
  | .sel w => some ⟨.s, packR 0x14 w, []⟩
  | .popc w => some ⟨.s, packR 0x15 w, []⟩
  | .clz w => some ⟨.s, packR 0x16 w, []⟩
  | .ctz w => some ⟨.s, packR 0x17 w, []⟩
  | .ppopc w => some ⟨.s, packR 0x18 w, []⟩
  | .dep w => some ⟨.s, packR 0x19 w, []⟩
  | .ext w => some ⟨.s, packR 0x1A w, []⟩
  | .exts w => some ⟨.s, packR 0x1B w, []⟩
  | .fadd w => some ⟨.s, packR 0x1C w, []⟩
  | .fsub w => some ⟨.s, packR 0x1D w, []⟩
  | .fmul w => some ⟨.s, packR 0x1E w, []⟩
  | .fdiv w => some ⟨.s, packR 0x1F w, []⟩
  | .fma w => some ⟨.s, packR 0x20 w, []⟩
  | .fmin w => some ⟨.s, packR 0x21 w, []⟩
  | .fmax w => some ⟨.s, packR 0x22 w, []⟩
  | .fcmp w => some ⟨.s, packR 0x23 w, []⟩
  | .fcvt w => some ⟨.s, packR 0x24 w, []⟩
  | .amaxx w => some ⟨.s, packR 0x25 w, []⟩
  | .addi w => some ⟨.s, packI 0x28 w, w.x⟩
  | .andi w => some ⟨.s, packI 0x29 w, w.x⟩
  | .ori w => some ⟨.s, packI 0x2A w, w.x⟩
  | .xori w => some ⟨.s, packI 0x2B w, w.x⟩
  | .slli w => some ⟨.s, packI 0x2C w, w.x⟩
  | .srli w => some ⟨.s, packI 0x2D w, w.x⟩
  | .srai w => some ⟨.s, packI 0x2E w, w.x⟩
  | .gld w => some ⟨.s, packIM 0x30 w, w.x⟩
  | .gst w => some ⟨.s, packIM 0x31 w, w.x⟩
  | .gatom w => some ⟨.s, packR 0x32 w, []⟩
  | .vadd w => some ⟨.v, packV 0x00 w, w.x⟩
  | .vsub w => some ⟨.v, packV 0x01 w, w.x⟩
  | .vmul w => some ⟨.v, packV 0x02 w, w.x⟩
  | .vfma w => some ⟨.v, packV 0x03 w, w.x⟩
  | .vfnma w => some ⟨.v, packV 0x04 w, w.x⟩
  | .vdiv w => some ⟨.v, packV 0x05 w, w.x⟩
  | .vmin w => some ⟨.v, packV 0x06 w, w.x⟩
  | .vmax w => some ⟨.v, packV 0x07 w, w.x⟩
  | .vabs w => some ⟨.v, packV 0x08 w, w.x⟩
  | .vneg w => some ⟨.v, packV 0x09 w, w.x⟩
  | .vsqrt w => some ⟨.v, packV 0x0A w, w.x⟩
  | .vrsqrt w => some ⟨.v, packV 0x0B w, w.x⟩
  | .vrcp w => some ⟨.v, packV 0x0C w, w.x⟩
  | .vexp2 w => some ⟨.v, packV 0x0D w, w.x⟩
  | .vlog2 w => some ⟨.v, packV 0x0E w, w.x⟩
  | .vexp w => some ⟨.v, packV 0x0F w, w.x⟩
  | .vtanh w => some ⟨.v, packV 0x10 w, w.x⟩
  | .vsigm w => some ⟨.v, packV 0x11 w, w.x⟩
  | .vsilu w => some ⟨.v, packV 0x12 w, w.x⟩
  | .vand w => some ⟨.v, packV 0x13 w, w.x⟩
  | .vor w => some ⟨.v, packV 0x14 w, w.x⟩
  | .vxor w => some ⟨.v, packV 0x15 w, w.x⟩
  | .vshl w => some ⟨.v, packV 0x16 w, w.x⟩
  | .vshr w => some ⟨.v, packV 0x17 w, w.x⟩
  | .vcmp w => some ⟨.v, packVC 0x18 w, w.x⟩
  | .vclass w => some ⟨.v, packVC 0x19 w, w.x⟩
  | .vsel w => some ⟨.v, packV 0x1A w, w.x⟩
  | .vcvt w => some ⟨.v, packVK 0x1B w, w.x⟩
  | .vquant w => some ⟨.v, packVK 0x1C w, w.x⟩
  | .vdequant w => some ⟨.v, packVK 0x1D w, w.x⟩
  | .vsetsc w => some ⟨.v, packV 0x1E w, w.x⟩
  | .vgetsc w => some ⟨.v, packV 0x1F w, w.x⟩
  | .vredsum w => some ⟨.v, packV 0x20 w, w.x⟩
  | .vredmax w => some ⟨.v, packV 0x21 w, w.x⟩
  | .vredmin w => some ⟨.v, packV 0x22 w, w.x⟩
  | .vredamax w => some ⟨.v, packV 0x23 w, w.x⟩
  | .vscan w => some ⟨.v, packV 0x24 w, w.x⟩
  | .vscanmax w => some ⟨.v, packV 0x25 w, w.x⟩
  | .vperm w => some ⟨.v, packV 0x26 w, w.x⟩
  | .vbcast w => some ⟨.v, packV 0x27 w, w.x⟩
  | .vins w => some ⟨.v, packV 0x28 w, w.x⟩
  | .vext w => some ⟨.v, packV 0x29 w, w.x⟩
  | .vzip w => some ⟨.v, packV 0x2A w, w.x⟩
  | .vunzip w => some ⟨.v, packV 0x2B w, w.x⟩
  | .vsmx w => some ⟨.v, packV 0x2C w, w.x⟩
  | .vtok w => some ⟨.v, packVT 0x2D w, [w.e]⟩
  | .vmov w => some ⟨.v, packV 0x2E w, w.x⟩
  | .viota w => some ⟨.v, packV 0x2F w, w.x⟩
  | .vplog w => some ⟨.v, packVP 0x30 w, []⟩
  | .vpcnt w => some ⟨.v, packVP 0x31 w, []⟩
  | .mldb w => some ⟨.m, packR 0x00 w, []⟩
  | .mma w => some ⟨.m, packR 0x01 w, []⟩
  | .mmacro w => some ⟨.m, packR 0x02 w, []⟩
  | .mdrain w => some ⟨.m, packR 0x03 w, []⟩
  | .mzero w => some ⟨.m, packR 0x04 w, []⟩
  | .mrowf w => some ⟨.m, packR 0x05 w, []⟩
  | .mscan w => some ⟨.m, packR 0x06 w, []⟩
  | .mrel w => some ⟨.m, packR 0x07 w, []⟩
  | .mmode w => some ⟨.m, packR 0x08 w, []⟩
  | .mgain w => some ⟨.m, packR 0x09 w, []⟩
  | .mcarry w => some ⟨.m, packR 0x0A w, []⟩
  | .mmask w => some ⟨.m, packR 0x0B w, []⟩
  | .mstat w => some ⟨.m, packR 0x0C w, []⟩
  | .dmvld w => some ⟨.m, packR 0x10 w, []⟩
  | .dmv w => some ⟨.m, packR 0x11 w, []⟩
  | .dmdrain w => some ⟨.m, packR 0x12 w, []⟩
  | .dmzero w => some ⟨.m, packR 0x13 w, []⟩
  | .dmstep w => some ⟨.m, packR 0x14 w, []⟩
  | .xcopy w => some ⟨.x, packR 0x00 w, []⟩
  | .xcopy2d w => some ⟨.x, packR 0x01 w, []⟩
  | .xgath w => some ⟨.x, packR 0x02 w, []⟩
  | .xscat w => some ⟨.x, packR 0x03 w, []⟩
  | .xmcast w => some ⟨.x, packR 0x04 w, []⟩
  | .xsend w => some ⟨.x, packR 0x05 w, []⟩
  | .xred w => some ⟨.x, packR 0x06 w, []⟩
  | .xredmax w => some ⟨.x, packR 0x07 w, []⟩
  | .xshadOpen w => some ⟨.x, packR 0x08 w, []⟩
  | .xshadDiscard w => some ⟨.x, packR 0x08 w, []⟩
  | .xshadUnreg w => some ⟨.x, packR 0x08 w, []⟩
  | .xpub w => some ⟨.x, packR 0x09 w, []⟩
  | .xkvapp w => some ⟨.x, packR 0x0A w, []⟩
  | .xplan w => some ⟨.x, packR 0x0B w, []⟩
  | .xfill w => some ⟨.x, packR 0x0C w, []⟩
  | .xwipe w => some ⟨.x, packR 0x0D w, []⟩
  | .xsig w => some ⟨.x, packR 0x0E w, []⟩
  | .xnred w => some ⟨.x, packR 0x38 w, []⟩
  | .xnamax w => some ⟨.x, packR 0x39 w, []⟩
  | .xnclone w => some ⟨.x, packR 0x3A w, []⟩
  | .xncomp w => some ⟨.x, packR 0x3B w, []⟩
  | .xncrc w => some ⟨.x, packR 0x3C w, []⟩
  | .xnwipe w => some ⟨.x, packR 0x3D w, []⟩
  | .xnstat w => some ⟨.x, packR 0x3E w, []⟩
  | .xnscale w => some ⟨.x, packR 0x3F w, []⟩
  | .agset w => some ⟨.a, packR 0x00 w, []⟩
  | .agld w => some ⟨.a, packR 0x01 w, []⟩
  | .agst w => some ⟨.a, packR 0x02 w, []⟩
  | .agstop w => some ⟨.a, packR 0x03 w, []⟩
  | .aget w => some ⟨.a, packR 0x04 w, []⟩
  | .ldv w => some ⟨.a, packR 0x08 w, []⟩
  | .stv w => some ⟨.a, packR 0x09 w, []⟩
  | .lds w => some ⟨.a, packR 0x0A w, []⟩
  | .sts w => some ⟨.a, packR 0x0B w, []⟩
  | .amark w => some ⟨.a, packZ 0x10 w, []⟩
  | .spfmt w => some ⟨.a, packR 0x11 w, []⟩
  | .atom w => some ⟨.a, packR 0x12 w, []⟩
  | .amovToA w => some ⟨.a, packR 0x18 w, []⟩
  | .amovToS w => some ⟨.a, packR 0x18 w, []⟩
  | .aadd w => some ⟨.a, packI 0x19 w, w.x⟩
  | .ycsrr w => some ⟨.y, packK 0x00 w, []⟩
  | .ycsrw w => some ⟨.y, packK 0x01 w, []⟩
  | .ycsrs w => some ⟨.y, packK 0x02 w, []⟩
  | .ycsrc w => some ⟨.y, packK 0x03 w, []⟩
  | .ytrap w => some ⟨.y, packK 0x04 w, []⟩
  | .ysig w => some ⟨.y, packR 0x05 w, []⟩
  | .yperf w => some ⟨.y, packR 0x06 w, []⟩
  | .ytlbi w => some ⟨.y, packR 0x08 w, []⟩
  | .yprobe w => some ⟨.y, packR 0x09 w, []⟩
  | .ygen w => some ⟨.y, packR 0x0A w, []⟩
  | .ytqs w => some ⟨.y, packR 0x0C w, []⟩
  | .ytqr w => some ⟨.y, packR 0x0D w, []⟩
  | .ysave w => some ⟨.y, packR 0x10 w, []⟩
  | .yrest w => some ⟨.y, packR 0x11 w, []⟩
  | .yswap w => some ⟨.y, packR 0x12 w, []⟩
  | .yctx w => some ⟨.y, packR 0x13 w, []⟩
  | .moduleFailure | .flitRetry | .requestSlotGrant | .fabricPortTrainingFailure | .powerWindow
  | .junctionOvertemp | .regionStart | .regionCompletion | .nodeCompletion | .kernelNodeStart | .condNode
  | .loopNode | .switchNode | .signalNode | .sampleNode | .handoffNode | .midnightNode | .tileDispatch
  | .cancelRequest | .viEnable | .viDisable | .viStop | .registerWrite | .wqTailWrite | .wqNop | .wqStart
  | .wqAdmit | .wqIterate | .wqerrRead | .tokenQueueDepthWrite | .tokenQueueFlush | .tokenQueueAttempt
  | .preemptionRequest | .mincoresStarvation | .contextStallSwitch | .contextChangeComplete | .leaseArbitration
  | .leaseEnd | .leaseTimeLimit | .leaseIdleEnd | .leaseTimeout | .twilightReservation | .sealedNotice
  | .twilightPullReturn | .releaseNotice | .releaseDoneNotice | .fabricPathTimeout | .headerLiveRewrite
  | .blockWipeComplete | .lineFetch | .lineDelivery | .resultWrite | .completionCounterDecrement
  | .barrierPhaseComplete | .globalAccessResponse | .agAccessGenerate | .accessPerformed | .mmacroGroup
  | .mscanStep | .pageTableWalk | .dwinWrite | .generationAdoption | .generationAdvanceComplete
  | .viTlbInvalidateAll | .viTlbInvalidatePage | .viGenAdvance | .viGenAdvanceRoot | .viProbe
  | .bankRetentionSleep | .bankWake | .longWakeReturn | .thermalSensorRead | .bankRefresh | .rtaxWindowEnd
  | .midnightRestore | .wcLineDrain | .directRowAccess | .reductionAddition | .blockPoolWrite | .poolWipeComplete
  | .slidingWindowRelease | .trap | .watchdogExpiry | .save | .restore | .traplostRead | .degcntRead
  | .throtcntRead | .saveSlotConfigWrite | .coreReset | .dieReset | .quiesce | .quiesceWindowEnd
  | .dieResetExecute | .linkRetrain | .errorCompletion | .samplerShard | .samplerMerge | .loopCoreCommit
  | .powerOn | .resetPin | .pkgrst | .bootVerify | .linkTraining | .pwrlimWrite | .lifecycleAdvance
  | .attestationRequest | .mctpControlMessage | .readIdentity | .readCounters | .fabricPortDown
  | .endpointTrainDown | .dynamicAddressAssignment => none

/-- The instruction that a stream's opcode map gives a word, with its fields. -/
def candidate (st : Stream) (w : W32) (x : List W32) : Option Instr :=
  match st with
  | .c => candC w x
  | .s => candS w x
  | .v => candV w x
  | .m => candM w x
  | .x => candX w x
  | .a => candA w x
  | .y => candY w x

/-- Decode a word and its E words in a stream: the instruction of the map, if its words hold nothing else (R97, R102)
and its form is legal (R99). -/
def decode (st : Stream) (w : W32) (x : List W32) : Except Reject Instr :=
  match candidate st w x with
  | none => .error .reservedOpcode
  | some i =>
    if encode i != some ⟨st, w, x⟩ then .error .reservedBits
    else if wf i then .ok i
    else .error .illegalForm

/-! ## Fetch lines -/

/-- A fetch line: the header word and seven slots (R91). -/
abbrev Line := List W32

/-- The header word (R92). -/
def lineHeader (l : Line) : W32 := l.getD 0 0
/-- The stream code of slot k, 1 to 7 (R92). -/
def slotCode (l : Line) (k : Nat) : Nat := (lineHeader l).toNat / 2 ^ (4 * (k - 1)) % 16
/-- HOLD (R92). -/
def lineHold (l : Line) : Bool := (lineHeader l).getLsbD 29
/-- LAST (R92, R96). -/
def lineLast (l : Line) : Bool := (lineHeader l).getLsbD 28

/-- The stream that a code selects (R93). -/
def streamOf (code : Nat) : Option Stream :=
  match code with
  | 1 => some .c
  | 2 => some .s
  | 3 => some .v
  | 4 => some .m
  | 5 => some .x
  | 6 => some .a
  | 7 => some .y
  | _ => none

/-- An instruction slot of a line with the E words it owns (R97). -/
structure Slot where
  slot : Nat
  st : Stream
  word : W32
  ext : List W32
deriving DecidableEq, Repr

/-- The E words that follow slot k: those reached over empty slots and E words only (R97). -/
def extWords (l : Line) (ks : List Nat) : List W32 :=
  match ks with
  | [] => []
  | k :: rest =>
    if slotCode l k = 8 then l.getD k 0 :: extWords l rest
    else if slotCode l k = 0 then extWords l rest
    else []

/-- The instruction slots among slots ks, in slot order. -/
def slotsFrom (l : Line) (ks : List Nat) : List Slot :=
  match ks with
  | [] => []
  | k :: rest =>
    match streamOf (slotCode l k) with
    | some st => ⟨k, st, l.getD k 0, extWords l rest⟩ :: slotsFrom l rest
    | none => slotsFrom l rest

/-- The instruction slots of a line, in slot order (R94). -/
def lineSlots (l : Line) : List Slot := slotsFrom l [1, 2, 3, 4, 5, 6, 7]

/-- The C opcodes that transfer control (R95): br to bcr, lend, lbrk, lcont, btok, resume, exit. -/
def isTransferOp (op : Nat) : Bool := (1 ≤ op && op ≤ 7) || (9 ≤ op && op ≤ 0x0B) || op == 0x0D || op == 0x1A || op == 0x1B
/-- A slot that R95 counts: a control transfer or a loop instruction. -/
def isTransferOrLoop (st : Stream) (w : W32) : Bool :=
  st == .c && (isTransferOp (w.extractLsb' 26 6).toNat || (w.extractLsb' 26 6).toNat == 8)

/-- The lowest slot among ks that makes the line illegal (R98): owner tells whether an instruction slot has come before,
seen whether a transfer or loop instruction has. -/
def illegalFrom (l : Line) (ks : List Nat) (owner seen : Bool) : Option Nat :=
  match ks with
  | [] => none
  | k :: rest =>
    let c := slotCode l k
    let w := l.getD k 0
    if c = 0 then (if w = 0 then illegalFrom l rest owner seen else some k)
    else if c = 8 then (if owner then illegalFrom l rest owner seen else some k)
    else match streamOf c with
      | none => some k
      | some st =>
        if isTransferOrLoop st w then (if seen then some k else illegalFrom l rest true true)
        else illegalFrom l rest true seen

/-- The slot that R98 reports for an illegal line, none for a legal one. -/
def illegalLine (l : Line) : Option Nat :=
  if (lineHeader l).toNat / 2 ^ 30 ≠ 0 then some 0 else illegalFrom l [1, 2, 3, 4, 5, 6, 7] false false

/-- What the check of R99 finds in one slot. -/
inductive SlotCheck where
  | ok (i : Instr)
  | illegalInstruction
  | illegalOperand
deriving DecidableEq, Repr

/-- Check one slot against the profile and the context's request (R99, R2, R49); illegal instruction comes first. -/
def checkSlot (p : Profile) (q : Request) (sl : Slot) : SlotCheck :=
  match decode sl.st sl.word sl.ext with
  | .error _ => .illegalInstruction
  | .ok i =>
    if !present p i then .illegalInstruction
    else if operandsOk q i then .ok i
    else .illegalOperand

/-! ## The opcode table's numbering -/

/-- The words of an instruction whose nbits low bits are w: the first word, then E words, padded with n zero words. -/
def tableWords (nbits w : Nat) (n : Nat) : List W32 :=
  (List.range (nbits / 32 - 1 + n)).map fun k => BitVec.ofNat 32 (w / 2 ^ (32 * (k + 1)))

/-- The first of several streams, and of zero to two added E words of zeros, whose decoder accepts the word. -/
def firstAccepting (w nbits : Nat) (tries : List (Stream × Nat)) : Option Enc :=
  match tries with
  | [] => none
  | (st, n) :: rest =>
    match decode st (BitVec.ofNat 32 w) (tableWords nbits w n) with
    | .ok _ => some ⟨st, BitVec.ofNat 32 w, tableWords nbits w n⟩
    | .error _ => firstAccepting w nbits rest

/-- The streams in the order in which a word without its line's stream code is tried. -/
def tableTries : List (Stream × Nat) :=
  [(.c, 0), (.s, 0), (.v, 0), (.m, 0), (.x, 0), (.a, 0), (.y, 0), (.c, 1), (.s, 1), (.v, 1), (.c, 2), (.v, 2)]

/-- The words and stream that stand for w in the opcode table's numbering. An opcode is private to its stream (R100)
and w carries no stream code, so the first stream that accepts the word is taken. -/
def tableEnc (nbits w : Nat) : Option Enc := firstAccepting w nbits tableTries

/-- The instruction that the decoder reads from w. -/
def decodeTableWord (nbits w : Nat) : Option Instr :=
  match tableEnc nbits w with
  | none => none
  | some e =>
    match decode e.st e.word e.ext with
    | .ok i => some i
    | .error _ => none

end Sys2Proof
end

