-- ==== Sys2Proof/Machine/State.lean ====
section
/-! DEFINITION. The state of a package: every piece of state the spec gives the machine, as plain data, and the state
right after reset. -/

namespace Sys2Proof.Machine

/-- A sparse table: keys strictly rising, no entry equal to the table's default. -/
abbrev Tab (α : Type) := List (Nat × α)

/-! ## A context -/

/-- A vector register or port vector: the data and its scale sidecar (R185). -/
structure VReg where
  d : VData
  sc : W32
deriving DecidableEq, Repr

/-- A loop level (R121, R128). -/
structure Loop where
  cnt : W32
  idx : W32
  body : W64
  n : BitVec 2
  x : BitVec 6
  y : BitVec 6
  stx : BitVec 16
  sty : BitVec 16
deriving DecidableEq, Repr

/-- A control token (R140). -/
structure Token where
  take : Bool
  target : W64
deriving DecidableEq, Repr

/-- The hint in force (R121, R148); level 7 is no level. -/
structure Hint where
  v : Bool
  lev : Nat
  va : W32
  vb : BitVec 16
  p : BitVec 16
  sr : BitVec 4
deriving DecidableEq, Repr

/-- An instruction that the sequencer has delivered (R94): its words, the line and slot it stands in, whether the
iteration of the innermost level at delivery was the first and the last one (none: no level active, R101), the VMODE,
GPRED and CHK in force at delivery (R147, R178, R220), and the first cycle in which it may issue (R123). `rrb` is set when a
ycsrw has changed RRB since its delivery: its names stay under that value (R147, R406). -/
structure QEntry where
  word : W32
  ext : List W32
  line : W64
  slot : Nat
  seq : Nat
  level : Option (Bool × Bool)
  rm : BitVec 2
  ten : BitVec 5
  psel : BitVec 4
  gzero : Bool
  chk : Bool
  at' : Nat
  vdep : BitVec 6
  pdep : BitVec 4
  rrb : Option (BitVec 5)
deriving DecidableEq, Repr

/-- What a result writes when it lands (R125). Register numbers are physical (R136). -/
inductive Res where
  | none
  | s (r : Nat) (v : W64)
  | v (r : Nat) (d : VData) (sc : W32)
  | vsc (r : Nat) (sc : W32)
  | p (r : Nat) (v : PData)
  | port (n : Nat) (eid : Nat) (d : VData) (sc : W32)
  | tok (t : Token)
deriving DecidableEq, Repr

/-- The words and operands of an issued S or V instruction, as the save engine captures them (R401, R403): a scalar
operand stands in the low 64 bits of its vector. -/
structure Capt where
  word : W32
  ext : List W32
  a : VReg
  b : VReg
  d : VReg
  rm : BitVec 2
  gp : PData
deriving DecidableEq, Repr

/-- A result on its way: it lands at cycle `due` (R125), with the flags it raises (R180) and its instruction's place. -/
structure InFlight where
  res : Res
  flags : BitVec 5
  ten : BitVec 5
  smx : Bool
  issued : Nat
  due : Nat
  seq : Nat
  line : W64
  slot : Nat
  st : Stream
  src : Capt
  contested : Bool
deriving DecidableEq, Repr

/-- An entry of a port: reserved, then written (R201). -/
structure PEntry where
  eid : Nat
  ready : Bool
  v : VReg
deriving DecidableEq, Repr

/-- The operations of the S stream's global accesses (R170 to R172). -/
inductive GOp where
  | gld (sz : Nat) (sext : Bool)
  | gst (sz : Nat) (v : W64)
  | gatom (op : Nat) (ord : Nat) (v : W64) (cmp : W64)
  | amaxx
deriving DecidableEq, Repr

/-- How an outstanding access stands: waiting to be performed, performed with the value it returns, or failed with a
trap cause. -/
inductive AccState where
  | waiting
  | done (v : W64)
  | failed (cause : Nat)
deriving DecidableEq, Repr

/-- How far an access has come on its way to its home: the cycle of its first presentation to the bank that it waits for (R198,
R202), whether the bank of the first of its two rows has served it (R198), whether it holds a request slot (R25), the cycle of its
arrival at a sleeping bank and whether the controller has returned it (R303), and, once it has left for another package, its fabric port
with its place in the order of leaving (R321, R322) and the bytes it goes to, whose generation has been checked (R296). -/
structure Journey where
  pres : Option Nat
  half : Bool
  slot : Bool
  arr : Option Nat
  back : Bool
  left : Option (Nat × Nat)
  keys : List Nat
deriving DecidableEq, Repr

/-- The outstanding S-stream access (R168); `mixed` says that another write has landed on its destination meanwhile (R126,
R169). -/
structure GAcc where
  op : GOp
  addr : W64
  sd : Nat
  st : AccState
  seq : Nat
  line : W64
  slot : Nat
  mixed : Bool
  go : Journey
deriving DecidableEq, Repr

/-- The accesses of the A stream (R202): direct loads and stores, atoms, accesses of runs, marks and format changes. -/
inductive AOp where
  | ldv (r : Nat)
  | stv (v : VReg)
  | lds (sd : Nat) (sz : Nat)
  | sts (sz : Nat) (v : W64)
  | atom (f : BitVec 6) (sd : Nat) (y : W64) (c : W64)
  | rdRun (set : Nat) (port : Nat) (eid : Nat)
  | wrRun (set : Nat) (v : VReg)
  | mark
  | spfmt (fmt : Nat) (nbanks : Nat)
deriving DecidableEq, Repr

/-- An access in the load queue, the store queue or both (R202), in the order of entry. `aseq` is the place of its
instruction in the A stream (R214), `mixed` as for the S stream's access (R213). -/
structure Acc where
  op : AOp
  addr : W64
  size : Nat
  ql : Bool
  qs : Bool
  aseq : Nat
  seq : Nat
  line : W64
  slot : Nat
  chk : Bool
  mixed : Bool
  go : Journey
deriving DecidableEq, Repr

/-- A run of a parameter set (R207, R209). `next` counts the accesses generated, `left` those generated and not yet
performed; after a fault the run only fills or drops port entries (R218). It generates at most one access a cycle, and not before
cycle `ready` (R207). -/
structure Run where
  load : Bool
  port : Nat
  base : W64
  lenw : Nat
  counts : List Nat
  strides : List Int
  total : Nat
  next : Nat
  left : Nat
  stop : Bool
  fault : Bool
  aseq : Nat
  seq : Nat
  line : W64
  slot : Nat
  chk : Bool
  ready : Nat
deriving DecidableEq, Repr

/-- An address-generator parameter set (R206) with its progress (R211). -/
structure AgSet where
  base : W64
  ctl : W64
  lvl : Vector W64 4
  done : Nat
  status : Nat
  run : Option Run
deriving DecidableEq, Repr

/-- A stationary column of the decode array (R268). -/
structure Col where
  v : VReg
  bf : Bool
deriving DecidableEq, Repr

/-- A range of a kernel header (R48). -/
structure Range where
  win : Nat
  swz : Nat
  row : Nat
  nrow : Nat
deriving DecidableEq, Repr

/-- What a kernel header states (R48), with the address of its first line. -/
structure Khd where
  prof : Profile
  rot : Bool
  vregs : Nat
  pregs : Nat
  agsets : Nat
  entry : W64
  ranges : List Range
deriving DecidableEq, Repr

/-- The iteration that a context runs (R40, R47, R413): the node instance, the address of its node, its region and
ordinal, the interface, address space, generation and priority it runs under, whether it has been restored, and its place in
the order of dispatches (R67). -/
structure Iter where
  nid : Nat
  nodeVa : W64
  rid : Nat
  ord : Nat
  vi : Nat
  asid : Nat
  gen : BitVec 16
  prio : Nat
  restored : Bool
  dispatched : Nat
deriving DecidableEq, Repr

/-- A trap: cause, place, address, code, stream and precision (R395); `prec` is line or instruction precision. -/
structure TrapInfo where
  cause : Nat
  line : W64
  slot : Nat
  addr : W64
  code : Nat
  st : Nat
  prec : Bool
deriving DecidableEq, Repr

/-- An arrival that barw waits for (R145): its phase, and the place of the instruction that arrived. -/
structure OutBar where
  scope : Nat
  id : Nat
  phase : Nat
  by' : Nat
deriving DecidableEq, Repr

/-- A commanded instruction that has finished and has yet to leave its counter: 0 NCL, 1 NCS, 2 NCX, 3 NCM (R142). -/
structure Dec where
  ctr : Nat
  seq : Nat
deriving DecidableEq, Repr

/-- The descriptor of an mmacro as it was read (R258). -/
structure MacDesc where
  bt : W64
  bstr : Nat
  sT : W64
  ab : W64
  agstr : Nat
  arstr : Nat
  ng : Nat
  nrow : Nat
  row0 : Nat
  bf : Bool
  rf : Bool
  raw : List W64
deriving DecidableEq, Repr

/-- How a matrix command in flight goes on: at once, or in the groups of an mmacro from group g (R258), or in the steps of
an mscan (R282). -/
inductive MFly where
  | plain
  | gemm (d : MacDesc) (g : Nat)
  | scan
deriving DecidableEq, Repr

/-- A matrix command that has issued into its array (R250): its instruction, the scalar registers read at issue, the
vectors of dmvld, the port vectors popped so far. -/
structure MCmd where
  e : QEntry
  a : W64
  b : W64
  vs : List VReg
  got : List VReg
  prog : MFly
deriving DecidableEq, Repr

/-- An operation captured at a save, with the cycles it was from landing (R401, R404). -/
structure Captured where
  f : InFlight
  rest : Nat
deriving DecidableEq, Repr

/-- The resume record (R151, R411). -/
structure Resume where
  pc : W64
  ops : List Captured
deriving DecidableEq, Repr

/-- A Y instruction on its way: a token-queue operation, or an advance of a generation (R73, R301). -/
inductive YFly where
  | tq (send : Bool) (q : Nat) (v : W64) (d b : Nat) (tmo : Nat) (start : Nat) (nextAt : Nat)
  | gen (asid : Nat) (d : Nat)
deriving DecidableEq, Repr

/-- What a sequencer does: it runs, it stands at a pre-emption boundary (R149), or it has ended (R394). -/
inductive SeqMode where
  | run
  | boundary
  | ended
deriving DecidableEq, Repr

/-- A context of a core. `nextIss` holds, by stream code, the first cycle in which the stream may issue again, at 0
the first in which a line may be delivered, at 1 the cycle after the last delivery (R94, R123, R127). `caps` holds the operations captured by a save in progress
(R401). `replay` holds the lines of the replay buffer in decoded form, the last delivered first (R123); `accL` and `accS` count the
accesses that each queue has accepted in this cycle (R202); `dline` is the line delivered last, `yseq` the place of the Y instruction on
its way (R397). (R120, R154, R201, R205, R206, R219, R268). -/
structure Ctx where
  id : CtxId
  has : Bool
  it : Iter
  khd : Khd
  s : Vector W64 64
  a : Vector W64 32
  v : Vector VReg 48
  p : Vector PData 16
  vage : Vector Nat 32
  page : Vector Nat 8
  pc : W64
  line : Option Line
  inLine : Bool
  last : Bool
  nxt : Option W64
  skip : Option Nat
  mode : SeqMode
  depth : Nat
  loops : Vector Loop 6
  rrb : BitVec 5
  vdep : BitVec 6
  pdep : BitVec 4
  rm : BitVec 2
  ten : BitVec 5
  flg : BitVec 5
  psel : BitVec 4
  gzero : Bool
  chk : Bool
  deadrd : Bool
  smxnan : Bool
  ncl : Nat
  ncs : Nat
  ncx : Nat
  ncm : Nat
  tokens : List Token
  hint : Hint
  replay : List (W64 × Line)
  cq : List QEntry
  sq : List QEntry
  vq : List QEntry
  mq : List QEntry
  xq : List QEntry
  aq : List QEntry
  yq : List QEntry
  lineSeq : Nat
  hold : Bool
  inflight : List InFlight
  gacc : Option GAcc
  lports : Vector (List PEntry) 8
  sports : Vector (List PEntry) 8
  accs : List Acc
  accL : Nat
  accS : Nat
  ag : Vector AgSet 16
  aseq : Nat
  cols : Vector Col 8
  outBars : List OutBar
  arrivals : List (Nat × Nat × Nat)
  decs : List Dec
  mfly : List MCmd
  yfly : Option YFly
  yseq : Nat
  dline : W64
  pend : Option TrapInfo
  more : Bool
  due : Option TrapInfo
  yieldReq : Bool
  prioReq : Bool
  caps : Option (List Captured)
  resume : Option Resume
  wd : Nat
  perf : Vector W64 8
  stall : Nat
  lastIssue : Nat
  nextIss : Vector Nat 8
deriving DecidableEq, Repr

/-! ## Arrays -/

/-- A mask parameter block (R265) and its address. -/
structure MaskBlk where
  addr : W64
  nnode : Nat
  kbase : Nat
  col0 : Nat
  node0 : Nat
  kpos0 : Nat
  win : Nat
  anc : List W64
  pos : List Nat
deriving DecidableEq, Repr

/-- The open partial of an element: the exact E4M3 sum in units of 2^-18, whether E4M3 products entered it, the BF16
products as (mantissa, exponent) pairs, the NaN mark (R186, R187), and the sum and M of a partial that was restored (R403). -/
structure Part where
  fix : Int
  used : Bool
  terms : List (Int × Int)
  nan : Bool
  base : Option (Int × Int)
deriving DecidableEq, Repr

/-- An element of an accumulator slot (R188, R247, R272). -/
structure Elem where
  a : BitVec 64
  nan : Bool
  sat : Bool
  part : Part
  g : W32
  b : W32
deriving DecidableEq, Repr

/-- The mode of a slot (R247). -/
inductive SlotMode where
  | plain
  | split
  | affine
deriving DecidableEq, Repr

/-- An accumulator slot (R247, R272). Elements are keyed row x 256 + column (great array) or row x 8 + column (decode
array); carries by column, or as elements. -/
structure MSlot where
  owner : Option CtxId
  mode : SlotMode
  elems : Tab Elem
  rmask : BitVec 512
  ce : Tab Int
  mask : Option MaskBlk
  macdone : Nat
  carry : Tab (W32 × W32)
  guf : BitVec 256
  step : Nat
deriving DecidableEq, Repr

/-- A weight buffer (R253): the tile's bytes, both block scales, its type. -/
structure WBuf where
  tile : BitVec 131072
  sc0 : W32
  sc1 : W32
  bf : Bool
deriving DecidableEq, Repr

/-- A row-former descriptor with the generation of its stream (R262). -/
structure RowF where
  btab : W64
  layer : Nat
  kvh : Nat
  kv : Bool
  fmt : Bool
  pos0 : Nat
  wstart : Nat
  doff : Nat
  srec : W64
  sgen : BitVec 16
deriving DecidableEq, Repr

/-- What the array records of one context (R255): the last mldb of each buffer (tile, table, type, line, slot) and the
last mrowf (descriptor address, its contents when it is usable, line, slot). -/
structure ArrRec where
  b0 : Option (W64 × W64 × Bool × W64 × Nat)
  b1 : Option (W64 × W64 × Bool × W64 × Nat)
  rowf : Option (W64 × Option RowF × W64 × Nat)
deriving DecidableEq, Repr

/-- A lease of a great array (R69, R254): its holder and region, the cycle of the grant, the commands counted, whether it is
to end, and the cycle of the last command. -/
structure Lease where
  ctx : CtxId
  rid : Nat
  at' : Nat
  cmds : Nat
  ending : Bool
  idle : Nat
deriving DecidableEq, Repr

/-- A waiting lease request (R70). -/
structure LReq where
  ctx : CtxId
  rid : Nat
  prio : Nat
  at' : Nat
  passed : Nat
deriving DecidableEq, Repr

/-- The great array of a cluster (R247 to R255). -/
structure GArray where
  slots : Vector MSlot 2
  lease : Option Lease
  reqs : List LReq
  grants : List Nat
  bufs : Vector WBuf 2
  holder : Option CtxId
  rowf : Option RowF
  recs : Tab ArrRec
deriving DecidableEq, Repr

/-! ## Cores and memory -/

/-- A core: its active context, and the cycle at which a context change ends (R68). -/
structure CoreSt where
  active : Nat
  change : Option (Nat × Nat)
deriving DecidableEq, Repr

/-- A bank of a vault (R303, R304): asleep, waking (with the cycle of the wake's start), temperature, refresh rate
0 to 3, rows refreshed, and the cycle of the last access. -/
structure BankSt where
  asleep : Bool
  waking : Option Nat
  temp : Nat
  rate : Nat
  refreshed : Nat
  last : Nat
deriving DecidableEq, Repr

/-- A vault controller (R287, R303, R305, R306, R370). `thr` is the Midnight threshold of the iteration that last ran on the
vault's base vector core (R371). -/
structure Vault where
  dwin : W64
  retidle : BitVec 16
  banks : Tab BankSt
  rtax : Nat
  wakewait : Nat
  wakereplay : Nat
  corrected : Nat
  uncorrectable : Nat
  fgd : Nat
  fgdPrev : Nat
  fgdrun : Nat
  thr : Nat
deriving DecidableEq, Repr

/-- A write-combining line: its number, the valid bytes and the cycle of the last write (R307). -/
structure WcLine where
  line : Nat
  valid : BitVec 64
  at' : Nat
deriving DecidableEq, Repr

/-- A register of the reduction unit (R344). -/
structure RedReg where
  word : Nat
  r : BitVec 288
  pinf : Bool
  ninf : Bool
  nan : Bool
deriving DecidableEq, Repr

/-- An open reduction line: its 64-byte line, its region and address space, its open words (R344, R347). -/
structure RedLine where
  line : Nat
  rid : Nat
  asid : Nat
  gen : BitVec 16
  regs : List RedReg
deriving DecidableEq, Repr

/-- A reduction at the units (R345): the instruction's remaining additions, as (word, addend, address), and the words that it
closes. -/
structure RedWait where
  ctx : CtxId
  seq : Nat
  line : W64
  slot : Nat
  rid : Nat
  asid : Nat
  gen : BitVec 16
  adds : List (Nat × W32 × W64)
  close : List Nat
deriving DecidableEq, Repr

/-- What the descriptor of xkvapp states (R351). -/
structure KvApp where
  srec : W64
  layer : Nat
  kvh : Nat
  srck : W64
  srcv : W64
  pos0 : Nat
  ntok : Nat
  sstr : Nat
deriving DecidableEq, Repr

/-- An append that waits for a block of the pool of a VI on a die, in the order of arrival (R351, R358): its instruction, its descriptor
as read, the block table and the generation of its stream, and the token and kind whose block it waits for. -/
structure KvWait where
  die : Nat
  vi : Nat
  ctx : CtxId
  seq : Nat
  line : W64
  slot : Nat
  app : KvApp
  btab : W64
  sgen : Nat
  tok : Nat
  kv : Nat
deriving DecidableEq, Repr

/-- A cached translation (R295): `die` is its die translation buffer, or `core` its micro-buffer's core key plus one. -/
structure Xlat where
  die : Nat
  core : Nat
  asid : Nat
  gen : BitVec 16
  va : Nat
  size : Nat
  pa : Nat
  perm : BitVec 3
deriving DecidableEq, Repr

/-- A cached instruction line (R115), by core key. -/
structure ILine where
  core : Nat
  asid : Nat
  gen : BitVec 16
  addr : W64
  line : Line
deriving DecidableEq, Repr

/-- A registered shadowed buffer (R328, R349): which image is visible, whether a shadow is open, and the translations
latched at registration, as physical address and permissions of each 64 KiB unit of the visible base and of the second
image. -/
structure Shadow where
  vi : Nat
  asid : Nat
  gen : BitVec 16
  base : W64
  second : W64
  len : Nat
  opened : Bool
  swapped : Bool
  pa1 : List (Nat × BitVec 3)
  pa2 : List (Nat × BitVec 3)
deriving DecidableEq, Repr

/-- A generation advance that has reached the hub (R301): the context of its ygen, or else the VI of its page command (R302), and
the new root if it names one. -/
structure Advance where
  ctx : Option CtxId
  vi : Nat
  root : Option W64
deriving DecidableEq, Repr

/-- An entry of the address-space table (R296), the controllers that have yet to adopt an advance (R297), and the advances that
have reached the hub in their order, the first being performed (R301). -/
structure AsEntry where
  root : W64
  gen : BitVec 16
  old : BitVec 16
  pending : List Nat
  queue : List Advance
deriving DecidableEq, Repr

/-! ## The hub -/

/-- A core set (R64): bits by (package, die, core, base vector). -/
structure CoreSet where
  blocks : List (Nat × List (BitVec 512) × List (BitVec 128))
deriving DecidableEq, Repr

/-- How a region came to run: a child of another region, the root, an admitted stream (record, IRQ, VEC), or an
iteration (IRQ, VEC, the streams that its snapshot lists). -/
inductive Origin where
  | child
  | root
  | accept (srec : W64) (irq : Bool) (vec : Nat)
  | iterate (irq : Bool) (vec : Nat) (lists : List W64)
deriving DecidableEq, Repr

/-- A region (R33 to R37) with its effective fields. `owns` says that its PART is its own and not its parent's (R34, R71); `tree` names
the region at the top of its tree of control blocks, the one that an entry or the root started, and `place` its place in its list of
siblings (R35); `halted` holds the fault domains that have stopped before the region has started (R37). -/
structure Region where
  rid : Nat
  va : W64
  parent : Option Nat
  depth : Nat
  vi : Nat
  origin : Origin
  prio : Nat
  asid : Nat
  gen : BitVec 16
  fdom : Nat
  fpol : Nat
  cores : Nat
  bvc : Nat
  lease : Nat
  bw : Nat
  scratch : Nat
  part : Bool
  owns : Bool
  cset : Option CoreSet
  compl : W64
  status : Nat
  failAt : W64
  stopped : Bool
  degraded : Bool
  started : Bool
  completed : Bool
  children : List Nat
  tree : Nat
  place : Nat
  halted : List Nat
deriving DecidableEq, Repr

/-- A graph instance (R39): its region, the node that opened it, its depth of nesting, and the pending counts of the
nodes it has met. -/
structure GInst where
  iid : Nat
  rid : Nat
  opener : Option Nat
  depth : Nat
  pending : List (W64 × Int)
  completed : Bool
deriving DecidableEq, Repr

/-- How a node instance stands. -/
inductive NodeSt where
  | ready
  | running
  | done
deriving DecidableEq, Repr

/-- A loop-nest record (R46). -/
structure Lnr where
  nlev : Nat
  order : List Nat
  counts : List Nat
  steps : List Int
  bases : List Int
deriving DecidableEq, Repr

/-- A node instance (R38 to R45): its words as read when it became ready, and for a kernel its placement. `next` counts the
iterations dispatched of `total`, `exited` those that have exited; `asked` names the context that it has asked to yield (R67), `finished`
that its work is done and its completion is to follow. -/
structure GNode where
  nid : Nat
  iid : Nat
  rid : Nat
  va : W64
  words : List W64
  st : NodeSt
  readyAt : Nat
  khd : Option Khd
  lnr : Option Lnr
  next : Nat
  total : Nat
  exited : Nat
  loopsDone : Nat
  loopCount : Nat
  asked : Option CtxId
  finished : Bool
deriving DecidableEq, Repr

/-- A barrier of a node instance in a group (R333): the phases completed. -/
structure Barrier where
  nid : Nat
  scope : Nat
  id : Nat
  group : Nat
  done : Nat
deriving DecidableEq, Repr

/-- A work queue of a VI page (R56, R57). -/
structure WorkQ where
  base : W64
  log2n : Nat
  en : Bool
  tail : W32
  head : W32
deriving DecidableEq, Repr

/-- A batch-table entry as last taken (R60): bytes 4 to 31. -/
structure Batch where
  active : Bool
  ndraft : Nat
  stream : W64
  user : W64
deriving DecidableEq, Repr

/-- A block pool of a VI on a die (R358): first block, slots, slot size, the states of slots that are not EMPTY. -/
structure Pool where
  base : W64
  n : Nat
  size : Nat
  busy : List Nat
  wiping : Bool
deriving DecidableEq, Repr

/-- A virtual interface: configuration block (R53) and VI page (R56, R302, R358, R396). `disabling` says that a disable is in
progress (R54), `cmdFor` names the ASID whose advance the page command waits for (R302), `cmdRun` holds OP, ASID and ARG as GO
found them while the command is in progress. -/
structure Vi where
  en : Bool
  disabling : Bool
  stop : Bool
  asidbase : Nat
  asidn : Nat
  cores : Nat
  mincores : Nat
  bvc : Nat
  lease : Nat
  bw : Nat
  priomax : Nat
  scratch : Nat
  tqbase : Nat
  tqn : Nat
  wq : Vector WorkQ 4
  turn : Nat
  wqerr : W64
  btbase : W64
  btn : Nat
  iter : W64
  torncnt : W64
  badcnt : W64
  rootact : Bool
  depth : Tab Nat
  cmdAsid : BitVec 12
  cmdOp : BitVec 3
  cmdErr : Bool
  cmdBusy : Bool
  cmdFor : Option Nat
  cmdRun : Option (Nat × Nat × W64)
  arg : W64
  res : W64
  savebase : W64
  saven : Nat
  savesz : Nat
  saveuse : Nat
  trapbase : W64
  trapn : Nat
  trapcnt : W64
  traplost : W64
  wdlim : BitVec 16
  sigdata : W64
  degcnt : W64
  pools : Tab Pool
  batch : Tab Batch
  root : Option Nat
  starved : Nat
deriving DecidableEq, Repr

/-- An interrupt that has been posted: to the host or to the loop core, with its vector (R45, R408). -/
structure Intr where
  host : Bool
  vi : Nat
  vec : Nat
deriving DecidableEq, Repr

/-- A saved iteration (R401, R402): its slot in the VI's save area, and the context as it was left (where it ran, the
iteration, the ranges it keeps reserved); its registers are restored from the area. -/
structure Saved where
  vi : Nat
  slot : Nat
  ctx : Ctx
deriving DecidableEq, Repr

/-- A layer of a hand-off at its destination (R84 to R86): what its seal record says, what has landed, whether a write has
faulted in this try, and the blocks still to be pulled, of which the first 32 are outstanding. -/
structure TwLayer where
  layer : Nat
  nblk : Nat
  lcrc : W32
  landcrc : W32
  landn : Nat
  tries : Nat
  matched : Bool
  bad : Bool
  pulls : List Nat
deriving DecidableEq, Repr

/-- The hand-off of one stream (R82 to R88): the HANDOFF node that reserved, the source's global die address, the destination die (a
die of this package, or 2,048 + the global address of one of another; 0 while none is reserved), whether the scheduler chose it, how
often it has chosen anew, the number of layers, the sealed notices with the source copies that each names, the layers that the engines
work on; a cancellation in progress, the commit, and the reserved copies by block index. -/
structure TwJob where
  nid : Nat
  srec : W64
  asid : Nat
  vi : Nat
  src : Nat
  die : Nat
  any : Bool
  retries : Nat
  nlayers : Nat
  notes : List (Nat × List W64)
  layers : List TwLayer
  cancelling : Bool
  freed : Bool
  committed : Bool
  blocks : List (Nat × W64)
deriving DecidableEq, Repr

/-- A logits descriptor (R424): its shards as (base, first token, tokens, die). -/
structure LogitDesc where
  nrow : Nat
  bf : Bool
  vocab : Nat
  rstride : Nat
  rootpos : Nat
  shards : List (W64 × Nat × Nat × Nat)
deriving DecidableEq, Repr

/-- A SAMPLE node at work (R423 to R432): the stage control blocks, the descriptor, and for each shard that is done the
logits of every row after the stages. -/
structure Samp where
  nid : Nat
  srec : W64
  chain : List (List W64)
  desc : LogitDesc
  out : W64
  shards : List (Nat × List (List W32))
  nanseen : Bool
deriving DecidableEq, Repr

/-- A die's reset in progress (R417): the neighbours asked to quiesce, those that have fenced their links, those that have
reported FENCED. -/
structure DieRst where
  die : Nat
  asked : List Nat
  quiet : List Nat
  fenced : List Nat
deriving DecidableEq, Repr

/-- A link of the package (R21, R23): modules lost, errors, retries. -/
structure Link where
  lost : Nat
  errors : Nat
  retries : Nat
deriving DecidableEq, Repr

/-- The phases of bring-up (R443). -/
inductive Phase where
  | reset
  | boot
  | links
  | ready
deriving DecidableEq, Repr

/-- The package registers of the administrative page and the security block (R443 to R451). `bridge` says that this package
bridges its group to the host (R28), `dead` names the fabric ports whose lanes have failed training (R26). -/
structure Pkg where
  phase : Phase
  bootstat : BitVec 8
  lcs : BitVec 2
  pkgnum : BitVec 8
  fwsvn : BitVec 16
  linkup : BitVec 18
  linkerr : W32
  bridge : Bool
  dead : BitVec 18
  pwrw : BitVec 16
  pwrlim : BitVec 16
  withheld : BitVec 16
  tmax : BitVec 16
  throtcnt : W32
  devid : W64
  part : BitVec 16
  step : BitVec 16
  minsvn : BitVec 16
  attkey : Bool
  ownerkey : Bool
  loopcore : Bool
  fwhash : List W64
  lanes : Nat
  i3c : Option Nat
deriving DecidableEq, Repr

/-- A reply that an out-of-band or host read has produced (R450, R451). -/
structure Reply where
  kind : Nat
  words : List W64
deriving DecidableEq, Repr

/-- What other agents make happen next: a device step on a subject, a turn of a context (a scheduling choice, plain
data), a soft error in stored data, of one bit or more, on a 64-byte line (R308), or a host access to a register at an offset of
BAR0 (R445). -/
inductive Todo where
  | event (i : Instr) (sub : Subject)
  | focus (c : CtxId)
  | upset (line : Nat) (multi : Bool)
  | bar (off : Nat) (x : W64) (write : Bool)
deriving DecidableEq, Repr

/-- The state of a package. `cx` is the context that the machine turns to now and `parked` the others that hold an
iteration; `cur` is the delivered instruction being executed, `sub` the subject of the device step being executed,
`blk` whether that instruction has to wait; `agenda` is what other agents cause next; `phase` says how far
the nominal order of the current cycle has come for the focused context, `round` which contexts have their turn in this cycle
still to come; `fresh` counts free values. `soft` names the 64-byte lines with a single-bit error that no read has met (R308),
`swz` the swizzle in force on a bank, by 64 x scratch number + bank (R197), `served` the banks that have served an access in this
cycle (R198), `fabOrd` the next place in the order in which requests leave through the fabric ports (R322), `tcm` the loop core's
tightly coupled memory (R18), `msix` how often each MSI-X entry has been raised (R445). -/
structure State where
  cx : Ctx
  parked : List Ctx
  cur : QEntry
  sub : Subject
  blk : Bool
  agenda : List Todo
  phase : Nat
  round : List CtxId
  fresh : Nat
  cycle : Nat
  mem : List Host.Cell
  bad : List Nat
  soft : List Nat
  sealed : List Nat
  wc : List WcLine
  red : List RedLine
  redWait : List RedWait
  kvq : List KvWait
  vaults : Tab Vault
  fmt : Tab Nat
  swz : Tab (Nat × Nat × Nat)
  served : List Nat
  cores : Tab CoreSt
  garr : Tab GArray
  darr : Tab (Vector MSlot 4)
  xlat : List Xlat
  icache : List ILine
  shadows : List Shadow
  asTab : Tab AsEntry
  vis : Tab Vi
  tqs : Tab (List W64)
  intrs : List Intr
  regions : List Region
  insts : List GInst
  nodes : List GNode
  bars : List Barrier
  saved : List Saved
  tw : List TwJob
  nonfin : Tab Nat
  twerr : Tab Nat
  samps : List Samp
  rsts : List DieRst
  downDies : List Nat
  links : Tab Link
  fabOrd : Nat
  tcm : List Host.Cell
  msix : Tab Nat
  pkg : Pkg
  replies : List Reply
  nextId : Nat
deriving DecidableEq, Repr

/-! ## Reset -/

/-- 1.0 in FP32. -/
def one32 : W32 := 0x3F800000

def VReg.zero : VReg := ⟨0, one32⟩
def Capt.none : Capt := ⟨0, [], VReg.zero, VReg.zero, VReg.zero, 0, 0⟩
def Loop.zero : Loop := ⟨0, 0, 0, 0, 0, 0, 0, 0⟩
def Hint.none : Hint := ⟨false, 7, 0, 0, 0, 0⟩
def AgSet.zero : AgSet := ⟨0, 0, Vector.replicate 4 0, 0, 0, .none⟩
def Col.zero : Col := ⟨VReg.zero, false⟩
def Khd.none : Khd := ⟨.p, false, 0, 0, 0, 0, []⟩
def Iter.none : Iter := ⟨0, 0, 0, 0, 0, 0, 0, 0, false, 0⟩
def QEntry.none : QEntry := ⟨0, [], 0, 0, 0, .none, 0, 0, 0, false, false, 0, 0, 0, .none⟩
/-- An access that has not set out. -/
def Journey.start : Journey := ⟨.none, false, false, .none, false, .none, []⟩
def Part.zero : Part := ⟨0, false, [], false, .none⟩
def Elem.zero : Elem := ⟨0, false, false, Part.zero, one32, 0⟩
def MSlot.free : MSlot := ⟨.none, .plain, [], 0, [], .none, 0, [], 0, 0⟩
def WBuf.zero : WBuf := ⟨0, one32, one32, false⟩
def ArrRec.none : ArrRec := ⟨.none, .none, .none⟩
def GArray.zero : GArray :=
  ⟨Vector.replicate 2 MSlot.free, .none, [], [], Vector.replicate 2 WBuf.zero, .none, .none, []⟩
def DArray.zero : Vector MSlot 4 := Vector.replicate 4 MSlot.free
def CoreSt.zero : CoreSt := ⟨0, .none⟩
/-- Temperature and sleep of a bank at reset are DESIGN CHOICE values (log entry 5). -/
def BankSt.zero : BankSt := ⟨false, .none, 0, 0, 0, 0⟩
/-- RETIDLE resets to 32 (R303), DWIN to 0 (R287), the counters to 0 (R306). Before any iteration has run the threshold is 1,024,
that of no bandwidth share. -/
def Vault.zero : Vault := ⟨0, 32, [], 0, 0, 0, 0, 0, 0, 0, 0, 1024⟩
def AsEntry.zero : AsEntry := ⟨0, 0, 0, [], []⟩
def WorkQ.zero : WorkQ := ⟨0, 0, false, 0, 0⟩
def Batch.zero : Batch := ⟨false, 0, 0, 0⟩
def Pool.zero : Pool := ⟨0, 0, 0, [], false⟩
def Vi.zero : Vi :=
  { en := false, disabling := false, stop := false, asidbase := 0, asidn := 0, cores := 0, mincores := 0, bvc := 0, lease := 0, bw := 0,
    priomax := 0, scratch := 0, tqbase := 0, tqn := 0, wq := Vector.replicate 4 WorkQ.zero, turn := 0, wqerr := 0,
    btbase := 0, btn := 0, iter := 0, torncnt := 0, badcnt := 0, rootact := false, depth := [], cmdAsid := 0,
    cmdOp := 0, cmdErr := false, cmdBusy := false, cmdFor := .none, cmdRun := .none, arg := 0, res := 0, savebase := 0, saven := 0, savesz := 0,
    saveuse := 0, trapbase := 0, trapn := 0, trapcnt := 0, traplost := 0, wdlim := 0, sigdata := 0, degcnt := 0,
    pools := [], batch := [], root := .none, starved := 0 }

/-- A context that holds no iteration. Its registers have the values that dispatch gives them (R47, R120, R177, R205,
R206, R220, R268); at reset v and p registers are 0 by DESIGN CHOICE (log entry 2). p0 reads all ones (R219). -/
def Ctx.idle (id : CtxId) : Ctx :=
  { id := id, has := false, it := Iter.none, khd := Khd.none, s := Vector.replicate 64 0, a := Vector.replicate 32 0,
    v := Vector.replicate 48 VReg.zero, p := Vector.replicate 16 0, vage := Vector.replicate 32 32,
    page := Vector.replicate 8 8, pc := 0, line := .none, inLine := false, last := false, nxt := .none, skip := .none,
    mode := .run, depth := 0, loops := Vector.replicate 6 Loop.zero, rrb := 0, vdep := 0, pdep := 0, rm := 0, ten := 0,
    flg := 0, psel := 0, gzero := false, chk := false, deadrd := false, smxnan := false, ncl := 0, ncs := 0, ncx := 0,
    ncm := 0, tokens := [], hint := Hint.none, replay := [], cq := [], sq := [], vq := [], mq := [], xq := [],
    aq := [], yq := [], lineSeq := 0, hold := false, inflight := [], gacc := .none,
    lports := Vector.replicate 8 [], sports := Vector.replicate 8 [], accs := [], accL := 0, accS := 0,
    ag := Vector.replicate 16 AgSet.zero, aseq := 0, cols := Vector.replicate 8 Col.zero, outBars := [],
    arrivals := [], decs := [], mfly := [], yfly := .none, yseq := 0, dline := 0, pend := .none, more := false, due := .none,
    yieldReq := false, prioReq := false, caps := .none, resume := .none, wd := 0, perf := Vector.replicate 8 0, stall := 0,
    lastIssue := 0, nextIss := Vector.replicate 8 0 }

/-- PART is 0xD002 (R446); the registers for which the spec gives no reset value are 0, PWRLIM the package limit of
R29, by DESIGN CHOICE (log entry 6);
the phase after reset is RESET (R443), the endpoint has 16 lanes and 18 fabric ports (R26, R28). -/
def Pkg.reset : Pkg :=
  { phase := .reset, bootstat := 0, lcs := 0, pkgnum := 0, fwsvn := 0, linkup := 0, linkerr := 0,
    bridge := false, dead := 0, pwrw := 0,
    pwrlim := 2000, withheld := 0, tmax := 0, throtcnt := 0, devid := 0, part := 0xD002, step := 0, minsvn := 0,
    attkey := false, ownerkey := false, loopcore := false, fwhash := [], lanes := 16, i3c := .none }

/-- The package right after reset (R443): memory wiped, nothing dispatched, tables empty. The focused context is
context 0 of core 0 of Dawn die 0 by DESIGN CHOICE (log entry 2). -/
def State.reset : State :=
  { cx := Ctx.idle ⟨0, 0, false, 0⟩, parked := [], cur := QEntry.none, sub := {}, blk := false, agenda := [],
    phase := 0, round := [], fresh := 0, cycle := 0, mem := [], bad := [], soft := [], sealed := [], wc := [], red := [], redWait := [], kvq := [], vaults := [],
    fmt := [], swz := [], served := [], cores := [], garr := [], darr := [], xlat := [], icache := [], shadows := [], asTab := [], vis := [],
    tqs := [], intrs := [], regions := [], insts := [], nodes := [], bars := [], saved := [], tw := [],
    nonfin := [], twerr := [], samps := [], rsts := [], downDies := [], links := [], fabOrd := 0, tcm := [], msix := [],
    pkg := Pkg.reset, replies := [], nextId := 1 }

/-! ## How a step can stop -/

/-- The faults of the model. -/
inductive Fault where
  /-- An access to a physical address that the spec says does not exist (R291), where no rule says what follows. No step
  raises it: every such access has a condition, an error completion or a status of its own (log entry 100). Safe. -/
  | hole (pa : Nat)
deriving DecidableEq, Repr

/-- The refusals of the model. -/
inductive Refusal where
  /-- The instruction has no meaning in the model. No arm of exec answers it. Safe. -/
  | notModelled (mnemonic : String)
  /-- The step has no subject of the kind it acts on (a device step named with an operand that the package does not
  have). Raised by device steps. Safe: no such step happens on the hardware. -/
  | noSubject (what : String)
deriving DecidableEq, Repr

/-- The outcome of a step of this machine. -/
abbrev Out := Host.Outcome State Fault Refusal

end Sys2Proof.Machine
end

