-- ==== Sys2Proof/Machine/Ops.lean ====
section
/-! DEFINITION. The named operations over memory, addresses, registers and traps that every meaning is written with. -/

namespace Sys2Proof

/-- The core key of a context: die, base-vector flag and core number. -/
def CtxId.coreKey (c : CtxId) : Nat := c.die * 2048 + (if c.bvc then 1024 else 0) + c.core
/-- The cluster key of a Dawn context (R12). -/
def CtxId.cluster (c : CtxId) : Nat := c.die * 2048 + c.core / 8
/-- The profile of a context's core (R1). -/
def CtxId.prof (c : CtxId) : Profile := if c.bvc then .b else if c.die ≤ 1 then .p else .d

end Sys2Proof

namespace Sys2Proof.Machine

/-! ## Fields of words -/

/-- n bits of a word from bit lo. -/
def bitsOf (v : W64) (lo n : Nat) : Nat := v.toNat / 2 ^ lo % 2 ^ n
/-- One bit of a word. -/
def bitAt (v : W64) (k : Nat) : Bool := v.getLsbD k
/-- The value of w bits read as two's complement. -/
def sextN (w n : Nat) : Int := if n % 2 ^ w < 2 ^ (w - 1) then (n % 2 ^ w : Nat) else ((n % 2 ^ w : Nat) : Int) - 2 ^ w
/-- An integer modulo 2^64. -/
def toW (i : Int) : W64 := BitVec.ofInt 64 i
/-- A natural modulo 2^64. -/
def natW (n : Nat) : W64 := BitVec.ofNat 64 n
/-- An address is a multiple of k. -/
def alignedTo (a : W64) (k : Nat) : Bool := a.toNat % k == 0
/-- The little-endian value of a list of bytes (R4). -/
def leNat (bs : List Byte) : Nat :=
  match bs with
  | [] => 0
  | b :: t => b.toNat + 256 * leNat t
/-- The n low bytes of a value, lowest first (R4). -/
def leBytes (n v : Nat) : List Byte :=
  match n with
  | 0 => []
  | k + 1 => BitVec.ofNat 8 v :: leBytes k (v / 256)

/-! ## Sparse tables -/

/-- The entry of a key, or the default. -/
def Tab.get {α : Type} (d : α) (t : Tab α) (k : Nat) : α :=
  match t with
  | [] => d
  | (j, u) :: r => if j = k then u else Tab.get d r k

/-- Put an entry in its place by rising key. -/
def Tab.ins {α : Type} (t : Tab α) (k : Nat) (v : α) : Tab α :=
  match t with
  | [] => [(k, v)]
  | (j, u) :: r => if k < j then (k, v) :: (j, u) :: r else (j, u) :: Tab.ins r k v
/-- Write an entry; a default value is not listed. -/
def Tab.put {α : Type} [DecidableEq α] (d : α) (t : Tab α) (k : Nat) (v : α) : Tab α :=
  if v = d then t.filter fun x => x.1 != k else Tab.ins (t.filter fun x => x.1 != k) k v

/-! ## Memory

Keys: a physical address (R291) below 2^50; a scratch byte at 2^50 + 2^25 x scratch number + physical offset; the scale cells of
a scratch memory at offset 2^24 + 4 x row. -/

/-- The key of offset o of scratch memory sid (R194). -/
def scratchKey (sid o : Nat) : Nat := 2 ^ 50 + sid * 2 ^ 25 + o
/-- The key of the scale cell of a row (R195). -/
def cellKey (sid row : Nat) : Nat := scratchKey sid (2 ^ 24 + 4 * row)
/-- What a byte reads as that nothing has written: zero after the wipe of R443; a scale cell holds 1.0 (DESIGN CHOICE,
log entry 4). -/
def memDefault (k : Nat) : Byte :=
  if 2 ^ 50 ≤ k && 2 ^ 24 ≤ k % 2 ^ 25 then (match k % 4 with | 2 => 0x80 | 3 => 0x3F | _ => 0) else 0

/-- The byte stored at a key. -/
def Mem.get (m : List Host.Cell) (k : Nat) : Byte :=
  match m with
  | [] => memDefault k
  | (j, b) :: r => if j = k then b else Mem.get r k

/-- Store a byte, keeping the canonical form: keys strictly rising, no cell equal to its default. -/
def Mem.put (m : List Host.Cell) (k : Nat) (v : Byte) : List Host.Cell :=
  match m with
  | [] => if v = memDefault k then [] else [(k, v)]
  | (j, b) :: r =>
    if k < j then (if v = memDefault k then (j, b) :: r else (k, v) :: (j, b) :: r)
    else if k = j then (if v = memDefault k then r else (k, v) :: r)
    else (j, b) :: Mem.put r k v

/-- Every key of a list lies above lo, the keys rise, and no cell equals its default. -/
def Mem.wfAbove (lo : Option Nat) (m : List Host.Cell) : Bool :=
  match m with
  | [] => true
  | (j, b) :: r => (match lo with | none => true | some l => l < j) && b != memDefault j && Mem.wfAbove (some j) r

/-- The canonical form of memory. -/
def Mem.wf (m : List Host.Cell) : Bool := Mem.wfAbove none m

/-- Store several bytes. -/
def Mem.putAll (m : List Host.Cell) (cs : List Host.Cell) : List Host.Cell :=
  match cs with
  | [] => m
  | (k, v) :: r => Mem.putAll (Mem.put m k v) r

/-! ## Reduction registers (R344 to R347) -/

/-- The read-back value of a reduction register (R344). -/
def RedReg.back (r : RedReg) : W32 :=
  if r.nan || (r.pinf && r.ninf) then nan32
  else if r.pinf then 0x7F800000
  else if r.ninf then 0xFF800000
  else
    let i := r.r.toInt
    rne32 (if i = 0 then .fin false 0 0 else .fin (i < 0) i.natAbs (-149))

/-- The open register of word w (a key divided by 4), if any. -/
def redFind (red : List RedLine) (w : Nat) : Option RedReg :=
  match red with
  | [] => none
  | l :: r => match l.regs.find? (fun g => g.word == w) with
    | some g => some g
    | none => redFind r w

/-- Free the registers of the words that a test names; a line with no register left is freed (R345). -/
def redDrop (red : List RedLine) (ws : Nat → Bool) : List RedLine :=
  (red.map fun l => { l with regs := l.regs.filter fun g => !ws g.word }).filter fun l => l.regs != []

/-! ## The byte at its home -/

/-- The byte of a 32-bit word. -/
def byteOfW32 (w : W32) (i : Nat) : Byte := BitVec.ofNat 8 (w.toNat / 2 ^ (8 * i))

/-- The write-combining buffer holds the byte (R307). -/
def wcHolds (s : State) (k : Nat) : Bool := s.wc.any fun l => l.line == k / 64 && l.valid.getLsbD (k % 64)
/-- A read of the byte meets uncorrectable data: its line is uncorrectable, and neither an open reduction register (R346) nor a
valid byte of the write-combining buffer (R307) stands before it. -/
def badByte (s : State) (k : Nat) : Bool :=
  s.bad.contains (k / 64) && (redFind s.red (k / 4)).isNone && !wcHolds s k
/-- What the home serves a read of a byte (R307, R308, R346): the read-back of an open reduction register, zero for uncorrectable
data, else the stored byte: whether the write-combining buffer or DRAM holds it makes no difference (R307). -/
def homeByte (s : State) (k : Nat) : Byte :=
  match redFind s.red (k / 4) with
  | some g => byteOfW32 g.back (k % 4)
  | none => if badByte s k then 0 else Mem.get s.mem k

/-- The bytes of several keys. -/
def homeBytes (s : State) (ks : List Nat) : List Byte := ks.map (homeByte s)
/-- The little-endian value of the bytes of several keys. -/
def homeNat (s : State) (ks : List Nat) : Nat := leNat (homeBytes s ks)
/-- n consecutive keys. -/
def keysFrom (k n : Nat) : List Nat := (List.range n).map (k + ·)
/-- The n-byte value at a key. -/
def homeAt (s : State) (k n : Nat) : Nat := homeNat s (keysFrom k n)

/-- The key is a byte of a Dusk vault, whose controller has a write-combining buffer (R291, R307). -/
def isVaultKey (k : Nat) : Bool := k < 2 ^ 50 && 2 ≤ k / 2 ^ 39 % 8 && k / 2 ^ 39 % 8 ≤ 5
/-- The vault number w of R287 of a vault byte. -/
def vaultOf (k : Nat) : Nat := 512 * (k / 2 ^ 39 % 8 - 2) + k % 2 ^ 39 / 2 ^ 30

/-- A write enters the write-combining buffer: it merges into the line's valid bytes, and the oldest line of the vault
gives way when 32 lines are held (R307). -/
def wcNote (s : State) (line : Nat) (mask : BitVec 64) : State :=
  match s.wc.find? (fun l => l.line == line) with
  | some l => { s with wc := s.wc.map fun x => if x.line = line then ⟨line, l.valid ||| mask, s.cycle⟩ else x }
  | none =>
    let same := s.wc.filter fun l => vaultOf (l.line * 64) == vaultOf (line * 64)
    let kept := if 32 ≤ same.length then
        (match same with | [] => s.wc | o :: _ => s.wc.filter fun l => l.line != o.line)
      else s.wc
    { s with wc := kept ++ [⟨line, mask, s.cycle⟩] }

/-- The lines that cells touch, each once. -/
def linesOf (ks : List Nat) : List Nat := (ks.map (· / 64)).dedup

/-- The bytes of a line that keys name, as a mask. -/
def lineMask (ks : List Nat) (line : Nat) : BitVec 64 :=
  ks.foldl (fun m k => if k / 64 = line then m ||| (1#64 <<< (k % 64)) else m) 0

/-- The keys write the line whole, or have made the write-combining buffer's copy of it whole. -/
def wholeLine (s : State) (ks : List Nat) (l : Nat) : Bool :=
  lineMask ks l == BitVec.allOnes 64 || s.wc.any fun w => w.line == l && w.valid == BitVec.allOnes 64
/-- Bytes have been written at their homes: a Dusk vault's lines enter the write-combining buffer (R307), and a line that is now written
whole holds no error any more (R308). -/
def wroteKeys (s : State) (ks : List Nat) : State :=
  let ls := linesOf (ks.filter (· < 2 ^ 50))
  let t := ls.foldl (fun t l => if isVaultKey (l * 64) then wcNote t l (lineMask ks l) else t) s
  { t with bad := t.bad.filter fun l => !(ls.contains l && wholeLine t ks l)
           soft := t.soft.filter fun l => !(ls.contains l && wholeLine t ks l) }
/-- The cells that the read-back values of the open registers of words make (R344). -/
def backCells (s : State) (ws : List Nat) : List Host.Cell :=
  ws.flatMap fun w => match redFind s.red w with
    | some g => (List.range 4).map fun i => (4 * w + i, byteOfW32 g.back i)
    | none => []
/-- Close the open registers of words: the read-back values are written to memory (R345, R346). -/
def closeWords (s : State) (ws : List Nat) : State :=
  let cs := backCells s ws
  wroteKeys { s with mem := Mem.putAll s.mem cs, red := redDrop s.red fun w => ws.contains w } (cs.map (·.1))
/-- Store cells at their homes as one action; an open reduction register is closed first (R346). -/
def putCells (s : State) (cs : List Host.Cell) : State :=
  let ks := cs.map (·.1)
  let s1 := closeWords s ((ks.filter (· < 2 ^ 50)).map (· / 4)).dedup
  wroteKeys { s1 with mem := Mem.putAll s1.mem cs } ks

/-- Store cells; a write that reaches a SEALED block is dropped (R82). -/
def storeCells (s : State) (cs : List Host.Cell) : State := putCells s (cs.filter fun c => !s.sealed.contains (c.1 / 64))

/-- Store the low n bytes of a value at consecutive keys. -/
def storeAt (s : State) (k n v : Nat) : State := storeCells s ((keysFrom k n).zip (leBytes n v))
/-- Store bytes at keys. -/
def storeBytes (s : State) (ks : List Nat) (bs : List Byte) : State := storeCells s (ks.zip bs)

/-! ## Contexts -/

/-- All contexts the machine holds. -/
def State.ctxs (s : State) : List Ctx := s.cx :: s.parked
/-- The contexts that run an iteration. -/
def State.running (s : State) : List Ctx := s.ctxs.filter (·.has)
/-- Change the focused context. -/
def State.upd (s : State) (f : Ctx → Ctx) : State := { s with cx := f s.cx }
/-- Change the contexts that a test names. -/
def State.updCtxs (s : State) (t : Ctx → Bool) (f : Ctx → Ctx) : State :=
  { s with cx := if t s.cx then f s.cx else s.cx, parked := s.parked.map fun c => if t c then f c else c }
/-- The global die address of a die of this package (R10). -/
def State.dieAddr (s : State) (die : Nat) : Nat := s.pkg.pkgnum.toNat * 8 + die
/-- The instruction that is executing must wait; it stays at the head of its queue. -/
def State.block (s : State) : State := { s with blk := true }

/-! ## Scalar and address registers -/

/-- s0 reads as zero (R154). -/
def Ctx.rs (c : Ctx) (r : Nat) : W64 := if r = 0 then 0 else c.s.getD r 0
/-- A result written to s0 is discarded (R154). -/
def Ctx.ws (c : Ctx) (r : Nat) (v : W64) : Ctx := if r = 0 then c else { c with s := c.s.setIfInBounds r v }
/-- Address registers (R205). -/
def Ctx.ra (c : Ctx) (r : Nat) : W64 := c.a.getD r 0
def Ctx.wa (c : Ctx) (r : Nat) (v : W64) : Ctx := { c with a := c.a.setIfInBounds r v }

/-- The register that a result names. -/
def Res.sreg : Res → Option Nat
  | .s r _ => some r
  | _ => Option.none
def Res.vreg : Res → Option Nat
  | .v r _ _ => some r
  | .vsc r _ => some r
  | _ => Option.none
def Res.preg : Res → Option Nat
  | .p r _ => some r
  | _ => Option.none

/-- A pending write to be seen by a read of this cycle: issued before it (R125). -/
def InFlight.opens (f : InFlight) (now : Nat) : Bool := f.issued < now

/-- A direct load or atom, or the global access, owns scalar register r until it completes (R169, R213). -/
def ownsS (c : Ctx) (r : Nat) : Bool :=
  (match c.gacc with | some g => g.sd == r && (match g.op with | .gst _ _ => false | _ => true) | none => false)
  || c.accs.any (fun a => match a.op with | .lds d _ => d == r | .atom _ d _ _ => d == r | _ => false)
/-- A direct load owns vector register r until it completes (R213). -/
def ownsV (c : Ctx) (r : Nat) : Bool := c.accs.any (fun a => match a.op with | .ldv d => d == r | _ => false)

/-- A read of scalar register r in this cycle breaches an ownership window (R125, R169, R213). -/
def breachS (c : Ctx) (now r : Nat) : Bool :=
  r != 0 && (c.inflight.any (fun f => f.res.sreg == some r && f.issued < now && now < f.due) || ownsS c r)
/-- The same for a vector register or its sidecar. -/
def breachV (c : Ctx) (now r : Nat) : Bool :=
  c.inflight.any (fun f => f.res.vreg == some r && f.issued < now && now < f.due) || ownsV c r
/-- The same for a predicate register. -/
def breachP (c : Ctx) (now r : Nat) : Bool :=
  c.inflight.any (fun f => f.res.preg == some r && f.issued < now && now < f.due)

/-- A free choice between two words (R126): bit k of the free value. -/
def pick (s : State) (k : Nat) : Bool := (Config.freeBits s.fresh k).getLsbD 0

/-- A write lands on the registers that a test names: every write in flight whose window holds this cycle has met it (R125, R126). -/
def Ctx.meetAll (c : Ctx) (now : Nat) (t : Res → Bool) : Ctx :=
  { c with inflight := c.inflight.map fun f => if t f.res && f.issued < now && now ≤ f.due then { f with contested := true } else f }
/-- A write lands on scalar register r, which may be owned by an access (R169, R213). -/
def Ctx.meetS (c : Ctx) (now r : Nat) : Ctx :=
  { c.meetAll now (fun x => x.sreg == some r) with
    gacc := c.gacc.map (fun g => if g.sd = r then { g with mixed := true } else g)
    accs := c.accs.map fun a =>
      let hit : Bool := match a.op with | .lds d _ => d == r | .atom _ d _ _ => d == r | _ => false
      if hit then { a with mixed := true } else a }
/-- A write lands on physical vector register r. -/
def Ctx.meetV (c : Ctx) (now r : Nat) : Ctx :=
  { c.meetAll now (fun x => x.vreg == some r) with
    accs := c.accs.map fun a =>
      let hit : Bool := match a.op with | .ldv d => d == r | _ => false
      if hit then { a with mixed := true } else a }
/-- A write lands on physical predicate register r. -/
def Ctx.meetP (c : Ctx) (now r : Nat) : Ctx := c.meetAll now fun x => x.preg == some r

/-! ## Rotating registers (R136, R137) -/

/-- The physical register of logical vn (R136). -/
def Ctx.physV (c : Ctx) (n : Nat) : Nat :=
  if c.khd.rot && 16 ≤ n then 16 + (n - 16 + c.rrb.toNat) % 32 else n
/-- The physical register of logical pn (R136). -/
def Ctx.physP (c : Ctx) (n : Nat) : Nat :=
  if c.khd.rot && 8 ≤ n then 8 + (n - 8 + c.rrb.toNat) % 8 else n
/-- A physical vector register is dead (R137). -/
def Ctx.deadV (c : Ctx) (r : Nat) : Bool :=
  c.khd.rot && 16 ≤ r && c.vdep != 0 && c.vdep.toNat ≤ c.vage.getD (r - 16) 32
/-- A context as an instruction finds it: with the live depth in force at its delivery, and without a rotating base that a ycsrw has
written since (R136, R147, R406). -/
def Ctx.asDelivered (c : Ctx) (e : QEntry) : Ctx := { c with vdep := e.vdep, pdep := e.pdep, rrb := e.rrb.getD c.rrb }
/-- A physical predicate register is dead (R137). -/
def Ctx.deadP (c : Ctx) (r : Nat) : Bool :=
  c.khd.rot && 8 ≤ r && c.pdep != 0 && c.pdep.toNat ≤ c.page.getD (r - 8) 8
/-- AgeRotating (R129, R137): every age grows, saturating at 32 and 8. -/
def Ctx.ageRotating (c : Ctx) : Ctx :=
  { c with vage := c.vage.map (fun x => min 32 (x + 1)), page := c.page.map (fun x => min 8 (x + 1)) }

/-- Write a physical vector register: its age becomes 0 (R137). -/
def Ctx.wv (c : Ctx) (r : Nat) (v : VReg) : Ctx :=
  { c with v := c.v.setIfInBounds r v
           vage := if c.khd.rot && 16 ≤ r then c.vage.setIfInBounds (r - 16) 0 else c.vage }
/-- Write a physical predicate register; p0 is never written (R235). -/
def Ctx.wp (c : Ctx) (r : Nat) (v : PData) : Ctx :=
  if r = 0 then c
  else { c with p := c.p.setIfInBounds r v
                page := if c.khd.rot && 8 ≤ r then c.page.setIfInBounds (r - 8) 0 else c.page }

/-! ## Traps -/

/-- Trap causes (R393). -/
def tcLine : Nat := 0x01
def tcInstr : Nat := 0x02
def tcOperand : Nat := 0x03
def tcLoop : Nat := 0x04
def tcLoopStack : Nat := 0x05
def tcWindow : Nat := 0x06
def tcTranslation : Nat := 0x07
def tcPermission : Nat := 0x08
def tcStale : Nat := 0x09
def tcAlign : Nat := 0x0A
def tcBreach : Nat := 0x0B
def tcLease : Nat := 0x0C
def tcWatchdog : Nat := 0x0D
def tcArith : Nat := 0x0E
def tcSoft : Nat := 0x0F
def tcSave : Nat := 0x10
def tcRestore : Nat := 0x11
def tcReset : Nat := 0x12
def tcUnreach : Nat := 0x13
def tcDisabled : Nat := 0x14

/-- The code of a stream (R93). -/
def streamCode : Stream → Nat
  | .c => 1
  | .s => 2
  | .v => 3
  | .m => 4
  | .x => 5
  | .a => 6
  | .y => 7

/-- A run that is stopped: with no access outstanding it ends. -/
def AgSet.stopped (g : AgSet) : AgSet :=
  match g.run with
  | none => g
  | some r =>
    if r.left = 0 then { g with run := none, status := if r.fault then 2 else 0 } else { g with run := some { r with stop := true } }
/-- What leaves a completion counter when the run of a set is stopped. -/
def AgSet.ends (g : AgSet) : Option Dec :=
  g.run.bind fun r => if r.left = 0 then some ⟨if r.load then 0 else 1, r.seq⟩ else none
/-- Stop every run as agstop does (R210): it generates no further access, and completes once those generated are
performed. -/
def Ctx.stopRuns (c : Ctx) : Ctx :=
  { c with ag := c.ag.map AgSet.stopped, decs := c.decs ++ c.ag.toList.filterMap AgSet.ends }

/-- TAKING A TRAP (R392, R394 steps 1 and 2): no further line is delivered, every queued instruction that has not issued
is discarded, runs stop, pending groups and steps stop at their boundary, and the trap waits for issued work to
complete. When a boundary condition was recorded before, the record describes that one and MORE is set (R395). -/
def takeTrap (s : State) (t : TrapInfo) : State :=
  if s.cx.due.isSome then { s with cx := { s.cx with more := true } }
  else
    let first := match s.cx.pend with | some p => p | none => t
    { s with cx := { s.cx.stopRuns with
        due := some first, more := s.cx.more || (s.cx.pend.isSome && s.cx.pend != some t), pend := none,
        cq := [], sq := [], vq := [], mq := [], xq := [], aq := [], yq := [], mode := .ended, caps := none } }

/-- A trap with line or instruction precision at the instruction that is executing (R392). -/
def trapAt (s : State) (st : Stream) (cause : Nat) (addr : W64) (code : Nat) : State :=
  takeTrap s ⟨cause, s.cur.line, s.cur.slot, addr, code, streamCode st, true⟩

/-- Record a condition that is reported at the next boundary (R392); the first one stands, others set MORE (R395). -/
def pendTrap (c : Ctx) (t : TrapInfo) : Ctx :=
  if c.due.isSome then { c with more := true }
  else match c.pend with
    | none => { c with pend := some t }
    | some _ => { c with more := true }

/-- A boundary condition of the instruction that is executing. -/
def pendAt (s : State) (st : Stream) (cause : Nat) (addr : W64) : State :=
  { s with cx := pendTrap s.cx ⟨cause, s.cur.line, s.cur.slot, addr, 0, streamCode st, false⟩ }

/-- At a boundary a recorded condition is taken before the boundary acts (R392). -/
def atBoundary (s : State) (k : State → Out) : Out :=
  match s.cx.pend with
  | some t => .next (takeTrap s t)
  | none => k s

/-! ## Gates -/

/-- The gate G under the level of the instruction's line (R101). -/
def gateOk (g : BitVec 2) (level : Option (Bool × Bool)) : Bool :=
  match level with
  | none => g != 3
  | some (first, last) =>
    match g.toNat with
    | 0 => true
    | 1 => first
    | 2 => last
    | _ => !first

/-- A suppressed instruction takes its issue cycle and has no other effect (R101). -/
def gated (g : BitVec 2) (s : State) (k : State → Out) : Out :=
  if gateOk g s.cur.level then k s else .next s

/-! ## Completion counters (R142) -/

/-- Add to a counter: 0 NCL, 1 NCS, 2 NCX, 3 NCM. -/
def Ctx.bump (c : Ctx) (ctr : Nat) : Ctx :=
  match ctr with
  | 0 => { c with ncl := c.ncl + 1 }
  | 1 => { c with ncs := c.ncs + 1 }
  | 2 => { c with ncx := c.ncx + 1 }
  | _ => { c with ncm := c.ncm + 1 }
/-- Leave a counter. -/
def Ctx.drop (c : Ctx) (ctr : Nat) : Ctx :=
  match ctr with
  | 0 => { c with ncl := c.ncl - 1 }
  | 1 => { c with ncs := c.ncs - 1 }
  | 2 => { c with ncx := c.ncx - 1 }
  | _ => { c with ncm := c.ncm - 1 }
/-- The executing instruction has completed its work and is to leave its counter. -/
def Ctx.finish (c : Ctx) (ctr seq : Nat) : Ctx := { c with decs := c.decs ++ [⟨ctr, seq⟩] }

/-! ## Physical addresses (R291) -/

/-- Bytes pa to pa + n - 1 lie in memory that exists. -/
def paOk (s : State) (pa n : Nat) : Bool :=
  let pk := pa / 2 ^ 42
  let die := pa / 2 ^ 39 % 8
  let off := pa % 2 ^ 39
  pa < 2 ^ 50 && (pk == s.pkg.pkgnum.toNat || Config.peerPresent pk)
    && (if die ≤ 1 then off + n ≤ 72000000000 else die ≤ 5 && off + n ≤ 2 ^ 39)

/-! ## Links and routes (R21 to R23) -/

/-- Dies 2 to 5 stand in a ring; two of them are neighbours (R21). -/
def ringNext (d : Nat) : Nat := if d = 5 then 2 else d + 1
def ringPrev (d : Nat) : Nat := if d = 2 then 5 else d - 1
/-- The modules of the link between two dies; none when there is no such link (R21). -/
def linkModules (a b : Nat) : Option Nat :=
  let dusk (d : Nat) : Bool := 2 ≤ d && d ≤ 5
  if (a ≤ 1 && dusk b) || (dusk a && b ≤ 1) then some 4
  else if dusk a && dusk b && (b == ringNext a || b == ringPrev a) then some 2
  else if (a == 6 && b ≤ 5) || (b == 6 && a ≤ 5) then some 1
  else none
/-- The key of a link. -/
def linkKey (a b : Nat) : Nat := 8 * min a b + max a b
def Link.zero : Link := ⟨0, 0, 0⟩
/-- The link between two dies. -/
def State.link (s : State) (a b : Nat) : Link := Tab.get Link.zero s.links (linkKey a b)
def State.setLink (s : State) (a b : Nat) (l : Link) : State := { s with links := Tab.put Link.zero s.links (linkKey a b) l }
/-- The link exists and has a working module (R23). -/
def linkUp (s : State) (a b : Nat) : Bool :=
  match linkModules a b with
  | none => false
  | some n => (s.link a b).lost < n
/-- The links that traffic from one die to another takes, as pairs of dies; none when no route is up (R22). -/
def routeOf (s : State) (a b : Nat) : Option (List (Nat × Nat)) :=
  if a = b then some []
  else if (linkModules a b).isSome then (if linkUp s a b then some [(a, b)] else none)
  else if a ≤ 1 then ([2, 3, 4, 5].find? fun k => linkUp s a k && linkUp s k b).map fun k => [(a, k), (k, b)]
  else if linkUp s a (ringNext a) && linkUp s (ringNext a) b then some [(a, ringNext a), (ringNext a, b)]
  else if linkUp s a (ringPrev a) && linkUp s (ringPrev a) b then some [(a, ringPrev a), (ringPrev a, b)]
  else none
/-- Traffic between two dies takes a link. -/
def usesLink (s : State) (a b x y : Nat) : Bool :=
  match routeOf s a b with
  | some r => r.any fun l => linkKey l.1 l.2 == linkKey x y
  | none => false

/-! ## Fabric ports (R26, R322) -/

/-- Some fabric port is up. -/
def portUp (s : State) (n : Nat) : Bool := s.pkg.linkup.getLsbD n && !s.pkg.dead.getLsbD n
/-- The fabric port through which requests to a die of another package leave (R322): the port fixed by its global die address, or,
when that port is down, the first port up (DESIGN CHOICE, log entry 101). -/
def fabPort (s : State) (die : Nat) : Nat :=
  let h := Config.fabricPort die % 18
  if portUp s h then h else ((List.range 18).find? (portUp s)).getD h
/-- Traffic of a die of this package reaches the home of a physical address: over a route of R22, and for another package over the
hub and a fabric port that is up. -/
def reaches (s : State) (src pa : Nat) : Bool :=
  if pa / 2 ^ 42 == s.pkg.pkgnum.toNat then (routeOf s src (pa / 2 ^ 39 % 8)).isSome
  else (routeOf s src 6).isSome && (List.range 18).any (portUp s)

/-! ## Controllers -/

/-- The controller that checks the generation of an access to a physical address: the home of R291 and R311 in this package (vault
w, 2048 + 2 x die + stack for HBM4), for another package the fabric port by which the access leaves, 2052 + port (R296). -/
def ctlOf (s : State) (pa : Nat) : Nat :=
  if pa / 2 ^ 42 != s.pkg.pkgnum.toNat then 2052 + fabPort s (pa / 2 ^ 39)
  else if pa / 2 ^ 39 % 8 ≤ 1 then 2048 + 2 * (pa / 2 ^ 39 % 8) + pa / 256 % 2
  else vaultOf pa

/-- The address-space entry of an ASID (R296). -/
def State.asid (s : State) (asid : Nat) : AsEntry := Tab.get AsEntry.zero s.asTab asid
/-- The generation of an ASID in a controller's copy of the table (R296, R297). -/
def ctlGen (s : State) (asid ctl : Nat) : BitVec 16 :=
  let e := s.asid asid
  if e.pending.contains ctl then e.old else e.gen

/-! ## Translation (R292 to R295) -/

/-- A leaf: the page's virtual base, its size, its physical base, its permissions RD [0], WR [1], EX [2]. -/
structure Leaf where
  va : Nat
  size : Nat
  pa : Nat
  perm : BitVec 3
deriving DecidableEq, Repr

/-- The levels of the tree (R292): lowest index bit, index bits, from level 0. -/
def ptLevels : List (Nat × Nat) := [(45, 12), (34, 11), (29, 5), (21, 8), (16, 5)]

/-- The walk (R294) from a table address over the levels left; `root` marks level 0. -/
def walkFrom (s : State) (va table : Nat) (root : Bool) (levels : List (Nat × Nat)) : Except Nat Leaf :=
  match levels with
  | [] => .error tcTranslation
  | (lo, n) :: rest =>
    if table % (8 * 2 ^ n) != 0 || !paOk s table (8 * 2 ^ n) then .error tcTranslation
    else
      let e := homeAt s (table + 8 * (va / 2 ^ lo % 2 ^ n)) 8
      let addr := e % 2 ^ 50 / 256 * 256
      if e % 2 == 0 || e / 32 % 8 != 0 || e / 2 ^ 50 != 0 then .error tcTranslation
      else if e / 2 % 2 == 1 then
        if root || addr % 2 ^ lo != 0 || !paOk s addr (2 ^ lo) then .error tcTranslation
        else .ok ⟨va / 2 ^ lo * 2 ^ lo, 2 ^ lo, addr, BitVec.ofNat 3 (e / 4)⟩
      else if e / 4 % 8 != 0 || rest == [] then .error tcTranslation
      else walkFrom s va addr false rest

/-- The bytes of the entries that a walk reads. -/
def walkKeysFrom (s : State) (va table : Nat) (levels : List (Nat × Nat)) : List Nat :=
  match levels with
  | [] => []
  | (lo, n) :: rest =>
    if table % (8 * 2 ^ n) != 0 || !paOk s table (8 * 2 ^ n) then []
    else
      let k := table + 8 * (va / 2 ^ lo % 2 ^ n)
      let e := homeAt s k 8
      keysFrom k 8 ++ (if e % 4 = 1 then walkKeysFrom s va (e % 2 ^ 50 / 256 * 256) rest else [])
/-- The walk of a virtual address in an address space (R294). -/
def walk (s : State) (asid va : Nat) : Except Nat Leaf :=
  let r := (s.asid asid).root
  if r = 0 then .error tcTranslation else walkFrom s va r.toNat true ptLevels

/-- A cached translation of the die's buffer or of the core's micro-buffer that hits (R295). -/
def xlatHit (s : State) (die core asid : Nat) (gen : BitVec 16) (va : Nat) : Option Leaf :=
  (s.xlat.find? fun x => x.die == die && (x.core == 0 || x.core == core + 1) && x.asid == asid && x.gen == gen
    && gen == (s.asid asid).gen && x.va ≤ va && va < x.va + x.size).map fun x => ⟨x.va, x.size, x.pa, x.perm⟩

/-- The leaf of a virtual address: from a cache that hits, else by a walk (R294, R295). -/
def leafOf (s : State) (die core asid : Nat) (gen : BitVec 16) (va : Nat) : Except Nat Leaf :=
  match xlatHit s die core asid gen va with
  | some l => .ok l
  | none => walk s asid va

/-- The permissions that a kind of access needs (R293). -/
def permOk (k : AccessKind) (p : BitVec 3) : Bool :=
  match k with
  | .rd => p.getLsbD 0
  | .wr => p.getLsbD 1
  | .ex => p.getLsbD 2
  | .rw => p.getLsbD 0 && p.getLsbD 1

/-- The registered buffer of an address space that holds a virtual address in its visible range (R349). -/
def shadowAt (s : State) (asid va : Nat) : Option Shadow :=
  s.shadows.find? fun h => h.asid == asid && h.base.toNat ≤ va && va < h.base.toNat + h.len
/-- The address lies in the second range of a registered buffer (R349). -/
def shadowHidden (s : State) (asid va : Nat) : Bool :=
  s.shadows.any fun h => h.asid == asid && h.second.toNat ≤ va && va < h.second.toNat + h.len

/-- The physical address of a virtual one, for an access of a kind (R294, R293); `named` marks a write of an X or M
instruction, which goes to the shadow of an open buffer (R328). -/
def translate (s : State) (die core asid : Nat) (gen : BitVec 16) (kind : AccessKind) (named : Bool) (va : Nat) :
    Except Nat Nat :=
  if shadowHidden s asid va then .error tcPermission
  else match shadowAt s asid va with
    | some h =>
      let img := if (named && h.opened) != h.swapped then h.pa2 else h.pa1
      let u := img.getD ((va - h.base.toNat) / 65536) (0, 0)
      if permOk kind u.2 then .ok (u.1 + (va - h.base.toNat) % 65536) else .error tcPermission
    | none =>
      match leafOf s die core asid gen va with
      | .error c => .error c
      | .ok l => if permOk kind l.perm then .ok (l.pa + (va - l.va)) else .error tcPermission

/-- Enter a translation into a cache of a die, its buffer (c = 0) or the micro-buffer of a core (c = core + 1), keeping its size:
the oldest entry gives way (R295; log entry 9). -/
def addXlat (xs : List Xlat) (x : Xlat) (cap : Nat) : List Xlat :=
  let mine := xs.filter fun y => y.die == x.die && y.core == x.core
  (if cap ≤ mine.length then (match mine with | [] => xs | o :: _ => xs.erase o) else xs) ++ [x]
/-- Enter the translation of an address into a die's buffer and, for a core, its micro-buffer. -/
def fillCaches (s : State) (die : Nat) (core : Option Nat) (asid : Nat) (gen : BitVec 16) (va : Nat) : State :=
  match xlatHit s die (core.getD 0) asid gen va with
  | some _ => s
  | none =>
    match walk s asid va with
    | .error _ => s
    | .ok l =>
      if gen != (s.asid asid).gen then s
      else
        let x (c : Nat) : Xlat := ⟨die, c, asid, gen, l.va, l.size, l.pa, l.perm⟩
        let xs := addXlat s.xlat (x 0) 16384
        { s with xlat := match core with | some c => addXlat xs (x (c + 1)) 64 | none => xs }
/-- Enter the translation of an access of a core into its caches (R295). -/
def fillXlat (s : State) (die core asid : Nat) (gen : BitVec 16) (va : Nat) : State := fillCaches s die (some core) asid gen va

/-! ## Scratch memories (R193 to R199) -/

/-- The scratch number of a core's own scratch, and of its cluster's (R12). -/
def ownSid (c : CtxId) : Nat := c.coreKey
def clusterSid (die cluster : Nat) : Nat := die * 2048 + 512 + cluster
/-- Capacity and bank size of a scratch memory by its number (R193). -/
def sidCap (sid : Nat) : Nat :=
  if 1024 ≤ sid % 2048 then 65536 else if sid / 2048 ≤ 1 then (if 512 ≤ sid % 2048 then 8388608 else 262144) else 196608
def sidBank (sid : Nat) : Nat :=
  if 1024 ≤ sid % 2048 then 4096 else if sid / 2048 ≤ 1 then (if 512 ≤ sid % 2048 then 131072 else 16384) else 12288
/-- VLEN, the bytes of a vector access (R193, R206). -/
def vlenOf (p : Profile) : Nat := if p = .b then 64 else 128

/-- The core number of team index t in the team of a core (R13, R15). -/
def teamCore (die core t : Nat) : Option Nat :=
  if die ≤ 1 then (if t < 8 then some (core / 8 * 8 + t) else none)
  else
    let v := core % 64
    some (core / 64 * 64 + (v / 8 / 4 * 4 + t / 4) * 8 + (v % 8 / 4 * 4 + t % 4))

/-- The scratch number that a range of a context's kernel names (R48). -/
def rangeSid (c : CtxId) (win : Nat) : Nat := if win = 1 then ownSid c else clusterSid c.die (c.core / 8)
/-- The ranges of running iterations over a scratch memory, with their regions. -/
def rangesOn (s : State) (sid : Nat) : List (Nat × Range) :=
  s.running.flatMap fun c => (c.khd.ranges.filter fun r => r.win != 0 && rangeSid c.id r.win == sid).map fun r => (c.it.rid, r)

/-- A range is swizzled (R197): its first bank, its number of banks, its span in bytes. A range whose SWZ is 0 is not
(log entry 42). -/
def swizzleOf (sid : Nat) (r : Range) : Option (Nat × Nat × Nat) :=
  let bs := sidBank sid
  let n := 128 * r.nrow / bs
  let b0 := 128 * r.row / bs
  if r.swz != 0 && 128 * r.row % bs == 0 && 128 * r.nrow % bs == 0 && 2 ≤ n && n == 2 ^ Nat.log2 n && n ≤ sidCap sid / bs && b0 % n == 0
  then some (b0, n, max (2 ^ (4 + r.swz)) 128) else none

/-- The swizzle in force on a natural bank (R197): first bank, number of banks, span; no bank is swizzled when the number is 0. -/
def swizzleIn (s : State) (sid bank : Nat) : Nat × Nat × Nat := Tab.get (0, 0, 0) s.swz (sid * 64 + bank)
/-- The banks that a range covers. -/
def coveredBanks (sid : Nat) (r : Range) : List Nat :=
  (List.range (sidCap sid / sidBank sid)).filter fun b => r.row * 128 < (b + 1) * sidBank sid && b * sidBank sid < (r.row + r.nrow) * 128
/-- Put the swizzles of a context's ranges in force: its iteration is placed (R197). -/
def setSwizzles (s : State) (c : Ctx) : State :=
  { s with swz := (c.khd.ranges.filter fun r => r.win != 0).foldl (fun t r =>
      match swizzleOf (rangeSid c.id r.win) r with
      | some z => (List.range z.2.1).foldl (fun t b => Tab.put (0, 0, 0) t (rangeSid c.id r.win * 64 + z.1 + b) z) t
      | none => t) s.swz }
/-- Clear the swizzle of every bank under a context's ranges that no running iteration's range covers: the context has ended (R197). -/
def clearSwizzles (s : State) (c : Ctx) : State :=
  { s with swz := (c.khd.ranges.filter fun r => r.win != 0).foldl (fun t r =>
      let sid := rangeSid c.id r.win
      (coveredBanks sid r).foldl (fun t b =>
        if (rangesOn s sid).any fun q => (coveredBanks sid q.2).contains b then t else Tab.put (0, 0, 0) t (sid * 64 + b) (0, 0, 0)) t) s.swz }
/-- The physical bank that holds an offset (R194, R197). -/
def bankOf (s : State) (sid o : Nat) : Nat :=
  let bs := sidBank sid
  let n := o / bs
  let z := swizzleIn s sid n
  if z.2.1 = 0 then n else z.1 + Nat.xor (n - z.1) (o % bs / z.2.2 % z.2.1)

/-- Where an offset of a scratch memory is stored: in its physical bank at the same offset in the bank (R197). -/
def physOff (s : State) (sid o : Nat) : Nat := bankOf s sid o * sidBank sid + o % sidBank sid
/-- The keys of n bytes of a scratch memory from an offset. -/
def scratchKeys (s : State) (sid o n : Nat) : List Nat := (List.range n).map fun i => scratchKey sid (physOff s sid (o + i))
/-- The keys of the scale cell of a row (R195): the cell goes with its row. -/
def cellKeys (s : State) (sid row : Nat) : List Nat := keysFrom (cellKey sid (physOff s sid (128 * row) / 128)) 4

/-- The FMT of a bank (R199). -/
def fmtOf (s : State) (sid bank : Nat) : Nat := Tab.get 0 s.fmt (sid * 64 + bank)
/-- The FMT that governs an offset of a scratch memory. -/
def fmtAt (s : State) (sid o : Nat) : Nat := fmtOf s sid (bankOf s sid o)

/-- The n bytes from offset o of a scratch memory lie within one range that R196 lets an access use. -/
def rangeCovers (rs : List Range) (o n : Nat) : Bool := rs.any fun r => 128 * r.row ≤ o && o + n ≤ 128 * (r.row + r.nrow)

/-! ## Resolving an access (R285, R286) -/

/-- An address as its window names it: global (virtual address), scratch (number, offset, the ranges R196 allows),
a scratch scale cell, a vault byte. -/
inductive Place where
  | glob (va : Nat)
  | scratch (sid o : Nat) (rs : List Range)
  | vault (w pa : Nat)
deriving DecidableEq, Repr

/-- The window of an address for a context (R285, R194, R288, R196): check 1 of R286. -/
def placeOf (s : State) (c : Ctx) (a : W64) : Except Nat Place :=
  let n := a.toNat
  let id := c.id
  let mine := s.running.filter fun d => d.it.rid == c.it.rid
  let own := fun (d : Ctx) => d.khd.ranges.filter fun r => r.win == 1
  match n / 2 ^ 60 with
  | 0 => if n < 2 ^ 57 then .ok (.glob n) else .error tcWindow
  | 1 => if n / 2 ^ 48 % 2 ^ 12 == 0 then .ok (.scratch (ownSid id) (n % 2 ^ 48) (own c)) else .error tcWindow
  | 2 =>
    if id.prof == .p && n / 2 ^ 48 % 2 ^ 12 == 0 then
      .ok (.scratch (clusterSid id.die (id.core / 8)) (n % 2 ^ 48)
        ((mine.filter fun d => d.id.prof == .p && d.id.cluster == id.cluster).flatMap fun d => d.khd.ranges.filter fun r => r.win == 2))
    else .error tcWindow
  | 3 =>
    if id.prof != .b && n / 2 ^ 52 % 2 ^ 8 == 0 then
      match teamCore id.die id.core (n / 2 ^ 48 % 16) with
      | some k =>
        let t : CtxId := ⟨id.die, k, false, 0⟩
        .ok (.scratch (ownSid t) (n % 2 ^ 48)
          ((mine.filter fun d => d.id.coreKey == t.coreKey).flatMap own))
      | none => .error tcWindow
    else .error tcWindow
  | 4 =>
    if id.prof == .d then
      if n / 2 ^ 30 % 2 ^ 30 == 0 then
        .ok (.vault (512 * (id.die - 2) + id.core) (s.dieAddr id.die * 2 ^ 39 + id.core * 2 ^ 30 + n % 2 ^ 30))
      else .error tcWindow
    else if id.prof == .b then
      if n / 2 ^ 34 % 2 ^ 26 == 0 && n / 2 ^ 30 % 4 == 0 then
        let q := n / 2 ^ 32 % 4
        let b := id.core % 16
        let v := (b / 4 * 2 + q / 2) * 8 + (b % 4 * 2 + q % 2)
        let core := id.core / 16 * 64 + v
        .ok (.vault (512 * (id.die - 2) + core) (s.dieAddr id.die * 2 ^ 39 + core * 2 ^ 30 + n % 2 ^ 30))
      else .error tcWindow
    else .error tcWindow
  | 5 =>
    if id.prof == .d && n / 2 ^ 38 % 2 ^ 22 == 0 && n / 2 ^ 30 % 4 == 0 then
      let core := id.core / 64 * 64 + n / 2 ^ 32 % 64
      .ok (.vault (512 * (id.die - 2) + core) (s.dieAddr id.die * 2 ^ 39 + core * 2 ^ 30 + n % 2 ^ 30))
    else .error tcWindow
  | _ => .error tcWindow

/-- The state of a vault's controller. -/
def State.vault (s : State) (w : Nat) : Vault := Tab.get Vault.zero s.vaults w
/-- Change a vault's controller. -/
def State.setVault (s : State) (w : Nat) (v : Vault) : State := { s with vaults := Tab.put Vault.zero s.vaults w v }

/-- The check of DWIN for bytes o to o + n - 1 of a vault (R287). -/
def dwinOk (d : W64) (asid o n : Nat) : Bool :=
  bitAt d 63 && bitsOf d 0 14 * 65536 ≤ o && o + n ≤ bitsOf d 16 15 * 65536 && bitsOf d 32 12 == asid

/-- The keys of n bytes of a global address range: translation and permission of every byte (R286 checks 4 and 5). -/
def globKeys (s : State) (c : Ctx) (kind : AccessKind) (named : Bool) (va n : Nat) : Except Nat (List Nat) :=
  match n with
  | 0 => .ok []
  | k + 1 =>
    match globKeys s c kind named va k with
    | .error e => .error e
    | .ok ks =>
      match translate s c.id.die c.id.coreKey c.it.asid c.it.gen kind named (va + k) with
      | .error e => .error e
      | .ok pa => .ok (ks ++ [pa])

/-- Every byte's home holds the context's generation (R286 check 6, R296). -/
def gensOk (s : State) (c : Ctx) (ks : List Nat) : Bool := ks.all fun k => ctlGen s c.it.asid (ctlOf s k) == c.it.gen

/-- Resolve an access of n bytes with an alignment (R286): the keys of its bytes, or the cause of the first check that
fails. An access to which no route of R22 is left ends with an error completion (R418; DESIGN CHOICE, log entry 102). `cell` admits a 4-byte access to a scale cell (R195). -/
def resolve (s : State) (c : Ctx) (kind : AccessKind) (named cell : Bool) (a : W64) (n align : Nat) : Except Nat (List Nat) :=
  match placeOf s c a with
  | .error e => .error e
  | .ok pl =>
    if !alignedTo a align then .error tcAlign
    else match pl with
      | .glob va =>
        if 2 ^ 57 < va + n then .error tcWindow
        else match globKeys s c kind named va n with
          | .error e => .error e
          | .ok ks =>
            if !gensOk s c ks then .error tcStale
            else if ks.all (reaches s c.id.die) then .ok ks
            else .error tcUnreach
      | .scratch sid o rs =>
        if 2 ^ 40 ≤ o then
          if cell && n == 4 && (o - 2 ^ 40) % 4 == 0 && o - 2 ^ 40 + 4 ≤ 4 * (sidCap sid / 128) then
            if rangeCovers rs ((o - 2 ^ 40) / 4 * 128) 128 then .ok (cellKeys s sid ((o - 2 ^ 40) / 4))
            else .error tcPermission
          else .error tcWindow
        else if sidCap sid < o + n then .error tcWindow
        else if rangeCovers rs o n then .ok (scratchKeys s sid o n)
        else .error tcPermission
      | .vault w pa =>
        if 2 ^ 30 < pa % 2 ^ 30 + n then .error tcWindow
        else if !dwinOk (s.vault w).dwin c.it.asid (pa % 2 ^ 30) n then .error tcPermission
        else if ctlGen s c.it.asid w == c.it.gen then .ok (keysFrom pa n)
        else .error tcStale

/-- Note the translations that an access through the global window has used in its core's caches (R295). -/
def noteXlat (s : State) (c : Ctx) (a : W64) (n : Nat) : State :=
  if a.toNat / 2 ^ 60 = 0 then
    fillXlat (fillXlat s c.id.die c.id.coreKey c.it.asid c.it.gen a.toNat) c.id.die c.id.coreKey c.it.asid c.it.gen (a.toNat + n - 1)
  else s

/-- A read of the keys meets uncorrectable data (R308). -/
def anyBad (s : State) (ks : List Nat) : Bool := ks.any (badByte s)

/-! ## Regions -/

/-- Change a region. -/
def State.updRegion (s : State) (rid : Nat) (f : Region → Region) : State :=
  { s with regions := s.regions.map fun r => if r.rid = rid then f r else r }
/-- A region by its number. -/
def State.region? (s : State) (rid : Nat) : Option Region := s.regions.find? (·.rid == rid)
/-- A node instance by its number. -/
def State.node? (s : State) (nid : Nat) : Option GNode := s.nodes.find? (·.nid == nid)
/-- Change a node instance. -/
def State.updNode (s : State) (nid : Nat) (f : GNode → GNode) : State :=
  { s with nodes := s.nodes.map fun n => if n.nid = nid then f n else n }

/-- A degraded completion is marked on the region of the work that met it (R37, R399). -/
def markDegraded (s : State) (rid : Nat) : State := s.updRegion rid fun r => { r with degraded := true }
/-- Count a line with an error at its vault (R306): corrected, or uncorrectable. -/
def countLine (fixed : Bool) (t : State) (l : Nat) : State :=
  if isVaultKey (l * 64) then
    let v := t.vault (vaultOf (l * 64))
    t.setVault (vaultOf (l * 64))
      (if fixed then { v with corrected := min 65535 (v.corrected + 1) }
       else { v with uncorrectable := min 65535 (v.uncorrectable + 1) })
  else t
/-- Single-bit errors in the lines read are corrected and counted (R308). -/
def fixSoft (s : State) (ks : List Nat) : State :=
  let ls := (linesOf (ks.filter (· < 2 ^ 50))).filter s.soft.contains
  if ls = [] then s else ls.foldl (countLine true) { s with soft := s.soft.filter fun l => !ls.contains l }
/-- What the ECC of the lines read finds (R306, R308): single-bit errors are corrected and counted; uncorrectable data is counted at
its vault and marks the region DEGRADED. -/
def noteBad (s : State) (rid : Nat) (ks : List Nat) : State :=
  let s1 := fixSoft s ks
  if anyBad s1 ks then (linesOf (ks.filter (badByte s1))).foldl (countLine false) (markDegraded s1 rid) else s1

/-- A walk that failed may have read an entry from an uncorrectable line: the region of its access is marked DEGRADED (R294). -/
def noteWalk (s : State) (rid asid cause : Nat) (a : W64) : State :=
  if cause = tcTranslation && a.toNat < 2 ^ 57 then noteBad s rid (walkKeysFrom s a.toNat (s.asid asid).root.toNat ptLevels) else s
/-- The walk of the focused context's access. -/
def noteOwnWalk (s : State) (cause : Nat) (a : W64) : State := noteWalk s s.cx.it.rid s.cx.it.asid cause a

/-- A dropped write into a SEALED block marks the writer's region DEGRADED (R82, R399). -/
def noteSealed (s : State) (rid : Nat) (ks : List Nat) : State :=
  if ks.any fun k => s.sealed.contains (k / 64) then markDegraded s rid else s

/-- The graph of a region stops (R31): it starts no further nodes; the first failure gives the status. LOOPCAP is no failure
and gives way to a lower code (R36, R44). -/
def stopGraph (s : State) (rid : Nat) (status : Nat) (at' : W64) : State :=
  s.updRegion rid fun r => if r.completed then r
    else if r.status = 0 || (r.status = 5 && status < 5) then { r with stopped := true, status := status, failAt := at' }
    else { r with stopped := true }

/-- The fault domain stops (R37): every other region of the VI with the same effective FDOM starts no further nodes and
completes STOPPED, unless it has completed. A region that has not started notes the domain, for its own FDOM is not known yet. -/
def stopDomain (s : State) (rid : Nat) : State :=
  match s.region? rid with
  | none => s
  | some r =>
    { s with regions := s.regions.map fun q =>
        if q.vi != r.vi || q.completed || q.rid == rid then q
        else if !q.started && q.status = 0 then { q with halted := r.fdom :: q.halted }
        else if q.fdom = r.fdom then { q with stopped := true, status := if q.status = 0 then 6 else q.status }
        else q }

/-- A node fails (R31, R37): its region's graph stops with a status and the fault domain follows. -/
def failNode (s : State) (rid : Nat) (status : Nat) (at' : W64) : State := stopDomain (stopGraph s rid status at') rid

/-! ## Fenced links (R417) -/

/-- A die of this package to which a die issues no new request: it is being reset, and the link to it is fenced or down. -/
def fencedDie (s : State) (src d : Nat) : Bool :=
  s.downDies.contains d || s.rsts.any fun r => r.die == d && r.quiet.contains src
/-- Some byte lies behind a fenced link. -/
def fencedKeys (s : State) (src : Nat) (ks : List Nat) : Bool :=
  ks.any fun k => k < 2 ^ 50 && k / 2 ^ 42 == s.pkg.pkgnum.toNat && fencedDie s src (k / 2 ^ 39 % 8)
/-- The die has fenced a link, or a die is down: its engines start no new transfer. -/
def linkFenced (s : State) (src : Nat) : Bool := s.downDies != [] || s.rsts.any fun r => r.quiet.contains src

/-! ## Virtual interfaces -/

/-- A virtual interface. -/
def State.vi (s : State) (n : Nat) : Vi := Tab.get Vi.zero s.vis n
def State.setVi (s : State) (n : Nat) (v : Vi) : State := { s with vis := Tab.put Vi.zero s.vis n v }
/-- The MSI-X entry of interrupt vector vec of a VI (R445). -/
def msixEntry (vi vec : Nat) : Nat := 32 * vi + vec % 32
/-- Post an interrupt; one to the host raises its MSI-X entry (R45, R445). -/
def State.post (s : State) (host : Bool) (vi vec : Nat) : State :=
  { s with intrs := s.intrs ++ [⟨host, vi, vec⟩]
           msix := if host then Tab.put 0 s.msix (msixEntry vi vec) (Tab.get 0 s.msix (msixEntry vi vec) + 1) else s.msix }

end Sys2Proof.Machine
end

