-- ==== Sys2Proof/Machine/Registers.lean ====
section
/-! DEFINITION. How the accesses of the S and A streams resolve and what they return (R168 to R172, R199, R212, R216), and what a read of a
register finds (R125, R126, R137, R169, R213). -/

namespace Sys2Proof.Machine

/-! ## Extension -/

/-- The bytes and the sign extension of an sz code (R103). -/
def szBytes (sz : Nat) : Nat := 2 ^ (sz / 2)
/-- A loaded value extended as sz names (R103): even codes below 6 are signed. -/
def szExtend (sz v : Nat) : W64 := if sz % 2 = 0 then toW (sextN (8 * szBytes sz) v) else natW v

/-! ## Accesses of the S stream -/

/-- The bytes of an S access. -/
def GOp.size : GOp → Nat
  | .gld n _ => n
  | .gst n _ => n
  | .gatom op _ _ _ => if op = 12 then 4 else 8
  | .amaxx => 4
/-- What an S access needs of a leaf (R293). -/
def GOp.kind : GOp → AccessKind
  | .gld _ _ => .rd
  | .gst _ _ => .wr
  | _ => .rw
/-- It reads memory. -/
def GOp.reads : GOp → Bool
  | .gst _ _ => false
  | _ => true

/-- The canonical magnitude of an FP32 pattern: sign cleared, every NaN 0x7FC0_0000 (R171). -/
def canonMag (n : Nat) : Nat := if isNaN32 n then 0x7FC00000 else n % 2 ^ 31
where
  isNaN32 (n : Nat) : Bool := (unpack f32 (n % 2 ^ 32)).isNaN

/-- The new value of gatom (R171): none when nothing is written. -/
def gatomNew (op : Nat) (old v cmp : W64) : Option W64 :=
  match op with
  | 0 => none
  | 1 => some v
  | 2 => some v
  | 3 => if old = cmp then some v else none
  | 4 => some (old + v)
  | 5 => some (old &&& v)
  | 6 => some (old ||| v)
  | 7 => some (old ^^^ v)
  | 8 => some (if old.toInt ≤ v.toInt then v else old)
  | 9 => some (if old.toNat ≤ v.toNat then v else old)
  | 10 => some (if old.toInt ≤ v.toInt then old else v)
  | 11 => some (if old.toNat ≤ v.toNat then old else v)
  | _ => some (natW (max old.toNat (canonMag (v.toNat % 2 ^ 32))))

/-- The effect of an S access on its bytes, and the value it returns (R170 to R172). -/
def gopEffect (s : State) (op : GOp) (ks : List Nat) : State × W64 :=
  let old := homeNat s ks
  match op with
  | .gld n sext => (s, if sext then toW (sextN (8 * n) old) else natW old)
  | .gst n v => (storeBytes s ks (leBytes n v.toNat), 0)
  | .gatom o _ v c =>
    match gatomNew o (natW old) v c with
    | some new => (storeBytes s ks (leBytes (GOp.gatom o 0 v c).size new.toNat), natW old)
    | none => (s, natW old)
  | .amaxx => (storeBytes s ks (leBytes 4 0), natW old)

/-- The windows an S access may name: 0x0, and in profile D also 0x4 and 0x5 (R168). -/
def globWindowOk (c : Ctx) (a : W64) : Bool :=
  let n := a.toNat / 2 ^ 60
  n == 0 || (c.id.prof == .d && (n == 4 || n == 5))

/-- Resolve an S access (R168, R286); one that has left for another package is not checked again (R296). -/
def globResolve (s : State) (g : GAcc) : Except Nat (List Nat) :=
  if g.go.left.isSome then .ok g.go.keys
  else if globWindowOk s.cx g.addr then resolve s s.cx g.op.kind false false g.addr g.op.size g.op.size else .error tcWindow

/-! ## Accesses of the A stream -/

/-- A parameter set of the context. -/
def Ctx.agSet (c : Ctx) (g : Nat) : AgSet := c.ag.getD g AgSet.zero
/-- The kind of an access of the A stream. -/
def Acc.kind (a : Acc) : AccessKind :=
  match a.op with
  | .stv _ => .wr
  | .sts _ _ => .wr
  | .wrRun _ _ => .wr
  | .atom _ _ _ _ => .rw
  | _ => .rd
/-- A mark or spfmt: it stands in both queues and orders every other access. -/
def AOp.isMark : AOp → Bool
  | .mark => true
  | .spfmt _ _ => true
  | _ => false

/-- The width in bytes of an atom by TY (R216). -/
def atomBytes (f : BitVec 6) : Nat :=
  match f.toNat / 16 with
  | 0 => 4
  | 1 => 8
  | 2 => 4
  | _ => 2
/-- The vector accesses, which R199 governs. -/
def Acc.vector (a : Acc) : Bool :=
  match a.op with
  | .ldv _ => true
  | .stv _ => true
  | .rdRun _ _ _ => true
  | .wrRun _ _ => true
  | _ => false

/-- The alignment of an access (R212, R207, R216). -/
def Acc.align (a : Acc) : Nat := if a.vector then 4 else a.size

/-- The scratch number of a scratch key. -/
def sidOfKey (k : Nat) : Nat := (k - 2 ^ 50) / 2 ^ 25
/-- The FMT of the bank of a scratch key, 0 elsewhere. -/
def fmtOfKey (s : State) (k : Nat) : Nat :=
  if 2 ^ 50 ≤ k then fmtOf s (sidOfKey k) ((k - 2 ^ 50) % 2 ^ 25 / sidBank (sidOfKey k)) else 0

/-- A vector access to an e4m3+scale bank must start on a row, in profile B on a 64-byte boundary (R199). -/
def fmtAlignOk (s : State) (c : Ctx) (a : Acc) : Bool :=
  match placeOf s c a.addr with
  | .ok (.scratch sid o _) =>
    !(a.vector && o + a.size ≤ sidCap sid && (fmtAt s sid o == 4 || fmtAt s sid (o + a.size - 1) == 4))
      || o % vlenOf c.id.prof == 0
  | _ => true

/-- The windows an access may name (R216: atom only scratch), and the window of its run's base (R207). -/
def accWindowOk (c : Ctx) (a : Acc) : Bool :=
  let w := a.addr.toNat / 2 ^ 60
  match a.op with
  | .atom _ _ _ _ => w == 1 || w == 2 || w == 3
  | .rdRun g _ _ => match (c.agSet g).run with | some r => r.base.toNat / 2 ^ 60 == w | none => true
  | .wrRun g _ => match (c.agSet g).run with | some r => r.base.toNat / 2 ^ 60 == w | none => true
  | _ => true

/-- Resolve an access of the A stream (R286); one that has left for another package is not checked again (R296). -/
def accResolve (s : State) (a : Acc) : Except Nat (List Nat) :=
  if a.go.left.isSome then .ok a.go.keys
  else if !accWindowOk s.cx a then .error tcWindow
  else match placeOf s s.cx a.addr with
    | .error e => .error e
    | .ok _ =>
      if !alignedTo a.addr a.align || !fmtAlignOk s s.cx a then .error tcAlign
      else resolve s s.cx a.kind false (match a.op with | .lds _ _ => true | .sts _ _ => true | _ => false) a.addr a.size a.align

/-- The scale cell of the row of a scratch key. -/
def cellOfKey (k : Nat) : Nat := cellKey (sidOfKey k) ((k - 2 ^ 50) % 2 ^ 25 / 128)

/-- The bytes and the sidecar that a vector access reads (R199, R207). -/
def vecLoad (s : State) (ks : List Nat) : VReg :=
  ⟨BitVec.ofNat 1024 (homeNat s ks),
   match ks with
   | k :: _ => if fmtOfKey s k = 4 then BitVec.ofNat 32 (homeAt s (cellOfKey k) 4) else one32
   | [] => one32⟩
/-! ## Reading registers -/

/-- The value that the outstanding S access brings to its register: the value returned, or, while the access is not performed, what it
would return now (R169). -/
def gaccValue (s : State) (g : GAcc) : Option W64 :=
  match g.st with
  | .done v => some v
  | .failed _ => none
  | .waiting => match globResolve s g with
    | .ok ks => some (gopEffect s g.op ks).2
    | .error _ => none
/-- The vector that an access of the A stream would bring to its register now, a scalar in the low bits: zero when it faults (R213,
R218). -/
def accValue (s : State) (a : Acc) : VReg :=
  match accResolve s a with
  | .error _ => VReg.zero
  | .ok ks => match a.op with
    | .ldv _ => vecLoad s ks
    | .lds _ sz => ⟨(szExtend sz (homeNat s ks)).setWidth 1024, 0⟩
    | .atom f _ _ _ =>
      ⟨((if f.toNat / 16 < 2 then toW (sextN (8 * atomBytes f) (homeNat s ks)) else natW (homeNat s ks)) : W64).setWidth 1024, 0⟩
    | _ => VReg.zero
/-- The new value of scalar register r that the access owning it brings (R169, R213). -/
def newS (s : State) (r : Nat) : Option W64 :=
  match s.cx.accs.find? (fun a => match a.op with | .lds d _ => d == r | .atom _ d _ _ => d == r | _ => false) with
  | some a => some ((accValue s a).d.setWidth 64)
  | none => match s.cx.gacc with
    | some g => if g.sd = r then gaccValue s g else none
    | none => none

/-- The value that a read of scalar register r finds (R125, R126): results due by now have landed, a result in its
window is old or new, a register that an access owns holds its old value or the value that the access brings. -/
def readS (s : State) (k r : Nat) : W64 :=
  if r = 0 then 0
  else
    let v := s.cx.inflight.foldl (fun v f => match f.res with
      | .s d n => if d = r then (if f.due ≤ s.cycle then n else if f.issued < s.cycle && pick s k then n else v) else v
      | _ => v) (s.cx.rs r)
    if ownsS s.cx r && pick s (k + 1) then (newS s r).getD v else v

/-- Per 4-byte unit, one of two values, by the bits of the free value k (R126). -/
def mixUnits (s : State) (k : Nat) (old new : VData) : VData :=
  (List.range 32).foldl (fun d i =>
    if (Config.freeBits s.fresh k).getLsbD i then d ||| (new &&& (0xFFFFFFFF#1024 <<< (32 * i)))
    else d ||| (old &&& (0xFFFFFFFF#1024 <<< (32 * i)))) 0

/-- The value that a read of physical vector register r finds (R125, R126, R213). -/
def readVphys (s : State) (k r : Nat) : VReg :=
  let v := s.cx.inflight.foldl (fun (v : VReg) f => match f.res with
    | .v d n sc => if d = r then
        (if f.due ≤ s.cycle then ⟨n, sc⟩
         else if f.issued < s.cycle then ⟨mixUnits s k v.d n, if pick s (k + 1) then sc else v.sc⟩ else v)
      else v
    | .vsc d sc => if d = r then
        (if f.due ≤ s.cycle then ⟨v.d, sc⟩ else if f.issued < s.cycle && pick s (k + 1) then ⟨v.d, sc⟩ else v)
      else v
    | _ => v) (s.cx.v.getD r VReg.zero)
  match s.cx.accs.find? (fun a => match a.op with | .ldv d => d == r | _ => false) with
  | some a =>
    let n := accValue s a
    ⟨mixUnits s (k + 2) v.d n.d, if pick s (k + 3) then n.sc else v.sc⟩
  | none => v

/-- The same of a 64-bit word. -/
def mixW (s : State) (old new : W64) : W64 := (mixUnits s 0 (old.setWidth 1024) (new.setWidth 1024)).setWidth 64

/-- The value that a read of logical pn finds: p0 is all true (R49), a dead register all false (R137). -/
def readP (s : State) (k n : Nat) : PData :=
  if n = 0 then BitVec.allOnes 128
  else
    let r := (s.cx.asDelivered s.cur).physP n
    if (s.cx.asDelivered s.cur).deadP r then 0
    else s.cx.inflight.foldl (fun v f => match f.res with
      | .p d x => if d = r then (if f.due ≤ s.cycle then x else if f.issued < s.cycle && pick s k then x else v) else v
      | _ => v) (s.cx.p.getD r 0)

/-- The value that a read of logical vn finds: a dead register is +0 with sidecar 1.0 (R137). -/
def readV (s : State) (k n : Nat) : VReg :=
  let r := (s.cx.asDelivered s.cur).physV n
  if (s.cx.asDelivered s.cur).deadV r then VReg.zero else readVphys s k r

end Sys2Proof.Machine
end

