-- ==== Sys2Proof/Machine/Flags.lean ====
section
/-! DEFINITION. The flags and the control registers: VMODE (R177, R180), GPRED (R220), VSTAT (R244) and the sequencer's
registers (R121). -/

namespace Sys2Proof.Machine

/-- A result sets the sticky flags that it raised (R180). -/
def Ctx.raise (c : Ctx) (f : Flags) : Ctx := { c with flg := c.flg ||| f }

/-- The mode of a rounding: an override code 1 to 4, else the mode in force at delivery (R178). -/
def rmSel (code : Nat) (vm : BitVec 2) : BitVec 2 := if code = 0 then vm else BitVec.ofNat 2 (code - 1)

/-- VMODE as a word (R177). -/
def Ctx.vmodeWord (c : Ctx) : W64 := natW (c.rm.toNat + 16 * c.ten.toNat + 65536 * c.flg.toNat)
/-- GPRED as a word (R220). -/
def Ctx.gpredWord (c : Ctx) : W64 := natW (c.psel.toNat + 256 * c.gzero.toNat)
/-- LDEPTH as a word (R121). -/
def Ctx.ldepthWord (c : Ctx) : W64 := natW (c.vdep.toNat + 256 * c.pdep.toNat)
/-- The completion counters as a word (R121). -/
def Ctx.countersWord (c : Ctx) : W64 := natW (c.ncl + 256 * c.ncs + 65536 * c.ncx + 16777216 * c.ncm)
/-- The word of register 0x013 + 4k (R121). -/
def Loop.bindWord (l : Loop) : W64 :=
  natW (l.x.toNat + 64 * l.y.toNat + 4096 * l.n.toNat + 2 ^ 32 * l.stx.toNat + 2 ^ 48 * l.sty.toNat)
/-- The loop level of a word of register 0x013 + 4k. -/
def Loop.withBind (l : Loop) (v : W64) : Loop :=
  { l with x := v.extractLsb' 0 6, y := v.extractLsb' 6 6, n := v.extractLsb' 12 2,
           stx := v.extractLsb' 32 16, sty := v.extractLsb' 48 16 }

/-- A loop level of the stack. -/
def Ctx.level (c : Ctx) (k : Nat) : Loop := c.loops.getD k Loop.zero
/-- Change a loop level. -/
def Ctx.setLevel (c : Ctx) (k : Nat) (l : Loop) : Ctx := { c with loops := c.loops.setIfInBounds k l }

/-- The value of a control register, reserved bits zero (R121, R177, R220, R244). -/
def crRead (c : Ctx) (n : Nat) : W64 :=
  if 0x10 ≤ n then
    let l := c.level ((n - 0x10) / 4)
    match (n - 0x10) % 4 with
    | 0 => l.cnt.setWidth 64
    | 1 => l.idx.setWidth 64
    | 2 => l.body
    | _ => l.bindWord
  else match n with
    | 0 => c.pc
    | 1 => natW c.depth
    | 2 => c.rrb.setWidth 64
    | 3 => c.ldepthWord
    | 4 => c.vmodeWord
    | 5 => c.gpredWord
    | 6 => natW c.chk.toNat
    | 7 => natW c.deadrd.toNat
    | 8 => c.countersWord
    | 9 => natW c.tokens.length
    | 0xA => natW (c.hint.lev + 8 * c.hint.v.toNat)
    | 0xB => c.hint.va.setWidth 64
    | 0xC => natW (c.hint.vb.toNat + 65536 * c.hint.p.toNat)
    | 0xD => c.hint.sr.setWidth 64
    | _ => natW c.smxnan.toNat

/-- Write a control register (R121): none when the write is outside its condition, which is an illegal loop. Writes to
read-only registers and to reserved bits are ignored (R6, R406). -/
def crWrite (c : Ctx) (n : Nat) (v : W64) : Option Ctx :=
  if 0x10 ≤ n then
    let k := (n - 0x10) / 4
    if k < c.depth then none
    else
      let l := c.level k
      some (c.setLevel k (match (n - 0x10) % 4 with
        | 0 => { l with cnt := v.setWidth 32 }
        | 1 => { l with idx := v.setWidth 32 }
        | 2 => { l with body := v &&& ~~~ 31 }
        | _ => l.withBind v))
  else match n with
    | 2 => if c.depth != 0 then none else some (if c.khd.rot then { c with rrb := v.setWidth 5 } else c)
    | 3 => some (if c.khd.rot then { c with vdep := v.extractLsb' 0 6, pdep := v.extractLsb' 8 4 } else c)
    | 4 => some { c with rm := v.extractLsb' 0 2, ten := v.extractLsb' 4 5, flg := v.extractLsb' 16 5 }
    | 5 => some { c with psel := v.extractLsb' 0 4, gzero := v.getLsbD 8 }
    | 6 => some { c with chk := v.getLsbD 0 }
    | 7 => some { c with deadrd := v.getLsbD 0 }
    | 0xE => some { c with smxnan := v.getLsbD 0 }
    | _ => some c

end Sys2Proof.Machine
end

