-- ==== Sys2Proof/Machine/Operands.lean ====
section
/-! DEFINITION. Operand forms: immediates, elements and predicates, vector operand codes and ports, and the issue of an S
or V instruction, which reads its operands and puts its result in flight. -/

namespace Sys2Proof.Machine

/-! ## Immediates (R106) -/

/-- The immediate of the I format with zero to two E words. -/
def iImm (imm : BitVec 12) (x : List W32) : W64 :=
  match x with
  | [] => imm.signExtend 64
  | [e] => (e ++ imm : BitVec 44).signExtend 64
  | e :: f :: _ => (f.extractLsb' 0 20 ++ e ++ imm : BitVec 64)

/-! ## Elements (R105, R219) -/

/-- The element width of a type. -/
def tyWidth (t : BitVec 3) : Nat :=
  match t.toNat with
  | 0 => 32
  | 4 => 32
  | 5 => 32
  | 1 => 16
  | 2 => 16
  | 6 => 16
  | _ => 8
/-- The number format of a float type or e4m3. -/
def tyFmt (t : BitVec 3) : Fmt :=
  match t.toNat with
  | 0 => f32
  | 1 => bf16
  | 2 => f16
  | _ => e4m3
/-- The bits of a vector in a profile (R1). -/
def vecBits (pr : Profile) : Nat := if pr = .b then 512 else 1024
/-- The elements of a vector of a type in a profile (R105). -/
def elemCount (pr : Profile) (t : BitVec 3) : Nat := vecBits pr / tyWidth t

/-- Element i of width w. -/
def getElem' (w i : Nat) (d : VData) : Nat := d.toNat / 2 ^ (w * i) % 2 ^ w
/-- The value whose w-bit digits are given, lowest first. -/
def digits (w : Nat) (xs : List Nat) : Nat := xs.foldr (fun x acc => x % 2 ^ w + 2 ^ w * acc) 0
/-- The vector of w-bit elements. -/
def ofElems (w : Nat) (xs : List Nat) : VData := BitVec.ofNat 1024 (digits w xs)
/-- The elements of a vector of a type. -/
def elemsOf (pr : Profile) (t : BitVec 3) (d : VData) : List Nat :=
  (List.range (elemCount pr t)).map fun i => getElem' (tyWidth t) i d

/-- An integer element's value: unsigned for z32, else signed (R176). -/
def intVal (t : BitVec 3) (n : Nat) : Int := if t = 5 then (n : Int) else sextN (tyWidth t) n
/-- The least value of an integer type. -/
def intMin (t : BitVec 3) : Int := if t = 5 then 0 else -(2 ^ (tyWidth t - 1))
/-- The greatest value of an integer type. -/
def intMax (t : BitVec 3) : Int := if t = 5 then 2 ^ 32 - 1 else 2 ^ (tyWidth t - 1) - 1
/-- An integer modulo 2^w. -/
def wrapN (w : Nat) (i : Int) : Nat := (i % 2 ^ w).toNat
/-- The pattern of an integer result: wrapped, or clamped with SAT (R176). -/
def intRes (t : BitVec 3) (sat : Bool) (i : Int) : Nat :=
  wrapN (tyWidth t) (if sat then max (intMin t) (min (intMax t) i) else i)

/-- The predicate bits of each element of a type (R219). -/
def predStep (pr : Profile) (t : BitVec 3) : Nat := 128 / elemCount pr t
/-- Element i is set in a predicate (R219). -/
def predAt (pr : Profile) (t : BitVec 3) (g : PData) (i : Nat) : Bool := g.getLsbD (i * predStep pr t)
/-- The predicate with the bits of the elements that a list names (R219). -/
def predOf (pr : Profile) (t : BitVec 3) (bs : List Bool) : PData :=
  BitVec.ofNat 128 (digits (predStep pr t) (bs.map fun b => if b then 2 ^ predStep pr t - 1 else 0))

/-! ## What a V instruction computes from -/

/-- The operands of a V instruction as read at issue: the profile, the mode of VMODE, A as a group of vectors, B, D, and
the governing predicate, all ones when the instruction is not predicated. D already has its inactive elements as R221
leaves them. -/
structure VIn where
  pr : Profile
  rm : BitVec 2
  a : List VReg
  b : VReg
  d : VReg
  gp : PData
deriving DecidableEq, Repr

/-- The first vector of A. -/
def VIn.a0 (i : VIn) : VReg := i.a.headD VReg.zero

/-- What a V instruction produces: the vectors of its destination group, a predicate, a scalar or a TAKE bit, the flags
and SMXNAN. -/
structure VOut where
  v : List VReg
  p : PData
  s : W64
  flags : Flags
  smx : Bool
deriving DecidableEq, Repr

/-- A result of one vector. -/
def VOut.vec (d : VData) (sc : W32) (f : Flags) : VOut := ⟨[⟨d, sc⟩], 0, 0, f, false⟩
/-- A predicate result. -/
def VOut.pred (q : PData) (f : Flags) : VOut := ⟨[], q, 0, f, false⟩
/-- A scalar result. -/
def VOut.scal (v : W64) : VOut := ⟨[], 0, v, 0, false⟩

/-- Keep the computed elements where the predicate is set and D's elsewhere (R221); only active elements raise flags. -/
def mergeElems (i : VIn) (t : BitVec 3) (f : Nat → Nat × Flags) : VData × Flags :=
  let rs := (List.range (elemCount i.pr t)).map fun k =>
    if predAt i.pr t i.gp k then f k else (getElem' (tyWidth t) k i.d.d, 0)
  (ofElems (tyWidth t) (rs.map (·.1)), rs.foldl (fun a r => a ||| r.2) 0)

/-- An elementwise result with sidecar 1.0 (R222). -/
def vElem (i : VIn) (t : BitVec 3) (f : Nat → Nat × Flags) : VOut :=
  let r := mergeElems i t f
  VOut.vec r.1 one32 r.2

/-! ## Vector operands (R104) -/

/-- A source of a V instruction: a vector code with the size of its group, a scalar register or a predicate register. -/
inductive VSrc where
  | none
  | vec (c : BitVec 6) (n : Nat)
  | sreg (r : BitVec 6)
  | preg (r : BitVec 4)
deriving DecidableEq, Repr

/-- A destination: a vector code with the size of its group, a sidecar, a predicate, a scalar or a control token. -/
inductive VDst where
  | vec (c : BitVec 6) (n : Nat)
  | side (c : BitVec 6)
  | pred (r : BitVec 4)
  | scal (r : BitVec 6)
  | tok (target : W64)
deriving DecidableEq, Repr

/-- The code names a register (R104). -/
def isVr (c : BitVec 6) : Bool := c.toNat < 0x30
/-- The load or store port of a code, if it names one (R104). -/
def portOf (c : BitVec 6) : Option Nat := if 0x30 ≤ c.toNat && c.toNat < 0x38 then some (c.toNat - 0x30) else none

/-- The vectors that a source pops from load port q. -/
def VSrc.pops (q : Nat) : VSrc → Nat
  | .vec c n => if portOf c = some q then n else 0
  | _ => 0
/-- The first n entries of a load port are present (R201). -/
def portHas (es : List PEntry) (n : Nat) : Bool := n ≤ es.length && (es.take n).all (·.ready)
/-- Every load-port vector that the sources pop is present (R223). -/
def portsReady (c : Ctx) (a b : VSrc) : Bool :=
  (List.range 8).all fun q => portHas (c.lports.getD q []) (a.pops q + b.pops q)
/-- The destination can be reserved (R201, R223, R140). -/
def dstRoom (c : Ctx) : VDst → Bool
  | .vec d n => match portOf d with
    | some w => (c.sports.getD w []).length + n ≤ 8
    | Option.none => true
  | .tok _ =>
    c.tokens.length + (c.inflight.filter fun f => match f.res with | .tok _ => true | _ => false).length < 4
  | _ => true

/-- A source read breaches a window (R125, R127). -/
def VSrc.breach (s : State) : VSrc → Bool
  | .none => false
  | .vec c n => isVr c && (List.range n).any fun j => breachV s.cx s.cycle ((s.cx.asDelivered s.cur).physV (c.toNat + j))
  | .sreg r => breachS s.cx s.cycle r.toNat
  | .preg r => r != 0 && breachP s.cx s.cycle ((s.cx.asDelivered s.cur).physP r.toNat)
/-- A source read finds a dead rotating register (R137). -/
def VSrc.dead (c : Ctx) : VSrc → Bool
  | .vec d n => isVr d && (List.range n).any fun j => c.deadV (c.physV (d.toNat + j))
  | .preg r => c.deadP (c.physP r.toNat)
  | _ => false
/-- A write to the registers that a test names is in flight: it lands inside the window of a write that issues now, or that write lands
inside its window (R125). -/
def Ctx.writing (c : Ctx) (now : Nat) (t : Res → Bool) : Bool := c.inflight.any fun f => now < f.due && t f.res
/-- The write of a destination breaches a window of another write (R125, R169, R213). -/
def VDst.breach (s : State) : VDst → Bool
  | .vec c n => isVr c && (List.range n).any fun j =>
      let r := (s.cx.asDelivered s.cur).physV (c.toNat + j)
      s.cx.writing s.cycle (fun x => x.vreg == some r) || ownsV s.cx r
  | .side c => let r := (s.cx.asDelivered s.cur).physV c.toNat; s.cx.writing s.cycle (fun x => x.vreg == some r) || ownsV s.cx r
  | .pred r => r != 0 && s.cx.writing s.cycle fun x => x.preg == some ((s.cx.asDelivered s.cur).physP r.toNat)
  | .scal r => r != 0 && (s.cx.writing s.cycle (fun x => x.sreg == some r.toNat) || ownsS s.cx r.toNat)
  | .tok _ => false

/-- The immediate of a vector instruction, broadcast, with scale 1.0 (R106). -/
def immVec (pr : Profile) (t : BitVec 3) (x : List W32) : VReg :=
  ⟨ofElems (tyWidth t) (List.replicate (elemCount pr t) ((x.headD 0).toNat)), one32⟩

/-- Read a source: its vectors, and the context with popped ports and DEADRD set for a dead register (R104, R137). -/
def readSrc (s : State) (k : Nat) (t : BitVec 3) (x : List W32) (src : VSrc) : List VReg × State :=
  match src with
  | .none => ([VReg.zero], s)
  | .sreg r => ([⟨(readS s k r.toNat).setWidth 1024, one32⟩], s)
  | .preg r => ([⟨(readP s k r.toNat).setWidth 1024, one32⟩],
      { s with cx := { s.cx with deadrd := s.cx.deadrd || src.dead (s.cx.asDelivered s.cur) } })
  | .vec c n =>
    if isVr c then
      ((List.range n).map fun j => readV s (k + 30 * j) (c.toNat + j),
       { s with cx := { s.cx with deadrd := s.cx.deadrd || src.dead (s.cx.asDelivered s.cur) } })
    else match portOf c with
      | some q =>
        let es := s.cx.lports.getD q []
        ((es.take n).map (·.v), { s with cx := { s.cx with lports := s.cx.lports.setIfInBounds q (es.drop n) } })
      | Option.none =>
        if c = 0x39 then (List.replicate n (immVec s.cx.id.prof t x), s) else (List.replicate n VReg.zero, s)

/-! ## Issue -/

/-- A result in flight of the instruction that is executing: it lands lat cycles from now (R125). -/
def mkFlight (s : State) (st : Stream) (lat : Nat) (res : Res) (f : Flags) (smx : Bool) (src : Capt) : InFlight :=
  { res := res, flags := f, ten := s.cur.ten, smx := smx, issued := s.cycle, due := s.cycle + lat, seq := s.cur.seq,
    line := s.cur.line, slot := s.cur.slot, st := st, src := src, contested := false }
/-- Put results in flight; the next free values are other ones. -/
def launch (s : State) (fs : List InFlight) : State :=
  { s with cx := { s.cx with inflight := s.cx.inflight ++ fs }, fresh := s.fresh + 1 }

/-- The trap of a breach in checking mode: precise for S and C, at the next boundary for others (R127). -/
def breachTrap (s : State) (st : Stream) : State :=
  match st with
  | .c | .s => trapAt s st tcBreach 0 0
  | _ => pendAt s st tcBreach 0

/-- A scalar operand as the save engine captures it (R403). -/
def captS (v : W64) : VReg := ⟨v.setWidth 1024, 0⟩
/-- The scalar of a captured operand. -/
def VReg.scalar (v : VReg) : W64 := v.d.setWidth 64

/-- What an S instruction computes from the mode of VMODE and its three operands. -/
abbrev SVal := BitVec 2 → W64 → W64 → W64 → W64 × Flags

/-- A scalar register read by an instruction, or no operand. -/
def readOp (s : State) (k : Nat) (r : Option (BitVec 6)) : W64 :=
  match r with
  | some n => readS s k n.toNat
  | Option.none => 0

/-- The words of the instruction that is executing with its operands (R403). -/
def mkCapt (s : State) (a b d : VReg) (gp : PData) : Capt := ⟨s.cur.word, s.cur.ext, a, b, d, s.cur.rm, gp⟩

/-- Issue an S instruction that reads up to three scalar registers (R154): the result lands lat cycles later. An enabled
arithmetic trap is precise, and the destination is not written (R164). -/
def issueScalar (g : BitVec 2) (d : BitVec 6) (a b c : Option (BitVec 6)) (lat : Nat) (val : SVal) (s : State) : Out :=
  gated g s fun s =>
    if s.cur.chk && ([a, b, c].any (fun r => r.any fun n => breachS s.cx s.cycle n.toNat)
        || (VDst.scal d).breach s) then .next (breachTrap s .s)
    else
      let x := readOp s 0 a
      let y := readOp s 3 b
      let z := readOp s 6 c
      let r := val s.cur.rm x y z
      if r.2 &&& s.cur.ten != 0 then .next (trapAt s .s tcArith (natW (r.2.toNat * 65536)) 0)
      else .next (launch s [mkFlight s .s lat (.s d.toNat r.1) r.2 false (mkCapt s (captS x) (captS y) (captS z) 0)])

/-- The results of a V instruction for its destination: one for each register or port entry that it writes. -/
def dstRes (c : Ctx) (dst : VDst) (eid : Nat) (o : VOut) : List Res :=
  match dst with
  | .vec d _ =>
    if isVr d then o.v.zipIdx.map fun p => .v (c.physV (d.toNat + p.2)) p.1.d p.1.sc
    else match portOf d with
      | some w => o.v.zipIdx.map fun p => .port w (eid + p.2) p.1.d p.1.sc
      | Option.none => [.none]
  | .side d => [.vsc (c.physV d.toNat) (o.v.headD VReg.zero).sc]
  | .pred r => [if r = 0 then .none else .p (c.physP r.toNat) o.p]
  | .scal r => [.s r.toNat o.s]
  | .tok t => [.tok ⟨o.s != 0, t⟩]

/-- Reserve the store-port entries of a destination (R201). -/
def reserve (c : Ctx) (dst : VDst) (eid : Nat) : Ctx :=
  match dst with
  | .vec d n => match portOf d with
    | some w =>
      let es := c.sports.getD w [] ++ (List.range n).map fun j => ⟨eid + j, false, VReg.zero⟩
      { c with sports := c.sports.setIfInBounds w es }
    | Option.none => c
  | _ => c

/-- The vector that an inactive element keeps: D's own elements where D is a register and ZERO is 0, else +0 (R221). -/
def keepVec (pr : Profile) (t : BitVec 3) (gp : PData) (merge : Bool) (d : VReg) : VReg :=
  ⟨ofElems (tyWidth t) ((List.range (elemCount pr t)).map fun i =>
      if predAt pr t gp i || merge then getElem' (tyWidth t) i d.d else 0), d.sc⟩

/-- Issue a V instruction (R223): wait for its ports, read its operands at issue, and put its results in flight. `pbit`
is P, `sel` says that the governing predicate is read whatever P is, `rd` that D is read as an operand. -/
def issueVector (g : BitVec 2) (a b : VSrc) (pbit sel rd : Bool) (dst : VDst) (t ti : BitVec 3) (x : List W32)
    (lat : Nat) (val : VIn → VOut) (s : State) : Out :=
  gated g s fun s =>
    let merges := pbit && !s.cur.gzero
    let gsrc : VSrc := if pbit || sel then .preg s.cur.psel else .none
    let dsrc : VSrc := match dst with
      | .vec c n => if (rd || merges) && isVr c then .vec c n else .none
      | _ => .none
    if !portsReady s.cx a b || !dstRoom s.cx dst then .next s.block
    else if s.cur.chk && ([a, b, gsrc, dsrc].any (fun o => o.breach s || o.dead (s.cx.asDelivered s.cur)) || dst.breach s) then
      .next (breachTrap s .v)
    else
      let ra := readSrc s 0 ti x a
      let rb := readSrc ra.2 150 ti x b
      let rg := readSrc rb.2 200 ti x gsrc
      let rd' := readSrc rg.2 210 ti x dsrc
      let s1 := rd'.2
      let gp : PData := if gsrc = .none then BitVec.allOnes 128 else (rg.1.headD VReg.zero).d.setWidth 128
      let agp : PData := if pbit || sel then gp else BitVec.allOnes 128
      let pr := s.cx.id.prof
      let d0 := keepVec pr t (if pbit then gp else BitVec.allOnes 128) merges (rd'.1.headD VReg.zero)
      let b0 := rb.1.headD VReg.zero
      let o := val ⟨pr, s.cur.rm, ra.1, b0, d0, agp⟩
      let cap := mkCapt s (ra.1.headD VReg.zero) b0 d0 agp
      let fs := (dstRes (s1.cx.asDelivered s1.cur) dst s1.nextId o).map fun r => mkFlight s1 .v lat r o.flags o.smx cap
      .next (launch { s1 with cx := reserve s1.cx dst s1.nextId, nextId := s1.nextId + 8 } fs)

end Sys2Proof.Machine
end

