-- ==== Sys2Proof/Machine/ScalarInt.lean ====
section
/-! DEFINITION. The integer instructions of the S stream (R154 to R163). Each value function gives s[d] from the operands;
each meaning issues it with the latency of R155. -/

namespace Sys2Proof.Machine

/-- A value function without rounding and without flags. -/
def pureVal (f : W64 → W64 → W64 → W64) : SVal := fun _ x y z => (f x y z, 0)
/-- 1 or 0. -/
def boolW (b : Bool) : W64 := if b then 1 else 0

/-- Signed division toward zero (R156, R157). -/
def sdivW (x y : W64) : W64 := if y = 0 then BitVec.allOnes 64 else toW (Int.tdiv x.toInt y.toInt)
/-- Signed remainder with the sign of x (R156, R157). -/
def sremW (x y : W64) : W64 := if y = 0 then x else toW (Int.tmod x.toInt y.toInt)

def valAdd : SVal := pureVal fun x y _ => x + y
def valSub : SVal := pureVal fun x y _ => x - y
def valMul : SVal := pureVal fun x y _ => x * y
def valMulh : SVal := pureVal fun x y _ => toW (x.toInt * y.toInt / 2 ^ 64)
def valMulhu : SVal := pureVal fun x y _ => natW (x.toNat * y.toNat / 2 ^ 64)
def valDiv : SVal := pureVal fun x y _ => sdivW x y
def valDivu : SVal := pureVal fun x y _ => if y = 0 then BitVec.allOnes 64 else natW (x.toNat / y.toNat)
def valRem : SVal := pureVal fun x y _ => sremW x y
def valRemu : SVal := pureVal fun x y _ => if y = 0 then x else natW (x.toNat % y.toNat)
def valAnd : SVal := pureVal fun x y _ => x &&& y
def valOr : SVal := pureVal fun x y _ => x ||| y
def valXor : SVal := pureVal fun x y _ => x ^^^ y
def valSll : SVal := pureVal fun x y _ => x <<< (y.toNat % 64)
def valSrl : SVal := pureVal fun x y _ => x >>> (y.toNat % 64)
def valSra : SVal := pureVal fun x y _ => x.sshiftRight (y.toNat % 64)
def valMin : SVal := pureVal fun x y _ => if x.toInt ≤ y.toInt then x else y
def valMax : SVal := pureVal fun x y _ => if x.toInt ≤ y.toInt then y else x
def valMinu : SVal := pureVal fun x y _ => if x.toNat ≤ y.toNat then x else y
def valMaxu : SVal := pureVal fun x y _ => if x.toNat ≤ y.toNat then y else x

/-- The conditions of cmp and bcr (R103, R159): EQ, NE, LT, GE, LTU, GEU. -/
def cmpHolds (cc : Nat) (x y : W64) : Bool :=
  match cc with
  | 0 => x == y
  | 1 => x != y
  | 2 => x.toInt < y.toInt
  | 3 => y.toInt ≤ x.toInt
  | 4 => x.toNat < y.toNat
  | _ => y.toNat ≤ x.toNat
def valCmp (w : FR) : SVal := pureVal fun x y _ => boolW (cmpHolds w.f.toNat x y)
def valSel : SVal := pureVal fun x y z => if z != 0 then x else y

/-- The set bits of a number below 2^n. -/
def popN (n v : Nat) : Nat := ((List.range n).filter fun i => v.testBit i).length
/-- The trailing zero bits of a number below 2^n. -/
def ctzN (n v : Nat) : Nat := ((List.range n).find? fun i => v.testBit i).getD n
/-- The leading zero bits of a number below 2^n. -/
def clzN (n v : Nat) : Nat := ((List.range n).find? fun i => v.testBit (n - 1 - i)).getD n
def valPopc : SVal := pureVal fun x _ _ => natW (popN 64 x.toNat)
def valClz : SVal := pureVal fun x _ _ => natW (clzN 64 x.toNat)
def valCtz : SVal := pureVal fun x _ _ => natW (ctzN 64 x.toNat)
/-- R162. -/
def valPpopc : SVal := pureVal fun x y _ =>
  let bm := x.toNat % 2 ^ 16
  let k := y.toNat % 16
  if bm.testBit k then natW (popN 16 (bm % 2 ^ k)) else BitVec.allOnes 64

/-- The low len bits of a field of x from pos (R163). -/
def fieldOf (x : W64) (pos len : Nat) : Nat := x.toNat / 2 ^ pos % 2 ^ len
def valDep (w : FR) : SVal := pureVal fun x y _ =>
  let len := w.f.toNat + 1
  let mask : W64 := natW ((2 ^ len - 1) * 2 ^ w.b.toNat)
  (y &&& ~~~ mask) ||| natW (x.toNat % 2 ^ len * 2 ^ w.b.toNat)
def valExt (w : FR) : SVal := pureVal fun x _ _ => natW (fieldOf x w.b.toNat (w.f.toNat + 1))
def valExts (w : FR) : SVal := pureVal fun x _ _ => toW (sextN (w.f.toNat + 1) (fieldOf x w.b.toNat (w.f.toNat + 1)))

def valAddi (w : FI) : SVal := pureVal fun x _ _ => x + iImm w.imm w.x
def valAndi (w : FI) : SVal := pureVal fun x _ _ => x &&& iImm w.imm w.x
def valOri (w : FI) : SVal := pureVal fun x _ _ => x ||| iImm w.imm w.x
def valXori (w : FI) : SVal := pureVal fun x _ _ => x ^^^ iImm w.imm w.x
def valSlli (w : FI) : SVal := pureVal fun x _ _ => x <<< (w.imm.toNat % 64)
def valSrli (w : FI) : SVal := pureVal fun x _ _ => x >>> (w.imm.toNat % 64)
def valSrai (w : FI) : SVal := pureVal fun x _ _ => x.sshiftRight (w.imm.toNat % 64)

/-! ## Meanings -/

/-- An R-format instruction of two sources (R156). -/
def issueR2 (w : FR) (lat : Nat) (val : SVal) (s : State) : Out :=
  issueScalar w.g w.d (some w.a) (some w.b) none lat val s
/-- An R-format instruction of one source. -/
def issueR1 (w : FR) (lat : Nat) (val : SVal) (s : State) : Out := issueScalar w.g w.d (some w.a) none none lat val s
/-- An I-format instruction (R158). -/
def issueI (w : FI) (val : SVal) (s : State) : Out := issueScalar w.g w.d (some w.a) none none 1 val s

/-- R156. -/
def execAdd (w : FR) (s : State) : Out := issueR2 w 1 valAdd s
/-- R156. -/
def execSub (w : FR) (s : State) : Out := issueR2 w 1 valSub s
/-- R156. -/
def execMul (w : FR) (s : State) : Out := issueR2 w 3 valMul s
/-- R156. -/
def execMulh (w : FR) (s : State) : Out := issueR2 w 4 valMulh s
/-- R156. -/
def execMulhu (w : FR) (s : State) : Out := issueR2 w 4 valMulhu s
/-- R156, R157. -/
def execDiv (w : FR) (s : State) : Out := issueR2 w 24 valDiv s
/-- R156, R157. -/
def execDivu (w : FR) (s : State) : Out := issueR2 w 24 valDivu s
/-- R156, R157. -/
def execRem (w : FR) (s : State) : Out := issueR2 w 24 valRem s
/-- R156, R157. -/
def execRemu (w : FR) (s : State) : Out := issueR2 w 24 valRemu s
/-- R156. -/
def execAnd (w : FR) (s : State) : Out := issueR2 w 1 valAnd s
/-- R156. -/
def execOr (w : FR) (s : State) : Out := issueR2 w 1 valOr s
/-- R156. -/
def execXor (w : FR) (s : State) : Out := issueR2 w 1 valXor s
/-- R156. -/
def execSll (w : FR) (s : State) : Out := issueR2 w 1 valSll s
/-- R156. -/
def execSrl (w : FR) (s : State) : Out := issueR2 w 1 valSrl s
/-- R156. -/
def execSra (w : FR) (s : State) : Out := issueR2 w 1 valSra s
/-- R156. -/
def execMin (w : FR) (s : State) : Out := issueR2 w 1 valMin s
/-- R156. -/
def execMax (w : FR) (s : State) : Out := issueR2 w 1 valMax s
/-- R156. -/
def execMinu (w : FR) (s : State) : Out := issueR2 w 1 valMinu s
/-- R156. -/
def execMaxu (w : FR) (s : State) : Out := issueR2 w 1 valMaxu s
/-- R159. -/
def execCmp (w : FR) (s : State) : Out := issueR2 w 1 (valCmp w) s
/-- R160: the field f names the third register. -/
def execSel (w : FR) (s : State) : Out := issueScalar w.g w.d (some w.a) (some w.b) (some w.f) 1 valSel s
/-- R161. -/
def execPopc (w : FR) (s : State) : Out := issueR1 w 1 valPopc s
/-- R161. -/
def execClz (w : FR) (s : State) : Out := issueR1 w 1 valClz s
/-- R161. -/
def execCtz (w : FR) (s : State) : Out := issueR1 w 1 valCtz s
/-- R162. -/
def execPpopc (w : FR) (s : State) : Out := issueR2 w 2 valPpopc s
/-- R163: s[d] is read at issue. -/
def execDep (w : FR) (s : State) : Out := issueScalar w.g w.d (some w.a) (some w.d) none 1 (valDep w) s
/-- R163. -/
def execExt (w : FR) (s : State) : Out := issueR1 w 1 (valExt w) s
/-- R163. -/
def execExts (w : FR) (s : State) : Out := issueR1 w 1 (valExts w) s
/-- R158. -/
def execAddi (w : FI) (s : State) : Out := issueI w (valAddi w) s
/-- R158. -/
def execAndi (w : FI) (s : State) : Out := issueI w (valAndi w) s
/-- R158. -/
def execOri (w : FI) (s : State) : Out := issueI w (valOri w) s
/-- R158. -/
def execXori (w : FI) (s : State) : Out := issueI w (valXori w) s
/-- R158. -/
def execSlli (w : FI) (s : State) : Out := issueI w (valSlli w) s
/-- R158. -/
def execSrli (w : FI) (s : State) : Out := issueI w (valSrli w) s
/-- R158. -/
def execSrai (w : FI) (s : State) : Out := issueI w (valSrai w) s

end Sys2Proof.Machine
end

