-- ==== Sys2Proof/Machine/Uses.lean ====
section
/-! DEFINITION. What an instruction uses: the scalar registers it reads and writes (R122), its completion counter (R142),
the fence classes of the work that is not done (R323), and the bytes of drains in flight (R252). -/

namespace Sys2Proof.Machine

/-! ## Registers and counters of an instruction -/

/-- The scalar registers that an S, V, M, X, A or Y instruction reads. -/
def sReads (i : Instr) : List Nat :=
  match i with
  | .add w | .sub w | .mul w | .mulh w | .mulhu w | .div w | .divu w | .rem w | .remu w | .and w | .or w | .xor w
  | .sll w | .srl w | .sra w | .min w | .max w | .minu w | .maxu w | .cmp w | .ppopc w
  | .fadd w | .fsub w | .fmul w | .fdiv w | .fmin w | .fmax w | .fcmp w => [w.a.toNat, w.b.toNat]
  | .popc w | .clz w | .ctz w | .ext w | .exts w | .fcvt w | .amaxx w => [w.a.toNat]
  | .dep w => [w.a.toNat, w.d.toNat]
  | .sel w => [w.a.toNat, w.b.toNat, w.f.toNat]
  | .fma w => [w.a.toNat, w.b.toNat, w.d.toNat]
  | .addi w | .andi w | .ori w | .xori w | .slli w | .srli w | .srai w => [w.a.toNat]
  | .gld w => [w.a.toNat]
  | .gst w => [w.a.toNat, w.d.toNat]
  | .gatom w => [w.a.toNat, w.b.toNat] ++ if w.f.toNat % 16 = 3 then [w.d.toNat] else []
  | .vsetsc w | .vbcast w | .vext w => [w.b.toNat]
  | .vins w => [w.a.toNat, w.b.toNat]
  | .mldb w | .mdrain w | .dmdrain w | .mcarry w => [w.a.toNat, w.b.toNat]
  | .mma w => if w.f.toNat % 4 = 1 then [w.a.toNat, w.b.toNat] else [w.b.toNat]
  | .mgain w => [w.a.toNat, w.b.toNat]
  | .mmacro w | .mrowf w | .mmask w => [w.a.toNat]
  | .dmv w | .mscan w | .dmstep w => [w.b.toNat]
  | .xcopy w | .xcopy2d w | .xgath w | .xscat w | .xmcast w | .xsend w | .xred w | .xredmax w | .xshadOpen w
  | .xshadDiscard w | .xshadUnreg w | .xpub w | .xkvapp w | .xplan w | .xfill w | .xwipe w | .xsig w | .xnred w
  | .xnamax w | .xnclone w | .xncomp w | .xncrc w | .xnwipe w | .xnstat w | .xnscale w =>
      [w.d.toNat, w.a.toNat, w.b.toNat, w.f.toNat]
  | .sts w => [w.d.toNat]
  | .atom w => [w.b.toNat, w.d.toNat]
  | .amovToA w => [w.a.toNat]
  | .ycsrw w | .ycsrs w | .ycsrc w | .ytrap w => [w.a.toNat]
  | .ysig w | .ytlbi w | .ytqs w | .ysave w | .ygen w => [w.a.toNat, w.b.toNat]
  | .yperf w | .yprobe w | .ytqr w | .yrest w => [w.a.toNat]
  | _ => []

/-- The scalar registers that an S, V, M, A or Y instruction writes. -/
def sWrites (i : Instr) : List Nat :=
  match i with
  | .add w | .sub w | .mul w | .mulh w | .mulhu w | .div w | .divu w | .rem w | .remu w | .and w | .or w | .xor w
  | .sll w | .srl w | .sra w | .min w | .max w | .minu w | .maxu w | .cmp w | .ppopc w
  | .fadd w | .fsub w | .fmul w | .fdiv w | .fmin w | .fmax w | .fcmp w
  | .popc w | .clz w | .ctz w | .ext w | .exts w | .fcvt w | .amaxx w | .dep w | .sel w | .fma w | .gatom w => [w.d.toNat]
  | .addi w | .andi w | .ori w | .xori w | .slli w | .srli w | .srai w => [w.d.toNat]
  | .gld w => [w.d.toNat]
  | .vgetsc w | .vext w => [w.d.toNat]
  | .vpcnt w => [w.sd.toNat]
  | .mstat w => [w.d.toNat]
  | .lds w | .atom w | .amovToS w => [w.d.toNat]
  | .ycsrr w | .ycsrw w | .ycsrs w | .ycsrc w => [w.d.toNat]
  | .yperf w | .yprobe w | .ygen w | .ytqs w | .ysave w | .yctx w => [w.d.toNat]
  | .ytqr w => [w.d.toNat, w.b.toNat]
  | _ => []

/-- The completion counter in which an instruction counts 1: 0 NCL, 1 NCS, 2 NCX, 3 NCM (R142, R209, R212, R216, R249,
R277, R336, R376). -/
def counterOf (i : Instr) : Option Nat :=
  match i with
  | .agld _ | .ldv _ | .lds _ | .atom _ => some 0
  | .agst _ | .stv _ | .sts _ => some 1
  | .xcopy _ | .xcopy2d _ | .xgath _ | .xscat _ | .xmcast _ | .xsend _ | .xred _ | .xredmax _ | .xshadOpen _
  | .xshadDiscard _ | .xshadUnreg _ | .xpub _ | .xkvapp _ | .xplan _ | .xfill _ | .xwipe _ | .xsig _ | .xnred _
  | .xnamax _ | .xnclone _ | .xncomp _ | .xncrc _ | .xnwipe _ | .xnstat _ | .xnscale _ => some 2
  | .mldb _ | .mma _ | .mmacro _ | .mdrain _ | .mzero _ | .mrowf _ | .mscan _ | .mmode _ | .mgain _ | .mcarry _
  | .mmask _ | .dmvld _ | .dmv _ | .dmdrain _ | .dmzero _ | .dmstep _ => some 3
  | _ => none

/-- The instruction of a delivered entry, which decode accepted at delivery. -/
def QEntry.instr (e : QEntry) (st : Stream) : Option Instr :=
  match decode st e.word e.ext with
  | .ok i => some i
  | .error _ => Option.none
/-- The entry's gate lets it take effect (R101). -/
def QEntry.live (e : QEntry) : Bool := gateOk (gateOf e.word) e.level

/-- The queues of a context with their streams. -/
def Ctx.queues (c : Ctx) : List (Stream × List QEntry) :=
  [(.s, c.sq), (.v, c.vq), (.m, c.mq), (.x, c.xq), (.a, c.aq), (.y, c.yq)]
/-- The queued instructions that take effect, with their places. -/
def Ctx.queuedInstrs (c : Ctx) : List (QEntry × Instr) :=
  c.queues.flatMap fun q => (q.2.filter QEntry.live).filterMap fun e => (e.instr q.1).map fun i => (e, i)

/-- The registers that a Y instruction on its way will write (R73, R301). -/
def yWrites (c : Ctx) : List Nat :=
  match c.yfly with
  | some (.tq send _ _ d b _ _ _) => if send then [d] else [d, b]
  | _ => []
/-- Before a C instruction reads register r: a write of an earlier or the same line is not performed yet (R122). -/
def sWritePending (c : Ctx) (now r : Nat) : Bool :=
  r != 0 && ((yWrites c).contains r || c.queuedInstrs.any (fun q => (sWrites q.2).contains r)
    || c.inflight.any (fun f => f.res.sreg == some r && now < f.due) || ownsS c r)
/-- Before a C instruction writes register r: an instruction of an earlier or the same line has yet to read or write it
(R122). -/
def sUsePending (c : Ctx) (now r : Nat) : Bool :=
  r != 0 && (sWritePending c now r || c.queuedInstrs.any fun q => (sReads q.2).contains r)
/-- Before a Y instruction writes register r: a slot of its own line that uses r has not issued (R73, R405). -/
def lineUsePending (c : Ctx) (e : QEntry) (r : Nat) : Bool :=
  r != 0 && c.queuedInstrs.any fun q =>
    q.1.seq / 8 == e.seq / 8 && q.1.seq != e.seq && ((sReads q.2).contains r || (sWrites q.2).contains r)

/-! ## Fence classes (R323)

A set of classes as bits: ld 0, st 1, xf 2, mx 3, up 4, across 5. -/

/-- The classes of an A-stream access through a window that reads or writes. -/
def accClasses (p : Profile) (win : Nat) (k : AccessKind) : BitVec 6 :=
  if p = .d && win == 4 then 16
  else if p = .d && win == 5 then 32
  else match k with
    | .rd => 1
    | .wr => 2
    | .ex => 1
    | .rw => 3

/-- The classes that a queued instruction may still fall into. The window of a queued A instruction is not known before
it issues: every window is taken. -/
def instrClasses (p : Profile) (i : Instr) : BitVec 6 :=
  let far : BitVec 6 := if p = .d then 48 else 0
  match i with
  | .gld _ => 1
  | .gst _ => 2
  | .gatom _ | .amaxx _ => 3
  | .agld _ | .ldv _ | .lds _ => 1 ||| far
  | .agst _ | .stv _ | .sts _ => 2 ||| far
  | .atom _ => 3
  | i => match counterOf i with
    | some 2 => 4
    | some 3 => 8
    | _ => 0

/-- The classes of the work that stands before place `seq` in program order and is not performed at a scope (R321, R323, R324): `far`
is the scope of the fabric; at every narrower one a store that its fabric port has accepted is performed. -/
def pendingClasses (s : State) (far : Bool) (seq : Nat) : BitVec 6 :=
  let c := s.cx
  let p := c.id.prof
  let open' (j : Journey) : Bool := far || j.left.isNone
  let q := (c.queuedInstrs.filter fun x => x.1.seq < seq).foldl (fun m x => m ||| instrClasses p x.2) 0
  let a := (c.accs.filter fun x => x.seq < seq && !x.op.isMark && open' x.go).foldl
    (fun m x => m ||| accClasses p (x.addr.toNat / 2 ^ 60) x.kind) 0
  let r := c.ag.toList.foldl (fun m g => match g.run with
    | some r => if r.seq < seq && r.next < r.total && !r.stop then m ||| accClasses p (r.base.toNat / 2 ^ 60) (if r.load then .rd else .wr) else m
    | none => m) (0 : BitVec 6)
  let g : BitVec 6 := match c.gacc with
    | some g => if g.seq < seq && g.st == .waiting && open' g.go then
        (match g.op with | .gld _ _ => 1 | .gst _ _ => 2 | _ => 3) else 0
    | none => 0
  let x : BitVec 6 := if (s.redWait.any fun w => w.ctx == c.id && w.seq < seq) || s.kvq.any fun w => w.ctx == c.id && w.seq < seq then 4 else 0
  let m : BitVec 6 := if c.mfly.any fun f => f.e.seq < seq then 8 else 0
  q ||| a ||| r ||| g ||| x ||| m

/-- Every earlier access is performed at the scope: a release may act (R324). -/
def released (s : State) (far : Bool) (seq : Nat) : Bool := pendingClasses s far seq == 0

/-! ## Port vectors of M commands -/

/-- The row-control fields (R257). -/
def rcRow0 (b : W64) : Nat := bitsOf b 0 10
def rcNrow (b : W64) : Nat := bitsOf b 16 10
/-- The vectors that an SRC-0 mma pops: NROW when it lies in 1 to 512, else none (R251). -/
def mmaNeed (h : MCmd) : Nat := if rcNrow h.b ≤ 512 then rcNrow h.b else 0

/-- The stream-control fields of dmv (R269). -/
def dmRow0 (b : W64) : Nat := bitsOf b 0 10
def dmNrow (b : W64) : Nat := bitsOf b 10 8
/-- The vectors that dmv pops: NROW / 2 when NROW is even and lies in 2 to 128, else none (R251). -/
def dmvNeed (h : MCmd) : Nat := if dmNrow h.b % 2 = 0 && dmNrow h.b ≤ 128 then dmNrow h.b / 2 else 0
/-- NROW of a profile D mgain meets its limit (R279). -/
def mgainDOk (bf : Bool) (b : W64) : Bool :=
  bitsOf b 10 10 % (if bf then 8 else 4) == 0 && bitsOf b 10 10 ≤ 512
/-- The vectors that a profile D mgain pops (R279). -/
def mgainNeed (bf : Bool) (h : MCmd) : Nat := if mgainDOk bf h.b then bitsOf h.b 10 10 / (if bf then 8 else 4) else 0
/-- The load port that an issued M command pops, with the vectors it needs in all (R257, R269, R279). -/
def MCmd.port (p : Profile) (h : MCmd) : Option (Nat × Nat) :=
  match h.e.instr .m with
  | some (.mma w) => if w.f.toNat % 4 = 0 then some (w.a.toNat, mmaNeed h) else Option.none
  | some (.dmv w) => some (w.a.toNat, dmvNeed h)
  | some (.mgain w) => if p = .p then Option.none else some (w.a.toNat, mgainNeed (w.f.getLsbD 0) h)
  | _ => Option.none
/-- A port still owes vectors to an issued M command (R401 step 2). -/
def portOwed (c : Ctx) (q : Nat) : Bool :=
  c.mfly.any fun h => match h.port c.id.prof with
    | some (n, k) => n == q && h.got.length < k
    | Option.none => false

/-! ## Drains in flight (R252) -/

/-- The bytes that an mdrain, a dmdrain or an mcarry.st in flight of a context of core c is to write in its own memories, as address and
length (R261, R270, R280); of a drain to team cores those of its own core. -/
def drainSpans (c : CtxId) (m : MCmd) : List (W64 × Nat) :=
  match m.e.instr .m with
  | some (.mdrain w) =>
    let z := if w.f.getLsbD 0 then 2 else 4
    let n := (bitsOf m.b 32 1 + bitsOf m.b 33 1) * 128 * z
    let rs := bitsOf m.b 40 24
    let nrow := bitsOf m.b 16 10
    match w.f.toNat / 2 % 4 with
    | 0 => (List.range nrow).map fun k => (m.a + natW (k * rs), n)
    | 1 =>
      let cores := ((List.range 8).filter fun t => bitAt m.a (48 + t)).length
      if bitAt m.a (48 + c.core % 8) then
        (List.range (nrow / max 1 cores)).map fun k => (natW (3 * 2 ^ 60 + c.core % 8 * 2 ^ 48 + (bitsOf m.a 0 48 + k * rs)), n)
      else []
    | _ => []
  | some (.mcarry w) =>
    if w.f.getLsbD 0 then [(m.a, 8 * bitsOf m.b 16 10 * (if c.prof = .p then 1 else 8))] else []
  | some (.dmdrain w) =>
    let z := if w.f.getLsbD 0 then 2 else 4
    let n := bitsOf m.b 10 10
    if w.f.getLsbD 1 then
      ((List.range 8).filter fun i => bitAt m.b (20 + i)).map fun i => (m.a + natW (i * n * z), n * z)
    else (List.range n).flatMap fun j =>
      ((List.range 8).filter fun i => bitAt m.b (20 + i)).map fun i => (m.a + natW (j * 8 * z + i * z), z)
  | _ => []

/-- A read of the bytes a to a + n - 1 of scratch by an instruction at place `seq` meets bytes that an earlier drain of
its context has yet to write (R252). -/
def readsDrain (s : State) (seq : Nat) (ks : List Nat) : Bool :=
  s.cx.mfly.any fun m => m.e.seq < seq && (drainSpans s.cx.id m).any fun sp =>
    match resolve s s.cx .wr false false sp.1 sp.2 1 with
    | .ok ds => ks.any fun k => ds.contains k
    | .error _ => false

end Sys2Proof.Machine
end

