-- ==== Sys2Proof/Machine/GlobalAccess.lean ====
section
/-! DEFINITION. The uncached global accesses of the S stream (R168 to R172): their issue, their performance at the home and
their response. -/

namespace Sys2Proof.Machine

/-! ## Banks and ECC at the home -/

/-- The bank of a vault byte (R303). -/
def bankIx (k : Nat) : Nat := k % 2 ^ 30 / 2 ^ 24
/-- A bank of a vault. -/
def State.bank (s : State) (w b : Nat) : BankSt := Tab.get BankSt.zero (s.vault w).banks b
/-- Change a bank of a vault. -/
def State.setBank (s : State) (w b : Nat) (v : BankSt) : State :=
  let x := s.vault w
  s.setVault w { x with banks := Tab.put BankSt.zero x.banks b v }
/-- The banks that keys reach, as (vault, bank) pairs. -/
def banksOf (ks : List Nat) : List (Nat × Nat) := ((ks.filter isVaultKey).map fun k => (vaultOf k, bankIx k)).dedup
/-- Some bank that the keys reach sleeps or wakes (R303). -/
def asleepAt (s : State) (ks : List Nat) : Bool := (banksOf ks).any fun p => (s.bank p.1 p.2).asleep
/-- The first access to a sleeping bank starts its wake (R303). -/
def startWake (s : State) (ks : List Nat) : State :=
  (banksOf ks).foldl (fun t p =>
    let b := t.bank p.1 p.2
    if b.asleep && b.waking.isNone then t.setBank p.1 p.2 { b with waking := some t.cycle } else t) s
/-- Every sleeping bank that the keys reach is waking. -/
def wakingAt (s : State) (ks : List Nat) : Bool :=
  (banksOf ks).all fun p => !(s.bank p.1 p.2).asleep || (s.bank p.1 p.2).waking.isSome
/-! ## The way to the home (R22, R25, R303, R321, R322, R417) -/

/-- The dies of this package that hold bytes of a list of keys. -/
def diesOf (s : State) (ks : List Nat) : List Nat :=
  ((ks.filter fun k => k < 2 ^ 50 && k / 2 ^ 42 == s.pkg.pkgnum.toNat).map fun k => k / 2 ^ 39 % 8).dedup
/-- The die of another package that the keys reach, by its global address. -/
def awayDie (s : State) (ks : List Nat) : Option Nat :=
  (ks.find? fun k => k < 2 ^ 50 && k / 2 ^ 42 != s.pkg.pkgnum.toNat).map (· / 2 ^ 39)
/-- The die that answers a request: the hub stands for another package, whose fabric ports it carries (R18). -/
def answerDie (s : State) (src : Nat) (ks : List Nat) : Nat :=
  if (awayDie s ks).isSome then 6 else ((diesOf s ks).find? (· != src)).getD src
/-- The request needs a slot of its pair of dies that it does not hold (R25). -/
def lacksSlot (s : State) (src : Nat) (ks : List Nat) (j : Journey) : Bool := answerDie s src ks != src && !j.slot
/-- The request slots that accesses of contexts of die a hold for die b (R25). -/
def accessSlots (s : State) (a b : Nat) : Nat :=
  (s.running.filter fun c => c.id.die == a).foldl (fun n c =>
    let u := { s with cx := c }
    let goes (r : Except Nat (List Nat)) : Bool := match r with | .ok ks => answerDie u a ks == b | .error _ => false
    n + (match c.gacc with | some g => if g.go.slot && g.st == .waiting && goes (globResolve u g) then 1 else 0 | none => 0)
      + (c.accs.filter fun x => x.go.slot && goes (accResolve u x)).length) 0
/-- The accesses, as addresses with their journeys, that have left through the fabric ports and are outstanding (R322). -/
def leftOnFabric (s : State) : List (Nat × Nat × Nat) :=
  s.running.flatMap fun c =>
    let die (ks : Except Nat (List Nat)) : Nat := match ks with | .ok l => (awayDie s l).getD 0 | .error _ => 0
    (match c.gacc with
      | some g => match g.go.left, g.st with
        | some p, .waiting => [(die (globResolve { s with cx := c } g), p)]
        | _, _ => []
      | none => [])
    ++ c.accs.filterMap fun a => a.go.left.map fun p => (die (accResolve { s with cx := c } a), p)
/-- No request that left for another package waits to be performed at a die that the keys reach: what an engine writes now leaves after it
through the same port (R322). -/
def fabricClear (s : State) (ks : List Nat) : Bool :=
  let ds := ((ks.filter fun k => k < 2 ^ 50 && k / 2 ^ 42 != s.pkg.pkgnum.toNat).map (· / 2 ^ 39)).dedup
  ds == [] || !(leftOnFabric s).any fun q => ds.contains q.1
/-- What stands between an access and its home: nothing, something that it must wait for, or a stage that it passes now. -/
inductive Hop where
  | home
  | wait
  | pass (s : State) (j : Journey)
/-- The way of an access of a context of die `src` to keys that it may reach: no request goes to a die that is being reset (R417); a
request to another die holds a slot (R25); an access to a sleeping bank starts its wake and waits there (R303); one to another package
leaves through its fabric port, stores and others in one order for each die (R321, R322). -/
def nextHop (s : State) (src : Nat) (ks : List Nat) (store : Bool) (j : Journey) : Hop :=
  if fencedKeys s src ks || lacksSlot s src ks j then .wait
  else if asleepAt s ks then
    (if wakingAt s ks && j.arr.isSome then .wait else .pass (startWake s ks) { j with arr := some (j.arr.getD s.cycle) })
  else match awayDie s ks with
    | none => .home
    | some d =>
      let port := fabPort s d
      let mine := (leftOnFabric s).filter fun q => q.1 == d
      match j.left with
      | some p => if mine.any fun q => q.2.2 < p.2 then .wait else .home
      | none =>
        if mine.any fun q => q.2.1 != port then .wait
        else if store then .pass { s with fabOrd := s.fabOrd + 1 } { j with left := some (port, s.fabOrd), keys := ks }
        else if mine != [] then .wait
        else .home
/-- Accesses waited for a short wake of a vault (R303, R306). -/
def countWait (s : State) (w n : Nat) : State :=
  let v := s.vault w
  s.setVault w { v with wakewait := min (2 ^ 32 - 1) (v.wakewait + n) }
/-- Accesses were returned at a long wake of a vault (R303, R306). -/
def countReplay (s : State) (w n : Nat) : State :=
  let v := s.vault w
  s.setVault w { v with wakereplay := min (2 ^ 32 - 1) (v.wakereplay + n) }
/-- How many accesses of an engine's transfer a sleeping bank holds up, and whether its wake is a long one, so that they are returned
and issued again (R303): nothing says so in advance, but there are no more of them than bytes. -/
def engineWake (s : State) (p : Nat × Nat) (ks : List Nat) : State :=
  let n := (ks.filter fun k => vaultOf k == p.1 && bankIx k == p.2).length
  let m := 1 + (Config.freeBits s.fresh (1000 + 64 * p.1 + p.2)).toNat % max 1 n
  if pick s (200000 + 64 * p.1 + p.2) then countReplay s p.1 m else countWait s p.1 m
/-- An access has reached its banks; a sleeping bank is woken for an engine's transfer within the step that performs it, and its wake
is counted (R303, R306). -/
def touchBanks (s : State) (ks : List Nat) : State :=
  (banksOf ks).foldl (fun t p =>
    let t1 := if (t.bank p.1 p.2).asleep then engineWake t p ks else t
    t1.setBank p.1 p.2 { t1.bank p.1 p.2 with asleep := false, waking := none, last := t1.cycle }) s

/-- What the ECC of the lines read finds (R308): a corrected error is counted, an uncorrectable line is marked. -/
def applyEcc (s : State) (e : EccOutcome) (ks : List Nat) : State :=
  match e with
  | .clean => s
  | .corrected => (linesOf (ks.filter (· < 2 ^ 50))).foldl (countLine true) s
  | .uncorrectable =>
    { s with bad := s.bad ++ (linesOf (ks.filter (· < 2 ^ 50))).filter fun l => !s.bad.contains l }

/-! ## Issue -/

/-- The context has no outstanding S access. -/
def gaccFree (s : State) : Bool := s.cx.gacc.isNone

/-- Issue an S access: it stands outstanding until it has been performed and answered (R168). -/
def issueGlob (g : BitVec 2) (reads : List (BitVec 6)) (d : Option (BitVec 6)) (op : GOp) (addr : W64) (sd : Nat)
    (s : State) : Out :=
  gated g s fun s =>
    if !gaccFree s then .next s.block
    else if s.cur.chk && (reads.any (fun n => breachS s.cx s.cycle n.toNat) || d.any fun n => (VDst.scal n).breach s) then
      .next (breachTrap s .s)
    else .next { s with
      cx := { s.cx with gacc := some ⟨op, addr, sd, .waiting, s.cur.seq, s.cur.line, s.cur.slot, false, Journey.start⟩ }
      fresh := s.fresh + 1 }

/-- The address of the IM format (R170). -/
def imAddr (w : FIM) (base : W64) : W64 :=
  match w.x with
  | [] => base + toW (w.off.toInt * szBytes w.sz.toNat)
  | e :: _ => base + e.signExtend 64

/-- R170. -/
def execGld (w : FIM) (s : State) : Out :=
  issueGlob w.g [w.a] (some w.d) (.gld (szBytes w.sz.toNat) (w.sz.toNat % 2 == 0)) (imAddr w (readS s 0 w.a.toNat))
    w.d.toNat s
/-- R170. -/
def execGst (w : FIM) (s : State) : Out :=
  issueGlob w.g [w.a, w.d] none (.gst (szBytes w.sz.toNat) (readS s 3 w.d.toNat)) (imAddr w (readS s 0 w.a.toNat)) 0 s
/-- R171: s[d] is read at issue as the expected value of .cas. -/
def execGatom (w : FR) (s : State) : Out :=
  issueGlob w.g ([w.a, w.b] ++ if w.f.toNat % 16 = 3 then [w.d] else []) (some w.d)
    (.gatom (w.f.toNat % 16) (w.f.toNat / 16) (readS s 3 w.b.toNat) (readS s 6 w.d.toNat)) (readS s 0 w.a.toNat)
    w.d.toNat s
/-- R172. -/
def execAmaxx (w : FR) (s : State) : Out :=
  issueGlob w.g [w.a] (some w.d) .amaxx (readS s 0 w.a.toNat) w.d.toNat s

/-! ## At the home -/

/-- Replace the state of the outstanding S access. -/
def setGacc (s : State) (g : GAcc) (st : AccState) : State := { s with cx := { s.cx with gacc := some { g with st := st } } }

/-- A gatom that releases waits for every earlier access of the context (R171, R324), at fabric scope when its home lies in another
package; its order code is 1 for .acq, 2 for .rel, 3 for .ar. -/
def globReleased (s : State) (g : GAcc) (ks : List Nat) : Bool :=
  match g.op with
  | .gatom _ o _ _ => o < 2 || released s (awayDie s ks).isSome g.seq
  | _ => true
/-- The access writes its bytes, found in a state: a failing .cas and .ld write nothing (R171, R330). -/
def GOp.writes (s : State) (ks : List Nat) : GOp → Bool
  | .gld _ _ => false
  | .gatom o _ v c => (gatomNew o (natW (homeNat s ks)) v c).isSome
  | _ => true
/-- The S access is a plain store, which its fabric port accepts (R321). -/
def GOp.isStore : GOp → Bool
  | .gst _ _ => true
  | _ => false
/-- An S access on its way reaches its home (R168, R312): it fails a check of R286, passes a stage of its way, waits, or is
performed. -/
def performGlob (s : State) (g : GAcc) (e : EccOutcome) : Out :=
  match globResolve s g with
  | .error c => .next (setGacc (noteOwnWalk s c g.addr) g (.failed c))
  | .ok ks =>
    if !globReleased s g ks then .next s.block
    else match nextHop s s.cx.id.die ks g.op.isStore g.go with
      | .wait => .next s.block
      | .pass t j => .next { t with cx := { t.cx with gacc := some { g with go := j } } }
      | .home =>
        let s1 := touchBanks (noteXlat (applyEcc s e ks) s.cx g.addr g.op.size) ks
        let s2 := if g.op.reads then noteBad s1 s1.cx.it.rid ks else s1
        let s2 := if g.op.writes s2 ks then noteSealed s2 s2.cx.it.rid ks else s2
        let r := gopEffect s2 g.op ks
        .next (setGacc r.1 g (.done r.2))

/-- R168, R169: the response writes the register and releases the S stream, or the fault is taken precisely. -/
def execGlobalAccessResponse (s : State) : Out :=
  match s.cx.gacc with
  | none => .refused (.noSubject "no outstanding S access")
  | some g =>
    let s1 := { s with cx := { s.cx with gacc := none } }
    match g.st with
    | .waiting => .refused (.noSubject "the S access has not been performed")
    | .failed c => .next (takeTrap s1 ⟨c, g.line, g.slot, g.addr, 0, streamCode .s, true⟩)
    | .done v =>
      match g.op with
      | .gst _ _ => .next s1
      | _ => .next { s1 with
          cx := ((s1.cx.meetS s.cycle g.sd).ws g.sd (if g.mixed then mixW s (s1.cx.rs g.sd) v else v)), fresh := s.fresh + 1 }

end Sys2Proof.Machine
end

