-- ==== Sys2Proof/Machine/Access.lean ====
section
/-! DEFINITION. The A stream: address registers and parameter sets, runs, direct accesses, marks, bank formats and scratch
atomics (R201 to R218), and the performance of their accesses (R312). -/

namespace Sys2Proof.Machine

/-! ## Parameter sets and runs -/

/-- Change a parameter set. -/
def Ctx.setAg (c : Ctx) (g : Nat) (a : AgSet) : Ctx := { c with ag := c.ag.setIfInBounds g a }

/-- The fields of a set that a run uses (R206, R207): words an access, counts and strides of the used levels. -/
def AgSet.lenw (a : AgSet) (vlen : Nat) : Nat :=
  let n := bitsOf a.ctl 8 6
  if n = 0 || vlen / 4 < n then vlen / 4 else n
def AgSet.levels (a : AgSet) : List W64 := (List.range (bitsOf a.ctl 0 2 + 1)).map fun k => a.lvl.getD k 0
def AgSet.counts (a : AgSet) : List Nat := a.levels.map fun l => bitsOf l 0 32
def AgSet.strides (a : AgSet) : List Int := a.levels.map fun l => sextN 32 (bitsOf l 32 32)

/-- The offset of access k of a run: i0 runs fastest (R207). -/
def runOffset (k : Nat) (cs : List Nat) (ds : List Int) : Int :=
  match cs, ds with
  | c :: cr, d :: dr => ((k % c : Nat) : Int) * d + runOffset (k / c) cr dr
  | _, _ => 0
/-- The address of access k of a run (R207). -/
def Run.addr (r : Run) (k : Nat) : W64 := r.base + toW (runOffset k r.counts r.strides)

/-- The counter that a run leaves: NCL for a load run, NCS for a store run (R209). -/
def Run.ctr (r : Run) : Nat := if r.load then 0 else 1
/-- A run that generates nothing more and whose accesses are all performed completes (R209, R210, R218). -/
def settleRun (c : Ctx) (g : Nat) : Ctx :=
  let a := c.agSet g
  match a.run with
  | none => c
  | some r =>
    if r.left = 0 && (r.total ≤ r.next || r.stop) then
      (c.setAg g { a with run := none, status := if r.fault then 2 else 0 }).finish r.ctr r.seq
    else c

/-! ## Issue -/

/-- Take the next place in the A stream (R214). -/
def nextA (s : State) : State := { s with cx := { s.cx with aseq := s.cx.aseq + 1 } }
/-- The accesses in the load queue or the store queue. -/
def queued (c : Ctx) (load : Bool) : Nat := (c.accs.filter fun a => if load then a.ql else a.qs).length
/-- Every queue that an access enters has room (R202). -/
def queueRoom (c : Ctx) (ql qs : Bool) : Bool :=
  (!ql || (queued c true < 64 && c.accL < 2)) && (!qs || (queued c false < 64 && c.accS < 2))
/-- The queues accept an access; each has accepted at most 2 in a cycle (R202). -/
def Ctx.accept (c : Ctx) (a : Acc) : Ctx :=
  { c with accs := c.accs ++ [a], accL := c.accL + a.ql.toNat, accS := c.accS + a.qs.toNat }
/-- Enter an access of the executing A instruction into its queues (R202). -/
def enterAcc (s : State) (op : AOp) (addr : W64) (size : Nat) (ql qs : Bool) : State :=
  nextA { s with
    cx := s.cx.accept ⟨op, addr, size, ql, qs, s.cx.aseq, s.cur.seq, s.cur.line, s.cur.slot, s.cur.chk, false, Journey.start⟩
    fresh := s.fresh + 1 }

/-- In checking mode a breaching A instruction does not take effect; it leaves the counter in which it counts (R127). -/
def checkA (s : State) (ctr : Option Nat) (reads : List VSrc) (dst : Option VDst) (k : Out) : Out :=
  if s.cur.chk && (reads.any (fun r => r.breach s || r.dead (s.cx.asDelivered s.cur)) || dst.any fun d => d.breach s) then
    let t := breachTrap s .a
    .next (match ctr with
      | some n => { t with cx := t.cx.finish n s.cur.seq }
      | none => t)
  else k

/-- The set has a run in progress (R208, R209). -/
def setBusy (c : Ctx) (g : Nat) : Bool := (c.agSet g).run.isSome

/-- R208. -/
def execAgset (w : FR) (s : State) : Out :=
  gated w.g s fun s =>
    if setBusy s.cx w.d.toNat then .next s.block
    else
      let a := s.cx.agSet w.d.toNat
      let v := s.cx.ra w.a.toNat
      let a' := match w.b.toNat with
        | 0 => { a with base := v }
        | 1 => { a with ctl := v &&& 0x3F03 }
        | n => { a with lvl := a.lvl.setIfInBounds (n - 2) v }
      .next (nextA { s with cx := s.cx.setAg w.d.toNat a' })

/-- Start a run of set g on a port (R207, R209). -/
def startRun (load : Bool) (w : FR) (s : State) : Out :=
  gated w.g s fun s =>
    if setBusy s.cx w.a.toNat then .next s.block
    else
      let a := s.cx.agSet w.a.toNat
      let total := a.counts.foldl (· * ·) 1
      let r : Run := ⟨load, w.d.toNat, a.base, a.lenw (vlenOf s.cx.id.prof), a.counts, a.strides, total, 0, 0, false, false,
        s.cx.aseq, s.cur.seq, s.cur.line, s.cur.slot, s.cur.chk, 0⟩
      let c := s.cx.setAg w.a.toNat { a with done := 0, status := 1, run := some r }
      .next (nextA { s with cx := settleRun c w.a.toNat })
/-- R209: a run that fills a load port. -/
def execAgld (w : FR) (s : State) : Out := startRun true w s
/-- R209: a run that drains a store port. -/
def execAgst (w : FR) (s : State) : Out := startRun false w s

/-- R210. -/
def execAgstop (w : FR) (s : State) : Out :=
  gated w.g s fun s =>
    let a := s.cx.agSet w.a.toNat
    let c := s.cx.setAg w.a.toNat { a with run := a.run.map fun r => { r with stop := true } }
    .next (nextA { s with cx := settleRun c w.a.toNat })

/-- The value of a field or of the progress of a set (R211). -/
def AgSet.field (a : AgSet) (code : Nat) : W64 :=
  match code with
  | 0 => a.base
  | 1 => a.ctl
  | 6 => natW a.done
  | 7 => natW a.status
  | n => a.lvl.getD (n - 2) 0
/-- R211. -/
def execAget (w : FR) (s : State) : Out :=
  gated w.g s fun s => .next (nextA { s with cx := s.cx.wa w.d.toNat ((s.cx.agSet w.a.toNat).field w.b.toNat) })

/-- R212: the vector and its sidecar land when the load completes. -/
def execLdv (w : FR) (s : State) : Out :=
  gated w.g s fun s => checkA s (some 0) [] (some (.vec w.d 1))
    (if queueRoom s.cx true false then
      .next (enterAcc s (.ldv ((s.cx.asDelivered s.cur).physV w.d.toNat)) (s.cx.ra w.a.toNat) (vlenOf s.cx.id.prof) true false)
    else .next s.block)
/-- R212: the register is read at issue. -/
def execStv (w : FR) (s : State) : Out :=
  gated w.g s fun s => checkA s (some 1) [.vec w.d 1] none
    (if queueRoom s.cx false true then
      let r := readSrc s 0 0 [] (.vec w.d 1)
      .next (enterAcc r.2 (.stv (r.1.headD VReg.zero)) (s.cx.ra w.a.toNat) (vlenOf s.cx.id.prof) false true)
    else .next s.block)
/-- R212. -/
def execLds (w : FR) (s : State) : Out :=
  gated w.g s fun s => checkA s (some 0) [] (some (.scal w.d))
    (if queueRoom s.cx true false then
      .next (enterAcc s (.lds w.d.toNat w.b.toNat) (s.cx.ra w.a.toNat) (szBytes w.b.toNat) true false)
    else .next s.block)
/-- R212. -/
def execSts (w : FR) (s : State) : Out :=
  gated w.g s fun s => checkA s (some 1) [.sreg w.d] none
    (if queueRoom s.cx false true then
      .next (enterAcc s (.sts w.b.toNat (readS s 0 w.d.toNat)) (s.cx.ra w.a.toNat) (szBytes w.b.toNat) false true)
    else .next s.block)
/-- R214. -/
def execAmark (w : FZ) (s : State) : Out :=
  gated w.g s fun s =>
    if queueRoom s.cx true true then .next (enterAcc s .mark 0 0 true true) else .next s.block
/-- R215. -/
def execSpfmt (w : FR) (s : State) : Out :=
  gated w.g s fun s =>
    if queueRoom s.cx true true then
      .next (enterAcc s (.spfmt w.d.toNat (w.b.toNat + 1)) (s.cx.ra w.a.toNat) 0 true true)
    else .next s.block

/-- R216: s[b] and s[d] are read at issue. -/
def execAtom (w : FR) (s : State) : Out :=
  let cas := w.f.toNat / 16 < 2 && w.f.toNat / 2 % 8 == 1
  gated w.g s fun s => checkA s (some 0) ([.sreg w.b] ++ if cas then [.sreg w.d] else []) (some (.scal w.d))
    (if queueRoom s.cx true true then
      .next (enterAcc s (.atom w.f w.d.toNat (readS s 0 w.b.toNat) (readS s 3 w.d.toNat)) (s.cx.ra w.a.toNat)
        (atomBytes w.f) true true)
    else .next s.block)

/-- R217: a[d] := s[a]. -/
def execAmovToA (w : FR) (s : State) : Out :=
  gated w.g s fun s => checkA s none [.sreg w.a] none
    (.next (nextA { s with cx := s.cx.wa w.d.toNat (readS s 0 w.a.toNat), fresh := s.fresh + 1 }))
/-- R217: s[d] := a[a], 2 cycles after issue. -/
def execAmovToS (w : FR) (s : State) : Out :=
  gated w.g s fun s => checkA s none [] (some (.scal w.d))
    (.next (nextA (launch s [mkFlight s .a 2 (.s w.d.toNat (s.cx.ra w.a.toNat)) 0 false Capt.none])))
/-- R217. -/
def execAadd (w : FI) (s : State) : Out :=
  gated w.g s fun s =>
    .next (nextA { s with cx := s.cx.wa w.d.toNat (s.cx.ra w.a.toNat + iImm w.imm w.x) })

/-! ## Generation -/

/-- The run of set g is the oldest run of its port and direction that still generates (R209). -/
def runTurn (c : Ctx) (r : Run) : Bool :=
  c.ag.all fun a => match a.run with
    | none => true
    | some q => !(q.load == r.load && q.port == r.port && q.aseq < r.aseq && q.next < q.total && !q.stop)

/-- The run can generate its next access now (R207): its cycle, port room or data, queue room, and its turn. During a save only a load
run goes on whose port owes vectors to an issued M command (R401). -/
def canGenerate (c : Ctx) (now g : Nat) : Bool :=
  match (c.agSet g).run with
  | none => false
  | some r =>
    r.next < r.total && !r.stop && r.ready ≤ now && runTurn c r && (c.caps.isNone || (r.load && portOwed c r.port))
      && (if r.load then (c.lports.getD r.port []).length < 8 && (r.fault || queueRoom c true false)
          else (match c.sports.getD r.port [] with | e :: _ => e.ready | [] => false) && (r.fault || queueRoom c false true))

/-- R207: the run of set a generates its next access. After a fault it only fills or drops port entries (R218). -/
def execAgAccessGenerate (s : State) : Out :=
  let g := s.sub.a
  if !canGenerate s.cx s.cycle g then .refused (.noSubject "no run that can generate")
  else
    let a := s.cx.agSet g
    match a.run with
    | none => .refused (.noSubject "no run")
    | some r =>
      let lp := s.cx.lports.getD r.port []
      let sp := s.cx.sports.getD r.port []
      let c1 := s.cx.setAg g { a with run := some { r with next := r.next + 1, ready := s.cycle + 1, left := if r.fault then r.left else r.left + 1 } }
      let c2 :=
        if r.load then
          let e : PEntry := ⟨s.nextId, r.fault, VReg.zero⟩
          let c := { c1 with lports := c1.lports.setIfInBounds r.port (lp ++ [e]) }
          if r.fault then c
          else c.accept ⟨.rdRun g r.port s.nextId, r.addr r.next, 4 * r.lenw, true, false, r.aseq, r.seq, r.line, r.slot, r.chk, false,
            Journey.start⟩
        else
          let v := (sp.headD ⟨0, true, VReg.zero⟩).v
          let c := { c1 with sports := c1.sports.setIfInBounds r.port sp.tail }
          if r.fault then c
          else c.accept ⟨.wrRun g v, r.addr r.next, 4 * r.lenw, false, true, r.aseq, r.seq, r.line, r.slot, r.chk, false, Journey.start⟩
      .next { s with cx := settleRun c2 g, nextId := s.nextId + 1 }

/-! ## Order among accesses (R203, R214, R315) -/

/-- The offset that decides the bank of a scratch key: a scale cell lies in the bank of its row (R195, R311). -/
def rowOffset (k : Nat) : Nat :=
  let o := (k - 2 ^ 50) % 2 ^ 25
  if 2 ^ 24 ≤ o then (o - 2 ^ 24) / 4 * 128 else o
/-- The home of a key (R311): a controller of this package, a die of another package, whose requests keep one order (R322), or a
scratch bank. -/
def homeOf (s : State) (k : Nat) : Nat :=
  if k < 2 ^ 50 then (if k / 2 ^ 42 == s.pkg.pkgnum.toNat then ctlOf s k else 2 ^ 40 + k / 2 ^ 39)
  else 10000 + sidOfKey k * 64 + rowOffset k / sidBank (sidOfKey k)
/-- The physical bytes that an access touches: a vector access to an e4m3+scale bank touches the row's scale cell too (R199, R203). -/
def accBytes (s : State) (a : Acc) (ks : List Nat) : List Nat :=
  match ks with
  | k :: _ => if a.vector && fmtOfKey s k == 4 then ks ++ keysFrom (cellOfKey k) 4 else ks
  | [] => []

/-- One access loads and the other stores a common byte of scratch (R203). -/
def scratchClash (s : State) (a b : Acc) : Bool :=
  !(a.kind == .rd && b.kind == .rd) && match accResolve s a, accResolve s b with
    | .ok ka, .ok kb => (accBytes s a ka).any fun x => 2 ^ 50 ≤ x && (accBytes s b kb).contains x
    | _, _ => false
/-- Two accesses share a queue of R202 and a window, and so a path (R289, R315). -/
def samePath (a b : Acc) : Bool := ((a.ql && b.ql) || (a.qs && b.qs)) && a.addr.toNat / 2 ^ 60 == b.addr.toNat / 2 ^ 60
/-- Access b must wait for the older access a: they share a queue, a home and a path (R290, R315), or one loads and the other stores a
common scratch byte (R203). An older access that meets a fault now may reach the same home later, and keeps its place. -/
def mustFollow (s : State) (a b : Acc) : Bool :=
  (samePath a b && match accResolve s a, accResolve s b with
    | .ok ka, .ok kb => ka.any fun x => kb.any fun y => homeOf s x == homeOf s y
    | .error _, .ok _ => true
    | _, .error _ => false)
  || scratchClash s a b

/-- Work of the A stream issued before place n is not performed at package scope: an access that has not been performed or accepted by
a fabric port, or one that a run has still to generate (R214, R318). -/
def aBefore (c : Ctx) (n : Nat) : Bool :=
  c.accs.any (fun a => a.aseq < n && a.go.left.isNone)
    || c.ag.any fun g => match g.run with | some r => r.aseq < n && r.next < r.total && !r.stop | none => false

/-! ## Presentation and banks (R198, R202) -/

/-- An older access or a mark keeps access a, the k-th of the context, in its queue (R203, R214). -/
def accHeld (s : State) (k : Nat) (a : Acc) : Bool :=
  s.cx.accs.any (fun m => m.op.isMark && m.aseq < a.aseq) || (s.cx.accs.take k).any fun o => scratchClash s o a
/-- The rows of scratch that an access reaches, as their first keys. -/
def rowsOf (ks : List Nat) : List Nat := ((ks.filter (2 ^ 50 ≤ ·)).map fun k => k / 128 * 128).dedup
/-- The bank that an access presents itself to: that of its next row (R198). -/
def bankFor (s : State) (a : Acc) (ks : List Nat) : Option Nat :=
  ((if a.go.half then (rowsOf ks).drop 1 else rowsOf ks).head?).map fun k =>
    homeOf s ((ks.find? fun x => x / 128 * 128 == k).getD k)
/-- The bank that an access of the focused context waits for. -/
def accBank (s : State) (a : Acc) : Option Nat :=
  match accResolve s a with
  | .ok ks => bankFor s a ks
  | .error _ => none

/-- What the queues present in a cycle (R202): each its two oldest waiting accesses, none before an older one that is held. An access
outside scratch waits no more once it has presented itself. `l` and `q` say how many more each queue may present. -/
def presentFrom (s : State) (k l q : Nat) (as : List Acc) : List Acc :=
  match as with
  | [] => []
  | a :: r =>
    if a.op.isMark || (a.go.pres.isSome && (accBank s a).isNone) then a :: presentFrom s (k + 1) l q r
    else if (!a.ql || 0 < l) && (!a.qs || 0 < q) && !accHeld s k a then
      { a with go := { a.go with pres := some (a.go.pres.getD s.cycle) } }
        :: presentFrom s (k + 1) (if a.ql then l - 1 else l) (if a.qs then q - 1 else q) r
    else a :: presentFrom s (k + 1) (if a.ql then 0 else l) (if a.qs then 0 else q) r
/-- The queues of a context present their accesses at the start of a cycle. -/
def presentAll (s : State) (c : Ctx) : Ctx := { c with accs := presentFrom { s with cx := c } 0 2 2 c.accs, accL := 0, accS := 0 }

/-- The precedence of a presented access at its bank (R198), the lowest first: age, then the owning core's queues by context before
accesses of other cores by core number, then its place in its queue. -/
def precedence (c : Ctx) (k : Nat) (a : Acc) : Nat :=
  let win := a.addr.toNat / 2 ^ 60
  let own := win == 1 || (win == 3 && teamCore c.id.die c.id.core (a.addr.toNat / 2 ^ 48 % 16) == some c.id.core)
  let q := 2 * c.id.ctx + if a.ql then 0 else 1
  (((a.go.pres.getD 0 * 2 + if own then 0 else 1) * 2048 + if own then 0 else c.id.core) * 4 + q) * 256 + k
/-- A presented access of some context comes before a precedence at a bank. -/
def bankTaken (s : State) (bank p : Nat) : Bool :=
  s.served.contains bank || s.running.any fun c =>
    c.accs.zipIdx.any fun x => !x.1.op.isMark && (match x.1.go.pres with | some t => t ≤ s.cycle | none => false)
      && precedence c x.2 x.1 < p && accBank { s with cx := c } x.1 == some bank
/-- The bank serves access k of the focused context now: it has presented itself, and none comes before it (R198). -/
def bankServes (s : State) (k : Nat) (a : Acc) : Bool :=
  match accBank s a with
  | none => true
  | some b => !bankTaken s b (precedence s.cx k a)

/-- Access k of the context may be performed now. -/
def accOk (s : State) (k : Nat) : Bool :=
  match s.cx.accs[k]? with
  | none => false
  | some a =>
    if a.op.isMark then !aBefore s.cx a.aseq
    else (match a.go.pres with | some t => t ≤ s.cycle | none => false) && !(s.cx.accs.any fun m => m.op.isMark && m.aseq < a.aseq)
      && (s.cx.accs.take k).all (fun o => !mustFollow s o a) && bankServes s k a

/-! ## Request slots (R25) -/

/-- The pulls of Twilight engines of die a that are outstanding at die b, which take their slots after the requests of contexts: the
first 32 of each layer (R85). -/
def pullsTo (s : State) (a b : Nat) : Nat :=
  (s.tw.filter fun j => j.die == a && j.src == b).foldl (fun n j => n + j.layers.foldl (fun m l => m + min 32 l.pulls.length) 0) 0
/-- The reductions of contexts of die a whose next addition goes to die b. -/
def additionsTo (s : State) (a b : Nat) : Nat :=
  (s.redWait.filter fun w => w.ctx.die == a && (w.adds.head?).any fun p => 4 * p.1 / 2 ^ 39 % 8 == b).length
/-- The slots of the pair of dies in use. -/
def slotsInUse (s : State) (a b : Nat) : Nat := accessSlots s a b + pullsTo s a b + additionsTo s a b
/-- The access of a context that a grant names: its keys and journey; the S access, or access k of its queues. -/
def slotSeeker (u : State) (acc : AccQ) (k : Nat) : Option (List Nat × Journey) :=
  match acc with
  | .glob => match u.cx.gacc with
    | some g => if g.st != .waiting then none else (globResolve u g).toOption.map fun ks => (ks, g.go)
    | none => none
  | _ => match u.cx.accs[k]? with
    | some a => if a.op.isMark || a.go.pres.isNone then none else (accResolve u a).toOption.map fun ks => (ks, a.go)
    | none => none
/-- An older access of the queue of access k waits for a slot of the same pair: the slots go in issue order (R25). -/
def olderSeeker (u : State) (b k : Nat) : Bool :=
  match u.cx.accs[k]? with
  | none => false
  | some a => (List.range k).any fun m => match u.cx.accs[m]?, slotSeeker u .load m with
    | some o, some (ks, j) => ((o.ql && a.ql) || (o.qs && a.qs)) && lacksSlot u u.cx.id.die ks j && answerDie u u.cx.id.die ks == b
    | _, _ => false

/-! ## Performance -/

/-- Fill one entry of a load port (R201). -/
def fillPort (c : Ctx) (port eid : Nat) (v : VReg) : Ctx :=
  let es := (c.lports.getD port []).map fun e => if e.eid = eid then { e with ready := true, v := v } else e
  { c with lports := c.lports.setIfInBounds port es }

/-- One access of a run has been performed (R209, R211). -/
def runDone (c : Ctx) (g : Nat) : Ctx :=
  let a := c.agSet g
  settleRun (c.setAg g { a with done := a.done + 1, run := a.run.map fun r => { r with left := r.left - 1 } }) g

/-- One access of a run has faulted (R218): the run generates no further access. -/
def runFault (c : Ctx) (g : Nat) : Ctx :=
  let a := c.agSet g
  settleRun (c.setAg g { a with run := a.run.map fun r => { r with left := r.left - 1, fault := true } }) g

/-- The value that an access of A returns lands, or a faulting access leaves what R218 says. -/
def finishAcc (c : Ctx) (a : Acc) (v : VReg) (fault : Bool) : Ctx :=
  match a.op with
  | .ldv r => (c.wv r v).finish 0 a.seq
  | .stv _ => c.finish 1 a.seq
  | .lds d sz => (c.ws d (if fault then 0 else szExtend sz (v.d.toNat % 2 ^ 64))).finish 0 a.seq
  | .sts _ _ => c.finish 1 a.seq
  | .atom _ d _ _ => (c.ws d v.scalar).finish 0 a.seq
  | .rdRun g p e => if fault then runFault (fillPort c p e v) g else runDone (fillPort c p e v) g
  | .wrRun g _ => if fault then runFault c g else runDone c g
  | .mark => c
  | .spfmt _ _ => c

/-- Take access k out of its queues. -/
def dropAcc (c : Ctx) (k : Nat) : Ctx := { c with accs := c.accs.eraseIdx k }

/-- An access fails (R218): the condition is recorded for the next boundary with the instruction's line and slot. -/
def failAcc (s : State) (k : Nat) (a : Acc) (cause : Nat) : State :=
  let c := pendTrap (dropAcc s.cx k) ⟨cause, a.line, a.slot, a.addr, 0, streamCode .a, false⟩
  { noteOwnWalk s cause a.addr with cx := finishAcc c a VReg.zero true }

/-- The new value and the returned value of atom (R216), on the bits of its width. -/
def atomNew (f : BitVec 6) (old y c : Nat) : Nat × W64 :=
  let w := 8 * atomBytes f
  if f.toNat / 16 < 2 then
    let u := f.toNat % 2 == 1
    let less (a b : Nat) : Bool := if u then a < b else sextN w a < sextN w b
    let new := match f.toNat / 2 % 8 with
      | 0 => y
      | 1 => if old = c then y else old
      | 2 => (old + y) % 2 ^ w
      | 3 => old &&& y
      | 4 => old ||| y
      | 5 => old ^^^ y
      | 6 => if less old y then y else old
      | _ => if less old y then old else y
    (new, toW (sextN w old))
  else
    let fm := if f.toNat / 16 = 2 then f32 else bf16
    let fzi := f.toNat / 2 % 2 == 1
    let fzo := f.toNat % 2 == 1
    let x := unpackZ fm fzi old
    let z := unpackZ fm fzi y
    let new := match f.toNat / 4 % 4 with
      | 0 => (roundFmt fm 0 fzo (addF 0 x z).1 false).1
      | 1 => (roundFmt fm 0 fzo (maxF x z) false).1
      | 2 => (roundFmt fm 0 fzo (minF x z) false).1
      | _ => if (unpack fm y).isNaN then nanPat fm else y
    (new, natW old)

/-- Store a vector's bytes, and its sidecar into an e4m3+scale bank's cell (R199). -/
def vecStore (s : State) (ks : List Nat) (v : VReg) : State :=
  let s1 := storeBytes s ks (leBytes ks.length v.d.toNat)
  match ks with
  | k :: _ => if fmtOfKey s k = 4 then storeAt s1 (cellOfKey k) 4 v.sc.toNat else s1
  | [] => s1

/-- The effect of an access on its bytes, and the value it returns. -/
def accEffect (s : State) (a : Acc) (ks : List Nat) : State × VReg :=
  match a.op with
  | .ldv _ => (s, vecLoad s ks)
  | .rdRun _ _ _ => (s, vecLoad s ks)
  | .stv v => (vecStore s ks v, VReg.zero)
  | .wrRun _ v => (vecStore s ks v, VReg.zero)
  | .lds _ _ => (s, ⟨BitVec.ofNat 1024 (homeNat s ks), 0⟩)
  | .sts _ v => (storeBytes s ks (leBytes ks.length v.toNat), VReg.zero)
  | .atom f _ y c =>
    let w := 8 * atomBytes f
    let r := atomNew f (homeNat s ks) (y.toNat % 2 ^ w) (c.toNat % 2 ^ w)
    (storeBytes s ks (leBytes ks.length r.1), captS r.2)
  | .mark => (s, VReg.zero)
  | .spfmt _ _ => (s, VReg.zero)

/-- A row of a bank lies in a range, of a running or a saved iteration, that the context does not reach (R215, R196): it reaches the
ranges of its region's running iterations through window 0x2, and those on its own core through window 0x3. -/
def fmtForbidden (s : State) (win sid first n : Nat) : Bool :=
  let rows (b : Nat) : Nat := b * sidBank sid / 128
  let hits (r : Range) : Bool := r.row < rows (first + n) && rows first < r.row + r.nrow
  let other (c : Ctx) (mine : Bool) : Bool :=
    !mine && c.khd.ranges.any fun r => r.win != 0 && rangeSid c.id r.win == sid && hits r
  (s.running.any fun c => other c (c.id == s.cx.id || (c.it.rid == s.cx.it.rid && (win == 2 || s.cx.id.prof != .b))))
    || s.saved.any fun v => other v.ctx false

/-- R215: set the FMT of the named banks, or the fault that forbids it. -/
def spfmtEffect (s : State) (fmt n : Nat) (addr : W64) : Except Nat State :=
  let win := addr.toNat / 2 ^ 60
  if !(win == 1 || (win == 2 && s.cx.id.prof == .p)) || addr.toNat / 2 ^ 48 % 2 ^ 12 != 0 then .error tcWindow
  else
    let sid := if win = 1 then ownSid s.cx.id else clusterSid s.cx.id.die (s.cx.id.core / 8)
    let first := addr.toNat % 2 ^ 48 / sidBank sid
    if sidCap sid / sidBank sid < first + n then .error tcWindow
    else if fmtForbidden s win sid first n then .error tcPermission
    else .ok { s with fmt := (List.range n).foldl (fun t i => Tab.put 0 t (sid * 64 + first + i) fmt) s.fmt }

/-- The writes that meet the landing of an access (R126, R213). -/
def landAcc (c : Ctx) (now : Nat) (a : Acc) : Ctx :=
  match a.op with
  | .ldv r => c.meetV now r
  | .lds d _ => c.meetS now d
  | .atom _ d _ _ => c.meetS now d
  | _ => c
/-- A destination that another write has reached since issue ends, in each unit, with one of the two values (R126); `old`
is the context before the landing. -/
def mixAcc (s : State) (old new : Ctx) (a : Acc) : Ctx :=
  if !a.mixed then new
  else match a.op with
    | .ldv r =>
      let o := old.v.getD r VReg.zero
      let n := new.v.getD r VReg.zero
      new.wv r ⟨mixUnits s 0 o.d n.d, if pick s 1 then n.sc else o.sc⟩
    | .lds d _ => new.ws d (mixW s (old.rs d) (new.rs d))
    | .atom _ d _ _ => new.ws d (mixW s (old.rs d) (new.rs d))
    | _ => new

/-- A base vector core's access to a vault of its quad, which reaches the DRAM rows directly (R289, R375). -/
def directRow (c : Ctx) (a : Acc) : Bool := c.id.prof == .b && a.addr.toNat / 2 ^ 60 == 4 && !a.op.isMark
/-- The write of access k writes bytes, found in a state: a cas that fails writes nothing (R216, R330). -/
def Acc.writes (s : State) (a : Acc) (ks : List Nat) : Bool :=
  match a.op with
  | .atom f _ _ c => !(f.toNat / 16 < 2 && f.toNat / 2 % 8 == 1) || homeNat s ks == c.toNat % 2 ^ (8 * atomBytes f)
  | _ => a.kind != .rd
/-- Change the journey of access k. -/
def setGo (c : Ctx) (k : Nat) (a : Acc) (j : Journey) : Ctx := { c with accs := c.accs.set k { a with go := j } }
/-- Access k, at keys that it may reach, is performed (R312). -/
def performAt (s : State) (k : Nat) (a : Acc) (ks : List Nat) (e : EccOutcome) : State :=
  let s0 := match bankFor s a ks with
    | some b => { s with served := b :: s.served }
    | none => s
  let s1 := touchBanks (noteXlat (applyEcc s0 e ks) s.cx a.addr a.size) ks
  let s2 := if a.kind == .wr then s1 else noteBad s1 s1.cx.it.rid ks
  let s2 := if a.writes s2 ks then noteSealed s2 s2.cx.it.rid ks else s2
  let r := accEffect s2 a ks
  let c0 := landAcc (dropAcc r.1.cx k) s.cycle a
  let c := mixAcc r.1 c0 (finishAcc c0 a r.2 false) a
  let perf := c.perf.setIfInBounds 6 (c.perf.getD 6 0 + natW a.size)
  { r.1 with cx := { c with perf := perf }, fresh := r.1.fresh + 1 }
/-- Access k of the context's queues on its way to its home: it faults, passes a stage of its way, waits, has the first of its two rows
served (R198), or is performed. -/
def performAcc (s : State) (k : Nat) (e : EccOutcome) : Out :=
  match s.cx.accs[k]? with
  | none => .refused (.noSubject "no such access")
  | some a =>
    match a.op with
    | .mark => .next { s with cx := dropAcc s.cx k }
    | .spfmt f n =>
      match spfmtEffect s f n a.addr with
      | .ok s1 => .next { s1 with cx := dropAcc s1.cx k }
      | .error c => .next (failAcc s k a c)
    | _ =>
      match accResolve s a with
      | .error c => .next (failAcc s k a c)
      | .ok ks =>
        if a.chk && a.kind == .rd && readsDrain s a.seq ks then .next (failAcc s k { a with addr := 0 } tcBreach)
        else match nextHop s s.cx.id.die ks (a.kind == .wr) a.go with
          | .wait => .next s.block
          | .pass t j => .next { t with cx := setGo t.cx k a j }
          | .home =>
            if 1 < (rowsOf ks).length && !a.go.half then
              .next { s with served := (bankFor s a ks).toList ++ s.served
                             cx := setGo s.cx k a { a.go with half := true, pres := some (s.cycle + 1) } }
            else .next (performAt s k a ks e)

end Sys2Proof.Machine
end

