-- ==== Sys2Proof/Machine/KvBlocks.lean ====
section
/-! DEFINITION. The shared layouts of the KV cache: block tables, block headers, payload places, pools (R353 to R361), the
stream record (R51), and CRC-32C (R82). -/

namespace Sys2Proof.Machine

/-! ## Reading structures -/

/-- A reader of n bytes at an address: a little-endian value, or a fault cause. -/
abbrev Reader := W64 → Nat → Except Nat Nat

/-- Bits lo to lo + n - 1 of a number. -/
def nbits (v lo n : Nat) : Nat := v / 2 ^ lo % 2 ^ n
/-- Word k of a number: 64 bits. -/
def nword (v k : Nat) : Nat := nbits v (64 * k) 64

/-- Reads by a context, with the alignment of R286. -/
def ctxReader (s : State) (c : Ctx) (align : Nat) : Reader := fun a n =>
  match resolve s c .rd false false a n align with
  | .ok ks => .ok (homeNat s ks)
  | .error e => .error e

/-- The keys of the bytes that a context reads; none when the read faults. -/
def ctxKeys (s : State) (c : Ctx) (a : W64) (n : Nat) : List Nat :=
  match resolve s c .rd false false a n 1 with
  | .ok ks => ks
  | .error _ => []
/-- An engine of the focused context reads n bytes: uncorrectable lines among them mark its region (R308). -/
def noteRead (s : State) (a : W64) (n : Nat) : State := noteBad s s.cx.it.rid (ctxKeys s s.cx a n)

/-- An engine of a die reaches the home of a physical address: over a route of R22; one of another package (2,048 + its global die
address) over a fabric port and the hub. -/
def engReaches (s : State) (die pa : Nat) : Bool :=
  if die < 2048 then reaches s die pa
  else pa / 2 ^ 42 != s.pkg.pkgnum.toNat || ((routeOf s 6 (pa / 2 ^ 39 % 8)).isSome && (List.range 18).any (portUp s))
/-- The keys of n bytes of a global address range for an engine or the scheduler, under an address space and generation,
without a core (R32, R83). -/
def engKeys (s : State) (die asid : Nat) (gen : BitVec 16) (kind : AccessKind) (va n : Nat) : Except Nat (List Nat) :=
  match n with
  | 0 => .ok []
  | k + 1 =>
    match engKeys s die asid gen kind va k with
    | .error e => .error e
    | .ok ks =>
      if 2 ^ 57 ≤ va + k then .error tcWindow
      else match translate s die 4095 asid gen kind false (va + k) with
        | .error e => .error e
        | .ok pa =>
          if ctlGen s asid (ctlOf s pa) != gen then .error tcStale
          else if engReaches s die pa then .ok (ks ++ [pa]) else .error tcUnreach
/-- Reads by an engine or the scheduler. -/
def engReader (s : State) (die asid : Nat) (gen : BitVec 16) : Reader := fun a n =>
  match engKeys s die asid gen .rd a.toNat n with
  | .ok ks => .ok (homeNat s ks)
  | .error e => .error e
/-- A write by an engine or the scheduler. -/
def engWrite (s : State) (die asid : Nat) (gen : BitVec 16) (a : W64) (n v : Nat) : Except Nat State :=
  match engKeys s die asid gen .wr a.toNat n with
  | .ok ks => .ok (touchBanks (storeBytes s ks (leBytes n v)) ks)
  | .error e => .error e

/-! ## Block tables (R356) -/

/-- A block-table header. -/
structure KvTab where
  nlayer : Nat
  nkv : Nat
  hdim : Nat
  nlb : Nat
  win : Nat
deriving DecidableEq, Repr

/-- Read the block-table header of a stream of so many layers; a field outside its limits or a reserved bit is an illegal operand
(R356). -/
def kvTab (rd : Reader) (btab : W64) (layers : Nat) : Except Nat KvTab :=
  if btab.toNat % 64 ≠ 0 then .error tcOperand
  else match rd btab 64 with
    | .error e => .error e
    | .ok v =>
      let t : KvTab := ⟨nbits v 0 16, nbits v 16 8, nbits v 32 10, nbits v 48 16, nbits v 64 32⟩
      if nbits v 24 8 ≠ 0 || nbits v 42 6 ≠ 0 || nbits v 96 416 ≠ 0 || t.nlayer = 0 || t.nlayer < layers || t.nkv = 0 || t.hdim < 16
          || 512 < t.hdim || t.hdim % 16 ≠ 0 || t.nlb = 0 then .error tcOperand
      else .ok t
/-- The field LAYERS of a stream record (R51) and the block-table header that its stream uses; a fault comes with the address of the
structure. -/
def streamTab (rd : Reader) (srec btab : W64) : Except (Nat × W64) KvTab :=
  match rd (srec + 16) 8 with
  | .error e => .error (e, srec + 16)
  | .ok w => match kvTab rd btab (nbits w 16 16) with
    | .error e => .error (e, btab)
    | .ok t => .ok t
/-- The address of an entry's half (R356): 0 Dawn, 1 Dusk. -/
def kvHalfAt (btab : W64) (t : KvTab) (layer kvh kv lb half : Nat) : W64 :=
  btab + natW (64 + 16 * (((layer * t.nkv + kvh) * 2 + kv) * t.nlb + lb) + 8 * half)
/-- What a read of n bytes by an engine of a die for the work of a region meets besides their value, as for the hub. -/
def engSee (s : State) (die rid asid : Nat) (gen : BitVec 16) (va : W64) (n : Nat) : State :=
  match engKeys s die asid gen .rd va.toNat n with
  | .ok ks => noteBad (touchBanks s ks) rid ks
  | .error c => noteWalk s rid asid c va
/-- The block address that an entry's half holds: 0 when the block is absent (R356, R357). -/
def kvEntry (rd : Reader) (btab : W64) (t : KvTab) (layer kvh kv lb half : Nat) : Except Nat Nat :=
  if t.nlayer ≤ layer || t.nkv ≤ kvh || t.nlb ≤ lb then .error tcOperand
  else match rd (kvHalfAt btab t layer kvh kv lb half) 8 with
    | .error e => .error e
    | .ok a => if a % 64 ≠ 0 || 2 ^ 57 ≤ a then .error tcOperand else .ok a

/-! ## Block headers (R354) -/

/-- A block header. -/
structure KvHdr where
  bitmap : Nat
  state : Nat
  owner : Nat
  gen : Nat
  scale : W32
  crc : W32
  lblk : Nat
  layer : Nat
  kvh : Nat
  kv : Nat
  srec : W64
deriving DecidableEq, Repr

/-- The states of a block (R80). -/
def bsEmpty : Nat := 0
def bsFilling : Nat := 1
def bsSealed : Nat := 2
def bsInFlight : Nat := 3
def bsLanded : Nat := 4
def bsLive : Nat := 5
def bsFreed : Nat := 6

/-- The header of a 64-byte value. -/
def KvHdr.parse (v : Nat) : KvHdr :=
  ⟨nbits v 0 16, nbits v 16 3, nbits v 32 11, nbits v 48 16, BitVec.ofNat 32 (nbits v 64 32), BitVec.ofNat 32 (nbits v 96 32),
    nbits v 128 32, nbits v 160 16, nbits v 176 8, nbits v 184 1, natW (nword v 3)⟩
/-- The 64-byte value of a header. -/
def KvHdr.value (h : KvHdr) : Nat :=
  h.bitmap + h.state * 2 ^ 16 + h.owner * 2 ^ 32 + h.gen * 2 ^ 48 + h.scale.toNat * 2 ^ 64 + h.crc.toNat * 2 ^ 96
    + h.lblk * 2 ^ 128 + h.layer * 2 ^ 160 + h.kvh * 2 ^ 176 + h.kv * 2 ^ 184 + h.srec.toNat * 2 ^ 192
/-- Read a block header; a reserved bit is an illegal operand (R6). -/
def kvHdr (rd : Reader) (a : Nat) : Except Nat KvHdr :=
  match rd (natW a) 64 with
  | .error e => .error e
  | .ok v =>
    if nbits v 19 13 ≠ 0 || nbits v 43 5 ≠ 0 || nbits v 185 7 ≠ 0 || nbits v 256 256 ≠ 0 then .error tcOperand
    else .ok (KvHdr.parse v)

/-- The offset of element d of packed slot k from the header, and the bytes of an element (R353); `dusk` is the E4M3 copy. -/
def kvElemAt (dusk : Bool) (kv hdim k d : Nat) : Nat :=
  if dusk then (if kv = 0 then 64 + 16 * d + k else 64 + hdim * k + d) else 64 + 2 * (hdim * k + d)
/-- The bytes of a block (R353). -/
def kvSize (dusk : Bool) (hdim : Nat) : Nat := if dusk then 64 + 16 * hdim else 64 + 32 * hdim
/-- The packed slot of offset i of a bitmap (R359). -/
def kvSlot (bitmap i : Nat) : Nat := ((List.range i).filter fun j => bitmap.testBit j).length

/-! ## Stream records (R51) -/

/-- States of a stream (R51). -/
def ssQueued : Nat := 0
def ssPrefill : Nat := 1
def ssHandoff : Nat := 2
def ssDecode : Nat := 3
def ssDone : Nat := 4
def ssCancelled : Nat := 5
def ssFaulted : Nat := 6
/-- Word 0 of a stream record with another state, owner and generation (R52). -/
def recWord0 (w : Nat) (st owner gen : Nat) : Nat :=
  w % 2 ^ 16 + st * 2 ^ 16 + nbits w 20 12 * 2 ^ 20 + owner % 2 ^ 11 * 2 ^ 32 + nbits w 43 5 * 2 ^ 43 + gen % 2 ^ 16 * 2 ^ 48

/-! ## CRC-32C (R82) -/

/-- One bit step of the reflected CRC-32C, polynomial 0x1EDC_6F41. -/
def crcBit (c : W32) : W32 := if c.getLsbD 0 then (c >>> 1) ^^^ 0x82F63B78 else c >>> 1
/-- One byte. -/
def crcByte (c : W32) (b : Byte) : W32 :=
  crcBit (crcBit (crcBit (crcBit (crcBit (crcBit (crcBit (crcBit (c ^^^ b.setWidth 32))))))))
/-- CRC-32C of bytes, from a former result: initial value and final XOR are 0xFFFF_FFFF. -/
def crc32c (from' : W32) (bs : List Byte) : W32 := ~~~ (bs.foldl crcByte (~~~ from'))

end Sys2Proof.Machine
end

