-- ==== Sys2Proof/Machine/Ending.lean ====
section
/-! DEFINITION. What a context holds outside itself and gives back: array slots, the lease, the core's turn; and the end of
an iteration (R68, R152, R248, R254). -/

namespace Sys2Proof.Machine

/-! ## Arrays -/

/-- The great array of a cluster (R247). -/
def State.great (s : State) (k : Nat) : GArray := Tab.get GArray.zero s.garr k
/-- Change a great array. -/
def State.setGreat (s : State) (k : Nat) (g : GArray) : State := { s with garr := Tab.put GArray.zero s.garr k g }
/-- The decode array of a core (R247). -/
def State.decArr (s : State) (k : Nat) : Vector MSlot 4 := Tab.get DArray.zero s.darr k
/-- Change a decode array. -/
def State.setDecArr (s : State) (k : Nat) (d : Vector MSlot 4) : State := { s with darr := Tab.put DArray.zero s.darr k d }

/-- The slots of a context's array, each with its number. -/
def slotsOf (s : State) (c : CtxId) : List (Nat × MSlot) :=
  match c.prof with
  | .p => (s.great c.cluster).slots.toList.zipIdx.map fun x => (x.2, x.1)
  | .d => (s.decArr c.coreKey).toList.zipIdx.map fun x => (x.2, x.1)
  | .b => []
/-- Slot n of a context's array. -/
def slotAt (s : State) (c : CtxId) (n : Nat) : MSlot :=
  match c.prof with
  | .p => (s.great c.cluster).slots.getD n MSlot.free
  | .d => (s.decArr c.coreKey).getD n MSlot.free
  | .b => MSlot.free
/-- Change slot n of a context's array. -/
def setSlotAt (s : State) (c : CtxId) (n : Nat) (m : MSlot) : State :=
  match c.prof with
  | .p =>
    let g := s.great c.cluster
    s.setGreat c.cluster { g with slots := g.slots.setIfInBounds n m }
  | .d => s.setDecArr c.coreKey ((s.decArr c.coreKey).setIfInBounds n m)
  | .b => s

/-- Release every slot that a context owns: its contents are lost (R248). -/
def releaseSlots (s : State) (c : CtxId) : State :=
  (slotsOf s c).foldl (fun t x => if x.2.owner = some c then setSlotAt t c x.1 MSlot.free else t) s

/-! ## Leases -/

/-- The lease that a context holds. -/
def leaseOf (s : State) (c : CtxId) : Option Lease :=
  if c.prof = .p then
    match (s.great c.cluster).lease with
    | some l => if l.ctx = c then some l else none
    | none => none
  else none
/-- The lease of a context ends, and its request is withdrawn (R69, R152). -/
def dropLease (s : State) (c : CtxId) : State :=
  if c.prof = .p then
    let g := s.great c.cluster
    s.setGreat c.cluster { g with
      lease := (match g.lease with | some l => if l.ctx = c then none else some l | none => none)
      reqs := g.reqs.filter fun r => r.ctx != c }
  else s
/-- A context's request is withdrawn, and its lease is to end once its commands have completed (R70, R254). -/
def endLeaseSoon (s : State) (c : CtxId) : State :=
  if c.prof = .p then
    let g := s.great c.cluster
    s.setGreat c.cluster { g with
      lease := (match g.lease with | some l => some (if l.ctx = c then { l with ending := true } else l) | none => none)
      reqs := g.reqs.filter fun r => r.ctx != c }
  else s
/-- The array's record of a context is that of the iteration it holds (R255; log entry 26). -/
def dropRecord (s : State) (c : CtxId) : State :=
  if c.prof = .p then
    let g := s.great c.cluster
    let k := 2 * (c.core % 8) + c.ctx
    s.setGreat c.cluster { g with recs := Tab.put ArrRec.none g.recs k ArrRec.none
                                  holder := if g.holder = some c then none else g.holder }
  else s

/-! ## Turning to a context -/

/-- The machine turns to a context: it becomes the focused one, and the one focused before is kept unless it is as
idle as a context that never ran. -/
def focusOn (s : State) (id : CtxId) : State :=
  if s.cx.id = id then s
  else
    let others := s.parked.filter (·.id != id)
    let rest := if s.cx = Ctx.idle s.cx.id then others else s.cx :: others
    { s with cx := (s.parked.find? (·.id == id)).getD (Ctx.idle id), parked := rest }
/-- Act as one context, then turn back. -/
def asCtx (s : State) (id : CtxId) (f : State → State) : State := focusOn (f (focusOn s id)) s.cx.id
/-- The context of an identity, when it holds an iteration. -/
def ctxOf (s : State) (id : CtxId) : Option Ctx := s.running.find? (·.id == id)

/-! ## The two contexts of a core (R68) -/

/-- The core's entry. -/
def State.coreSt (s : State) (k : Nat) : CoreSt := Tab.get CoreSt.zero s.cores k
def State.setCore (s : State) (k : Nat) (v : CoreSt) : State := { s with cores := Tab.put CoreSt.zero s.cores k v }
/-- The other context of a core, when it holds an iteration. -/
def otherCtx (s : State) (c : CtxId) : Option Ctx :=
  s.running.find? fun d => d.id.coreKey == c.coreKey && d.id.ctx != c.ctx
/-- The group of a barrier scope (R320, R333): the cluster or team, the die, or the package. -/
def groupKey (c : CtxId) (scope : Nat) : Nat :=
  match scope with
  | 1 => c.die * 4096 + (match c.prof with
      | .p => c.core / 8
      | .d => c.core / 64 * 4 + c.core % 64 / 8 / 4 * 2 + c.core % 8 / 4
      | .b => 2048 + c.core / 16)
  | 2 => c.die
  | _ => 0
/-- The phases of a barrier that are complete (R333). -/
def phasesDone (s : State) (nid scope id group : Nat) : Nat :=
  match s.bars.find? fun b => b.nid == nid && b.scope == scope && b.id == id && b.group == group with
  | some b => b.done
  | none => 0
/-- The phase of an arrival is complete. -/
def phaseMet (s : State) (c : Ctx) (o : OutBar) : Bool :=
  o.phase ≤ phasesDone s c.it.nid o.scope o.id (groupKey c.id o.scope)
/-- The outstanding arrival of a scope and id (R145). -/
def outOf (c : Ctx) (scope id : Nat) : Option OutBar := c.outBars.find? fun o => o.scope == scope && o.id == id
/-- The counters are within the limits of a wait; 63 is no limit (R143). -/
def waitMet (c : Ctx) (w : FW) : Bool :=
  let ok (lim n : Nat) : Bool := lim == 63 || n ≤ lim
  ok w.ncl.toNat c.ncl && ok w.ncs.toNat c.ncs && ok w.ncx.toNat c.ncx && ok w.ncm.toNat c.ncm
/-- The context stands at a blocking wait of R68 whose condition does not hold: a barrier, a btok, a wait, a ytqs or a
ytqr. -/
def ctxBlocked (s : State) (c : Ctx) : Bool :=
  (match c.yfly with | some (.tq _ _ _ _ _ _ _ _) => true | _ => false)
  || (match c.cq with
    | [] => false
    | e :: _ =>
      e.live && (match e.instr .c with
        | some (.wait w) => !waitMet c w
        | some (.btok _) => c.tokens == []
        | some (.bar w) => (match outOf c w.scope.toNat w.id.toNat with | some o => !phaseMet s c o | none => false)
        | some (.barw w) => (match outOf c w.scope.toNat w.id.toNat with | some o => !phaseMet s c o | none => false)
        | some (.sstep w) =>
          c.ncx != 0 || (match outOf c w.scope.toNat w.id.toNat with | some o => !phaseMet s c o | none => false)
        | _ => false))

/-- The active context gives way to the other one, which issues 8 cycles later (R68). -/
def startChange (s : State) (core next : Nat) : State :=
  s.setCore core { s.coreSt core with change := some (next, s.cycle + 8) }

/-! ## The end of an iteration -/

/-- The context ends (R152 steps 2 to 4): the loop stack, hint, tokens and port data are discarded, its lease ends, its
slots are released, its registers become free, the iteration counts as exited (R47), and the other context may follow
(R68). -/
def endContext (s : State) : State :=
  let id := s.cx.id
  let s1 := dropRecord (dropLease (releaseSlots s id) id) id
  let s2 := s1.updNode s.cx.it.nid fun n => { n with exited := n.exited + 1 }
  let s3 := clearSwizzles { s2 with cx := Ctx.idle id, kvq := s2.kvq.filter fun w => w.ctx != id } s.cx
  if (s.coreSt id.coreKey).active = id.ctx then
    match otherCtx s3 id with
    | some o => if ctxBlocked s3 o then s3 else startChange s3 id.coreKey o.id.ctx
    | none => s3
  else s3

end Sys2Proof.Machine
end

