-- ==== Sys2Proof/Machine/MatrixMath.lean ====
section
/-! DEFINITION. The arithmetic of the arrays: exact partial sums, promotion, draining, split-K merges, masks and affine
composition (R186 to R192, R260, R266, R274, R275). -/

namespace Sys2Proof.Machine

/-! ## Partials (R186, R187) -/

/-- An E4M3 pattern in units of 2^-9, none for a NaN. -/
def e4Units (n : Nat) : Option Int :=
  match unpack e4m3 n with
  | .fin s m e => some (scaled s m e (-9))
  | _ => none
/-- A finite BF16 pattern as (mantissa, exponent), none for a NaN or infinity. -/
def bfTerm (n : Nat) : Option (Int × Int) :=
  match unpack bf16 n with
  | .fin s m e => some ((if s then -(m : Int) else (m : Int)), e)
  | _ => none
/-- The exact sum of the products of two element lists as a partial. -/
def dotPart (bf : Bool) (xs ws : List Nat) : Part :=
  (xs.zip ws).foldl (fun p x =>
    if bf then
      match bfTerm x.1, bfTerm x.2 with
      | some a, some b => if a.1 * b.1 = 0 then p else { p with terms := p.terms ++ [(a.1 * b.1, a.2 + b.2)] }
      | _, _ => { p with nan := true }
    else
      match e4Units x.1, e4Units x.2 with
      | some a, some b => { p with fix := p.fix + a * b }
      | _, _ => { p with nan := true }) ⟨0, !bf, [], false, none⟩
/-- The sum of two partials of a group. -/
def Part.add (p q : Part) : Part := ⟨p.fix + q.fix, p.used || q.used, p.terms ++ q.terms, p.nan || q.nan, p.base.or q.base⟩

/-- M of R187: the greatest exponent among the products, -144 when there is none. -/
def Part.bfM (p : Part) : Int :=
  let es := p.terms.map (fun t => (Nat.log2 t.1.natAbs : Int) + t.2) ++ (match p.base with | some b => [b.2] | none => [])
  match es with
  | [] => -144
  | e :: r => r.foldl max e
/-- A value n x 2^e truncated toward zero to a multiple of 2^q, in those units. -/
def truncTo (n e q : Int) : Int := if q ≤ e then n * 2 ^ (e - q).toNat else Int.tdiv n (2 ^ (q - e).toNat)
/-- The sum of the products truncated toward zero to multiples of 2^(M - 40). -/
def Part.bfSum (p : Part) : Int :=
  let q := p.bfM - 40
  p.terms.foldl (fun a t => a + truncTo t.1 t.2 q) (match p.base with | some b => truncTo b.1 (b.2 - 40) q | none => 0)

/-! ## Promotion (R188, R189) -/

/-- No common exponent. -/
def noCe : Int := 2 ^ 20
/-- The CE of a block (R188). -/
def MSlot.ceOf (m : MSlot) (b : Nat) : Option Int :=
  let c := Tab.get noCe m.ce b
  if c = noCe then none else some c
/-- e(v) of R188. -/
def scaleExp (v : W32) : Int := if expOf f32 v.toNat = 0 then -126 else (expOf f32 v.toNat : Int) - 127
/-- An element of a slot. -/
def MSlot.elem (m : MSlot) (k : Nat) : Elem := Tab.get Elem.zero m.elems k
def MSlot.setElem (m : MSlot) (k : Nat) (e : Elem) : MSlot := { m with elems := Tab.put Elem.zero m.elems k e }

/-- What one element brings to a promotion: its key κ, where R188 gives one, and V as n x 2^e, none for a NaN. -/
structure PromVal where
  kappa : Option Int
  v : Option (Int × Int)
deriving DecidableEq, Repr

/-- V and κ of a partial under its scales (R188, R189): a partial marked NaN keeps its κ, a combined scale that is not finite has none. A
group of both types has a free sum (log entry 10). -/
def promVal (bf : Bool) (free : Int) (p : Part) (sa sw : W32) : PromVal :=
  let sig := rne32 (mulF (val32 sa) (val32 sw)).1
  let mixed := p.used && p.terms != []
  let real (v : Int × Int) : Option (Int × Int) := if p.nan then none else if mixed then some (free, 0) else some v
  if bf then ⟨some (p.bfM - 18), real (p.bfSum, p.bfM - 40)⟩
  else match val32 sig with
    | .fin s m e => ⟨some (scaleExp sig), real (if s then -(p.fix * m) else p.fix * m, e - 18)⟩
    | _ => ⟨none, none⟩

/-- Add u with saturation (R189). -/
def satAdd (e : Elem) (u : Int) : Elem :=
  let t := e.a.toInt + u
  if 2 ^ 63 - 1 < t then { e with a := natW (2 ^ 63 - 1), sat := true }
  else if t < -(2 ^ 63) then { e with a := natW (2 ^ 63), sat := true }
  else { e with a := toW t }

/-- Promote elements together (R188, R189): each is its key, its block, its partial and its two scales. A block without a
CE latches the greatest κ of the promotion, over every vector that it writes, once an element of the block is not a NaN. -/
def promote (m : MSlot) (bf : Bool) (fresh : Nat) (xs : List (Nat × Nat × Part × W32 × W32)) : MSlot :=
  let vs := xs.map fun x => (x.1, x.2.1, promVal bf (Config.freeBits fresh x.1).toInt x.2.2.1 x.2.2.2.1 x.2.2.2.2)
  let ce := [0, 1, 2, 3].foldl (fun t b =>
    if Tab.get noCe t b != noCe || !vs.any (fun v => v.2.1 == b && v.2.2.v.isSome) then t
    else match (vs.filter (·.2.1 == b)).filterMap (·.2.2.kappa) with
      | [] => t
      | k :: r => Tab.put noCe t b (r.foldl max k)) m.ce
  vs.foldl (fun m v =>
    let e := { m.elem v.1 with part := Part.zero }
    m.setElem v.1 (match v.2.2.v with
      | none => { e with nan := true }
      | some x => satAdd e (rneInt x.1 (x.2 - (Tab.get noCe ce v.2.1 - 29))))) { m with ce := ce }

/-! ## Draining (R191, R276) -/

/-- The value of an element with a CE. -/
def drainVal (fm : Fmt) (a : BitVec 64) (nan : Bool) (ce : Option Int) : Nat :=
  if nan then nanPat fm
  else match ce with
    | none => 0
    | some c => if a = 0 then 0 else
        (roundFmt fm 0 false (.fin (a.toInt < 0) a.toInt.natAbs (c - 29)) false).1

/-! ## Split-K (R260) -/

/-- Merge one half into an accumulator: D, its CE, NANST and SATST. -/
def mergeHalf (d : BitVec 64 × Option Int × Bool × Bool) (h : Elem) (ce : Option Int) :
    BitVec 64 × Option Int × Bool × Bool :=
  match ce with
  | none => d
  | some c =>
    let cd := d.2.1.getD c
    let t := satAdd { Elem.zero with sat := d.2.2.2 } (rneInt h.a.toInt (c - cd))
    let r := satAdd { t with a := d.1 } t.a.toInt
    (r.a, some cd, d.2.2.1 || h.nan, r.sat || h.sat)
/-- The merge of element (i, j) of a split-K slot, the upper half first. -/
def mergeSplit (m : MSlot) (i j : Nat) (d : BitVec 64 × Option Int × Bool × Bool) : BitVec 64 × Option Int × Bool × Bool :=
  mergeHalf (mergeHalf d (m.elem (256 * i + 128 + j)) (m.ceOf 1)) (m.elem (256 * i + j)) (m.ceOf 0)

/-! ## Masks (R266) -/

/-- The block masks a key row and query column. -/
def maskedBy (b : MaskBlk) (key col : Nat) : Bool :=
  if col < b.col0 || b.nnode ≤ b.node0 + (col - b.col0) then false
  else
    let n := b.node0 + (col - b.col0)
    if key < b.kbase then b.win != 0 && b.kpos0 + key + b.win ≤ b.pos.getD n 0
    else if b.nnode ≤ key - b.kbase then true
    else !(b.anc.getD n 0).getLsbD (key - b.kbase)
/-- A drained element is masked by its row or by the slot's block. -/
def MSlot.masked (m : MSlot) (great : Bool) (key col : Nat) : Bool :=
  (great && m.rmask.getLsbD key) || (match m.mask with | some b => maskedBy b key col | none => false)

/-- The drained pattern of the element of a row and column (R261, R270, R276). -/
def drainElem (m : MSlot) (great : Bool) (fm : Fmt) (row col : Nat) : Nat :=
  let key := if great then 256 * row + col else 8 * row + col
  let e := m.elem key
  if m.masked great row col then infPat fm true
  else match m.mode with
    | .affine => if e.nan then nanPat fm else (roundFmt fm 0 false (val32 e.b) false).1
    | .split =>
      let d := mergeSplit m row col (0, none, false, false)
      drainVal fm d.1 d.2.2.1 d.2.1
    | .plain => drainVal fm e.a e.nan (m.ceOf (if great then col / 128 else row / 128))

/-! ## Affine maps (R274, R275) -/

/-- The pair of an element that is NaN. -/
def nanPair : W32 × W32 := (nan32, nan32)
/-- Compose (g2, b2) after (g1, b1), and whether the gain underflowed (R274). -/
def compose (p2 p1 : W32 × W32) : (W32 × W32) × Bool :=
  let g2 := val32 p2.1
  let b2 := val32 p2.2
  let g1 := val32 p1.1
  let b1 := val32 p1.2
  if g2.isNaN || b2.isNaN || g1.isNaN || b1.isNaN then (nanPair, false)
  else
    let x := (mulF g2 g1).1
    let g := rne32 x
    let under := (match x with | .fin _ m _ => m != 0 | _ => false) && expOf f32 g.toNat == 0
    let g' := if under then BitVec.ofNat 32 (zeroPat f32 x.neg) else g
    let pb := (mulF g2 b1).1
    let b := rne32 (addF 0 pb b2).1
    if (val32 g').isNaN || (val32 b).isNaN then (nanPair, under) else ((g', b), under)
/-- Form (R275): the offset of an element from its A. -/
def formOf (m : MSlot) (e : Elem) (block : Nat) : W32 :=
  if e.nan then nan32 else BitVec.ofNat 32 (drainVal f32 e.a false (m.ceOf block))
/-- The identity pair (R273). -/
def idPair : W32 × W32 := (one32, 0)
/-- A gain as it is stored: NaN made canonical, a subnormal becomes a zero of its sign and sets GUF (R279). -/
def storeGain (v : W32) : W32 × Bool × Bool :=
  if (val32 v).isNaN then (nan32, true, false)
  else if isSub f32 v.toNat then (BitVec.ofNat 32 (zeroPat f32 (signOf f32 v.toNat)), false, true)
  else (v, false, false)

end Sys2Proof.Machine
end

