-- ==== Sys2Proof/Machine/Matrix.lean ====
section
/-! DEFINITION. The M stream: how commands issue into an array and go on (R249 to R252, R254), and the instructions of the
great array, the decode array and the status forms (R253 to R271). -/

namespace Sys2Proof.Machine

/-! ## Issue into an array (R250, R254) -/

/-- The lease lets a further command issue: it is held, not ending, below 16 commands and 4,096 cycles (R254). -/
def leaseReady (s : State) (c : CtxId) : Bool :=
  match leaseOf s c with
  | some l => !l.ending && l.cmds < 16 && s.cycle < l.at' + 4096
  | none => false
/-- The core requests the lease, once (R69, R70). -/
def requestLease (s : State) (c : CtxId) (rid prio : Nat) : State :=
  let g := s.great c.cluster
  if g.reqs.any fun r => r.ctx.coreKey == c.coreKey then s
  else s.setGreat c.cluster { g with reqs := g.reqs ++ [⟨c, rid, prio, s.cycle, 0⟩] }
/-- The core has a request outstanding. -/
def hasRequest (s : State) (c : CtxId) : Bool := (s.great c.cluster).reqs.any fun r => r.ctx.coreKey == c.coreKey
/-- One command counts under the lease (R254). -/
def countCmd (s : State) (c : CtxId) : State :=
  let g := s.great c.cluster
  s.setGreat c.cluster { g with lease := g.lease.map fun l => { l with cmds := l.cmds + 1, idle := s.cycle } }
/-- The M instruction stays at the head of its queue with what has changed. -/
def requeueM (s : State) : Out := .next { s with cx := { s.cx with mq := s.cur :: s.cx.mq } }
/-- The array's command queue for the context has room: 16 commands behind the one that the array has begun (R250). -/
def mRoom (c : Ctx) : Bool := c.mfly.length ≤ 16
/-- A context of the core holds the lease. -/
def coreLease (s : State) (c : CtxId) : Bool := (s.great c.cluster).lease.any fun l => l.ctx.coreKey == c.coreKey

/-- The command has completed and leaves NCM (R250). -/
def doneM (s : State) : State := { s with cx := s.cx.finish 3 s.cur.seq }
/-- A condition of R251: it is recorded for the next boundary, and the command completes. -/
def failM (s : State) (cause : Nat) (addr : W64) : State :=
  doneM (pendAt (noteOwnWalk s cause addr) .m cause (if cause = tcOperand then 0 else addr))

/-- The vectors of a load port that a command pops: the present ones at its head, at most n. -/
def portTake (c : Ctx) (q n : Nat) : List VReg := (((c.lports.getD q []).takeWhile (·.ready)).take n).map (·.v)
/-- Pop n entries of a load port. -/
def portDrop (c : Ctx) (q n : Nat) : Ctx := { c with lports := c.lports.setIfInBounds q ((c.lports.getD q []).drop n) }
/-- No further vector will come to a load port while a trap is being taken (R394). -/
def portDry (c : Ctx) (q : Nat) : Bool :=
  c.due.isSome && c.lports.getD q [] == [] && c.ag.all fun g => match g.run with
    | some r => !(r.load && r.port == q)
    | none => true

/-- What a command does once it holds its port vectors; `abort` says that no more will come (R394, R398). -/
abbrev MAct := State → MCmd → Bool → Out

/-- Go on with command h at the head of the array's queue: pop its port vectors, then act. -/
def goOnM (port : Option Nat) (need : MCmd → Nat) (act : MAct) (s : State) (h : MCmd) : Out :=
  match port with
  | none => act s h false
  | some q =>
    let vs := portTake s.cx q (need h - h.got.length)
    let h1 := { h with got := h.got ++ vs }
    let s1 := { s with cx := portDrop s.cx q vs.length }
    if need h ≤ h1.got.length then act s1 h1 false
    else if portDry s1.cx q then act s1 h1 true
    else .next { s1 with cx := { s1.cx with mfly := h1 :: s1.cx.mfly } }

/-- The breach check of an M instruction (R127). -/
def breachM (s : State) (reads : List VSrc) : Bool := s.cur.chk && reads.any fun r => r.breach s || r.dead (s.cx.asDelivered s.cur)

/-- Issue an M command, or go on with it when it heads the array's queue. `great` says that it needs the lease, `free` that
it counts no lease command by itself; `reads` are its register operands, `mk` latches them. -/
def runM (g : BitVec 2) (great free : Bool) (reads : List VSrc) (port : Option Nat) (need : MCmd → Nat)
    (mk : State → MCmd × State) (act : MAct) (s : State) : Out :=
  gated g s fun s =>
    match s.cx.mfly with
    | h :: t =>
      if h.e.seq = s.cur.seq then goOnM port need act { s with cx := { s.cx with mfly := t } } h
      else start s
    | [] => start s
where
  start (s : State) : Out :=
    if breachM s reads then .next (doneM (breachTrap s .m))
    else if great && !leaseReady s s.cx.id then
      if coreLease s s.cx.id || hasRequest s s.cx.id then .next s.block
      else requeueM (requestLease s s.cx.id s.cx.it.rid s.cx.it.prio)
    else if !mRoom s.cx then .next s.block
    else
      let r := mk s
      let s0 : State := if great && !free then countCmd r.2 s.cx.id else r.2
      let s1 : State := { s0 with fresh := s.fresh + 1 }
      if s1.cx.mfly = [] then goOnM port need act s1 r.1
      else .next { s1 with cx := { s1.cx with mfly := s1.cx.mfly ++ [r.1] } }

/-- Latch the scalar registers a and b of the executing instruction. -/
def latchM (a b : Option (BitVec 6)) (s : State) : MCmd × State :=
  (⟨s.cur, readOp s 0 a, readOp s 3 b, [], [], .plain⟩, s)

/-- The bytes of a scratch or memory range as an M command reads them (R252): their value, or cause and address. -/
def readM (s : State) (wins : List Nat) (a : W64) (n align : Nat) : Except (Nat × W64) Nat :=
  if !wins.contains (a.toNat / 2 ^ 60) then .error (tcWindow, a)
  else match resolve s s.cx .rd false false a n align with
    | .ok ks => .ok (homeNat s ks)
    | .error e => .error (e, a)
/-- Check the places of several writes (R251): their keys with their values, or the first fault. -/
def placesM (s : State) (wins : List Nat) (ws : List (W64 × Nat × Nat)) : Except (Nat × W64) (List Host.Cell) :=
  match ws with
  | [] => .ok []
  | (a, n, v) :: r =>
    if !wins.contains (a.toNat / 2 ^ 60) then .error (tcWindow, a)
    else match resolve s s.cx .wr true false a n 1 with
      | .error e => .error (e, a)
      | .ok ks => match placesM s wins r with
        | .error e => .error e
        | .ok cs => .ok (ks.zip (leBytes n v) ++ cs)
/-- Write cells one after the other, so that a later row's bytes stand (R261), waking the banks they reach. -/
def writeM (s : State) (cs : List Host.Cell) : State :=
  touchBanks (storeCells (noteSealed s s.cx.it.rid (cs.map (·.1))) cs) (cs.map (·.1))

/-- The slot that a command names belongs to the context (R248). -/
def ownSlot (s : State) (n : Nat) : Bool := (slotAt s s.cx.id n).owner == some s.cx.id

/-! ## Weight buffers and records (R253, R255, R256) -/

/-- Load a weight buffer for a context from a tile and a scale table in cluster scratch (R253, R256). -/
def loadTile (s : State) (c : Ctx) (tile tbl : W64) (bf : Bool) : Except (Nat × W64) WBuf :=
  let rd (a : W64) (n al : Nat) : Except (Nat × W64) Nat :=
    if a.toNat / 2 ^ 60 != 2 then .error (tcWindow, a)
    else match resolve s c .rd false false a n al with
      | .ok ks => .ok (homeNat s ks)
      | .error e => .error (e, a)
  match rd tile 16384 128 with
  | .error e => .error e
  | .ok t => match rd tbl 8 8 with
    | .error e => .error e
    | .ok x => .ok ⟨BitVec.ofNat 131072 t, BitVec.ofNat 32 x, BitVec.ofNat 32 (x / 2 ^ 32), bf⟩
/-- The array's record of a context (R255). -/
def recOf (g : GArray) (c : CtxId) : ArrRec := Tab.get ArrRec.none g.recs (2 * (c.core % 8) + c.ctx)
def putRec (g : GArray) (c : CtxId) (r : ArrRec) : GArray :=
  { g with recs := Tab.put ArrRec.none g.recs (2 * (c.core % 8) + c.ctx) r }
/-- Put a buffer's contents, with the record of its load. -/
def setBuf (s : State) (c : CtxId) (b : Nat) (w : WBuf) (r : Option (W64 × W64 × Bool × W64 × Nat)) : State :=
  let g := s.great c.cluster
  let a := recOf g c
  let a' := if b = 0 then { a with b0 := r } else { a with b1 := r }
  s.setGreat c.cluster (putRec { g with bufs := g.bufs.setIfInBounds b w, holder := some c } c a')

/-- R256. -/
def execMldb (w : FR) (s : State) : Out :=
  runM w.g true false [.sreg w.a, .sreg w.b] none (fun _ => 0) (latchM (some w.a) (some w.b))
    (fun s h _ =>
      let bf := w.f.getLsbD 0
      match loadTile s s.cx h.a h.b bf with
      | .ok t => .next (doneM (setBuf s s.cx.id w.d.toNat t (some (h.a, h.b, bf, s.cur.line, s.cur.slot))))
      | .error e => .next (failM (setBuf s s.cx.id w.d.toNat WBuf.zero none) e.1 e.2)) s

/-! ## The row former (R262, R263) -/

/-- Read a row-former descriptor and its stream's SGEN for a context (R262). -/
def readRowF (s : State) (c : Ctx) (a : W64) : Except (Nat × W64) RowF :=
  if a.toNat / 2 ^ 60 != 0 && a.toNat / 2 ^ 60 != 2 then .error (tcWindow, a)
  else match ctxReader s c 64 a 64 with
    | .error e => .error (e, a)
    | .ok v =>
      let fmt := nbits v 89 1 == 1
      let r : RowF := ⟨natW (nword v 0), nbits v 64 16, nbits v 80 8, nbits v 88 1 == 1, fmt, nbits v 128 32, nbits v 192 32,
        nbits v 256 16, natW (nword v 5), 0⟩
      if nbits v 90 38 ≠ 0 || nbits v 160 32 ≠ 0 || nbits v 224 32 ≠ 0 || nbits v 272 48 ≠ 0 || nbits v 384 128 ≠ 0
          || r.doff % (if fmt then 128 else 64) ≠ 0 then .error (tcOperand, 0)
      else match streamTab (ctxReader s c 8) r.srec r.btab with
        | .error e => if e.1 = tcOperand then .error (tcOperand, 0) else .error e
        | .ok t =>
          if t.hdim ≤ r.doff then .error (tcOperand, 0)
          else match ctxReader s c 8 r.srec 8 with
            | .error e => .error (e, r.srec)
            | .ok x => .ok { r with sgen := BitVec.ofNat 16 (x / 2 ^ 48) }
/-- A row as it enters an array: 128 bytes, its scale, whether it is masked, and the keys of the bytes read for it. -/
structure ARow where
  x : VData
  sc : W32
  masked : Bool
  keys : List Nat
deriving DecidableEq, Repr
/-- A zero row. -/
def ARow.zero (masked : Bool) (keys : List Nat) : ARow := ⟨0, one32, masked, keys⟩

/-- The row of the row former for an accumulator row (R263). A stale generation is answered as the address of the block. -/
def formRow (s : State) (c : Ctx) (r : RowF) (doff row : Nat) : Except (Nat × W64) (ARow × Option W64) :=
  let p := r.pos0 + row
  let rd := ctxReader s c 8
  let kv := r.kv.toNat
  match streamTab rd r.srec r.btab with
  | .error e => .error e
  | .ok t =>
    match kvEntry rd r.btab t r.layer r.kvh kv (p / 16) r.fmt.toNat with
    | .error e => .error (e, kvHalfAt r.btab t r.layer r.kvh kv (p / 16) r.fmt.toNat)
    | .ok a =>
      let kt := ctxKeys s c (r.srec + 16) 8 ++ ctxKeys s c r.btab 64 ++ ctxKeys s c (kvHalfAt r.btab t r.layer r.kvh kv (p / 16) r.fmt.toNat) 8
      if a = 0 || p < r.wstart then .ok (ARow.zero true kt, none)
      else match kvHdr rd a with
        | .error e => .error (e, natW a)
        | .ok h =>
          let ok := if r.fmt then h.state == bsLive || h.state == bsLanded else h.state == bsFilling || h.state == bsSealed
          let kh := kt ++ ctxKeys s c (natW a) 64
          if h.gen != r.sgen.toNat || !ok then .ok (ARow.zero false kh, some (natW a))
          else if !h.bitmap.testBit (p % 16) then .ok (ARow.zero true kh, none)
          else
            let k := kvSlot h.bitmap (p % 16)
            let w := if r.fmt then 128 else 64
            let size := if r.fmt then 1 else 2
            match (List.range w).foldr (fun m (acc : Except (Nat × W64) Nat) => match acc with
                | .error e => .error e
                | .ok n =>
                  let v : Except (Nat × W64) Nat := if doff + m < t.hdim then
                      let at' := natW (a + kvElemAt r.fmt kv t.hdim k (doff + m))
                      match ctxReader s c 1 at' size with
                      | .ok b => .ok b
                      | .error e => .error (e, at')
                    else .ok 0
                  match v with
                  | .ok b => .ok (b + 2 ^ (8 * size) * n)
                  | .error e => .error e) (.ok 0 : Except (Nat × W64) Nat) with
            | .error e => .error e
            | .ok n =>
              let ke := (List.range w).flatMap fun m =>
                if doff + m < t.hdim then ctxKeys s c (natW (a + kvElemAt r.fmt kv t.hdim k (doff + m))) size else []
              .ok (⟨BitVec.ofNat 1024 n, if r.fmt then h.scale else one32, false, kh ++ ke⟩, none)
/-- The row former's state and record of a context (R255). -/
def setRowF (s : State) (c : CtxId) (r : Option RowF) (rec : Option (W64 × Option RowF × W64 × Nat)) : State :=
  let g := s.great c.cluster
  s.setGreat c.cluster (putRec { g with rowf := r, holder := some c } c { recOf g c with rowf := rec })

/-- R262. -/
def execMrowf (w : FR) (s : State) : Out :=
  runM w.g true false [.sreg w.a] none (fun _ => 0) (latchM (some w.a) none)
    (fun s h _ =>
      match readRowF s s.cx h.a with
      | .ok r =>
        let s1 := noteRead (noteRead (noteRead s h.a 64) r.btab 64) r.srec 24
        .next (doneM (setRowF s1 s.cx.id (some r) (some (h.a, some r, s.cur.line, s.cur.slot))))
      | .error e => .next (failM (setRowF s s.cx.id none none) e.1 e.2)) s

/-! ## mma (R257) -/

/-- The element patterns of a 128-byte row in a type, K-rows h x Kp onward. -/
def rowElems (bf : Bool) (x : Nat) (h : Nat) : List Nat :=
  let w := if bf then 16 else 8
  let kp := if bf then 32 else 64
  (List.range kp).map fun e => nbits x (w * (h * kp + e)) w
/-- The weights of a column of a buffer (R253). -/
def colWeights (b : WBuf) (c : Nat) : List Nat :=
  let t := b.tile.toNat
  (List.range (if b.bf then 32 else 64)).map fun k =>
    if b.bf then nbits t (8 * (512 * k + 2 * c)) 16 else nbits t (8 * (256 * k + c)) 8

/-- Stream rows past a buffer into a slot (R257): row k has accumulator row `row0 + k`. -/
def streamRows (m : MSlot) (b : WBuf) (h : Nat) (gf gl : Bool) (fresh row0 : Nat) (rows : List ARow) : MSlot :=
  let cols := (List.range 256).map fun c => (c, colWeights b c)
  let m1 := rows.zipIdx.foldl (fun m r =>
    let i := row0 + r.2
    let lo := rowElems b.bf r.1.x.toNat (if m.mode = .split then 0 else h)
    let hi := rowElems b.bf r.1.x.toNat (if m.mode = .split then 1 else h)
    let m' := if r.1.masked then { m with rmask := m.rmask ||| (1#512 <<< i) } else m
    cols.foldl (fun m c =>
      let e := m.elem (256 * i + c.1)
      let p := dotPart b.bf (if c.1 < 128 then lo else hi) c.2
      m.setElem (256 * i + c.1) { e with part := if gf then p else e.part.add p }) m') m
  if gl then
    promote m1 b.bf fresh (rows.zipIdx.flatMap fun r => cols.map fun c =>
      (256 * (row0 + r.2) + c.1, c.1 / 128, (m1.elem (256 * (row0 + r.2) + c.1)).part, r.1.sc,
       if c.1 < 128 then b.sc0 else b.sc1))
  else m1

/-- The rows of an A matrix in cluster scratch, each with the scale of its cell (R257). -/
def scratchRows (s : State) (a : W64) (stride n : Nat) : Except (Nat × W64) (List ARow) :=
  match n with
  | 0 => .ok []
  | k + 1 =>
    match scratchRows s a stride k with
    | .error e => .error e
    | .ok rs =>
      let p := a + natW (k * stride)
      if p.toNat / 2 ^ 60 != 2 then .error (tcWindow, p)
      else match resolve s s.cx .rd false false p 128 128 with
        | .error e => .error (e, p)
        | .ok ks =>
          let key := ks.headD 0
          let sc := if fmtOfKey s key = 4 then BitVec.ofNat 32 (homeAt s (cellOfKey key) 4) else one32
          .ok (rs ++ [⟨BitVec.ofNat 1024 (homeNat s ks), sc, false, []⟩])
/-- The rows of the row former from accumulator row row0, and the first stale block met. -/
def formedRows (s : State) (r : RowF) (doff row0 n : Nat) : Except (Nat × W64) (List ARow × Option W64) :=
  match n with
  | 0 => .ok ([], none)
  | k + 1 =>
    match formedRows s r doff row0 k with
    | .error e => .error e
    | .ok rs =>
      match formRow s s.cx r doff (row0 + k) with
      | .error e => .error e
      | .ok x => .ok (rs.1 ++ [x.1], rs.2.or x.2)

/-- ROW0 and NROW within their limits, and the bits between them zero. -/
def rcOk (b : W64) : Bool :=
  rcRow0 b ≤ 511 && 1 ≤ rcNrow b && rcRow0 b + rcNrow b ≤ 512 && bitsOf b 10 6 == 0 && bitsOf b 26 6 == 0
/-- Stream rows and finish the mma; a stale block is recorded (R263). -/
def mmaWith (w : FR) (s : State) (h : MCmd) (rows : List ARow) (stale : Option W64) : Out :=
  let g := s.great s.cx.id.cluster
  let b := g.bufs.getD (w.f.getLsbD 2).toNat WBuf.zero
  let m := streamRows (slotAt s s.cx.id w.d.toNat) b (w.f.getLsbD 3).toNat (w.f.getLsbD 4) (w.f.getLsbD 5) s.fresh
    (rcRow0 h.b) rows
  let s0 := noteBad s s.cx.it.rid (rows.flatMap (·.keys))
  let s1 := { setSlotAt s0 s.cx.id w.d.toNat m with fresh := s.fresh + 1 }
  match stale with
  | none => .next (doneM s1)
  | some a => .next (failM s1 tcStale a)
/-- R257, R251. -/
def execMma (w : FR) (s : State) : Out :=
  let src := w.f.toNat % 4
  runM w.g true false ((if src = 1 then [.sreg w.a] else []) ++ [.sreg w.b]) (if src = 0 then some w.a.toNat else none) mmaNeed
    (latchM (if src = 1 then some w.a else none) (some w.b))
    (fun s h abort =>
      let g := s.great s.cx.id.cluster
      let stride := bitsOf h.b 32 32
      let legal := rcOk h.b && ownSlot s w.d.toNat && (src != 1 || stride % 128 == 0)
      match src with
      | 0 =>
        if !legal then .next (failM s tcOperand 0)
        else mmaWith w s h (h.got.map fun v => ⟨v.d, v.sc, false, []⟩) none
      | 1 =>
        if !legal then .next (failM s tcOperand 0)
        else match scratchRows s h.a stride (rcNrow h.b) with
          | .error e => .next (failM s e.1 e.2)
          | .ok rows => mmaWith w s h rows none
      | _ =>
        match g.rowf with
        | none => .next (failM s tcOperand 0)
        | some r =>
          if !legal || (g.bufs.getD (w.f.getLsbD 2).toNat WBuf.zero).bf == r.fmt then .next (failM s tcOperand 0)
          else match formedRows s r r.doff (rcRow0 h.b) (rcNrow h.b) with
            | .error e => .next (failM s e.1 e.2)
            | .ok x => if abort then .next (doneM s) else mmaWith w s h x.1 x.2) s

/-! ## mmacro (R258) -/

/-- A descriptor as it was read: none when a field is out of range. -/
def parseMac (v : Nat) : Option MacDesc :=
  let d : MacDesc := ⟨natW (nword v 0), nbits v 64 32, natW (nword v 2), natW (nword v 3), nbits v 256 32, nbits v 288 32,
    nbits v 320 16, nbits v 336 10, nbits v 352 10, nbits v 368 1 == 1, nbits v 369 1 == 1,
    (List.range 8).map fun k => natW (nword v k)⟩
  if nbits v 96 32 ≠ 0 || nbits v 346 6 ≠ 0 || nbits v 362 6 ≠ 0 || nbits v 370 14 ≠ 0 || nbits v 400 112 ≠ 0
      || d.bstr % 128 ≠ 0 || d.agstr % 128 ≠ 0 || d.arstr % 128 ≠ 0 || d.ng = 0 || d.nrow = 0 || 512 < d.nrow
      || 512 < d.row0 + d.nrow || d.ng ≤ nbits v 384 16 then none
  else some d
/-- G0 of a descriptor. -/
def MacDesc.g0 (d : MacDesc) : Nat := bitsOf (d.raw.getD 6 0) 0 16

/-- R258: the descriptor is read once when the command begins; its groups follow as device steps. -/
def execMmacro (w : FR) (s : State) : Out :=
  runM w.g true true [.sreg w.a] none (fun _ => 0) (latchM (some w.a) none)
    (fun s h _ =>
      match readM s [2] h.a 64 64 with
      | .error e => .next (failM s e.1 e.2)
      | .ok v =>
        match parseMac v with
        | none => .next (failM s tcOperand 0)
        | some d =>
          let m := slotAt s s.cx.id w.d.toNat
          if !ownSlot s w.d.toNat || m.mode != .plain then .next (failM s tcOperand 0)
          else .next { s with cx := { s.cx with mfly := { h with prog := .gemm d d.g0 } :: s.cx.mfly } }) s

/-- One pass of a group: load its buffer and stream its rows. -/
def macPass (s : State) (d : MacDesc) (slot g p : Nat) (m : MSlot) : Except (Nat × W64) (MSlot × WBuf × Option W64 × List Nat) :=
  match loadTile s s.cx (d.bt + natW ((2 * g + p) * d.bstr)) (d.sT + natW (8 * g)) d.bf with
  | .error e => .error e
  | .ok b =>
    let rows : Except (Nat × W64) (List ARow × Option W64) :=
      if d.rf then
        match (s.great s.cx.id.cluster).rowf with
        | none => .error (tcOperand, 0)
        | some r => if d.bf == r.fmt then .error (tcOperand, 0) else formedRows s r (r.doff + g * (if d.bf then 64 else 128)) d.row0 d.nrow
      else match scratchRows s (d.ab + natW (g * d.agstr)) d.arstr d.nrow with
        | .ok rs => .ok (rs, none)
        | .error e => .error e
    match rows with
    | .error e => .error e
    | .ok x => .ok (streamRows m b p (p == 0) (p == 1) (s.fresh + slot) d.row0 x.1, b, x.2, x.1.flatMap (·.keys))

/-- R258: one K group, two passes, then the group boundary. A group whose loads or rows fault writes nothing and ends the
command (log entry 11); a stale block gives a zero row, its fault is recorded, and the loop goes on (R263). The step begins under the lease;
while a trap is being taken the command ends here (R394), and a save in progress keeps it at this boundary (R401) unless commands wait
behind it, which have to complete before the save (log entry 118). -/
def execMmacroGroup (s : State) : Out :=
  match s.cx.mfly with
  | [] => .refused (.noSubject "no matrix command in flight")
  | h :: t =>
    match h.prog with
    | .gemm d g =>
      let s0 := { s with cur := h.e, cx := { s.cx with mfly := t } }
      let slot := bitsOf (h.e.word.setWidth 64) 18 6
      if s.cx.due.isSome then .next (doneM s0)
      else if s.cx.caps.isSome && t == [] then .next s.block
      else if !leaseReady s s.cx.id then
        if coreLease s s.cx.id || hasRequest s s.cx.id then .next s.block
        else .next (requestLease s s.cx.id s.cx.it.rid s.cx.it.prio)
      else
        let s1 := countCmd s0 s.cx.id
        match macPass s1 d slot g 0 (slotAt s1 s.cx.id slot) with
        | .error e => .next (failM s1 e.1 e.2)
        | .ok a =>
          match macPass s1 d slot g 1 a.1 with
          | .error e => .next (failM s1 e.1 e.2)
          | .ok b =>
            let ga := s1.great s.cx.id.cluster
            let s2 := (noteBad s1 s.cx.it.rid (a.2.2.2 ++ b.2.2.2)).setGreat s.cx.id.cluster
              { ga with bufs := (ga.bufs.setIfInBounds 0 a.2.1).setIfInBounds 1 b.2.1, holder := some s.cx.id }
            let s3 := { setSlotAt s2 s.cx.id slot { b.1 with macdone := g + 1 } with fresh := s.fresh + 1 }
            let s4 := match a.2.2.1.or b.2.2.1 with
              | some x => pendAt s3 .m tcStale x
              | none => s3
            if d.ng ≤ g + 1 then .next (doneM s4)
            else .next { s4 with cx := { s4.cx with mfly := { h with prog := .gemm d (g + 1) } :: s4.cx.mfly } }
    | _ => .refused (.noSubject "no mmacro in flight")

/-! ## mzero, mdrain, mrel, mmask, mstat -/

/-- A cleared slot (R259, R273). -/
def clearedSlot (c : CtxId) (mode : SlotMode) : MSlot := { MSlot.free with owner := some c, mode := mode }
/-- The slot is owned by another context (R248). -/
def slotTaken (s : State) (n : Nat) : Bool :=
  match (slotAt s s.cx.id n).owner with
  | some o => o != s.cx.id
  | none => false
/-- R259, R254: an mzero of another context's slot waits outside any lease; its context's lease ends as soon as every command it has issued
has completed. -/
def execMzero (w : FR) (s : State) : Out :=
  gated w.g s fun s =>
    if slotTaken s w.d.toNat then
      match leaseOf s s.cx.id with
      | some l => if l.ending || s.cx.mfly != [] then .next s.block else requeueM (endLeaseSoon s s.cx.id)
      | none => .next s.block
    else runM w.g true false [] none (fun _ => 0) (latchM none none)
      (fun s _ _ => .next (doneM (setSlotAt s s.cx.id w.d.toNat
        (clearedSlot s.cx.id (if w.f.getLsbD 0 then .split else .plain))))) s

/-- Release the slot of a drain that carries REL. -/
def relSlot (rel : Bool) (s : State) (n : Nat) : State := if rel && ownSlot s n then setSlotAt s s.cx.id n MSlot.free else s
/-- The bytes of elements of size z, in order, as one value. -/
def packElems (z : Nat) (xs : List Nat) : Nat := xs.foldr (fun x acc => x + 2 ^ (8 * z) * acc) 0
/-- A drained row of a great array (R261). -/
def drainRow (m : MSlot) (bf : Bool) (cb row : Nat) : Nat × Nat :=
  let z := if bf then 2 else 4
  let cols := if m.mode = .split then List.range 128
    else (if cb % 2 = 1 then List.range 128 else []) ++ (if cb / 2 = 1 then (List.range 128).map (128 + ·) else [])
  (cols.length * z, packElems z (cols.map fun c => drainElem m true (if bf then bf16 else f32) row c))
/-- The team indexes of a mask, upward. -/
def maskBits (m : Nat) : List Nat := (List.range 8).filter fun t => m.testBit t

/-- The merge of DST 2 into the other slot (R260, R261). -/
def drainMerge (m d : MSlot) (cb row0 nrow : Nat) : MSlot :=
  let b := cb / 2
  let ce := (d.ceOf b).or ((m.ceOf 1).or (m.ceOf 0))
  let d1 := (List.range nrow).foldl (fun d k => (List.range 128).foldl (fun d j =>
      let i := row0 + k
      let key := 256 * i + 128 * b + j
      let e := d.elem key
      let r := mergeSplit m i j (e.a, ce, e.nan, e.sat)
      d.setElem key { e with a := r.1, nan := r.2.2.1, sat := r.2.2.2 }) d) d
  match ce with
  | some c => { d1 with ce := Tab.put noCe d1.ce b c }
  | none => d1

/-- R261, R251: a drain that a fault keeps from its elements changes nothing, so REL does not act; the cases of DST 1 and DST 2 for
which R261 says what still happens keep their release. -/
def execMdrain (w : FR) (s : State) : Out :=
  runM w.g true false [.sreg w.a, .sreg w.b] none (fun _ => 0) (latchM (some w.a) (some w.b))
    (fun s h _ =>
      let n := w.d.toNat
      let m := slotAt s s.cx.id n
      let rel := w.f.getLsbD 3
      let row0 := rcRow0 h.b
      let nrow := rcNrow h.b
      let cb := bitsOf h.b 32 2
      let rs := bitsOf h.b 40 24
      let ok := rcOk h.b && bitsOf h.b 34 6 == 0 && rs % 128 == 0 && ownSlot s n
      let row (k : Nat) : Nat × Nat := drainRow m (w.f.getLsbD 0) cb (row0 + k)
      match w.f.toNat / 2 % 4 with
      | 0 =>
        if !ok || (m.mode == .split && cb != 1) then .next (failM s tcOperand 0)
        else
          let ws := ((List.range nrow).map fun k => (h.a + natW (k * rs), row k)).filter fun x => x.2.1 != 0
          match placesM s [1, 2] ws with
          | .error e => .next (failM s e.1 e.2)
          | .ok cs => .next (doneM (writeM (relSlot rel s n) cs))
      | 1 =>
        let cores := maskBits (bitsOf h.a 48 8)
        let q := if cores.length = 0 then 0 else nrow / cores.length
        if !ok || (m.mode == .split && cb != 1) || bitsOf h.a 56 8 != 0 || cores.length == 0 || nrow % cores.length != 0 then
          .next (failM s tcOperand 0)
        else
          let s0 := relSlot rel s n
          let r := cores.zipIdx.foldl (fun (acc : State × Option (Nat × W64)) t =>
            let at' (k : Nat) : W64 := natW (3 * 2 ^ 60 + t.1 * 2 ^ 48) + natW (bitsOf h.a 0 48 + k * rs)
            let far := 2 ^ 48 ≤ bitsOf h.a 0 48 + (q - 1) * rs
            let ws := ((List.range q).map fun k => (at' k, row (t.2 * q + k))).filter fun x => x.2.1 != 0
            if far then (acc.1, acc.2.or (some (tcWindow, at' 0)))
            else match placesM acc.1 [3] ws with
              | .error e => (acc.1, acc.2.or (some e))
              | .ok cs => (writeM acc.1 cs, acc.2)) (s0, none)
          match r.2 with
          | some e => .next (failM r.1 e.1 e.2)
          | none => .next (doneM r.1)
      | _ =>
        let d := slotAt s s.cx.id (1 - n)
        if !ok then .next (failM s tcOperand 0)
        else if m.mode != .split || d.mode != .plain || !ownSlot s (1 - n) || !(cb == 1 || cb == 2) then
          .next (failM (relSlot rel s n) tcOperand 0)
        else .next (doneM (relSlot rel (setSlotAt s s.cx.id (1 - n) (drainMerge m d cb row0 nrow)) n))) s

/-- R264: waits for every earlier M instruction; needs no lease and counts in no counter. -/
def execMrel (w : FR) (s : State) : Out :=
  gated w.g s fun s =>
    if s.cx.mfly ≠ [] then .next s.block
    else
      let s1 := relSlot (w.f.getLsbD 0) s 0
      let s2 := relSlot (w.f.getLsbD 1) s1 1
      .next (if w.f.getLsbD 2 then dropLease s2 s.cx.id else s2)

/-- The header of a mask block and its entries (R265): none when it is invalid. -/
def parseMask (a : W64) (great : Bool) (hd : Nat) (ents : Nat) : Option MaskBlk :=
  let n := nbits hd 0 7
  let b : MaskBlk := ⟨a, n, nbits hd 64 10, nbits hd 80 10, nbits hd 96 6, nbits hd 128 32, nbits hd 192 32,
    (List.range n).map fun k => natW (nbits ents (128 * k) 64), (List.range n).map fun k => nbits ents (128 * k + 64) 32⟩
  let ancOk := (List.range n).all fun k => nbits ents (128 * k) 64 / 2 ^ k == 1 && nbits ents (128 * k + 96) 32 == 0
  if n = 0 || 64 < n || nbits hd 7 57 ≠ 0 || nbits hd 74 6 ≠ 0 || nbits hd 90 6 ≠ 0 || nbits hd 102 26 ≠ 0
      || nbits hd 160 32 ≠ 0 || nbits hd 224 288 ≠ 0 || n ≤ b.node0 || (if great then 256 else 8) ≤ b.col0 || !ancOk then none
  else some b
/-- Read the mask block of an address for a slot (R265). -/
def readMask (s : State) (c : Ctx) (a : W64) : Except (Nat × W64) MaskBlk :=
  if 2 < a.toNat / 2 ^ 60 then .error (tcWindow, a)
  else match ctxReader s c 64 a 64 with
    | .error e => .error (e, a)
    | .ok hd =>
      let n := nbits hd 0 7
      if n = 0 || 64 < n then .error (tcOperand, 0)
      else match ctxReader s c 16 (a + 64) (16 * n) with
        | .error e => .error (e, a + 64)
        | .ok es => match parseMask a (c.id.prof == .p) hd es with
          | some b => .ok b
          | none => .error (tcOperand, 0)
/-- R265. -/
def execMmask (w : FR) (s : State) : Out :=
  runM w.g (s.cx.id.prof == .p) false [.sreg w.a] none (fun _ => 0) (latchM (some w.a) none)
    (fun s h _ =>
      let n := w.d.toNat
      let m := slotAt s s.cx.id n
      if !ownSlot s n then .next (failM s tcOperand 0)
      else
        let s0 := setSlotAt s s.cx.id n { m with mask := none }
        if h.a = 0 then .next (doneM s0)
        else match readMask s s.cx h.a with
          | .error e => .next (failM s0 e.1 e.2)
          | .ok b => .next (doneM (setSlotAt (noteRead s h.a (64 + 16 * b.nnode)) s.cx.id n { m with mask := some b }))) s

/-- The value of an item of a slot (R267). -/
def statValue (c : Ctx) (m : MSlot) (item : Nat) : W64 :=
  match item with
  | 0 => natW ((m.elems.any (·.2.nan)).toNat + 2 * (m.elems.any (·.2.sat)).toNat + 4 * (m.guf != 0).toNat
      + 8 * (m.rmask != 0).toNat + 16 * (m.owner == some c.id).toNat + 32 * (m.mode == .split).toNat
      + 64 * (m.mode == .affine).toNat + 128 * m.mask.isSome.toNat)
  | 5 => natW m.macdone
  | n => match m.ceOf (n - 1) with
    | some e => toW e
    | none => natW (2 ^ 63)
/-- R267: waits for every earlier M instruction; the result lands 4 cycles later. -/
def execMstat (w : FR) (s : State) : Out :=
  gated w.g s fun s =>
    if s.cx.mfly ≠ [] then .next s.block
    else if s.cur.chk && (VDst.scal w.d).breach s then .next (breachTrap s .m)
    else
      let v := statValue s.cx (slotAt s s.cx.id w.a.toNat) w.b.toNat
      .next (launch s [mkFlight s .m 4 (.s w.d.toNat v) 0 false (mkCapt s (captS v) VReg.zero VReg.zero 0)])

/-! ## The decode array (R268 to R270) -/

/-- R268: the columns take effect in command order. -/
def execDmvld (w : FR) (s : State) : Out :=
  let n := w.b.toNat
  let src : VSrc := .vec w.a n
  runM w.g false true [src] none (fun _ => 0)
    (fun s => let r := readSrc s 0 0 [] src; (⟨s.cur, 0, 0, r.1, [], .plain⟩, r.2))
    (fun s h _ =>
      .next (doneM { s with cx := { s.cx with cols := h.vs.zipIdx.foldl (fun c v =>
        c.setIfInBounds (w.d.toNat + v.2) ⟨v.1, w.f.getLsbD 0⟩) s.cx.cols } }))
    (if portsReady s.cx src .none || (s.cx.mfly.any fun h => h.e.seq == s.cur.seq) || !gateOk w.g s.cur.level then s
     else s.block)

/-- R268: dmzero waits until the slot's owner releases it. -/
def execDmzero (w : FR) (s : State) : Out :=
  gated w.g s fun s =>
    if slotTaken s w.d.toNat then .next s.block
    else runM w.g false true [] none (fun _ => 0) (latchM none none)
      (fun s _ _ => .next (doneM (setSlotAt s s.cx.id w.d.toNat (clearedSlot s.cx.id .plain)))) s

/-- The active columns of a mask. -/
def colsOf (m : Nat) : List Nat := (List.range 8).filter fun i => m.testBit i
/-- R269, R251: with GL each weight row is promoted by itself, as it streams. -/
def execDmv (w : FR) (s : State) : Out :=
  runM w.g false true [.sreg w.b] (some w.a.toNat) dmvNeed (latchM none (some w.b))
    (fun s h _ =>
      let row0 := dmRow0 h.b
      let nrow := dmNrow h.b
      let act := colsOf (bitsOf h.b 18 8)
      let ws : W32 := BitVec.ofNat 32 (bitsOf h.b 32 32)
      let col (i : Nat) : Col := s.cx.cols.getD i Col.zero
      let bf := (act.head?.map fun i => (col i).bf).getD false
      let half := (w.f.getLsbD 0).toNat
      let ok := ownSlot s w.d.toNat && row0 % 2 == 0 && nrow % 2 == 0 && 2 ≤ nrow && nrow ≤ 128
        && row0 / 128 == (row0 + nrow - 1) / 128 && row0 + nrow ≤ 512 && bitsOf h.b 26 6 == 0
        && act.all fun i => (col i).bf == bf
      if !ok then .next (failM s tcOperand 0)
      else
        let m := slotAt s s.cx.id w.d.toNat
        let rows := h.got.zipIdx.flatMap fun v =>
          [(row0 + 2 * v.2, rowElems bf v.1.d.toNat 0), (row0 + 2 * v.2 + 1, rowElems bf v.1.d.toNat 1)]
        let m1 := rows.foldl (fun m r => act.foldl (fun m i =>
          let e := m.elem (8 * r.1 + i)
          let q := dotPart bf (rowElems bf (col i).v.d.toNat half) r.2
          m.setElem (8 * r.1 + i) { e with part := if w.f.getLsbD 1 then q else e.part.add q }) m) m
        let m2 := if w.f.getLsbD 2 then
            rows.foldl (fun m r => promote m bf s.fresh (act.map fun i =>
              (8 * r.1 + i, r.1 / 128, (m1.elem (8 * r.1 + i)).part, (col i).v.sc, ws))) m1
          else m1
        .next (doneM { setSlotAt s s.cx.id w.d.toNat m2 with fresh := s.fresh + 1 })) s

/-- R270. -/
def execDmdrain (w : FR) (s : State) : Out :=
  runM w.g false true [.sreg w.a, .sreg w.b] none (fun _ => 0) (latchM (some w.a) (some w.b))
    (fun s h _ =>
      let row0 := bitsOf h.b 0 10
      let nrow := bitsOf h.b 10 10
      let act := colsOf (bitsOf h.b 20 8)
      let z := if w.f.getLsbD 0 then 2 else 4
      let fm := if w.f.getLsbD 0 then bf16 else f32
      let m := slotAt s s.cx.id w.d.toNat
      let rel := w.f.getLsbD 2
      if !ownSlot s w.d.toNat || 512 ≤ row0 || nrow = 0 || 512 < row0 + nrow || bitsOf h.b 28 36 != 0 then
        .next (failM s tcOperand 0)
      else
        let ws := (List.range nrow).flatMap fun k => act.map fun i =>
          (h.a + natW (if w.f.getLsbD 1 then i * nrow * z + k * z else k * 8 * z + i * z), z, drainElem m false fm (row0 + k) i)
        match placesM s [1, 4] ws with
        | .error e => .next (failM s e.1 e.2)
        | .ok cs => .next (doneM (writeM (relSlot rel s w.d.toNat) cs))) s

end Sys2Proof.Machine
end

