-- ==== Sys2Proof/Machine/Affine.lean ====
section
/-! DEFINITION. Affine slots: modes, gains, carries, the scan of a chunk in steps, and the recurrent step of a decode array
(R272 to R283). -/

namespace Sys2Proof.Machine

/-! ## mmode and mgain (R278, R279) -/

/-- The element key of a row and column in a profile. -/
def elemKey (p : Profile) (row col : Nat) : Nat := if p = .p then 256 * row + col else 8 * row + col
/-- R278: the elements are cleared; carries, GUF, mask and owner stay. -/
def setMode (m : MSlot) (aff : Bool) : MSlot :=
  { m with mode := if aff then .affine else .plain, elems := [], rmask := 0, ce := [], macdone := 0, step := 0 }
/-- R278. -/
def execMmode (w : FR) (s : State) : Out :=
  runM w.g (s.cx.id.prof == .p) false [] none (fun _ => 0) (latchM none none)
    (fun s _ _ =>
      let m := slotAt s s.cx.id w.d.toNat
      if !ownSlot s w.d.toNat || m.mode == .split then .next (failM s tcOperand 0)
      else .next (doneM (setSlotAt s s.cx.id w.d.toNat (setMode m (w.f.getLsbD 0))))) s

/-- Mark the gain underflow of a column. -/
def MSlot.markGuf (m : MSlot) (col : Nat) (u : Bool) : MSlot := if u then { m with guf := m.guf ||| (1#256 <<< col) } else m
/-- Store a gain in an element (R279). -/
def MSlot.putGain (m : MSlot) (key col : Nat) (v : W32) : MSlot :=
  let g := storeGain v
  let e := m.elem key
  (m.setElem key { e with g := g.1, nan := e.nan || g.2.1 }).markGuf col g.2.2
/-- A pattern of a gain as FP32: bf16 widens exactly. -/
def gainPat (bf : Bool) (n : Nat) : W32 := if bf then BitVec.ofNat 32 (n * 65536) else BitVec.ofNat 32 n

/-- The gain rows of a profile P mgain, lowest row first. -/
def gainRows (s : State) (a : W64) (stride bytes n : Nat) : Except (Nat × W64) (List Nat) :=
  match n with
  | 0 => .ok []
  | k + 1 =>
    match gainRows s a stride bytes k with
    | .error e => .error e
    | .ok rs => match readM s [1, 2] (a + natW (k * stride)) bytes 128 with
      | .error e => .error e
      | .ok v => .ok (rs ++ [v])
/-- R279, R251. -/
def execMgain (w : FR) (s : State) : Out :=
  let bf := w.f.getLsbD 0
  let z := if bf then 2 else 4
  if s.cx.id.prof = .p then
    runM w.g true false [.sreg w.a, .sreg w.b] none (fun _ => 0) (latchM (some w.a) (some w.b))
      (fun s h _ =>
        let m := slotAt s s.cx.id w.d.toNat
        let row0 := rcRow0 h.b
        let nrow := rcNrow h.b
        let gs := bitsOf h.b 32 32
        if !rcOk h.b || gs % 128 != 0 || !ownSlot s w.d.toNat || m.mode != .affine then .next (failM s tcOperand 0)
        else match gainRows s h.a gs (256 * z) nrow with
          | .error e => .next (failM s e.1 e.2)
          | .ok rows =>
            .next (doneM (setSlotAt s s.cx.id w.d.toNat (rows.zipIdx.foldl (fun m r =>
              (List.range 256).foldl (fun m c =>
                m.putGain (256 * (row0 + r.2) + c) c (gainPat bf (nbits r.1 (8 * z * c) (8 * z)))) m) m)))) s
  else
    runM w.g false true [.sreg w.b] (some w.a.toNat)
      (mgainNeed bf) (latchM none (some w.b))
      (fun s h _ =>
        let m := slotAt s s.cx.id w.d.toNat
        let row0 := bitsOf h.b 0 10
        if !mgainDOk bf h.b || 512 ≤ row0 || 512 < row0 + bitsOf h.b 10 10 || bitsOf h.b 20 44 != 0
            || !ownSlot s w.d.toNat || m.mode != .affine then .next (failM s tcOperand 0)
        else
          let k := if bf then 64 else 32
          let vs := h.got.flatMap fun v => (List.range k).map fun e => nbits v.d.toNat (8 * z * e) (8 * z)
          .next (doneM (setSlotAt s s.cx.id w.d.toNat (vs.zipIdx.foldl (fun m x =>
            m.putGain (8 * row0 + x.2) (x.2 % 8) (gainPat bf x.1)) m)))) s

/-! ## mcarry (R280) -/

/-- A carry of a slot. -/
def MSlot.carryAt (m : MSlot) (k : Nat) : W32 × W32 := Tab.get idPair m.carry k
def MSlot.setCarry (m : MSlot) (k : Nat) (p : W32 × W32) : MSlot := { m with carry := Tab.put idPair m.carry k p }
/-- Load a carry as it is read (R280). -/
def MSlot.loadCarry (m : MSlot) (k col : Nat) (v : Nat) : MSlot :=
  let g := storeGain (BitVec.ofNat 32 v)
  let b : W32 := BitVec.ofNat 32 (v / 2 ^ 32)
  (m.setCarry k (g.1, if (val32 b).isNaN then nan32 else b)).markGuf col g.2.2
/-- A carry as it is stored. -/
def carryWord (p : W32 × W32) : Nat := p.1.toNat + 2 ^ 32 * p.2.toNat
/-- R280: n pairs from key k0 at s[a]. -/
def execMcarry (w : FR) (s : State) : Out :=
  let p := s.cx.id.prof
  runM w.g (p == .p) false [.sreg w.a, .sreg w.b] none (fun _ => 0) (latchM (some w.a) (some w.b))
    (fun s h _ =>
      let first := bitsOf h.b 0 10
      let count := bitsOf h.b 16 10
      let lim := if p = .p then 256 else 512
      let per := if p = .p then 1 else 8
      let wins := if p = .p then [1, 2] else [1, 4]
      let m := slotAt s s.cx.id w.d.toNat
      let keys := (List.range (count * per)).map fun j => (per * first + j, j)
      if count = 0 || lim < first + count || bitsOf h.b 10 6 != 0 || bitsOf h.b 26 38 != 0 || !ownSlot s w.d.toNat then
        .next (failM s tcOperand 0)
      else if !wins.contains (h.a.toNat / 2 ^ 60) then .next (failM s tcWindow h.a)
      else if !alignedTo h.a 8 then .next (failM s tcAlign h.a)
      else if w.f.getLsbD 0 then
        match placesM s wins [(h.a, 8 * count * per, (keys.foldr (fun k acc => carryWord (m.carryAt k.1) + 2 ^ 64 * acc) 0))] with
        | .error e => .next (failM s e.1 e.2)
        | .ok cs => .next (doneM (writeM s cs))
      else
        match readM s wins h.a (8 * count * per) 8 with
        | .error e => .next (failM s e.1 e.2)
        | .ok v => .next (doneM (setSlotAt (noteRead s h.a (8 * count * per)) s.cx.id w.d.toNat (keys.foldl (fun m k =>
            m.loadCarry k.1 (k.1 % (if p = .p then 256 else 8)) (nword v k.2)) m)))) s

/-! ## mscan (R281, R282) -/

/-- The least L with 2^L at least n. -/
def scanLevels (n : Nat) : Nat := ((List.range 10).find? fun l => n ≤ 2 ^ l).getD 9
/-- Put a composed pair into an element: a NaN pair sets NANST (R274). -/
def MSlot.putPair (m : MSlot) (key col : Nat) (r : (W32 × W32) × Bool) : MSlot :=
  let e := m.elem key
  (m.setElem key { e with g := r.1.1, b := r.1.2, nan := e.nan || r.1 == nanPair }).markGuf col r.2
/-- The pair of an element. -/
def MSlot.pair (m : MSlot) (key : Nat) : W32 × W32 := ((m.elem key).g, (m.elem key).b)

/-- Step `step` of a scan of rows row0 to row0 + n - 1 of a slot: every value read is that of the slot before the step. -/
def scanStep (m : MSlot) (row0 n step : Nat) : MSlot :=
  let l := scanLevels n
  let key (r c : Nat) : Nat := 256 * (row0 + r) + c
  let cells (lo : Nat) : List (Nat × Nat) :=
    (List.range (n - lo)).flatMap fun r => (List.range 256).map fun c => (lo + r, c)
  let m1 :=
    if step = 0 then
      (cells 0).foldl (fun t x =>
        let e := t.elem (key x.1 x.2)
        t.setElem (key x.1 x.2) { e with b := formOf m e (x.2 / 128) }) m
    else if step ≤ l then
      (cells (2 ^ (step - 1))).foldl (fun t x =>
        t.putPair (key x.1 x.2) x.2 (compose (m.pair (key x.1 x.2)) (m.pair (key (x.1 - 2 ^ (step - 1)) x.2)))) m
    else
      let t := (cells 0).foldl (fun t x =>
        t.putPair (key x.1 x.2) x.2 (compose (m.pair (key x.1 x.2)) (m.carryAt x.2))) m
      (List.range 256).foldl (fun u c => u.setCarry c (t.pair (key (n - 1) c))) t
  { m1 with step := step + 1 }

/-- R281: the scan begins, at step STEP; its steps follow as device steps. -/
def execMscan (w : FR) (s : State) : Out :=
  runM w.g true true [.sreg w.b] none (fun _ => 0) (latchM none (some w.b))
    (fun s h _ =>
      let m := slotAt s s.cx.id w.d.toNat
      if !rcOk h.b || bitsOf h.b 32 32 != 0 || !ownSlot s w.d.toNat || m.mode != .affine then .next (failM s tcOperand 0)
      else .next { s with cx := { s.cx with mfly := { h with prog := .scan } :: s.cx.mfly } }) s

/-- R282: one step, atomic, under the lease. While a trap is being taken the command ends at this boundary (R394). -/
def execMscanStep (s : State) : Out :=
  match s.cx.mfly with
  | [] => .refused (.noSubject "no matrix command in flight")
  | h :: t =>
    if h.prog != .scan then .refused (.noSubject "no mscan in flight")
    else
      let s0 := { s with cur := h.e, cx := { s.cx with mfly := t } }
      let slot := bitsOf (h.e.word.setWidth 64) 18 6
      let m := slotAt s s.cx.id slot
      if s.cx.due.isSome then .next (doneM (setSlotAt s0 s.cx.id slot { m with step := 0 }))
      else if s.cx.caps.isSome && t == [] then .next s.block
      else if !leaseReady s s.cx.id then
        if coreLease s s.cx.id || hasRequest s s.cx.id then .next s.block
        else .next (requestLease s s.cx.id s.cx.it.rid s.cx.it.prio)
      else
        let n := rcNrow h.b
        let m1 := scanStep m (rcRow0 h.b) n m.step
        let s1 := countCmd s0 s.cx.id
        if scanLevels n + 2 ≤ m1.step then .next (doneM (setSlotAt s1 s.cx.id slot { m1 with step := 0 }))
        else
          let s2 := setSlotAt s1 s.cx.id slot m1
          .next { s2 with cx := { s2.cx with mfly := h :: s2.cx.mfly } }

/-! ## dmstep (R283) -/

/-- R283: one atomic step of each active element's recurrence. -/
def execDmstep (w : FR) (s : State) : Out :=
  runM w.g false true [.sreg w.b] none (fun _ => 0) (latchM none (some w.b))
    (fun s h _ =>
      let row0 := bitsOf h.b 0 10
      let nrow := bitsOf h.b 10 10
      let m := slotAt s s.cx.id w.d.toNat
      if !ownSlot s w.d.toNat || m.mode != .affine || 512 ≤ row0 || nrow = 0 || 512 < row0 + nrow || bitsOf h.b 28 36 != 0 then
        .next (failM s tcOperand 0)
      else
        let cells := (List.range nrow).flatMap fun j => (colsOf (bitsOf h.b 20 8)).map fun i => (row0 + j, i)
        .next (doneM (setSlotAt s s.cx.id w.d.toNat (cells.foldl (fun m x =>
          let k := 8 * x.1 + x.2
          let e := m.elem k
          let r := compose (e.g, formOf m e (x.1 / 128)) (m.carryAt k)
          (m.putPair k x.2 r).setCarry k r.1) m)))) s

end Sys2Proof.Machine
end

