-- ==== Sys2Proof/Machine/ScalarFp.lean ====
section
/-! DEFINITION. The FP32 instructions of the S stream (R164 to R167). -/

namespace Sys2Proof.Machine

/-- The FP32 operand of a scalar register: bits [31:0], flushed under FZI (R164). -/
def sfp (w : FR) (x : W64) : FVal := unpackZ f32 (w.f.getLsbD 3) (x.toNat % 2 ^ 32)
/-- Round a result once under the selected mode, with FZO (R164). -/
def sfpRound (w : FR) (vm : BitVec 2) (v : FVal × Bool) (f : Flags) : W64 × Flags :=
  let r := roundFmt f32 (rmSel (w.f.toNat % 8) vm) (w.f.getLsbD 4) v.1 v.2
  (natW r.1, f ||| r.2)

def valFadd (w : FR) : SVal := fun vm x y _ =>
  let r := addF (rmSel (w.f.toNat % 8) vm) (sfp w x) (sfp w y)
  sfpRound w vm (r.1, false) r.2
def valFsub (w : FR) : SVal := fun vm x y _ =>
  let r := addF (rmSel (w.f.toNat % 8) vm) (sfp w x) (sfp w y).negate
  sfpRound w vm (r.1, false) r.2
def valFmul (w : FR) : SVal := fun vm x y _ =>
  let r := mulF (sfp w x) (sfp w y)
  sfpRound w vm (r.1, false) r.2
def valFdiv (w : FR) : SVal := fun vm x y _ =>
  let r := divF (sfp w x) (sfp w y)
  sfpRound w vm r.1 r.2
def valFma (w : FR) : SVal := fun vm x y z =>
  let r := fmaF (rmSel (w.f.toNat % 8) vm) (sfp w x) (sfp w y) (sfp w z)
  sfpRound w vm (r.1, false) r.2
def valFmin (w : FR) : SVal := fun vm x y _ => sfpRound w vm (minF (sfp w x) (sfp w y), false) 0
def valFmax (w : FR) : SVal := fun vm x y _ => sfpRound w vm (maxF (sfp w x) (sfp w y), false) 0

/-- The conditions of fcmp and vcmp: EQ, NE, LT, LE, UN; a NaN operand makes NE and UN true (R166). -/
def fcmpHolds (cc : Nat) (x y : FVal) : Bool :=
  if x.isNaN || y.isNaN then cc == 1 || cc == 4
  else match cc with
    | 0 => cmpF x y == .eq
    | 1 => cmpF x y != .eq
    | 2 => cmpF x y == .lt
    | 3 => cmpF x y != .gt
    | _ => false
def valFcmp (w : FR) : SVal := fun _ x y _ =>
  (boolW (fcmpHolds (w.f.toNat % 8) (sfp w x) (sfp w y)), if (sfp w x).isNaN || (sfp w y).isNaN then flIV else 0)

/-- The conversions of fcvt (R167). -/
def valFcvt (w : FR) : SVal := fun vm x _ _ =>
  let rm := rmSel (w.f.toNat % 8) vm
  let lo := x.toNat % 2 ^ 32
  let out (r : Nat × Flags) : W64 × Flags := (natW r.1, r.2)
  match w.f.toNat / 8 with
  | 0 => out (roundFmt f32 rm false (ofInt x.toInt) false)
  | 1 => out (roundFmt f32 rm false (ofInt x.toNat) false)
  | 2 => let r := toIntSat rm (-(2 ^ 63)) (2 ^ 63 - 1) (unpack f32 lo); (toW r.1, r.2)
  | 3 => let r := toIntSat rm 0 (2 ^ 64 - 1) (unpack f32 lo); (toW r.1, r.2)
  | 4 => out (roundFmt bf16 rm false (unpack f32 lo) false)
  | 5 => out (roundFmt f16 rm false (unpack f32 lo) false)
  | 6 => out (roundFmt f32 rm false (unpack bf16 (x.toNat % 2 ^ 16)) false)
  | _ => out (roundFmt f32 rm false (unpack f16 (x.toNat % 2 ^ 16)) false)

/-! ## Meanings -/

/-- R165. -/
def execFadd (w : FR) (s : State) : Out := issueR2 w 4 (valFadd w) s
/-- R165. -/
def execFsub (w : FR) (s : State) : Out := issueR2 w 4 (valFsub w) s
/-- R165. -/
def execFmul (w : FR) (s : State) : Out := issueR2 w 4 (valFmul w) s
/-- R165. -/
def execFdiv (w : FR) (s : State) : Out := issueR2 w 16 (valFdiv w) s
/-- R165: s[d] is read at issue. -/
def execFma (w : FR) (s : State) : Out := issueScalar w.g w.d (some w.a) (some w.b) (some w.d) 4 (valFma w) s
/-- R165. -/
def execFmin (w : FR) (s : State) : Out := issueR2 w 4 (valFmin w) s
/-- R165. -/
def execFmax (w : FR) (s : State) : Out := issueR2 w 4 (valFmax w) s
/-- R166. -/
def execFcmp (w : FR) (s : State) : Out := issueR2 w 2 (valFcmp w) s
/-- R167. -/
def execFcvt (w : FR) (s : State) : Out := issueR1 w 3 (valFcvt w) s

end Sys2Proof.Machine
end

