-- ==== Sys2Proof/Machine/VectorArith.lean ====
section
/-! DEFINITION. The V stream's arithmetic, comparisons, predicate logic, reductions and scans (R227 to R235, R240, R241,
R245). Each value function gives the results from the operands; each meaning issues it with the latency of R223. -/

namespace Sys2Proof
open Sys2Proof.Machine

/-- The rounding mode of a V-format instruction: its modifier word, which follows an immediate, or VMODE (R106, R178). -/
def Machine.vRm (a b : BitVec 6) (x : List W32) (vm : BitVec 2) : BitVec 2 :=
  rmSel (((if usesImm a b then x.tail else x).headD 0).toNat % 8) vm
def FV.rm (w : FV) (vm : BitVec 2) : BitVec 2 := vRm w.a w.b w.x vm

/-- A float element as an operand, flushed under FZI (R182). -/
def FV.flt (w : FV) (n : Nat) : FVal := unpackZ (tyFmt w.t) w.fzi n
/-- Round a float result once in T with FZO (R227). -/
def FV.out (w : FV) (vm : BitVec 2) (v : FVal) (sticky : Bool) (f : Flags) : Nat × Flags :=
  let r := roundFmt (tyFmt w.t) (w.rm vm) w.fzo v sticky
  (r.1, f ||| r.2)

end Sys2Proof

namespace Sys2Proof.Machine

/-! ## Elementwise helpers -/

/-- Element k of A and of B and of D. -/
def VIn.ea (i : VIn) (t : BitVec 3) (k : Nat) : Nat := getElem' (tyWidth t) k i.a0.d
def VIn.eb (i : VIn) (t : BitVec 3) (k : Nat) : Nat := getElem' (tyWidth t) k i.b.d
def VIn.ed (i : VIn) (t : BitVec 3) (k : Nat) : Nat := getElem' (tyWidth t) k i.d.d
/-- A two-source arithmetic instruction: on floats an exact operation rounded once, on integers an exact operation
wrapped or saturated (R227). -/
def valV2 (w : FV) (fop : BitVec 2 → FVal → FVal → FVal × Flags) (iop : Int → Int → Int) : VIn → VOut := fun i =>
  vElem i w.t fun k =>
    if isIntTy w.t then (intRes w.t w.fzo (iop (intVal w.t (i.ea w.t k)) (intVal w.t (i.eb w.t k))), 0)
    else
      let r := fop (w.rm i.rm) (w.flt (i.ea w.t k)) (w.flt (i.eb w.t k))
      w.out i.rm r.1 false r.2

def valVadd (w : FV) : VIn → VOut := valV2 w addF (· + ·)
def valVsub (w : FV) : VIn → VOut := valV2 w (fun rm x y => addF rm x y.negate) (· - ·)
def valVmul (w : FV) : VIn → VOut := valV2 w (fun _ x y => mulF x y) (· * ·)
def valVmin (w : FV) : VIn → VOut := valV2 w (fun _ x y => (minF x y, 0)) min
def valVmax (w : FV) : VIn → VOut := valV2 w (fun _ x y => (maxF x y, 0)) max
def valVdiv (w : FV) : VIn → VOut := fun i => vElem i w.t fun k =>
  let r := divF (w.flt (i.ea w.t k)) (w.flt (i.eb w.t k))
  w.out i.rm r.1.1 r.1.2 r.2

/-- R228: a multiply-add with one rounding; `sub` negates the product. -/
def valVfmaWith (w : FV) (sub : Bool) : VIn → VOut := fun i => vElem i w.t fun k =>
  if isIntTy w.t then
    let q := intVal w.t (i.ea w.t k) * intVal w.t (i.eb w.t k)
    (intRes w.t w.fzo ((if sub then -q else q) + intVal w.t (i.ed w.t k)), 0)
  else
    let x := w.flt (i.ea w.t k)
    let r := fmaF (w.rm i.rm) (if sub then x.negate else x) (w.flt (i.eb w.t k)) (w.flt (i.ed w.t k))
    w.out i.rm r.1 false r.2
def valVfma (w : FV) : VIn → VOut := valVfmaWith w false
def valVfnma (w : FV) : VIn → VOut := valVfmaWith w true

/-- A one-source sign operation (R229). -/
def valVsign (w : FV) (fop : FVal → FVal) (iop : Int → Int) : VIn → VOut := fun i => vElem i w.t fun k =>
  if isIntTy w.t then (intRes w.t w.fzo (iop (intVal w.t (i.ea w.t k))), 0)
  else w.out i.rm (fop (w.flt (i.ea w.t k))) false 0
def valVabs (w : FV) : VIn → VOut := valVsign w FVal.abs fun x => (x.natAbs : Int)
def valVneg (w : FV) : VIn → VOut := valVsign w FVal.negate fun x => -x

/-! ## Special functions (R230) -/

/-- A special function: the exact result with a sticky bit, and the flags that its table gives the special inputs. -/
abbrev SpecFn := FVal → (FVal × Bool) × Flags

/-- One. -/
def oneF : FVal := .fin false 1 0
/-- A special input's result without a flag, or with flags. -/
def specR (v : FVal) (f : Flags) : (FVal × Bool) × Flags := ((v, false), f)
/-- A function of a finite non-zero input. -/
def specX (r : FVal × Bool) : (FVal × Bool) × Flags := (r, 0)

def fnSqrt : SpecFn
  | .nan s => specR (.nan s) 0
  | .inf s => if s then specR (.nan false) flIV else specR (.inf false) 0
  | .fin s m e => if m = 0 then specR (.fin s 0 0) 0 else if s then specR (.nan false) flIV else specX (sqrtX m e)
def fnRsqrt : SpecFn
  | .nan s => specR (.nan s) 0
  | .inf s => if s then specR (.nan false) flIV else specR (.fin false 0 0) 0
  | .fin s m e => if m = 0 then specR (.inf s) flDZ else if s then specR (.nan false) flIV else specX (rsqrtX m e)
def fnRcp : SpecFn := fun x => divF oneF x
def fnExp2 : SpecFn
  | .nan s => specR (.nan s) 0
  | .inf s => specR (if s then .fin false 0 0 else .inf false) 0
  | .fin s m e => if m = 0 then specR oneF 0 else specX (exp2X s m e)
def fnLog2 : SpecFn
  | .nan s => specR (.nan s) 0
  | .inf s => if s then specR (.nan false) flIV else specR (.inf false) 0
  | .fin s m e => if m = 0 then specR (.inf true) flDZ else if s then specR (.nan false) flIV else specX (log2X m e)
def fnExp : SpecFn
  | .nan s => specR (.nan s) 0
  | .inf s => specR (if s then .fin false 0 0 else .inf false) 0
  | .fin s m e => if m = 0 then specR oneF 0 else specX (expX s m e)
def fnTanh : SpecFn
  | .nan s => specR (.nan s) 0
  | .inf s => specR (oneF.withSign s) 0
  | .fin s m e => if m = 0 then specR (.fin s 0 0) 0 else specX (tanhX s m e)
def fnSigm : SpecFn
  | .nan s => specR (.nan s) 0
  | .inf s => specR (if s then .fin false 0 0 else oneF) 0
  | .fin s m e => if m = 0 then specR (.fin false 1 (-1)) 0 else specX (sigmX s m e)
def fnSilu : SpecFn
  | .nan s => specR (.nan s) 0
  | .inf s => specR (if s then .fin true 0 0 else .inf false) 0
  | .fin s m e => if m = 0 then specR (.fin s 0 0) 0 else specX (siluX s m e)

/-- A special function of each element, rounded once. -/
def valSpec (w : FV) (fn : SpecFn) : VIn → VOut := fun i => vElem i w.t fun k =>
  let r := fn (w.flt (i.ea w.t k))
  w.out i.rm r.1.1 r.1.2 r.2
def valVsqrt (w : FV) : VIn → VOut := valSpec w fnSqrt
def valVrsqrt (w : FV) : VIn → VOut := valSpec w fnRsqrt
def valVrcp (w : FV) : VIn → VOut := valSpec w fnRcp
def valVexp2 (w : FV) : VIn → VOut := valSpec w fnExp2
def valVlog2 (w : FV) : VIn → VOut := valSpec w fnLog2
def valVexp (w : FV) : VIn → VOut := valSpec w fnExp
def valVtanh (w : FV) : VIn → VOut := valSpec w fnTanh
def valVsigm (w : FV) : VIn → VOut := valSpec w fnSigm
def valVsilu (w : FV) : VIn → VOut := valSpec w fnSilu

/-! ## Bits and shifts (R231) -/

/-- The result of an instruction whose sidecar is A's (R222). -/
def VOut.withScOf (i : VIn) (o : VOut) : VOut := { o with v := o.v.map fun r => ⟨r.d, i.a0.sc⟩ }

/-- An operation on bit patterns. -/
def valBits (w : FV) (op : Nat → Nat → Nat) : VIn → VOut := fun i =>
  (vElem i w.t fun k => (op (i.ea w.t k) (i.eb w.t k), 0)).withScOf i
def valVand (w : FV) : VIn → VOut := valBits w (· &&& ·)
def valVor (w : FV) : VIn → VOut := valBits w (· ||| ·)
def valVxor (w : FV) : VIn → VOut := valBits w (· ^^^ ·)
def valVshl (w : FV) : VIn → VOut := fun i => vElem i w.t fun k =>
  (intRes w.t w.fzo (intVal w.t (i.ea w.t k) * 2 ^ (i.eb w.t k % tyWidth w.t)), 0)
def valVshr (w : FV) : VIn → VOut := fun i => vElem i w.t fun k =>
  (wrapN (tyWidth w.t) (intVal w.t (i.ea w.t k) / 2 ^ (i.eb w.t k % tyWidth w.t)), 0)

/-! ## Comparisons and predicates (R232 to R235) -/

/-- The bits that a test of each active element writes, and the flags of the active elements (R221, R232). -/
def predElems (i : VIn) (t : BitVec 3) (f : Nat → Bool × Flags) : VOut :=
  let rs := (List.range (elemCount i.pr t)).map fun k => if predAt i.pr t i.gp k then f k else (false, 0)
  VOut.pred (predOf i.pr t (rs.map (·.1))) (rs.foldl (fun a r => a ||| r.2) 0)

/-- The integer conditions of vcmp: EQ, NE, LT, LE. -/
def icmpHolds (cc : Nat) (x y : Int) : Bool :=
  match cc with
  | 0 => x == y
  | 1 => x != y
  | 2 => x < y
  | _ => x ≤ y
def valVcmp (w : FVC) : VIn → VOut := fun i => predElems i w.t fun k =>
  if isIntTy w.t then (icmpHolds w.cc.toNat (intVal w.t (i.ea w.t k)) (intVal w.t (i.eb w.t k)), 0)
  else
    let x := unpackZ (tyFmt w.t) w.fzi (i.ea w.t k)
    let y := unpackZ (tyFmt w.t) w.fzi (i.eb w.t k)
    (fcmpHolds w.cc.toNat x y, if x.isNaN || y.isNaN then flIV else 0)
def valVclass (w : FVC) : VIn → VOut := fun i => predElems i w.t fun k =>
  let n := i.ea w.t k
  let v := unpack (tyFmt w.t) n
  ((match w.cc.toNat with
    | 0 => v.isNaN
    | 1 => v.isInf
    | 2 => v.isZero
    | _ => isSub (tyFmt w.t) n), 0)
def valVsel (w : FV) : VIn → VOut := fun i =>
  VOut.vec (ofElems (tyWidth w.t) ((List.range (elemCount i.pr w.t)).map fun k =>
    if predAt i.pr w.t i.gp k then i.ea w.t k else i.eb w.t k)) i.a0.sc 0

def valVplog (w : FVP) : VIn → VOut := fun i =>
  let x : PData := i.a0.d.setWidth 128
  let y : PData := i.b.d.setWidth 128
  VOut.pred (match w.op.toNat with
    | 0 => x &&& y
    | 1 => x ||| y
    | 2 => x ^^^ y
    | 3 => x &&& ~~~ y
    | _ => ~~~ x) 0
def valVpcnt (_ : FVP) : VIn → VOut := fun i => VOut.scal (natW (popN 128 (i.a0.d.setWidth 128 &&& i.b.d.setWidth 128 : PData).toNat))

/-! ## Reductions and scans (R240, R241) -/

/-- An operation of a reduction or scan on two patterns, and its identity. -/
structure RedOp where
  op : Nat → Nat → Nat × Flags
  ident : Nat

/-- RoundFmt of a sum at a node; FZO acts at no node. -/
def redSum (w : FV) (vm : BitVec 2) : RedOp :=
  if isIntTy w.t then ⟨fun x y => (intRes w.t w.fzo (intVal w.t x + intVal w.t y), 0), 0⟩
  else
    let fm := tyFmt w.t
    ⟨fun x y =>
      let r := addF (w.rm vm) (unpack fm x) (unpack fm y)
      let o := roundFmt fm (w.rm vm) false r.1 false
      (o.1, r.2 ||| o.2), zeroPat fm true⟩
/-- fmax, or the integer maximum. -/
def redMax (w : FV) : RedOp :=
  if isIntTy w.t then
    ⟨fun x y => (wrapN (tyWidth w.t) (max (intVal w.t x) (intVal w.t y)), 0), wrapN (tyWidth w.t) (intMin w.t)⟩
  else
    let fm := tyFmt w.t
    ⟨fun x y => ((roundFmt fm 0 false (maxF (unpack fm x) (unpack fm y)) false).1, 0), infPat fm true⟩
def redMin (w : FV) : RedOp :=
  if isIntTy w.t then
    ⟨fun x y => (wrapN (tyWidth w.t) (min (intVal w.t x) (intVal w.t y)), 0), wrapN (tyWidth w.t) (intMax w.t)⟩
  else
    let fm := tyFmt w.t
    ⟨fun x y => ((roundFmt fm 0 false (minF (unpack fm x) (unpack fm y)) false).1, 0), infPat fm false⟩
def redAmax (w : FV) : RedOp :=
  let fm := tyFmt w.t
  ⟨fun x y => ((roundFmt fm 0 false (maxF (unpack fm x).abs (unpack fm y).abs) false).1, 0), 0⟩

/-- An input of a reduction: FZI on an active float element, the identity for an inactive one. -/
def redIn (i : VIn) (w : FV) (r : RedOp) : List Nat :=
  (List.range (elemCount i.pr w.t)).map fun k =>
    let n := i.ea w.t k
    if !predAt i.pr w.t i.gp k then r.ident
    else if !isIntTy w.t && w.fzi && isSub (tyFmt w.t) n then zeroPat (tyFmt w.t) (signOf (tyFmt w.t) n) else n

/-- One level of the tree: neighbours are combined. -/
def redLevel (op : Nat → Nat → Nat × Flags) (xs : List Nat) : List Nat × Flags :=
  match xs with
  | x :: y :: r => let q := op x y; let t := redLevel op r; (q.1 :: t.1, q.2 ||| t.2)
  | _ => (xs, 0)
/-- The tree, level by level. -/
def redTree (fuel : Nat) (op : Nat → Nat → Nat × Flags) (xs : List Nat) (f : Flags) : Nat × Flags :=
  match fuel, xs with
  | 0, _ => (xs.headD 0, f)
  | _, [x] => (x, f)
  | n + 1, _ => let r := redLevel op xs; redTree n op r.1 (f ||| r.2)

/-- FZO on a delivered pattern of a reduction or scan. -/
def fzoPat (w : FV) (n : Nat) : Nat × Flags :=
  if !isIntTy w.t && w.fzo && isSub (tyFmt w.t) n then (zeroPat (tyFmt w.t) (signOf (tyFmt w.t) n), flUF ||| flNX)
  else (n, 0)

def valRed (w : FV) (r : BitVec 2 → RedOp) : VIn → VOut := fun i =>
  let o := redTree 8 (r i.rm).op (redIn i w (r i.rm)) 0
  let z := fzoPat w o.1
  VOut.vec (BitVec.ofNat 1024 z.1) one32 (o.2 ||| z.2)
def valVredsum (w : FV) : VIn → VOut := valRed w (redSum w)
def valVredmax (w : FV) : VIn → VOut := valRed w fun _ => redMax w
def valVredmin (w : FV) : VIn → VOut := valRed w fun _ => redMin w
def valVredamax (w : FV) : VIn → VOut := valRed w fun _ => redAmax w

/-- One Kogge-Stone level of distance dist: all elements of a level at once (R241). Each element goes with the flags of every node that
has led to it. -/
def scanLevel (op : Nat → Nat → Nat × Flags) (dist : Nat) (xs : List (Nat × Flags)) : List (Nat × Flags) :=
  (List.range xs.length).map fun k =>
    let x := xs.getD k (0, 0)
    if k < dist then x
    else
      let y := xs.getD (k - dist) (0, 0)
      let z := op y.1 x.1
      (z.1, x.2 ||| y.2 ||| z.2)
/-- The levels of distance 2^j while 2^j < E. -/
def scanFrom (fuel j : Nat) (op : Nat → Nat → Nat × Flags) (xs : List (Nat × Flags)) : List (Nat × Flags) :=
  match fuel with
  | 0 => xs
  | n + 1 => if xs.length ≤ 2 ^ j then xs else scanFrom n (j + 1) op (scanLevel op (2 ^ j) xs)
/-- A delivered NaN is the canonical one, also in element 0, which no node combines (R175). -/
def canonPat (w : FV) (n : Nat) : Nat :=
  if !isIntTy w.t && (unpack (tyFmt w.t) n).isNaN then (roundFmt (tyFmt w.t) 0 false (unpack (tyFmt w.t) n) false).1 else n
/-- A scan: the active elements raise the flags of the nodes that lead to them, and no others (R180). -/
def valScanWith (w : FV) (r : BitVec 2 → RedOp) : VIn → VOut := fun i =>
  let o := scanFrom 8 0 (r i.rm).op ((redIn i w (r i.rm)).map fun n => (n, 0))
  vElem i w.t fun k =>
    let x := o.getD k (0, 0)
    let z := fzoPat w (canonPat w x.1)
    (z.1, x.2 ||| z.2)
def valVscan (w : FV) : VIn → VOut := valScanWith w (redSum w)
def valVscanmax (w : FV) : VIn → VOut := valScanWith w fun _ => redMax w

/-! ## The online-softmax combine (R245) -/

/-- Weight(x, m) of R245: the FP32 pattern and the flags of its rounding. -/
def smxWeight (x m : FVal) : Nat × Flags :=
  match x, m with
  | .inf true, _ => (0, 0)
  | .inf false, .inf false => (0x3F800000, 0)
  | _, .inf false => (0, 0)
  | _, _ =>
    match (addF 0 x m.negate).1 with
    | .fin s n e => if n = 0 then (0x3F800000, 0) else
        let r := expX s n e
        roundFmt f32 0 false r.1 r.2
    | _ => (0, 0)

/-- One row of vsmx: its four elements, its flags and whether it became NaN. -/
def smxRow (ma la mb lb : Nat) : List Nat × Flags × Bool :=
  let xa := unpack f32 ma
  let xb := unpack f32 mb
  let ya := unpack f32 la
  let yb := unpack f32 lb
  if xa.isNaN || ya.isNaN || xb.isNaN || yb.isNaN then (List.replicate 4 0x7FC00000, 0, true)
  else
    let m := maxF xa xb
    let wa := smxWeight xa m
    let wb := smxWeight xb m
    let ca : FVal := if wa.1 = 0 then .fin false 0 0 else (mulF (unpack f32 wa.1) ya).1
    let cb : FVal := if wb.1 = 0 then .fin false 0 0 else (mulF (unpack f32 wb.1) yb).1
    let mp := (roundFmt f32 0 false m false).1
    let sum := (addF 0 ca cb).1
    if sum.isNaN then ([mp, 0x7FC00000, wa.1, wb.1], wa.2 ||| wb.2, true)
    else
      let l := if sum.isZero then (0, 0) else roundFmt f32 0 false sum false
      ([mp, l.1, wa.1, wb.1], wa.2 ||| wb.2 ||| l.2, false)

def valVsmx (_ : FV) : VIn → VOut := fun i =>
  let rs := (List.range (elemCount i.pr 0 / 4)).map fun r =>
    smxRow (i.ea 0 (4 * r)) (i.ea 0 (4 * r + 1)) (i.eb 0 (4 * r)) (i.eb 0 (4 * r + 1))
  ⟨[⟨ofElems 32 (rs.flatMap (·.1)), one32⟩], 0, 0, rs.foldl (fun a r => a ||| r.2.1) 0, rs.any (·.2.2)⟩

/-! ## Meanings -/

/-- A V-format instruction of two vector sources (R223). -/
def issueV2 (w : FV) (lat : Nat) (val : VIn → VOut) (s : State) : Out :=
  issueVector w.g (.vec w.a 1) (.vec w.b 1) w.p false false (.vec w.d 1) w.t w.t w.x lat val s
/-- A V-format instruction of one vector source. -/
def issueV1 (w : FV) (lat : Nat) (val : VIn → VOut) (s : State) : Out :=
  issueVector w.g (.vec w.a 1) .none w.p false false (.vec w.d 1) w.t w.t w.x lat val s
/-- A V-format instruction that also reads D (R228). -/
def issueV3 (w : FV) (lat : Nat) (val : VIn → VOut) (s : State) : Out :=
  issueVector w.g (.vec w.a 1) (.vec w.b 1) w.p false true (.vec w.d 1) w.t w.t w.x lat val s
/-- A reduction: predication governs its inputs only (R240). -/
def issueRed (w : FV) (val : VIn → VOut) (s : State) : Out :=
  issueVector w.g (.vec w.a 1) .none false w.p false (.vec w.d 1) w.t w.t w.x 8 val s
/-- A VC-format instruction (R232, R233). -/
def issueVC (w : FVC) (b : VSrc) (val : VIn → VOut) (s : State) : Out :=
  issueVector w.g (.vec w.a 1) b w.p false false (.pred w.pd) w.t w.t w.x 2 val s

/-- R227. -/
def execVadd (w : FV) (s : State) : Out := issueV2 w 4 (valVadd w) s
/-- R227. -/
def execVsub (w : FV) (s : State) : Out := issueV2 w 4 (valVsub w) s
/-- R227. -/
def execVmul (w : FV) (s : State) : Out := issueV2 w 4 (valVmul w) s
/-- R228. -/
def execVfma (w : FV) (s : State) : Out := issueV3 w 4 (valVfma w) s
/-- R228. -/
def execVfnma (w : FV) (s : State) : Out := issueV3 w 4 (valVfnma w) s
/-- R227. -/
def execVdiv (w : FV) (s : State) : Out := issueV2 w 12 (valVdiv w) s
/-- R227. -/
def execVmin (w : FV) (s : State) : Out := issueV2 w 2 (valVmin w) s
/-- R227. -/
def execVmax (w : FV) (s : State) : Out := issueV2 w 2 (valVmax w) s
/-- R229. -/
def execVabs (w : FV) (s : State) : Out := issueV1 w 2 (valVabs w) s
/-- R229. -/
def execVneg (w : FV) (s : State) : Out := issueV1 w 2 (valVneg w) s
/-- R230. -/
def execVsqrt (w : FV) (s : State) : Out := issueV1 w 12 (valVsqrt w) s
/-- R230. -/
def execVrsqrt (w : FV) (s : State) : Out := issueV1 w 8 (valVrsqrt w) s
/-- R230. -/
def execVrcp (w : FV) (s : State) : Out := issueV1 w 8 (valVrcp w) s
/-- R230. -/
def execVexp2 (w : FV) (s : State) : Out := issueV1 w 8 (valVexp2 w) s
/-- R230. -/
def execVlog2 (w : FV) (s : State) : Out := issueV1 w 8 (valVlog2 w) s
/-- R230. -/
def execVexp (w : FV) (s : State) : Out := issueV1 w 10 (valVexp w) s
/-- R230. -/
def execVtanh (w : FV) (s : State) : Out := issueV1 w 10 (valVtanh w) s
/-- R230. -/
def execVsigm (w : FV) (s : State) : Out := issueV1 w 10 (valVsigm w) s
/-- R230. -/
def execVsilu (w : FV) (s : State) : Out := issueV1 w 10 (valVsilu w) s
/-- R231. -/
def execVand (w : FV) (s : State) : Out := issueV2 w 2 (valVand w) s
/-- R231. -/
def execVor (w : FV) (s : State) : Out := issueV2 w 2 (valVor w) s
/-- R231. -/
def execVxor (w : FV) (s : State) : Out := issueV2 w 2 (valVxor w) s
/-- R231. -/
def execVshl (w : FV) (s : State) : Out := issueV2 w 2 (valVshl w) s
/-- R231. -/
def execVshr (w : FV) (s : State) : Out := issueV2 w 2 (valVshr w) s
/-- R232. -/
def execVcmp (w : FVC) (s : State) : Out := issueVC w (.vec w.b 1) (valVcmp w) s
/-- R233. -/
def execVclass (w : FVC) (s : State) : Out := issueVC w .none (valVclass w) s
/-- R234: the governing predicate is the selector, and every element is written. -/
def execVsel (w : FV) (s : State) : Out :=
  issueVector w.g (.vec w.a 1) (.vec w.b 1) false true false (.vec w.d 1) w.t w.t w.x 2 (valVsel w) s
/-- R235. -/
def execVplog (w : FVP) (s : State) : Out :=
  issueVector w.g (.preg w.pa) (.preg w.pb) false false false (.pred w.pd) 0 0 [] 1 (valVplog w) s
/-- R235. -/
def execVpcnt (w : FVP) (s : State) : Out :=
  issueVector w.g (.preg w.pa) (.preg w.pb) false false false (.scal w.sd) 0 0 [] 3 (valVpcnt w) s
/-- R240. -/
def execVredsum (w : FV) (s : State) : Out := issueRed w (valVredsum w) s
/-- R240. -/
def execVredmax (w : FV) (s : State) : Out := issueRed w (valVredmax w) s
/-- R240. -/
def execVredmin (w : FV) (s : State) : Out := issueRed w (valVredmin w) s
/-- R240. -/
def execVredamax (w : FV) (s : State) : Out := issueRed w (valVredamax w) s
/-- R241. -/
def execVscan (w : FV) (s : State) : Out := issueV1 w 10 (valVscan w) s
/-- R241. -/
def execVscanmax (w : FV) (s : State) : Out := issueV1 w 10 (valVscanmax w) s
/-- R245. -/
def execVsmx (w : FV) (s : State) : Out := issueV2 w 12 (valVsmx w) s

end Sys2Proof.Machine
end

