-- ==== Sys2Proof/Machine/VectorMove.lean ====
section
/-! DEFINITION. The V stream's conversions, scales, element moves and control tokens (R236 to R239, R242, R243, R246). -/

namespace Sys2Proof

/-- The rounding mode of a conversion: its modifier word, or VMODE (R106, R178). -/
def FVK.rm (w : FVK) (vm : BitVec 2) : BitVec 2 := Machine.vRm w.a 0 w.x vm

end Sys2Proof

namespace Sys2Proof.Machine

/-! ## Conversions (R236 to R238) -/

/-- The value of a source element of a conversion: an integer, a float, or an e4m3 element times the sidecar (R185). -/
def cvtIn (w : FVK) (sc : W32) (n : Nat) : FVal × Flags :=
  if isIntTy w.s then (ofInt (intVal w.s n), 0)
  else
    let x := unpackZ (tyFmt w.s) w.fzi n
    if w.s = 3 then mulF x (val32 sc) else (x, 0)
/-- Convert of R236. -/
def cvtElem (w : FVK) (vm : BitVec 2) (sc : W32) (n : Nat) : Nat × Flags :=
  let x := cvtIn w sc n
  if isIntTy w.t then
    if isIntTy w.s then (intRes w.t w.fzo (intVal w.s n), 0)
    else
      let r := toIntSat (w.rm vm) (intMin w.t) (intMax w.t) x.1
      (wrapN (tyWidth w.t) r.1, x.2 ||| r.2)
  else
    let r := roundTo (tyFmt w.t) (w.rm vm) w.fzo x.1 false
    (r.1, x.2 ||| r.2)
def valVcvt (w : FVK) : VIn → VOut := fun i =>
  let n := min (elemCount i.pr w.s) (elemCount i.pr w.t)
  let r := mergeElems { i with d := ⟨ofElems (tyWidth w.t) ((List.range n).map fun k => i.ed w.t k), one32⟩ } w.t fun k =>
    if k < n then cvtElem w i.rm i.a0.sc (i.ea w.s k) else (0, 0)
  VOut.vec r.1 one32 r.2

/-- The elements of a group, in order (R237). -/
def groupElems (i : VIn) (t : BitVec 3) : List Nat := i.a.flatMap fun v => elemsOf i.pr t v.d
/-- The greatest finite magnitude among values, or +0 (R237). -/
def amaxFin (vs : List FVal) : FVal :=
  vs.foldl (fun a v => match v with
    | .fin _ m e => if cmpF a (.fin false m e) == .lt then .fin false m e else a
    | _ => a) (.fin false 0 0)
/-- RoundF32(a / 448, RNE), and whether the group is zero (R237): then the scale is 1.0. -/
def quantScale (a : FVal) : W32 × Bool :=
  let q := divF a (.fin false 448 0)
  let s := rne32s q.1
  if a.isZero || s = 0 then (one32, true) else (s, false)
def valVquant (w : FVK) : VIn → VOut := fun i =>
  let xs := (groupElems i w.s).map (unpackZ (tyFmt w.s) w.fzi)
  let sc := quantScale (amaxFin xs)
  let rs := xs.map fun x => match x with
    | .fin _ _ _ => if sc.2 then (0, 0) else
        let q := divF x (val32 sc.1)
        satE4M3 (w.rm i.rm) w.fzo q.1.1 q.1.2
    | _ => satE4M3 (w.rm i.rm) w.fzo x false
  VOut.vec (ofElems 8 (rs.map (·.1))) sc.1 (rs.foldl (fun a r => a ||| r.2) 0)

def valVdequant (w : FVK) : VIn → VOut := fun i =>
  let e := elemCount i.pr w.t
  let rs := (elemsOf i.pr 3 i.a0.d).map fun n =>
    let p := mulF (unpackZ e4m3 w.fzi n) (val32 i.a0.sc)
    let r := roundFmt (tyFmt w.t) (w.rm i.rm) w.fzo p.1 false
    (r.1, p.2 ||| r.2)
  ⟨(List.range (groupOf w.t)).map fun j =>
      ⟨ofElems (tyWidth w.t) (((rs.map (·.1)).drop (j * e)).take e), one32⟩, 0, 0, rs.foldl (fun a r => a ||| r.2) 0, false⟩

/-- R236: the predicate is read for the element count of T. -/
def execVcvt (w : FVK) (s : State) : Out :=
  issueVector w.g (.vec w.a 1) .none w.p false false (.vec w.d 1) w.t w.s w.x 4 (valVcvt w) s
/-- R237. -/
def execVquant (w : FVK) (s : State) : Out :=
  issueVector w.g (.vec w.a (groupOf w.s)) .none false false false (.vec w.d 1) w.t w.s w.x 8 (valVquant w) s
/-- R238. -/
def execVdequant (w : FVK) (s : State) : Out :=
  issueVector w.g (.vec w.a 1) .none false false false (.vec w.d (groupOf w.t)) w.t w.s w.x 4 (valVdequant w) s

/-! ## Sidecars (R239) -/

def valVsetsc (_ : FV) : VIn → VOut := fun i => VOut.vec 0 (i.b.d.setWidth 32) 0
def valVgetsc (_ : FV) : VIn → VOut := fun i => VOut.scal (i.a0.sc.setWidth 64)
/-- R239. -/
def execVsetsc (w : FV) (s : State) : Out :=
  issueVector w.g .none (.sreg w.b) false false false (.side w.d) w.t w.t w.x 2 (valVsetsc w) s
/-- R239. -/
def execVgetsc (w : FV) (s : State) : Out :=
  issueVector w.g (.vec w.a 1) .none false false false (.scal w.d) w.t w.t w.x 3 (valVgetsc w) s

/-! ## Moving elements (R242, R243) -/

/-- A move: element k of the result is the pattern that f gives; the sidecar is A's (R222). -/
def valMove (w : FV) (f : VIn → Nat → Nat) : VIn → VOut := fun i => (vElem i w.t fun k => (f i k, 0)).withScOf i
def valVperm (w : FV) : VIn → VOut := valMove w fun i k => i.ea w.t (i.eb w.t k % elemCount i.pr w.t)
def valVzip (w : FV) : VIn → VOut := valMove w fun i k => if k % 2 = 0 then i.ea w.t (k / 2) else i.eb w.t (k / 2)
def valVunzip (w : FV) : VIn → VOut := valMove w fun i k =>
  let h := elemCount i.pr w.t / 2
  if k < h then i.ea w.t (2 * k) else i.eb w.t (2 * (k - h))
def valVmov (w : FV) : VIn → VOut := valMove w fun i k => i.ea w.t k
def valViota (w : FV) : VIn → VOut := fun i => vElem i w.t fun k => (k, 0)

/-- A scalar index modulo the element count (R243). -/
def ixOf (i : VIn) (t : BitVec 3) (v : VReg) : Nat := v.scalar.toNat % elemCount i.pr t
def valVbcast (w : FV) : VIn → VOut := valMove w fun i _ => i.ea w.t (ixOf i w.t i.b)
def valVins (w : FV) : VIn → VOut := fun i =>
  VOut.vec (ofElems (tyWidth w.t) ((List.range (elemCount i.pr w.t)).map fun k =>
    if k = ixOf i w.t i.a0 then i.b.scalar.toNat else i.ed w.t k)) i.d.sc 0
def valVext (w : FV) : VIn → VOut := fun i =>
  let n := i.ea w.t (ixOf i w.t i.b)
  VOut.scal (if isIntTy w.t && w.t != 5 then toW (sextN (tyWidth w.t) n) else natW n)

/-- R242. -/
def execVperm (w : FV) (s : State) : Out := issueV2 w 4 (valVperm w) s
/-- R242. -/
def execVzip (w : FV) (s : State) : Out := issueV2 w 4 (valVzip w) s
/-- R242. -/
def execVunzip (w : FV) (s : State) : Out := issueV2 w 4 (valVunzip w) s
/-- R242. -/
def execVmov (w : FV) (s : State) : Out := issueV1 w 2 (valVmov w) s
/-- R242. -/
def execViota (w : FV) (s : State) : Out := issueV1 w 2 (valViota w) s
/-- R243. -/
def execVbcast (w : FV) (s : State) : Out :=
  issueVector w.g (.vec w.a 1) (.sreg w.b) false false false (.vec w.d 1) w.t w.t w.x 2 (valVbcast w) s
/-- R243. -/
def execVins (w : FV) (s : State) : Out :=
  issueVector w.g (.sreg w.a) (.sreg w.b) false false true (.vec w.d 1) w.t w.t w.x 2 (valVins w) s
/-- R243. -/
def execVext (w : FV) (s : State) : Out :=
  issueVector w.g (.vec w.a 1) (.sreg w.b) false false false (.scal w.d) w.t w.t w.x 3 (valVext w) s

/-! ## Control tokens (R246) -/

/-- TAKE over all 128 bits: any, all, none, first. -/
def valVtok (w : FVT) : VIn → VOut := fun i =>
  let q : PData := i.a0.d.setWidth 128
  VOut.scal (boolW (match w.mode.toNat with
    | 0 => q != 0
    | 1 => q == BitVec.allOnes 128
    | 2 => q == 0
    | _ => q.getLsbD 0))
/-- The line at a signed offset in lines from a line (R97, R138). -/
def lineAt (line : W64) (off : Int) : W64 := line + toW (32 * off)
/-- R246. -/
def execVtok (w : FVT) (s : State) : Out :=
  issueVector w.g (.preg w.p) .none false false false (.tok (lineAt s.cur.line w.e.toInt)) 0 0 [] 2 (valVtok w) s

end Sys2Proof.Machine
end

