-- ==== Sys2Proof/Machine/Control.lean ====
section
/-! DEFINITION. The C stream: branches, loops, waits, fences, barriers, modes, hints and the end of an iteration (R128 to
R153). C instructions execute in the sequencer, in line order; they wait for the registers they use (R122). -/

namespace Sys2Proof.Machine

/-! ## Registers and transfers -/

/-- Before a C instruction reads registers, every earlier write of them has been performed (R122). -/
def cReads (s : State) (rs : List (BitVec 6)) (k : Out) : Out :=
  if rs.any fun r => sWritePending s.cx s.cycle r.toNat then .next s.block else k
/-- Before it writes a register, every earlier reader and writer has issued and written (R122). -/
def cWrites (s : State) (r : BitVec 6) (k : Out) : Out :=
  if sUsePending s.cx s.cycle r.toNat then .next s.block else k

/-- The line after the executing instruction's line. -/
def State.nextLine (s : State) : W64 := s.cur.line + 32
/-- A transfer is taken at the end of the line (R95). -/
def Ctx.goto (c : Ctx) (t : W64) : Ctx := { c with nxt := some t }
/-- What R139 finds wrong with a target. -/
def targetCause (t : W64) : Option Nat :=
  if t.toNat % 32 ≠ 0 then some tcAlign else if 2 ^ 57 ≤ t.toNat then some tcWindow else none
/-- Take a transfer to a target, with an effect on the context, or trap precisely with no effect (R139). -/
def transfer (s : State) (t : W64) (f : Ctx → Ctx) : Out :=
  match targetCause t with
  | some c => .next (trapAt s .c c t 0)
  | none => .next { s with cx := (f s.cx).goto t }

/-- R153. -/
def execNop (_ : FZ) (s : State) : Out := .next s
/-- R138. -/
def execBr (w : FJ) (s : State) : Out := gated w.g s fun s => transfer s (lineAt s.cur.line w.off.toInt) id
/-- R138: s63 gets the line after the call's. -/
def execCall (w : FJ) (s : State) : Out :=
  gated w.g s fun s => cWrites s 63 (transfer s (lineAt s.cur.line w.off.toInt) fun c => c.ws 63 s.nextLine)
/-- R138: s[a] is read before s[d] is written. -/
def execCallr (w : FR) (s : State) : Out :=
  gated w.g s fun s => cReads s [w.a] (cWrites s w.d (transfer s (s.cx.rs w.a.toNat) fun c => c.ws w.d.toNat s.nextLine))
/-- R138. -/
def execRet (w : FZ) (s : State) : Out := gated w.g s fun s => cReads s [63] (transfer s (s.cx.rs 63) id)
/-- R138. -/
def execBrr (w : FR) (s : State) : Out := gated w.g s fun s => cReads s [w.a] (transfer s (s.cx.rs w.a.toNat) id)
/-- The conditions of bc (R103): EQZ, NEZ, LTZ, GEZ, LEZ, GTZ. -/
def bcHolds (cc : Nat) (x : W64) : Bool :=
  match cc with
  | 0 => x.toInt == 0
  | 1 => x.toInt != 0
  | 2 => x.toInt < 0
  | 3 => 0 ≤ x.toInt
  | 4 => x.toInt ≤ 0
  | _ => 0 < x.toInt
/-- R138. -/
def execBc (w : FBC) (s : State) : Out :=
  gated w.g s fun s => cReads s [w.a]
    (if bcHolds w.cc.toNat (s.cx.rs w.a.toNat) then transfer s (lineAt s.cur.line w.off.toInt) id else .next s)
/-- R138. -/
def execBcr (w : FBR2) (s : State) : Out :=
  gated w.g s fun s => cReads s [w.a, w.b]
    (if cmpHolds w.cc.toNat (s.cx.rs w.a.toNat) (s.cx.rs w.b.toNat) then transfer s (lineAt s.cur.line w.off.toInt) id
     else .next s)

/-! ## Loops -/

/-- An illegal-loop trap (R135). -/
def loopTrap (s : State) : Out := .next (trapAt s .c tcLoop 0 0)
/-- Push a loop level of count s[a] with its bindings, or skip the body (R128, R133). -/
def pushLoop (w : FL) (s : State) : Out :=
  gated w.g s fun s => cReads s [w.a]
    (let c := s.cx.rs w.a.toNat
     let e := w.x.headD 0
     if c.toNat / 2 ^ 32 ≠ 0 then loopTrap s
     else if c = 0 then .next { s with cx := { s.cx with skip := some 0 } }
     else if 6 ≤ s.cx.depth then .next (trapAt s .c tcLoopStack 0 0)
     else .next { s with cx := { s.cx.setLevel s.cx.depth
       ⟨c.setWidth 32, 0, s.nextLine, w.n, w.bx, w.by', e.setWidth 16, e.extractLsb' 16 16⟩ with
       depth := s.cx.depth + 1 } })
/-- R128, without bindings. -/
def execLoop (w : FL) (s : State) : Out := pushLoop w s
/-- R128, with one or two stride-bound registers. -/
def execLoopBound (w : FL) (s : State) : Out := pushLoop w s

/-- The innermost level. -/
def Ctx.inner (c : Ctx) : Loop := c.level (c.depth - 1)
/-- The hint stands on the innermost level (R148, R149). -/
def Ctx.hintHere (c : Ctx) : Bool := c.hint.v && c.hint.lev == c.depth - 1 && c.depth != 0
/-- A yield or a priority change is pending at a pre-emption boundary: no further line is delivered (R149). -/
def Ctx.atYield (c : Ctx) : Ctx := if c.yieldReq || c.prioReq then { c with mode := .boundary } else c
/-- Add a stride to a bound register (R129). -/
def Ctx.stride (c : Ctx) (r : BitVec 6) (st : BitVec 16) : Ctx := c.ws r.toNat (c.rs r.toNat + st.signExtend 64)
/-- The strides, the rotation and the index of an iteration end, and the line that follows; `exit` is the line after the
last iteration (R129). -/
def iterEnd (c : Ctx) (exit : W64) : Ctx × W64 :=
  let l := c.inner
  let c1 := if l.n != 0 then c.stride l.x l.stx else c
  let c2 := if l.n = 2 then c1.stride l.y l.sty else c1
  let c3 := if c.khd.rot then { c2.ageRotating with rrb := c2.rrb - 1 } else c2
  let i := l.idx + 1
  if i.toNat < l.cnt.toNat then (c3.setLevel (c.depth - 1) { l with idx := i }, l.body)
  else
    ({ c3.setLevel (c.depth - 1) { l with idx := i } with depth := c.depth - 1 }, exit)
/-- The hint of a context whose level has been popped is gone (R129, R148). -/
def Ctx.clearHint (c : Ctx) : Ctx := if c.hint.lev != 7 && c.depth ≤ c.hint.lev then { c with hint := Hint.none } else c
/-- An iteration end of the innermost level (R129): a recorded trap is taken first (R392); the next line must be a legal
target (R139); the bound registers are written under R122. The hint of a popped level stands until a boundary that is pending has
passed. When the instruction falls through after the last iteration, as lend does, the next line is the next in memory: past a LAST
line there is none (R96), and its trap comes before the boundary. -/
def closeIter (s : State) (exit : W64) (falls : Bool) : Out :=
  atBoundary s fun s =>
    let l := s.cx.inner
    let last : Bool := !((l.idx + 1).toNat < l.cnt.toNat)
    match (if last && !falls then targetCause exit else none) with
    | some c => .next (trapAt s .c c exit 0)
    | none =>
      if (l.n != 0 && sUsePending s.cx s.cycle l.x.toNat) || (l.n = 2 && sUsePending s.cx s.cycle l.y.toNat) then .next s.block
      else
        let here := s.cx.hintHere && !(last && falls && s.cx.last)
        let r := iterEnd s.cx exit
        let c1 := if here then r.1.atYield else r.1
        let c2 := if c1.mode = .boundary then c1 else c1.clearHint
        .next { s with cx := if last && falls then c2 else c2.goto r.2 }
/-- R130. -/
def execLend (w : FJ) (s : State) : Out :=
  gated w.g s fun s =>
    if s.cx.depth = 0 || lineAt s.cur.line w.off.toInt != s.cx.inner.body then loopTrap s else closeIter s s.nextLine true
/-- R131. -/
def execLcont (w : FJ) (s : State) : Out :=
  gated w.g s fun s => if s.cx.depth = 0 then loopTrap s else closeIter s (lineAt s.cur.line w.off.toInt) false
/-- R132. -/
def execLbrk (w : FJ) (s : State) : Out :=
  gated w.g s fun s =>
    if s.cx.depth = 0 then loopTrap s
    else transfer s (lineAt s.cur.line w.off.toInt) fun c =>
      { c with depth := c.depth - 1, hint := if c.hintHere then Hint.none else c.hint }
/-- R134. -/
def execLrd (w : FR) (s : State) : Out :=
  gated w.g s fun s =>
    let k := if w.a = 7 then s.cx.depth - 1 else w.a.toNat
    if s.cx.depth ≤ k then loopTrap s
    else cWrites s w.d
      (let l := s.cx.level k
       let v := match w.b.toNat with
         | 0 => l.idx.toNat
         | 1 => l.cnt.toNat
         | _ => l.cnt.toNat - l.idx.toNat - 1
       .next { s with cx := s.cx.ws w.d.toNat (natW v) })

/-! ## Tokens, waits and fences -/

/-- R141: the oldest token is consumed, also when its target traps. -/
def execBtok (w : FZ) (s : State) : Out :=
  gated w.g s fun s =>
    match s.cx.tokens with
    | [] => .next s.block
    | t :: r =>
      let s1 := { s with cx := { s.cx with tokens := r } }
      if t.take then transfer s1 t.target id else .next s1
/-- R143. -/
def execWait (w : FW) (s : State) : Out :=
  gated w.g s fun s => atBoundary s fun s => if waitMet s.cx w then .next s else .next s.block
/-- R144: every access of the named classes of its own and earlier lines is performed at the scope, 4 being the fabric, before a later
line is delivered. -/
def execFence (w : FF) (s : State) : Out :=
  gated w.g s fun s => atBoundary s fun s =>
    if pendingClasses s (w.scope = 4) (s.cur.seq / 8 * 8 + 8) &&& w.cls != 0 then .next s.block else .next s

/-! ## Barriers (R145, R146, R333) -/

/-- The arrivals that the context has made at a scope and id. -/
def arrivalsAt (c : Ctx) (scope id : Nat) : Nat :=
  match c.arrivals.find? fun a => a.1 == scope && a.2.1 == id with
  | some a => a.2.2
  | none => 0
/-- Arrive: the context's next phase at the barrier becomes its outstanding one; `mark` is 0 for barv, else one more than
the place of the bar or sstep that arrives. -/
def arrive (s : State) (scope id mark : Nat) : State :=
  let n := arrivalsAt s.cx scope id + 1
  let g := groupKey s.cx.id scope
  { s with
    cx := { s.cx with
      arrivals := (scope, id, n) :: s.cx.arrivals.filter fun a => !(a.1 == scope && a.2.1 == id)
      outBars := ⟨scope, id, n, mark⟩ :: s.cx.outBars.filter fun o => !(o.scope == scope && o.id == id) }
    bars := if s.bars.any fun b => b.nid == s.cx.it.nid && b.scope == scope && b.id == id && b.group == g then s.bars
            else s.bars ++ [⟨s.cx.it.nid, scope, id, g, 0⟩] }
/-- The arrival of barv: an outstanding arrival's phase first completes, and every earlier operation is performed. -/
def barArrive (s : State) (scope id mark : Nat) (k : State → Out) : Out :=
  if (outOf s.cx scope id).any (fun o => !phaseMet s s.cx o) || !released s false (s.cur.seq / 8 * 8 + 8) then .next s.block
  else k (arrive s scope id mark)
/-- The wait of barw. -/
def barWait (s : State) (scope id : Nat) : Out :=
  match outOf s.cx scope id with
  | none => .next s
  | some o =>
    if phaseMet s s.cx o then
      .next { s with cx := { s.cx with outBars := s.cx.outBars.filter fun o => !(o.scope == scope && o.id == id) } }
    else .next s.block
/-- The instruction stays at the head of the C queue with what it has done so far. -/
def requeueC (s : State) : Out := .next { s with cx := { s.cx with cq := s.cur :: s.cx.cq } }
/-- barv, then barw: the arrival that this instruction has made is the one it waits for. -/
def barBoth (s : State) (scope id : Nat) : Out :=
  if (outOf s.cx scope id).any fun o => o.by' == s.cur.seq + 1 then barWait s scope id
  else barArrive s scope id (s.cur.seq + 1) requeueC
/-- R145. -/
def execBar (w : FF) (s : State) : Out :=
  gated w.g s fun s => atBoundary s fun s => barBoth s w.scope.toNat w.id.toNat
/-- R145. -/
def execBarv (w : FF) (s : State) : Out :=
  gated w.g s fun s => atBoundary s fun s => barArrive s w.scope.toNat w.id.toNat 0 .next
/-- R145. -/
def execBarw (w : FF) (s : State) : Out :=
  gated w.g s fun s => atBoundary s fun s => barWait s w.scope.toNat w.id.toNat
/-- R146. -/
def execSstep (w : FF) (s : State) : Out :=
  gated w.g s fun s => atBoundary s fun s =>
    if s.cx.ncx ≠ 0 then .next s.block else barBoth s w.scope.toNat w.id.toNat

/-! ## Modes and hints -/

/-- S, V and M instructions of earlier lines have written their results (R181). -/
def earlierWritten (c : Ctx) (lineSeq : Nat) : Bool :=
  let early (n : Nat) : Bool := n / 8 < lineSeq
  !((c.sq ++ c.vq ++ c.mq).any (fun e => early e.seq) || c.inflight.any (fun f => early f.seq)
    || c.mfly.any (fun m => early m.e.seq) || (match c.gacc with | some g => early g.seq | none => false))
/-- R147, R181. -/
def execSetm (w : FK) (s : State) : Out :=
  gated w.g s fun s =>
    if w.num = 4 && !earlierWritten s.cx (s.cur.seq / 8) then .next s.block
    else cReads s [w.a] (cWrites s w.d
      (match crWrite s.cx w.num.toNat (s.cx.rs w.a.toNat) with
       | none => loopTrap s
       | some c => .next { s with cx := c.ws w.d.toNat (crRead s.cx w.num.toNat) }))
/-- R148. -/
def execPhint (w : FPH) (s : State) : Out :=
  gated w.g s fun s =>
    let lev := if s.cx.depth = 0 then 7 else s.cx.depth - 1
    .next { s with cx := { s.cx with hint :=
      ⟨true, lev, w.e1, w.e2.setWidth 16, w.e2.extractLsb' 16 16, w.sr⟩ } }
/-- R150: at the end of its line, when every other slot of it has acted, a pre-emption boundary (R149) if a hint is in force. -/
def execCede (w : FZ) (s : State) : Out :=
  gated w.g s fun s => if s.cx.hint.v then atBoundary s fun s => .next { s with cx := s.cx.atYield } else .next s

/-- Re-issue captured operations (R404 step 6): T0 is the earliest delivery of the saved line for which no re-issue lies
in the past; each lands at T0 plus its remaining cycles, raises no trap and sets only flags that are set. -/
def reissue (c : Ctx) (now : Nat) (ops : List Captured) : Ctx :=
  let t0 := now + 1 + ops.foldl (fun m o => max m (o.f.due - o.f.issued - o.rest)) 0
  { c with
    inflight := c.inflight ++ ops.map fun o =>
      { o.f with issued := t0 - (o.f.due - o.f.issued - o.rest), due := t0 + o.rest, flags := o.f.flags &&& c.flg, ten := 0,
                 smx := o.f.smx && c.smxnan }
    nextIss := c.nextIss.setIfInBounds 0 t0 }
/-- R151. -/
def execResume (w : FZ) (s : State) : Out :=
  gated w.g s fun s =>
    match s.cx.resume with
    | none => .next (trapAt s .c tcInstr 0 0)
    | some r => .next { s with cx := { (reissue s.cx s.cycle r.ops).goto r.pc with resume := none } }

/-- Everything that R152 step 1 waits for is done. -/
def exitReady (c : Ctx) : Bool :=
  c.sq == [] && c.vq == [] && c.mq == [] && c.xq == [] && c.aq == [] && c.yq == [] && c.inflight == [] && c.gacc.isNone
    && c.ncl == 0 && c.ncs == 0 && c.ncx == 0 && c.ncm == 0 && c.accs == [] && c.yfly.isNone
/-- R152. -/
def execExit (w : FZ) (s : State) : Out :=
  gated w.g s fun s => atBoundary s fun s => if exitReady s.cx then .next (endContext s) else .next s.block

end Sys2Proof.Machine
end

