-- ==== Sys2Proof/Machine/Reissue.lean ====
section
/-! DEFINITION. Captured operations (R401, R403, R404): which results a save captures, and their recomputation from the captured
words and operands. -/

namespace Sys2Proof.Machine

/-! ## The operations that can be captured -/

/-- The latency of an S instruction and what it computes. -/
def sOp (i : Instr) : Option (Nat × SVal) :=
  match i with
| .add _ => some (1, valAdd)
  | .sub _ => some (1, valSub)
  | .mul _ => some (3, valMul)
  | .mulh _ => some (4, valMulh)
  | .mulhu _ => some (4, valMulhu)
  | .div _ => some (24, valDiv)
  | .divu _ => some (24, valDivu)
  | .rem _ => some (24, valRem)
  | .remu _ => some (24, valRemu)
  | .and _ => some (1, valAnd)
  | .or _ => some (1, valOr)
  | .xor _ => some (1, valXor)
  | .sll _ => some (1, valSll)
  | .srl _ => some (1, valSrl)
  | .sra _ => some (1, valSra)
  | .min _ => some (1, valMin)
  | .max _ => some (1, valMax)
  | .minu _ => some (1, valMinu)
  | .maxu _ => some (1, valMaxu)
  | .cmp w => some (1, valCmp w)
  | .sel _ => some (1, valSel)
  | .popc _ => some (1, valPopc)
  | .clz _ => some (1, valClz)
  | .ctz _ => some (1, valCtz)
  | .ppopc _ => some (2, valPpopc)
  | .dep w => some (1, valDep w)
  | .ext w => some (1, valExt w)
  | .exts w => some (1, valExts w)
  | .addi w => some (1, valAddi w)
  | .andi w => some (1, valAndi w)
  | .ori w => some (1, valOri w)
  | .xori w => some (1, valXori w)
  | .slli w => some (1, valSlli w)
  | .srli w => some (1, valSrli w)
  | .srai w => some (1, valSrai w)
  | .fadd w => some (4, valFadd w)
  | .fsub w => some (4, valFsub w)
  | .fmul w => some (4, valFmul w)
  | .fdiv w => some (16, valFdiv w)
  | .fma w => some (4, valFma w)
  | .fmin w => some (4, valFmin w)
  | .fmax w => some (4, valFmax w)
  | .fcmp w => some (2, valFcmp w)
  | .fcvt w => some (3, valFcvt w)
  | _ => none

/-- The destination form of a V instruction, its latency and what it computes. -/
def vOp (i : Instr) : Option (VDst × Nat × (VIn → VOut)) :=
  match i with
  | .vadd w => some (.vec w.d 1, 4, valVadd w)
  | .vsub w => some (.vec w.d 1, 4, valVsub w)
  | .vmul w => some (.vec w.d 1, 4, valVmul w)
  | .vfma w => some (.vec w.d 1, 4, valVfma w)
  | .vfnma w => some (.vec w.d 1, 4, valVfnma w)
  | .vdiv w => some (.vec w.d 1, 12, valVdiv w)
  | .vmin w => some (.vec w.d 1, 2, valVmin w)
  | .vmax w => some (.vec w.d 1, 2, valVmax w)
  | .vabs w => some (.vec w.d 1, 2, valVabs w)
  | .vneg w => some (.vec w.d 1, 2, valVneg w)
  | .vsqrt w => some (.vec w.d 1, 12, valVsqrt w)
  | .vrsqrt w => some (.vec w.d 1, 8, valVrsqrt w)
  | .vrcp w => some (.vec w.d 1, 8, valVrcp w)
  | .vexp2 w => some (.vec w.d 1, 8, valVexp2 w)
  | .vlog2 w => some (.vec w.d 1, 8, valVlog2 w)
  | .vexp w => some (.vec w.d 1, 10, valVexp w)
  | .vtanh w => some (.vec w.d 1, 10, valVtanh w)
  | .vsigm w => some (.vec w.d 1, 10, valVsigm w)
  | .vsilu w => some (.vec w.d 1, 10, valVsilu w)
  | .vand w => some (.vec w.d 1, 2, valVand w)
  | .vor w => some (.vec w.d 1, 2, valVor w)
  | .vxor w => some (.vec w.d 1, 2, valVxor w)
  | .vshl w => some (.vec w.d 1, 2, valVshl w)
  | .vshr w => some (.vec w.d 1, 2, valVshr w)
  | .vcmp w => some (.pred w.pd, 2, valVcmp w)
  | .vclass w => some (.pred w.pd, 2, valVclass w)
  | .vsel w => some (.vec w.d 1, 2, valVsel w)
  | .vplog w => some (.pred w.pd, 1, valVplog w)
  | .vpcnt w => some (.scal w.sd, 3, valVpcnt w)
  | .vredsum w => some (.vec w.d 1, 8, valVredsum w)
  | .vredmax w => some (.vec w.d 1, 8, valVredmax w)
  | .vredmin w => some (.vec w.d 1, 8, valVredmin w)
  | .vredamax w => some (.vec w.d 1, 8, valVredamax w)
  | .vscan w => some (.vec w.d 1, 10, valVscan w)
  | .vscanmax w => some (.vec w.d 1, 10, valVscanmax w)
  | .vsmx w => some (.vec w.d 1, 12, valVsmx w)
  | .vcvt w => some (.vec w.d 1, 4, valVcvt w)
  | .vquant w => some (.vec w.d 1, 8, valVquant w)
  | .vdequant w => some (.vec w.d (groupOf w.t), 4, valVdequant w)
  | .vsetsc w => some (.side w.d, 2, valVsetsc w)
  | .vgetsc w => some (.scal w.d, 3, valVgetsc w)
  | .vperm w => some (.vec w.d 1, 4, valVperm w)
  | .vzip w => some (.vec w.d 1, 4, valVzip w)
  | .vunzip w => some (.vec w.d 1, 4, valVunzip w)
  | .vmov w => some (.vec w.d 1, 2, valVmov w)
  | .viota w => some (.vec w.d 1, 2, valViota w)
  | .vbcast w => some (.vec w.d 1, 2, valVbcast w)
  | .vins w => some (.vec w.d 1, 2, valVins w)
  | .vext w => some (.scal w.d, 3, valVext w)
  | .vtok w => some (.tok 0, 2, valVtok w)
  | _ => none

/-! ## Capture (R401 step 1) -/

/-- The results whose landing lies after cycle b. -/
def capturedAt (c : Ctx) (b : Nat) : List InFlight := c.inflight.filter fun f => b < f.due
/-- B: the first cycle from b on after which at most 16 results are still to land (R401). -/
def captureCycle (c : Ctx) (b : Nat) : Nat :=
  ((List.range 64).find? fun k => (capturedAt c (b + k)).length ≤ 16).elim (b + 64) (b + ·)
/-- Capture from cycle b on: the operations, in issue order, with the cycles that they are from landing. -/
def capture (c : Ctx) (b : Nat) : List Captured :=
  let b' := captureCycle c b
  (capturedAt c b').map fun f => ⟨f, f.due - b'⟩

/-! ## Recomputation (R404 step 6) -/

/-- A captured operation as the save area holds it (R403). -/
structure Capture where
  word : W32
  e1 : W32
  e2 : W32
  rest : Nat
  code : Nat
  dst : Nat
  rm : BitVec 2
  gp : PData
  a : VReg
  b : VReg
  d : VReg
deriving DecidableEq, Repr

/-- The physical destination of a result as one byte (R403): a register number, or 0x30 plus a store port. -/
def Res.byte (r : Res) : Nat :=
  match r with
  | .none => 0
  | .s r _ => r
  | .v r _ _ => r
  | .vsc r _ => r
  | .p r _ => r
  | .port n _ _ _ => 0x30 + n
  | .tok _ => 0
/-- A captured operation for the save area. -/
def Captured.toArea (o : Captured) : Capture :=
  let c := o.f.src
  ⟨c.word, c.ext.getD 0 0, c.ext.getD 1 0, o.rest, streamCode o.f.st, o.f.res.byte, c.rm, c.gp, c.a, c.b, c.d⟩

/-- The instruction of captured words: the fewest E words that hold every word that is not zero and decode. -/
def Capture.instr (c : Capture) : Option (Stream × Instr) :=
  match streamOf c.code with
  | none => none
  | some st =>
    let tries : List (List W32) :=
      (if c.e1 = 0 && c.e2 = 0 then [[]] else []) ++ (if c.e2 = 0 then [[c.e1]] else []) ++ [[c.e1, c.e2]]
    tries.findSome? fun x => match decode st c.word x with
      | .ok i => some (st, i)
      | .error _ => none

/-- The result of a V instruction at a physical destination: member j of its group. -/
def landingOf (form : VDst) (dst eid j : Nat) (o : VOut) : Res :=
  match form with
  | .vec _ _ =>
    let v := o.v.getD j VReg.zero
    if 0x30 ≤ dst then .port (dst - 0x30) eid v.d v.sc else .v dst v.d v.sc
  | .side _ => .vsc dst (o.v.headD VReg.zero).sc
  | .pred _ => if dst = 0 then .none else .p dst o.p
  | .scal _ => .s dst o.s
  | .tok _ => .none

/-- Re-issue of one captured operation: its landing, member j of its group, with entry eid for a store port; none when the
words are no S or V instruction and no mstat. A token is not appended again: the saved queue holds it. The vectors of a source
group that the area does not hold are free values. -/
def Capture.land (c : Capture) (pr : Profile) (fresh eid j : Nat) : Option InFlight :=
  let cap : Capt := ⟨c.word, [c.e1, c.e2], c.a, c.b, c.d, c.rm, c.gp⟩
  let mk (res : Res) (lat : Nat) (f : Flags) (smx : Bool) (st : Stream) : InFlight :=
    ⟨res, f, 0, smx, 0, lat, 0, 0, 0, st, cap, false⟩
  let free (k : Nat) : VReg :=
    ⟨(List.range 16).foldl (fun d i => d ||| ((Config.freeBits fresh (32 * k + i)).setWidth 1024 <<< (64 * i))) 0,
      (Config.freeBits fresh (32 * k + 16)).setWidth 32⟩
  match c.instr with
  | none => none
  | some (st, i) =>
    match sOp i with
    | some (lat, val) =>
      let r := val c.rm c.a.scalar c.b.scalar c.d.scalar
      some (mk (.s c.dst r.1) lat r.2 false st)
    | none =>
      match vOp i with
      | some (form, lat, val) =>
        let o := val ⟨pr, c.rm, [c.a, free 0, free 1, free 2], c.b, c.d, c.gp⟩
        some (mk (landingOf form c.dst eid j o) lat o.flags o.smx st)
      | none => match i with
        | .mstat _ => some (mk (.s c.dst c.a.scalar) 4 0 false st)
        | _ => none

end Sys2Proof.Machine
end

