-- ==== Sys2Proof/Machine/Transfer.lean ====
section
/-! DEFINITION. The X stream: copies with the conversion of banks, gathers, multicasts, fills, signals, home-side reductions,
shadow buffers, KV appends and the split planner (R336 to R352, R200). A transfer is performed whole in the step in which
its instruction issues (log entry 27). -/

namespace Sys2Proof.Machine

/-! ## Issue and completion (R336, R338) -/

/-- The X instruction has completed and leaves NCX. -/
def doneX (s : State) : State := { s with cx := s.cx.finish 2 s.cur.seq }
/-- A condition of R338: it is recorded for the next boundary, and the instruction completes. -/
def failX (s : State) (cause : Nat) (addr : W64) : State :=
  doneX (pendAt (noteOwnWalk s cause addr) .x cause (if cause = tcOperand then 0 else addr))

/-- The values of the four register fields of an X instruction. -/
structure XArgs where
  d : W64
  a : W64
  b : W64
  c : W64
deriving DecidableEq, Repr

/-- The free values that follow are other ones. -/
def nextFree (o : Out) : Out :=
  match o with
  | .next s => .next { s with fresh := s.fresh + 1 }
  | o => o
/-- Issue an X instruction that reads the registers `regs` (R127, R336). -/
def runX (w : FR) (regs : List (BitVec 6)) (act : State → XArgs → Out) (s : State) : Out :=
  gated w.g s fun s =>
    if s.cur.chk && regs.any (fun r => breachS s.cx s.cycle r.toNat) then .next (doneX (breachTrap s .x))
    else nextFree (act { s with fresh := s.fresh + 1 }
      ⟨readS s 0 w.d.toNat, readS s 3 w.a.toNat, readS s 6 w.b.toNat, readS s 9 w.f.toNat⟩)

/-- The context as a transfer sees a core's scratch: the ranges of the running iterations of its region there (R337). -/
def asCore (s : State) (c : Ctx) (id : CtxId) : Ctx :=
  { c with id := id
           khd := { c.khd with ranges :=
             (s.running.filter fun d => d.it.rid == c.it.rid && d.id.coreKey == id.coreKey).flatMap fun d => d.khd.ranges } }
/-- The focused context as its own transfers see it. -/
def xctx (s : State) : Ctx := asCore s s.cx s.cx.id

/-- The write-combining lines that keys touch are drained: the buffer holds only tags here (R307). -/
def drainWc (s : State) (ks : List Nat) : State :=
  let ls := linesOf ks
  { s with wc := s.wc.filter fun l => !ls.contains l.line }
/-- Accesses of a base vector core through window 0x4 reach DRAM past the write-combining buffer (R375). -/
def pastWc (s : State) (us : List (W64 × List Nat)) : State :=
  if s.cx.id.prof = .b then drainWc s ((us.filter fun u => u.1.toNat / 2 ^ 60 == 4).flatMap (·.2)) else s

/-! ## Units and pieces -/

/-- Resolve a unit of a transfer: its keys, or the cause that stops it. -/
def unitAt (s : State) (c : Ctx) (kind : AccessKind) (a : W64) (n : Nat) : Except Nat (List Nat) :=
  resolve s c kind (kind != .rd) false a n 1

/-- A source element or unit of a piece: its address, its bytes, their keys, the format of the bank that holds it (R200). -/
structure Src where
  a : W64
  n : Nat
  k : Except Nat (List Nat)
  f : Nat

/-- A piece of a transfer: the destination bytes that it writes, with the format of their bank, and the elements that it takes them
from. A piece is a 4-byte unit of the destination, or a row of 128 elements of an e4m3+scale bank with its scale cell (`row`). -/
structure Piece where
  da : W64
  dk : Except Nat (List Nat)
  src : List Src
  df : Nat
  row : Bool

/-- Cut n bytes into units of k bytes, the last one maybe shorter. -/
def unitsBy (k n : Nat) : List (Nat × Nat) := (List.range ((n + k - 1) / k)).map fun i => (k * i, min k (n - k * i))
/-- Cut n bytes into 4-byte units, the last one maybe shorter. -/
def unitsOf (n : Nat) : List (Nat × Nat) := unitsBy 4 n
/-- The pieces of a copy that moves bytes unchanged. -/
def plainPieces (s : State) (cs cd : Ctx) (sa da : W64) (n : Nat) : List Piece :=
  (unitsOf n).map fun u =>
    ⟨da + natW u.1, unitAt s cd .wr (da + natW u.1) u.2, [⟨sa + natW u.1, u.2, unitAt s cs .rd (sa + natW u.1) u.2, 0⟩], 0, false⟩

/-! ## The conversion of R200 -/

/-- The bytes of an element of a bank format (R199). -/
def fmtBytes (f : Nat) : Nat :=
  match f with
  | 1 => 4
  | 2 => 2
  | 3 => 2
  | 6 => 4
  | _ => 1
/-- The number format of a float bank format. -/
def bankFmt (f : Nat) : Fmt :=
  match f with
  | 1 => f32
  | 2 => bf16
  | 3 => f16
  | _ => e4m3
/-- The value of an element of a bank format, with the scale of its row. -/
def bankVal (f : Nat) (sc : W32) (n : Nat) : FVal :=
  match f with
  | 4 => (mulF (unpack e4m3 n) (val32 sc)).1
  | 5 => ofInt (sextN 8 n)
  | 6 => ofInt (sextN 32 n)
  | f => unpack (bankFmt f) n
/-- An element converted to another float or integer format (R200). -/
def bankCvt (sf df : Nat) (sc : W32) (n : Nat) : Nat :=
  let v := bankVal sf sc n
  match df with
  | 5 => wrapN 8 (if sf = 6 then max (-128) (min 127 (sextN 32 n)) else if sf = 5 then sextN 8 n else (toIntSat 0 (-128) 127 v).1)
  | 6 => wrapN 32 (if sf = 5 then sextN 8 n else if sf = 6 then sextN 32 n else (toIntSat 0 (-(2 ^ 31)) (2 ^ 31 - 1) v).1)
  | f => (roundFmt (bankFmt f) 0 false v false).1
/-- The quantised element of R85 under a scale. -/
def quant85 (sc : W32 × Bool) (v : FVal) : Nat :=
  match v with
  | .fin _ _ _ => if sc.2 then 0 else
      let q := divF v (val32 sc.1)
      (satE4M3 0 false q.1.1 q.1.2).1
  | v => (satE4M3 0 false v false).1

/-- An element of a converting copy: offsets from the starts, bytes at each end, and formats. -/
structure CvtStep where
  so : Nat
  sn : Nat
  do' : Nat
  dn : Nat
  sf : Nat
  df : Nat
deriving DecidableEq, Repr

/-- Bytes go over unchanged between two formats (R200). -/
def sameFmt (sf df : Nat) : Bool := sf == df || sf == 0 || df == 0
/-- The elements of a copy of n bytes between scratch offsets s0 and d0, each in the format of the place that holds it, each result at the
next destination place in the format of that place (R200). Bytes that go over unchanged are taken in whole words where both ends are. -/
def cvtSteps (fs fd : Nat → Nat) (s0 d0 n fuel so dof : Nat) : List CvtStep :=
  match fuel with
  | 0 => []
  | k + 1 =>
    if n ≤ so then []
    else
      let sf := fs (s0 + so)
      let df := fd (d0 + dof)
      let z := if sameFmt sf df then (if (s0 + so) % 4 = 0 && (d0 + dof) % 4 = 0 && so + 4 ≤ n then 4 else 1) else fmtBytes sf
      let y := if sameFmt sf df then z else fmtBytes df
      ⟨so, z, dof, y, sf, df⟩ :: cvtSteps fs fd s0 d0 n k (so + z) (dof + y)
/-- Both ends stand on a row boundary. -/
def onRows (s0 d0 so dof : Nat) : Bool := (s0 + so) % 128 == 0 && (d0 + dof) % 128 == 0
/-- Every part of either range that lies in an e4m3+scale bank starts and ends on row boundaries at both ends (R200). `p` says whether
the element before lies in such a bank, at the source and at the destination; so and dof are its ends. -/
def rowsOk (s0 d0 : Nat) (p : Bool × Bool) (so dof : Nat) (xs : List CvtStep) : Bool :=
  match xs with
  | [] => p == (false, false) || onRows s0 d0 so dof
  | x :: r =>
    (p == (x.sf == 4, x.df == 4) || onRows s0 d0 so dof) && rowsOk s0 d0 (x.sf == 4, x.df == 4) (x.so + x.sn) (x.do' + x.dn) r
/-- Gather neighbouring elements of equal key. -/
def gatherBy (key : CvtStep → Nat) (xs : List CvtStep) : List (List CvtStep) :=
  match xs with
  | [] => []
  | x :: r => match gatherBy key r with
    | (y :: g) :: gs => if key y = key x then (x :: y :: g) :: gs else [x] :: (y :: g) :: gs
    | gs => [x] :: gs
/-- The destination unit that an element falls into: a row of an e4m3+scale bank, else a word. -/
def unitKey (d0 : Nat) (x : CvtStep) : Nat := if x.df = 4 then 2 ^ 40 + (d0 + x.do') / 128 else (d0 + x.do') / 4
/-- The FMT at an offset of a scratch memory; places beyond its capacity have none. -/
def placeFmt (s : State) (sid o : Nat) : Nat := if o < sidCap sid then fmtAt s sid o else 0

/-- The pieces of a copy of n bytes: between two scratch memories by the formats of their banks (R337, R200). -/
def copyPieces (s : State) (cs cd : Ctx) (sa da : W64) (n : Nat) : Except Nat (List Piece) :=
  match placeOf s cs sa, placeOf s cd da with
  | .error e, _ => .error e
  | _, .error e => .error e
  | .ok (.scratch ss so _), .ok (.scratch ds dof _) =>
    if sidCap ss < so + n || sidCap ds ≤ dof then .ok (plainPieces s cs cd sa da (min n 4))
    else
      let st := cvtSteps (placeFmt s ss) (placeFmt s ds) so dof n n 0 0
      if !rowsOk so dof (false, false) 0 0 st then .error tcAlign
      else .ok ((gatherBy (unitKey dof) st).filterMap fun g => g.head?.map fun h =>
        ⟨da + natW h.do', unitAt s cd .wr (da + natW h.do') (g.foldl (fun m x => m + x.dn) 0),
         g.map fun x => ⟨sa + natW x.so, x.sn, unitAt s cs .rd (sa + natW x.so) x.sn, x.sf⟩, h.df, h.df == 4⟩)
  | _, _ => .ok (plainPieces s cs cd sa da n)

/-- The scale of the row of a scratch key. -/
def rowScale (s : State) (k : Nat) : W32 := BitVec.ofNat 32 (homeAt s (cellOfKey k) 4)
/-- The source home rejects the pull of an element: its generation is another one (R399). -/
def Src.rejected (x : Src) : Bool := match x.k with | .error e => e == tcStale | .ok _ => false
/-- The bytes that a pull brings; those that a source home has not given are free values (log entry 55). -/
def Src.bytes (s : State) (x : Src) : List Byte :=
  match x.k with
  | .ok ks => homeBytes s ks
  | .error _ => leBytes x.n (Config.freeBits s.fresh (2 ^ 43 + x.a.toNat)).toNat
/-- The value of an element in its bank's format, with the scale of its row. -/
def Src.scale (s : State) (x : Src) : W32 :=
  match x.k with
  | .ok (k :: _) => if x.f = 4 then rowScale s k else one32
  | _ => one32
/-- The bytes of an element at a destination of format df (R200). -/
def Src.cvt (s : State) (df : Nat) (x : Src) : List Byte :=
  if sameFmt x.f df then x.bytes s else leBytes (fmtBytes df) (bankCvt x.f df (x.scale s) (leNat (x.bytes s)))
/-- What a piece writes: its destination's bytes, and the scale cell of an e4m3+scale row (R200, R337). A row that takes raw bytes beside
converted elements has two rules for its scale: either may hold (DESIGN CHOICE, log entry 119). -/
def pieceBytes (s : State) (p : Piece) : List Byte × Option W32 :=
  if p.row then
    let cs := p.src.filter fun x => !sameFmt x.f 4
    if cs.isEmpty then (p.src.flatMap (Src.bytes s), some (match p.src with | x :: _ => x.scale s | [] => one32))
    else
      let val (x : Src) : FVal := bankVal x.f one32 (leNat (x.bytes s))
      let sc := quantScale (amaxFin (cs.map val))
      (p.src.flatMap fun x => if sameFmt x.f 4 then x.bytes s else [BitVec.ofNat 8 (quant85 sc (val x))],
       some (if cs.length < p.src.length && pick s (2 ^ 42 + p.da.toNat) then one32 else sc.1))
  else (p.src.flatMap (Src.cvt s p.df), none)

/-! ## Checks (R338) -/

/-- Causes found during a transfer, as against those checked before it. -/
def lateCause (e : Nat) : Bool := e == tcTranslation || e == tcStale || e == tcUnreach
/-- The first fault of a class among units. -/
def unitFault (f : Nat → Bool) (us : List (W64 × Except Nat (List Nat))) : Option (Nat × W64) :=
  us.findSome? fun u => match u.2 with
    | .error e => if f e then some (e, u.1) else none
    | .ok _ => none
/-- The first fault of step 2 of R338 among units: window, then permission. -/
def earlyFault (us : List (W64 × Except Nat (List Nat))) : Option (Nat × W64) :=
  (unitFault (· == tcWindow) us).or (unitFault (fun e => !lateCause e) us)
/-- The ends of a piece, sources first. A pull that its source home rejects is no fault (R399). -/
def Piece.ends (p : Piece) : List (W64 × Except Nat (List Nat)) :=
  (p.src.filter fun x => !x.rejected).map (fun x => (x.a, x.k)) ++ [(p.da, p.dk)]
/-- A starting address outside every window. -/
def badStart (s : State) (c : Ctx) (as : List W64) : Option (Nat × W64) :=
  as.findSome? fun a => match placeOf s c a with
    | .error e => some (e, a)
    | .ok _ => none
/-- An address that is not a multiple of k. -/
def misaligned (k : Nat) (as : List W64) : Option (Nat × W64) :=
  (as.find? fun a => !alignedTo a k).map fun a => (tcAlign, a)
/-- A range that runs past the end of its window (R285). -/
def pastEnd (s : State) (c : Ctx) (as : List (W64 × Nat)) : Option (Nat × W64) :=
  as.findSome? fun x => match placeOf s c x.1 with
    | .ok (.glob va) => if 2 ^ 57 < va + x.2 then some (tcWindow, x.1) else none
    | .ok (.scratch sid o _) => if sidCap sid < o + x.2 then some (tcWindow, x.1) else none
    | .ok (.vault _ pa) => if 2 ^ 30 < pa % 2 ^ 30 + x.2 then some (tcWindow, x.1) else none
    | .error e => some (e, x.1)

/-! ## Performing a transfer -/

/-- The keys of an end of a piece. -/
def keysOr (e : Except Nat (List Nat)) : List Nat :=
  match e with
  | .ok ks => ks
  | .error _ => []
/-- The keys that a piece reads. -/
def Piece.srcKeys (p : Piece) : List Nat := p.src.flatMap fun x => keysOr x.k
/-- What piece i writes in a transfer that has written keys w: the cells of its 4-byte units, and its scale cell. A unit whose source the
transfer has written takes the value from before the transfer or the one written (R337); a unit that it has written already takes
this value or keeps that one (R340). -/
def pieceCells (s0 s : State) (w : List Nat) (p : Piece) (i : Nat) : List Host.Cell :=
  let dk := keysOr p.dk
  let old := pieceBytes s0 p
  let new := pieceBytes s p
  let hit := p.srcKeys.any w.contains
  let v (j : Nat) : List Byte × Option W32 := if hit && pick s0 (2 ^ 44 + 128 * i + j) then new else old
  let keep (j : Nat) (ks : List Nat) : Bool := !(ks.any w.contains && pick s0 (2 ^ 44 + 128 * i + 64 + j))
  (unitsOf dk.length).flatMap (fun u =>
    let ks := (dk.drop u.1).take u.2
    if keep (u.1 / 4) ks then ks.zip (((v (u.1 / 4)).1.drop u.1).take u.2) else [])
  ++ match dk, (v 40).2 with
    | k :: _, some sc => if keep 40 (keysFrom (cellOfKey k) 4) then (keysFrom (cellOfKey k) 4).zip (leBytes 4 sc.toNat) else []
    | _, _ => []
/-- Write pieces one after the other. `w` lists the keys that the transfer has written. -/
def putPieces (s0 : State) (ps : List (Piece × Nat)) (w : List Nat) (s : State) : State :=
  match ps with
  | [] => s
  | (p, i) :: r =>
    let cs := pieceCells s0 s w p i
    putPieces s0 r (cs.map (·.1) ++ w) (storeCells (noteSealed s s.cx.it.rid (cs.map (·.1))) cs)
/-- Perform pieces (R337): bytes read from uncorrectable lines and rejected pulls mark the region (R399), banks wake, and when a
translation or a generation stops some unit, any of the others may have been written (R338). -/
def movePieces (s : State) (ps : List Piece) : Out :=
  let srcs := ps.flatMap Piece.srcKeys
  let dsts := ps.flatMap fun p => keysOr p.dk
  if !fabricClear s dsts then .next s.block
  else
    let late := unitFault lateCause (ps.flatMap Piece.ends)
    let s1 := noteBad (touchBanks s (srcs ++ dsts)) s.cx.it.rid srcs
    let s2 := if ps.any fun p => p.src.any Src.rejected then markDegraded s1 s.cx.it.rid else s1
    let qs := ps.zipIdx.filter fun p => (unitFault (fun _ => true) p.1.ends).isNone && (late.isNone || pick s (2 ^ 45 + p.2))
    let qs' := if (srcs.any dsts.contains) && pick s 99999 then qs.reverse else qs
    let s3 := pastWc (putPieces s2 qs' [] s2) (ps.flatMap fun p => (p.da, keysOr p.dk) :: p.src.map fun x => (x.a, keysOr x.k))
    match late with
    | some e => .next (failX s3 e.1 e.2)
    | none => .next (doneX s3)

/-- Check and perform a copy of rows of n bytes, source and destination. -/
def copyRows (s : State) (rows : List (W64 × W64)) (n : Nat) : Out :=
  let c := xctx s
  let as := rows.flatMap fun r => [r.1, r.2]
  match (((badStart s c as).or (misaligned 4 as)).or (if n % 4 = 0 then none else some (tcAlign, (rows.headD (0, 0)).1))).or
      (pastEnd s c (rows.map fun r => (r.1, n))) with
  | some e => .next (failX s e.1 e.2)
  | none =>
    match rows.foldr (fun r (acc : Except (Nat × W64) (List Piece)) => match copyPieces s c c r.1 r.2 n, acc with
        | .error e, _ => .error (e, r.1)
        | .ok _, .error e => .error e
        | .ok p, .ok q => .ok (p ++ q)) (.ok [] : Except (Nat × W64) (List Piece)) with
    | .error e => .next (failX s e.1 e.2)
    | .ok ps => match earlyFault (ps.flatMap Piece.ends) with
      | some e => .next (failX s e.1 e.2)
      | none => movePieces s ps

/-! ## Copies, gathers and scatters (R339, R340) -/

/-- R339. -/
def execXcopy (w : FR) (s : State) : Out :=
  runX w [w.d, w.a, w.b] (fun s x =>
    if 2 ^ 32 ≤ x.b.toNat then .next (failX s tcOperand 0)
    else if x.b = 0 then .next (doneX s)
    else copyRows s [(x.a, x.d)] x.b.toNat) s
/-- R339. -/
def execXcopy2d (w : FR) (s : State) : Out :=
  runX w [w.d, w.a, w.b, w.f] (fun s x =>
    let rowb := bitsOf x.b 0 20
    let nrows := bitsOf x.b 20 16
    if bitsOf x.b 36 28 ≠ 0 then .next (failX s tcOperand 0)
    else if rowb = 0 || nrows = 0 then .next (doneX s)
    else if bitsOf x.c 0 2 ≠ 0 || bitsOf x.c 32 2 ≠ 0 then
      .next (match badStart s (xctx s) [x.a, x.d] with
        | some e => failX s e.1 e.2
        | none => failX s tcAlign x.a)
    else copyRows s ((List.range nrows).map fun (k : Nat) =>
      (x.a + toW (k * sextN 32 (bitsOf x.c 0 32)), x.d + toW (k * sextN 32 (bitsOf x.c 32 32)))) rowb) s

/-- The units of n consecutive values of z bytes. -/
def valueUnits (s : State) (c : Ctx) (kind : AccessKind) (a : W64) (z n : Nat) : List (W64 × Except Nat (List Nat)) :=
  (List.range n).map fun e => (a + natW (z * e), unitAt s c kind (a + natW (z * e)) z)
/-- A gather or scatter: `dst` says that the indices name destinations. The list and the side that no index moves are checked before the
list is read (R338). -/
def indexed (dst : Bool) (w : FR) (s : State) : Out :=
  runX w [w.d, w.a, w.b, w.f] (fun s x =>
    let rowb := bitsOf x.c 0 20
    let n := bitsOf x.c 20 16
    let c := xctx s
    let fix := if dst then x.a else x.d
    let all := if rowb = 0 then [] else [fix]
    let us := valueUnits s c .rd x.b 4 n
    let rows := if rowb = 0 then [] else valueUnits s c (if dst then .rd else .wr) fix rowb n
    if bitsOf x.c 36 28 ≠ 0 then .next (failX s tcOperand 0)
    else if n = 0 then .next (doneX s)
    else match ((badStart s c (x.b :: all)).or (misaligned 4 (x.b :: if rowb = 0 then [] else [x.a, x.d]))).or
        (if rowb % 4 = 0 then none else some (tcAlign, x.a)) with
      | some e => .next (failX s e.1 e.2)
      | none => match earlyFault us with
        | some e => .next (failX s e.1 e.2)
        | none => match unitFault lateCause us with
          | some e => .next (match earlyFault rows with
            | some f => failX s f.1 f.2
            | none => failX s e.1 e.2)
          | none =>
            let idx := us.map fun u => homeNat s (keysOr u.2)
            let s1 := noteRead s x.b (4 * n)
            if rowb = 0 then .next (doneX s1)
            else copyRows s1 (idx.zipIdx.map fun p =>
              if dst then (x.a + natW (p.2 * rowb), x.d + natW (p.1 * rowb))
              else (x.a + natW (p.1 * rowb), x.d + natW (p.2 * rowb))) rowb) s
/-- R340. -/
def execXgath (w : FR) (s : State) : Out := indexed false w s
/-- R340. -/
def execXscat (w : FR) (s : State) : Out := indexed true w s

/-- The core of team index t for a multicast (R341): the team of R13 or R15, in profile B the base vector cores of the stack. -/
def castCore (c : CtxId) (t : Nat) : Option CtxId :=
  if c.bvc then some { c with core := c.core / 16 * 16 + t }
  else (teamCore c.die c.core t).map fun k => { c with core := k }
/-- The pieces that reach each target, and the address at which a target refused. -/
def castPieces (s : State) (a d : W64) (n : Nat) (ts : List Nat) : Except (Nat × W64) (List Piece × Bool) :=
  match ts with
  | [] => .ok ([], false)
  | t :: r =>
    match castPieces s a d n r with
    | .error e => .error e
    | .ok (ps, no) =>
      match castCore s.cx.id t with
      | none => .error (tcWindow, d)
      | some id => match copyPieces s (xctx s) (asCore s s.cx id) a d n with
        | .error e => .error (e, d)
        | .ok q => match earlyFault (q.flatMap Piece.ends) with
          | none => .ok (q ++ ps, no)
          | some e => if e.1 = tcPermission && (earlyFault (q.flatMap fun p => p.src.map fun x => (x.a, x.k))).isNone
              then .ok (ps, true) else .error e
/-- R341. -/
def execXmcast (w : FR) (s : State) : Out :=
  runX w [w.d, w.a, w.b, w.f] (fun s x =>
    let n := x.b.toNat
    let ts := (List.range 16).filter fun t => bitAt x.c t
    if bitsOf x.c 16 48 ≠ 0 || (s.cx.id.prof == .p && bitsOf x.c 8 8 ≠ 0) || x.d.toNat / 2 ^ 60 ≠ 1 then
      .next (failX s tcOperand 0)
    else if ts = [] || n = 0 then .next (doneX s)
    else
      let c := xctx s
      match (((badStart s c [x.a, x.d]).or (misaligned 4 [x.a, x.d])).or (if n % 4 = 0 then none else some (tcAlign, x.a))).or
          (pastEnd s c [(x.a, n)]) with
      | some e => .next (failX s e.1 e.2)
      | none => match castPieces s x.a x.d n ts with
        | .error e => .next (failX s e.1 e.2)
        | .ok (ps, no) => movePieces (if no then pendAt s .x tcPermission x.d else s) ps) s

/-! ## Fills, wipes and signals (R342, R343) -/

/-- Write a range of n bytes with a value for every 4 bytes, in units of `al` bytes each written whole (R312, R342). -/
def fillRange (s : State) (a : W64) (n al : Nat) (pat : W32) (wipe : Bool) : Out :=
  let c := xctx s
  match (((badStart s c [a]).or (misaligned al [a])).or (if n % al = 0 then none else some (tcAlign, a))).or (pastEnd s c [(a, n)]) with
  | some e => .next (failX s e.1 e.2)
  | none =>
    let us := (unitsBy al n).map fun u => (a + natW u.1, unitAt s c .wr (a + natW u.1) u.2)
    match earlyFault us with
    | some e => .next (failX s e.1 e.2)
    | none =>
      let late := unitFault lateCause us
      let ks := (us.zipIdx.filter fun u => late.isNone || pick s (2 ^ 45 + u.2)).flatMap fun u => keysOr u.1.2
      if !fabricClear s ks then .next s.block
      else
        let s1 := storeCells (noteSealed (touchBanks s ks) s.cx.it.rid ks)
          (ks.zipIdx.map fun k => (k.1, byteOfW32 pat (k.2 % 4)))
        let lines := linesOf (ks.filter (· < 2 ^ 50))
        let rows := (ks.filter fun k => 2 ^ 50 ≤ k && k % 128 == 0).filter fun k => ks.contains (k + 127)
        let s2 := if wipe then
            rows.foldl (fun t k => storeAt t (cellOfKey k) 4 one32.toNat)
              { s1 with wc := s1.wc.filter fun l => !lines.contains l.line }
          else s1
        let s3 := pastWc s2 [(a, ks)]
        match late with
        | some e => .next (failX s3 e.1 e.2)
        | none => .next (doneX s3)
/-- R342. -/
def execXfill (w : FR) (s : State) : Out :=
  runX w [w.d, w.a, w.b] (fun s x =>
    if x.b = 0 then .next (doneX s) else fillRange s x.d x.b.toNat 4 (x.a.setWidth 32) false) s
/-- R342. -/
def execXwipe (w : FR) (s : State) : Out :=
  runX w [w.d, w.b] (fun s x =>
    if x.b = 0 then .next (doneX s) else fillRange s x.d x.b.toNat 64 0 true) s

/-- One message to a home: a write of n bytes computed from the bytes there. -/
def oneWrite (s : State) (kind : AccessKind) (a : W64) (n : Nat) (new : Nat → Nat) : Out :=
  match resolve s (xctx s) kind true false a n n with
  | .error e => .next (failX s e a)
  | .ok ks =>
    if !fabricClear s ks then .next s.block
    else
      let s1 := touchBanks (noteSealed s s.cx.it.rid ks) ks
      let s2 := if kind = .rw then noteBad s1 s.cx.it.rid ks else s1
      .next (doneX (pastWc (storeBytes s2 ks (leBytes n (new (homeNat s2 ks)))) [(a, ks)]))
/-- R343. -/
def execXsend (w : FR) (s : State) : Out :=
  runX w [w.d, w.a] (fun s x => oneWrite s .wr x.d (if w.f.getLsbD 0 then 8 else 4) fun _ => x.a.toNat) s
/-- R343: a release; its write is made after every earlier access of the context. -/
def execXsig (w : FR) (s : State) : Out :=
  runX w [w.d, w.a] (fun s x =>
    let op := w.f.toNat % 4
    let kind : AccessKind := if op = 0 then .wr else .rw
    match resolve s (xctx s) kind true false x.d 8 8 with
    | .error e => .next (failX s e x.d)
    | .ok ks =>
      if !released s (awayDie s ks).isSome s.cur.seq then .next s.block
      else oneWrite s kind x.d 8 fun old => match op with
        | 0 => x.a.toNat
        | 1 => old + x.a.toNat
        | _ => old ||| x.a.toNat) s

/-! ## Reductions (R344 to R348) -/

/-- The checks of steps 2 of R338 of a reduction of n elements. -/
def redChecks (s : State) (c : Ctx) (d a : W64) (z n : Nat) (src : Bool) : Option (Nat × W64) :=
  let as := if src then [d, a] else [d]
  (((badStart s c as).or (misaligned 4 as)).or (pastEnd s c ((d, 4 * n) :: if src then [(a, z * n)] else [])))
/-- The windows of a reduction target (R345). -/
def redWindowOk (p : Profile) (a : W64) : Bool :=
  let w := a.toNat / 2 ^ 60
  w == 0 || (p == .d && (w == 4 || w == 5)) || (p == .b && w == 4)

/-- R345: the additions go to the reduction unit, which accepts them one by one as device steps. -/
def execXred (w : FR) (s : State) : Out :=
  let close := w.f.getLsbD 0
  let bf := w.f.getLsbD 1
  let add := !w.f.getLsbD 2
  runX w ([w.d, w.b] ++ if add then [w.a] else []) (fun s x =>
    let n := x.b.toNat
    let c := xctx s
    if n = 0 then .next (doneX s)
    else if !redWindowOk s.cx.id.prof x.d then .next (failX s tcWindow x.d)
    else match redChecks s c x.d x.a (if bf then 2 else 4) n add with
      | some e => .next (failX s e.1 e.2)
      | none =>
        let ds := valueUnits s c .rw x.d 4 n
        let ss := if add then valueUnits s c .rd x.a (if bf then 2 else 4) n else []
        let all := ss ++ ds
        match earlyFault all with
        | some e => .next (failX s e.1 e.2)
        | none =>
          let late := unitFault lateCause all
          let vals := (ss.map fun u => keysOr u.2)
          let adds := (ds.zip vals).zipIdx.filterMap fun p => match p.1.1.2 with
            | .ok (k :: _) =>
              if p.1.2 = [] then none
              else if late.isSome && !pick s (2 ^ 45 + p.2) then none
              else
                let v := homeNat s p.1.2
                some (k / 4, (BitVec.ofNat 32 (if bf then v * 65536 else v) : W32), p.1.1.1)
            | _ => none
          let words := ds.filterMap fun u => match u.2 with
            | .ok (k :: _) => some (k / 4)
            | _ => none
          let keys := words.map (4 * ·)
          let s1 := noteBad (touchBanks s (keys ++ vals.flatten)) s.cx.it.rid vals.flatten
          let s2 := match late with
            | some e => pendAt s1 .x e.1 e.2
            | none => s1
          .next { s2 with redWait := s2.redWait ++
            [⟨s.cx.id, s.cur.seq, s.cur.line, s.cur.slot, s.cx.it.rid, s.cx.it.asid, s.cx.it.gen, adds, if close && late.isNone then words else []⟩] }) s

/-- The new word of an xredmax (R348). -/
def redMaxNew (mode : Bool) (old x : Nat) : Nat :=
  if mode then (roundFmt f32 0 false (maxF (unpack f32 old) (unpack f32 x)) false).1
  else max old (canonMag x)
/-- R348: one atomic action per word. -/
def execXredmax (w : FR) (s : State) : Out :=
  runX w [w.d, w.a, w.b] (fun s x =>
    let n := x.b.toNat
    let c := xctx s
    if n = 0 then .next (doneX s)
    else match redChecks s c x.d x.a 4 n true with
      | some e => .next (failX s e.1 e.2)
      | none =>
        let ds := valueUnits s c .rw x.d 4 n
        let ss := valueUnits s c .rd x.a 4 n
        match earlyFault (ss ++ ds) with
        | some e => .next (failX s e.1 e.2)
        | none =>
          let late := unitFault lateCause (ss ++ ds)
          let pairs := (((ds.map fun u => keysOr u.2).zip (ss.map fun u => keysOr u.2)).zipIdx.filter fun p =>
            p.1.1 != [] && p.1.2 != [] && (late.isNone || pick s (2 ^ 45 + p.2))).map (·.1)
          let keys := pairs.flatMap fun p => p.1 ++ p.2
          if !fabricClear s keys then .next s.block
          else
          let s1 := noteSealed (noteBad (touchBanks s keys) s.cx.it.rid keys) s.cx.it.rid (pairs.flatMap (·.1))
          let s2 := pairs.foldl (fun t p =>
            storeBytes t p.1 (leBytes 4 (redMaxNew (w.f.getLsbD 0) (homeNat t p.1) (homeNat s1 p.2)))) s1
          let s2 := pastWc s2 [(x.d, pairs.flatMap (·.1)), (x.a, pairs.flatMap (·.2))]
          match late with
          | some e => .next (failX s2 e.1 e.2)
          | none => .next (doneX s2)) s

/-! ## Shadow buffers (R349, R350) -/

/-- The registered buffer of the context's address space at a visible base. -/
def shadowOf (s : State) (base : W64) : Option Shadow :=
  s.shadows.find? fun h => h.asid == s.cx.it.asid && h.base == base
/-- Change the registered buffer of the context's address space at a base. -/
def setShadow (s : State) (base : W64) (f : Shadow → Shadow) : State :=
  { s with shadows := s.shadows.map fun h => if h.asid = s.cx.it.asid && h.base = base then f h else h }
/-- The translations of the 64 KiB units of a range: none when one is not mapped (R349). -/
def latchUnits (s : State) (va n : Nat) : Option (List (Nat × BitVec 3)) :=
  match n with
  | 0 => some []
  | k + 1 =>
    match latchUnits s va k, walk s s.cx.it.asid (va + 65536 * k) with
    | some r, .ok l => some (r ++ [(l.pa + (va + 65536 * k - l.va), l.perm)])
    | _, _ => none
/-- Two ranges of the same length overlap with the ranges of a buffer. -/
def shadowClash (h : Shadow) (a len : Nat) : Bool :=
  (a < h.base.toNat + h.len && h.base.toNat < a + len) || (a < h.second.toNat + h.len && h.second.toNat < a + len)
/-- R349. -/
def execXshadOpen (w : FR) (s : State) : Out :=
  runX w [w.d, w.a, w.b] (fun s x =>
    let len := x.b.toNat
    match shadowOf s x.a with
    | some h =>
      if h.second = x.d && h.len = len then .next (doneX (setShadow s x.a fun h => { h with opened := true }))
      else .next (failX s tcOperand 0)
    | none =>
      let v := x.a.toNat
      let d := x.d.toNat
      if 2 ^ 57 < v + len || 2 ^ 57 < d + len || v % 65536 ≠ 0 || d % 65536 ≠ 0 || len % 65536 ≠ 0 || len = 0 || 2 ^ 34 < len
          || (v < d + len && d < v + len)
          || (s.shadows.any fun h => h.asid == s.cx.it.asid && (shadowClash h v len || shadowClash h d len))
          || 64 ≤ (s.shadows.filter fun h => h.vi == s.cx.it.vi).length then .next (failX s tcOperand 0)
      else match latchUnits s v (len / 65536), latchUnits s d (len / 65536) with
        | some p, some q => .next (doneX { s with shadows := s.shadows ++
            [⟨s.cx.it.vi, s.cx.it.asid, s.cx.it.gen, x.a, x.d, len, true, false, p, q⟩] })
        | _, _ => .next (failX s tcOperand 0)) s
/-- R349. -/
def execXshadDiscard (w : FR) (s : State) : Out :=
  runX w [w.a] (fun s x => match shadowOf s x.a with
    | some _ => .next (doneX (setShadow s x.a fun h => { h with opened := false }))
    | none => .next (failX s tcOperand 0)) s
/-- R349. -/
def execXshadUnreg (w : FR) (s : State) : Out :=
  runX w [w.a] (fun s x => match shadowOf s x.a with
    | some _ => .next (doneX { s with shadows := s.shadows.filter fun h => !(h.asid == s.cx.it.asid && h.base == x.a) })
    | none => .next (failX s tcOperand 0)) s
/-- R329, R350: a release, then the two images change places at one instant and the shadow closes. -/
def execXpub (w : FR) (s : State) : Out :=
  runX w [w.a] (fun s x => match shadowOf s x.a with
    | none => .next (failX s tcOperand 0)
    | some h =>
      let away := (awayDie s ((h.pa1 ++ h.pa2).map (·.1))).isSome
      if !released s away s.cur.seq then .next s.block
      else .next (doneX (setShadow s x.a fun h =>
        if h.opened then { h with swapped := !h.swapped, opened := false } else h))) s

/-! ## KV append (R351) -/

/-- The descriptor of a 64-byte value: none outside its limits. -/
def parseApp (v : Nat) : Option KvApp :=
  let a : KvApp := ⟨natW (nword v 0), nbits v 64 16, nbits v 80 8, natW (nword v 2), natW (nword v 3), nbits v 256 32,
    nbits v 288 7, nbits v 320 32⟩
  if nbits v 88 40 ≠ 0 || nbits v 295 25 ≠ 0 || nbits v 352 160 ≠ 0 || a.ntok = 0 || 64 < a.ntok || a.sstr % 4 ≠ 0 then none
  else some a
/-- The lowest slot of a pool that is EMPTY (R358). -/
def Pool.lowest (p : Pool) : Option Nat :=
  if p.wiping then Option.none else (List.range p.n).find? fun i => !p.busy.contains i
/-- Take slot i of the pool of a die for a VI. -/
def takeSlot (s : State) (vi die i : Nat) : State :=
  let v := s.vi vi
  let p := Tab.get Pool.zero v.pools die
  s.setVi vi { v with pools := Tab.put Pool.zero v.pools die { p with busy := p.busy ++ [i] } }
/-- What an append of a row does: go on, fail, or wait for the pool. -/
inductive AppRes where
  | ok (s : State)
  | fault (s : State) (cause : Nat) (addr : W64)
  | wait

/-- The BF16 patterns of a row at an address. -/
def appRow (s : State) (a : W64) (hdim : Nat) : Except (Nat × W64) (List Nat) :=
  if a.toNat % 4 ≠ 0 then .error (tcAlign, a)
  else match unitAt s (xctx s) .rd a (2 * hdim) with
    | .error e => .error (e, a)
    | .ok ks => let v := homeNat s ks; .ok ((List.range hdim).map fun d => nbits v (16 * d) 16)
/-- Write a value of n bytes at a virtual address for the append path. -/
def appWrite (s : State) (a : W64) (n v : Nat) : Except (Nat × W64) State :=
  match resolve s s.cx .wr false false a n 1 with
  | .ok ks => .ok (touchBanks (storeBytes (noteSealed s s.cx.it.rid ks) ks (leBytes n v)) ks)
  | .error e => .error (e, a)
/-- Several writes. -/
def appWrites (s : State) (ws : List (W64 × Nat × Nat)) : Except (Nat × W64) State :=
  match ws with
  | [] => .ok s
  | (a, n, v) :: r => match appWrite s a n v with
    | .error e => .error e
    | .ok s1 => appWrites s1 r
/-- The scale of a fresh destination block: s of R85 over the rows of the instruction that fall in the block. -/
def appScale (s : State) (src : W64) (a : KvApp) (hdim lb : Nat) : Except (Nat × W64) W32 :=
  match (List.range a.ntok).foldr (fun t acc => match acc with
      | .error e => .error e
      | .ok xs =>
        if (a.pos0 + t) / 16 ≠ lb then .ok xs
        else match appRow s (src + natW (t * a.sstr)) hdim with
          | .ok r => .ok (r ++ xs)
          | .error e => .error e) (.ok [] : Except (Nat × W64) (List Nat)) with
  | .error e => .error e
  | .ok xs => .ok (quantScale (amaxFin (xs.map (unpack bf16)))).1

/-- The block that takes the K (kv 0) or V (kv 1) row of a token, with its header: none when the table names none yet. A block that the
append does not accept, and a new block that no slot of the pool can hold, fail (R351, R355, R358). -/
def appBlock (s : State) (t : KvTab) (w : KvWait) (tok kv : Nat) : Except (Nat × W64) (Option (Nat × KvHdr)) :=
  let p := w.app.pos0 + tok
  let dusk := s.cx.id.prof != .p
  let half := if dusk then 1 else 0
  let rd := ctxReader s s.cx 8
  match kvEntry rd w.btab t w.app.layer w.app.kvh kv (p / 16) half with
  | .error e => .error (e, kvHalfAt w.btab t w.app.layer w.app.kvh kv (p / 16) half)
  | .ok 0 =>
    if (Tab.get Pool.zero (s.vi s.cx.it.vi).pools s.cx.id.die).size * 64 < kvSize dusk t.hdim then .error (tcOperand, 0) else .ok none
  | .ok e =>
    match kvHdr rd e with
    | .error c => .error (c, natW e)
    | .ok h =>
      let stOk := if dusk then h.state == bsLive || h.state == bsLanded else h.state == bsFilling
      let scOk := match val32 h.scale with
        | .fin neg m _ => !neg && m != 0
        | _ => false
      if h.gen ≠ w.sgen || !stOk then .error (tcStale, natW e)
      else if h.bitmap / 2 ^ (p % 16) ≠ 0 || (dusk && !scOk) then .error (tcOperand, 0)
      else .ok (some (e, h))
/-- Write a row into its block: the elements, then the bit of its position (R351). -/
def appPut (s : State) (t : KvTab) (w : KvWait) (tok kv e : Nat) (h : KvHdr) (row : List Nat) : AppRes :=
  let dusk := s.cx.id.prof != .p
  let i := (w.app.pos0 + tok) % 16
  let qs := row.map fun x => if dusk then
      (match unpack bf16 x with
        | .fin s' m q => let z := divF (.fin s' m q) (val32 h.scale); (satE4M3 0 false z.1.1 z.1.2).1
        | v => (satE4M3 0 false v false).1)
    else x
  let ws := qs.zipIdx.map fun q => (natW (e + kvElemAt dusk kv t.hdim (kvSlot h.bitmap i) q.2), if dusk then 1 else 2, q.1)
  match appWrites s (ws ++ [(natW e, 2, h.bitmap + 2 ^ i)]) with
  | .ok s1 => .ok s1
  | .error f => .fault s f.1 f.2
/-- The append of the K (kv 0) or V (kv 1) row of a token (R351). A new block takes the lowest EMPTY slot, behind the appends that wait
already; `again` says that this append is the first of those (R358). -/
def appHalf (s : State) (t : KvTab) (w : KvWait) (tok kv : Nat) (again : Bool) : AppRes :=
  let lb := (w.app.pos0 + tok) / 16
  let dusk := s.cx.id.prof != .p
  let src := if kv = 0 then w.app.srck else w.app.srcv
  let at' := kvHalfAt w.btab t w.app.layer w.app.kvh kv lb (if dusk then 1 else 0)
  let row := src + natW (tok * w.app.sstr)
  match appBlock s t w tok kv with
  | .error e => .fault s e.1 e.2
  | .ok blk =>
    match appRow s row t.hdim with
    | .error e => .fault s e.1 e.2
    | .ok xs =>
      let s0 := noteRead (noteRead s at' 8) row (2 * t.hdim)
      match blk with
      | some (e, h) => appPut (noteRead s0 (natW e) 64) t w tok kv e h xs
      | none =>
        match (if dusk then appScale s src w.app t.hdim lb else .ok one32 : Except (Nat × W64) W32) with
        | .error e => .fault s e.1 e.2
        | .ok sc =>
          let pool := Tab.get Pool.zero (s.vi w.vi).pools w.die
          if !again && s.kvq.any (fun q => q.die == w.die && q.vi == w.vi) then .wait
          else match pool.lowest with
            | none => .wait
            | some i =>
              let e := pool.base + natW (i * pool.size * 64)
              let h : KvHdr := ⟨0, if dusk then bsLive else bsFilling, s.dieAddr w.die, w.sgen, sc,
                (Config.freeBits s.fresh (200000 + 2 * tok + kv)).setWidth 32, lb, w.app.layer, w.app.kvh, kv, w.app.srec⟩
              match appWrites (takeSlot s0 w.vi w.die i) [(e, 64, h.value), (at', 8, e.toNat)] with
              | .ok s1 => appPut s1 t w tok kv e.toNat h xs
              | .error f => .fault s f.1 f.2
/-- The rows that are left, the K row and then the V row of each token. Neither row of a token is written when one of its blocks is not
accepted; a fault leaves the tokens before it appended; a row that finds no slot stands in the order of waiting appends. -/
def appRows (t : KvTab) (w : KvWait) (again : Bool) (left : Nat) (s : State) : State :=
  match left with
  | 0 => doneX s
  | k + 1 =>
    let tok := (2 * w.app.ntok - (k + 1)) / 2
    let kv := (2 * w.app.ntok - (k + 1)) % 2
    match (if kv = 0 then appBlock s t w tok 1 else .ok none) with
    | .error e => failX (noteRead s (kvHalfAt w.btab t w.app.layer w.app.kvh 1 ((w.app.pos0 + tok) / 16) 0) 16) e.1 e.2
    | .ok _ => match appHalf s t w tok kv again with
      | .ok s1 => appRows t w again k s1
      | .fault s1 c x => failX s1 c x
      | .wait =>
        let w' := { w with tok := tok, kv := kv }
        { s with kvq := if again then w' :: s.kvq else s.kvq ++ [w'] }
/-- The checks of step 2 of R338 over the source rows: window, alignment and permission. -/
def appChecks (s : State) (a : KvApp) (hdim : Nat) : Option (Nat × W64) :=
  let c := xctx s
  let rows := [a.srck, a.srcv].flatMap fun b => (List.range a.ntok).map fun t => b + natW (t * a.sstr)
  let us := rows.map fun r => (r, unitAt s c .rd r (2 * hdim))
  (((badStart s c rows).or (misaligned 4 rows)).or (pastEnd s c (rows.map fun r => (r, 2 * hdim)))).or (earlyFault us)
/-- The layer, the head and the last logical block lie within the counts of the table (R356). -/
def appInTab (t : KvTab) (a : KvApp) : Bool := a.layer < t.nlayer && a.kvh < t.nkv && (a.pos0 + a.ntok - 1) / 16 < t.nlb
/-- R351. -/
def execXkvapp (w : FR) (s : State) : Out :=
  runX w [w.a] (fun s x =>
    if 2 < x.a.toNat / 2 ^ 60 || !alignedTo x.a 64 then .next (failX s tcOperand 0)
    else match ctxReader s (xctx s) 64 x.a 64 with
      | .error e => .next (failX s e x.a)
      | .ok v =>
        let s := noteRead s x.a 64
        match parseApp v with
        | none => .next (failX s tcOperand 0)
        | some a =>
          let rd := ctxReader s s.cx 8
          match rd a.srec 8, rd (a.srec + 64) 8 with
          | .error e, _ => .next (failX s e a.srec)
          | _, .error e => .next (failX s e (a.srec + 64))
          | .ok w0, .ok btab =>
            let s := noteRead s a.srec 72
            let want := if s.cx.id.prof = .p then ssPrefill else ssDecode
            if nbits w0 32 11 ≠ s.dieAddr s.cx.id.die || nbits w0 16 4 ≠ want then .next (failX s tcStale a.srec)
            else match streamTab rd a.srec (natW btab) with
              | .error e => .next (failX s e.1 e.2)
              | .ok t =>
                let s := noteRead s (natW btab) 64
                if !appInTab t a then .next (failX s tcOperand 0)
                else match appChecks s a t.hdim with
                  | some e => .next (failX s e.1 e.2)
                  | none => .next (appRows t ⟨s.cx.id.die, s.cx.it.vi, s.cx.id, s.cur.seq, s.cur.line, s.cur.slot, a, natW btab,
                      nbits w0 48 16, 0, 0⟩ false (2 * a.ntok) s)) s
/-- The append that waits goes on in its context, as its instruction would. -/
def resumeApp (w : KvWait) (s : State) : State :=
  let t := { s with cur := { QEntry.none with seq := w.seq, line := w.line, slot := w.slot } }
  let u := match streamTab (ctxReader t t.cx 8) w.app.srec w.btab with
    | .error e => failX t e.1 e.2
    | .ok tab => appRows tab w true (2 * w.app.ntok - (2 * w.tok + w.kv)) t
  { u with cur := s.cur, fresh := u.fresh + 1 }

/-! ## The split planner (R352) -/

/-- The spans of blocks lo to hi - 1 over entries with their block counts, from global block `at'` and entry i. -/
def planSpans (lo hi : Nat) (bs : List Nat) (at' i : Nat) : List (Nat × Nat × Nat) :=
  match bs with
  | [] => []
  | b :: r =>
    let f := max lo at'
    let l := min hi (at' + b)
    let rest := planSpans lo hi r (at' + b) (i + 1)
    if f < l then (i, f - at', l - f) :: rest else rest
/-- The words of the list of a core (R352). -/
def planList (c ncore maxspan : Nat) (bs : List Nat) : List Nat :=
  let t := bs.foldl (· + ·) 0
  let lo := c * t / ncore
  let hi := (c + 1) * t / ncore
  let sp := planSpans lo hi bs 0 0
  let kept := sp.take maxspan
  (kept.length + (if maxspan < sp.length then 65536 else 0) + 2 ^ 32 * (hi - lo))
    :: kept.map fun s => s.1 + 2 ^ 16 * s.2.1 + 2 ^ 40 * s.2.2
/-- The two words of an 8-byte value at an address. -/
def wordPair (a : W64) (v : Nat) : List (W64 × Nat) := [(a, v % 2 ^ 32), (a + 4, v / 2 ^ 32)]
/-- R352. The words of the snapshot that xplan does not use, reserved ones among them, are not looked at: R6 does not name this header
(DESIGN CHOICE, log entry 120). The snapshot and the first word of every list are checked before an entry is read (R338). -/
def execXplan (w : FR) (s : State) : Out :=
  runX w [w.d, w.a, w.b] (fun s x =>
    let ncore := bitsOf x.b 0 16
    let maxspan := bitsOf x.b 16 16
    let c := xctx s
    let rstr := 64 * ((8 + 8 * maxspan + 63) / 64)
    let dst (a : W64) : W64 × Except Nat (List Nat) := (a, unitAt s c .wr a 4)
    let firsts := (List.range ncore).map fun k => dst (x.d + natW (k * rstr))
    let head := valueUnits s c .rd x.a 4 16
    let pos (n : Nat) := (List.range n).map fun i => (x.a + natW (64 + 32 * i + 16), unitAt s c .rd (x.a + natW (64 + 32 * i + 16)) 4)
    if bitsOf x.b 32 32 ≠ 0 || ncore = 0 || 1024 < ncore || maxspan = 0 || 256 < maxspan then .next (failX s tcOperand 0)
    else match ((badStart s c [x.a, x.d]).or (misaligned 4 [x.a, x.d])).or ((earlyFault (head ++ firsts)).or (unitFault lateCause head)) with
      | some e => .next (failX s e.1 e.2)
      | none =>
        let nact := nbits (homeNat s (head.flatMap fun u => keysOr u.2)) 64 16
        let es := pos nact
        match (earlyFault es).or (unitFault lateCause es) with
        | some e => .next (failX s e.1 e.2)
        | none =>
          let bs := es.map fun u => (homeNat s (keysOr u.2) + 15) / 16
          let ws := (List.range ncore).flatMap fun k => (planList k ncore maxspan bs).zipIdx.flatMap fun v =>
            wordPair (x.d + natW (k * rstr + 8 * v.2)) v.1
          let us := ws.map fun v => dst v.1
          match earlyFault us with
          | some e => .next (failX s e.1 e.2)
          | none =>
            let late := unitFault lateCause us
            let cells := ((us.zip ws).zipIdx.filter fun p => late.isNone || pick s (2 ^ 45 + p.2)).flatMap fun p =>
              (keysOr p.1.1.2).zip (leBytes 4 p.1.2.2)
            if !fabricClear s (cells.map (·.1)) then .next s.block
            else
              let s1 := noteRead (noteSealed (touchBanks s (cells.map (·.1))) s.cx.it.rid (cells.map (·.1))) x.a (64 + 32 * nact)
              let s2 := storeCells s1 cells
              match late with
              | some e => .next (failX s2 e.1 e.2)
              | none => .next (doneX s2)) s

end Sys2Proof.Machine
end

