-- ==== Sys2Proof/Machine/NearMem.lean ====
section
/-! DEFINITION. The near-memory instructions of profile B and the direct-row access (R375 to R385). -/

namespace Sys2Proof.Machine

/-! ## Direct rows (R375) -/

/-- The same after an instruction's writes: they reach DRAM past the buffer. -/
def pastBuffer (ks : List Nat) (o : Out) : Out :=
  match o with
  | .next s => .next (drainWc s ks)
  | o => o
/-- R375: access a of a base vector core's queues, through window 0x4, holds its lines, reads or writes DRAM and releases
them. -/
def execDirectRowAccess (s : State) : Out :=
  match s.cx.accs[s.sub.a]? with
  | none => .refused (.noSubject "no such access")
  | some a =>
    if !directRow s.cx a || !accOk s s.sub.a then .refused (.noSubject "no direct-row access")
    else
      let ks := match accResolve s a with | .ok ks => ks | .error _ => []
      pastBuffer ks (performAcc (drainWc s ks) s.sub.a s.sub.ecc)

/-- The limits of R376 on addresses: a source in window 0x4, a result in window 0x1 or 0x4. -/
def inWin (a : W64) (ws : List Nat) : Bool := ws.contains (a.toNat / 2 ^ 60)
/-- A range of a near-memory instruction: its kind, address, bytes and alignment. -/
structure NearRange where
  kind : AccessKind
  a : W64
  n : Nat
  al : Nat
deriving DecidableEq, Repr
/-- A range through window 0x4 that does not lie inside one vault (R376). -/
def leavesVault (s : State) (r : NearRange) : Bool :=
  match placeOf s (xctx s) r.a with
  | .ok (.vault _ pa) => 2 ^ 30 < pa % 2 ^ 30 + r.n
  | _ => false
/-- The keys of the ranges of a near-memory instruction, or its first fault in the order of R338 and R376. -/
def nearAll (s : State) (rs : List NearRange) : Except (Nat × W64) (List (List Nat)) :=
  if rs.any (leavesVault s) then .error (tcOperand, 0)
  else
    let us := rs.map fun r => (r.a, resolve s (xctx s) r.kind true false r.a r.n r.al)
    match (unitFault (· == tcWindow) us).or ((unitFault (· == tcAlign) us).or ((earlyFault us).or (unitFault lateCause us))) with
    | some e => .error e
    | none => .ok (us.map fun u => keysOr u.2)
/-- A direct-row read: the lines are drained, uncorrectable ones mark the region, and the banks wake. -/
def nearSee (s : State) (ks : List Nat) : State := noteBad (touchBanks (drainWc s ks) ks) s.cx.it.rid ks
/-- A direct-row write of a value. -/
def nearPut (s : State) (ks : List Nat) (v : Nat) : State :=
  drainWc (storeBytes (noteSealed (touchBanks s ks) s.cx.it.rid ks) ks (leBytes ks.length v)) ks

/-! ## Sums and greatest magnitudes (R377, R378) -/

/-- The shape of xnred and xnamax (R376). -/
structure Shape where
  n : Nat
  ngrp : Nat
  ty : Nat
  stride : Nat
deriving DecidableEq, Repr
/-- The shape and stride registers: none outside their limits. -/
def parseShape (amax : Bool) (b c : W64) : Option Shape :=
  let h : Shape := ⟨bitsOf b 0 16, bitsOf b 16 16, bitsOf b 32 2, bitsOf c 0 32⟩
  if bitsOf b 34 30 ≠ 0 || h.n = 0 || h.ngrp = 0 || 4096 < h.ngrp || h.ty = 3 || (h.ty = 2 && !amax) || 2 ^ 20 < h.n * h.ngrp
      || h.stride % 4 ≠ 0 || bitsOf c 32 32 ≠ 0 then none
  else some h
/-- The bytes of an element and the element's value. -/
def Shape.bytes (h : Shape) : Nat := match h.ty with | 0 => 4 | 1 => 2 | _ => 1
def Shape.val (h : Shape) (n : Nat) : FVal := unpack (match h.ty with | 0 => f32 | 1 => bf16 | _ => e4m3) n
/-- The exact sum of finite values rounded once, with the first three rows of R344 (R377). -/
def sumExact (vs : List FVal) : W32 :=
  let pinf := vs.any fun v => v.isInf && !v.neg
  let ninf := vs.any fun v => v.isInf && v.neg
  if vs.any FVal.isNaN || (pinf && ninf) then nan32
  else if pinf then 0x7F800000
  else if ninf then 0xFF800000
  else rne32 (ofScaled false (vs.foldl (fun t v => match v with
    | .fin s m e => t + scaled s m e (-149)
    | _ => t) 0) (-149))
/-- The greatest finite magnitude as FP32 (R378). -/
def amaxWord (vs : List FVal) : W32 := rne32 (amaxFin vs)
/-- Reduce each group by f. -/
def nearReduce (amax : Bool) (f : List FVal → W32) (w : FR) (s : State) : Out :=
  runX w [w.d, w.a, w.b, w.f] (fun s x =>
    match parseShape amax x.b x.c with
    | none => .next (failX s tcOperand 0)
    | some h =>
      if !inWin x.a [4] || !inWin x.d [1, 4] || x.d.toNat % 4 ≠ 0 then .next (failX s tcOperand 0)
      else
        let grp : List NearRange := (List.range h.ngrp).map fun g => ⟨.rd, x.a + natW (g * h.stride), h.n * h.bytes, 4⟩
        match nearAll s (⟨.wr, x.d, 4 * h.ngrp, 4⟩ :: grp) with
        | .error e => .next (failX s e.1 e.2)
        | .ok [] => .next (doneX s)
        | .ok (dk :: ks) =>
          .next (doneX (ks.zipIdx.foldl (fun t u =>
            let t1 := nearSee t u.1
            let v := homeNat t1 u.1
            let r := f ((List.range h.n).map fun i => h.val (nbits v (8 * h.bytes * i) (8 * h.bytes)))
            nearPut t1 ((dk.drop (4 * u.2)).take 4) r.toNat) s))) s
/-- R377. -/
def execXnred (w : FR) (s : State) : Out := nearReduce false sumExact w s
/-- R378. -/
def execXnamax (w : FR) (s : State) : Out := nearReduce true amaxWord w s

/-! ## Rows (R379, R384) -/

/-- Copy row i, whole: the lines of both ends are held (R375, R379). A 4-byte unit whose source the instruction has written takes the
value from before it or the one written (R337). -/
def cloneRow (s0 : State) (ss ds : List Nat) (w : List Nat) (i : Nat) (s : State) : State :=
  let old := homeBytes s0 ss
  let s1 := nearSee s ss
  let new := homeBytes s1 ss
  let hit := ss.any w.contains
  nearPut s1 ds (leNat ((unitsOf 1024).flatMap fun u =>
    ((if hit && pick s0 (2 ^ 44 + 256 * i + u.1 / 4) then new else old).drop u.1).take u.2))
/-- Copy rows one after the other. -/
def cloneRows (s0 : State) (ss ds : List Nat) (w : List Nat) (is : List Nat) (s : State) : State :=
  match is with
  | [] => s
  | i :: r =>
    let d := (ds.drop (1024 * i)).take 1024
    cloneRows s0 ss ds (d ++ w) r (cloneRow s0 ((ss.drop (1024 * i)).take 1024) d w i s)
/-- R379. -/
def execXnclone (w : FR) (s : State) : Out :=
  runX w [w.d, w.a, w.b] (fun s x =>
    let n := x.b.toNat
    if n % 1024 ≠ 0 || 2 ^ 24 < n || !inWin x.a [4] || !inWin x.d [4] || x.a.toNat % 1024 ≠ 0 || x.d.toNat % 1024 ≠ 0 then
      .next (failX s tcOperand 0)
    else if n = 0 then .next (doneX s)
    else match nearAll s [⟨.rd, x.a, n, 1024⟩, ⟨.wr, x.d, n, 1024⟩] with
      | .ok [ss, ds] =>
        let is := List.range (n / 1024)
        .next (doneX (cloneRows s ss ds [] (if pick s 99999 then is.reverse else is) s))
      | .ok _ => .next (doneX s)
      | .error e => .next (failX s e.1 e.2)) s
/-- R384: every line is written whole, so it becomes correctable, and its write-combining line is discarded. -/
def execXnwipe (w : FR) (s : State) : Out :=
  runX w [w.d, w.b] (fun s x =>
    let n := x.b.toNat
    if n % 1024 ≠ 0 || 2 ^ 24 < n || !inWin x.d [4] || x.d.toNat % 1024 ≠ 0 then .next (failX s tcOperand 0)
    else if n = 0 then .next (doneX s)
    else match nearAll s [⟨.wr, x.d, n, 1024⟩] with
      | .error e => .next (failX s e.1 e.2)
      | .ok ks => .next (doneX (nearPut s ks.flatten 0))) s

/-! ## Blocks (R380 to R382) -/

/-- The block-control register: HDIM and EGEN, none outside their limits (R380). -/
def parseBlk (b : W64) : Option (Nat × Nat) :=
  let h := bitsOf b 0 10
  if bitsOf b 10 6 ≠ 0 || bitsOf b 32 32 ≠ 0 || h < 16 || 512 < h || h % 16 ≠ 0 then none else some (h, bitsOf b 16 16)
/-- The keys of the ranges beside a block, its own keys and its header, after the checks of R380; the state is the one that has read the
header. -/
def nearBlock (s : State) (a b : W64) (rs : List NearRange) : State × Except (Nat × W64) (List Nat × Nat × List Nat × KvHdr) :=
  match parseBlk b with
  | none => (s, .error (tcOperand, 0))
  | some (hdim, egen) =>
    if !inWin a [4] then (s, .error (tcOperand, 0))
    else match nearAll s (⟨.wr, a, kvSize true hdim, 64⟩ :: rs) with
      | .error e => (s, .error e)
      | .ok [] => (s, .error (tcOperand, 0))
      | .ok (ks :: more) =>
        let s1 := nearSee s (ks.take 64)
        match kvHdr (fun _ n => .ok (homeNat s1 (ks.take n))) 0 with
        | .error e => (s1, .error (e, a))
        | .ok h =>
          if h.owner ≠ s.dieAddr s.cx.id.die || h.gen ≠ egen || !(h.state == bsLive || h.state == bsLanded) then
            (s1, .error (tcStale, a))
          else (s1, .ok (more.flatten, hdim, ks, h))
/-- The elements of slot k of a block's bytes (R353). -/
def slotBytes (bs : List Byte) (kv hdim k : Nat) : List Byte :=
  (List.range hdim).map fun d => bs.getD (kvElemAt true kv hdim k d) 0
/-- The payload of a destination block whose slots are given. -/
def packSlots (slots : List (List Byte)) (kv hdim : Nat) : List Byte :=
  (List.range (16 * hdim)).map fun o =>
    let k := if kv = 0 then o % 16 else o / hdim
    let d := if kv = 0 then o / 16 else o % hdim
    (slots.getD k []).getD d 0
/-- R381. -/
def execXncomp (w : FR) (s : State) : Out :=
  runX w [w.d, w.a, w.b] (fun s x =>
    if bitsOf x.a 16 48 ≠ 0 then .next (failX s tcOperand 0)
    else match nearBlock s x.d x.b [] with
      | (s, .error e) => .next (failX s e.1 e.2)
      | (s, .ok (_, hdim, ks, h)) =>
        let s1 := nearSee s ks
        let bs := homeBytes s1 ks
        let keep := bitsOf x.a 0 16
        let old := (List.range 16).filter fun i => h.bitmap.testBit i
        let slots := (old.zipIdx.filter fun p => keep.testBit p.1).map fun p => slotBytes bs h.kv hdim p.2
        let pay := packSlots slots h.kv hdim
        let s2 := nearPut s1 (ks.drop 64) (leNat pay)
        .next (doneX (nearPut s2 (ks.take 2) (h.bitmap &&& keep)))) s
/-- Requantise an element of a block from scale s0 to a new scale (R382). -/
def rescale (s0 : W32) (sc : W32 × Bool) (b : Byte) : Byte :=
  match unpack e4m3 b.toNat with
  | .nan _ => b
  | v =>
    if sc.2 then 0
    else
      let q := divF (mulF v (val32 s0)).1 (val32 sc.1)
      BitVec.ofNat 8 (satE4M3 0 false q.1.1 q.1.2).1
/-- R382: the slots at or above the number of survivors are not touched. -/
def execXnscale (w : FR) (s : State) : Out :=
  runX w [w.d, w.a, w.b] (fun s x =>
    let no := w.d = 0
    if !no && (!inWin x.d [1, 4] || x.d.toNat % 4 ≠ 0) then .next (failX s tcOperand 0)
    else match nearBlock s x.a x.b (if no then [] else [⟨.wr, x.d, 4, 4⟩]) with
      | (s, .error e) => .next (failX s e.1 e.2)
      | (s, .ok (ak, hdim, ks, h)) =>
        match val32 h.scale with
        | .fin neg m _ =>
          if neg || m = 0 then .next (failX s tcOperand 0)
          else
            let s1 := nearSee s ks
            let bs := homeBytes s1 ks
            let n := ((List.range 16).filter fun i => h.bitmap.testBit i).length
            let slots := (List.range n).map fun k => slotBytes bs h.kv hdim k
            let a := amaxFin (slots.flatten.map fun b => (mulF (unpack e4m3 b.toNat) (val32 h.scale)).1)
            let sc := quantScale a
            let at' := (List.range n).flatMap fun k => (List.range hdim).map fun d => ks.getD (kvElemAt true h.kv hdim k d) 0
            let s2 := nearPut s1 at' (leNat (slots.flatten.map (rescale h.scale sc)))
            let s3 := nearPut s2 ((ks.drop 8).take 4) sc.1.toNat
            .next (doneX (if no then s3 else nearPut s3 ak (rne32 a).toNat))
        | _ => .next (failX s tcOperand 0)) s

/-! ## Checksums and status (R383, R385) -/

/-- R383. -/
def execXncrc (w : FR) (s : State) : Out :=
  runX w [w.d, w.a, w.b] (fun s x =>
    let n := x.b.toNat
    let chain := w.f.getLsbD 0
    if 2 ^ 24 < n || !inWin x.a [4] || !inWin x.d [1, 4] || x.d.toNat % 4 ≠ 0 then .next (failX s tcOperand 0)
    else match nearAll s (⟨if chain then .rw else .wr, x.d, 4, 4⟩ :: if n = 0 then [] else [⟨.rd, x.a, n, 1⟩]) with
      | .error e => .next (failX s e.1 e.2)
      | .ok [] => .next (doneX s)
      | .ok (dk :: rest) =>
        let ks := rest.flatten
        let s1 := nearSee s (ks ++ if chain then dk else [])
        if n = 0 && chain then .next (doneX s1)
        else
          let start : W32 := if chain then BitVec.ofNat 32 (homeNat s1 dk) else 0
          .next (doneX (nearPut s1 dk (crc32c start (homeBytes s1 ks)).toNat))) s

/-- The status words of a vault (R306, R370). -/
def Vault.vtax (v : Vault) : Nat :=
  let t := v.banks.foldl (fun m b => max m b.2.temp) 0
  let r := v.banks.foldl (fun m b => max m b.2.rate) 0
  v.rtax + 256 * min 255 t + 65536 * r
def Vault.vecc (v : Vault) : Nat := v.corrected + 65536 * v.uncorrectable
def Vault.vfgd (v : Vault) : Nat := v.fgd + 65536 * v.fgdrun
def Vault.sleepMap (v : Vault) : Nat :=
  v.banks.foldl (fun m b => if b.2.asleep then m ||| 2 ^ b.1 else m) 0
/-- The 32 bytes of xnstat (R385). -/
def Vault.status (v : Vault) : Nat :=
  v.vtax + 2 ^ 32 * v.wakewait + 2 ^ 64 * v.wakereplay + 2 ^ 96 * v.vecc + 2 ^ 128 * v.vfgd + 2 ^ 192 * v.sleepMap
/-- R385: needs no grant in DWIN. -/
def execXnstat (w : FR) (s : State) : Out :=
  runX w [w.d, w.a] (fun s x =>
    if 3 < x.a.toNat || !inWin x.d [1] || x.d.toNat % 32 ≠ 0 then .next (failX s tcOperand 0)
    else match nearAll s [⟨.wr, x.d, 32, 32⟩], placeOf s s.cx (natW (4 * 2 ^ 60 + x.a.toNat * 2 ^ 32)) with
      | .error e, _ => .next (failX s e.1 e.2)
      | .ok dk, .ok (.vault v _) => .next (doneX (storeBytes s dk.flatten (leBytes 32 (s.vault v).status)))
      | .ok _, _ => .next (failX s tcOperand 0)) s

end Sys2Proof.Machine
end

