-- ==== Sys2Proof/Machine/Sequencer.lean ====
section
/-! DEFINITION. The device steps of a context: fetch and delivery of lines (R91 to R99, R123, R133), results, counters and
accesses (R125, R142, R312, R418), the end of a trap (R394 to R397), barriers (R333) and the two contexts of a core (R68). -/

namespace Sys2Proof.Machine

/-! ## Which context issues -/

/-- The context is its core's active one and no change is under way (R68). -/
def isActive (s : State) (c : Ctx) : Bool :=
  c.has && (s.coreSt c.id.coreKey).active == c.id.ctx && (s.coreSt c.id.coreKey).change.isNone
/-- The context's sequencer may go on: it is active, runs, and no trap is being taken. -/
def seqRuns (s : State) : Bool := isActive s s.cx && s.cx.mode == .run && s.cx.due.isNone && s.cx.caps.isNone

/-! ## Fetch (R91, R96, R115, R123) -/

/-- A line trap: cause, slot, address, stream code (R392). -/
def lineTrap (s : State) (cause slot : Nat) (addr : W64) (code : Nat) : State :=
  takeTrap s ⟨cause, s.cx.pc, slot, addr, 0, code, true⟩

/-- The eight words of a line from its 32 bytes. -/
def lineOf (v : Nat) : Line := (List.range 8).map fun k => BitVec.ofNat 32 (v / 2 ^ (32 * k))

/-- The cached line of the core at an address (R115). -/
def cachedLine (s : State) (a : W64) : Option Line :=
  (s.icache.find? fun l => l.core == s.cx.id.coreKey && l.asid == s.cx.it.asid && l.gen == s.cx.it.gen && l.addr == a
    && (s.asid l.asid).gen == l.gen).map (·.line)
/-- The lines that a core's cache holds: 32 KiB, in a base vector core 8 KiB (R115). -/
def icacheLines (c : CtxId) : Nat := if c.bvc then 256 else 1024
/-- Enter a line into the core's cache; the oldest line gives way. -/
def cacheLine (s : State) (a : W64) (l : Line) : State :=
  let mine := s.icache.filter fun x => x.core == s.cx.id.coreKey
  let kept := if icacheLines s.cx.id ≤ mine.length then (match mine with | [] => s.icache | o :: _ => s.icache.erase o) else s.icache
  { s with icache := kept ++ [⟨s.cx.id.coreKey, s.cx.it.asid, s.cx.it.gen, a, l⟩] }

/-- The line that the sequencer delivers next: the target of a taken transfer, else the next line in memory. -/
def nextPc (c : Ctx) : W64 :=
  match c.nxt with
  | some t => t
  | none => if c.inLine then c.pc + 32 else c.pc

/-- Close the delivered line (R95): the sequencer turns to the next one. A target outside the replay buffer costs the cycles
of the instruction cache (R123). -/
def closeLine (s : State) : State :=
  let t := nextPc s.cx
  let far := s.cx.nxt.isSome && !s.cx.replay.any (·.1 == t)
  let at' := if far then max (s.cx.nextIss.getD 0 0) (s.cycle + 2) else s.cx.nextIss.getD 0 0
  { s with cx := { s.cx with pc := t, nxt := none, inLine := false, line := none, nextIss := s.cx.nextIss.setIfInBounds 0 at' } }

/-- Read the line at the program counter: from the replay buffer, which holds lines in decoded form (R123), else from the cache, else
from memory under the region's address space and generation; a fault is reported at the line (R91). -/
def fetchLine (s : State) : State :=
  match ((s.cx.replay.find? (·.1 == s.cx.pc)).map (·.2)).or (cachedLine s s.cx.pc) with
  | some l => { s with cx := { s.cx with line := some l } }
  | none =>
    match resolve s s.cx .ex false false s.cx.pc 32 32 with
    | .error e => lineTrap (noteOwnWalk s e s.cx.pc) e 0 s.cx.pc 0
    | .ok ks =>
      if fencedKeys s s.cx.id.die ks then s
      else
      let l := lineOf (homeNat s ks)
      let s1 := touchBanks (noteBad (noteXlat s s.cx s.cx.pc 32) s.cx.it.rid ks) ks
      let s2 := cacheLine s1 s.cx.pc l
      { s2 with cx := { s2.cx with line := some l } }

/-- A line is to be fetched: none stands at the program counter, or the delivered line is done. -/
def canFetch (s : State) : Bool :=
  seqRuns s && s.cx.cq == [] && (s.cx.line.isNone || s.cx.inLine)

/-- A context that the scheduler has restored turns to its saved line: its captured operations are re-issued (R404 step 6). -/
def resumeRestored (s : State) : State :=
  match s.cx.resume with
  | some r =>
    if s.cx.lineSeq = 0 then { s with cx := { reissue s.cx s.cycle r.ops with resume := none } } else s
  | none => s

/-- R91, R95, R96: the delivered line ends, a fall-through past a LAST line traps at it, and the next line is fetched. -/
def execLineFetch (s : State) : Out :=
  if !canFetch s then .refused (.noSubject "no line to fetch")
  else if s.cx.inLine && s.cx.nxt.isNone && s.cx.last then .next (lineTrap s tcLine 0 0 0)
  else .next (fetchLine (if s.cx.inLine then closeLine s else resumeRestored s))

/-! ## Skipping the body of a loop of count 0 (R133) -/

/-- The change of the skip count by a line: +1 for a loop slot, -1 for a lend slot. -/
def skipDelta (l : Line) : Int :=
  (lineSlots l).foldl (fun n sl =>
    if sl.st != .c then n
    else match (sl.word.extractLsb' 26 6).toNat with
      | 8 => n + 1
      | 9 => n - 1
      | _ => n) 0
/-- Skip one line. -/
def skipLine (s : State) (n : Nat) (l : Line) : State :=
  match illegalLine l with
  | some k => lineTrap s tcLine k 0 (if k = 0 then 0 else slotCode l k)
  | none =>
    let m : Int := n + skipDelta l
    if lineLast l then lineTrap s tcLine 0 0 0
    else { s with cx := { s.cx with
      pc := s.cx.pc + 32, line := none, skip := if m < 0 then none else some m.toNat,
      nextIss := s.cx.nextIss.setIfInBounds 0 (s.cycle + 1) } }

/-! ## Delivery (R94, R99, R142) -/

/-- The request of the context's kernel, against which operands are checked (R49). -/
def requestOf (k : Khd) : Request :=
  { vregs := k.vregs, pregs := k.pregs, agsets := k.agsets
    ranges := (List.range 4).foldl (fun b m =>
      if (k.ranges[m]?).any (fun r => r.win != 0) then b ||| (1#4 <<< m) else b) 0 }

/-- The instruction reads the predicate that PSEL names: a V instruction with P = 1 (R220), or vsel, which selects by it whatever P is
(R237). -/
def isPredicated (i : Instr) : Bool :=
  match i with
  | .vadd w | .vsub w | .vmul w | .vfma w | .vfnma w | .vdiv w | .vmin w | .vmax w | .vabs w | .vneg w | .vsqrt w | .vrsqrt w
  | .vrcp w | .vexp2 w | .vlog2 w | .vexp w | .vtanh w | .vsigm w | .vsilu w | .vand w | .vor w | .vxor w | .vshl w | .vshr w
  | .vredsum w | .vredmax w | .vredmin w | .vredamax w | .vscan w | .vscanmax w | .vsmx w
  | .vsetsc w | .vgetsc w | .vperm w | .vzip w | .vunzip w | .vmov w | .viota w | .vbcast w | .vext w | .vins w => w.p
  | .vcvt w | .vquant w | .vdequant w => w.p
  | .vsel _ => true
  | .vcmp w | .vclass w => w.p
  | _ => false
/-- The lowest slot of a legal line that fails the check of R99, with its cause. A governing predicate beyond the request is
an illegal operand of the instruction that names it (R220). -/
def firstBad (c : Ctx) (l : Line) : Option (Nat × Nat) :=
  (lineSlots l).findSome? fun sl =>
    match checkSlot c.id.prof (requestOf c.khd) sl with
    | .illegalInstruction => some (sl.slot, tcInstr)
    | .illegalOperand => some (sl.slot, tcOperand)
    | .ok i => if isPredicated i && c.psel != 0 && c.khd.pregs ≤ c.psel.toNat then some (sl.slot, tcOperand) else none

/-- The queues of a stream. -/
def Ctx.queue (c : Ctx) (st : Stream) : List QEntry :=
  match st with
  | .c => c.cq
  | .s => c.sq
  | .v => c.vq
  | .m => c.mq
  | .x => c.xq
  | .a => c.aq
  | .y => c.yq
/-- Change the queue of a stream. -/
def Ctx.setQueue (c : Ctx) (st : Stream) (q : List QEntry) : Ctx :=
  match st with
  | .c => { c with cq := q }
  | .s => { c with sq := q }
  | .v => { c with vq := q }
  | .m => { c with mq := q }
  | .x => { c with xq := q }
  | .a => { c with aq := q }
  | .y => { c with yq := q }

/-- The level that gates a line delivered now (R101). -/
def levelNow (c : Ctx) : Option (Bool × Bool) :=
  if c.depth = 0 then none else some (c.inner.idx == 0, c.inner.idx.toNat + 1 == c.inner.cnt.toNat)
/-- The queue entries of a line (R94, R101, R147, R178, R220). -/
def entriesOf (c : Ctx) (now : Nat) (l : Line) : List (Stream × QEntry) :=
  (lineSlots l).map fun sl => (sl.st,
    ⟨sl.word, sl.ext, c.pc, sl.slot, c.lineSeq * 8 + sl.slot, levelNow c, c.rm, c.ten, c.psel, c.gzero, c.chk, now + 1,
      c.vdep, c.pdep, none⟩)

/-- A C instruction that acts when the rest of its line has acted: lend, lcont, exit, resume (R129, R151, R152), and after them cede
(R150). -/
def actsLast (w : W32) : Bool :=
  let op := (w.extractLsb' 26 6).toNat
  op == 9 || op == 0x0B || op == 0x1A || op == 0x1B || op == 0x1C
/-- The word is cede's. -/
def isCede (w : W32) : Bool := (w.extractLsb' 26 6).toNat == 0x1C
/-- The completion counters that a delivered entry enters (R142). -/
def countsIn (e : Stream × QEntry) : Option Nat :=
  if e.2.live then (e.2.instr e.1).bind counterOf else none
/-- Put the entries of a line into their queues, count them, and hold C instructions in their order (R94, R122, R142). -/
def enqueue (c : Ctx) (es : List (Stream × QEntry)) : Ctx :=
  let c1 := es.foldl (fun c e => if e.1 = .c then c else c.setQueue e.1 (c.queue e.1 ++ [e.2])) c
  let cs := (es.filter fun e => e.1 == .c).map (·.2)
  let c2 := { c1 with cq := (cs.filter fun e => !actsLast e.word)
    ++ (cs.filter fun e => actsLast e.word && !isCede e.word) ++ cs.filter fun e => isCede e.word }
  (es.filterMap countsIn).foldl (fun c k => c.bump k) c2

/-- Every queue that a line uses has room, and no counter goes above 255 (R94, R142). -/
def roomFor (c : Ctx) (es : List (Stream × QEntry)) : Bool :=
  ([Stream.s, .v, .m, .x, .a, .y].all fun st => (c.queue st).length + (es.filter fun e => e.1 == st).length ≤ 16)
    && ((List.range 4).all fun k =>
      (match k with | 0 => c.ncl | 1 => c.ncs | 2 => c.ncx | _ => c.ncm) + ((es.filterMap countsIn).filter (· == k)).length ≤ 255)

/-- An acquiring gatom is queued or outstanding: no later line is delivered (R171). -/
def acquiring (c : Ctx) : Bool :=
  let acq (o : Nat) : Bool := o == 1 || o == 3
  (c.sq.any fun e => e.live && (match e.instr .s with | some (.gatom w) => acq (w.f.toNat / 16) | _ => false))
    || (match c.gacc with | some g => (match g.op with | .gatom _ o _ _ => acq o | _ => false) | none => false)
/-- What holds delivery besides queue room: a slot of the line before, which carries HOLD, that has not issued (R92, R124), Y instructions (R73, R405), an acquire
(R171), the pace of checking mode and of a fetch (R123, R127). -/
def deliveryHeld (s : State) : Bool :=
  let c := s.cx
  let ofLast (e : QEntry) : Bool := e.seq / 8 + 1 == c.lineSeq
  (c.hold && (c.queues.any fun q => q.2.any ofLast)) || c.yq != [] || c.yfly.isSome || acquiring c
    || s.cycle < c.nextIss.getD 0 0

/-- A line stands fetched and undelivered. -/
def canDeliver (s : State) : Bool := seqRuns s && s.cx.line.isSome && !s.cx.inLine && !deliveryHeld s

/-- Deliver a legal line. -/
def deliver (s : State) (l : Line) (es : List (Stream × QEntry)) : State :=
  let c := enqueue s.cx es
  let arms := es.any fun e => e.1 == .c && e.2.live && (e.2.word.extractLsb' 26 6) == 0x1A
  { s with cx := { c with
    inLine := true, last := lineLast l, nxt := none, lineSeq := c.lineSeq + 1, hold := lineHold l,
    replay := ((c.pc, l) :: c.replay.filter (·.1 != c.pc)).take 64, dline := c.pc, wd := 0,
    resume := if arms then c.resume else none,
    perf := c.perf.setIfInBounds 1 (c.perf.getD 1 0 + 1),
    nextIss := (c.nextIss.setIfInBounds 0 (s.cycle + (if c.chk then 2 else 1))).setIfInBounds 1 (s.cycle + 1) } }

/-- R94: a whole line is checked, then delivered; a line in the body of a loop of count 0 is skipped. -/
def execLineDelivery (s : State) : Out :=
  if !canDeliver s then .refused (.noSubject "no line to deliver")
  else match s.cx.line with
    | none => .refused (.noSubject "no line to deliver")
    | some l =>
      match s.cx.skip with
      | some n => .next (skipLine s n l)
      | none =>
        match illegalLine l with
        | some k => .next (lineTrap s tcLine k 0 (if k = 0 then 0 else slotCode l k))
        | none =>
          match firstBad s.cx l with
          | some (k, cause) => .next (lineTrap s cause k 0 (slotCode l k))
          | none =>
            let es := entriesOf s.cx s.cycle l
            if roomFor s.cx es then .next (deliver s l es) else .next s.block

/-! ## Results (R125, R126, R180) -/

/-- The value that lands: the result, or, after a breach with another write, one of the two in each 4-byte unit (R126). -/
def landed (s : State) (f : InFlight) (old new : VReg) : VReg :=
  if f.contested then ⟨mixUnits s 0 old.d new.d, if pick s 1 then new.sc else old.sc⟩ else new

/-- Write a result (R125): register ages start anew (R137), a store-port entry becomes ready (R201). -/
def landRes (s : State) (f : InFlight) : Ctx :=
  let c := s.cx
  match f.res with
  | .none => c
  | .s r v => (c.meetS s.cycle r).ws r (landed s f (captS (c.rs r)) (captS v)).scalar
  | .v r d sc => (c.meetV s.cycle r).wv r (landed s f (c.v.getD r VReg.zero) ⟨d, sc⟩)
  | .vsc r sc =>
    let o := c.v.getD r VReg.zero
    (c.meetV s.cycle r).wv r ⟨o.d, (landed s f o ⟨o.d, sc⟩).sc⟩
  | .p r v =>
    (c.meetP s.cycle r).wp r
      ((landed s f ⟨(c.p.getD r 0).setWidth 1024, one32⟩ ⟨v.setWidth 1024, one32⟩).d.setWidth 128)
  | .port n eid d sc =>
    { c with sports := c.sports.setIfInBounds n ((c.sports.getD n []).map fun e =>
        if e.eid = eid then { e with ready := true, v := ⟨d, sc⟩ } else e) }
  | .tok t => { c with tokens := c.tokens ++ [t] }

/-- R125: result k lands, sets the flags it raised, and records an enabled arithmetic trap for the next boundary (R180). -/
def execResultWrite (s : State) : Out :=
  match s.cx.inflight[s.sub.a]? with
  | none => .refused (.noSubject "no such result")
  | some f =>
    if s.cycle < f.due then .refused (.noSubject "the result is not due")
    else
      let s1 := { s with cx := { s.cx with inflight := s.cx.inflight.eraseIdx s.sub.a }, fresh := s.fresh + 1 }
      let c := (landRes s1 f).raise f.flags
      let c1 := { c with smxnan := c.smxnan || f.smx }
      let more := c1.inflight.any fun g => g.seq == f.seq && g.st == f.st
      if f.flags &&& f.ten != 0 && f.st != .s && !more then
        .next { s1 with cx := pendTrap c1 ⟨tcArith, f.line, f.slot, natW (f.flags.toNat * 65536), 0, streamCode f.st, false⟩ }
      else .next { s1 with cx := c1 }

/-- R142: completion k leaves its counter. -/
def execCompletionCounterDecrement (s : State) : Out :=
  match s.cx.decs[s.sub.a]? with
  | none => .refused (.noSubject "no completion")
  | some d => .next { s with cx := { s.cx.drop d.ctr with decs := s.cx.decs.eraseIdx s.sub.a } }

/-! ## Accesses (R312, R418) -/

/-- The access that a step names: it stands in the queue named. -/
def accNamed (s : State) : Option Acc :=
  match s.cx.accs[s.sub.a]? with
  | none => none
  | some a => match s.sub.acc with
    | .glob => none
    | .host => none
    | .load => if a.ql then some a else none
    | .store => if a.qs then some a else none

/-- The loop core's tightly coupled memory, in bytes (R18). -/
def tcmSize : Nat := 262144
/-- The offset of BAR0 that an address of the loop core in machine mode names: its package's administrative page, or the page of one of its
package's VIs (R447). -/
def loopPage (s : State) (pa : Nat) : Option Nat :=
  let p := s.pkg.pkgnum.toNat
  if 0x100000000 ≤ pa && pa < 0x100010000 then some (0x10000 * p + (pa - 0x100000000))
  else if 0x100010000 ≤ pa && pa < 0x100050000 then some (0x4000000 + 0x40000 * p + (pa - 0x100010000))
  else none
/-- An access of the host or the loop core to n bytes, at most 8, which is performed as it arrives (R332): posted writes and reads of one
requester arrive in their order, and the loop core's in the order that its own memory model gives; each read returns the bytes in a
reply. With q set it is the loop core's own: to its tightly coupled memory (R18), or in machine mode, c = 3, to its package's pages (R447). -/
def hostAccess (s : State) : Out :=
  let k := s.sub.x.toNat
  let n := s.sub.b
  let page := if s.sub.q && s.pkg.loopcore && s.sub.c = 3 && n = 8 then loopPage s k else none
  match page with
  | some off => .next { s with agenda := .bar off s.sub.y s.sub.p :: s.agenda }
  | none =>
    if n = 0 || 8 < n || (if s.sub.q then !s.pkg.loopcore || tcmSize < k + n else !paOk s k n) then
      .refused (.noSubject "no such memory")
    else if s.sub.q then
      if s.sub.p then .next { s with tcm := Mem.putAll s.tcm ((keysFrom k n).zip (leBytes n s.sub.y.toNat)) }
      else .next { s with replies := s.replies ++ [⟨9, [natW (leNat ((keysFrom k n).map (Mem.get s.tcm)))]⟩] }
    else
      let ks := keysFrom k n
      let s1 := touchBanks s ks
      if s.sub.p then .next (storeBytes s1 ks (leBytes n s.sub.y.toNat))
      else
        let s2 := noteBad s1 0 ks
        .next { s2 with replies := s2.replies ++ [⟨9, [natW (homeNat s2 ks)]⟩] }
/-- R312: the named access reaches its home in its order and is performed. -/
def execAccessPerformed (s : State) : Out :=
  match s.sub.acc with
  | .glob =>
    match s.cx.gacc with
    | none => .refused (.noSubject "no outstanding S access")
    | some g => if g.st = .waiting then performGlob s g s.sub.ecc else .refused (.noSubject "the access has been performed")
  | .host => hostAccess s
  | _ =>
    match accNamed s with
    | none => .refused (.noSubject "no such access")
    | some a =>
      if directRow s.cx a then .refused (.noSubject "a base vector core reaches its vaults by direct-row accesses")
      else if accOk s s.sub.a then performAcc s s.sub.a s.sub.ecc
      else .refused (.noSubject "an older access comes first")

/-- R418: the access receives an error completion: the die-unreachable fault, and no byte is performed. -/
def execErrorCompletion (s : State) : Out :=
  match s.sub.acc with
  | .glob =>
    match s.cx.gacc with
    | none => .refused (.noSubject "no outstanding S access")
    | some g =>
      if g.st = .waiting then .next (setGacc s g (.failed tcUnreach)) else .refused (.noSubject "the access has been performed")
  | _ =>
    match accNamed s with
    | none => .refused (.noSubject "no such access")
    | some a => if a.op.isMark then .refused (.noSubject "a mark reaches no die") else .next (failAcc s s.sub.a a tcUnreach)

/-! ## Traps (R394 to R397) -/

/-- Everything that R394 step 3 waits for has completed. -/
def trapReady (s : State) : Bool :=
  let c := s.cx
  c.inflight == [] && c.gacc.isNone && c.accs == [] && c.mfly == [] && c.decs == [] && c.yfly.isNone
    && c.ag.all (fun g => g.run.isNone) && !(s.redWait.any fun w => w.ctx == c.id) && !s.kvq.any fun w => w.ctx == c.id

/-- The trap record (R395). The hub's time in nanoseconds is a free value. -/
def trapRecord (s : State) (t : TrapInfo) (more : Bool) : List W64 :=
  let c := s.cx
  let w0 := t.cause + 2 ^ 8 * t.prec.toNat + 2 ^ 9 * t.slot + 2 ^ 12 * t.st + 2 ^ 16 * more.toNat + 2 ^ 17 * c.id.ctx
    + 2 ^ 18 * s.dieAddr c.id.die + 2 ^ 29 * c.id.core + 2 ^ 38 * c.it.vi + 2 ^ 44 * t.code + 2 ^ 56 * c.id.bvc.toNat
  [natW w0, t.line, t.addr, nextPc c, c.it.nodeVa, natW (c.it.ord % 2 ^ 48), Config.freeBits s.fresh 0, 0]
/-- A list of words as one little-endian value. -/
def wordsNat (ws : List W64) : Nat := ws.foldr (fun w acc => w.toNat + 2 ^ 64 * acc) 0

/-- Write the record to the VI's trap log as a release at package scope, or count it as lost (R396). -/
def writeTrap (s : State) (t : TrapInfo) (more : Bool) : State :=
  let v := s.vi s.cx.it.vi
  let cnt := v.trapcnt.toNat
  let at' := v.trapbase + natW (64 * cnt)
  let lost := s.setVi s.cx.it.vi { v with traplost := v.traplost + 1 }
  let s1 :=
    if v.trapn ≤ cnt then lost
    else match resolve s s.cx .wr false false at' 64 64 with
      | .error _ => lost
      | .ok ks =>
        let s2 := touchBanks (storeBytes s ks (leBytes 64 (wordsNat (trapRecord s t more)))) ks
        s2.setVi s.cx.it.vi { v with trapcnt := v.trapcnt + 1 }
  { s1 with fresh := s.fresh + 1 }

/-- The end of an iteration by a trap (R394 steps 4 and 5): the record, the end of the context, the failure of its node
with status FAULT. -/
def finishTrap (s : State) (t : TrapInfo) (more : Bool) : State :=
  let s1 := writeTrap s t more
  failNode (endContext s1) s.cx.it.rid 3 s.cx.it.nodeVa

/-- R394: the trap of the context, once every issued instruction has completed, ends its iteration. -/
def execTrap (s : State) : Out :=
  match s.cx.due with
  | none => .refused (.noSubject "no trap is being taken")
  | some t => if trapReady s then .next (finishTrap s t s.cx.more) else .next s.block

/-- The cycles of the watchdog (R397). -/
def wdLimit (s : State) : Nat :=
  let n := (s.vi s.cx.it.vi).wdlim.toNat
  (if n = 0 then 256 else n) * 65536
/-- The line last delivered; before any, the entry line. -/
def lastLine (c : Ctx) : W64 := if c.lineSeq = 0 then c.pc else c.dline
/-- R397: the slot and stream of the C or Y instruction that holds delivery, also one on its way, or 0; an exit counts as 0. -/
def holder (c : Ctx) : Nat × Nat :=
  match c.cq with
  | e :: _ => match e.instr .c with
    | some (.exit _) => (0, 0)
    | _ => (e.slot, 1)
  | [] => match c.yq with
    | e :: _ => (e.slot, 7)
    | [] => if c.yfly.isSome then (c.yseq % 8, 7) else (0, 0)
/-- R397. -/
def execWatchdogExpiry (s : State) : Out :=
  if !s.cx.has || s.cx.wd < wdLimit s || s.cx.due.isSome then .refused (.noSubject "the watchdog has not expired")
  else
    let h := holder s.cx
    .next (takeTrap s ⟨tcWatchdog, lastLine s.cx, h.1, 0, 0, h.2, true⟩)

/-! ## Barriers (R333) -/

/-- The participants of a barrier that have not exited: iterations of its node instance in its group, running or saved. -/
def participants (s : State) (b : Barrier) : List Ctx :=
  (s.running ++ s.saved.map (·.ctx)).filter fun c => c.it.nid == b.nid && groupKey c.id b.scope == b.group
/-- Every iteration of a node instance has been dispatched. -/
def allDispatched (s : State) (nid : Nat) : Bool :=
  match s.node? nid with
  | some n => n.total ≤ n.next
  | none => false
/-- The next phase of a barrier is complete (R333). -/
def phaseReady (s : State) (b : Barrier) : Bool :=
  let ps := participants s b
  allDispatched s b.nid && (ps.any fun c => b.done < arrivalsAt c b.scope b.id)
    && ps.all fun c => b.done < arrivalsAt c b.scope b.id
/-- R333: the next phase of barrier k completes, which releases its waiters. -/
def execBarrierPhaseComplete (s : State) : Out :=
  match s.bars[s.sub.a]? with
  | none => .refused (.noSubject "no such barrier")
  | some b =>
    if phaseReady s b then .next { s with bars := s.bars.set s.sub.a { b with done := b.done + 1 } }
    else .refused (.noSubject "the phase is not complete")

/-! ## The two contexts of a core (R68) -/

/-- The focused context gives way: its lease is to end, its request is withdrawn and its replay buffer is emptied (R68, R70,
R123, R254). -/
def giveWay (s : State) (next : Nat) : State :=
  let s1 := startChange (endLeaseSoon s s.cx.id) s.cx.id.coreKey next
  { s1 with cx := { s1.cx with replay := [], stall := 0, prioReq := false } }
/-- The stall change is due: 64 cycles at a blocking wait, and the other context is ready (R68). -/
def stallDue (s : State) : Bool :=
  isActive s s.cx && 64 ≤ s.cx.stall && ctxBlocked s s.cx
    && (match otherCtx s s.cx.id with | some o => !ctxBlocked s o | none => false)
/-- The active context's iteration has ended while the focused context was blocked, which it is no more: it takes its turn now (R68; log
entry 103). -/
def lateTurn (s : State) : Bool :=
  let k := s.coreSt s.cx.id.coreKey
  s.cx.has && k.active != s.cx.id.ctx && k.change.isNone && (otherCtx s s.cx.id).isNone && !ctxBlocked s s.cx
/-- R68. -/
def execContextStallSwitch (s : State) : Out :=
  match otherCtx s s.cx.id with
  | some o => if stallDue s then .next (giveWay s o.id.ctx) else .refused (.noSubject "no stall change is due")
  | none =>
    if lateTurn s then .next (startChange s s.cx.id.coreKey s.cx.id.ctx)
    else .refused (.noSubject "the other context holds no iteration")
/-- R68: the change ends and the new active context begins to issue; a context of higher priority beside it asks for a
change at its next hinted boundary. -/
def execContextChangeComplete (s : State) : Out :=
  let k := s.cx.id.coreKey
  let st := s.coreSt k
  match st.change with
  | some (n, at') =>
    if s.cycle < at' then .refused (.noSubject "the change is under way")
    else
      let s1 := s.setCore k ⟨n, none⟩
      .next (s1.updCtxs (fun c => c.id.coreKey == k && c.id.ctx == n) fun c =>
        { c with replay := [], stall := 0,
                 prioReq := match otherCtx s1 c.id with | some o => c.it.prio < o.it.prio | none => false })
  | none => .refused (.noSubject "no change is under way")

end Sys2Proof.Machine
end

