-- ==== Sys2Proof/Machine/SaveArea.lean ====
section
/-! DEFINITION. The save area of a context (R402, R403): what a save writes, and the context that an area describes. -/

namespace Sys2Proof.Machine

/-! ## Live state (R402) -/

/-- The physical vector registers that a save keeps. -/
def liveV (c : Ctx) : List Nat :=
  let named (n : Nat) : Bool :=
    if c.hint.v then (if n < 32 then c.hint.va.getLsbD n else c.hint.vb.getLsbD (n - 32)) else n < c.khd.vregs
  (((List.range 48).filter named).map c.physV).filter fun r => !c.deadV r
/-- The physical predicate registers that a save keeps. -/
def liveP (c : Ctx) : List Nat :=
  let named (n : Nat) : Bool := if c.hint.v then c.hint.p.getLsbD n else n < c.khd.pregs
  (((List.range 16).filter named).map c.physP).filter fun r => !c.deadP r
/-- Range m of the kernel. -/
def Khd.range (k : Khd) (m : Nat) : Range := k.ranges.getD m ⟨0, 0, 0, 0⟩
/-- The own-scratch ranges whose images a save keeps. -/
def liveRanges (c : Ctx) : List Nat :=
  (List.range 4).filter fun m => (c.khd.range m).win == 1 && (!c.hint.v || c.hint.sr.getLsbD m)
/-- The bytes of a range image: rows, scale cells, padding to 64. -/
def rangeBytes (r : Range) : Nat := (r.nrow * 132 + 63) / 64 * 64
/-- The elements of a slot of a profile's array. -/
def slotElems (p : Profile) : Nat := if p = .p then 131072 else 4096
/-- The bytes of a slot image. -/
def slotBytesOf (p : Profile) : Nat := 65536 + 32 * slotElems p
/-- The slots that a context owns. -/
def ownedSlots (s : State) (c : CtxId) : List Nat := ((slotsOf s c).filter fun x => x.2.owner == some c).map (·.1)
/-- Offsets of images that stand one after the other from an offset on. -/
def offsetsFrom (o : Nat) (xs : List (Nat × Nat)) : List (Nat × Nat) :=
  match xs with
  | [] => []
  | (k, n) :: r => (k, o) :: offsetsFrom (o + n) r
/-- The images of ranges, then of slots, with their offsets; and the size of the area. -/
def rangeImages (c : Ctx) : List (Nat × Nat) := offsetsFrom 0x10800 ((liveRanges c).map fun m => (m, rangeBytes (c.khd.range m)))
def rangesEnd (c : Ctx) : Nat := (liveRanges c).foldl (fun n m => n + rangeBytes (c.khd.range m)) 0x10800
def slotImages (s : State) (c : Ctx) : List (Nat × Nat) :=
  offsetsFrom (rangesEnd c) ((ownedSlots s c.id).map fun k => (k, slotBytesOf c.id.prof))
/-- The size of the area of a context (R403). -/
def areaSize (s : State) (c : Ctx) : Nat := rangesEnd c + (ownedSlots s c.id).length * slotBytesOf c.id.prof

/-! ## Writing -/

/-- A piece of an area: offset, bytes, value. -/
abbrev Chunk := Nat × Nat × Nat
/-- The little-endian value of an area whose other bytes are zero. -/
def chunksNat (cs : List Chunk) : Nat := cs.foldl (fun a c => a + c.2.2 % 2 ^ (8 * c.2.1) * 2 ^ (8 * c.1)) 0
/-- A 64-bit word at an offset. -/
def word8 (o v : Nat) : Chunk := (o, 8, v)
/-- A vector register's data and sidecar. -/
def vecChunks (o : Nat) (v : VReg) : List Chunk := [(o, 128, v.d.toNat), (o + 128, 4, v.sc.toNat)]
/-- The word of a range in a kernel header (R48). -/
def Range.word (r : Range) : Nat := r.win + 16 * r.swz + 256 * r.row + 2 ^ 32 * r.nrow
/-- The code of a profile (R48). -/
def profCode (p : Profile) : Nat := match p with | .p => 0 | .d => 1 | .b => 2

/-- Offsets 0 to 0x13F: identity, modes, counters, hint, loop levels. -/
def headChunks (s : State) (c : Ctx) (origin ncap : Nat) : List Chunk :=
  let pending := c.mfly.length
  [word8 0 (0x40 + 2 ^ 8 * profCode c.id.prof + 2 ^ 10 * origin + 2 ^ 11 * ncap + 2 ^ 16 * c.depth + 2 ^ 20 * c.hint.lev
      + 2 ^ 23 * c.tokens.length + 2 ^ 26 * s.dieAddr c.id.die + 2 ^ 37 * c.id.core + 2 ^ 46 * c.id.ctx),
   word8 0x08 (nextPc c).toNat, word8 0x10 c.it.nodeVa.toNat,
   word8 0x18 (match s.region? c.it.rid with | some r => r.va.toNat | none => 0),
   word8 0x20 (areaSize s c),
   word8 0x28 (c.rrb.toNat + 2 ^ 8 * c.vdep.toNat + 2 ^ 16 * c.pdep.toNat + 2 ^ 20 * c.chk.toNat + 2 ^ 21 * c.deadrd.toNat
      + 2 ^ 22 * c.smxnan.toNat + 2 ^ 32 * c.gpredWord.toNat),
   word8 0x30 c.vmodeWord.toNat,
   word8 0x38 (c.ncl + 2 ^ 8 * c.ncs + 2 ^ 16 * c.ncx + 2 ^ 24 * (c.ncm - pending)),
   word8 0x40 (c.hint.va.toNat + 2 ^ 32 * c.hint.vb.toNat), word8 0x48 (c.hint.p.toNat + 2 ^ 16 * c.hint.sr.toNat),
   word8 0x50 ((ownedSlots s c.id).foldl (fun m k => m + 2 ^ k) 0)]
  ++ (List.range 6).flatMap fun k =>
    let l := c.level k
    [word8 (0x80 + 32 * k) l.cnt.toNat, word8 (0x88 + 32 * k) l.idx.toNat, word8 (0x90 + 32 * k) l.body.toNat,
     word8 (0x98 + 32 * k) l.bindWord.toNat]
/-- The word of a parameter set's run (R403). -/
def setWord (a : AgSet) : Nat :=
  a.done % 2 ^ 32 + 2 ^ 32 * a.status
    + (match a.run with | some r => 2 ^ 36 * r.port + 2 ^ 39 * (!r.load).toNat + 2 ^ 40 | none => 0)
/-- Offsets 0x140 to 0x9FF: tokens, registers, sets, counters, bank formats, ranges, image offsets. -/
def registerChunks (s : State) (c : Ctx) : List Chunk :=
  (c.tokens.zipIdx.map fun t => word8 (0x140 + 8 * t.2) (t.1.target.toNat / 32 * 32 + t.1.take.toNat))
  ++ ((List.range 64).map fun n => word8 (0x200 + 8 * n) (c.rs n).toNat)
  ++ ((List.range 32).map fun n => word8 (0x400 + 8 * n) (c.ra n).toNat)
  ++ ((List.range 16).flatMap fun g =>
      let a := c.agSet g
      ((List.range 6).map fun k => word8 (0x500 + 64 * g + 8 * k) (a.field k).toNat) ++ [word8 (0x500 + 64 * g + 48) (setWord a)])
  ++ ((List.range 8).map fun k => word8 (0x900 + 8 * k) (c.perf.getD k 0).toNat)
  ++ [word8 0x940 ((List.range 16).foldl (fun v b => v + 2 ^ (4 * b) * fmtOf s (ownSid c.id) b) 0)]
  ++ ((List.range 4).map fun m => word8 (0x980 + 8 * m) (c.khd.range m).word)
  ++ ((rangeImages c).map fun x => word8 (0x9C0 + 8 * x.1) x.2)
  ++ ((slotImages s c).map fun x => word8 (0x9E0 + 8 * x.1) x.2)
/-- A captured operation (R403). -/
def captureChunks (n : Nat) (o : Capture) : List Chunk :=
  let b := 0x1000 + 512 * n
  [(b, 4, o.word.toNat), (b + 4, 4, o.e1.toNat), (b + 8, 4, o.e2.toNat), (b + 12, 1, o.rest), (b + 13, 1, o.code),
   (b + 14, 1, o.dst), (b + 15, 1, o.rm.toNat), (b + 496, 16, o.gp.toNat)]
  ++ vecChunks (b + 64) o.a ++ vecChunks (b + 208) o.b ++ vecChunks (b + 352) o.d
/-- The entries of a port, oldest first; those that a captured operation writes have state 2. -/
def portChunks (k : Nat) (es : List PEntry) (caps : List Nat) : List Chunk :=
  es.zipIdx.flatMap fun e =>
    let b := 0x8000 + 2048 * k + 256 * e.2
    vecChunks b e.1.v ++ [(b + 132, 1, if caps.contains e.1.eid then 2 else 1)]
/-- The port entries that captured operations write. -/
def capEids (caps : List Captured) : List Nat := caps.filterMap fun o => match o.f.res with
  | .port _ e _ _ => some e
  | _ => none
/-- Offsets 0x1000 to 0x107FF: captured operations, registers, ports, columns. -/
def vectorChunks (c : Ctx) (caps : List Captured) : List Chunk :=
  let lv := liveV c
  let lp := liveP c
  (caps.zipIdx.flatMap fun o => captureChunks o.2 o.1.toArea)
  ++ ((List.range 48).flatMap fun v =>
      (if lv.contains v then vecChunks (0x3000 + 256 * v) (c.v.getD v VReg.zero) else [])
      ++ [(0x3000 + 256 * v + 132, 1, if 16 ≤ v then c.vage.getD (v - 16) 32 else 0),
          (0x3000 + 256 * v + 133, 1, (lv.contains v).toNat)])
  ++ ((List.range 16).flatMap fun p =>
      (if lp.contains p then [(0x6000 + 16 * p, 16, (c.p.getD p 0).toNat)] else [])
      ++ [(0x6100 + p, 1, if 8 ≤ p then c.page.getD (p - 8) 8 else 0)])
  ++ [(0x6110, 2, lp.foldl (fun m p => m + 2 ^ p) 0)]
  ++ ((List.range 8).flatMap fun k =>
      portChunks k (c.lports.getD k []) [] ++ portChunks (8 + k) (c.sports.getD k []) (capEids caps))
  ++ (if c.id.prof = .d then (List.range 8).flatMap fun k =>
      let col := c.cols.getD k Col.zero
      vecChunks (0x10000 + 256 * k) col.v ++ [(0x10000 + 256 * k + 132, 1, col.bf.toNat)] else [])
/-- The images of the live ranges: data, then scale cells. -/
def rangeChunks (s : State) (c : Ctx) : List Chunk :=
  (rangeImages c).flatMap fun x =>
    let r := c.khd.range x.1
    let sid := ownSid c.id
    [(x.2, r.nrow * 128, homeNat s (scratchKeys s sid (r.row * 128) (r.nrow * 128))),
     (x.2 + r.nrow * 128, r.nrow * 4, homeNat s ((List.range r.nrow).flatMap fun k => cellKeys s sid (r.row + k)))]

/-! ## Slot images -/

/-- The code of a slot's mode. -/
def modeCode (m : SlotMode) : Nat := match m with | .plain => 0 | .split => 1 | .affine => 2
/-- The sum and M of an open partial as the area holds them (R186, R187). -/
def Part.saved (p : Part) : Int × Int := if p.used then (p.fix, 0) else if p.terms = [] && p.base.isNone then (p.fix, 0) else (p.bfSum, p.bfM)
/-- The record of an element. -/
def elemValue (e : Elem) : Nat :=
  let q := e.part.saved
  e.a.toNat + 2 ^ 64 * (toW q.1).toNat + 2 ^ 128 * wrapN 16 q.2
    + 2 ^ 144 * (e.nan.toNat + 2 * e.sat.toNat + 4 * e.part.nan.toNat + 8 * (e.part != Part.zero).toNat)
    + 2 ^ 160 * e.g.toNat + 2 ^ 192 * e.b.toNat
/-- The pending command of slot k: its word, its scalar operands, and for mmacro its descriptor as read. -/
def pendingChunks (b k : Nat) (ms : List MCmd) : List Chunk :=
  match ms.find? fun m => (m.e.word.extractLsb' 18 6).toNat == k with
  | none => []
  | some m =>
    [word8 (b + 0x400) (m.e.word.toNat + 2 ^ 32)]
    ++ (match m.e.instr .m with
      | some (.mmacro w) => [word8 (b + 0x408) w.a.toNat, word8 (b + 0x410) m.a.toNat]
      | some (.mscan w) => [word8 (b + 0x418) w.b.toNat, word8 (b + 0x420) m.b.toNat]
      | _ => [])
    ++ (match m.prog with
      | .gemm d _ => [(b + 0x440, 64, wordsNat d.raw)]
      | _ => [])
/-- The image of slot k at offset b. -/
def slotChunks (c : Ctx) (b k : Nat) (m : MSlot) : List Chunk :=
  let great := c.id.prof == .p
  [word8 b (modeCode m.mode + 2 ^ 8 * m.mask.isSome.toNat + 2 ^ 16 * m.step + 2 ^ 32 * (if great then m.macdone else 0)),
   word8 (b + 8) (match m.mask with | some x => x.addr.toNat | none => 0),
   (b + 0x40, 64, if great then m.rmask.toNat else 0), (b + 0x80, 32, m.guf.toNat)]
  ++ ((List.range 4).map fun q => word8 (b + 0x10 + 8 * q) (match m.ceOf q with | some e => (toW e).toNat | none => 2 ^ 63))
  ++ pendingChunks b k c.mfly
  ++ ((List.range (if great then 256 else slotElems c.id.prof)).map fun j =>
      let g := Tab.get (one32, (0 : W32)) m.carry j
      word8 (b + 0x1000 + 8 * j) (g.1.toNat + 2 ^ 32 * g.2.toNat))
  ++ ((List.range (slotElems c.id.prof)).map fun j => (b + 0x10000 + 32 * j, 32, elemValue (Tab.get Elem.zero m.elems j)))

/-- The whole area of a context (R403). -/
def areaNat (s : State) (c : Ctx) (origin : Nat) (caps : List Captured) : Nat :=
  chunksNat (headChunks s c origin caps.length ++ registerChunks s c ++ vectorChunks c caps ++ rangeChunks s c
    ++ (slotImages s c).flatMap fun x => slotChunks c x.2 x.1 (slotAt s c.id x.1))

/-! ## Reading -/

/-- n bytes of an area from an offset. -/
def areaAt (v o n : Nat) : Nat := v / 2 ^ (8 * o) % 2 ^ (8 * n)
/-- A 64-bit word of an area. -/
def areaW (v o : Nat) : W64 := natW (areaAt v o 8)
/-- A vector register of an area. -/
def areaVec (v o : Nat) : VReg := ⟨BitVec.ofNat 1024 (areaAt v o 128), BitVec.ofNat 32 (areaAt v (o + 128) 4)⟩
/-- A captured operation of an area. -/
def areaCapture (v n : Nat) : Capture :=
  let b := 0x1000 + 512 * n
  ⟨BitVec.ofNat 32 (areaAt v b 4), BitVec.ofNat 32 (areaAt v (b + 4) 4), BitVec.ofNat 32 (areaAt v (b + 8) 4), areaAt v (b + 12) 1,
   areaAt v (b + 13) 1, areaAt v (b + 14) 1, BitVec.ofNat 2 (areaAt v (b + 15) 1), BitVec.ofNat 128 (areaAt v (b + 496) 16),
   areaVec v (b + 64), areaVec v (b + 208), areaVec v (b + 352)⟩
/-- The entries of port k of an area; e gives their identities. -/
def areaPort (v k e : Nat) : List PEntry :=
  (List.range 8).filterMap fun j =>
    let b := 0x8000 + 2048 * k + 256 * j
    match areaAt v (b + 132) 1 with
    | 0 => none
    | n => some ⟨e + j, n == 1, areaVec v b⟩
/-- Parameter set g of an area. A run resumes generating from NEXT (R404); it is the g-th of the A stream. -/
def areaSet (v : Nat) (p : Profile) (pc : W64) (g : Nat) : AgSet :=
  let b := 0x500 + 64 * g
  let w := areaAt v (b + 48) 8
  let a : AgSet := ⟨areaW v b, areaW v (b + 8), Vector.ofFn fun k : Fin 4 => areaW v (b + 16 + 8 * k.val), w % 2 ^ 32,
    w / 2 ^ 32 % 4, none⟩
  if w / 2 ^ 40 % 2 = 0 then a
  else { a with run := some ⟨w / 2 ^ 39 % 2 == 0, w / 2 ^ 36 % 8, a.base, a.lenw (vlenOf p), a.counts, a.strides,
    a.counts.foldl (· * ·) 1, w % 2 ^ 32, 0, false, false, g, 0, pc, 0, false, 0⟩ }
/-- The record of an element. -/
def areaElem (v o : Nat) : Elem :=
  let f := areaAt v (o + 18) 1
  let p := sextN 64 (areaAt v (o + 8) 8)
  { a := areaW v o, nan := f % 2 == 1, sat := f / 2 % 2 == 1,
    part := if f / 8 % 2 = 1 then ⟨p, false, [], f / 4 % 2 == 1, some (p, sextN 16 (areaAt v (o + 16) 2))⟩ else Part.zero,
    g := BitVec.ofNat 32 (areaAt v (o + 20) 4), b := BitVec.ofNat 32 (areaAt v (o + 24) 4) }
/-- The mode of a code. -/
def modeOf (n : Nat) : SlotMode := match n with | 0 => .plain | 1 => .split | _ => .affine
/-- A slot of an image at offset b, without its mask. -/
def areaSlot (v b : Nat) (id : CtxId) : MSlot :=
  let w := areaAt v b 8
  { owner := some id, mode := modeOf (w % 4),
    elems := (List.range (slotElems id.prof)).foldl (fun t j => Tab.put Elem.zero t j (areaElem v (b + 0x10000 + 32 * j))) [],
    rmask := BitVec.ofNat 512 (areaAt v (b + 0x40) 64),
    ce := (List.range 4).foldl (fun t q =>
      let e := areaAt v (b + 0x10 + 8 * q) 8
      if e = 2 ^ 63 then t else Tab.put noCe t q (sextN 64 e)) [],
    mask := none, macdone := w / 2 ^ 32 % 2 ^ 16,
    carry := (List.range (if id.prof = .p then 256 else 4096)).foldl (fun t j =>
      let g := areaAt v (b + 0x1000 + 8 * j) 8
      Tab.put (one32, (0 : W32)) t j (BitVec.ofNat 32 g, BitVec.ofNat 32 (g / 2 ^ 32))) [],
    guf := BitVec.ofNat 256 (areaAt v (b + 0x80) 32), step := w / 2 ^ 16 % 2 ^ 8 }
/-- The pending command of an image: mmacro goes on at MACDONE (R404 step 5). -/
def areaPending (v b : Nat) (pc : W64) : Option MCmd :=
  let w := areaAt v (b + 0x400) 8
  if w / 2 ^ 32 % 2 = 0 then none
  else
    let e : QEntry := { QEntry.none with word := BitVec.ofNat 32 w, line := pc }
    let va := areaW v (b + 0x410)
    let vb := areaW v (b + 0x420)
    match decode .m e.word [] with
    | .ok (.mmacro _) => (parseMac (areaAt v (b + 0x440) 64)).map fun d => ⟨e, va, vb, [], [], .gemm d (areaAt v b 8 / 2 ^ 32 % 2 ^ 16)⟩
    | .ok (.mscan _) => some ⟨e, va, vb, [], [], .scan⟩
    | _ => none

/-- The offsets of the slot images of an area, by slot. -/
def areaSlots (v : Nat) : List (Nat × Nat) :=
  (List.range 4).filterMap fun k => if areaAt v 0x50 1 / 2 ^ k % 2 = 1 then some (k, areaAt v (0x9E0 + 8 * k) 8) else none

/-- The member of its group that captured operation n is: its place in the run of equal words before it. -/
def groupPlace (cs : List Capture) (n : Nat) : Nat :=
  let same := ((cs.take n).reverse.takeWhile fun c => c.word == (cs.getD n ⟨0, 0, 0, 0, 0, 0, 0, 0, VReg.zero, VReg.zero, VReg.zero⟩).word).length
  match cs[n]? with
  | some c => match c.instr with
    | some (_, .vdequant w) => same % groupOf w.t
    | _ => 0
  | none => 0
/-- The identity of the entry that captured operation n writes: the entries of its store port in state 2, in issue order. -/
def captureEid (ports : List (List PEntry)) (cs : List Capture) (n : Nat) : Nat :=
  match cs[n]? with
  | none => 0
  | some c =>
    let before := ((cs.take n).filter fun d => d.dst == c.dst && d.code == c.code && 0x30 ≤ d.dst).length
    (((ports.getD (c.dst - 0x30) []).filter fun e => !e.ready).getD before ⟨0, true, VReg.zero⟩).eid
/-- The captured operations of an area, recomputed (R404 step 6). -/
def areaCaptured (v : Nat) (p : Profile) (fresh : Nat) (ports : List (List PEntry)) : List Captured :=
  let cs := (List.range (min 16 (areaAt v 0 2 / 2 ^ 11 % 32))).map (areaCapture v)
  cs.zipIdx.filterMap fun c => (c.1.land p fresh (captureEid ports cs c.2) (groupPlace cs c.2)).map fun f => ⟨f, c.1.rest⟩

/-- The context that an area describes, on the context `id` with the kernel and the iteration of `c0`; port entries take
identities from `e` on (R404 step 4). A register that was not saved reads +0 with sidecar 1.0, or all false, with its age
saturated. -/
def areaCtx (v e : Nat) (c0 : Ctx) : Ctx :=
  let w0 := areaAt v 0 8
  let m := areaAt v 0x28 8
  let vm := areaAt v 0x30 8
  let cn := areaAt v 0x38 8
  let h := areaAt v 0x40 16
  let pc := areaW v 0x08
  let savedV (r : Nat) : Bool := areaAt v (0x3000 + 256 * r + 133) 1 % 2 == 1
  let savedP (r : Nat) : Bool := areaAt v 0x6110 2 / 2 ^ r % 2 == 1
  let pend := (areaSlots v).filterMap fun x => areaPending v x.2 pc
  let lev := w0 / 2 ^ 20 % 8
  { Ctx.idle c0.id with
    has := true, it := c0.it, khd := c0.khd
    s := Vector.ofFn fun n : Fin 64 => if n.val = 0 then 0 else areaW v (0x200 + 8 * n.val)
    a := Vector.ofFn fun n : Fin 32 => areaW v (0x400 + 8 * n.val)
    v := Vector.ofFn fun n : Fin 48 => if savedV n.val then areaVec v (0x3000 + 256 * n.val) else VReg.zero
    p := Vector.ofFn fun n : Fin 16 => if savedP n.val then BitVec.ofNat 128 (areaAt v (0x6000 + 16 * n.val) 16) else 0
    vage := Vector.ofFn fun n : Fin 32 => if savedV (16 + n.val) then areaAt v (0x3000 + 256 * (16 + n.val) + 132) 1 else 32
    page := Vector.ofFn fun n : Fin 8 => if savedP (8 + n.val) then areaAt v (0x6108 + n.val) 1 else 8
    pc := pc, depth := w0 / 2 ^ 16 % 8
    loops := Vector.ofFn fun k : Fin 6 =>
      { Loop.zero.withBind (areaW v (0x98 + 32 * k.val)) with
        cnt := BitVec.ofNat 32 (areaAt v (0x80 + 32 * k.val) 4), idx := BitVec.ofNat 32 (areaAt v (0x88 + 32 * k.val) 4)
        body := areaW v (0x90 + 32 * k.val) }
    rrb := BitVec.ofNat 5 m, vdep := BitVec.ofNat 6 (m / 2 ^ 8), pdep := BitVec.ofNat 4 (m / 2 ^ 16)
    chk := m / 2 ^ 20 % 2 == 1, deadrd := m / 2 ^ 21 % 2 == 1, smxnan := m / 2 ^ 22 % 2 == 1
    psel := BitVec.ofNat 4 (m / 2 ^ 32), gzero := m / 2 ^ 40 % 2 == 1
    rm := BitVec.ofNat 2 vm, ten := BitVec.ofNat 5 (vm / 2 ^ 4), flg := BitVec.ofNat 5 (vm / 2 ^ 16)
    ncl := cn % 256, ncs := cn / 2 ^ 8 % 256, ncx := cn / 2 ^ 16 % 256, ncm := cn / 2 ^ 24 % 256 + pend.length
    hint := ⟨w0 / 2 ^ 10 % 2 == 0 || lev != 7 || h != 0, lev, BitVec.ofNat 32 h, BitVec.ofNat 16 (h / 2 ^ 32),
      BitVec.ofNat 16 (h / 2 ^ 64), BitVec.ofNat 4 (h / 2 ^ 80)⟩
    tokens := (List.range (w0 / 2 ^ 23 % 8)).map fun n =>
      let t := areaAt v (0x140 + 8 * n) 8
      ⟨t % 2 == 1, natW (t / 32 * 32)⟩
    ag := Vector.ofFn fun g : Fin 16 => areaSet v c0.id.prof pc g.val
    aseq := 16
    perf := Vector.ofFn fun k : Fin 8 => areaW v (0x900 + 8 * k.val)
    cols := Vector.ofFn fun k : Fin 8 =>
      if c0.id.prof = .d then ⟨areaVec v (0x10000 + 256 * k.val), areaAt v (0x10000 + 256 * k.val + 132) 1 % 2 == 1⟩ else Col.zero
    outBars := c0.outBars, arrivals := c0.arrivals
    lports := Vector.ofFn fun k : Fin 8 => areaPort v k.val (e + 16 * k.val)
    sports := Vector.ofFn fun k : Fin 8 => areaPort v (8 + k.val) (e + 16 * k.val + 8)
    mfly := pend }

/-- The banks of own scratch that a kernel's window-0x1 ranges cover (R402). -/
def ownBanks (c : Ctx) : List Nat :=
  let sid := ownSid c.id
  (List.range (sidCap sid / sidBank sid)).filter fun b => c.khd.ranges.any fun r =>
    r.win == 1 && r.row * 128 < (b + 1) * sidBank sid && b * sidBank sid < (r.row + r.nrow) * 128
/-- Restore bank formats (R404 step 2) and range images (step 3): ranges without an image become zero with cells of 1.0. -/
def restoreScratch (s : State) (c : Ctx) (v : Nat) : State :=
  let sid := ownSid c.id
  let s1 := { s with fmt := (ownBanks c).foldl (fun t b => Tab.put 0 t (sid * 64 + b) (areaAt v 0x940 8 / 2 ^ (4 * b) % 8)) s.fmt }
  (List.range 4).foldl (fun t m =>
    let r := c.khd.range m
    if r.win = 1 then
      let o := areaAt v (0x9C0 + 8 * m) 8
      let cells := if o = 0 then chunksNat ((List.range r.nrow).map fun k => (4 * k, 4, 0x3F800000)) else areaAt v (o + r.nrow * 128) (r.nrow * 4)
      let t1 := storeBytes t (scratchKeys t sid (r.row * 128) (r.nrow * 128))
        (leBytes (r.nrow * 128) (if o = 0 then 0 else areaAt v o (r.nrow * 128)))
      storeBytes t1 ((List.range r.nrow).flatMap fun k => cellKeys t1 sid (r.row + k)) (leBytes (r.nrow * 4) cells)
    else t) s1
/-- Restore the slots of an area with their masks, which are read again from their addresses; the fault of a mask block that
cannot be read is answered. -/
def restoreSlots (s : State) (c : Ctx) (v : Nat) : State × Option (Nat × W64) :=
  (areaSlots v).foldl (fun (acc : State × Option (Nat × W64)) x =>
    let m := areaSlot v x.2 c.id
    if areaAt v x.2 2 / 2 ^ 8 % 2 = 1 then
      match readMask acc.1 c (areaW v (x.2 + 8)) with
      | .ok b => (setSlotAt acc.1 c.id x.1 { m with mask := some b }, acc.2)
      | .error e => (setSlotAt acc.1 c.id x.1 m, acc.2.or (some e))
    else (setSlotAt acc.1 c.id x.1 m, acc.2)) (s, none)

end Sys2Proof.Machine
end

