-- ==== Sys2Proof/Machine/Structures.lean ====
section
/-! DEFINITION. The structures in memory that the hub reads: pointers, task-graph nodes, loop-nest records, kernel headers, region
control blocks, core sets, stream records (R30 to R51, R64). A structure is its little-endian value. -/

namespace Sys2Proof.Machine

/-! ## Reads and writes of the hub and of engines (R30, R31) -/

/-- An agent of a die that is no core: its accesses carry an address space and a generation (R296). -/
def agentCtx (die asid : Nat) (gen : BitVec 16) : Ctx :=
  { Ctx.idle ⟨die, 0, false, 0⟩ with it := { Iter.none with asid := asid, gen := gen } }
/-- The keys of a global range for such an agent, or the cause of a fault. -/
def agentKeys (s : State) (die asid : Nat) (gen : BitVec 16) (kind : AccessKind) (va : W64) (n : Nat) : Except Nat (List Nat) :=
  if 2 ^ 57 ≤ va.toNat then .error tcWindow else resolve s (agentCtx die asid gen) kind false false va n 1
/-- The value of n bytes for such an agent. -/
def agentNat (s : State) (die asid : Nat) (gen : BitVec 16) (va : W64) (n : Nat) : Except Nat Nat :=
  match agentKeys s die asid gen .rd va n with
  | .ok ks => .ok (homeNat s ks)
  | .error e => .error e
/-- Write n bytes for such an agent. -/
def agentPut (s : State) (die asid : Nat) (gen : BitVec 16) (va : W64) (n v : Nat) : Except Nat State :=
  match agentKeys s die asid gen .wr va n with
  | .ok ks => .ok (touchBanks (storeBytes s ks (leBytes n v)) ks)
  | .error e => .error e
/-- The hub die (R10), whose own translation buffer serves the scheduler and the request sequencer (R295). -/
def hubDie : Nat := 6
/-- The hub reads n bytes. -/
def hubNat (s : State) (asid : Nat) (gen : BitVec 16) (va : W64) (n : Nat) : Except Nat Nat := agentNat s hubDie asid gen va n
/-- What a read of n bytes by the hub for the work of a region meets besides their value: its banks wake (R303), and an uncorrectable
line, of the bytes or of a failed walk, marks the region (R294, R308). Region 0 is none. -/
def hubSee (s : State) (rid asid : Nat) (gen : BitVec 16) (va : W64) (n : Nat) : State :=
  match agentKeys s hubDie asid gen .rd va n with
  | .ok ks => noteBad (touchBanks s ks) rid ks
  | .error c => noteWalk s rid asid c va
/-- The hub writes n bytes; a write that faults has no effect. -/
def hubPut (s : State) (asid : Nat) (gen : BitVec 16) (va : W64) (n v : Nat) : State :=
  match agentPut s hubDie asid gen va n v with
  | .ok t => t
  | .error _ => s

/-- A pointer to a structure of an alignment: in the global window and aligned; 0 is none (R30). R58 names only the alignment for error code
2: that a pointer with bits [63:60] set fails there too is the model's choice (log entry 104). -/
def ptrOk (align : Nat) (p : W64) : Bool := p.toNat / 2 ^ 60 == 0 && p.toNat % align == 0
/-- The status codes of a completion record (R36) that a structure can cause. -/
def stMalformed : Nat := 2
def stFault : Nat := 3
/-- Read a structure and parse it: a fault, a malformation, or its contents (R31). -/
def readAs {α : Type} (s : State) (asid : Nat) (gen : BitVec 16) (va : W64) (n : Nat) (parse : Nat → Option α) : Except Nat α :=
  match hubNat s asid gen va n with
  | .error _ => .error stFault
  | .ok v => match parse v with
    | some a => .ok a
    | none => .error stMalformed

/-! ## Nodes (R38 to R45) -/

/-- Bits lo to lo + n - 1 of a word are zero. -/
def zeroBits (w : W64) (lo n : Nat) : Bool := bitsOf w lo n == 0
/-- The eight words of a 64-byte structure. -/
def eightWords (v : Nat) : List W64 := (List.range 8).map fun k => natW (nword v k)
/-- Word k of a node. -/
def GNode.w (n : GNode) (k : Nat) : W64 := n.words.getD k 0
/-- KIND of a node's words. -/
def nodeKind (ws : List W64) : Nat := bitsOf (ws.getD 0 0) 0 8
/-- DEPS and SUCCN. -/
def nodeDeps (ws : List W64) : Nat := bitsOf (ws.getD 0 0) 8 8
def nodeSuccN (ws : List W64) : Nat := bitsOf (ws.getD 0 0) 16 8

/-- The reserved bits of PLACE are zero, and a named die can be of the kind that the node needs (R41): a Dusk die for
MIDNIGHT, else any die that holds compute cores. -/
def placeOk (p : W64) (midnight : Bool) : Bool :=
  let die := bitsOf p 0 11
  zeroBits p 11 5 && zeroBits p 24 8 && (!midnight || zeroBits p 48 16)
    && (die == 0x7FF || (die % 8 ≤ 5 && (!midnight || 2 ≤ die % 8)))

/-- The fields of a node are legal in themselves (R38, R40 to R45). Where R40 gives no meaning to the pointer 0, for BODY, CASES and SUCC, the
model makes the node malformed (DESIGN CHOICE, log entry 105). -/
def nodeOk (ws : List W64) : Bool :=
  let w (k : Nat) : W64 := ws.getD k 0
  let n := nodeSuccN ws
  let succ := w 1
  zeroBits (w 0) 24 40 && n ≤ 64
  && (if n = 0 then succ == 0 else if n = 1 then succ != 0 && ptrOk 64 succ else succ != 0 && ptrOk 8 succ)
  && (match nodeKind ws with
    | 0x10 => w 2 != 0 && ptrOk 64 (w 2) && ptrOk 128 (w 3) && placeOk (w 4) false
    | 0x17 => w 2 != 0 && ptrOk 64 (w 2) && ptrOk 128 (w 3) && placeOk (w 4) true
    | 0x11 => ptrOk 8 (w 2) && zeroBits (w 5) 4 60 && bitsOf (w 5) 0 4 < 8 && ptrOk 64 (w 6) && ptrOk 64 (w 7)
    | 0x12 => ptrOk 8 (w 2) && bitsOf (w 5) 0 4 < 8 && zeroBits (w 5) 5 27 && w 6 != 0 && ptrOk 64 (w 6) && zeroBits (w 7) 32 32
        && (bitAt (w 5) 4 || (w 2 == 0 && w 3 == 0 && w 4 == 0 && zeroBits (w 5) 0 4))
    | 0x13 => ptrOk 8 (w 2) && zeroBits (w 4) 6 26 && zeroBits (w 4) 48 16 && 1 ≤ bitsOf (w 4) 32 16 && bitsOf (w 4) 32 16 ≤ 256
        && w 5 != 0 && ptrOk 8 (w 5) && ptrOk 64 (w 6) && w 7 == 0
    | 0x14 => ptrOk 8 (w 2) && bitsOf (w 4) 0 2 != 3 && zeroBits (w 4) 2 6 && zeroBits (w 4) 10 6 && zeroBits (w 4) 24 40
        && w 5 == 0 && w 6 == 0 && w 7 == 0
    | 0x15 => w 2 != 0 && ptrOk 128 (w 2) && ptrOk 64 (w 3) && w 4 != 0 && ptrOk 64 (w 4) && w 5 != 0 && ptrOk 64 (w 5)
        && w 6 == 0 && w 7 == 0
    | 0x16 => w 2 != 0 && ptrOk 128 (w 2) && zeroBits (w 3) 11 53 && zeroBits (w 4) 32 32 && w 5 == 0 && w 6 == 0 && w 7 == 0
    | _ => false)
/-- A node from its 64 bytes. -/
def parseNode (v : Nat) : Option (List W64) := if nodeOk (eightWords v) then some (eightWords v) else none

/-- The condition of R42. -/
def cmpHolds64 (cmp : Nat) (x op : W64) : Bool :=
  match cmp with
  | 0 => x == op
  | 1 => x != op
  | 2 => x.toNat < op.toNat
  | 3 => op.toNat ≤ x.toNat
  | 4 => x.toInt < op.toInt
  | 5 => op.toInt ≤ x.toInt
  | 6 => x != 0
  | _ => x == 0

/-! ## Loop-nest records (R46, R47) -/

/-- A loop-nest record from its 128 bytes. -/
def parseLnr (v : Nat) : Option Lnr :=
  let n := nbits v 8 3
  let ord (k : Nat) : Nat := nbits v (16 + 3 * k) 3
  let cnt (j : Nat) : Nat := nbits v (8 * (16 + 16 * j)) 32
  let step (j : Nat) : Nat := nbits v (8 * (20 + 16 * j)) 32
  let base (j : Nat) : Nat := nbits v (8 * (24 + 16 * j)) 64
  let used := List.range n
  let rest := (List.range 6).drop n
  if nbits v 0 8 = 0x20 && nbits v 11 5 = 0 && nbits v 34 30 = 0 && nword v 1 = 0 && nbits v 896 128 = 0 && n != 0 && n != 7
      && (used.all fun j => used.any fun k => ord k == j) && (rest.all fun k => ord k == 0 && cnt k == 0 && step k == 0 && base k == 0)
      && (used.foldl (fun p j => p * cnt j) 1) < 2 ^ 48 then
    some ⟨n, used.map ord, used.map cnt, used.map fun j => sextN 32 (step j), used.map fun j => sextN 64 (base j)⟩
  else none
/-- The iterations of a record: one without a record. -/
def lnrTotal (l : Option Lnr) : Nat :=
  match l with
  | none => 1
  | some l => l.counts.foldl (· * ·) 1
/-- The index of each level at an ordinal: the last level of ORDER runs fastest (R47). -/
def lnrIndexes (l : Lnr) (ord : Nat) : List (Nat × Nat) :=
  (l.order.reverse.foldl (fun (acc : Nat × List (Nat × Nat)) j =>
    let c := l.counts.getD j 1
    (acc.1 / c, (j, acc.1 % c) :: acc.2)) (ord, [])).2
/-- s1 to s6 of an iteration (R47). -/
def lnrScalars (l : Option Lnr) (ord : Nat) : List W64 :=
  match l with
  | none => List.replicate 6 0
  | some l => (List.range 6).map fun j => match (lnrIndexes l ord).find? (·.1 == j) with
    | some x => toW (l.bases.getD j 0 + x.2 * l.steps.getD j 0)
    | none => 0

/-! ## Kernel headers (R48) -/

/-- The bytes of a scratch window of a profile (R193): none when the profile has no such window. -/
def winCap (p : Profile) (win : Nat) : Option Nat :=
  match p, win with
  | .p, 1 => some 262144
  | .p, 2 => some 8388608
  | .d, 1 => some 196608
  | .b, 1 => some 65536
  | _, _ => none
/-- A used range is legal in a profile; an unused one is all zero. -/
def rangeOk (p : Profile) (w : Nat) : Bool :=
  let win := nbits w 0 4
  if win = 0 then w == 0
  else nbits w 7 1 == 0 && nbits w 32 32 != 0
    && (match winCap p win with | some c => 128 * (nbits w 8 24 + nbits w 32 32) ≤ c | none => false)
/-- Two ranges of a header overlap. -/
def rangesMeet (a b : Range) : Bool :=
  a.win != 0 && a.win == b.win && a.row < b.row + b.nrow && b.row < a.row + a.nrow
/-- A kernel header from its 64 bytes at va. -/
def parseKhd (va : W64) (v : Nat) : Option Khd :=
  let prof : Option Profile := match nbits v 8 2 with
    | 0 => some .p
    | 1 => some .d
    | 2 => some .b
    | _ => none
  match prof with
  | none => none
  | some p =>
    let rs := (List.range 4).map fun m => nword v (4 + m)
    let k : Khd := ⟨p, nbits v 10 1 == 1, nbits v 12 6, nbits v 18 5, nbits v 23 5, va + natW (32 * nbits v 32 16),
      rs.map fun w => ⟨nbits w 0 4, nbits w 4 3, nbits w 8 24, nbits w 32 32⟩⟩
    let apart := (List.range 4).all fun i => (List.range i).all fun j => !rangesMeet (k.ranges.getD i ⟨0, 0, 0, 0⟩) (k.ranges.getD j ⟨0, 0, 0, 0⟩)
    if nbits v 0 8 = 0x21 && nbits v 11 1 = 0 && nbits v 28 4 = 0 && nbits v 48 16 = 0 && nbits v 64 192 = 0 && k.vregs ≤ 48
        && k.pregs ≤ 16 && k.agsets ≤ 16 && 2 ≤ nbits v 32 16 && (!k.rot || (k.vregs == 48 && p != .b))
        && (rs.all fun w => rangeOk p w) && apart then some k
    else none

/-! ## Core sets (R64) -/

/-- A block of a core set from its 448 bytes; none when a reserved byte is set. -/
def parseSetBlock (v : Nat) : Option (Nat × List (BitVec 512) × List (BitVec 128)) :=
  if nbits v 8 504 != 0 then none
  else some (nbits v 0 8,
    [BitVec.ofNat 512 (nbits v 512 256), BitVec.ofNat 512 (nbits v 768 256)]
      ++ (List.range 4).map (fun k => BitVec.ofNat 512 (nbits v (1024 + 512 * k) 512)),
    (List.range 4).map fun k => BitVec.ofNat 128 (nbits v (3072 + 128 * k) 128))
/-- A core set from its value; none when it is malformed. -/
def parseSet (v : Nat) : Option CoreSet :=
  let n := nbits v 0 8
  let bs := (List.range n).filterMap fun k => parseSetBlock (nbits v (512 + 3584 * k) 3584)
  if n = 0 || nbits v 8 504 != 0 || bs.length != n || !decide (bs.map (·.1)).Nodup then none else some ⟨bs⟩
/-- A context's core lies in a set; no set holds every core. -/
def inSet (s : State) (c : Option CoreSet) (id : CtxId) : Bool :=
  match c with
  | none => true
  | some cs => cs.blocks.any fun b => b.1 == s.pkg.pkgnum.toNat
      && (if id.bvc then (b.2.2.getD (id.die - 2) 0).getLsbD id.core else (b.2.1.getD id.die 0).getLsbD id.core)
/-- The intersection of two sets. -/
def meetSets (a b : Option CoreSet) : Option CoreSet :=
  match a, b with
  | none, x => x
  | x, none => x
  | some x, some y => some ⟨x.blocks.filterMap fun p => (y.blocks.find? (·.1 == p.1)).map fun q =>
      (p.1, p.2.1.zipWith (· &&& ·) q.2.1, p.2.2.zipWith (· &&& ·) q.2.2)⟩
/-- Two sets share a core. -/
def setsMeet (a b : CoreSet) : Bool :=
  a.blocks.any fun p => b.blocks.any fun q => p.1 == q.1
    && ((p.2.1.zipWith (· &&& ·) q.2.1).any (· != 0) || (p.2.2.zipWith (· &&& ·) q.2.2).any (· != 0))

/-! ## Region control blocks (R33, R34) -/

/-- The fields of a region control block as written. -/
structure Rcb where
  ovr : Nat
  prio : Nat
  asid : Nat
  gen : BitVec 16
  fdom : Nat
  fpol : Nat
  cores : Nat
  bvc : Nat
  lease : Nat
  bw : Nat
  scratch : Nat
  part : Bool
  cset : W64
  graph : W64
  child : W64
  next : W64
  compl : W64
deriving DecidableEq, Repr

/-- A region control block from its 128 bytes. -/
def parseRcb (v : Nat) : Option Rcb :=
  let w (k : Nat) : W64 := natW (nword v k)
  let r : Rcb := ⟨nbits v 16 16, nbits v 32 4, nbits v 40 12, BitVec.ofNat 16 (nbits v 64 16), nbits v 80 8, nbits v 88 2,
    nbits v 128 16, nbits v 144 16, nbits v 160 11, nbits v 176 11, nbits v 192 32, nbits v 224 1 == 1, w 4, w 5, w 6, w 7, w 8⟩
  if nbits v 0 8 = 1 && nbits v 8 8 = 0 && nbits v 25 7 = 0 && nbits v 36 4 = 0 && nbits v 52 12 = 0 && nbits v 90 38 = 0
      && nbits v 171 5 = 0 && nbits v 187 5 = 0 && nbits v 225 31 = 0 && nbits v 576 448 = 0 && r.fpol != 3 && r.lease ≤ 1024
      && r.bw ≤ 1024 && ptrOk 64 r.cset && ptrOk 64 r.graph && ptrOk 128 r.child && ptrOk 128 r.next && ptrOk 16 r.compl then some r
  else none

/-! ## Stream records (R51) -/

/-- The fields of a stream record that the device uses. -/
structure Srec where
  kind : Nat
  vi : Nat
  state : Nat
  degraded : Bool
  owner : Nat
  sgen : Nat
  cancel : Bool
  dest : Nat
  layers : Nat
  seed : W64
  prompt : Nat
  pos : Nat
  maxtok : Nat
  gentok : Nat
  region : W64
  btab : W64
  scb : W64
  compl : W64
  seals : W64
  clean : Bool
deriving DecidableEq, Repr

/-- The unnamed bits of a stream record are zero and its pointers are well formed (R6, R30, R51). -/
def recordOk (v : Nat) : Bool :=
  let w (k : Nat) : W64 := natW (nword v k)
  zeroBits (w 0) 14 2 && zeroBits (w 0) 21 11 && zeroBits (w 0) 43 5 && zeroBits (w 1) 1 63 && zeroBits (w 2) 11 5
    && zeroBits (w 2) 32 32 && zeroBits (w 3) 32 32 && ptrOk 128 (w 7) && ptrOk 64 (w 8) && ptrOk 64 (w 9) && ptrOk 16 (w 10)
    && ptrOk 32 (w 11) && nbits v 768 256 == 0 && nbits v 16 4 ≤ 6
/-- A stream record from its 128 bytes; `clean` says that it is well formed. -/
def srecOf (v : Nat) : Srec :=
  ⟨nbits v 0 8, nbits v 8 6, nbits v 16 4, nbits v 20 1 == 1, nbits v 32 11, nbits v 48 16, nbits v 64 1 == 1, nbits v 128 11,
   nbits v 144 16, natW (nword v 4), nbits v 320 32, nbits v 352 32, nbits v 384 32, nbits v 416 32, natW (nword v 7),
   natW (nword v 8), natW (nword v 9), natW (nword v 10), natW (nword v 11), recordOk v⟩
/-- Read a stream record for an address space. -/
def readSrec (s : State) (asid : Nat) (gen : BitVec 16) (va : W64) : Except Nat Srec :=
  match hubNat s asid gen va 128 with
  | .ok v => .ok (srecOf v)
  | .error e => .error e
/-- An atomic transition of a stream record at its home (R75): expected STATE, OWNER and SGEN, the new ones, and whether
CANCEL must be 0. None when it fails, or its home is being reset or has lost the record (R79, R89). -/
def transit (s : State) (asid : Nat) (gen : BitVec 16) (va : W64) (exp : Srec) (state owner sgen : Nat) (noCancel : Bool) :
    Option State :=
  match agentKeys s hubDie asid gen .rw va 16 with
  | .error _ => none
  | .ok ks =>
    let v := homeNat s ks
    let cur := srecOf v
    if cur.kind != 0x30 || fencedKeys s hubDie ks || cur.state != exp.state || cur.owner != exp.owner || cur.sgen != exp.sgen || (noCancel && cur.cancel) then none
    else some (storeBytes s (ks.take 8) (leBytes 8 (recWord0 (v % 2 ^ 64) state owner sgen)))

end Sys2Proof.Machine
end

