-- ==== Sys2Proof/Machine/Placement.lean ====
section
/-! DEFINITION. Placement: which free context may take a tile iteration, and in which order nodes and contexts are chosen (R41, R49,
R50, R55, R64 to R66, R71, R197, R305, R368). -/

namespace Sys2Proof.Machine

/-! ## The cores of a package (R12, R14, R15) -/

/-- The context exists: a base vector core has one, any other core two (R68, R367). -/
def ctxExists (id : CtxId) : Bool :=
  id.ctx < (if id.bvc then 1 else 2) && (if id.die ≤ 1 then !id.bvc && id.core < 256 else id.die ≤ 5 && id.core < (if id.bvc then 128 else 512))
/-- The contexts of a die. -/
def ctxsOfDie (die : Nat) : List CtxId :=
  let both (n : Nat) : List CtxId := (List.range n).flatMap fun k => [⟨die, k, false, 0⟩, ⟨die, k, false, 1⟩]
  if die ≤ 1 then both 256 else both 512 ++ (List.range 128).map fun k => ⟨die, k, true, 0⟩
/-- The contexts of the package. -/
def allCtxs : List CtxId := (List.range 6).flatMap ctxsOfDie
/-- The stack of a Dusk core. -/
def stackOf (id : CtxId) : Nat := if id.bvc then id.core / 16 else id.core / 64
/-- The cluster, team or quad that a group mask names (R41). -/
def groupOfCore (id : CtxId) : Nat :=
  match id.prof with
  | .p => id.core / 8
  | .d => 4 * (id.core / 64) + id.core % 64 / 8 / 4 * 2 + id.core % 8 / 4
  | .b => id.core % 16
/-- The vaults of a Dusk core: its own, or the four of its quad (R14 to R16). -/
def vaultsOf (id : CtxId) : List Nat :=
  if id.bvc then
    (List.range 4).map fun q =>
      let b := id.core % 16
      512 * (id.die - 2) + id.core / 16 * 64 + (b / 4 * 2 + q / 2) * 8 + (b % 4 * 2 + q % 2)
  else [512 * (id.die - 2) + id.core]
/-- PLACE allows the core (R41). -/
def placeAllows (s : State) (p : W64) (id : CtxId) : Bool :=
  let groups := bitsOf p 32 32
  (bitsOf p 0 11 == 0x7FF || bitsOf p 0 11 == s.dieAddr id.die)
    && (id.die ≤ 1 || bitsOf p 16 8 == 0 || (bitsOf p 16 8).testBit (stackOf id))
    && (groups == 0 || groups.testBit (groupOfCore id))

/-! ## Regions -/

/-- A region and its ancestors; the tree has at most 8 levels (R35). -/
def lineage (s : State) (rid : Nat) : List Nat :=
  let up (xs : List Nat) : List Nat := match xs.getLast? with
    | some r => match (s.region? r).bind (·.parent) with
      | some p => xs ++ [p]
      | none => xs
    | none => xs
  (List.range 8).foldl (fun xs _ => up xs) [rid]
/-- Region q is region r or an ancestor of it. -/
def isUnder (s : State) (q r : Nat) : Bool := (lineage s r).contains q
/-- The region has started and has not completed. -/
def Region.live (r : Region) : Bool := r.started && !r.completed
/-- The core is reserved to a partition that does not contain the region (R71). -/
def reservedAway (s : State) (rid : Nat) (id : CtxId) : Bool :=
  s.regions.any fun q => q.live && q.owns && q.cset.isSome && !isUnder s q.rid rid && inSet s q.cset id
/-- The core lies in the placement set of a kernel node (R65). -/
def inPlacement (s : State) (n : GNode) (id : CtxId) : Bool :=
  match n.khd, s.region? n.rid with
  | some k, some r =>
    ctxExists id && k.prof == id.prof && !s.downDies.contains id.die && placeAllows s (n.w 4) id && inSet s r.cset id
      && !reservedAway s n.rid id
  | _, _ => false

/-! ## What is in use (R49, R50, R55) -/

/-- The cores of a kind that hold an iteration for which a test holds, each once. -/
def coresUsed (s : State) (bvc : Bool) (t : Ctx → Bool) : List Nat :=
  ((s.running.filter fun c => c.id.bvc == bvc && t c).map fun c => c.id.coreKey).dedup
/-- The bytes of the ranges of a kernel that a test of the window names. -/
def rangeSum (k : Khd) (t : Nat → Bool) : Nat := (k.ranges.filter fun r => t r.win).foldl (fun n r => n + r.nrow * 128) 0
/-- The scratch in use by running iterations for which a test holds, and by the cluster ranges of saved ones (R402). -/
def scratchUsed (s : State) (t : Ctx → Bool) : Nat :=
  ((s.running.filter t).foldl (fun n c => n + rangeSum c.khd (· != 0)) 0)
    + ((s.saved.map (·.ctx)).filter t).foldl (fun n c => n + rangeSum c.khd (· == 2)) 0
/-- The core and the scratch that one more iteration takes stay within caps. -/
def withinCaps (s : State) (t : Ctx → Bool) (cores bvc scratchKiB : Nat) (id : CtxId) (bytes : Nat) : Bool :=
  let used := coresUsed s id.bvc t
  let n := if used.contains id.coreKey then used.length else used.length + 1
  n ≤ (if id.bvc then bvc else cores) && scratchUsed s t + bytes ≤ scratchKiB * 1024
/-- The caps of the region, its ancestors and its VI allow one more iteration (R34, R50, R55). -/
def capsAllow (s : State) (rid : Nat) (id : CtxId) (bytes : Nat) : Bool :=
  match s.region? rid with
  | none => false
  | some r =>
    let v := s.vi r.vi
    withinCaps s (fun c => c.it.vi == r.vi) v.cores v.bvc v.scratch id bytes
      && (lineage s rid).all fun q => match s.region? q with
        | some x => withinCaps s (fun c => isUnder s q c.it.rid) x.cores x.bvc x.scratch id bytes
        | none => true
/-- The granules of 8 vector registers that a kernel needs. -/
def granules (k : Khd) : Nat := (k.vregs + 7) / 8
/-- The core has the granules that a kernel needs (R49). -/
def granulesFree (s : State) (id : CtxId) (k : Khd) : Bool :=
  ((s.running.filter fun c => c.id.coreKey == id.coreKey).foldl (fun n c => n + granules c.khd) 0) + granules k ≤ 6
/-- Placement need not wait for the swizzle of a bank (R197). -/
def swizzlesAllow (s : State) (id : CtxId) (k : Khd) : Bool :=
  (k.ranges.filter fun r => r.win != 0).all fun r =>
    let sid := rangeSid id r.win
    (coveredBanks sid r).all fun b =>
      let z := swizzleIn s sid b
      z.2.1 == 0 || swizzleOf sid r == some z
/-- No cluster range of the kernel overlaps one that a saved iteration keeps (R402). -/
def savedAllow (s : State) (id : CtxId) (k : Khd) : Bool :=
  (k.ranges.filter fun r => r.win == 2).all fun r => s.saved.all fun x =>
    x.ctx.id.prof != .p || x.ctx.id.cluster != id.cluster || x.ctx.khd.ranges.all fun q => !rangesMeet r q

/-! ## Who may be placed (R54, R65, R66) -/

/-- The VI's work may start: it is enabled, and no disable is in progress (R53, R54). -/
def viOn (s : State) (n : Nat) : Bool := (s.vi n).en && !(s.vi n).disabling
/-- The work of a region may be placed now: its VI is enabled and not suspended, its generation is current (R37, R53, R54). -/
def regionPlaceable (s : State) (rid : Nat) : Bool :=
  match s.region? rid with
  | none => false
  | some r =>
    viOn s r.vi && !(s.vi r.vi).stop && r.live && r.gen == (s.asid r.asid).gen
/-- The context holds no iteration. -/
def ctxFree (s : State) (id : CtxId) : Bool := !s.running.any fun c => c.id == id
/-- The kernel node has an iteration that may be placed in this context now. -/
def eligible (s : State) (n : GNode) (id : CtxId) : Bool :=
  match n.khd with
  | none => false
  | some k =>
    n.st == .running && n.next < n.total && inPlacement s n id && regionPlaceable s n.rid && ctxFree s id
      && granulesFree s id k && capsAllow s n.rid id (rangeSum k (· != 0)) && swizzlesAllow s id k && savedAllow s id k
/-- The tax class of a core (R66, R368). -/
def taxClass (s : State) (id : CtxId) : Nat :=
  if id.die ≤ 1 then 0 else (vaultsOf id).foldl (fun m w => max m ((s.vault w).rtax / 32)) 0
/-- The key of a context (R66). -/
def ctxKey (s : State) (id : CtxId) : List Nat :=
  [taxClass s id, (s.running.filter fun c => c.id.coreKey == id.coreKey).length, id.die, id.core, id.ctx]
/-- Lexicographic order. -/
def keyLt (a b : List Nat) : Bool :=
  match a, b with
  | x :: xs, y :: ys => x < y || (x == y && keyLt xs ys)
  | _, _ => false
/-- The order of R65 between two nodes for a context, by what it compares: VI, priority, ready time. -/
def nodeBefore (s : State) (bvc : Bool) (a b : Nat × Nat × Nat) : Bool :=
  let used (vi : Nat) : Nat := (coresUsed s false fun c => c.it.vi == vi).length
  let short (vi : Nat) : Nat := if used vi < (s.vi vi).mincores then 0 else 1
  let ra := used a.1 * (s.vi b.1).cores
  let rb := used b.1 * (s.vi a.1).cores
  let first := if bvc then [] else [short a.1]
  let second := if bvc then [] else [short b.1]
  keyLt (first ++ [15 - a.2.1, if bvc then 0 else ra, a.2.2, a.1]) (second ++ [15 - b.2.1, if bvc then 0 else rb, b.2.2, b.1])
/-- What R65 compares of a node. -/
def nodeRank (s : State) (n : GNode) : Nat × Nat × Nat :=
  match s.region? n.rid with
  | some r => (r.vi, r.prio, n.readyAt)
  | none => (0, 0, n.readyAt)
/-- R373: on the four vaults of its quad FGD has been at or below the iteration's threshold for one whole window, and no ready
node of higher priority has the core in its placement set. -/
def midnightCalm (s : State) (v : Saved) : Bool :=
  match s.region? v.ctx.it.rid with
  | none => false
  | some r => ((vaultsOf v.ctx.id).all fun w => (s.vault w).fgd ≤ 1024 - r.bw)
      && !s.nodes.any fun n => n.st == .running && n.next < n.total && inPlacement s n v.ctx.id
        && (match s.region? n.rid with | some q => r.prio < q.prio | none => false)
/-- A saved iteration may be restored in this context now (R373, R402, R404): the context is free and its core is the one that
saved it, the core has the granules, the caps hold, no other context owns its slots, and the swizzles and bank formats allow it. -/
def restorable (s : State) (v : Saved) (id : CtxId) : Bool :=
  let c := v.ctx
  id.coreKey == c.id.coreKey && id.bvc == c.id.bvc && ctxExists id && ctxFree s id && !s.downDies.contains id.die
    && regionPlaceable s c.it.rid && granulesFree s id c.khd && capsAllow s c.it.rid id (rangeSum c.khd (· == 1))
    && swizzlesAllow s id c.khd && (!id.bvc || midnightCalm s v)
/-- The nodes that are candidates for a context, and the saved iterations. -/
def candidates (s : State) (id : CtxId) : List (Nat × Nat × Nat) :=
  ((s.nodes.filter fun n => eligible s n id).map (nodeRank s))
    ++ (s.saved.filter fun v => restorable s v id).filterMap fun v => (s.node? v.ctx.it.nid).map (nodeRank s)
/-- No candidate for the context comes before this one. -/
def isFirst (s : State) (id : CtxId) (r : Nat × Nat × Nat) : Bool := (candidates s id).all fun q => !nodeBefore s id.bvc q r
/-- The first node for a context (R65). -/
def firstNode (s : State) (id : CtxId) : Option GNode :=
  (s.nodes.filter fun n => eligible s n id).find? fun n => isFirst s id (nodeRank s n)
/-- The context has the lowest key among the free contexts of the node's placement set (R66). -/
def lowestCtx (s : State) (n : GNode) (id : CtxId) : Bool :=
  allCtxs.all fun d => !(eligible s n d && keyLt (ctxKey s d) (ctxKey s id))

/-- A VI holds ready compute work while it uses fewer compute cores than MINCORES (R67). -/
def starving (s : State) (vi : Nat) : Bool :=
  (coresUsed s false fun c => c.it.vi == vi).length < (s.vi vi).mincores
    && s.nodes.any fun n => n.st == .running && n.next < n.total && (n.khd.any fun k => k.prof != .b)
      && (s.region? n.rid).any fun r => r.vi == vi
/-- The cycles for which each VI has starved. -/
def countStarved (s : State) : State :=
  s.vis.foldl (fun s p =>
    let n := if starving s p.1 then p.2.starved + 1 else 0
    if n = p.2.starved then s else s.setVi p.1 { p.2 with starved := n }) s

/-- A base vector core's vaults take the Midnight threshold of the iteration that it runs (R370, R371). -/
def noteThreshold (s : State) (c : Ctx) : State :=
  match s.region? c.it.rid with
  | none => s
  | some r => (vaultsOf c.id).foldl (fun s w => s.setVault w { s.vault w with thr := 1024 - r.bw }) s
/-- An iteration enters a context, with the swizzles of its ranges (R197): on a core that holds no other it is active at once; of two
the active one, when its priority is lower, is to change at its next boundary (R68). -/
def enter (s : State) (c : Ctx) : State :=
  let s0 := if c.id.bvc then noteThreshold s c else s
  let s1 := focusOn s0 c.id
  let s2 := setSwizzles { s1 with cx := c } c
  match otherCtx s2 c.id with
  | none => s2.setCore c.id.coreKey ⟨c.id.ctx, none⟩
  | some o =>
    let turn : CtxId × Bool :=
      if (s2.coreSt c.id.coreKey).active = o.id.ctx then (o.id, o.it.prio < c.it.prio) else (c.id, c.it.prio < o.it.prio)
    if turn.2 then s2.updCtxs (fun d => d.id == turn.1) fun d => { d with prioReq := true } else s2

end Sys2Proof.Machine
end

