-- ==== Sys2Proof/Machine/Leases.lean ====
section
/-! DEFINITION. The leases of a great array: arbitration, the limits of a lease, its end and its timeout (R69, R70, R254, R255,
R398). Each step's subject a is the cluster's key. -/

namespace Sys2Proof.Machine

/-! ## Arbitration (R70) -/

/-- The better of two requests of one class: higher priority when `prio` says so, then the older one. -/
def betterReq (prio : Bool) (a b : LReq) : LReq :=
  if prio && a.prio < b.prio then b
  else if prio && b.prio < a.prio then a
  else if b.at' < a.at' then b else a
/-- The best of a list of requests. -/
def bestReq (prio : Bool) (rs : List LReq) : Option LReq :=
  match rs with
  | [] => none
  | r :: t => some (t.foldl (betterReq prio) r)
/-- A region is within its share of the array (R70): fewer of the last 1,024 grants than its effective LEASE; and so is each of its
ancestors, whose budget the grants of all its regions draw on (R34). -/
def withinShare (s : State) (g : GArray) (rid : Nat) : Bool :=
  (lineage s rid).all fun q => (g.grants.filter (isUnder s q)).length < (match s.region? q with | some r => r.lease | none => 0)
/-- The request that is granted: urgent ones first, then those within their share, then the others. -/
def chooseReq (s : State) (g : GArray) : Option LReq :=
  (bestReq false (g.reqs.filter fun r => 8 ≤ r.passed)).or
    ((bestReq true (g.reqs.filter fun r => withinShare s g r.rid)).or (bestReq true g.reqs))

/-- A refilled buffer, or zero weights and the fault of its mldb (R255). -/
def refillBuf (s : State) (c : Ctx) (r : Option (W64 × W64 × Bool × W64 × Nat)) :
    WBuf × Option (W64 × W64 × Bool × W64 × Nat) × Option TrapInfo :=
  match r with
  | none => (WBuf.zero, none, none)
  | some x =>
    match loadTile s c x.1 x.2.1 x.2.2.1 with
    | .ok b => (b, r, none)
    | .error e => (WBuf.zero, none, some ⟨e.1, x.2.2.2.1, x.2.2.2.2, e.2, 0, streamCode .m, false⟩)
/-- The row former as read again (R255). -/
def refillRow (s : State) (c : Ctx) (r : Option (W64 × Option RowF × W64 × Nat)) :
    Option RowF × Option (W64 × Option RowF × W64 × Nat) × Option TrapInfo :=
  match r with
  | none => (none, none, none)
  | some x =>
    match readRowF s c x.1 with
    | .ok f => (some f, some (x.1, some f, x.2.2), none)
    | .error e => (none, none, some ⟨e.1, x.2.2.1, x.2.2.2, if e.1 = tcOperand then 0 else e.2, 0, streamCode .m, false⟩)
/-- The array refills for the new holder, which is focused; faults are recorded for its next boundary (R255). -/
def refill (s : State) : State :=
  let c := s.cx
  let g := s.great c.id.cluster
  if g.holder = some c.id then s
  else
    let r := recOf g c.id
    let b0 := refillBuf s c r.b0
    let b1 := refillBuf s c r.b1
    let rf := refillRow s c r.rowf
    let g1 : GArray := { g with
      bufs := (g.bufs.setIfInBounds 0 b0.1).setIfInBounds 1 b1.1, rowf := rf.1, holder := some c.id }
    let s1 := s.setGreat c.id.cluster (putRec g1 c.id ⟨b0.2.1, b1.2.1, rf.2.1⟩)
    { s1 with cx := ([b0.2.2, b1.2.2, rf.2.2].filterMap id).foldl pendTrap s1.cx }

/-- R70, R255: the array of cluster a grants one request. -/
def execLeaseArbitration (s : State) : Out :=
  let g := s.great s.sub.a
  match g.lease, chooseReq s g with
  | none, some r =>
    let g1 : GArray := { g with
      lease := some ⟨r.ctx, r.rid, s.cycle, 0, false, s.cycle⟩
      reqs := (g.reqs.erase r).map (fun q => { q with passed := q.passed + 1 })
      grants := (r.rid :: g.grants).take 1024 }
    .next (asCtx (s.setGreat s.sub.a g1) r.ctx refill)
  | _, _ => .refused (.noSubject "no request that can be granted")

/-! ## The limits and the end of a lease (R69, R254) -/

/-- Every command that a context has issued has completed or stands at a boundary; one that waits behind an mmacro or mscan at its boundary
has not begun. -/
def cmdsAtBoundary (s : State) (id : CtxId) : Bool :=
  match ctxOf s id with
  | some c => match c.mfly with
    | h :: _ => h.prog != .plain
    | [] => true
  | none => true
/-- The instruction needs the lease (R254). -/
def needsLease (i : Instr) : Bool :=
  match i with
  | .mldb _ | .mma _ | .mmacro _ | .mdrain _ | .mzero _ | .mrowf _ | .mscan _ | .mmode _ | .mgain _ | .mcarry _ | .mmask _ => true
  | _ => false
/-- The context's M stream holds a great-array instruction that has not issued. -/
def pendingGreat (c : Ctx) : Bool := c.mq.any fun e => e.live && (e.instr .m).any needsLease
/-- The lease's limits: 16 commands or 4,096 cycles. -/
def limitReached (s : State) (l : Lease) : Bool := l.ending || 16 ≤ l.cmds || l.at' + 4096 ≤ s.cycle
/-- The lease of cluster g ends now. -/
def canEnd (s : State) (g : Nat) : Bool :=
  match (s.great g).lease with
  | some l => limitReached s l && cmdsAtBoundary s l.ctx
  | none => false
/-- The lease of an array ends (R254): slots, buffers and row former stay. -/
def clearLease (s : State) (g : Nat) : State := s.setGreat g { s.great g with lease := none }
/-- R254. -/
def execLeaseEnd (s : State) : Out :=
  if canEnd s s.sub.a then .next (clearLease s s.sub.a) else .refused (.noSubject "no lease that ends")
/-- R69: 4,096 cycles after its grant no further command issues under the lease. -/
def execLeaseTimeLimit (s : State) : Out :=
  match (s.great s.sub.a).lease with
  | some l =>
    if l.at' + 4096 ≤ s.cycle then .next (s.setGreat s.sub.a { s.great s.sub.a with lease := some { l with ending := true } })
    else .refused (.noSubject "the lease has not lasted 4096 cycles")
  | none => .refused (.noSubject "no lease")
/-- The idle end is due: no pending great-array instruction for 16 cycles, and every issued command has completed. -/
def idleDue (s : State) (g : Nat) : Bool :=
  match (s.great g).lease with
  | some l => l.idle + 16 ≤ s.cycle && (match ctxOf s l.ctx with | some c => c.mfly == [] && !pendingGreat c | none => true)
  | none => false
/-- R69. -/
def execLeaseIdleEnd (s : State) : Out :=
  if idleDue s s.sub.a then .next (clearLease s s.sub.a) else .refused (.noSubject "the holder is not idle")

/-! ## Timeout (R398) -/

/-- Abort the command that heads the focused context's array queue: an mma that has popped rows streams those; every
command completes (R398). -/
def abortCmd (s : State) (h : MCmd) : State :=
  let s1 := { s with cur := h.e }
  match h.e.instr .m with
  | some (.mma w) =>
    if w.f.toNat % 4 = 0 && h.got != [] && rcOk h.b && ownSlot s w.d.toNat then
      match mmaWith w s1 h (h.got.map fun v => ⟨v.d, v.sc, false, []⟩) none with
      | .next t => t
      | _ => doneM s1
    else doneM s1
  | _ => doneM s1
/-- Abort every command of the focused context and record the lease timeout. -/
def abortAll (s : State) : State :=
  let cmds := s.cx.mfly
  let at' : W64 × Nat := match cmds with
    | h :: _ => (h.e.line, h.e.slot)
    | [] => (lastLine s.cx, 0)
  let s1 := cmds.foldl abortCmd { s with cx := { s.cx with mfly := [] } }
  { s1 with cx := pendTrap s1.cx ⟨tcLease, at'.1, at'.2, 0, 0, streamCode .m, false⟩ }
/-- A lease has lasted 16,384 cycles, and is not one that ends normally now. -/
def timeoutDue (s : State) (g : Nat) : Bool :=
  match (s.great g).lease with
  | some l => l.at' + 16384 ≤ s.cycle && !canEnd s g
  | none => false
/-- R398. -/
def execLeaseTimeout (s : State) : Out :=
  match (s.great s.sub.a).lease with
  | some l =>
    if timeoutDue s s.sub.a then .next (asCtx (clearLease s s.sub.a) l.ctx abortAll)
    else .refused (.noSubject "the lease has not timed out")
  | none => .refused (.noSubject "no lease")

end Sys2Proof.Machine
end

