-- ==== Sys2Proof/Machine/Schedule.lean ====
section
/-! DEFINITION. The nominal order of events: what the machine does next when no other agent is named, in the phases of one
cycle of the focused context. The spec fixes no such order beyond its rules; every other order is reached through the
agenda. -/

namespace Sys2Proof.Machine

/-- What the machine does next: a device step (again at the same phase when it succeeds), the head of a stream's queue, the
next part of the matrix command at the head of the array, the end of a boundary at which nothing is saved, the next phase,
the next context's turn in this cycle, or the next cycle. -/
inductive Move where
  | event (i : Instr) (sub : Subject) (again : Bool)
  | issue (st : Stream) (e : QEntry) (i : Instr)
  | drop (st : Stream)
  | cont (e : QEntry) (i : Instr)
  | turn
  | pass
  | rotate
  | tick
deriving DecidableEq, Repr

/-! ## The parts of a cycle -/

/-- The result that is due first, if any. -/
def dueResult (s : State) : Option Nat :=
  let due := s.cx.inflight.zipIdx.filter fun p => p.1.due ≤ s.cycle
  match due with
  | [] => none
  | p :: r => some (r.foldl (fun (b : InFlight × Nat) q => if q.1.due < b.1.due then q else b) p).2
/-- The request slot that an access of the focused context has to take first, as a grant of it (R25). -/
def slotMove (s : State) (acc : AccQ) (k : Nat) : Option Subject :=
  match slotSeeker s acc k with
  | some (ks, j) =>
    if lacksSlot s s.cx.id.die ks j then
      some { a := s.cx.id.die, b := answerDie s s.cx.id.die ks, ctx := s.cx.id, acc := acc, c := k }
    else none
  | none => none
/-- An access that may be performed, or may take its slot, has nothing to wait for. -/
def accGoes (s : State) (k : Nat) : Bool :=
  match s.cx.accs[k]? with
  | none => false
  | some a =>
    let acc : AccQ := if a.ql then .load else .store
    match slotMove s acc k with
    | some g => slotsInUse s g.a g.b < 64 && !olderSeeker s g.b k
    | none => match a.op.isMark, accResolve s a with
      | false, .ok ks => (match nextHop s s.cx.id.die ks (a.kind == .wr) a.go with | .wait => false | _ => true)
      | _, _ => true
/-- The first access that may be performed. -/
def nextAcc (s : State) : Option Nat := (List.range s.cx.accs.length).find? fun k => accOk s k && accGoes s k
/-- The step that performs an access: a base vector core reaches its vaults by direct-row accesses (R375). -/
def accMove (s : State) (k : Nat) : Move :=
  match s.cx.accs[k]? with
  | none => .pass
  | some a =>
    let acc : AccQ := if a.ql then .load else .store
    if directRow s.cx a then .event .directRowAccess { a := k } true
    else match slotMove s acc k with
      | some g => .event .requestSlotGrant g true
      | none => .event .accessPerformed { acc := acc, a := k } true
/-- The matrix command at the head of the array's queue goes on. -/
def matrixMove (s : State) : Move :=
  let c := s.cx
  match c.mfly with
  | [] => .pass
  | h :: _ => match h.prog with
    | .plain => match h.e.instr .m with
      | some i => .cont h.e i
      | none => .pass
    | .gemm _ _ => if linkFenced s c.id.die then .pass else .event .mmacroGroup {} false
    | .scan => .event .mscanStep {} false
/-- What the focused context's great array does (R69, R70, R254, R398). -/
def leaseMove (s : State) : Move :=
  let g := s.cx.id.cluster
  let sub : Subject := { a := g }
  if s.cx.id.prof != .p then .pass
  else match (s.great g).lease with
    | none => if (s.great g).reqs != [] then .event .leaseArbitration sub false else .pass
    | some l =>
      if timeoutDue s g then .event .leaseTimeout sub false
      else if canEnd s g then .event .leaseEnd sub false
      else if l.at' + 4096 ≤ s.cycle && !l.ending then .event .leaseTimeLimit sub false
      else if idleDue s g then .event .leaseIdleEnd sub false
      else .pass
/-- A bank whose wake has lasted its nominal 76 cycles (R303). -/
def wokenBank (s : State) : Option (Nat × Nat) :=
  s.vaults.findSome? fun v => v.2.banks.findSome? fun b => match b.2.waking with
    | some t => if t + 76 ≤ s.cycle then some (v.1, b.1) else none
    | none => none
/-- The die whose reduction unit takes the next addition, or the closes, of a reduction. -/
def redDie (w : RedWait) : Nat :=
  let word := match w.adds with | p :: _ => p.1 | [] => w.close.headD 0
  4 * word / 2 ^ 39 % 8
/-- The waiting reduction of the focused context. -/
def redMove (s : State) : Move :=
  match s.redWait.findIdx? fun w => w.ctx == s.cx.id with
  | some k =>
    let die := match s.redWait[k]? with | some w => redDie w | none => 0
    .event .reductionAddition { a := die, b := k } true
  | none => .pass
/-- Every queued instruction has issued. -/
def queuesEmpty (c : Ctx) : Bool := c.cq == [] && c.queues.all fun q => q.2 == []
/-- What a boundary or a trap does once the context has come to rest. -/
def restMove (s : State) : Move :=
  let c := s.cx
  if c.due.isSome then (if trapReady s then .event .trap {} false else .pass)
  else if c.mode = .boundary && queuesEmpty c then (if c.yieldReq || c.caps.isSome then .event .save {} false else .turn)
  else .pass
/-- What the core and the barriers of the focused context's node do (R68, R333, R397). -/
def coreMove (s : State) : Move :=
  let c := s.cx
  match (s.coreSt c.id.coreKey).change with
  | some (_, t) => if t ≤ s.cycle then .event .contextChangeComplete {} false else .pass
  | none =>
    if stallDue s || lateTurn s then .event .contextStallSwitch {} false
    else if c.has && wdLimit s ≤ c.wd && c.due.isNone then .event .watchdogExpiry {} false
    else match s.bars.findIdx? fun b => b.nid == c.it.nid && phaseReady s b with
      | some k => .event .barrierPhaseComplete { a := k } true
      | none => .pass
/-- An S instruction of an earlier line that writes a scalar register which the head of another stream reads has not issued
before this cycle. R94 lets the streams issue any number of cycles apart: the model issues the reader later (log entry 43). -/
def behindS (c : Ctx) (now : Nat) (e : QEntry) (i : Instr) : Bool :=
  let rs := (sReads i).filter (· != 0)
  let early (n : Nat) : Bool := n / 8 < e.seq / 8
  rs != [] && (c.sq.any (fun f => f.live && early f.seq && (match f.instr .s with
      | some j => (sWrites j).any rs.contains
      | none => false))
    || c.inflight.any fun f => f.issued == now && early f.seq && (match f.res.sreg with
      | some r => rs.contains r
      | none => false))
/-- The head of a stream's queue issues when its cycle has come (R94, R123, R127); the S stream waits for an outstanding
access (R168). -/
def issueMove (s : State) (st : Stream) : Move :=
  match s.cx.queue st with
  | [] => .pass
  | e :: _ =>
    if !isActive s s.cx || s.cycle < e.at' || s.cycle < s.cx.nextIss.getD (streamCode st) 0 || (st == .s && s.cx.gacc.isSome)
        || ((st == .x || st == .m) && linkFenced s s.cx.id.die) then
      .pass
    else match e.instr st with
      | some i => if st != .s && e.live && behindS s.cx s.cycle e i then .pass else .issue st e i
      | none => .drop st
/-- The head of the C queue acts (R122). -/
def seqMove (s : State) : Move :=
  match s.cx.cq with
  | [] => .pass
  | e :: _ =>
    if !isActive s s.cx || s.cycle < e.at' then .pass
    else match e.instr .c with
      | some i => .issue .c e i
      | none => .drop .c

/-- The run that generates for port n: load ports 0 to 7, then store ports 0 to 7, after the A instruction of the cycle (R202). -/
def runOn (c : Ctx) (now n : Nat) : Option Nat :=
  (List.range 16).find? fun g => canGenerate c now g && (match (c.agSet g).run with
    | some r => r.port + (if r.load then 0 else 8) == n
    | none => false)
/-- The phase at which a stream issues. -/
def phaseOf (st : Stream) : Nat :=
  match st with
  | .s => 30
  | .v => 31
  | .m => 32
  | .x => 33
  | .a => 34
  | .y => 35
  | .c => 36

/-- What the machine does next in the nominal order of a cycle. -/
def plan (s : State) : Move :=
  let c := s.cx
  match s.phase with
  | 0 => match dueResult s with
    | some k => .event .resultWrite { a := k } true
    | none => .pass
  | 1 => match c.gacc with
    | some g =>
      if g.st != .waiting then .pass
      else match slotMove s .glob 0 with
        | some x => .event .requestSlotGrant x true
        | none => .event .accessPerformed { acc := .glob } false
    | none => .pass
  | 2 => match c.gacc with
    | some g => if g.st = .waiting then .pass else .event .globalAccessResponse {} false
    | none => .pass
  | 3 => match nextAcc s with
    | some k => accMove s k
    | none => .pass
  | 20 => if c.decs = [] then .pass else .event .completionCounterDecrement { a := 0 } true
  | 21 => matrixMove s
  | 22 => leaseMove s
  | 23 => match wokenBank s with
    | some b => .event .bankWake { a := b.1, b := b.2 } true
    | none => .pass
  | 24 => redMove s
  | 25 => match c.yfly with
    | some (.tq _ _ _ _ _ _ _ n) => if n ≤ s.cycle then .event .tokenQueueAttempt {} false else .pass
    | _ => .pass
  | 26 => restMove s
  | 27 => coreMove s
  | 30 => issueMove s .s
  | 31 => issueMove s .v
  | 32 => issueMove s .m
  | 33 => issueMove s .x
  | 34 => issueMove s .a
  | 35 => issueMove s .y
  | 36 => seqMove s
  | 37 => if canFetch s then .event .lineFetch {} false else .pass
  | 38 => if canDeliver s then .event .lineDelivery {} false else .pass
  | n =>
    if 40 ≤ n && n < 56 then (match runOn c s.cycle (n - 40) with
      | some g => .event .agAccessGenerate { a := g } false
      | none => .pass)
    else if 56 ≤ n then (if s.round = [] then .tick else .rotate)
    else .pass

/-! ## Carrying a move out -/

/-- The next phase. -/
def nextPhase (s : State) : State := { s with phase := s.phase + 1 }
/-- The state in which a device step of a subject executes. -/
def withSub (s : State) (sub : Subject) : State := { s with sub := sub, blk := false }
/-- The state in which the head of a queue executes: the entry has left its queue and is the current one. -/
def takeHead (s : State) (st : Stream) (e : QEntry) : State :=
  { s with cur := e, blk := false, cx := s.cx.setQueue st (s.cx.queue st).tail }
/-- The state in which a matrix command in flight goes on. -/
def takeCmd (s : State) (e : QEntry) : State := { s with cur := e, blk := false }

/-- The outcome of a device step of the nominal order: one that has to wait leaves the state as it was. -/
def settle (s : State) (again : Bool) (o : Out) : Out :=
  match o with
  | .next t => .next (if t.blk then nextPhase s else if again then t else nextPhase t)
  | .fault f => .fault f
  | .refused r => .refused r
/-- An instruction has issued in stream st (R94, R127, R409). -/
def issued (c : Ctx) (now : Nat) (st : Stream) (chk : Bool) : Ctx :=
  { c with lastIssue := now, perf := c.perf.setIfInBounds 2 (c.perf.getD 2 0 + 1),
           nextIss := if st = .c then c.nextIss else c.nextIss.setIfInBounds (streamCode st) (now + (if chk then 2 else 1)) }
/-- The outcome of the head of a queue: one that has to wait stays at the head with nothing changed; one that has put itself
back at the head has not issued yet. -/
def settleIssue (s : State) (st : Stream) (e : QEntry) (o : Out) : Out :=
  match o with
  | .next t =>
    if t.blk then .next (nextPhase s)
    else
      let back := match t.cx.queue st with
        | f :: _ => f.seq == e.seq
        | [] => false
      if back then .next (nextPhase t)
      else
        let t1 := if t.cx.has then { t with cx := issued t.cx s.cycle st e.chk } else t
        .next (if st = .c then t1 else nextPhase t1)
  | .fault f => .fault f
  | .refused r => .refused r

/-- An event of the agenda: one that has to wait does not take place. -/
def settleAgenda (s : State) (o : Out) : Out :=
  match o with
  | .next t => .next (if t.blk then s else t)
  | .fault f => .fault f
  | .refused r => .refused r

/-- A boundary at which no iteration is saved: the contexts change by priority, or the iteration goes on (R68, R149). -/
def turnAt (s : State) : State :=
  let s1 := match otherCtx s s.cx.id with
    | some o => if s.cx.prioReq then giveWay s o.id.ctx else s
    | none => s
  { s1 with cx := { s1.cx.clearHint with mode := .run, prioReq := false } }

/-- The context waits at a wait, a fence, a barrier, a btok or a Y instruction (R409). -/
def blockedNow (c : Ctx) : Bool :=
  c.yq != [] || c.yfly.isSome || (match c.cq with
    | e :: _ => match e.instr .c with
      | some (.wait _) | some (.fence _) | some (.bar _) | some (.barv _) | some (.barw _) | some (.sstep _) | some (.btok _) => true
      | _ => false
    | [] => false)
/-- The run has its turn at its port, and no room or no data there (R201, R207). -/
def runStarved (c : Ctx) (r : Run) : Bool :=
  r.next < r.total && !r.stop && runTurn c r
    && (if r.load then 8 ≤ (c.lports.getD r.port []).length
        else match c.sports.getD r.port [] with | e :: _ => !e.ready | [] => true)
/-- A V instruction, an issued matrix command or a run of the A stream waits for a port (R409). -/
def portWait (c : Ctx) (now : Nat) : Bool :=
  (match c.vq with
    | e :: _ => e.at' ≤ now && c.nextIss.getD (streamCode .v) 0 ≤ now
        && (match e.instr .v with | some (.vtok _) => false | some i => !behindS c now e i | none => false)
    | [] => false)
  || c.ag.any (fun g => match g.run with | some r => runStarved c r | none => false)
  || (match c.mfly with
    | h :: _ => (h.port c.id.prof).any fun p => h.got.length < p.2
    | [] => false)
/-- The counters of yperf, the stall count and the watchdog of a context advance by one cycle (R68, R397, R409). -/
def countCycle (s : State) (c : Ctx) : Ctx :=
  let act := isActive s c
  let inc (k : Nat) (b : Bool) (p : Vector W64 8) : Vector W64 8 := if b then p.setIfInBounds k (p.getD k 0 + 1) else p
  let lease := c.id.prof == .p && pendingGreat c && (leaseOf s c.id).isNone
  { c with
    perf := inc 5 lease (inc 4 (act && blockedNow c) (inc 3 (act && portWait c s.cycle) (inc 0 act c.perf)))
    stall := if act && ctxBlocked s c then c.stall + 1 else 0
    wd := if (act || ctxBlocked s c) && c.nextIss.getD 1 0 != s.cycle + 1 then c.wd + 1 else c.wd }
/-- A pending great-array instruction of a context keeps its lease from the idle end (R69). -/
def keepLease (s : State) (c : Ctx) : State :=
  if c.id.prof = .p && pendingGreat c && (leaseOf s c.id).isSome then
    let g := s.great c.id.cluster
    s.setGreat c.id.cluster { g with lease := g.lease.map fun l => { l with idle := s.cycle } }
  else s
/-- The next context has its turn in this cycle. -/
def rotate (s : State) : State :=
  match s.round with
  | [] => s
  | id :: r => if s.running.any (·.id == id) then { focusOn s id with phase := 0, round := r } else { s with round := r }
/-- The next cycle begins: every context that holds an iteration counts the cycle that ends, its queues present their accesses (R202),
and it has a turn in the cycle; no bank has served an access in it yet (R198). -/
def tick (s : State) : State :=
  let s1 := countStarved (s.running.foldl keepLease s)
  let count (c : Ctx) : Ctx := if c.has then countCycle s1 c else c
  let s2 : State := { s1 with
    cx := count s1.cx
    parked := s1.parked.map count
    round := (s1.parked.filter (·.has)).map (·.id)
    cycle := s1.cycle + 1
    phase := 0
    served := [] }
  { s2 with cx := presentAll s2 s2.cx, parked := s2.parked.map (presentAll s2) }

/-! ## Placing an instruction -/

/-- A device step, which has no instruction words, and so can stand in the agenda. -/
def isDevice (i : Instr) : Bool := (encode i).isNone

/-- A context whose profile has the instruction (R2): the given one if it will do. -/
def homeFor (id : CtxId) (i : Instr) : CtxId :=
  if present id.prof i then id
  else if present .p i then ⟨0, 0, false, 0⟩
  else if present .d i then ⟨2, 0, false, 0⟩
  else ⟨2, 0, true, 0⟩
/-- The queue entry of an instruction placed for a context's next issue. -/
def placedEntry (s : State) (c : Ctx) (word : W32) (ext : List W32) : QEntry :=
  ⟨word, ext, c.pc, 1, c.lineSeq * 8 + 1, levelNow c, c.rm, c.ten, c.psel, c.gzero, c.chk, s.cycle, c.vdep, c.pdep, none⟩
/-- The state with an instruction at the head of its stream's queue, so that the next step issues it: its context holds an
iteration, is active and may issue in this cycle, and nothing stands in the agenda. -/
def placeInstr (s : State) (st : Stream) (word : W32) (ext : List W32) (i : Instr) : State :=
  let id := homeFor s.cx.id i
  let c : Ctx := { s.cx with id := id, has := true, gacc := none,
                             nextIss := s.cx.nextIss.setIfInBounds (streamCode st) s.cycle }
  let s1 := s.setCore id.coreKey ⟨id.ctx, none⟩
  { s1 with cx := c.setQueue st (placedEntry s c word ext :: c.queue st), agenda := [], phase := phaseOf st }
/-- The same for a word in the opcode table's numbering; a word that no stream accepts changes nothing. -/
def placeWord (s : State) (nbits w : Nat) : State :=
  match tableEnc nbits w with
  | none => s
  | some e => match decode e.st e.word e.ext with
    | .ok i => placeInstr s e.st e.word e.ext i
    | .error _ => s

end Sys2Proof.Machine
end

