-- ==== Sys2Proof/Machine/YSys.lean ====
section
/-! DEFINITION. The Y stream: control registers, traps and events, counters, translation and generations, token queues, software
saves and the context forms (R73, R298 to R301, R405 to R413). A Y instruction holds delivery while it stands in its queue or
has an operation on its way. -/

namespace Sys2Proof.Machine

/-! ## The frame of a Y instruction (R405) -/

/-- A precise trap of a Y instruction. -/
def yTrap (s : State) (cause : Nat) (addr : W64) : Out := .next (trapAt s .y cause addr 0)
/-- Execute a Y instruction that reads and writes scalar registers: it waits until every slot of its own line that uses a
register it writes has issued (R405); in checking mode a breach is recorded (R127). -/
def yExec (g : BitVec 2) (reads dsts : List (BitVec 6)) (k : State → Out) (s : State) : Out :=
  gated g s fun s =>
    if dsts.any fun d => lineUsePending s.cx s.cur d.toNat then .next s.block
    else if s.cur.chk && (reads.any (fun r => breachS s.cx s.cycle r.toNat) || dsts.any fun d => (VDst.scal d).breach s) then
      .next (breachTrap s .y)
    else k s
/-- Write the result of a Y instruction; free values read before are used up. -/
def yWrite (s : State) (d : Nat) (v : W64) : State :=
  { s with cx := (s.cx.meetS s.cycle d).ws d v, fresh := s.fresh + 1 }
/-- The Y instruction stays at the head of its queue with what has changed. -/
def requeueY (s : State) : Out := .next { s with cx := { s.cx with yq := s.cur :: s.cx.yq } }

/-! ## Control registers, traps, events, counters (R406 to R409) -/

/-- The instructions delivered so far keep their names under a rotating base that is overwritten (R147, R406). -/
def Ctx.keepNames (c : Ctx) (rrb : BitVec 5) : Ctx :=
  let keep (q : List QEntry) : List QEntry := q.map fun e => { e with rrb := e.rrb.or (some rrb) }
  { c with vq := keep c.vq, mq := keep c.mq, aq := keep c.aq, xq := keep c.xq }
/-- Read a control register and write one, under R121, R181 and R406; `new` is what is written, if anything is. PC is the line being
delivered, which is this instruction's own, since it holds delivery. -/
def yCsr (w : FK) (new : W64 → W64 → Option W64) (s : State) : Out :=
  yExec w.g [w.a] [w.d] (fun s =>
    if w.num = 4 && !earlierWritten s.cx (s.cur.seq / 8) then .next s.block
    else
      let old := if w.num = 0 then s.cur.line else crRead s.cx w.num.toNat
      match new old (readS s 0 w.a.toNat) with
      | none => .next (yWrite s w.d.toNat old)
      | some v => match crWrite s.cx w.num.toNat v with
        | none => yTrap s tcLoop 0
        | some c => .next (yWrite { s with cx := if w.num = 2 then c.keepNames s.cx.rrb else c } w.d.toNat old)) s
/-- R406. -/
def execYcsrr (w : FK) (s : State) : Out := yCsr w (fun _ _ => none) s
/-- R406: with a = s0 zero is written. -/
def execYcsrw (w : FK) (s : State) : Out := yCsr w (fun _ v => some v) s
/-- R406: with a = s0 nothing is written. -/
def execYcsrs (w : FK) (s : State) : Out := yCsr w (fun o v => if w.a = 0 then none else some (o ||| v)) s
/-- R406: with a = s0 nothing is written. -/
def execYcsrc (w : FK) (s : State) : Out := yCsr w (fun o v => if w.a = 0 then none else some (o &&& ~~~v)) s
/-- R407. -/
def execYtrap (w : FK) (s : State) : Out :=
  yExec w.g [w.a] [] (fun s => .next (trapAt s .y tcSoft (readS s 0 w.a.toNat) w.num.toNat)) s
/-- R408: a release at package scope, then the payload and the event. -/
def execYsig (w : FR) (s : State) : Out :=
  yExec w.g [w.a, w.b] [] (fun s =>
    let a := readS s 0 w.a.toNat
    let evt := bitsOf a 0 2
    let vec := bitsOf a 8 8
    if evt = 0 || bitsOf a 2 6 != 0 || bitsOf a 16 48 != 0 then yTrap s tcOperand 0
    else if !released s false s.cur.seq then .next s.block
    else
      let vi := s.cx.it.vi
      let s1 := s.setVi vi { s.vi vi with sigdata := readS s 3 w.b.toNat }
      let s2 := if evt % 2 = 1 then s1.post true vi vec else s1
      .next { (if evt / 2 = 1 then s2.post false vi vec else s2) with fresh := s.fresh + 1 }) s
/-- R409. -/
def execYperf (w : FR) (s : State) : Out :=
  yExec w.g [w.a] [w.d] (fun s =>
    let n := (readS s 0 w.a.toNat).toNat
    if 8 ≤ n then yTrap s tcOperand 0 else .next (yWrite s w.d.toNat (s.cx.perf.getD n 0))) s

/-! ## Translation and generations (R297 to R301) -/

/-- A register names an ASID of the running iteration's VI (R298). -/
def asidOf (s : State) (v : W64) : Option Nat :=
  let x := s.vi s.cx.it.vi
  if v.toNat < 4096 && x.asidbase ≤ v.toNat && v.toNat < x.asidbase + x.asidn then some v.toNat else none
/-- Drop the cached translations of an ASID that a test of the entry names (R299). -/
def dropXlat (s : State) (asid : Nat) (t : Xlat → Bool) : State :=
  { s with xlat := s.xlat.filter fun x => !(x.asid == asid && t x) }
/-- R299: the whole ASID, or the entries that map an address. -/
def execYtlbi (w : FR) (s : State) : Out :=
  yExec w.g [w.a, w.b] [] (fun s =>
    let a := readS s 0 w.a.toNat
    let va := bitsOf (readS s 3 w.b.toNat) 0 57
    match asidOf s a with
    | none => yTrap s tcPermission a
    | some x => .next { dropXlat s x (fun e => w.b == 0 || (e.va ≤ va && va < e.va + e.size)) with fresh := s.fresh + 1 }) s
/-- The code of a page size (R300). -/
def pageCode (size : Nat) : Nat :=
  if size = 2 ^ 16 then 0 else if size = 2 ^ 21 then 1 else if size = 2 ^ 29 then 2 else 3
/-- The result of a probe (R300). -/
def probe (s : State) (die core asid : Nat) (gen : BitVec 16) (kind : AccessKind) (a : W64) : W64 :=
  if 2 ^ 57 ≤ a.toNat then 3
  else if gen != (s.asid asid).gen then 4
  else match translate s die core asid gen kind false a.toNat with
    | .error e => if e = tcPermission then 2 else 1
    | .ok pa =>
      let size := match leafOf s die core asid gen a.toNat with | .ok l => l.size | .error _ => 65536
      natW (2 ^ 63 + 2 ^ 60 * pageCode size + pa)
/-- The kind of access of a yprobe code (R298). -/
def kindOf (n : Nat) : AccessKind := match n with | 0 => .rd | 1 => .wr | 2 => .ex | _ => .rw
/-- R300. -/
def execYprobe (w : FR) (s : State) : Out :=
  yExec w.g [w.a] [w.d] (fun s =>
    let a := readS s 0 w.a.toNat
    let c := s.cx
    let r := probe s c.id.die c.id.coreKey c.it.asid c.it.gen (kindOf w.b.toNat) a
    let s1 := if bitAt r 63 then fillXlat s c.id.die c.id.coreKey c.it.asid c.it.gen a.toNat else s
    .next (yWrite s1 w.d.toNat r)) s

/-- The token of an advance under way, beside the controllers that have yet to adopt it. -/
def advanceMark : Nat := 4096
/-- Every memory controller and fabric port of the package (R296, R297). -/
def allControllers : List Nat := List.range 2070
/-- An advance of the ASID is under way. -/
def advancing (s : State) (asid : Nat) : Bool := (s.asid asid).pending.contains advanceMark
/-- Steps 1 and 2 of R297: the table takes the new generation, and a new root; every controller is told. -/
def startAdvance (s : State) (asid : Nat) (root : Option W64) : State :=
  let e := s.asid asid
  let e2 : AsEntry := { e with root := root.getD e.root, gen := e.gen + 1, old := e.gen, pending := advanceMark :: allControllers }
  { s with asTab := Tab.put AsEntry.zero s.asTab asid e2 }
/-- An advance reaches the hub: it begins, or waits its turn behind the advances of the ASID that have reached the hub before it (R301). -/
def requestAdvance (s : State) (asid : Nat) (w : Advance) : State :=
  let e := s.asid asid
  let s1 := { s with asTab := Tab.put AsEntry.zero s.asTab asid { e with queue := e.queue ++ [w] } }
  if advancing s asid then s1 else startAdvance s1 asid w.root
/-- A new root is legal (R301). -/
def rootOk (s : State) (r : W64) : Bool := r.toNat < 2 ^ 50 && r.toNat % 32768 == 0 && paOk s r.toNat 32768
/-- R301: the new generation, found in the operation on its way plus 65,536, is written when the advance has completed. -/
def execYgen (w : FR) (s : State) : Out :=
  yExec w.g [w.a, w.b] [w.d] (fun s =>
    match s.cx.yfly with
    | some (.gen _ g) =>
      if g < 65536 then .next s.block else .next (yWrite { s with cx := { s.cx with yfly := none } } w.d.toNat (natW (g % 65536)))
    | _ =>
      let a := readS s 0 w.a.toNat
      let r := readS s 3 w.b.toNat
      match asidOf s a with
      | none => yTrap s tcPermission a
      | some x =>
        if w.b != 0 && !rootOk s r then yTrap s tcOperand 0
        else
          let s1 := requestAdvance s x ⟨some s.cx.id, s.cx.it.vi, if w.b = 0 then none else some r⟩
          requeueY { s1 with cx := { s1.cx with yfly := some (.gen x 0), yseq := s.cur.seq }, fresh := s.fresh + 1 }) s

/-! ## Token queues (R72, R73) -/

/-- Start the attempts of a token-queue instruction; the first returns after nominally 150 cycles. -/
def startTq (s : State) (send : Bool) (q : W64) (v : W64) (d b tmo : Nat) : Out :=
  if (s.vi s.cx.it.vi).tqn ≤ q.toNat || 64 ≤ q.toNat then yTrap s tcPermission q
  else .next { s with
    cx := { s.cx with yfly := some (.tq send q.toNat v d b tmo s.cycle (s.cycle + 150)), yseq := s.cur.seq }, fresh := s.fresh + 1 }
/-- R73: send s[b] to queue s[a]. -/
def execYtqs (w : FR) (s : State) : Out :=
  yExec w.g [w.a, w.b] [] (fun s => startTq s true (readS s 0 w.a.toNat) (readS s 3 w.b.toNat) w.d.toNat 0 w.f.toNat) s
/-- R73: receive from queue s[a]. -/
def execYtqr (w : FR) (s : State) : Out :=
  yExec w.g [w.a] [] (fun s => startTq s false (readS s 0 w.a.toNat) 0 w.d.toNat w.b.toNat w.f.toNat) s
/-- One attempt at the hub: its status, the entry received, the queue afterwards (R73). -/
def tqAttempt (q : List W64) (depth : Nat) (send : Bool) (v : W64) : Nat × W64 × List W64 :=
  if depth = 0 then (2, 0, q)
  else if send then (if q.length < depth then (0, 0, q ++ [v]) else (4, 0, q))
  else match q with
    | e :: r => (0, e, r)
    | [] => (4, 0, q)
/-- R73: one attempt returns; the instruction ends with its status, or tries again 128 cycles later. It waits for the slots of
its own line that use a register it writes. -/
def execTokenQueueAttempt (s : State) : Out :=
  match s.cx.yfly with
  | some (.tq send q v d b tmo start _) =>
    let own : QEntry := { QEntry.none with seq := (s.cx.lineSeq - 1) * 8 }
    if lineUsePending s.cx own d || lineUsePending s.cx own b then .next s.block
    else
      let vi := s.vi s.cx.it.vi
      let k := vi.tqbase + q
      let r := tqAttempt (Tab.get [] s.tqs k) (Tab.get 0 vi.depth q) send v
      let s1 := { s with tqs := Tab.put [] s.tqs k r.2.2 }
      let fin (st : Nat) (e : W64) : Out :=
        let s2 := { s1 with cx := { s1.cx with yfly := none } }
        .next (if send then yWrite s2 d (natW st) else yWrite (yWrite s2 b (natW st)) d e)
      if r.1 != 4 then fin r.1 r.2.1
      else if tmo = 0 || (tmo < 63 && start + 2 ^ tmo ≤ s.cycle) then fin 1 0
      else if s.cx.yieldReq || s.cx.due.isSome then fin 3 0
      else .next { s1 with cx := { s1.cx with yfly := some (.tq send q v d b tmo start (s.cycle + 278)) } }
  | _ => .refused (.noSubject "no token-queue instruction is waiting")

/-! ## Software saves (R410, R411) -/

/-- Begin a save: capture the operations in flight at the earliest cycle from b on (R401 step 1). -/
def beginSave (s : State) (b : Nat) : State := { s with cx := { s.cx with caps := some (capture s.cx b) } }
/-- Steps 2 to 4 of R401 are done and every captured operation has landed. -/
def saveDrained (s : State) : Bool :=
  let c := s.cx
  c.accs == [] && c.gacc.isNone && c.ncx == 0 && c.inflight == [] && c.decs == [] && (c.mfly.all fun m => m.prog != .plain)
    && !(s.redWait.any fun w => w.ctx == c.id) && !s.kvq.any fun w => w.ctx == c.id
/-- The scalar registers that a C instruction reads or writes (R122). -/
def cUses (c : Ctx) (i : Instr) : List Nat :=
  match i with
  | .call _ | .ret _ => [63]
  | .callr w => [w.a.toNat, w.d.toNat]
  | .brr w | .bc w => [w.a.toNat]
  | .bcr w => [w.a.toNat, w.b.toNat]
  | .loop w | .loopBound w => [w.a.toNat]
  | .lrd w => [w.d.toNat]
  | .setm w => [w.a.toNat, w.d.toNat]
  | .lend _ | .lcont _ => [c.inner.x.toNat, c.inner.y.toNat]
  | _ => []
/-- The C instructions of a Y instruction's line have acted, or the next of them waits for the Y instruction: an exit waits for every
queue (R152), another for a register that it writes (R122). -/
def lineActed (c : Ctx) (d : Nat) : Bool :=
  match c.cq with
  | [] => true
  | e :: _ => match e.instr .c with
    | some (.exit _) => true
    | some i => d != 0 && (cUses c i).contains d
    | none => false
/-- Every other queue of the context is empty. -/
def onlyY (c : Ctx) : Bool := c.queues.all fun q => q.1 == .y || q.2 == []
/-- What a window-0x0 address that must be 64 KiB aligned fails. -/
def areaAddrCause (a : W64) : Option Nat :=
  if a.toNat / 2 ^ 60 != 0 then some tcWindow else if a.toNat % 65536 != 0 then some tcAlign else none
/-- The first 64-byte unit of an area that cannot be accessed, with its cause. -/
def areaFault (s : State) (kind : AccessKind) (a : W64) (n : Nat) : Option (Nat × W64) :=
  ((List.range (n / 64)).map fun k => a + natW (64 * k)).findSome? fun p =>
    match resolve s s.cx kind false false p 64 64 with
    | .error e => some (e, p)
    | .ok _ => none
/-- R410. Its size is known before it writes; a fault of the write is its own, precisely. A condition that a captured operation or the
draining records turns the save into its trap (R401). -/
def execYsave (w : FR) (s : State) : Out :=
  yExec w.g [w.a, w.b] [w.d] (fun s =>
    let a := readS s 0 w.a.toNat
    match areaAddrCause a with
    | some c => yTrap s c a
    | none => match s.cx.caps with
      | none => if onlyY s.cx && lineActed s.cx w.d.toNat then requeueY (beginSave s (s.cycle + 1)) else .next s.block
      | some caps =>
        if s.cx.pend.isSome then atBoundary s .next
        else if !saveDrained s then .next s.block
        else
          let c := { s.cx with nxt := none, pc := s.cur.line, inLine := true }
          let size := areaSize s c
          let s1 := { s with cx := { s.cx with caps := none } }
          if (readS s 3 w.b.toNat).toNat < size then .next (yWrite s1 w.d.toNat 0)
          else match areaFault s .wr a size with
            | some e => yTrap s1 e.1 e.2
            | none => match resolve s s.cx .wr false false a size 64 with
              | .error e => yTrap s1 e a
              | .ok ks =>
                let s2 := touchBanks (storeBytes (noteSealed s1 s.cx.it.rid ks) ks (leBytes size (areaNat s c 1 caps))) ks
                .next (yWrite s2 w.d.toNat (natW size))) s

/-- The kernel header of the node that an area names. -/
def areaKhd (s : State) (v : Nat) : Option Khd :=
  match readAs s s.cx.it.asid s.cx.it.gen (areaW v 0x10) 64 parseNode with
  | .error _ => none
  | .ok ws => match readAs s s.cx.it.asid s.cx.it.gen (ws.getD 2 0) 64 (parseKhd (ws.getD 2 0)) with
    | .ok k => some k
    | .error _ => none
/-- The area suits the issuer (R411). -/
def areaFits (s : State) (v : Nat) : Bool :=
  let c := s.cx
  let w := areaAt v 0 8
  w % 256 == 0x40 && w / 2 ^ 8 % 4 == profCode c.id.prof && w / 2 ^ 26 % 2 ^ 11 == s.dieAddr c.id.die
    && w / 2 ^ 37 % 2 ^ 9 == c.id.core
    && ((List.range 4).all fun m => areaAt v (0x980 + 8 * m) 8 == (c.khd.range m).word)
    && (match areaKhd s v with
      | some k => k.rot == c.khd.rot && k.vregs ≤ c.khd.vregs && k.pregs ≤ c.khd.pregs && k.agsets ≤ c.khd.agsets
      | none => false)
/-- Steps 1 and 2 of R404 must wait: another context owns a slot of the area, or another running iteration of the core holds a
range in a bank whose format is restored. -/
def restoreWaits (s : State) (c : Ctx) (v : Nat) : Bool :=
  ((areaSlots v).any fun x => (slotAt s c.id x.1).owner.any (· != c.id))
    || s.running.any fun d => d.id.coreKey == c.id.coreKey && d.id != c.id && (ownBanks d).any fun b => (ownBanks c).contains b
/-- R411: the issuer's slots are released before it waits as a restore does. -/
def execYrest (w : FR) (s : State) : Out :=
  yExec w.g [w.a] [] (fun s =>
    let a := readS s 0 w.a.toNat
    match areaAddrCause a with
    | some c => yTrap s c a
    | none => match areaFault s .rd a 0x10800 with
      | some e => yTrap s e.1 e.2
      | none =>
        let rd (n : Nat) : Nat := match resolve s s.cx .rd false false a n 64 with | .ok ks => homeNat s ks | .error _ => 0
        let size := max 0x10800 (areaAt (rd 0x10800) 0x20 8)
        match areaFault s .rd a size with
        | some e => yTrap s e.1 e.2
        | none =>
          let v := rd size
          if !areaFits s v then yTrap s tcOperand 0
          else if s.cx.ncl != 0 || s.cx.ncs != 0 || s.cx.ncx != 0 || s.cx.ncm != 0 then .next s.block
          else if restoreWaits s s.cx v then requeueY (releaseSlots s s.cx.id)
          else
            let c0 := s.cx
            let s1 := restoreScratch (releaseSlots (touchBanks (noteRead s a size) (ctxKeys s c0 a size)) c0.id) c0 v
            let r := restoreSlots s1 c0 v
            match r.2 with
            | some e => yTrap s tcRestore e.2
            | none =>
              let n := areaCtx v s.nextId c0
              let caps := areaCaptured v c0.id.prof s.fresh n.sports.toList
              let c : Ctx := { n with
                pc := c0.pc, line := c0.line, inLine := c0.inLine, last := c0.last, nxt := c0.nxt, replay := c0.replay
                cq := c0.cq, sq := c0.sq, vq := c0.vq, mq := c0.mq, xq := c0.xq, aq := c0.aq, yq := c0.yq
                lineSeq := c0.lineSeq, hold := c0.hold, inflight := c0.inflight, pend := c0.pend, more := c0.more
                yieldReq := c0.yieldReq, prioReq := c0.prioReq, wd := c0.wd, stall := c0.stall, lastIssue := c0.lastIssue
                nextIss := c0.nextIss, resume := some ⟨n.pc, caps⟩ }
              .next { r.1 with cx := c, nextId := s.nextId + 128, fresh := s.fresh + 1 }) s

/-! ## Context forms (R412, R413) -/

/-- R412: at the end of its line the turn passes to the other context, if that one is not blocked. -/
def execYswap (w : FR) (s : State) : Out :=
  yExec w.g [] [] (fun s =>
    if !lineActed s.cx 0 then .next s.block
    else match otherCtx s s.cx.id with
      | some o => .next (if ctxBlocked s o then s else giveWay s o.id.ctx)
      | none => .next s) s
/-- The items of yctx (R413). -/
def ctxItem (s : State) (item : Nat) : W64 :=
  let c := s.cx
  match item with
  | 0 =>
    let o := otherCtx s c.id
    natW (c.id.ctx + 2 * o.isSome.toNat + 4 * (o.any fun d => !ctxBlocked s d).toNat + 8 * c.yieldReq.toNat + 16 * c.it.restored.toNat)
  | 1 => natW (s.dieAddr c.id.die + 2 ^ 11 * c.id.core)
  | 2 => c.it.nodeVa
  | _ => natW c.it.ord
/-- R413. -/
def execYctx (w : FR) (s : State) : Out :=
  yExec w.g [] [w.d] (fun s => .next (yWrite s w.d.toNat (ctxItem s w.b.toNat))) s

end Sys2Proof.Machine
end

