-- ==== Sys2Proof/Machine/SaveRestore.lean ====
section
/-! DEFINITION. The save engine: saving an iteration at a pre-emption boundary and restoring it (R400 to R404, R372 to R374). -/

namespace Sys2Proof.Machine

/-! ## Saving (R400, R401) -/

/-- The bytes of a save slot of a VI. -/
def saveSlotBytes (v : Vi) : Nat := v.savesz * 65536
/-- The lowest free save slot of a VI. -/
def freeSaveSlot (s : State) (vi : Nat) : Option Nat :=
  (List.range (s.vi vi).saven).find? fun k => !s.saved.any fun x => x.vi == vi && x.slot == k
/-- A save of a context fits: a slot is free and is large enough (R400). -/
def saveFits (s : State) (c : Ctx) : Bool :=
  (freeSaveSlot s c.it.vi).isSome && areaSize s c ≤ saveSlotBytes (s.vi c.it.vi)
/-- The address of a save slot. -/
def saveSlotAt (v : Vi) (k : Nat) : W64 := v.savebase + natW (k * saveSlotBytes v)
/-- A fault of steps 2 to 5 turns the save into a trap at this boundary. -/
def saveTrap (s : State) (cause : Nat) (addr : W64) : State := takeTrap s ⟨cause, nextPc s.cx, 0, addr, 0, 0, false⟩
/-- Step 5, after the area has been written: the slots are released, the lease ends, the context is free, the slot is in use,
and the other context becomes active as after an exit. -/
def freeSaved (s : State) (slot : Nat) : State :=
  let c := s.cx
  let id := c.id
  let s1 := dropRecord (dropLease (releaseSlots s id) id) id
  let v := s1.vi c.it.vi
  let kept : Ctx := { Ctx.idle id with it := c.it, khd := c.khd, outBars := c.outBars, arrivals := c.arrivals, pc := nextPc c }
  let s2 := clearSwizzles { s1.setVi c.it.vi { v with saveuse := v.saveuse + 1 } with
    saved := s1.saved ++ [⟨c.it.vi, slot, kept⟩], cx := Ctx.idle id } c
  if (s.coreSt id.coreKey).active = id.ctx then
    match otherCtx s2 id with
    | some o => if ctxBlocked s2 o then s2 else startChange s2 id.coreKey o.id.ctx
    | none => s2
  else s2
/-- The write of the area into a slot (R401 step 5). -/
def writeSaved (s : State) (caps : List Captured) (slot : Nat) : State :=
  let c := { s.cx with caps := none, perf := s.cx.perf.setIfInBounds 7 (s.cx.perf.getD 7 0 + 1) }
  let s1 := { s with cx := c }
  let a := saveSlotAt (s.vi c.it.vi) slot
  let size := areaSize s1 c
  match areaFault s1 .wr a size with
  | some e => saveTrap s1 tcSave e.2
  | none => match resolve s1 c .wr false false a size 64 with
    | .error _ => saveTrap s1 tcSave a
    | .ok ks => freeSaved (touchBanks (storeBytes (noteSealed s1 c.it.rid ks) ks (leBytes size (areaNat s1 c 0 caps))) ks) slot
/-- R401: at a boundary, with every queued instruction issued, the operations in flight are captured; once everything has
drained the area is written. A yield request whose save no longer fits is withdrawn (R400). A base vector core first waits for
NCX (R374). -/
def execSave (s : State) : Out :=
  let c := s.cx
  if !(c.has && c.mode == .boundary && queuesEmpty c) then .refused (.noSubject "no context at a boundary")
  else match c.caps with
    | none =>
      if !c.yieldReq then .refused (.noSubject "no yield is asked for")
      else if !saveFits s c then .next { s with cx := { c with yieldReq := false } }
      else if c.id.prof = .b && c.ncx != 0 then .next s.block
      else .next (beginSave s (max (c.lastIssue + 1) s.cycle))
    | some caps =>
      match c.pend with
      | some t => .next (takeTrap s t)
      | none =>
        if !saveDrained s then .next s.block
        else match freeSaveSlot s c.it.vi with
          | none => .next { s with cx := { c with caps := none, yieldReq := false } }
          | some k => .next (writeSaved s caps k)

/-! ## Restoring (R404) -/

/-- The iteration of a save slot leaves it. -/
def dropSaved (s : State) (v : Saved) : State :=
  let x := s.vi v.vi
  { s.setVi v.vi { x with saveuse := x.saveuse - 1 } with saved := s.saved.erase v }
/-- The context that a saved iteration comes back to, before its registers are read. -/
def returning (s : State) (v : Saved) (id : CtxId) : Ctx :=
  { v.ctx with id := id, has := true, it := { v.ctx.it with restored := true, dispatched := s.nextId } }
/-- A restore that faults: the iteration ends with cause 0x11, and its slot is free (R404). -/
def restoreFault (s : State) (v : Saved) (id : CtxId) (addr : W64) : State :=
  let s1 := focusOn (dropSaved s v) id
  let s2 := { s1 with cx := returning s v id }
  finishTrap s2 ⟨tcRestore, 0, 0, addr, 0, 0, false⟩ false
/-- Steps 1 to 5 of R404, from the area's value: the captured operations wait for the delivery of the saved line. -/
def restoreFrom (s : State) (v : Saved) (id : CtxId) (area : Nat) : State :=
  let c0 := returning s v id
  let s1 := restoreScratch (setSwizzles (focusOn s id) c0) c0 area
  let r := restoreSlots { s1 with cx := c0 } c0 area
  match r.2 with
  | some e => restoreFault s v id e.2
  | none =>
    let n := areaCtx area s.nextId c0
    let caps := areaCaptured area id.prof s.fresh n.sports.toList
    let c : Ctx := { n.clearHint with resume := some ⟨n.pc, caps⟩ }
    enter { dropSaved { r.1 with cx := Ctx.idle id } v with nextId := s.nextId + 128, fresh := s.fresh + 1 } c
/-- Restore saved iteration k into a context. -/
def doRestore (s : State) (v : Saved) (id : CtxId) : Out :=
  let c0 := returning s v id
  let t := { s with cx := c0, parked := s.ctxs }
  let a := saveSlotAt (s.vi v.vi) v.slot
  match areaFault t .rd a 0x10800 with
  | some e => .next (restoreFault s v id e.2)
  | none =>
    let rd (n : Nat) : Nat := match resolve t c0 .rd false false a n 64 with | .ok ks => homeNat t ks | .error _ => 0
    let size := max 0x10800 (areaAt (rd 0x10800) 0x20 8)
    match areaFault t .rd a size with
    | some e => .next (restoreFault s v id e.2)
    | none =>
      let area := rd size
      if restoreWaits s c0 area then .next s.block
      else
        let ks := ctxKeys t c0 a size
        .next (restoreFrom (noteBad (touchBanks s ks) c0.it.rid ks) v id area)
/-- The rank of a saved iteration (R65). -/
def savedRank (s : State) (v : Saved) : Nat × Nat × Nat :=
  match s.node? v.ctx.it.nid with
  | some n => nodeRank s n
  | none => (0, 0, 0)
/-- A saved iteration comes back when the scheduler may place it and, for a compute iteration, no candidate for the context comes
before it (R404); a Midnight iteration waits for the conditions of R373 alone. -/
def restoreNow (s : State) (k : Nat) (bvc : Bool) : Out :=
  match s.saved[k]? with
  | none => .refused (.noSubject "no such saved iteration")
  | some v =>
    let id : CtxId := s.sub.ctx
    if v.ctx.id.bvc != bvc || !restorable s v id || !(bvc || isFirst s id (savedRank s v)) then
      .refused (.noSubject "the iteration may not be restored in this context")
    else doRestore s v id
/-- R404. -/
def execRestore (s : State) : Out := restoreNow s s.sub.a false
/-- R373. -/
def execMidnightRestore (s : State) : Out := restoreNow s s.sub.a true

end Sys2Proof.Machine
end

