-- ==== Sys2Proof/Machine/Streams.lean ====
section
/-! DEFINITION. Streams and their blocks: the transitions of R77, the points at which CANCEL is sampled (R78), the release of blocks
(R81, R357), and what a cancellation or a return to QUEUED does to a hand-off (R79, R88). -/

namespace Sys2Proof.Machine

/-! ## Blocks of a stream (R81, R356, R357) -/

/-- The current generation of an address space. -/
def genOf (s : State) (asid : Nat) : BitVec 16 := (s.asid asid).gen
/-- The physical lines of n bytes at a virtual address. -/
def engLines (s : State) (die asid : Nat) (va : W64) (n : Nat) : List Nat :=
  match engKeys s die asid (genOf s asid) .rd va.toNat n with
  | .ok ks => linesOf ks
  | .error _ => []
/-- A write by an engine of a die; one that faults has no effect. -/
def engPut (s : State) (die asid : Nat) (va : W64) (n v : Nat) : State :=
  match engWrite s die asid (genOf s asid) va n v with
  | .ok t => t
  | .error _ => s
/-- Lines leave the set of SEALED blocks. -/
def unsealLines (s : State) (ls : List Nat) : State := { s with sealed := s.sealed.filter fun l => !ls.contains l }
/-- Set the STATE field of a block's header (R354). -/
def setBlockState (s : State) (die asid : Nat) (blk : W64) (n st : Nat) : State :=
  engPut (unsealLines s (engLines s die asid blk n)) die asid (blk + 2) 1 st
/-- The block indexes (layer, KV head, kind, logical block) of layers. -/
def blockIndexes (layers : List Nat) (nkv nlb : Nat) : List (Nat × Nat × Nat × Nat) :=
  layers.flatMap fun l => (List.range nkv).flatMap fun h => [0, 1].flatMap fun kv => (List.range nlb).map fun lb => (l, h, kv, lb)
/-- The block of an index as a half of the table names it; none when it is absent or cannot be read. -/
def halfOf (s : State) (die asid : Nat) (btab : W64) (t : KvTab) (half : Nat) (x : Nat × Nat × Nat × Nat) : Option W64 :=
  match kvEntry (engReader s die asid (genOf s asid)) btab t x.1 x.2.1 x.2.2.1 x.2.2.2 half with
  | .ok 0 => none
  | .ok a => some (natW a)
  | .error _ => none
/-- Free a copy: its state becomes FREED. One that is EMPTY, because a reset has wiped it, or FREED already has no such edge (R81). -/
def freeCopy (s : State) (die asid : Nat) (blk : W64) (n : Nat) : State :=
  match engReader s die asid (genOf s asid) blk 64 with
  | .ok v => if 1 ≤ nbits v 16 3 && nbits v 16 3 ≤ bsLive then setBlockState s die asid blk n bsFreed else s
  | .error _ => s
/-- Free the block of an index: its half of the table becomes 0, then its state FREED (R357). -/
def freeIndex (s : State) (die asid : Nat) (btab : W64) (t : KvTab) (half : Nat) (x : Nat × Nat × Nat × Nat) : State :=
  match halfOf s die asid btab t half x with
  | none => s
  | some b =>
    freeCopy (engPut s die asid (kvHalfAt btab t x.1 x.2.1 x.2.2.1 x.2.2.2 half) 8 0) die asid b (kvSize (half == 1) t.hdim)
/-- Free every block of a stream that a half of its table names: half 0 the source copies, 1 the destination copies. -/
def freeBlocks (s : State) (die asid : Nat) (r : Srec) (half : Nat) : State :=
  match kvTab (engReader s die asid (genOf s asid)) r.btab r.layers with
  | .error _ => s
  | .ok t => (blockIndexes (List.range t.nlayer) t.nkv t.nlb).foldl (fun s x => freeIndex s die asid r.btab t half x) s

/-! ## Hand-offs at work (R82 to R88) -/

/-- The hand-off of a stream. -/
def jobOf (s : State) (srec : W64) : Option TwJob := s.tw.find? (·.srec == srec)
/-- Change the hand-off of a stream. -/
def updJob (s : State) (srec : W64) (f : TwJob → TwJob) : State :=
  { s with tw := s.tw.map fun j => if j.srec = srec then f j else j }
/-- The hand-off is over. -/
def dropJob (s : State) (srec : W64) : State := { s with tw := s.tw.filter fun j => j.srec != srec }
/-- Free the reserved copies of a hand-off, IN_FLIGHT or LANDED, with the table halves of those that have landed (R88 step 2). -/
def freeReserved (s : State) (j : TwJob) (r : Srec) : State :=
  let s1 := freeBlocks s j.die j.asid r 1
  j.blocks.foldl (fun s b => freeCopy s j.die j.asid b.2 64) s1
/-- The HANDOFF nodes of a stream that run have nothing more to do. -/
def endHandoffs (s : State) (srec : W64) : State :=
  { s with nodes := s.nodes.map fun n =>
      if n.st = .running && nodeKind n.words = 0x16 && n.w 2 = srec then { n with finished := true } else n }
/-- A HANDOFF node's layers. -/
def handoffLayers (n : GNode) : List Nat := (List.range (bitsOf (n.w 4) 16 16)).map fun k => bitsOf (n.w 4) 0 16 + k

/-! ## Transitions (R75 to R79) -/

/-- The regions, not yet complete, that an ADMIT of a stream record started. -/
def regionsOfStream (s : State) (srec : W64) : List Nat :=
  (s.regions.filter fun r => !r.completed && (match r.origin with | .accept a _ _ => a == srec | _ => false)).map (·.rid)
/-- Stop the regions of a stream. -/
def stopStream (s : State) (srec : W64) (status : Nat) : State :=
  (regionsOfStream s srec).foldl (fun s rid => stopGraph s rid status (if status = 6 then 0 else srec)) s
/-- No transition of a stream's record can be performed: its home cannot be reached, is being reset, or has lost it (R79, R89). -/
def recordLost (s : State) (asid : Nat) (srec : W64) : Bool :=
  match agentKeys s hubDie asid (genOf s asid) .rw srec 16 with
  | .error _ => true
  | .ok ks => fencedKeys s hubDie ks || (srecOf (homeNat s ks)).kind != 0x30
/-- A transition has failed: its event is dropped (R77); after an error completion the stream's regions complete with FAULT (R79). -/
def dropTransit (s : State) (asid : Nat) (srec : W64) : State := if recordLost s asid srec then stopStream s srec 3 else s
/-- Every copy of a stream's blocks is freed: those of a hand-off in progress, then those that the table names. -/
def freeEverywhere (s : State) (asid : Nat) (srec : W64) (r : Srec) : State :=
  let s1 := match jobOf s srec with
    | some j => dropJob (freeReserved s j r) srec
    | none => s
  freeBlocks (freeBlocks s1 hubDie asid r 0) hubDie asid r 1
/-- The stream returns to QUEUED (R77, R79): SGEN grows, POS becomes 0, both sides free, its region completes FAULT. -/
def toQueued (s : State) (asid : Nat) (srec : W64) (r : Srec) : State :=
  match transit s asid (genOf s asid) srec r ssQueued r.owner (r.sgen + 1) false with
  | none => dropTransit s asid srec
  | some t => endHandoffs (stopStream (freeEverywhere (hubPut t asid (genOf t asid) (srec + 44) 4 0) asid srec r) srec 3) srec
/-- The stream becomes CANCELLED (R77, R78). -/
def toCancelled (s : State) (asid : Nat) (srec : W64) (r : Srec) : State :=
  match transit s asid (genOf s asid) srec r ssCancelled r.owner r.sgen false with
  | none => dropTransit s asid srec
  | some t => endHandoffs (stopStream (freeEverywhere t asid srec r) srec 6) srec
/-- The stream becomes FAULTED; its blocks are freed. -/
def toFaulted (s : State) (asid : Nat) (srec : W64) (r : Srec) : State :=
  match transit s asid (genOf s asid) srec r ssFaulted r.owner r.sgen false with
  | none => dropTransit s asid srec
  | some t => endHandoffs (freeEverywhere t asid srec r) srec
/-- Step 1 of R88: no further pulls are issued; with none outstanding the reserved copies are freed (step 2). -/
def cancelHandoff (s : State) (srec : W64) (r : Srec) : State :=
  match jobOf s srec with
  | none => s
  | some j =>
    if j.cancelling || j.committed then s
    else
      let ls := j.layers.map fun l => { l with pulls := if l.matched then [] else l.pulls.take 32 }
      let s1 := updJob s srec fun j => { j with cancelling := true, layers := ls }
      if ls.all fun l => l.pulls == [] then updJob (freeReserved s1 j r) srec fun j => { j with freed := true, blocks := [] } else s1
/-- An iteration whose snapshot lists the stream is in flight (R78). -/
def inIteration (s : State) (vi : Nat) (srec : W64) : Bool :=
  s.regions.any fun r => r.vi == vi && !r.completed && (match r.origin with | .iterate _ _ ls => ls.contains srec | _ => false)
/-- R78: before an iteration that lists a stream starts, CANCEL is sampled; a stream in DECODE that no other iteration in flight lists is
cancelled. -/
def sampleListed (s : State) (vi asid : Nat) (srec : W64) : State :=
  match readSrec s asid (genOf s asid) srec with
  | .error _ => s
  | .ok q => if q.cancel && q.state = ssDecode && !inIteration s vi srec then toCancelled s asid srec q else s
/-- The scheduler samples CANCEL for the region of a stream (R78): what it does when CANCEL is 1 and acted on, none when the
work goes on. -/
def sampleCancel (s : State) (rid : Nat) : Option State :=
  match s.region? rid with
  | none => none
  | some g => match g.origin with
    | .accept srec _ _ => match readSrec s g.asid g.gen srec with
      | .error _ => none
      | .ok r =>
        if !r.cancel then none
        else if r.state = ssQueued || r.state = ssPrefill then some (toCancelled s g.asid srec r)
        else if r.state = ssHandoff then some (cancelHandoff s srec r)
        else if r.state = ssDecode && !inIteration s g.vi srec then some (toCancelled s g.asid srec r)
        else none
    | _ => none
/-- No profile-P iteration of a region has been placed yet. -/
def noPrefillYet (s : State) (rid : Nat) : Bool :=
  !s.nodes.any fun m => m.rid == rid && m.next != 0 && m.khd.any fun k => k.prof == .p
/-- R77: the first profile-P iteration of a stream's region is placed on Dawn die X: the stream enters PREFILL with owner X. The
iteration is not placed (false) when the transition fails: on a CANCEL the stream is cancelled, and on an error completion its regions
stop (R79). -/
def enterPrefill (s : State) (n : GNode) (id : CtxId) : State × Bool :=
  match s.region? n.rid with
  | none => (s, true)
  | some g => match g.origin with
    | .accept srec _ _ =>
      if id.prof != .p || !noPrefillYet s g.rid then (s, true)
      else if recordLost s g.asid srec then (if g.stopped then (s, true) else (stopStream s srec 3, false))
      else match readSrec s g.asid g.gen srec with
        | .error _ => (s, true)
        | .ok r =>
          if r.state != ssQueued then (s, true)
          else match transit s g.asid g.gen srec r ssPrefill (s.dieAddr id.die) r.sgen true with
            | some t => (t, true)
            | none => (toCancelled s g.asid srec r, false)
    | _ => (s, true)

end Sys2Proof.Machine
end

