-- ==== Sys2Proof/Machine/Graph.lean ====
section
/-! DEFINITION. The scheduler: regions, task graphs, the dispatch of tile iterations, and requests for pre-emption (R31 to R52,
R65 to R67). -/

namespace Sys2Proof.Machine

/-! ## Instances and nodes (R32, R38, R39) -/

/-- A graph instance. -/
def State.inst? (s : State) (iid : Nat) : Option GInst := s.insts.find? (·.iid == iid)
/-- The header and the record of a kernel node; the address and status of the first structure that fails. -/
def kernelParts (s : State) (n : GNode) (r : Region) (midnight : Bool) : Except (Nat × W64) (Khd × Option Lnr) :=
  match readAs s r.asid r.gen (n.w 2) 64 (parseKhd (n.w 2)) with
  | .error st => .error (st, n.w 2)
  | .ok k =>
    let die := bitsOf (n.w 4) 0 11
    if midnight != (k.prof == .b) then .error (stMalformed, n.w 2)
    else if die != 0x7FF && (die % 8 ≤ 1) != (k.prof == .p) then .error (stMalformed, n.va)
    else if n.w 3 = 0 then .ok (k, none)
    else match readAs s r.asid r.gen (n.w 3) 128 parseLnr with
      | .error st => .error (st, n.w 3)
      | .ok l => .ok (k, some l)
/-- A node becomes ready: its words are read now, and of a kernel node its header and record too (R32); a malformed structure or
a fault stops the graph (R31). -/
def readyNode (s : State) (rid iid : Nat) (va : W64) : State :=
  match s.region? rid with
  | none => s
  | some r =>
    if r.stopped then s
    else
      let s := hubSee s rid r.asid r.gen va 64
      match readAs s r.asid r.gen va 64 parseNode with
      | .error st => failNode s rid st va
      | .ok ws =>
        let n : GNode := { nid := s.nextId, iid := iid, rid := rid, va := va, words := ws, st := .ready, readyAt := s.nextId,
                           khd := none, lnr := none, next := 0, total := 0, exited := 0, loopsDone := 0, loopCount := 0,
                           asked := none, finished := false }
        let add (s : State) (n : GNode) : State := { s with nodes := s.nodes ++ [n], nextId := s.nextId + 1 }
        if nodeKind ws = 0x10 || nodeKind ws = 0x17 then
          let s := hubSee (hubSee s rid r.asid r.gen (n.w 2) 64) rid r.asid r.gen (n.w 3) (if n.w 3 = 0 then 0 else 128)
          match kernelParts s n r (nodeKind ws == 0x17) with
          | .error e => failNode s rid e.1 e.2
          | .ok (k, l) => add s { n with khd := some k, lnr := l, total := lnrTotal l }
        else add s n
/-- DEPS of a node whose pending count is needed (R39): a pointer that breaks R30, or a fault. -/
def depsOf (s : State) (r : Region) (va : W64) : Except Nat Nat :=
  if !ptrOk 64 va then .error stMalformed
  else match hubNat s r.asid r.gen va 8 with
    | .error _ => .error stFault
    | .ok w => .ok (nbits w 8 8)
/-- Open an instance at an entry node, which must have DEPS = 0 and becomes ready at once (R39); `owner` is the structure that
names the entry. The region's own graph counts as depth 1 of the 8 (R39 does not say where the count begins: DESIGN CHOICE, log
entry 106). -/
def openInst (s : State) (rid : Nat) (opener : Option Nat) (depth : Nat) (entry owner : W64) : State :=
  match s.region? rid with
  | none => s
  | some r =>
    if 8 < depth then failNode s rid stMalformed owner
    else
      let s := hubSee s rid r.asid r.gen entry 8
      match depsOf s r entry with
      | .error st => failNode s rid st (if st = stFault then entry else owner)
      | .ok d =>
        if d != 0 then failNode s rid stMalformed entry
        else
          let i : GInst := ⟨s.nextId, rid, opener, depth, [(entry, 0)], false⟩
          readyNode { s with insts := s.insts ++ [i], nextId := s.nextId + 1 } rid i.iid entry
/-- Every node that an instance has started has completed, and no further one will start. -/
def instDone (s : State) (i : GInst) : Bool :=
  let ns := s.nodes.filter fun n => n.iid == i.iid
  let stopped := match s.region? i.rid with | some r => r.stopped | none => true
  ns.all fun n => n.st == .done || (stopped && n.st == .ready)
/-- Every instance that a node opened is done. -/
def openedDone (s : State) (nid : Nat) : Bool := (s.insts.filter fun i => i.opener == some nid).all (instDone s)
/-- The depth of a node's instance. -/
def depthOf (s : State) (n : GNode) : Nat := match s.inst? n.iid with | some i => i.depth | none => 0
/-- A node that could not start is done, and its region's graph stops (R31). -/
def failStart (s : State) (n : GNode) (status : Nat) (at' : W64) : State :=
  failNode (s.updNode n.nid fun n => { n with st := .done }) n.rid status at'
/-- A running node whose work is done. -/
def finishNode (s : State) (nid : Nat) : State := s.updNode nid fun n => { n with finished := true }
/-- A node starts. -/
def runNode (s : State) (nid : Nat) : State := s.updNode nid fun n => { n with st := .running }

/-- Start node `a` of the subject, when it is the first ready node of its region's graph and of the kind: first the generation of its
region and CANCEL are looked at (R37, R39, R78). -/
def startNode (s : State) (kind : Nat) (k : State → GNode → Region → State) : Out :=
  match s.node? s.sub.a with
  | none => .refused (.noSubject "no such node")
  | some n => match s.region? n.rid with
    | none => .refused (.noSubject "no such region")
    | some r =>
      let first := s.nodes.find? fun m => m.rid == n.rid && m.st == .ready
      if nodeKind n.words != kind || n.st != .ready || !r.live || r.stopped || !viOn s r.vi || (first.any fun m => m.nid != n.nid) then
        .refused (.noSubject "the node cannot start")
      else if r.gen != genOf s r.asid then .next (stopGraph s r.rid 4 0)
      else match sampleCancel s r.rid with
        | some t => .next t
        | none => .next (k s n r)

/-! ## Kernels (R41, R46 to R48, R368) -/

/-- A kernel node starts: its iterations become eligible for placement. -/
def startKernel (s : State) (n : GNode) (_r : Region) : State := runNode s n.nid
/-- R41. -/
def execKernelNodeStart (s : State) : Out := startNode s 0x10 startKernel
/-- R368. -/
def execMidnightNode (s : State) : Out := startNode s 0x17 startKernel

/-- A free vector of the state, of free values k to k + 15. -/
def freeVec (s : State) (k : Nat) : VData :=
  (List.range 16).foldl (fun d i => d ||| ((Config.freeBits s.fresh (k + i)).setWidth 1024 <<< (64 * i))) 0
/-- Vector register n of an iteration at dispatch: a rotating one holds zero (R137); of any other the spec states no contents (R49): a free
value (DESIGN CHOICE, log entry 3). -/
def startV (s : State) (k : Khd) (n : Nat) : VReg :=
  if k.rot && 16 ≤ n then VReg.zero
  else ⟨if k.prof = .b then freeVec s (32 * n) &&& ((1#1024 <<< 512) - 1) else freeVec s (32 * n), (Config.freeBits s.fresh (32 * n + 16)).setWidth 32⟩
/-- Predicate n of an iteration at dispatch: the same. -/
def startP (s : State) (k : Khd) (n : Nat) : PData :=
  if n = 0 || (k.rot && 8 ≤ n) then 0
  else ((Config.freeBits s.fresh (2000 + 2 * n)).setWidth 128 <<< 64) ||| (Config.freeBits s.fresh (2001 + 2 * n)).setWidth 128
/-- The context of an iteration at dispatch (R47, R48, R120). -/
def dispatched (s : State) (n : GNode) (k : Khd) (r : Region) (id : CtxId) : Ctx :=
  let xs := (0 : W64) :: (lnrScalars n.lnr n.next ++ [n.w 5, n.w 6, n.w 7])
  { Ctx.idle id with
    has := true, khd := k, pc := k.entry, s := Vector.ofFn fun j : Fin 64 => xs.getD j.val 0
    v := Vector.ofFn fun j : Fin 48 => startV s k j.val
    p := Vector.ofFn fun j : Fin 16 => startP s k j.val
    it := ⟨n.nid, n.va, n.rid, n.next, r.vi, r.asid, r.gen, r.prio, false, s.nextId⟩ }
/-- R65, R66: the context named takes the next tile iteration of the first node for it, and has the lowest key that the node can
have. CANCEL is sampled first (R78), and the first profile-P iteration of an admitted region takes its stream into PREFILL (R77). -/
def execTileDispatch (s : State) : Out :=
  let id : CtxId := s.sub.ctx
  match firstNode s id with
  | none => .refused (.noSubject "no iteration for this context")
  | some n => match n.khd, s.region? n.rid with
    | some k, some r =>
      if !lowestCtx s n id then .refused (.noSubject "a context of lower key is free")
      else match if k.prof = .b then none else sampleCancel s n.rid with
        | some t => .next t
        | none =>
          let p := enterPrefill s n id
          if !p.2 then .next p.1
          else
            let t := p.1.updNode n.nid fun n => { n with next := n.next + 1 }
            .next (enter { t with nextId := t.nextId + 1, fresh := t.fresh + 1 } (dispatched t n k r id))
    | _, _ => .refused (.noSubject "no iteration for this context")

/-! ## Control nodes (R42 to R45) -/

/-- The 64-bit word that a node tests. -/
def testWord (s : State) (n : GNode) (r : Region) : Except Nat W64 :=
  match hubNat s r.asid r.gen (n.w 2) 8 with
  | .ok v => .ok (natW v &&& n.w 3)
  | .error _ => .error stFault
/-- A node opens the instance at an entry; an entry of 0 opens nothing. -/
def openOrFinish (s : State) (n : GNode) (entry : W64) : State :=
  if entry = 0 then finishNode s n.nid else openInst s n.rid (some n.nid) (depthOf s n + 1) entry n.va
/-- What the read of the word that a node tests meets. -/
def seeTest (s : State) (n : GNode) (r : Region) : State := hubSee s r.rid r.asid r.gen (n.w 2) 8
/-- R43. -/
def execCondNode (s : State) : Out :=
  startNode s 0x11 fun s0 n r =>
    let s := seeTest s0 n r
    match testWord s n r with
    | .error st => failStart s n st n.va
    | .ok x => openOrFinish (runNode s n.nid) n (if cmpHolds64 (bitsOf (n.w 5) 0 4) x (n.w 4) then n.w 6 else n.w 7)
/-- The case that a SWITCH takes: the place of its entry, none for DEFAULT. -/
def switchCase (n : GNode) (x : W64) : Option W64 :=
  let k := x.toNat / 2 ^ bitsOf (n.w 4) 0 6
  if bitsOf (n.w 4) 32 16 ≤ k then none else some (n.w 5 + natW (8 * k))
/-- R43. -/
def execSwitchNode (s : State) : Out :=
  startNode s 0x13 fun s0 n r =>
    let s := seeTest s0 n r
    match testWord s n r with
    | .error st => failStart s n st n.va
    | .ok x => match switchCase n x with
      | none => openOrFinish (runNode s n.nid) n (n.w 6)
      | some a =>
        let s := hubSee s r.rid r.asid r.gen a 8
        match hubNat s r.asid r.gen a 8 with
        | .error _ => failStart s n stFault n.va
        | .ok e => openOrFinish (runNode s n.nid) n (if e = 0 then n.w 6 else natW e)
/-- Whether a LOOP opens another body instance: a count not reached, or a condition that holds (R44). -/
def loopGoes (s : State) (n : GNode) (r : Region) : Except Nat Bool :=
  if bitAt (n.w 5) 4 then
    match testWord s n r with
    | .error st => .error st
    | .ok x => .ok (cmpHolds64 (bitsOf (n.w 5) 0 4) x (n.w 4))
  else .ok (n.loopsDone < n.loopCount)
/-- The next body instance of a LOOP, or its end; at MAXIT the region takes LOOPCAP unless a lower code is set. -/
def loopNext (s0 : State) (n : GNode) (r : Region) : State :=
  let s := if bitAt (n.w 5) 4 then seeTest s0 n r else s0
  let cap := bitsOf (n.w 7) 0 32
  if r.stopped then finishNode s n.nid
  else if cap != 0 && cap ≤ n.loopsDone then
    finishNode (s.updRegion r.rid fun r => if r.status = 0 || 5 < r.status then { r with status := 5 } else r) n.nid
  else match loopGoes s n r with
    | .error st => finishNode (failNode s n.rid st n.va) n.nid
    | .ok false => finishNode s n.nid
    | .ok true =>
      openInst (s.updNode n.nid fun n => { n with loopsDone := n.loopsDone + 1 }) n.rid (some n.nid) (depthOf s n + 1) (n.w 6) n.va
/-- R44. -/
def execLoopNode (s : State) : Out :=
  startNode s 0x12 fun s n r =>
    let c := bitsOf (n.w 5) 32 32
    loopNext (s.updNode n.nid fun n => { n with st := .running, loopCount := c }) { n with loopCount := c } r
/-- The write of a SIGNAL (R45 step 1); none when it faults. -/
def signalWrite (s : State) (n : GNode) (r : Region) : Option State :=
  if n.w 2 = 0 then some s
  else
    let op := bitsOf (n.w 4) 0 2
    match agentKeys s hubDie r.asid r.gen (if op = 0 then .wr else .rw) (n.w 2) 8 with
    | .error _ => none
    | .ok ks =>
      let old := natW (homeNat s ks)
      let new := match op with
        | 0 => n.w 3
        | 1 => old + n.w 3
        | _ => old ||| n.w 3
      let s1 := if op = 0 then touchBanks s ks else noteBad (touchBanks s ks) r.rid ks
      some (storeBytes (noteSealed s1 r.rid ks) ks (leBytes 8 new.toNat))
/-- R45. -/
def execSignalNode (s : State) : Out :=
  startNode s 0x14 fun s n r =>
    match signalWrite s n r with
    | none => failStart s n stFault n.va
    | some s1 =>
      let evt := bitsOf (n.w 4) 8 2
      let vec := bitsOf (n.w 4) 16 8
      let s2 := if evt % 2 = 1 then s1.post true r.vi vec else s1
      finishNode (runNode (if 2 ≤ evt then s2.post false r.vi vec else s2) n.nid) n.nid

/-! ## Completion of nodes (R39, R41, R43, R44) -/

/-- The successors of a node. -/
def successors (s : State) (n : GNode) (r : Region) : Except Nat (List W64) :=
  match nodeSuccN n.words with
  | 0 => .ok []
  | 1 => .ok [n.w 1]
  | k => match hubNat s r.asid r.gen (n.w 1) (8 * k) with
    | .error _ => .error stFault
    | .ok v => .ok ((List.range k).map fun j => natW (nword v j))
/-- Decrement the pending count of one successor: at zero it becomes ready; below zero the completing node is malformed. A pointer of 0
in a SUCC array names no node (R30): the model skips it (DESIGN CHOICE, log entry 107). -/
def decrement (s : State) (n : GNode) (p : W64) : State :=
  match s.region? n.rid, s.inst? n.iid with
  | some r, some i =>
    if r.stopped || p = 0 then s
    else
      let s := if i.pending.any (·.1 == p) then s else hubSee s n.rid r.asid r.gen p 8
      let known : Except Nat Int := match i.pending.find? (·.1 == p) with
        | some x => .ok x.2
        | none => match depsOf s r p with
          | .ok d => .ok (d : Int)
          | .error e => .error e
      match known with
      | .error st => failNode s n.rid st (if st = stFault then p else n.va)
      | .ok d =>
        let s1 := { s with insts := s.insts.map fun j =>
          if j.iid = i.iid then { j with pending := (p, d - 1) :: j.pending.filter (·.1 != p) } else j }
        if d - 1 < 0 then failNode s1 n.rid stMalformed n.va
        else if d - 1 = 0 then readyNode s1 n.rid n.iid p
        else s1
  | _, _ => s
/-- A node completes (R39). -/
def completeNode (s : State) (n : GNode) : State :=
  let s1 := s.updNode n.nid fun n => { n with st := .done }
  match s1.region? n.rid with
  | none => s1
  | some r =>
    if r.stopped then s1
    else
      let s1 := if nodeSuccN n.words ≤ 1 then s1 else hubSee s1 n.rid r.asid r.gen (n.w 1) (8 * nodeSuccN n.words)
      match successors s1 n r with
      | .error st => failNode s1 n.rid st n.va
      | .ok ps => ps.foldl (fun s p => decrement s n p) s1
/-- The scheduler finds a region's generation old (R37). -/
def staleRegion (s : State) (r : Region) : Bool := r.gen != genOf s r.asid
/-- The graph of a region whose generation is old stops, and the region is to complete STALE. -/
def stopStale (s : State) (rid : Nat) : State :=
  match s.region? rid with
  | some r => if r.live && staleRegion s r then stopGraph s rid 4 0 else s
  | none => s
/-- R39: the node completes when its work is done; a LOOP whose body instance is done goes on. -/
def execNodeCompletion (s0 : State) : Out :=
  match s0.node? s0.sub.a with
  | none => .refused (.noSubject "no such node")
  | some n =>
    let s := stopStale s0 n.rid
    let kind := nodeKind n.words
    let no : Out := .refused (.noSubject "the node is not complete")
    if n.st != .running then no
    else if kind = 0x10 || kind = 0x17 then (if n.next = n.total && n.exited = n.total then .next (completeNode s n) else no)
    else if n.finished then .next (completeNode s n)
    else if kind = 0x11 || kind = 0x13 then (if openedDone s n.nid then .next (completeNode s n) else no)
    else if kind = 0x12 && openedDone s n.nid then
      match s.region? n.rid with
      | none => no
      | some r =>
        let s1 := loopNext s n r
        .next (if (s1.node? n.nid).any (·.finished) then completeNode s1 n else s1)
    else no

/-! ## Regions (R33 to R37, R71) -/

/-- A region that an entry or a parent is to start. -/
def newRegion (rid : Nat) (va : W64) (parent : Option Nat) (depth vi : Nat) (origin : Origin) (asid : Nat) (gen : BitVec 16)
    (tree place : Nat) : Region :=
  { rid := rid, va := va, parent := parent, depth := depth, vi := vi, origin := origin, prio := 0, asid := asid, gen := gen,
    fdom := 0, fpol := 0, cores := 0, bvc := 0, lease := 0, bw := 0, scratch := 0, part := false, owns := false, cset := none, compl := 0,
    status := 0, failAt := 0, stopped := false, degraded := false, started := false, completed := false, children := []
    tree := tree, place := place, halted := [] }
/-- Add a region under a parent. -/
def addRegion (s : State) (r : Region) : State :=
  let s1 := { s with regions := s.regions ++ [r], nextId := s.nextId + 1 }
  match r.parent with
  | none => s1
  | some p => s1.updRegion p fun q => { q with children := q.children ++ [r.rid] }
/-- The address space and generation under which a region's own control block is read: its parent's (R30), or for a root
the VI's first address space (log entry 40). -/
def rcbSpace (s : State) (r : Region) : Nat × BitVec 16 :=
  match r.parent.bind s.region? with
  | some p => (p.asid, p.gen)
  | none => ((s.vi r.vi).asidbase, genOf s (s.vi r.vi).asidbase)
/-- An ASID lies in the range of a VI (R34, R53). -/
def ownsAsid (v : Vi) (asid : Nat) : Bool := v.asidbase ≤ asid && asid < v.asidbase + v.asidn
/-- The effective fields of a region, without its core set (R34, R55); none when its ASID is not the VI's. -/
def effective (s : State) (r : Region) (b : Rcb) : Option Region :=
  let v := s.vi r.vi
  match r.parent.bind s.region? with
  | none =>
    if !ownsAsid v b.asid then none
    else some { r with prio := min b.prio v.priomax, asid := b.asid, gen := b.gen, fdom := b.fdom, fpol := b.fpol,
                       cores := min b.cores v.cores, bvc := min b.bvc v.bvc, lease := min b.lease v.lease,
                       bw := min b.bw v.bw, scratch := min b.scratch v.scratch, part := b.part, owns := b.part, compl := b.compl }
  | some p =>
    let o (k : Nat) : Bool := b.ovr.testBit k
    let cap (k c q : Nat) : Nat := if o k then min c q else q
    if o 1 && !ownsAsid v b.asid then none
    else some { r with prio := cap 0 b.prio p.prio, asid := if o 1 then b.asid else p.asid, gen := if o 1 then b.gen else p.gen,
                       fdom := if o 2 then b.fdom else p.fdom, fpol := if o 2 then b.fpol else p.fpol,
                       cores := cap 3 b.cores p.cores, bvc := cap 4 b.bvc p.bvc, lease := cap 5 b.lease p.lease,
                       bw := cap 6 b.bw p.bw, scratch := cap 7 b.scratch p.scratch,
                       part := if o 8 then b.part else p.part, owns := o 8 && b.part,
                       cset := p.cset, compl := b.compl }
/-- A core-set record (R64). -/
def readSet (s : State) (asid : Nat) (gen : BitVec 16) (p : W64) : Except Nat CoreSet :=
  match hubNat s asid gen p 64 with
  | .error _ => .error stFault
  | .ok h => readAs s asid gen p (64 + 448 * nbits h 0 8) parseSet
/-- The region with its effective core set: C's own set intersected with P's. -/
def withSet (s : State) (r : Region) (b : Rcb) : Except (Nat × W64) Region :=
  let own := r.parent.isNone || b.ovr.testBit 8
  if !own || b.cset = 0 then .ok r
  else match readSet s r.asid r.gen b.cset with
    | .error st => .error (st, b.cset)
    | .ok c => .ok { r with cset := meetSets (some c) r.cset }
/-- What the read of a control block's core set meets (R308). -/
def seeSet (s : State) (r : Region) (b : Rcb) : State :=
  if (r.parent.isSome && !b.ovr.testBit 8) || b.cset = 0 then s
  else match hubNat s r.asid r.gen b.cset 64 with
    | .error _ => hubSee s r.rid r.asid r.gen b.cset 64
    | .ok h => hubSee s r.rid r.asid r.gen b.cset (64 + 448 * nbits h 0 8)
/-- The control block reaches too far: a ninth level, a 257th sibling, or a block that the tree which one entry starts has reached
(R35). -/
def reachesTooFar (s : State) (r : Region) (b : Rcb) : Bool :=
  let above := (lineage s r.rid).filterMap s.region?
  let seen (a : W64) : Bool := (above ++ s.regions.filter fun q => q.tree == r.tree).any fun q => q.va == a
  (b.child != 0 && (7 ≤ r.depth || seen b.child))
    || (r.origin == .child && b.next != 0 && (256 ≤ r.place || seen b.next || b.next == b.child))
/-- A region with a PART of its own may start: its core set meets that of no other active partition (R71). One that inherits PART belongs
to its parent's partition (log entry 108). -/
def partitionOk (s : State) (r : Region) : Bool :=
  !r.owns || (match r.cset with
    | none => true
    | some c => s.regions.all fun q =>
        !(q.live && q.owns && q.rid != r.rid) || (match q.cset with | some d => !setsMeet c d | none => true))
/-- The region does not start: its completion record receives the status when its pointer is well formed, under the address
space in which the block was read (R31, R58). -/
def failRegion (s : State) (r : Region) (compl : W64) (status : Nat) (at' : W64) : State :=
  let sp := rcbSpace s r
  let fdom := match r.parent.bind s.region? with | some p => p.fdom | none => 0
  stopDomain (s.updRegion r.rid fun r =>
    { r with asid := sp.1, gen := sp.2, fdom := fdom, compl := compl, status := status, failAt := at', stopped := true }) r.rid
/-- A region starts with its effective fields: its graph instance opens at GRAPH and its first child follows (R35, R39). One whose fault
domain has stopped while it waited starts no node (R37). -/
def openRegion (s : State) (r : Region) (b : Rcb) : State :=
  let s0 := s.updRegion r.rid fun q => { r with started := true, degraded := q.degraded }
  let s1 := if r.halted.contains r.fdom then stopGraph s0 r.rid 6 0 else s0
  if r.gen != genOf s r.asid then stopGraph s1 r.rid 4 0
  else
    let s2 := if b.graph = 0 then s1 else openInst s1 r.rid none 1 b.graph r.va
    if b.child = 0 then s2
    else addRegion s2 (newRegion s2.nextId b.child (some r.rid) (r.depth + 1) r.vi .child r.asid r.gen r.tree 1)
/-- The next sibling of a child region is to start as well. That NEXT of a block which a START entry has started is followed too, as a
list of siblings under the same root, is the model's choice: R33 and R58 do not say it (DESIGN CHOICE, log entry 109). -/
def addSibling (s : State) (r : Region) (b : Rcb) : State :=
  if r.origin = .child && b.next != 0 then
    addRegion s (newRegion s.nextId b.next r.parent r.depth r.vi .child r.asid r.gen r.tree (r.place + 1))
  else s
/-- R35, R31, R71. -/
def execRegionStart (s0 : State) : Out :=
  match s0.region? s0.sub.a with
  | none => .refused (.noSubject "no such region")
  | some r =>
    if r.started || r.status != 0 || r.completed || !viOn s0 r.vi then .refused (.noSubject "the region does not start now")
    else
      let sp := rcbSpace s0 r
      let s := hubSee s0 r.rid sp.1 sp.2 r.va 128
      match hubNat s sp.1 sp.2 r.va 128 with
      | .error _ => .next (failRegion s r 0 stFault r.va)
      | .ok v =>
        let c := natW (nword v 8)
        let compl := if ptrOk 16 c then c else 0
        match if ptrOk 128 r.va then parseRcb v else none with
        | none => .next (failRegion s r compl stMalformed r.va)
        | some b =>
          if reachesTooFar s r b then .next (failRegion s r compl stMalformed r.va)
          else match effective s r b with
            | none => .next (failRegion s r compl stMalformed r.va)
            | some r1 =>
              let s := seeSet s r1 b
              match withSet s r1 b with
              | .error e => .next (failRegion (addSibling s r b) r compl e.1 e.2)
              | .ok r2 =>
                if r2.owns && r2.cset.isNone then .next (failRegion s r compl stMalformed r.va)
                else if !partitionOk s r2 then .next (failRegion (addSibling s r b) r compl stMalformed r.va)
                else .next (addSibling (openRegion s r2 b) r2 b)

/-! ## Completion of regions (R36, R37, R63, R347, R399) -/

/-- The status that a region's completion record receives. -/
def finalStatus (r : Region) : Nat := if r.degraded && (r.status = 0 || r.status = 5) then 1 else r.status
/-- No iteration of the region runs. -/
def noneRunning (s : State) (rid : Nat) : Bool := !s.running.any fun c => c.it.rid == rid
/-- The region's graph has completed; that of a stale region when none of its iterations runs. -/
def graphDone (s : State) (r : Region) : Bool :=
  !r.started || ((s.insts.filter fun i => i.rid == r.rid && i.opener.isNone).all (instDone s)) || (staleRegion s r && noneRunning s r.rid)
/-- Every reduction line that the region holds open is closed (R347). -/
def closeRegionLines (s : State) (rid : Nat) : State :=
  closeWords s ((s.red.filter fun l => l.rid == rid).flatMap fun l => l.regs.map (·.word))
/-- The stream records that ADMIT entries of the VI have named and whose REGION names the region or one of its ancestors (R399). -/
def recordsAbove (s : State) (r : Region) : List W64 :=
  let vas := ((lineage s r.rid).filterMap s.region?).map (·.va)
  ((s.regions.filter fun q => q.vi == r.vi).filterMap fun q => match q.origin with
    | .accept a _ _ => match readSrec s r.asid (genOf s r.asid) a with
      | .ok x => if vas.contains x.region then some a else none
      | .error _ => none
    | _ => none).dedup
/-- A degraded completion marks a stream record (R399), keeping STATE, OWNER and SGEN. -/
def markRecord (s : State) (r : Region) (a : W64) : State :=
  match agentKeys s hubDie r.asid (genOf s r.asid) .rw (a + 2) 1 with
  | .error _ => s
  | .ok ks => if fencedKeys s hubDie ks then s else storeBytes s ks [BitVec.ofNat 8 (homeNat s ks) ||| 0x10]
/-- The effects of a degraded completion: the count, the marks, and FPOL (R37, R399). -/
def degrade (s : State) (r : Region) : State :=
  if !r.degraded then s
  else
    let v := s.vi r.vi
    let s1 := s.setVi r.vi { v with degcnt := v.degcnt + 1 }
    let s2 := (recordsAbove s r).foldl (fun s a => markRecord s r a) s1
    if r.fpol = 2 then stopDomain s2 r.rid
    else if r.fpol = 1 then
      (recordsAbove s r).foldl (fun s a => match readSrec s r.asid (genOf s r.asid) a with
        | .ok q => if q.state = ssDecode then toFaulted s r.asid a q else s
        | .error _ => s) s2
    else s2
/-- The completion record (R36), which the hub writes under the current generation of the region's address space: R36 names none, and
under its own a STALE region's record would be rejected (DESIGN CHOICE, log entry 110). -/
def writeCompletion (s : State) (r : Region) : State :=
  if r.compl = 0 then s else hubPut s r.asid (genOf s r.asid) r.compl 16 (finalStatus r + 2 ^ 64 * r.failAt.toNat)
/-- Saved iterations of a region that completes will not run again; their slots are free. -/
def dropSavedOf (s : State) (rid : Nat) : State :=
  (s.saved.filter fun v => v.ctx.it.rid == rid).foldl dropSaved s
/-- What follows the completion record by the way the region was started (R58, R63). -/
def afterCompletion (s : State) (r : Region) : State :=
  let v := s.vi r.vi
  match r.origin with
  | .child => s
  | .root => s.setVi r.vi { v with rootact := false, root := none }
  | .accept a irq vec =>
    let s1 := match readSrec s r.asid (genOf s r.asid) a with
      | .ok q => if q.state = ssPrefill && 1 < finalStatus r then toQueued s r.asid a q else s
      | .error _ => s
    if irq then s1.post false r.vi vec else s1
  | .iterate irq vec _ =>
    let s1 := s.setVi r.vi { v with iter := v.iter + 1 }
    if irq then s1.post false r.vi vec else s1
/-- A stream's region that would complete OK while the hand-off of its stream is not committed completes with FAULT and the record's
address: it completes OK only after the commit (R87, which names no other status: DESIGN CHOICE, log entry 111). -/
def uncommitted (s : State) (r : Region) : State :=
  match r.origin with
  | .accept a _ _ =>
    if finalStatus r = 0 && (s.tw.any fun j => j.srec == a && !j.committed) then
      s.updRegion r.rid fun q => { q with status := 3, failAt := a }
    else s
  | _ => s
/-- A region completes. -/
def completeRegion (s0 : State) (r0 : Region) : State :=
  let s := uncommitted s0 r0
  let r := (s.region? r0.rid).getD r0
  let s1 := dropSavedOf (closeRegionLines (degrade s r) r.rid) r.rid
  let r1 := (s1.region? r.rid).getD r
  let s2 := (writeCompletion s1 r1).updRegion r.rid fun q => { q with completed := true }
  afterCompletion s2 r1
/-- R36. -/
def execRegionCompletion (s : State) : Out :=
  match s.region? s.sub.a with
  | none => .refused (.noSubject "no such region")
  | some r0 =>
    let s1 := stopStale s r0.rid
    match s1.region? r0.rid with
    | none => .refused (.noSubject "no such region")
    | some r =>
      let kids := r.children.all fun c => (s1.region? c).any (·.completed)
      if r.completed || !(r.started || r.status != 0) || !kids || !graphDone s1 r then .refused (.noSubject "the region is not complete")
      else .next (completeRegion s1 r)

/-! ## Cancellation and pre-emption (R52, R67, R372) -/

/-- R52: software stores 1 to word 1 of a stream record. -/
def execCancelRequest (s : State) : Out :=
  match agentKeys s hubDie s.sub.a (genOf s s.sub.a) .wr (s.sub.x + 8) 8 with
  | .error _ => .refused (.noSubject "the record cannot be written")
  | .ok ks => .next (storeBytes s ks (leBytes 8 1))
/-- An iteration can be asked to yield (R400). -/
def canYield (s : State) (c : Ctx) : Bool := !c.yieldReq && c.due.isNone && saveFits s c
/-- Ask an iteration to yield. -/
def askYield (s : State) (id : CtxId) : State := s.updCtxs (fun c => c.id == id) fun c => { c with yieldReq := true }
/-- The node's request to yield is outstanding. -/
def askOut (s : State) (n : GNode) : Bool :=
  match n.asked with
  | none => false
  | some id => s.running.any fun c => c.id == id && c.yieldReq
/-- The lowest-priority iteration, the most recently dispatched one on a tie. -/
def lowestPrio (cs : List Ctx) : Option Ctx :=
  match cs with
  | [] => none
  | c :: r => some (r.foldl (fun (b c : Ctx) =>
      if c.it.prio < b.it.prio || (c.it.prio == b.it.prio && b.it.dispatched < c.it.dispatched) then c else b) c)
/-- FGD has exceeded the threshold of a Midnight iteration in the last two windows of a vault of its quad (R371, R372). -/
def demandHigh (s : State) (c : Ctx) : Bool :=
  c.id.bvc && (match s.region? c.it.rid with
    | some r => (vaultsOf c.id).any fun w => 1024 - r.bw < (s.vault w).fgd && 1024 - r.bw < (s.vault w).fgdPrev
    | none => false)
/-- Every Midnight iteration of a vault's quad that foreground demand is to pre-empt is asked to yield (R372). -/
def askMidnight (s : State) (w : Nat) : State :=
  ((s.running.filter fun c => c.id.bvc && (vaultsOf c.id).contains w && demandHigh s c && canYield s c).map (·.id)).foldl askYield s
/-- R67: a node with no eligible free context asks an iteration of lower priority in its placement set to yield. R372: foreground
demand asks a Midnight iteration, named by the subject's context. -/
def execPreemptionRequest (s : State) : Out :=
  match s.running.find? fun c => c.id == s.sub.ctx && demandHigh s c && canYield s c with
  | some c => .next (askYield s c.id)
  | none => match s.node? s.sub.a with
    | none => .refused (.noSubject "no such node")
    | some n => match s.region? n.rid with
      | none => .refused (.noSubject "no such region")
      | some r =>
        let waits := n.st == .running && n.next < n.total && regionPlaceable s n.rid && !askOut s n && !allCtxs.any (eligible s n)
        let cs := s.running.filter fun c => inPlacement s n c.id && c.it.prio < r.prio && canYield s c
        match if waits then lowestPrio cs else none with
        | none => .refused (.noSubject "no iteration is asked to yield")
        | some c => .next (askYield (s.updNode n.nid fun n => { n with asked := some c.id }) c.id)
/-- The compute cores in use by a VI. -/
def viCores (s : State) (vi : Nat) : Nat := (coresUsed s false fun c => c.it.vi == vi).length
/-- R67: a VI below MINCORES with ready work for 65,536 cycles has an iteration of a VI above its guarantee asked to yield. -/
def execMincoresStarvation (s : State) : Out :=
  let v := s.vi s.sub.a
  if v.starved < 65536 || v.mincores ≤ viCores s s.sub.a then .refused (.noSubject "the interface is not starved")
  else match s.running.find? fun c => c.id == s.sub.ctx && !c.id.bvc && c.it.vi != s.sub.a
      && (s.vi c.it.vi).mincores < viCores s c.it.vi && canYield s c with
    | none => .refused (.noSubject "no iteration can be asked to yield")
    | some c => .next (askYield (s.setVi s.sub.a { v with starved := 0 }) c.id)

end Sys2Proof.Machine
end

