-- ==== Sys2Proof/Machine/Twilight.lean ====
section
/-! DEFINITION. The migration of a stream: sealing, reservation, pulling and converting, the seal check, the commit, cancellation
and the loss of a die (R80 to R90); block pools, wipes and sliding windows (R81, R358, R361). -/

namespace Sys2Proof.Machine

/-! ## Sealing (R82, R83) -/

/-- The blocks of K or V that a prompt needs in a layer, for a KV head. -/
def promptBlocks (q : Srec) : Nat := (q.prompt + 15) / 16
/-- The address of a layer's seal record. -/
def sealAt (q : Srec) (layer : Nat) : W64 := q.seals + natW (32 * layer)
/-- A source block that may be sealed: its address and its header (R82 step 2, R355, R360). -/
def sealable (s : State) (die asid : Nat) (q : Srec) (t : KvTab) (x : Nat × Nat × Nat × Nat) : Option (W64 × KvHdr) :=
  match halfOf s die asid q.btab t 0 x with
  | none => none
  | some a => match kvHdr (engReader s die asid (genOf s asid)) a.toNat with
    | .error _ => none
    | .ok h =>
      if (h.state == bsFilling || h.state == bsSealed) && h.gen == q.sgen && h.bitmap + 1 == 2 ^ Nat.log2 (h.bitmap + 1) then some (a, h)
      else none
/-- BCRC of a block: the logical block number, then the payload (R82 step 3). -/
def blockCrc (lb : Nat) (payload : List Byte) : W32 := crc32c 0 (leBytes 4 lb ++ payload)
/-- The n bytes at an address for an engine; bytes that cannot be read are zero (R84). -/
def engBytes (s : State) (die asid : Nat) (a : W64) (n : Nat) : List Byte :=
  match engKeys s die asid (genOf s asid) .rd a.toNat n with
  | .ok ks => homeBytes s ks
  | .error _ => List.replicate n 0
/-- What a pull of n bytes meets: errors are counted where they arise and mark nothing (R399). -/
def pullSee (s : State) (die asid : Nat) (a : W64) (n : Nat) : State :=
  match engKeys s die asid (genOf s asid) .rd a.toNat n with
  | .ok ks =>
    let s1 := fixSoft (touchBanks s ks) ks
    (linesOf (ks.filter (badByte s1))).foldl (countLine false) s1
  | .error _ => s
/-- Seal one block: its CRC and its state are written, and no further write lands on it. -/
def sealBlock (s : State) (die asid hdim : Nat) (a : W64) (lb : Nat) : State × W32 :=
  let n := kvSize false hdim
  let c := blockCrc lb ((engBytes s die asid a n).drop 64)
  let ls := engLines s die asid a n
  let s1 := engPut (engPut (unsealLines s ls) die asid (a + 12) 4 c.toNat) die asid (a + 2) 1 bsSealed
  ({ s1 with sealed := s1.sealed ++ ls }, c)
/-- Seal a layer; a layer that is sealed is not sealed again. Answered are the source copies of its blocks, or the status and structure of
a failure. -/
def sealLayer (s : State) (die asid : Nat) (q : Srec) (layer : Nat) : Except (Nat × W64) (State × List W64) :=
  let rd := engReader s die asid (genOf s asid)
  match rd (sealAt q layer) 32, kvTab rd q.btab q.layers with
  | .error _, _ => .error (stFault, sealAt q layer)
  | _, .error e => .error (if e = tcOperand then stMalformed else stFault, q.btab)
  | .ok v, .ok t =>
    let xs := blockIndexes [layer] t.nkv (promptBlocks q)
    if nbits v 63 1 = 1 then .ok (s, xs.map fun x => (halfOf s die asid q.btab t 0 x).getD 0)
    else
      let bs := xs.map fun x => (x, sealable s die asid q t x)
      if bs.any fun b => b.2.isNone then .error (stMalformed, q.btab)
      else
        let r := bs.foldl (fun (acc : State × W32) b => match b.2 with
          | some (a, _) =>
            let z := sealBlock acc.1 die asid t.hdim a b.1.2.2.2
            (z.1, acc.2 ^^^ z.2)
          | none => acc) (s, 0)
        .ok (engPut r.1 die asid (sealAt q layer) 16 (xs.length + 2 ^ 32 * t.hdim + 2 ^ 63 + 2 ^ 64 * r.2.toNat),
          bs.map fun b => match b.2 with | some x => x.1 | none => 0)
/-- The sealed notice of a layer goes to the engine that serves it, with the source copies of its blocks (R82 step 6). -/
def sendNotice (s : State) (srec : W64) (layer : Nat) (as' : List W64) : State :=
  updJob s srec fun j => if j.notes.any fun x => x.1 == layer then j else { j with notes := j.notes ++ [(layer, as')] }
/-- What the seal unit reads of the record and of the table for a layer. -/
def seeSeal (s : State) (die : Nat) (r : Region) (q : Srec) (layer : Nat) : State :=
  let g := genOf s r.asid
  engSee (engSee s die r.rid r.asid g (sealAt q layer) 32) die r.rid r.asid g q.btab 64
/-- Seal the layers of a HANDOFF node in ascending order; a failure ends the node and stops its graph. -/
def sealNode (s : State) (n : GNode) (r : Region) (q : Srec) : State :=
  (handoffLayers n).foldl (fun (acc : State × Bool) l =>
    if acc.2 then acc
    else
      let s0 := seeSeal acc.1 (q.owner % 8) r q l
      match sealLayer s0 (q.owner % 8) r.asid q l with
      | .ok t => (sendNotice t.1 (n.w 2) l t.2, false)
      | .error e => (finishNode (failNode s0 n.rid e.1 e.2) n.nid, true)) (s, false) |>.1
/-- The destination that a HANDOFF node names is a Dusk die of the fabric group, or the scheduler's choice (R40). -/
def destOk (s : State) (d : Nat) : Bool :=
  d == 0x7FF || (2 ≤ d % 8 && d % 8 ≤ 5 && (d / 8 == s.pkg.pkgnum.toNat || Config.peerPresent (d / 8)))
/-- R82: what a HANDOFF node does by the state of its stream. In PREFILL it waits for a reservation. -/
def execHandoffNode (s : State) : Out :=
  startNode s 0x16 fun s n r =>
    match readSrec s r.asid r.gen (n.w 2) with
    | .error _ => failStart s n stFault (n.w 2)
    | .ok q =>
      let bad := q.kind != 0x30 || !q.clean || bitsOf (n.w 4) 16 16 == 0 || q.layers < bitsOf (n.w 4) 0 16 + bitsOf (n.w 4) 16 16
        || !destOk s (bitsOf (n.w 3) 0 11)
      let s1 := runNode s n.nid
      if bad then failStart s n stMalformed n.va
      else if q.state = ssPrefill then s1
      else if q.state = ssHandoff then sealNode s1 n r q
      else if q.state = ssDone || q.state = ssCancelled || q.state = ssFaulted then finishNode s1 n.nid
      else failStart s n stMalformed n.va

/-! ## Reservation (R83, R90) -/

/-- The pool of a VI on a die. -/
def poolOf (s : State) (vi die : Nat) : Pool := Tab.get Pool.zero (s.vi vi).pools die
def setPool (s : State) (vi die : Nat) (p : Pool) : State :=
  let v := s.vi vi
  s.setVi vi { v with pools := Tab.put Pool.zero v.pools die p }
/-- The EMPTY slots of a pool. -/
def poolFree (p : Pool) : Nat := if p.wiping then 0 else p.n - p.busy.length
/-- A die as a hand-off names it: a die of this package by its number, one of another by 2,048 + its global address. -/
def dieRef (s : State) (g : Nat) : Nat := if g / 8 = s.pkg.pkgnum.toNat then g % 8 else 2048 + g
/-- The global address of a die that a hand-off names (R10). -/
def dieGlob (s : State) (d : Nat) : Nat := if d < 2048 then s.dieAddr d else d - 2048
/-- A die has room for a reservation: its pool has slots enough, and no earlier allocation waits there (R83, R358). -/
def dieRoom (s : State) (vi need d : Nat) : Bool :=
  !s.downDies.contains d && need ≤ poolFree (poolOf s vi d) && !s.kvq.any fun w => w.die == d && w.vi == vi
/-- The tax class of a Dusk die (R83); what the vaults of another package publish is a free value (log entry 77). -/
def dieTax (s : State) (d : Nat) : Nat :=
  if d < 2048 then ((List.range 512).foldl (fun n w => n + (s.vault (512 * (d - 2) + w)).rtax) 0) / 512 / 32
  else (Config.freeBits s.fresh (8192 + d)).toNat
/-- The die of the lowest tax class, the first on a tie. -/
def leastTax (s : State) (ds : List Nat) : Option Nat :=
  match ds with
  | [] => none
  | d :: r => some (r.foldl (fun b d => if dieTax s d < dieTax s b then d else b) d)
/-- The Dusk dies, by rising global address, of the other packages that a core set names (R90). -/
def remoteDusk (s : State) (c : Option CoreSet) : List Nat :=
  match c with
  | none => []
  | some x => (List.range 256).flatMap fun p =>
      if p != s.pkg.pkgnum.toNat && Config.peerPresent p && x.blocks.any (fun b => b.1 == p) then [2, 3, 4, 5].map fun d => 2048 + 8 * p + d
      else []
/-- The Dusk die that takes a stream's blocks (R83, R90): the named one; or the one of the lowest tax class among those of this package
with room, and only when none has, among those of the packages that the region's core set names. -/
def chooseDie (s : State) (vi dest need : Nat) (cset : Option CoreSet) : Option Nat :=
  if dest != 0x7FF then ([dieRef s dest].filter (dieRoom s vi need)).head?
  else (leastTax s ([2, 3, 4, 5].filter (dieRoom s vi need))).or (leastTax s ((remoteDusk s cset).filter (dieRoom s vi need)))
/-- Reserve a block for an index: the lowest EMPTY slot becomes IN_FLIGHT. Fields of the header that only the landing decides are
free values. -/
def reserveBlock (s : State) (vi die asid : Nat) (srec : W64) (q : Srec) (x : Nat × Nat × Nat × Nat) : State × W64 :=
  let p := poolOf s vi die
  match p.lowest with
  | none => (s, 0)
  | some i =>
    let a := p.base + natW (i * p.size * 64)
    let h : KvHdr := ⟨0, bsInFlight, dieGlob s die, (q.sgen + 1) % 65536, (Config.freeBits s.fresh 0).setWidth 32,
      (Config.freeBits s.fresh 1).setWidth 32, x.2.2.2, x.1, x.2.1, x.2.2.1, srec⟩
    ({ engPut (takeSlot s vi die i) die asid a 64 h.value with fresh := s.fresh + 1 }, a)
/-- Reserve the blocks of every layer. -/
def reserveAll (s : State) (vi die asid : Nat) (srec : W64) (q : Srec) (nkv : Nat) : State × List (Nat × W64) :=
  (blockIndexes (List.range q.layers) nkv (promptBlocks q)).zipIdx.foldl (fun acc x =>
    let z := reserveBlock acc.1 vi die asid srec q x.1
    (z.1, acc.2 ++ [(x.2, z.2)])) (s, [])
/-- Write DEST of a stream record (R51). -/
def putDest (s : State) (asid : Nat) (srec : W64) (d : Nat) : State := hubPut s asid (genOf s asid) (srec + 16) 2 d
/-- The first HANDOFF node reserves: blocks, DEST, then the transition to HANDOFF, then its layers are sealed (R77, R82). -/
def firstReservation (s : State) (n : GNode) (r : Region) (q : Srec) (t : KvTab) (die : Nat) : State :=
  let srec := n.w 2
  let z := reserveAll s r.vi die r.asid srec q t.nkv
  let j : TwJob := { nid := n.nid, srec := srec, asid := r.asid, vi := r.vi, src := q.owner, die := die, any := bitsOf (n.w 3) 0 11 == 0x7FF,
                     retries := 0, nlayers := q.layers, notes := [], layers := [], cancelling := false, freed := false, committed := false, blocks := z.2 }
  let s1 := putDest z.1 r.asid srec (dieGlob s die)
  match transit s1 r.asid r.gen srec q ssHandoff q.owner q.sgen true with
  | some u => sealNode { u with tw := u.tw ++ [j] } n r q
  | none =>
    let s2 := freeReserved s1 j q
    match readSrec s2 r.asid r.gen srec with
    | .ok q2 => if q2.cancel && q2.state = ssPrefill then toCancelled s2 r.asid srec q2 else dropTransit s2 r.asid srec
    | .error _ => dropTransit s2 r.asid srec
/-- A new destination after the loss of the first: every layer is pulled afresh (R77), CANCEL having been sampled (R78). -/
def againReservation (s : State) (j : TwJob) (q : Srec) (t : KvTab) (die : Nat) : State :=
  let z := reserveAll s j.vi die j.asid j.srec q t.nkv
  let s1 := putDest z.1 j.asid j.srec (dieGlob s die)
  updJob s1 j.srec fun j => { j with
    die := die, blocks := z.2, retries := j.retries + 1
    layers := j.layers.map fun l => { l with landcrc := 0, landn := 0, tries := 1, matched := false, bad := false, pulls := List.range l.nblk } }
/-- The core set of the region in which a hand-off began. -/
def jobSet (s : State) (j : TwJob) : Option CoreSet := ((s.node? j.nid).bind fun n => s.region? n.rid).bind (·.cset)
/-- The scheduler reserves anew for a hand-off that has lost its destination; it waits while no die has room. -/
def reserveAgain (s : State) (j : TwJob) (q : Srec) (t : KvTab) : Out :=
  if q.cancel then .next (cancelHandoff s j.srec q)
  else match chooseDie s j.vi 0x7FF (2 * t.nkv * promptBlocks q * q.layers) (jobSet s j) with
    | none => .next s.block
    | some d => .next (againReservation s j q t d)
/-- R83. A node that waits for room samples CANCEL with each attempt (R77, log entry 44). A pool whose slots are smaller than a destination
block makes the node MALFORMED, with the block table as the failing structure: R358 says it of allocating core paths only (DESIGN CHOICE, log
entry 114). -/
def execTwilightReservation (s : State) : Out :=
  match s.node? s.sub.a with
  | none => match jobOf s s.sub.x with
    | none => .refused (.noSubject "no such node")
    | some j =>
      if j.die != 0 || j.cancelling || j.committed then .refused (.noSubject "the hand-off waits for no reservation")
      else match readSrec s j.asid (genOf s j.asid) j.srec with
        | .error _ => .refused (.noSubject "the stream record cannot be read")
        | .ok q => match kvTab (engReader s hubDie j.asid (genOf s j.asid)) q.btab q.layers with
          | .error _ => .next (toQueued s j.asid j.srec q)
          | .ok t => reserveAgain s j q t
  | some n => match s.region? n.rid with
    | none => .refused (.noSubject "no such region")
    | some r =>
      if n.st != .running || nodeKind n.words != 0x16 || n.finished || !viOn s r.vi then .refused (.noSubject "the node waits for no reservation")
      else match readSrec s r.asid r.gen (n.w 2) with
        | .error _ => .next (finishNode (failNode s n.rid stFault (n.w 2)) n.nid)
        | .ok q => match kvTab (engReader s hubDie r.asid (genOf s r.asid)) q.btab q.layers with
          | .error e => .next (finishNode (failNode s n.rid (if e = tcOperand then stMalformed else stFault) q.btab) n.nid)
          | .ok t =>
            let need := 2 * t.nkv * promptBlocks q * q.layers
            let small (d : Nat) : Bool := (poolOf s r.vi d).size * 64 < kvSize true t.hdim
            match jobOf s (n.w 2) with
            | none =>
              if q.state != ssPrefill then .next (finishNode s n.nid)
              else match chooseDie s r.vi (bitsOf (n.w 3) 0 11) need r.cset with
                | none => if q.cancel then .next (toCancelled s r.asid (n.w 2) q) else .next s.block
                | some d =>
                  if small d then .next (finishNode (failNode s n.rid stMalformed q.btab) n.nid)
                  else .next (firstReservation s n r q t d)
            | some j =>
              if j.die = 0 && !j.cancelling then reserveAgain s j q t else .next (sealNode s n r q)

/-! ## Pulling and converting (R84, R85) -/

/-- A converted element (R85). -/
def convElem (sc : W32 × Bool) (x : Nat) : Nat :=
  match unpack bf16 x with
  | .nan _ => x / 32768 * 128 + 0x7F
  | .inf _ => x / 32768 * 128 + 0x7E
  | v => quant85 sc v
/-- BF16 value (t, d) of a source payload. -/
def srcElem (hdim : Nat) (payload : List Byte) (t d : Nat) : Nat := leNat ((payload.drop (2 * (hdim * t + d))).take 2)
/-- The conversion of a source block: its scale, the destination payload, and the infinities among the survivors. -/
def convBlock (kv hdim bm : Nat) (payload : List Byte) : W32 × List Byte × Nat :=
  let live := (List.range 16).filter fun t => bm.testBit t
  let rows := live.flatMap fun t => (List.range hdim).map fun d => srcElem hdim payload t d
  let sc := quantScale (amaxFin (rows.map (unpack bf16)))
  let out := (List.range (16 * hdim)).map fun o =>
    let t := if kv = 0 then o % 16 else o / hdim
    let d := if kv = 0 then o / 16 else o % hdim
    BitVec.ofNat 8 (if bm.testBit t then convElem sc (srcElem hdim payload t d) else 0)
  (sc.1, out, (rows.filter fun x => match unpack bf16 x with | .inf _ => true | _ => false).length)

/-- A layer of a hand-off. -/
def TwJob.layer (j : TwJob) (l : Nat) : Option TwLayer := j.layers.find? (·.layer == l)
/-- Change a layer. -/
def updLayer (s : State) (srec : W64) (l : Nat) (f : TwLayer → TwLayer) : State :=
  updJob s srec fun j => { j with layers := j.layers.map fun x => if x.layer = l then f x else x }
/-- A write that an engine makes for a layer has faulted: it is counted at the die, and counts as a mismatch of the layer (R86). -/
def writeFault (s : State) (j : TwJob) (layer : Nat) : State :=
  updLayer { s with twerr := Tab.put 0 s.twerr j.die (Tab.get 0 s.twerr j.die + 1) } j.srec layer fun x =>
    { x with bad := true, pulls := x.pulls.take 32 }
/-- A write of n bytes that an engine makes for a layer. -/
def layerWrite (s : State) (j : TwJob) (layer : Nat) (a : W64) (n v : Nat) : State :=
  match engWrite s j.die j.asid (genOf s j.asid) a n v with
  | .ok t => t
  | .error _ => writeFault s j layer
/-- Words 2 and 3 of a layer's seal record as the destination writes them. -/
def putLanded (s : State) (j : TwJob) (q : Srec) (l : TwLayer) : State :=
  layerWrite s j l.layer (sealAt q l.layer + 16) 16 (l.landn + 2 ^ 32 * l.tries + 2 ^ 64 * l.landcrc.toNat)

/-- The source copy that pull b of a layer takes, as the sealed notice names it: the Dusk path reads no Dawn half (R356). -/
def sourceOf (j : TwJob) (layer b : Nat) : W64 := (((j.notes.find? (·.1 == layer)).map (·.2)).getD []).getD b 0
/-- The bytes that a pull of a source block delivers; none when it is rejected or failed (R84). A copy that is not SEALED under SGEN
is stale (R76, R80): an engine has no core that could trap, so the model counts its bytes as zero too (log entry 113). -/
def pulled (s : State) (j : TwJob) (q : Srec) (layer b n : Nat) (failed : Bool) : Option (List Byte) :=
  let a := sourceOf j layer b
  if failed || a = 0 then none
  else match engKeys s j.die j.asid (genOf s j.asid) .rd a.toNat n with
    | .error _ => none
    | .ok ks =>
      let raw := homeBytes s ks
      let h := KvHdr.parse (leNat (raw.take 64))
      if anyBad s (ks.take 64) || (h.state == bsSealed && h.gen == q.sgen) then some raw else none
/-- A destination copy may take the contents of a block: it is IN_FLIGHT, of this stream and of the generation SGEN + 1 (R80). -/
def destReady (s : State) (j : TwJob) (q : Srec) (dest : W64) : Bool :=
  match kvHdr (engReader s j.die j.asid (genOf s j.asid)) dest.toNat with
  | .ok h => h.state == bsInFlight && h.gen == (q.sgen + 1) % 65536 && h.srec == j.srec
  | .error _ => false
/-- The writes of a landing block: payload, header, Dusk half of the table; none when one of them faults or the copy may not take it. -/
def landBlock (s : State) (j : TwJob) (q : Srec) (t : KvTab) (x : Nat × Nat × Nat × Nat) (dest : W64) (h : KvHdr) (pay : List Byte) :
    Option State :=
  let g := genOf s j.asid
  if !destReady s j q dest then none
  else match engWrite s j.die j.asid g (dest + 64) pay.length (leNat pay) with
    | .error _ => none
    | .ok s1 => match engWrite s1 j.die j.asid g dest 64 h.value with
      | .error _ => none
      | .ok s2 => match engWrite s2 j.die j.asid g (kvHalfAt q.btab t x.1 x.2.1 x.2.2.1 x.2.2.2 1) 8 dest.toNat with
        | .error _ => none
        | .ok s3 => some s3
/-- One block of a layer lands, or its write faults (R84 to R86). -/
def landPull (s : State) (j : TwJob) (q : Srec) (t : KvTab) (l : TwLayer) (b : Nat) (readFault writeFail : Bool) : State :=
  let xs := blockIndexes [l.layer] t.nkv (promptBlocks q)
  match xs[b]? with
  | none => s
  | some x =>
    let n := kvSize false t.hdim
    let got := pulled s j q l.layer b n readFault
    let raw := got.getD (List.replicate n 0)
    let pay := raw.drop 64
    let bm := leNat (raw.take 2)
    let c := convBlock x.2.2.1 t.hdim bm pay
    let dest := ((j.blocks.find? fun z => z.1 == l.layer * xs.length + b).map (·.2)).getD 0
    let h : KvHdr := ⟨bm, bsLanded, dieGlob s j.die, (q.sgen + 1) % 65536, c.1, crc32c 0 c.2.1, x.2.2.2, x.1, x.2.1, x.2.2.1, j.srec⟩
    let e := 2 * j.die + l.layer % 2
    let s1 := pullSee s j.die j.asid (sourceOf j l.layer b) n
    let s0 := { s1 with nonfin := Tab.put 0 s1.nonfin e (Tab.get 0 s1.nonfin e + c.2.2),
                        twerr := if got.isNone then Tab.put 0 s1.twerr j.die (Tab.get 0 s1.twerr j.die + 1) else s1.twerr }
    match if writeFail then none else landBlock s0 j q t x dest h c.2.1 with
    | some s1 =>
      let l1 := { l with landcrc := l.landcrc ^^^ blockCrc x.2.2.2 pay, landn := l.landn + 1, pulls := l.pulls.erase b }
      putLanded (updLayer s1 j.srec l.layer fun _ => l1) j q l1
    | none => updLayer (writeFault s0 j l.layer) j.srec l.layer fun x => { x with pulls := x.pulls.erase b }

/-! ## The seal check and the commit (R86, R87) -/

/-- HANDOFF nodes whose own layers are complete have nothing more to do (R87). -/
def endMatched (s : State) (srec : W64) : State :=
  match jobOf s srec with
  | none => s
  | some j =>
    { s with nodes := s.nodes.map fun n =>
        if n.st = .running && nodeKind n.words = 0x16 && n.w 2 = srec
            && (handoffLayers n).all (fun l => (j.layer l).any (·.matched)) then { n with finished := true } else n }
/-- Every layer is complete. -/
def allMatched (j : TwJob) : Bool := j.layers.length == j.nlayers && j.layers.all (·.matched)
/-- The commit transition; when it fails the engine acts on the state it finds (R79, R86). -/
def commitJob (s : State) (j : TwJob) (q : Srec) : State :=
  match transit s j.asid (genOf s j.asid) j.srec { q with state := ssHandoff } ssDecode (dieGlob s j.die) (q.sgen + 1) true with
  | some t => endMatched (updJob t j.srec fun j => { j with committed := true }) j.srec
  | none => match readSrec s j.asid (genOf s j.asid) j.srec with
    | .ok q2 => if q2.state = ssHandoff && q2.cancel then cancelHandoff s j.srec q2 else dropTransit s j.asid j.srec
    | .error _ => dropTransit s j.asid j.srec
/-- A layer has failed its check: its copies are IN_FLIGHT again and it is pulled again, after CANCEL has been sampled; a third
mismatch returns the stream to QUEUED (R77, R78, R86). -/
def mismatch (s : State) (j : TwJob) (q : Srec) (t : KvTab) (l : TwLayer) : State :=
  if 3 ≤ l.tries then toQueued s j.asid j.srec q
  else
    let per := 2 * t.nkv * promptBlocks q
    let mine := j.blocks.filter fun b => b.1 / per == l.layer
    let l1 := { l with landcrc := 0, landn := 0, tries := l.tries + 1, bad := false, pulls := List.range l.nblk }
    let s1 := updLayer s j.srec l.layer fun _ => l1
    let s2 := putLanded (mine.foldl (fun s b => layerWrite s j l.layer (b.2 + 2) 1 bsInFlight) s1) j q l1
    if q.cancel then cancelHandoff (updLayer s2 j.srec l.layer fun x => { x with pulls := [] }) j.srec q else s2
/-- The check of a layer whose pulls have all returned. -/
def checkLayer (s : State) (j : TwJob) (q : Srec) (t : KvTab) (l : TwLayer) : State :=
  if l.bad || l.landcrc != l.lcrc || l.landn != l.nblk then mismatch s j q t l
  else
    let s1 := updLayer s j.srec l.layer fun x => { x with matched := true }
    match jobOf s1 j.srec with
    | none => s1
    | some j1 => if allMatched j1 then commitJob s1 j1 q else endMatched s1 j.srec
/-- A layer is checked as often as it has no pull outstanding: a layer of no blocks at once. Every check that fails is one try more, so
`k` = 4 checks are enough. -/
def settleLayer (k : Nat) (s : State) (srec : W64) (q : Srec) (t : KvTab) (layer : Nat) : State :=
  match k with
  | 0 => s
  | k + 1 => match (jobOf s srec).bind fun j => (j.layer layer).map fun l => (j, l) with
    | none => s
    | some (j, l) =>
      if l.pulls == [] && !l.matched && !j.cancelling && !j.committed then settleLayer k (checkLayer s j q t l) srec q t layer else s
/-- R84: the engine of the layer receives the notice, samples CANCEL, and begins to pull. -/
def execSealedNotice (s : State) : Out :=
  match jobOf s s.sub.x with
  | none => .refused (.noSubject "no hand-off of this stream")
  | some j =>
    if j.cancelling || j.committed || j.die = 0 || (j.layer s.sub.a).isSome || j.nlayers ≤ s.sub.a
        || !j.notes.any fun x => x.1 == s.sub.a then
      .refused (.noSubject "no notice for this layer")
    else match readSrec s j.asid (genOf s j.asid) j.srec with
      | .error _ => .refused (.noSubject "the stream record cannot be read")
      | .ok q => match engReader s j.die j.asid (genOf s j.asid) (sealAt q s.sub.a) 32,
          kvTab (engReader s j.die j.asid (genOf s j.asid)) q.btab q.layers with
        | .ok v, .ok t =>
          if nbits v 63 1 = 0 then .refused (.noSubject "the layer is not sealed")
          else if q.cancel then .next (cancelHandoff s j.srec q)
          else
            let n := nbits v 0 32
            let l : TwLayer := ⟨s.sub.a, n, BitVec.ofNat 32 (nbits v 64 32), 0, 0, 1, false, false, List.range n⟩
            .next (settleLayer 4 (putLanded (updJob s j.srec fun j => { j with layers := j.layers ++ [l] }) j q l) j.srec q t l.layer)
        | _, _ => .next (toQueued s j.asid j.srec q)
/-- Block b of a layer returns to the Twilight engine; while a cancellation is in progress it is only awaited (R85, R88). -/
def pullReturn (s : State) (j : TwJob) (q : Srec) (l : TwLayer) (b : Nat) (readFault writeFail : Bool) : State :=
  if j.cancelling then
    let s1 := updLayer s j.srec l.layer fun x => { x with pulls := x.pulls.erase b }
    match jobOf s1 j.srec with
    | none => s1
    | some j1 =>
      if j1.layers.all fun x => x.pulls == [] then updJob (freeReserved s1 j1 q) j.srec fun j => { j with freed := true, blocks := [] }
      else s1
  else match kvTab (engReader s j.die j.asid (genOf s j.asid)) q.btab q.layers with
    | .error _ => toQueued s j.asid j.srec q
    | .ok t => settleLayer 4 (landPull s j q t l b readFault writeFail) j.srec q t l.layer
/-- R85: block b of layer a. -/
def execTwilightPullReturn (s : State) : Out :=
  match jobOf s s.sub.x with
  | none => .refused (.noSubject "no hand-off of this stream")
  | some j => match j.layer s.sub.a, readSrec s j.asid (genOf s j.asid) j.srec with
    | some l, .ok q =>
      if (l.pulls.take 32).contains s.sub.b then .next (pullReturn s j q l s.sub.b s.sub.p s.sub.q)
      else .refused (.noSubject "no such pull is outstanding")
    | _, _ => .refused (.noSubject "no such layer or record")
/-- An outstanding pull ends with an error completion: its bytes count as zero (R84). -/
def failPull (s : State) (srec : W64) (layer b : Nat) : State :=
  match jobOf s srec with
  | none => s
  | some j => match j.layer layer, readSrec s j.asid (genOf s j.asid) srec with
    | some l, .ok q => if (l.pulls.take 32).contains b then pullReturn s j q l b true false else s
    | _, _ => s
/-- Every outstanding pull of the hand-offs that a test names ends with an error completion (R23, R417). -/
def failPulls (s : State) (t : TwJob → Bool) : State :=
  ((s.tw.filter t).flatMap fun j => j.layers.flatMap fun l => (l.pulls.take 32).map fun b => (j.srec, l.layer, b)).foldl
    (fun s x => failPull s x.1 x.2.1 x.2.2) s
/-- R87: the source frees its copies once the commit's notice has reached it. -/
def execReleaseNotice (s : State) : Out :=
  match jobOf s s.sub.x with
  | none => .refused (.noSubject "no hand-off of this stream")
  | some j =>
    if !j.committed then .refused (.noSubject "the hand-off is not committed")
    else match readSrec s j.asid (genOf s j.asid) j.srec with
      | .error _ => .next (dropJob s j.srec)
      | .ok q => .next (dropJob (freeBlocks s (j.src % 8) j.asid q 0) j.srec)
/-- R88 steps 3 and 4: the source frees its copies and issues the CANCELLED transition. While the VI is being disabled R54 takes the
stream instead, unless its CANCEL is set. -/
def execReleaseDoneNotice (s : State) : Out :=
  match jobOf s s.sub.x with
  | none => .refused (.noSubject "no hand-off of this stream")
  | some j =>
    if !(j.cancelling && j.freed) then .refused (.noSubject "no release-done for this stream")
    else match readSrec s j.asid (genOf s j.asid) j.srec with
      | .error _ => .next (dropJob s j.srec)
      | .ok q =>
        if (s.vi j.vi).disabling && !q.cancel then .refused (.noSubject "the stream is to be FAULTED")
        else .next (dropJob (if q.state = ssHandoff then toCancelled s j.asid j.srec q else s) j.srec)

/-! ## The loss of a die (R77, R88 to R90) -/

/-- A die of this package, by its global address, is down. -/
def dieGone (s : State) (g : Nat) : Bool := g / 8 == s.pkg.pkgnum.toNat && s.downDies.contains (g % 8)
/-- The destination of a hand-off is lost: a cancellation takes the error completion for its release-done (R88); else a new destination is
sought, or the stream returns to QUEUED (R77). With the source lost too the outcome is that of both (R89). -/
def destLost (s : State) (asid : Nat) (srec : W64) (q : Srec) (j : TwJob) : State :=
  let both := dieGone s j.src
  if j.cancelling then
    let s1 := updJob s srec fun j => { j with freed := true, blocks := [], layers := [] }
    if both then toCancelled s1 asid srec q else s1
  else if both then (if q.cancel then toCancelled s asid srec q else toQueued s asid srec q)
  else if j.any && j.retries < 3 then
    updJob s srec fun j => { j with die := 0, blocks := [], layers := j.layers.map fun l => { l with pulls := [], matched := false } }
  else toQueued s asid srec q
/-- The source of a hand-off is lost (R77, R88, R89). -/
def sourceLost (s : State) (asid : Nat) (srec : W64) (q : Srec) (j : TwJob) : State :=
  if j.cancelling then toCancelled s asid srec q
  else if j.die = 0 || dieGone s (dieGlob s j.die) then (if q.cancel then toCancelled s asid srec q else toQueued s asid srec q)
  else if allMatched j then
    let s1 := commitJob s j q
    if (jobOf s1 srec).any (·.cancelling) then toCancelled s1 asid srec q else s1
  else toQueued s asid srec q
/-- What the loss of a die means for one stream; d is its global die address. -/
def streamLost (s : State) (asid : Nat) (srec : W64) (d : Nat) : State :=
  match readSrec s asid (genOf s asid) srec with
  | .error _ => s
  | .ok q =>
    if q.state = ssPrefill then (if q.owner = d then toQueued s asid srec q else s)
    else match jobOf s srec with
      | none => if q.state = ssDecode && q.owner = d then toFaulted s asid srec q else s
      | some j =>
        if q.state = ssDecode then
          if q.owner = d then toFaulted s asid srec q else if j.src = d then dropJob s srec else s
        else if q.state != ssHandoff then s
        else if j.die != 0 && dieGlob s j.die = d then destLost s asid srec q j
        else if q.owner = d then sourceLost s asid srec q j
        else s
/-- The loss of a die for every stream that an ADMIT has admitted. -/
def dieLost (s : State) (d : Nat) : State :=
  (s.regions.filterMap fun r => match r.origin with
    | .accept a _ _ => some (r.asid, a)
    | _ => none).foldl (fun s x => streamLost s x.1 x.2 d) s
/-- R90: a fabric path down for 1 ms counts as a reset of the die beyond it. -/
def execFabricPathTimeout (s : State) : Out :=
  if s.sub.a / 8 = s.pkg.pkgnum.toNat || 2048 ≤ s.sub.a then .refused (.noSubject "no fabric path leads to this die")
  else .next (dieLost s s.sub.a)

/-! ## Blocks after the commit, wipes and pools (R81, R358, R361) -/

/-- R81: the header of a LANDED copy of a committed stream is rewritten to LIVE. -/
def execHeaderLiveRewrite (s : State) : Out :=
  let rd := engReader s hubDie s.sub.a (genOf s s.sub.a)
  match kvHdr rd s.sub.x.toNat with
  | .error _ => .refused (.noSubject "no block header")
  | .ok h => match readSrec s s.sub.a (genOf s s.sub.a) h.srec with
    | .error _ => .refused (.noSubject "no stream record")
    | .ok q =>
      if h.state = bsLanded && q.state = ssDecode && q.sgen = h.gen then .next (setBlockState s hubDie s.sub.a s.sub.x 64 bsLive)
      else .refused (.noSubject "no LANDED copy of a committed stream")
/-- The address space in which the device reaches a VI's pool outside any region: the first of the VI that maps its base. -/
def poolSpace (s : State) (vi : Nat) (base : W64) : Nat :=
  let v := s.vi vi
  (((List.range v.asidn).map (v.asidbase + ·)).find? fun a => match walk s a base.toNat with
    | .ok _ => true
    | .error _ => false).getD v.asidbase
/-- Wipe a pool slot: its header and its payload read zero (R81). -/
def wipeSlot (s : State) (vi die i : Nat) : State :=
  let p := poolOf s vi die
  let a := p.base + natW (i * p.size * 64)
  let asid := poolSpace s vi p.base
  match engKeys s hubDie asid (genOf s asid) .rd a.toNat (p.size * 64) with
  | .error _ => s
  | .ok ks => putCells (unsealLines s (linesOf ks)) (ks.map fun k => (k, (0 : Byte)))
/-- The appends that wait for a block of the pool of a VI on a die go on in their order of arrival, while a slot is EMPTY (R358). -/
def serveAppends (fuel : Nat) (s : State) (vi die : Nat) : State :=
  match fuel with
  | 0 => s
  | k + 1 => match s.kvq.find? fun w => w.vi == vi && w.die == die with
    | none => s
    | some w =>
      if (poolOf s vi die).lowest.isNone then s
      else serveAppends k (asCtx { s with kvq := s.kvq.erase w } w.ctx (resumeApp w)) vi die
/-- A pool has changed: the appends that wait for its slots go on. -/
def poolServed (s : State) (vi die : Nat) (p : Pool) : State :=
  let t := setPool s vi die p
  serveAppends t.kvq.length t vi die
/-- R81: the wipe of a FREED block completes; its slot is EMPTY again. -/
def execBlockWipeComplete (s : State) : Out :=
  let p := poolOf s s.sub.a s.sub.b
  let a := p.base + natW (s.sub.c * p.size * 64)
  let asid := poolSpace s s.sub.a p.base
  let st := match engReader s hubDie asid (genOf s asid) a 64 with
    | .ok v => nbits v 16 3
    | .error _ => bsEmpty
  if !p.busy.contains s.sub.c || st != bsFreed then .refused (.noSubject "no FREED block in this slot")
  else .next (poolServed (wipeSlot s s.sub.a s.sub.b s.sub.c) s.sub.a s.sub.b { p with busy := p.busy.erase s.sub.c })
/-- R358: a write to the pool registers of a die, which takes effect only while every slot is EMPTY. A die of another package, 2,048 + its
global address, has its registers in that package's VI page. -/
def execBlockPoolWrite (s : State) : Out :=
  let p := poolOf s s.sub.a s.sub.b
  if 64 ≤ s.sub.a || (5 < s.sub.b && s.sub.b < 2048) || 4096 ≤ s.sub.b then .refused (.noSubject "no such register")
  else if s.pkg.phase != .ready || p.wiping || p.busy != [] then .next s
  else
    let q : Pool := if s.sub.p then { p with n := bitsOf s.sub.x 0 24, size := bitsOf s.sub.x 24 16 } else { p with base := s.sub.x }
    .next (setPool s s.sub.a s.sub.b { q with wiping := q.n != 0 })
/-- R358: the wipe of the pool completes. -/
def execPoolWipeComplete (s : State) : Out :=
  let p := poolOf s s.sub.a s.sub.b
  if !p.wiping then .refused (.noSubject "the pool is not being wiped")
  else
    let s1 := (List.range p.n).foldl (fun s i => wipeSlot s s.sub.a s.sub.b i) s
    .next (poolServed s1 s.sub.a s.sub.b { p with wiping := false, busy := [] })
/-- A block that the sliding window frees: LIVE, and its last survivor before WSTART (R361). -/
def beforeWindow (h : KvHdr) (sgen lb wstart : Nat) : Bool :=
  (h.state == bsLive || h.state == bsLanded) && h.gen == sgen
    && (if h.bitmap = 0 then 16 * lb + 15 < wstart else 16 * lb + Nat.log2 h.bitmap < wstart)
/-- The sliding window of a stream is applied (R361). -/
def applyWindow (s : State) (asid : Nat) (q : Srec) : State :=
  let rd := engReader s hubDie asid (genOf s asid)
  match kvTab rd q.btab q.layers with
  | .error _ => s
  | .ok t =>
    if t.win = 0 || q.state != ssDecode then s
    else (blockIndexes (List.range t.nlayer) t.nkv t.nlb).foldl (fun s x =>
      match (halfOf s hubDie asid q.btab t 1 x).map fun a => kvHdr (engReader s hubDie asid (genOf s asid)) a.toNat with
      | some (.ok h) => if beforeWindow h q.sgen x.2.2.2 (q.pos - t.win) then freeIndex s hubDie asid q.btab t 1 x else s
      | _ => s) s
/-- R361. -/
def execSlidingWindowRelease (s : State) : Out :=
  match readSrec s s.sub.a (genOf s s.sub.a) s.sub.x with
  | .error _ => .refused (.noSubject "no stream record")
  | .ok q => if q.state = ssDecode then .next (applyWindow s s.sub.a q) else .refused (.noSubject "the stream is not in DECODE")

end Sys2Proof.Machine
end

