-- ==== Sys2Proof/Machine/Sampler.lean ====
section
/-! DEFINITION. Sampling and the generation loop: the SAMPLE node, stage control blocks, weights and candidates, draws,
verification, the output record, and the commit by the loop core (R423 to R434). -/

namespace Sys2Proof.Machine

/-! ## Stage control blocks (R425, R426) -/

/-- Word k of a stage control block. -/
def scbW (b : List W64) (k : Nat) : W64 := b.getD k 0
/-- STAGE of a block. -/
def scbStage (b : List W64) : Nat := bitsOf (scbW b 0) 8 4
/-- A 32-bit half of a word. -/
def lo32 (w : W64) : W32 := w.setWidth 32
def hi32 (w : W64) : W32 := (w >>> 32).setWidth 32
/-- A finite value that is greater than zero. -/
def posFinite (w : W32) : Bool := match val32 w with | .fin s m _ => !s && m != 0 | _ => false
/-- A finite value. -/
def finite32 (w : W32) : Bool := match val32 w with | .fin _ _ _ => true | _ => false
/-- A value in [0, 1]. -/
def inUnit (w : W32) : Bool :=
  match val32 w with
  | .fin s m e => (m == 0 || !s) && cmpF (.fin s m e) (.fin false 1 0) != .gt
  | _ => false
/-- A pointer to a list or table that a stage needs. -/
def listPtr (align : Nat) (p : W64) : Bool := p != 0 && ptrOk align p
/-- The fields of a block are within their limits (R425). -/
def scbOk (b : List W64) : Bool :=
  let w := scbW b
  let zeros (ks : List Nat) : Bool := ks.all fun k => w k == 0
  bitsOf (w 0) 0 8 == 0x50 && zeroBits (w 0) 12 52 && ptrOk 64 (w 1)
  && (match scbStage b with
    | 0 => zeroBits (w 2) 32 32 && (lo32 (w 2) == 0 || posFinite (lo32 (w 2))) && zeros [3, 4, 5, 6, 7]
    | 1 => zeroBits (w 3) 13 51 && bitsOf (w 3) 0 13 ≤ 4096 && (bitsOf (w 3) 0 13 == 0 || listPtr 8 (w 2)) && ptrOk 8 (w 2) && zeros [4, 5, 6, 7]
    | 2 => listPtr 1 (w 2) && zeros [3, 4, 5, 6, 7]
    | 3 => zeroBits (w 2) 16 48 && 1 ≤ bitsOf (w 2) 0 16 && bitsOf (w 2) 0 16 ≤ 4096 && zeroBits (w 3) 32 32 && posFinite (lo32 (w 3))
        && finite32 (lo32 (w 4)) && finite32 (hi32 (w 4)) && zeros [5, 6, 7]
    | 4 => zeroBits (w 2) 32 32 && zeroBits (w 3) 32 32 && posFinite (lo32 (w 3)) && inUnit (lo32 (w 3)) && zeroBits (w 4) 32 32
        && inUnit (lo32 (w 4)) && zeroBits (w 5) 11 53 && 1 ≤ bitsOf (w 5) 0 11 && bitsOf (w 5) 0 11 ≤ 1024 && zeros [6, 7]
    | 5 => zeros [2, 3, 4, 5] && listPtr 4 (w 7)
    | 6 => listPtr 64 (w 2) && listPtr 4 (w 3) && zeros [4, 5] && listPtr 4 (w 7)
    | _ => false)
/-- A chain of at most `fuel` blocks from an address; the stage that each must exceed. -/
def readChain (s : State) (asid : Nat) (gen : BitVec 16) (fuel : Nat) (va : W64) (above : Option Nat) : Except (Nat × W64) (List (List W64)) :=
  match fuel with
  | 0 => .error (stMalformed, va)
  | k + 1 =>
    if !listPtr 64 va then .error (stMalformed, va)
    else match hubNat s asid gen va 64 with
      | .error _ => .error (stFault, va)
      | .ok v =>
        let b := eightWords v
        let last := scbStage b == 5 || scbStage b == 6
        let next := scbW b 1
        if !scbOk b || (above.any fun a => scbStage b ≤ a) || (last != (next == 0)) then .error (stMalformed, va)
        else if last then .ok [b]
        else match readChain s asid gen k next (some (scbStage b)) with
          | .ok r => .ok (b :: r)
          | .error e => .error e
/-- The block of a stage in a chain. -/
def stageOf (chain : List (List W64)) (st : Nat) : Option (List W64) := chain.find? fun b => scbStage b == st
/-- The terminal block of a chain. -/
def terminalOf (chain : List (List W64)) : List W64 := chain.getLastD []

/-! ## The logits descriptor (R424) -/

/-- A logits descriptor from its header and entries. -/
def parseLogits (s : State) (hd ents : Nat) : Option LogitDesc :=
  let n := nbits hd 0 5
  let d : LogitDesc := ⟨nbits hd 8 7, nbits hd 16 1 == 1, nbits hd 40 24, nbits hd 64 32, nbits hd 128 32,
    (List.range n).map fun k => (natW (nbits ents (128 * k) 64), nbits ents (128 * k + 64) 24, nbits ents (128 * k + 88) 24,
      nbits ents (128 * k + 112) 11)⟩
  let resOk := nbits hd 5 3 == 0 && nbits hd 15 1 == 0 && nbits hd 17 23 == 0 && nbits hd 96 32 == 0 && nbits hd 160 352 == 0
    && (List.range n).all fun k => nbits ents (128 * k + 123) 5 == 0
  let contiguous := (List.range n).all fun k =>
    (d.shards.getD k (0, 0, 0, 0)).2.1 == (d.shards.take k).foldl (fun a x => a + x.2.2.1) 0
  let dies := d.shards.all fun x => listPtr 4 x.1 && destOk s x.2.2.2 && x.2.2.2 != 0x7FF
  if resOk && n != 0 && n ≤ 16 && d.nrow != 0 && d.nrow ≤ 64 && d.vocab != 0 && d.rstride % 4 == 0 && contiguous
      && d.shards.foldl (fun a x => a + x.2.2.1) 0 == d.vocab && dies then some d
  else none
/-- Read a logits descriptor. -/
def readLogits (s : State) (asid : Nat) (gen : BitVec 16) (va : W64) : Except (Nat × W64) LogitDesc :=
  match hubNat s asid gen va 64 with
  | .error _ => .error (stFault, va)
  | .ok hd => match hubNat s asid gen (va + 64) (16 * nbits hd 0 5) with
    | .error _ => .error (stFault, va)
    | .ok es => match parseLogits s hd es with
      | some d => .ok d
      | none => .error (stMalformed, va)
/-- The mask block of a VERIFY (R265, R431): POS_0 is ROOTPOS and NROW is NNODE. -/
def verifyMask (s : State) (asid : Nat) (gen : BitVec 16) (d : LogitDesc) (va : W64) : Except (Nat × W64) MaskBlk :=
  match hubNat s asid gen va 64 with
  | .error _ => .error (stFault, va)
  | .ok hd => match hubNat s asid gen (va + 64) (16 * nbits hd 0 7) with
    | .error _ => .error (stFault, va)
    | .ok es => match parseMask va true hd es with
      | some b => if b.pos.getD 0 0 == d.rootpos && d.nrow == b.nnode then .ok b else .error (stMalformed, va)
      | none => .error (stMalformed, va)

/-! ## The node (R423) -/

/-- The output record of a node (R432): word 0, ROOTPOS, entries. -/
def outputNat (word0 rootpos : Nat) (ents : List (Nat × Nat)) : Nat :=
  word0 + 2 ^ 64 * rootpos + 2 ^ 512 * wordsNat (ents.map fun e => natW (e.1 + 2 ^ 32 * e.2))
/-- Write an output record; a fault ends the node (R31). -/
def putOutput (s : State) (n : GNode) (r : Region) (word0 rootpos : Nat) (ents : List (Nat × Nat)) : State :=
  match agentPut s hubDie r.asid r.gen (n.w 5) (64 + 8 * ents.length) (outputNat word0 rootpos ents) with
  | .ok t => finishNode t n.nid
  | .error _ => finishNode (failNode s n.rid stFault (n.w 5)) n.nid
/-- The SAMPLE node reads what it needs and hands the shards to the sampler engines. -/
def startSample (s : State) (n : GNode) (r : Region) : State :=
  match readSrec s r.asid r.gen (n.w 2) with
  | .error _ => failStart s n stFault (n.w 2)
  | .ok q =>
    if q.kind != 0x30 || !q.clean then failStart s n stMalformed (n.w 2)
    else if q.state != ssPrefill && q.state != ssDecode then
      let rootpos := match readLogits s r.asid r.gen (n.w 4) with | .ok d => d.rootpos | .error _ => 0
      putOutput (runNode s n.nid) n r (2 ^ 16 * 3) rootpos []
    else match readChain s r.asid r.gen 7 (if n.w 3 = 0 then q.scb else n.w 3) none with
      | .error e => failStart s n e.1 e.2
      | .ok chain => match readLogits s r.asid r.gen (n.w 4) with
        | .error e => failStart s n e.1 e.2
        | .ok d =>
          let ok : Except (Nat × W64) Unit := match stageOf chain 6 with
            | none => .ok ()
            | some b => match verifyMask s r.asid r.gen d (scbW b 2) with
              | .ok _ => .ok ()
              | .error e => .error e
          match ok with
          | .error e => failStart s n e.1 e.2
          | .ok _ =>
            let t := runNode s n.nid
            { t with samps := t.samps ++ [⟨n.nid, n.w 2, chain, d, n.w 5, [], false⟩] }
/-- R423. -/
def execSampleNode (s : State) : Out := startNode s 0x15 startSample

/-! ## The stages (R425, R426) -/

/-- Minus infinity. -/
def negInf : W32 := 0xFF800000
/-- A NaN logit becomes -∞ (R425). -/
def noNaN (w : W32) : W32 := if (val32 w).isNaN then negInf else w
/-- A biased logit. The spec gives no result where an infinity meets its opposite or the bias is a NaN: a free value. -/
def biased (free x b : W32) : W32 :=
  let y := rne32 (addF 0 (val32 x) (val32 b)).1
  if (val32 y).isNaN then noNaN free else y
/-- A list of z32 words at an address. -/
def words32 (s : State) (asid : Nat) (gen : BitVec 16) (va : W64) (n : Nat) : Except Nat (List Nat) :=
  match hubNat s asid gen va (4 * n) with
  | .ok v => .ok ((List.range n).map fun k => nbits v (32 * k) 32)
  | .error e => .error e
/-- The ancestors of a node with the node itself. -/
def ancestors (m : MaskBlk) (n : Nat) : List Nat := (List.range m.nnode).filter fun k => (m.anc.getD n 0).getLsbD k || k == n
/-- The tokens in the window of row r (R426). -/
def windowTokens (s : State) (asid : Nat) (gen : BitVec 16) (chain : List (List W64)) (d : LogitDesc) (row w : Nat) : Except Nat (List Nat) :=
  let t := terminalOf chain
  let toks (lo hi : Nat) : Except Nat (List Nat) := words32 s asid gen (scbW t 7 + natW (4 * lo)) (hi + 1 - lo)
  if scbStage t = 5 then toks (d.rootpos + 1 - w) d.rootpos
  else match verifyMask s asid gen d (scbW t 2) with
    | .error e => .error e.1
    | .ok m =>
      let p := m.pos.getD row 0
      let lo := p + 1 - w
      let old := if d.rootpos < lo then .ok [] else toks lo (min p d.rootpos)
      match old, words32 s asid gen (scbW t 3) m.nnode with
      | .error e, _ => .error e
      | _, .error e => .error e
      | .ok a, .ok ds =>
        .ok (a ++ ((ancestors m row).filter fun k => d.rootpos < m.pos.getD k 0 && lo ≤ m.pos.getD k 0).map fun k => ds.getD k 0)
/-- The stages on the logit of a token: temperature, biases in list order, mask, penalty with the token's count (R425). -/
def stages (free : W32) (temp : Option W32) (bias : List (Nat × W32)) (masked : Bool) (pen : Option (W32 × W32 × W32)) (c tok : Nat) (x : W32) : W32 :=
  let x1 := match temp with
    | some t => if t = 0 then x else rne32s (divF (val32 x) (val32 t)).1
    | none => x
  let x2 := bias.foldl (fun x b => if b.1 = tok then biased free x b.2 else x) x1
  let x3 := if masked then negInf else x2
  match pen with
  | some (rep, freq, pres) =>
    if c = 0 then x3
    else
      let y := if cmpF (val32 x3) (.fin false 0 0) == .gt then rne32s (divF (val32 x3) (val32 rep)).1
        else rne32 (mulF (val32 x3) (val32 rep)).1
      let z := (addF 0 (val32 y) ((mulF (ofInt c) (val32 freq)).1.negate)).1
      rne32 (addF 0 z (val32 pres).negate).1
  | none => x3
/-- The logits of a row of a shard after the stages, and whether a NaN was met. -/
def shardRow (s : State) (asid : Nat) (gen : BitVec 16) (chain : List (List W64)) (d : LogitDesc) (sh row : Nat) : Except Nat (List W32 × Bool) :=
  let e := d.shards.getD sh (0, 0, 0, 0)
  let size := if d.bf then 2 else 4
  let temp := (stageOf chain 0).map fun b => lo32 (scbW b 2)
  let pen := (stageOf chain 3).map fun b => (lo32 (scbW b 3), lo32 (scbW b 4), hi32 (scbW b 4))
  let biasRd : Except Nat (List (Nat × W32)) := match stageOf chain 1 with
    | none => .ok []
    | some b => match words32 s asid gen (scbW b 2) (2 * bitsOf (scbW b 3) 0 13) with
      | .error e => .error e
      | .ok ws => .ok ((List.range (ws.length / 2)).map fun k => (ws.getD (2 * k) 0, BitVec.ofNat 32 (ws.getD (2 * k + 1) 0)))
  let maskRd : Except Nat (Option Nat) := match stageOf chain 2 with
    | none => .ok none
    | some b => match hubNat s asid gen (scbW b 2 + natW (e.2.1 / 8)) ((e.2.1 + e.2.2.1 + 7) / 8 - e.2.1 / 8) with
      | .error e => .error e
      | .ok v => .ok (some v)
  let winRd : Except Nat (List Nat) := match stageOf chain 3 with
    | none => .ok []
    | some b => windowTokens s asid gen chain d row (bitsOf (scbW b 2) 0 16)
  match hubNat s asid gen (e.1 + natW (row * d.rstride)) (size * e.2.2.1), biasRd, maskRd, winRd with
  | .ok v, .ok bias, .ok mask, .ok win =>
    let xs := (List.range e.2.2.1).map fun i => if d.bf then nbits v (16 * i) 16 * 65536 else nbits v (32 * i) 32
    let out := xs.zipIdx.map fun p =>
      let tok := e.2.1 + p.2
      let masked := match mask with | some m => !m.testBit (tok - e.2.1 / 8 * 8) | none => false
      stages ((Config.freeBits s.fresh (tok + 2 ^ 24 * row)).setWidth 32) temp bias masked pen (win.count tok) tok (noNaN (BitVec.ofNat 32 p.1))
    .ok (out, xs.any fun x => (unpack f32 x).isNaN)
  | .error e, _, _, _ => .error e
  | _, .error e, _, _ => .error e
  | _, _, .error e, _ => .error e
  | _, _, _, .error e => .error e
/-- The rows that a chain draws from: all of them for VERIFY, row 0 for DRAW. -/
def sampleRows (chain : List (List W64)) (d : LogitDesc) : Nat := if scbStage (terminalOf chain) = 6 then d.nrow else 1
/-- Every row of a shard. -/
def shardRows (s : State) (asid : Nat) (gen : BitVec 16) (x : Samp) (sh : Nat) : Except Nat (List (List W32) × Bool) :=
  (List.range (sampleRows x.chain x.desc)).foldr (fun row acc => match acc with
    | .error e => .error e
    | .ok (rs, nan) => match shardRow s asid gen x.chain x.desc sh row with
      | .error e => .error e
      | .ok (r, b) => .ok (r :: rs, nan || b)) (.ok ([], false) : Except Nat (List (List W32) × Bool))
/-- The die of a shard's engine is being reset: the hub hands it no work (R417). -/
def engineFenced (s : State) (x : Samp) (sh : Nat) : Bool :=
  let d := (x.desc.shards.getD sh (0, 0, 0, 0)).2.2.2
  d / 8 == s.pkg.pkgnum.toNat && fencedDie s hubDie (d % 8)
/-- R427: the engine of shard b of SAMPLE node a reports. -/
def execSamplerShard (s : State) : Out :=
  match s.samps.find? (·.nid == s.sub.a), s.node? s.sub.a with
  | some x, some n => match s.region? n.rid with
    | none => .refused (.noSubject "no such region")
    | some r =>
      if x.desc.shards.length ≤ s.sub.b || x.shards.any (fun z => z.1 == s.sub.b) then .refused (.noSubject "no such shard is open")
      else if engineFenced s x s.sub.b then .next s.block
      else match shardRows s r.asid r.gen x s.sub.b with
        | .error _ => .next (finishNode (failNode { s with samps := s.samps.erase x } n.rid stFault n.va) n.nid)
        | .ok (rs, nan) => .next { s with fresh := s.fresh + 1, samps := s.samps.map fun y =>
            if y.nid = x.nid then { y with shards := y.shards ++ [(s.sub.b, rs)], nanseen := y.nanseen || nan } else y }
  | _, _ => .refused (.noSubject "no such SAMPLE node")

/-! ## Weights, candidates and survivors (R427, R428) -/

/-- A non-negative FP32 value in units of 2^-149. -/
def unitsOf149 (w : W32) : Nat := match val32 w with | .fin _ m e => m * 2 ^ (e + 149).toNat | _ => 0
/-- The weight of a logit under M, in units of 2^-149 (R427). -/
def weight (m x : W32) : Nat :=
  if x = negInf then 0
  else if m = 0x7F800000 then (if x = 0x7F800000 then 2 ^ 149 else 0)
  else match (addF 0 (val32 x) (val32 m).negate).1 with
    | .fin s k e => if k = 0 then 2 ^ 149 else unitsOf149 (rne32s (expX s k e))
    | _ => 0
/-- A token of a shard: shard, token, logit, weight. -/
abbrev Tok := Nat × Nat × W32 × Nat
/-- Candidate order: x descending, then token ascending. -/
def candLt (a b : Tok) : Bool :=
  match cmpF (val32 a.2.2.1) (val32 b.2.2.1) with
  | .gt => true
  | .lt => false
  | .eq => a.2.1 < b.2.1
/-- Insert in candidate order. -/
def candInsert (a : Tok) (xs : List Tok) : List Tok :=
  match xs with
  | [] => [a]
  | b :: r => if candLt a b then a :: b :: r else b :: candInsert a r
/-- Sort in candidate order. -/
def candSort (xs : List Tok) : List Tok := xs.foldr candInsert []
/-- The greatest logit of a row. -/
def rowMax (xs : List W32) : W32 :=
  xs.foldl (fun m x => if cmpF (val32 m) (val32 x) == .lt then x else m) negInf
/-- The tokens of a row, shard by shard in ascending order. -/
def rowTokens (x : Samp) (row : Nat) : List (List Tok) :=
  let sh := (List.range x.desc.shards.length).map fun k => (k, ((x.shards.find? (·.1 == k)).map (·.2)).getD [])
  let m := rowMax (sh.flatMap fun k => k.2.getD row [])
  sh.map fun k => (k.2.getD row []).zipIdx.map fun p => (k.1, (x.desc.shards.getD k.1 (0, 0, 0, 0)).2.1 + p.2, p.1, weight m p.1)
/-- The sum of weights. -/
def mass (xs : List Tok) : Nat := xs.foldl (fun n t => n + t.2.2.2) 0
/-- The shortest prefix whose cumulative weight c meets c x 2^k ≥ m x t; none when no prefix does. -/
def prefixFor (need : Nat → Bool) (c : Nat) (xs : List Tok) : Option (List Tok) :=
  if need c then some []
  else match xs with
    | [] => none
    | t :: r => (prefixFor need (c + t.2.2.2) r).map fun p => t :: p
/-- The survivors of a row in candidate order, and TRUNC (R428). -/
def survivors (chain : List (List W64)) (rows : List (List Tok)) : List Tok × Bool :=
  let f := (stageOf chain 4).getD [0, 0, 0, natW one32.toNat, 0, 64, 0, 0]
  let topk := bitsOf (scbW f 2) 0 32
  let topp := lo32 (scbW f 3)
  let minp := unitsOf149 (lo32 (scbW f 4))
  let kp := bitsOf (scbW f 5) 0 11
  let all := rows.flatten
  if topk = 0 && topp = one32 && minp = 0 then (candSort (all.filter fun t => t.2.2.2 != 0), false)
  else
    let lists := rows.map fun r => candSort (r.filter fun t => t.2.2.1 != negInf)
    let cut := lists.filter fun l => kp < l.length
    let l := candSort (lists.flatMap fun l => l.take kp)
    let k1 := if topk = 0 then l else l.take topk
    let t1 := topk != 0 && l.length < topk && cut != []
    let k2 := k1.filter fun t => minp ≤ t.2.2.2
    let t2 := minp != 0 && (topk = 0 || l.length < topk)
      && cut.any fun l => ((l.take kp).getLast?).any fun t => minp ≤ t.2.2.2
    if topp = one32 then (k2, t1 || t2)
    else
      let total := if topk = 0 && minp = 0 then mass all else mass k2
      let need (c : Nat) : Bool := match val32 topp with
        | .fin _ m e => m * total ≤ c * 2 ^ (-e).toNat
        | _ => true
      match prefixFor need 0 k2 with
      | some p => (p, t1 || t2)
      | none => (k2, t1 || t2 || cut != [])

/-! ## Draws (R429, R430) -/

/-- One round of Philox4x32. -/
def philoxRound (k0 k1 : W32) (c : W32 × W32 × W32 × W32) : W32 × W32 × W32 × W32 :=
  let p0 := 0xD2511F53 * c.1.toNat
  let p1 := 0xCD9E8D57 * c.2.2.1.toNat
  (BitVec.ofNat 32 (p1 / 2 ^ 32) ^^^ c.2.1 ^^^ k0, BitVec.ofNat 32 p1, BitVec.ofNat 32 (p0 / 2 ^ 32) ^^^ c.2.2.2 ^^^ k1, BitVec.ofNat 32 p0)
/-- n rounds, the key growing by the Weyl constants. -/
def philox (n : Nat) (k0 k1 : W32) (c : W32 × W32 × W32 × W32) : W32 × W32 × W32 × W32 :=
  match n with
  | 0 => c
  | m + 1 => philox m (k0 + 0x9E3779B9) (k1 + 0xBB67AE85) (philoxRound k0 k1 c)
/-- U x 2^64 of a position and a stream index (R429). -/
def uniform (seed : W64) (p k : Nat) : Nat :=
  let o := philox 10 (lo32 seed) (hi32 seed) (BitVec.ofNat 32 p, 0, BitVec.ofNat 32 k, 0)
  o.2.1.toNat * 2 ^ 32 + o.1.toNat
/-- The first element whose cumulative weight c meets u x t < 2^64 x c. -/
def pickBy {α : Type} (u t : Nat) (c : Nat) (xs : List (α × Nat)) : Option α :=
  match xs with
  | [] => none
  | x :: r => if u * t < 2 ^ 64 * (c + x.2) then some x.1 else pickBy u t (c + x.2) r
/-- Insert in token order. -/
def tokInsert (a : Tok) (xs : List Tok) : List Tok :=
  match xs with
  | [] => [a]
  | b :: r => if a.2.1 < b.2.1 then a :: b :: r else b :: tokInsert a r
/-- The token that no survivor gives. -/
def noToken : Nat := 0xFFFFFFFF
/-- A draw from the survivors of a row for a position (R430). -/
def drawFrom (greedy : Bool) (nshard : Nat) (seed : W64) (p : Nat) (live : List Tok) : Nat :=
  let per := (List.range nshard).map fun k => (k, mass (live.filter fun t => t.1 == k))
  let t := per.foldl (fun n x => n + x.2) 0
  if t = 0 then noToken
  else if greedy then (match live with | a :: _ => a.2.1 | [] => noToken)
  else match pickBy (uniform seed p 0) t 0 per with
    | none => noToken
    | some k =>
      let mine := (live.filter fun x => x.1 == k).foldr tokInsert []
      (pickBy (uniform seed p 1) (mass mine) 0 (mine.map fun x => (x.2.1, x.2.2.2))).getD noToken
/-- The request is greedy: SCALE with TEMP +0. -/
def isGreedy (chain : List (List W64)) : Bool := (stageOf chain 0).any fun b => lo32 (scbW b 2) == 0
/-- The token drawn from a row for a position, and TRUNC. -/
def drawRow (x : Samp) (seed : W64) (row p : Nat) : Nat × Bool :=
  let v := survivors x.chain (rowTokens x row)
  (drawFrom (isGreedy x.chain) x.desc.shards.length seed p v.1, v.2)
/-- An end token of the chain (R426), or none. -/
def isEnd (chain : List (List W64)) (y : Nat) : Bool :=
  let w := scbW (terminalOf chain) 6
  y != noToken && (y == (lo32 w).toNat || y == (hi32 w).toNat)

/-! ## Verification and the output record (R431, R432) -/

/-- The parent of node n: the highest set bit of ANC_n below n. -/
def parentOf (m : MaskBlk) (n : Nat) : Option Nat := ((List.range n).filter fun k => (m.anc.getD n 0).getLsbD k).getLast?
/-- The walk of VERIFY from node n: tokens with the accepted nodes, and TRUNC. -/
def verifyFrom (x : Samp) (m : MaskBlk) (drafts : List Nat) (seed : W64) (fuel n : Nat) : List (Nat × Nat) × Bool :=
  match fuel with
  | 0 => ([], false)
  | k + 1 =>
    let d := drawRow x seed n (m.pos.getD n 0 + 1)
    let child := (List.range m.nnode).find? fun c => parentOf m c == some n && drafts.getD c noToken == d.1
    if d.1 = noToken || isEnd x.chain d.1 then ([(d.1, 0x7F)], d.2)
    else match child with
      | none => ([(d.1, 0x7F)], d.2)
      | some c =>
        let r := verifyFrom x m drafts seed k c
        ((d.1, c) :: r.1, d.2 || r.2)
/-- Word 0 of an output record. -/
def outputWord (x : Samp) (ents : List (Nat × Nat)) (trunc : Bool) : Nat :=
  let last := (ents.getLastD (noToken, 0)).1
  let status := if last = noToken then 1 else if isEnd x.chain last then 2 else 0
  ents.length + 2 ^ 8 * (ents.length - 1) + 2 ^ 16 * status + 2 ^ 20 * trunc.toNat + 2 ^ 21 * x.nanseen.toNat
    + 2 ^ 22 * (isGreedy x.chain).toNat
/-- The merge of a node whose shards have all reported. -/
def mergeSample (s : State) (x : Samp) (n : GNode) (r : Region) : State :=
  let s1 := { s with samps := s.samps.erase x }
  let bad (st : Nat) (a : W64) : State := finishNode (failNode s1 n.rid st a) n.nid
  match readSrec s r.asid r.gen x.srec with
  | .error _ => bad stFault x.srec
  | .ok q =>
    let t := terminalOf x.chain
    if scbStage t = 5 then
      let d := drawRow x q.seed 0 (x.desc.rootpos + 1)
      putOutput s1 n r (outputWord x [(d.1, 0x7F)] d.2) x.desc.rootpos [(d.1, 0x7F)]
    else match verifyMask s r.asid r.gen x.desc (scbW t 2) with
      | .error e => bad e.1 e.2
      | .ok m => match words32 s r.asid r.gen (scbW t 3) m.nnode with
        | .error _ => bad stFault (scbW t 3)
        | .ok ds =>
          let v := verifyFrom x m ds q.seed 64 0
          putOutput s1 n r (outputWord x v.1 v.2) x.desc.rootpos v.1
/-- R428. -/
def execSamplerMerge (s : State) : Out :=
  match s.samps.find? (·.nid == s.sub.a), s.node? s.sub.a with
  | some x, some n => match s.region? n.rid with
    | none => .refused (.noSubject "no such region")
    | some r =>
      if x.shards.length < x.desc.shards.length then .refused (.noSubject "a shard has not reported")
      else .next (mergeSample s x n r)
  | _, _ => .refused (.noSubject "no such SAMPLE node")

/-! ## The commit by the loop core (R434) -/

/-- The region whose interrupt the commit answers has completed with a status other than OK or DEGRADED: the last iteration of
the VI, or the region that admitted the stream. -/
def badRegion (s : State) (vi : Nat) (srec : W64) (slot : Option Nat) : Bool :=
  let mine := s.regions.filter fun r => r.vi == vi && r.completed && (match r.origin with
    | .accept a _ _ => slot.isNone && a == srec
    | .iterate _ _ ls => slot.isSome && (ls == [] || ls.contains srec)
    | _ => false)
  match mine.getLast? with
  | some r => 1 < finalStatus r
  | none => false
/-- Clear a batch-table entry: inactive, under a new even version (R59). -/
def clearBatch (s : State) (vi asid slot : Nat) : State :=
  let a := (s.vi vi).btbase + natW (32 * slot)
  match hubNat s asid (genOf s asid) a 4 with
  | .error _ => s
  | .ok v => hubPut s asid (genOf s asid) a 32 ((v / 2 * 2 + 2) % 2 ^ 32)
/-- No HANDOFF node of a stream has started in the region that its last ADMIT started (R77). -/
def noHandoffYet (s : State) (srec : W64) : Bool :=
  match (s.regions.filter fun r => match r.origin with | .accept a _ _ => a == srec | _ => false).getLast? with
  | none => true
  | some r => !s.nodes.any fun n => n.rid == r.rid && nodeKind n.words == 0x16 && n.w 2 == srec && n.st != .ready
/-- Steps 5 to 7: the end of generation, the PREFILL stream without a hand-off, CANCEL, the batch table. -/
def commitState (s : State) (vi asid : Nat) (srec : W64) (ended : Bool) (slot : Option Nat) : State :=
  match readSrec s asid (genOf s asid) srec with
  | .error _ => s
  | .ok q =>
    let done (noCancel : Bool) : State :=
      ((transit s asid (genOf s asid) srec q ssDone q.owner q.sgen noCancel).map fun t => freeEverywhere t asid srec q).getD
        (dropTransit s asid srec)
    let s1 :=
      if ended && q.state = ssDecode then done false
      else if ended && q.state = ssPrefill then done true
      else if q.state = ssPrefill && noHandoffYet s srec then toFaulted s asid srec q
      else s
    match readSrec s1 asid (genOf s1 asid) srec with
    | .error _ => s1
    | .ok q1 =>
      let s2 := if q1.cancel && (q1.state = ssDecode || q1.state = ssPrefill) then toCancelled s1 asid srec q1 else s1
      match slot, readSrec s2 asid (genOf s2 asid) srec with
      | some k, .ok q2 => if ssDone ≤ q2.state && q2.state ≤ ssFaulted then clearBatch s2 vi asid k else s2
      | _, _ => s2
/-- The chain of the SAMPLE node that wrote an output record for a stream: K1, or the record's SCB word (R423). -/
def chainOf (s : State) (srec rec : W64) (q : Srec) : W64 :=
  match (s.nodes.filter fun n => nodeKind n.words == 0x15 && n.w 2 == srec && n.w 5 == rec).getLast? with
  | some n => if n.w 3 = 0 then q.scb else n.w 3
  | none => q.scb
/-- R434: the firmware commits stream x of VI a from the output record at y. TOKS and the end tokens are those of the chain that the
SAMPLE node used (log entry 130). -/
def execLoopCoreCommit (s : State) : Out :=
  let asid := (s.vi s.sub.a).asidbase
  let g := genOf s asid
  match readSrec s asid g s.sub.x, hubNat s asid g s.sub.y 64 with
  | .ok q, .ok hd =>
    if s.pkg.phase != .ready then .refused (.noSubject "the loop core does not run")
    else if nbits hd 16 3 = 3 || badRegion s s.sub.a s.sub.x s.sub.opt then .next s
    else match readChain s asid g 7 (chainOf s s.sub.x s.sub.y q) none, hubNat s asid g (s.sub.y + 64) (8 * nbits hd 0 7) with
      | .ok chain, .ok es =>
        let n := min (nbits hd 0 7) (q.maxtok - q.gentok)
        let toks := (List.range n).map fun k => nbits es (64 * k) 32
        let root := nbits hd 64 32
        let s1 := hubPut s asid g (scbW (terminalOf chain) 7 + natW (4 * (root + 1))) (4 * n)
          (toks.foldr (fun t acc => t + 2 ^ 32 * acc) 0)
        let s2 := hubPut s1 asid g (s.sub.x + 40) 8 (q.prompt + 2 ^ 32 * ((root + nbits hd 8 6 + 1) % 2 ^ 32))
        let s3 := hubPut s2 asid g (s.sub.x + 48) 8 (q.maxtok + 2 ^ 32 * (q.gentok + n))
        let s4 := match readSrec s3 asid g s.sub.x with | .ok q1 => applyWindow s3 asid q1 | .error _ => s3
        let st := nbits hd 16 3
        let ended := q.gentok + n = q.maxtok || st = 1 || st = 2 || toks.any (isEnd chain)
        .next (commitState s4 s.sub.a asid s.sub.x ended s.sub.opt)
      | _, _ => .refused (.noSubject "the record or the chain cannot be read")
  | _, _ => .refused (.noSubject "no stream record or output record")

end Sys2Proof.Machine
end

