-- ==== Sys2Proof/Machine/Interfaces.lean ====
section
/-! DEFINITION. Virtual interfaces: enabling and disabling (R53, R54), the registers of the configuration block and of the VI page
(R56, R302, R358, R396), work queues, the batch table and its snapshot (R57 to R63), token queues (R72), and the commands of the
VI page (R302). -/

namespace Sys2Proof.Machine

/-! ## The registers of a VI (R53, R56, R443) -/

/-- The package is READY: registers take writes (R443). -/
def pkgReady (s : State) : Bool := s.pkg.phase == .ready
/-- The reply to a read that changes the state. -/
def State.reply (s : State) (kind : Nat) (ws : List W64) : State := { s with replies := s.replies ++ [⟨kind, ws⟩] }
/-- A write to a register of VI n, which takes effect in READY. -/
def viWrite (s : State) (n : Nat) (k : Vi → State) : Out :=
  if 64 ≤ n then .refused (.noSubject "no such virtual interface")
  else if !pkgReady s then .next s
  else .next (k (s.vi n))

/-- Two ranges share no element. -/
def rangesApart (a n b m : Nat) : Bool := n == 0 || m == 0 || a + n ≤ b || b + m ≤ a
/-- The conditions under which EN takes 1 (R53, R448). -/
def mayEnable (s : State) (n : Nat) : Bool :=
  let v := s.vi n
  let on := (s.vis.filter fun x => x.1 != n && x.2.en).map (·.2)
  v.asidbase + v.asidn ≤ 4096 && v.tqbase + v.tqn ≤ 64 && s.pkg.lcs != 3
    && (on.all fun w => rangesApart v.asidbase v.asidn w.asidbase w.asidn && rangesApart v.tqbase v.tqn w.tqbase w.tqn)
    && on.foldl (fun k w => k + w.mincores) v.mincores ≤ 2560
/-- R53: a write that sets EN. -/
def execViEnable (s : State) : Out :=
  viWrite s s.sub.a fun v => if v.en || !mayEnable s s.sub.a then s else s.setVi s.sub.a { v with en := true }
/-- R53: a write of STOP; none is taken while a disable is in progress (R54). -/
def execViStop (s : State) : Out :=
  viWrite s s.sub.a fun v => if v.disabling then s else s.setVi s.sub.a { v with stop := s.sub.p }

/-- A write to a field of the configuration block other than EN and STOP (R53). -/
def cfgField (v : Vi) (off : Nat) (x : W64) : Vi :=
  match off with
  | 0x08 => { v with asidbase := bitsOf x 0 12, asidn := bitsOf x 16 13 }
  | 0x10 => { v with cores := bitsOf x 0 16, mincores := bitsOf x 16 16, bvc := bitsOf x 32 16 }
  | 0x18 => { v with lease := bitsOf x 0 11, bw := bitsOf x 16 11, priomax := bitsOf x 32 4 }
  | 0x20 => { v with scratch := bitsOf x 0 32 }
  | 0x28 => { v with tqbase := bitsOf x 0 6, tqn := bitsOf x 8 7 }
  | _ => v
/-- The queue settings of offset 0x020 (R56). -/
def wqConfig (v : Vi) (x : W64) : Vi :=
  { v with wq := Vector.ofFn fun k : Fin 4 =>
      { v.wq.getD k.val WorkQ.zero with log2n := bitsOf x (8 * k.val) 5, en := bitAt x (8 * k.val + 7) } }
/-- A page command refused at once: GO with OP 0, 6 or 7 (R302). -/
def badCommand (x : W64) : Bool := bitAt x 31 && (bitsOf x 16 3 == 0 || 6 ≤ bitsOf x 16 3)
/-- A write to a register of the VI page that stores its fields (R56, R302, R396). -/
def pageField (v : Vi) (off : Nat) (x : W64) : Vi :=
  match off with
  | 0x020 => wqConfig v x
  | 0x088 => { v with btbase := x }
  | 0x090 => { v with btn := bitsOf x 0 11 }
  | 0x0C0 => { v with cmdAsid := BitVec.ofNat 12 (bitsOf x 0 12), cmdOp := BitVec.ofNat 3 (bitsOf x 16 3),
                      cmdErr := v.cmdErr || (badCommand x && !v.cmdBusy) }
  | 0x0C8 => { v with arg := x }
  | 0x310 => { v with trapbase := x }
  | 0x318 => { v with trapn := bitsOf x 0 16, trapcnt := BitVec.ofNat 64 (bitsOf x 32 16) }
  | 0x328 => { v with wdlim := BitVec.ofNat 16 (bitsOf x 0 16) }
  | _ =>
    if off < 0x020 && off % 8 = 0 then
      { v with wq := v.wq.setIfInBounds (off / 8) { v.wq.getD (off / 8) WorkQ.zero with base := x } }
    else v
/-- The device step that GO starts (R302). -/
def pageCommand (n : Nat) (x : W64) : List Todo :=
  if !bitAt x 31 then []
  else match bitsOf x 16 3 with
    | 1 => [.event .viTlbInvalidateAll { a := n }]
    | 2 => [.event .viTlbInvalidatePage { a := n }]
    | 3 => [.event .viGenAdvance { a := n }]
    | 4 => [.event .viGenAdvanceRoot { a := n }]
    | 5 => [.event .viProbe { a := n }]
    | _ => []
/-- A write to a register of the administrative page that stores its fields: the configuration blocks and the retention
registers (R53, R303, R447). -/
def adminField (s : State) (off : Nat) (x : W64) : State :=
  if 0x2000 ≤ off && off < 0x3000 then
    let n := (off - 0x2000) / 64
    let v := s.vi n
    if v.en then s else s.setVi n (cfgField v (off % 64) x)
  else if 0x8000 ≤ off && off < 0xC000 && off % 8 = 0 then
    let w := (off - 0x8000) / 8
    s.setVault w { s.vault w with retidle := BitVec.ofNat 16 (bitsOf x 0 16) }
  else s
/-- R56, R6, R443: a write to a register with no behaviour of its own; reserved bits and read-only fields take nothing. GO latches OP, ASID
and ARG and makes the page busy (R302). -/
def execRegisterWrite (s : State) : Out :=
  if !pkgReady s then .next s
  else match s.sub.opt with
    | none => .next (adminField s s.sub.a s.sub.x)
    | some n =>
      if 64 ≤ n then .refused (.noSubject "no such virtual interface")
      else
        let v := pageField (s.vi n) s.sub.a s.sub.x
        let todo := if s.sub.a = 0x0C0 && !(s.vi n).cmdBusy then pageCommand n s.sub.x else []
        if todo = [] then .next (s.setVi n v)
        else .next { s.setVi n { v with cmdBusy := true, cmdRun := some (v.cmdOp.toNat, v.cmdAsid.toNat, v.arg) } with agenda := todo ++ s.agenda }

/-- A read of a register of VI n that the read clears; before READY it reads zero (R443). -/
def viClear (s : State) (n kind : Nat) (w : Vi → W64) (clear : Vi → Vi) : Out :=
  if 64 ≤ n then .refused (.noSubject "no such virtual interface")
  else .next (if pkgReady s then (s.setVi n (clear (s.vi n))).reply kind [w (s.vi n)] else s.reply kind [0])
/-- R56: a read of WQERR. -/
def execWqerrRead (s : State) : Out := viClear s s.sub.a 1 (·.wqerr) fun v => { v with wqerr := 0 }
/-- R396: a read of TRAPLOST. -/
def execTraplostRead (s : State) : Out := viClear s s.sub.a 2 (·.traplost &&& 0xFFFFFFFF) fun v => { v with traplost := 0 }
/-- R396: a read of DEGCNT. -/
def execDegcntRead (s : State) : Out := viClear s s.sub.a 3 (·.degcnt &&& 0xFFFFFFFF) fun v => { v with degcnt := 0 }
/-- R396: a write to the save-slot registers, which takes effect only while no slot holds a saved iteration. -/
def execSaveSlotConfigWrite (s : State) : Out :=
  viWrite s s.sub.a fun v =>
    if v.saveuse != 0 then s
    else match s.sub.b with
      | 0x300 => s.setVi s.sub.a { v with savebase := s.sub.x }
      | 0x308 => s.setVi s.sub.a { v with saven := bitsOf s.sub.x 0 16, savesz := bitsOf s.sub.x 16 16 }
      | _ => s

/-! ## Token queues (R56, R72) -/

/-- R56: a write of DEPTH_l; below the entries held, or past the VI's queues, it is ignored. A depth of 257 to 511, which the field can hold
beyond its range and the 256 entries of R18, is stored and used as the capacity: the spec does not say (DESIGN CHOICE, log entry 112). -/
def execTokenQueueDepthWrite (s : State) : Out :=
  viWrite s s.sub.a fun v =>
    let n := s.sub.c % 512
    if v.tqn ≤ s.sub.b || n < (Tab.get [] s.tqs (v.tqbase + s.sub.b)).length then s
    else s.setVi s.sub.a { v with depth := Tab.put 0 v.depth s.sub.b n }
/-- R72: a write of 1 to FLUSH_l. -/
def execTokenQueueFlush (s : State) : Out :=
  viWrite s s.sub.a fun v =>
    if v.tqn ≤ s.sub.b then s else { s with tqs := Tab.put [] s.tqs (v.tqbase + s.sub.b) [] }

/-! ## Work queues (R57, R58) -/

/-- The errors of WQERR (R57, R58). -/
def weOverflow : Nat := 1
def weBad : Nat := 2
def weRoot : Nat := 3
def weRecord : Nat := 4
def weFault : Nat := 5
/-- Record a failure of a queue; an earlier one stands until it is read (R58). -/
def wqFail (v : Vi) (k code : Nat) (entry : W32) : Vi :=
  if bitAt v.wqerr 63 then v else { v with wqerr := natW (k + 2 ^ 8 * code + 2 ^ 16 * entry.toNat + 2 ^ 63) }
/-- A work queue of a VI. -/
def Vi.queue (v : Vi) (k : Nat) : WorkQ := v.wq.getD k WorkQ.zero
/-- Change a work queue. -/
def Vi.setQueue (v : Vi) (k : Nat) (q : WorkQ) : Vi := { v with wq := v.wq.setIfInBounds k q }
/-- The queue serves entries: enabled, with a legal size (R56). -/
def WorkQ.live (q : WorkQ) : Bool := q.en && 4 ≤ q.log2n && q.log2n ≤ 16
/-- The entries of a queue that have not started are abandoned: none is left between head and tail (R54, R57; that the head moves up to the
tail is log entry 115). -/
def WorkQ.abandon (q : WorkQ) : WorkQ := { q with en := false, head := q.tail }
/-- R57: a write of WQTAIL_k. One that exceeds the ring clears WQEN_k, abandons the entries and records error 1, with an entry index that
the spec does not give. -/
def execWqTailWrite (s : State) : Out :=
  if 4 ≤ s.sub.b then .refused (.noSubject "no such work queue")
  else viWrite s s.sub.a fun v =>
    let q := { v.queue s.sub.b with tail := lo32 s.sub.x }
    if 2 ^ q.log2n < (q.tail - q.head).toNat then
      let v1 := wqFail (v.setQueue s.sub.b q.abandon) s.sub.b weOverflow ((Config.freeBits s.fresh 0).setWidth 32)
      { s.setVi s.sub.a v1 with fresh := s.fresh + 1 }
    else s.setVi s.sub.a (v.setQueue s.sub.b q)

/-- The address space in which the hub reaches a VI's queues and batch table: its first one (log entry 40). -/
def queueSpace (s : State) (vi : Nat) : Nat := (s.vi vi).asidbase
/-- The head entry of a queue as its eight words; none when it cannot be read. -/
def headEntry (s : State) (vi k : Nat) : Option (List W64) :=
  let q := (s.vi vi).queue k
  let asid := queueSpace s vi
  match hubNat s asid (genOf s asid) (q.base + natW (64 * (q.head.toNat % 2 ^ q.log2n))) 64 with
  | .ok v => some (eightWords v)
  | .error _ => none
/-- An iteration of a control block is in flight in a VI (R62). -/
def iterating (s : State) (vi : Nat) (rcb : W64) : Bool :=
  s.regions.any fun r => r.vi == vi && r.va == rcb && !r.completed && (match r.origin with | .iterate _ _ _ => true | _ => false)
/-- The head of a queue has to wait (R62), or there is none. -/
def headWaits (s : State) (vi k : Nat) : Bool :=
  let q := (s.vi vi).queue k
  !q.live || q.head == q.tail || (match headEntry s vi k with
    | some e => bitsOf (e.getD 0 0) 0 8 == 3 && iterating s vi (e.getD 1 0)
    | none => false)
/-- Queue k has the turn: it is the first of the VI's queues, round robin, whose head need not wait (R57). -/
def wqTurn (s : State) (vi k : Nat) : Bool :=
  (((List.range 4).map fun j => ((s.vi vi).turn + j) % 4).find? fun j => !headWaits s vi j) == some k
/-- The entry has been taken: the head advances and the turn passes (R57). -/
def takeEntry (s : State) (vi k : Nat) : State :=
  let v := s.vi vi
  let q := v.queue k
  s.setVi vi { v.setQueue k { q with head := q.head + 1 } with turn := (k + 1) % 4 }
/-- The entry fails: it is recorded and has no other effect (R58). -/
def failEntry (s : State) (vi k code : Nat) : State :=
  takeEntry (s.setVi vi (wqFail (s.vi vi) k code ((s.vi vi).queue k).head)) vi k
/-- The root region of a VI. -/
def rootOf (s : State) (vi : Nat) : Option Region := if (s.vi vi).rootact then (s.vi vi).root.bind s.region? else none
/-- Words 4 to 7 of an entry and the bits of word 0 above OP are zero. -/
def entryRest (e : List W64) : Bool := bitsOf (e.getD 0 0) 8 56 == 0 && (e.drop 4).all (· == 0)
/-- The head of queue b of VI a is served: it fails when it cannot be read, or it is of the kind that the step acts on. -/
def serveHead (s : State) (kind : Nat → Bool) (act : Nat → Nat → List W64 → Out) : Out :=
  let vi := s.sub.a
  let k := s.sub.b
  if !viOn s vi || !pkgReady s || 4 ≤ k || !wqTurn s vi k then .refused (.noSubject "no entry of this queue is served now")
  else match headEntry s vi k with
    | none => .next (failEntry s vi k weFault)
    | some e => if kind (bitsOf (e.getD 0 0) 0 8) then act vi k e else .refused (.noSubject "the entry is of another kind")
/-- R58: a NOP, or an entry with a code that names no action. -/
def execWqNop (s : State) : Out :=
  serveHead s (fun op => op == 0 || 4 ≤ op) fun vi k e =>
    .next (if e.all (· == 0) then takeEntry s vi k else failEntry s vi k weBad)
/-- Start a region that an entry names under the root. -/
def startUnder (s : State) (root : Region) (va : W64) (o : Origin) : State :=
  addRegion s (newRegion s.nextId va (some root.rid) (root.depth + 1) root.vi o root.asid root.gen s.nextId 1)
/-- The hub can read n bytes. -/
def hubReads (s : State) (asid : Nat) (gen : BitVec 16) (va : W64) (n : Nat) : Bool :=
  match hubNat s asid gen va n with
  | .ok _ => true
  | .error _ => false
/-- R58: START. -/
def execWqStart (s : State) : Out :=
  serveHead s (· == 1) fun vi k e =>
    let va := e.getD 1 0
    let asRoot := bitAt (e.getD 2 0) 0
    let v := s.vi vi
    if !entryRest e || bitsOf (e.getD 2 0) 1 63 != 0 || e.getD 3 0 != 0 || !ptrOk 128 va then .next (failEntry s vi k weBad)
    else if asRoot == v.rootact then .next (failEntry s vi k weRoot)
    else if asRoot then
      let asid := queueSpace s vi
      if !hubReads s asid (genOf s asid) va 128 then .next (failEntry s vi k weFault)
      else
        let s1 := takeEntry s vi k
        let rid := s1.nextId
        let s2 := addRegion s1 (newRegion rid va none 0 vi .root asid (genOf s asid) rid 1)
        .next (s2.setVi vi { s2.vi vi with rootact := true, root := some rid })
    else match rootOf s vi with
      | none => .next (failEntry s vi k weRoot)
      | some r =>
        if !r.started && r.status = 0 then .next s.block
        else if !hubReads s r.asid r.gen va 128 then .next (failEntry s vi k weFault)
        else .next (startUnder (takeEntry s vi k) r va .child)
/-- R58: ADMIT. -/
def execWqAdmit (s : State) : Out :=
  serveHead s (· == 2) fun vi k e =>
    let a := e.getD 1 0
    if !entryRest e || bitsOf (e.getD 2 0) 0 16 != 0 || bitsOf (e.getD 2 0) 25 39 != 0 || e.getD 3 0 != 0 || !ptrOk 128 a then
      .next (failEntry s vi k weBad)
    else match rootOf s vi with
      | none => .next (failEntry s vi k weRoot)
      | some r =>
        if !r.started && r.status = 0 then .next s.block
        else match hubNat s r.asid r.gen a 128 with
          | .error _ => .next (failEntry s vi k weFault)
          | .ok v =>
            let q := srecOf v
            if q.kind != 0x30 || q.vi != vi || q.state != ssQueued || !recordOk v then .next (failEntry s vi k weRecord)
            else if !hubReads s r.asid r.gen q.region 128 then .next (failEntry s vi k weFault)
            else .next (startUnder (takeEntry s vi k) r q.region (.accept a (bitAt (e.getD 2 0) 24) (bitsOf (e.getD 2 0) 16 8)))

/-! ## The batch table and its snapshot (R59 to R63) -/

/-- A copy of a batch-table entry is valid (R60); a record that cannot be read names no stream of this VI. -/
def batchValid (s : State) (vi asid : Nat) (gen : BitVec 16) (v : Nat) : Bool :=
  let stream := natW (nword v 1)
  nbits v 33 7 == 0 && nbits v 48 16 == 0 && nword v 3 == 0 && nbits v 40 8 ≤ 64
    && (nbits v 32 1 == 0 || (stream != 0 && (match readSrec s asid gen stream with | .ok q => q.vi == vi | .error _ => false)))
/-- Take entry i (R60): the VI's copies and counters, and the entries not taken: those whose VERSION is odd, and those that the subject
names as changed between the two reads of VERSION. None when the entry cannot be read. -/
def takeBatch (s : State) (vi : Nat) (r : Region) (i : Nat) (v : Vi) (torn : Nat) : Option (Vi × Nat) :=
  let asid := queueSpace s vi
  match hubNat s asid (genOf s asid) (v.btbase + natW (32 * i)) 32 with
  | .error _ => none
  | .ok x =>
    if x % 2 = 1 || s.sub.torn.contains i then some ({ v with torncnt := v.torncnt + 1 }, torn + 1)
    else if batchValid s vi r.asid r.gen x then
      some ({ v with batch := Tab.put Batch.zero v.batch i ⟨nbits x 32 1 == 1, nbits x 40 8, natW (nword x 1), natW (nword x 2)⟩ }, torn)
    else some ({ v with badcnt := v.badcnt + 1 }, torn)
/-- The n entries from number i on. -/
def takeBatches (s : State) (vi : Nat) (r : Region) (n i : Nat) (v : Vi) (torn : Nat) : Option (Vi × Nat) :=
  match n with
  | 0 => some (v, torn)
  | k + 1 => match takeBatch s vi r i v torn with
    | none => none
    | some x => takeBatches s vi r k (i + 1) x.1 x.2
/-- An entry of the snapshot (R61); none when its record cannot be read. -/
def snapEntry (s : State) (r : Region) (i : Nat) (b : Batch) : Option Nat :=
  match readSrec s r.asid r.gen b.stream with
  | .error _ => none
  | .ok q => some (i + 2 ^ 40 * b.ndraft + 2 ^ 64 * b.stream.toNat + 2 ^ 128 * (q.pos + 2 ^ 32 * q.gentok) + 2 ^ 192 * b.user.toNat)
/-- The value of a list of 256-bit entries. -/
def entriesNat (xs : List Nat) : Nat := xs.foldr (fun x acc => x + 2 ^ 256 * acc) 0
/-- The snapshot that an ITERATE entry takes (R60, R61), CANCEL of the streams it lists having been sampled (R78), and those streams; none
on a fault. A BTN above 1,024, which the field can hold, counts as 1,024: the spec does not say (DESIGN CHOICE, log entry 112). -/
def snapshot (s0 : State) (vi : Nat) (r : Region) (buf : W64) : Option (State × List W64) :=
  match takeBatches s0 vi r (min 1024 (s0.vi vi).btn) 0 (s0.vi vi) 0 with
  | none => none
  | some (v, torn) =>
    let act := v.batch.filter fun b => b.2.active && b.1 < v.btn
    let s := act.foldl (fun s b => sampleListed s vi r.asid b.2.stream) s0
    let ents := act.map fun b => snapEntry s r b.1 b.2
    if ents.any (·.isNone) then none
    else
      let n := ents.length
      let head := v.iter.toNat + 2 ^ 64 * (n + 2 ^ 16 * torn)
      match agentPut s hubDie r.asid r.gen buf (64 + 32 * n) (head + 2 ^ 512 * entriesNat (ents.map (·.getD 0))) with
      | .error _ => none
      | .ok t => some (t.setVi vi v, act.map fun b => b.2.stream)
/-- R63: ITERATE. -/
def execWqIterate (s : State) : Out :=
  serveHead s (· == 3) fun vi k e =>
    let va := e.getD 1 0
    let buf := e.getD 3 0
    if !entryRest e || bitsOf (e.getD 2 0) 0 16 != 0 || bitsOf (e.getD 2 0) 25 39 != 0 || !ptrOk 128 va || !ptrOk 64 buf then
      .next (failEntry s vi k weBad)
    else match rootOf s vi with
      | none => .next (failEntry s vi k weRoot)
      | some r =>
        if !r.started && r.status = 0 then .next s.block
        else if !hubReads s r.asid r.gen va 128 then .next (failEntry s vi k weFault)
        else match if buf = 0 then some (s, []) else snapshot s vi r buf with
          | none => .next (failEntry s vi k weFault)
          | some t => .next (startUnder (takeEntry t.1 vi k) r va (.iterate (bitAt (e.getD 2 0) 24) (bitsOf (e.getD 2 0) 16 8) t.2))

/-! ## Disabling (R54) -/

/-- A trap of a cause that no instruction raises: no line is offending, so LINE is a free value (R393, R395). -/
def outsideTrap (s : State) (cause : Nat) : TrapInfo := ⟨cause, Config.freeBits s.fresh 0, 0, 0, 0, 0, false⟩
/-- A saved iteration ends without coming back: its trap record is written and its slot is free (R54, R416). -/
def endSaved (s : State) (v : Saved) (cause : Nat) : State :=
  let s0 := dropSaved s v
  let s1 := writeTrap { s0 with cx := v.ctx, parked := s0.ctxs } (outsideTrap s0 cause) false
  let s2 := { s1 with cx := s0.cx, parked := s0.parked }
  failNode (s2.updNode v.ctx.it.nid fun n => { n with exited := n.exited + 1 }) v.ctx.it.rid 3 v.ctx.it.nodeVa
/-- A running iteration is to end with a cause (R394). -/
def raiseIn (s : State) (cause : Nat) (id : CtxId) : State :=
  asCtx { s with fresh := s.fresh + 1 } id fun t => takeTrap t (outsideTrap s cause)
/-- Steps 1 and 2 of R54: the queues stop, the regions start nothing more, and the iterations are to end. -/
def beginDisable (s : State) (vi : Nat) : State :=
  let v := s.vi vi
  let s1 := s.setVi vi { v with disabling := true, wq := v.wq.map WorkQ.abandon }
  let s2 := ((s1.regions.filter fun r => r.vi == vi && !r.completed).map (·.rid)).foldl (fun s rid => stopGraph s rid 6 0) s1
  let s3 := ((s2.running.filter fun c => c.it.vi == vi).map (·.id)).foldl (fun s id => raiseIn s tcDisabled id) s2
  (s3.saved.filter fun x => x.vi == vi).foldl (fun s x => endSaved s x tcDisabled) s3
/-- The records that ADMIT entries of a VI have named, with their address spaces. -/
def admitted (s : State) (vi : Nat) : List (Nat × W64) :=
  ((s.regions.filter fun r => r.vi == vi).filterMap fun r => match r.origin with
    | .accept a _ _ => some (r.asid, a)
    | _ => none).dedup
/-- The hand-offs of a VI whose Twilight engines have not gone through steps 1 to 3 of R88. -/
def handoffsOf (s : State) (vi : Nat) : List TwJob := s.tw.filter fun j => j.vi == vi && !j.committed && !j.freed
/-- The engines of the hand-offs of a VI issue no further pull (R88 step 1). -/
def stopHandoffs (s : State) (vi : Nat) : State :=
  (handoffsOf s vi).foldl (fun s j => match readSrec s j.asid (genOf s j.asid) j.srec with
    | .ok q => cancelHandoff s j.srec q
    | .error _ => dropJob s j.srec) s
/-- Step 3: a stream of the VI is FAULTED, every copy of its blocks is freed. -/
def faultStream (s : State) (x : Nat × W64) : State :=
  match readSrec s x.1 (genOf s x.1) x.2 with
  | .error _ => s
  | .ok q => if q.state ≤ ssDecode then toFaulted s x.1 x.2 q else s
/-- Step 4: the regions of the VI complete, children before their parents. -/
def completeAll (s : State) (vi : Nat) : State :=
  let at' (d : Nat) (s : State) : State :=
    (s.regions.filter fun r => r.vi == vi && !r.completed && r.depth == d).foldl (fun s r => completeRegion s ((s.region? r.rid).getD r)) s
  [7, 6, 5, 4, 3, 2, 1, 0].foldl (fun s d => at' d s) s
/-- A node of one of the regions. -/
def inRegions (rids : List Nat) (n : GNode) : Bool := rids.contains n.rid
/-- The nodes of completed regions have nothing more to do. -/
def closeNode (rids : List Nat) (n : GNode) : GNode := if inRegions rids n then { n with st := .done } else n
/-- Steps 3 to 6 of R54, once no iteration of the VI runs. -/
def endDisable (s : State) (vi : Nat) : State :=
  let s1 := completeAll ((admitted s vi).foldl faultStream s) vi
  let mine := (s1.regions.filter fun r => r.vi == vi).map (·.rid)
  let v := s1.vi vi
  let s2 := { s1 with
    nodes := s1.nodes.map (closeNode mine), samps := s1.samps.filter (fun x => !(s1.node? x.nid).any (inRegions mine))
    tqs := s1.tqs.filter (fun q => !(v.tqbase ≤ q.1 && q.1 < v.tqbase + v.tqn))
    shadows := s1.shadows.filter fun h => h.vi != vi }
  s2.setVi vi { v with en := false, disabling := false, rootact := false, root := none, batch := [] }
/-- R54: a write of 0 to EN begins the disable; once the iterations have ended, the Twilight engines act as in steps 1 to 3 of R88, and when
they have, it is completed. -/
def execViDisable (s : State) : Out :=
  let v := s.vi s.sub.a
  if 64 ≤ s.sub.a then .refused (.noSubject "no such virtual interface")
  else if !v.en || !pkgReady s then .next s
  else if !v.disabling then .next (beginDisable s s.sub.a)
  else if s.running.any fun c => c.it.vi == s.sub.a then .next s.block
  else if (handoffsOf s s.sub.a).any fun j => !j.cancelling then .next (stopHandoffs s s.sub.a)
  else if handoffsOf s s.sub.a != [] then .next s.block
  else .next (endDisable s s.sub.a)

/-! ## The commands of the VI page (R302) -/

/-- The command of the page: OP, ASID and ARG as GO found them, else as the registers hold them. -/
def Vi.command (v : Vi) : Nat × Nat × W64 := v.cmdRun.getD (v.cmdOp.toNat, v.cmdAsid.toNat, v.arg)
/-- Start a command of an OP: it is refused when its ASID is not the VI's, or when a check fails; GO is ignored while one is in
progress. -/
def runCommand (s : State) (op : Nat) (ok : W64 → Bool) (act : Vi → Nat → W64 → State) : Out :=
  let v := s.vi s.sub.a
  let c := v.command
  if 64 ≤ s.sub.a || c.1 != op then .refused (.noSubject "the page names no such command")
  else if !pkgReady s || v.cmdFor.isSome then .next s
  else
    let w := { v with cmdBusy := false, cmdRun := none }
    if !ownsAsid v c.2.1 || !ok c.2.2 then .next (s.setVi s.sub.a { w with cmdErr := true })
    else .next (act { w with cmdErr := false } c.2.1 c.2.2)
/-- R302, R299. -/
def execViTlbInvalidateAll (s : State) : Out :=
  runCommand s 1 (fun _ => true) fun v asid _ => dropXlat (s.setVi s.sub.a v) asid fun _ => true
/-- R302, R299. -/
def execViTlbInvalidatePage (s : State) : Out :=
  runCommand s 2 (fun _ => true) fun v asid arg =>
    dropXlat (s.setVi s.sub.a v) asid fun e => e.va ≤ bitsOf arg 0 57 && bitsOf arg 0 57 < e.va + e.size
/-- The advance of the page's command reaches the hub (R301); the page is busy until it has completed. -/
def pageAdvance (s : State) (v : Vi) (asid : Nat) (root : Option W64) : State :=
  (requestAdvance s asid ⟨none, s.sub.a, root⟩).setVi s.sub.a
    { v with cmdBusy := true, cmdFor := some asid, cmdRun := some (if root.isSome then 4 else 3, asid, root.getD 0) }
/-- R302, R297. -/
def execViGenAdvance (s : State) : Out := runCommand s 3 (fun _ => true) fun v asid _ => pageAdvance s v asid none
/-- R302, R297, R301. -/
def execViGenAdvanceRoot (s : State) : Out := runCommand s 4 (rootOk s) fun v asid arg => pageAdvance s v asid (some arg)
/-- R302, R300: a probe as a read, under the current generation. -/
def execViProbe (s : State) : Out :=
  runCommand s 5 (fun _ => true) fun v asid arg =>
    s.setVi s.sub.a { v with res := probe s hubDie 0 asid (genOf s asid) .rd arg }

end Sys2Proof.Machine
end

