-- ==== Sys2Proof/Machine/MemEvents.lean ====
section
/-! DEFINITION. What memory does by itself and on its controllers' registers: walks (R294, R295), generation advances (R297), direct
windows (R287), retention sleep (R303), refresh and its tax (R304, R305, R370), write-combining lines (R307), and the reduction
units (R344 to R347). -/

namespace Sys2Proof.Machine

/-! ## Translation and generations -/

/-- R294, R295: a walk for a request on die a under ASID b, of a context there or of an engine, the scheduler or the request sequencer
for a region of that address space: it fills the die's buffer, for a context also the core's; one that fails leaves no translation, and
its uncorrectable lines mark the request's region. -/
def execPageTableWalk (s : State) : Out :=
  let who : Option (Nat × Option Nat × BitVec 16) :=
    match s.running.find? fun c => c.id.die == s.sub.a && c.it.asid == s.sub.b with
    | some c => some (c.it.rid, some c.id.coreKey, c.it.gen)
    | none => if 7 ≤ s.sub.a then none else (s.regions.find? fun r => r.asid == s.sub.b && !r.completed).map fun r => (r.rid, none, r.gen)
  match who with
  | none => .refused (.noSubject "no request of this address space on the die")
  | some (rid, core, gen) =>
    let va := bitsOf s.sub.x 0 57
    match walk s s.sub.b va with
    | .error e => .next (noteWalk s rid s.sub.b e (natW va))
    | .ok l =>
      if permOk s.sub.kind l.perm then .next (fillCaches s s.sub.a core s.sub.b gen va) else .next s

/-- R297 step 2: a controller or the fabric side adopts the new generation. -/
def execGenerationAdoption (s : State) : Out :=
  let e := s.asid s.sub.b
  if s.sub.a = advanceMark || !e.pending.contains s.sub.a then .refused (.noSubject "nothing to adopt")
  else .next { s with asTab := Tab.put AsEntry.zero s.asTab s.sub.b { e with pending := e.pending.erase s.sub.a } }
/-- What an advance drops (R297 step 3, R347, R349): translations, lines of the instruction caches, replay buffers, the reduction
lines of the old generation, shadow buffers. -/
def dropOld (s : State) (asid : Nat) : State :=
  let g := genOf s asid
  let s1 := dropXlat s asid fun _ => true
  { s1.updCtxs (fun c => c.has && c.it.asid == asid) (fun c => { c with replay := [] }) with
    icache := s1.icache.filter fun l => l.asid != asid
    red := s1.red.filter fun l => !(l.asid == asid && l.gen != g)
    shadows := s1.shadows.filter fun h => h.asid != asid }
/-- The agent that asked for the advance has its result: a ygen, unless its context is ending (R301), or a page command (R302). -/
def answerAdvance (s : State) (asid : Nat) (w : Advance) : State :=
  let g := (genOf s asid).toNat
  match w.ctx with
  | some id => s.updCtxs (fun c => c.id == id) fun c => match c.yfly with
    | some (.gen a n) => if a = asid && n < 65536 then { c with yfly := if c.due.isSome then none else some (.gen a (g + 65536)) } else c
    | _ => c
  | none =>
    let v := s.vi w.vi
    if v.cmdBusy && v.cmdFor = some asid then s.setVi w.vi { v with cmdBusy := false, cmdFor := none, cmdRun := none, res := natW g } else s
/-- A fabric access of the ASID that left under another generation than the current one has not been answered (R297 step 4). -/
def leftOld (s : State) (asid : Nat) : Bool :=
  s.running.any fun c => c.it.asid == asid && c.it.gen != genOf s asid
    && (c.accs.any (fun a => a.go.left.isSome) || (match c.gacc with | some g => g.go.left.isSome && g.st == .waiting | none => false))
/-- R297 steps 3 to 5, once every controller has adopted: the advance that has reached the hub next begins (R301). -/
def execGenerationAdvanceComplete (s : State) : Out :=
  let e := s.asid s.sub.a
  if e.pending != [advanceMark] then .refused (.noSubject "the advance cannot complete")
  else if leftOld s s.sub.a then .next s.block
  else
    let s1 := dropOld s s.sub.a
    let s2 := { s1 with asTab := Tab.put AsEntry.zero s1.asTab s.sub.a { e with pending := [], old := e.gen, queue := e.queue.tail } }
    let s3 := match e.queue with
      | w :: _ => answerAdvance s2 s.sub.a w
      | [] => s2
    .next (match e.queue.tail with
      | w :: _ => startAdvance s3 s.sub.a w.root
      | [] => s3)

/-! ## Vault controllers -/

/-- The named bits of DWIN (R287). -/
def dwinMask : W64 := 0x80000FFF7FFF3FFF
/-- R287. -/
def execDwinWrite (s : State) : Out :=
  if 2048 ≤ s.sub.a then .refused (.noSubject "no such vault")
  else if !pkgReady s || bitsOf s.sub.x 16 15 < bitsOf s.sub.x 0 14 || 16384 < bitsOf s.sub.x 16 15 then .next s
  else .next (s.setVault s.sub.a { s.vault s.sub.a with dwin := s.sub.x &&& dwinMask })
/-- A step of bank b of vault a. -/
def onBank (s : State) (k : BankSt → Out) : Out :=
  if 2048 ≤ s.sub.a || 64 ≤ s.sub.b then .refused (.noSubject "no such bank") else k (s.bank s.sub.a s.sub.b)
/-- R303: no access has reached the bank for RETIDLE x 64 ns, at 1.9 cycles a nanosecond. -/
def execBankRetentionSleep (s : State) : Out :=
  onBank s fun b =>
    let idle := (s.vault s.sub.a).retidle.toNat
    if b.asleep || idle = 0 || (s.cycle - b.last) * 10 < idle * 64 * 19 then .refused (.noSubject "the bank does not fall asleep")
    else .next (s.setBank s.sub.a s.sub.b { b with asleep := true, waking := none })
/-- 120 ns in cycles (R303). -/
def longWake : Nat := 228
/-- An access with its keys waits at bank b of vault w. -/
def waitsAt (w b : Nat) (j : Journey) (r : Except Nat (List Nat)) : Bool :=
  j.arr.isSome && match r with | .ok ks => (banksOf ks).contains (w, b) | .error _ => false
/-- The journeys of the accesses that wait at bank b of vault w. -/
def waitersAt (s : State) (w b : Nat) : List Journey :=
  s.running.flatMap fun c =>
    let u := { s with cx := c }
    (match c.gacc with
      | some g => if g.st == .waiting && waitsAt w b g.go (globResolve u g) then [g.go] else []
      | none => [])
    ++ (c.accs.filter fun a => !a.op.isMark && waitsAt w b a.go (accResolve u a)).map (·.go)
/-- Change the journeys of the accesses of each context that wait at bank b of vault w. -/
def changeWaiters (s : State) (w b : Nat) (f : Ctx → Journey → Journey) : State :=
  s.updCtxs (·.has) fun c =>
    let u := { s with cx := c }
    { c with
      gacc := c.gacc.map fun g => if g.st == .waiting && waitsAt w b g.go (globResolve u g) then { g with go := f c g.go } else g
      accs := c.accs.map fun a => if !a.op.isMark && waitsAt w b a.go (accResolve u a) then { a with go := f c a.go } else a }
/-- An access that has waited 120 ns at a sleeping bank (R303). -/
def overdue (now : Nat) (j : Journey) : Bool := !j.back && match j.arr with | some t => t + longWake ≤ now | none => false
/-- R303: the wake completes, before which every access that has waited 120 ns is returned; the others have waited for a short
wake. -/
def execBankWake (s : State) : Out :=
  onBank s fun b => match b.waking with
    | none => .refused (.noSubject "the bank is not waking")
    | some _ =>
      let ws := waitersAt s s.sub.a s.sub.b
      if ws.any fun j => overdue s.cycle j && j.arr != some (s.cycle - longWake) then .next s.block
      else
        let s1 := changeWaiters s s.sub.a s.sub.b fun _ j => { j with arr := none, back := false }
        let s2 := s1.setBank s.sub.a s.sub.b { b with asleep := false, waking := none, last := s.cycle }
        .next (countWait s2 s.sub.a (ws.filter fun j => !j.back).length)
/-- R303: the controller returns the accesses that have waited 120 ns, and with one of a source every later one of that source to the
bank; their sources issue them again, and they are performed once the bank has woken. -/
def execLongWakeReturn (s : State) : Out :=
  onBank s fun b => match b.waking with
    | none => .refused (.noSubject "the bank is not waking")
    | some _ =>
      if !(waitersAt s s.sub.a s.sub.b).any (overdue s.cycle) then .refused (.noSubject "no access has waited for 120 ns")
      else
        let late (c : Ctx) : Bool := (waitersAt { s with cx := c, parked := [] } s.sub.a s.sub.b).any fun j => j.back || overdue s.cycle j
        let n := (s.running.filter late).foldl (fun n c =>
          n + ((waitersAt { s with cx := c, parked := [] } s.sub.a s.sub.b).filter fun j => !j.back).length) 0
        .next (countReplay (changeWaiters s s.sub.a s.sub.b fun c j => if late c then { j with back := true } else j) s.sub.a n)
/-- The row of R304 of a temperature: 3 is throttled. -/
def thermalRow (t : Nat) : Nat := if t ≤ 85 then 0 else if t ≤ 95 then 1 else if t ≤ 105 then 2 else 3
/-- The upper boundary of a row. -/
def rowLimit (row : Nat) : Nat := 85 + 10 * row
/-- R304: up at once, down one row after 1 ms at least 3 degrees below its boundary. -/
def execThermalSensorRead (s : State) : Out :=
  onBank s fun b =>
    let row := thermalRow s.sub.c
    let rate := if b.rate ≤ row then row else if s.sub.p && s.sub.c + 3 ≤ rowLimit (b.rate - 1) then b.rate - 1 else b.rate
    .next (s.setBank s.sub.a s.sub.b { b with temp := s.sub.c, rate := rate })
/-- R304. -/
def execBankRefresh (s : State) : Out :=
  onBank s fun b => .next (s.setBank s.sub.a s.sub.b { b with refreshed := b.refreshed + 1 })
/-- R305, R370: both measures are replaced in one action at the end of a window; Midnight iterations that the demand has exceeded for two
windows are asked to yield (R372). -/
def execRtaxWindowEnd (s : State) : Out :=
  if 2048 ≤ s.sub.a || s.sub.d = 0 || s.sub.d < s.sub.b || s.sub.d < s.sub.c then .refused (.noSubject "no window of this vault ends so")
  else
    let v := s.vault s.sub.a
    let fgd := min 1024 (1024 * s.sub.c / s.sub.d)
    let s1 := s.setVault s.sub.a { v with rtax := min 255 (256 * s.sub.b / s.sub.d), fgd := fgd, fgdPrev := v.fgd
                                          fgdrun := if v.thr < fgd then min 65535 (v.fgdrun + 1) else 0 }
    .next (askMidnight s1 s.sub.a)
/-- R307: a line is full, or has taken no write for 512 cycles. DRAM and the buffer are one in this model: the line leaves. -/
def execWcLineDrain (s : State) : Out :=
  match s.wc.find? fun l => l.line == s.sub.a with
  | none => .refused (.noSubject "no such line")
  | some l =>
    if l.valid = BitVec.allOnes 64 || l.at' + 512 ≤ s.cycle then .next { s with wc := s.wc.filter fun x => x.line != s.sub.a }
    else .refused (.noSubject "the line does not drain")

/-! ## Reduction units (R344 to R347) -/

/-- A register that holds nothing. -/
def RedReg.empty (word : Nat) : RedReg := ⟨word, 0, false, false, false⟩
/-- Add an FP32 value to a register, exactly (R344). -/
def RedReg.add (r : RedReg) (v : W32) : RedReg :=
  match unpack f32 v.toNat with
  | .nan _ => { r with nan := true }
  | .inf neg => if neg then { r with ninf := true } else { r with pinf := true }
  | .fin neg m e =>
    let i : Int := (m * 2 ^ (e + 149).toNat : Nat)
    { r with r := r.r + BitVec.ofInt 288 (if neg then -i else i) }
/-- A register that opens with the value of its word in memory. -/
def openReg (s : State) (word : Nat) : RedReg := (RedReg.empty word).add (BitVec.ofNat 32 (homeAt s (4 * word) 4))
/-- The open lines that a die's unit holds. -/
def openLines (s : State) (die : Nat) : Nat := (s.red.filter fun l => 64 * l.line / 2 ^ 39 % 8 == die).length
/-- Close the line when another region holds it (R347). -/
def closeOther (s : State) (line rid : Nat) : State :=
  closeWords s ((s.red.filter fun l => l.line == line && l.rid != rid).flatMap fun l => l.regs.map (·.word))
/-- Open a line for a reduction: sixteen registers with the values of their words. -/
def openLine (s : State) (w : RedWait) (line : Nat) : State :=
  { s with red := s.red ++ [⟨line, w.rid, w.asid, w.gen, (List.range 16).map fun k => openReg s (16 * line + k)⟩] }
/-- Add to the register of a word of an open line; a word that was closed opens anew (R346). -/
def addTo (s : State) (word : Nat) (v : W32) : State :=
  { s with red := s.red.map fun l =>
      if l.line = word / 16 then
        { l with regs :=
            if l.regs.any fun r => r.word == word then l.regs.map fun r => if r.word = word then r.add v else r
            else l.regs ++ [(openReg s word).add v] }
      else l }
/-- Accept one addition (R345): none when no line is free. A register that opens reads its word, and an uncorrectable one marks the region
(R308). -/
def acceptAdd (s : State) (w : RedWait) (word : Nat) (v : W32) : Option State :=
  let line := word / 16
  let s1 := closeOther s line w.rid
  if s1.sealed.contains line then some (markDegraded s1 w.rid)
  else if s1.red.any fun l => l.line == line then
    some (addTo (noteBad (touchBanks s1 (keysFrom (4 * word) 4)) w.rid (keysFrom (4 * word) 4)) word v)
  else if 4096 ≤ openLines s1 (64 * line / 2 ^ 39 % 8) then none
  else some (addTo (openLine (noteBad (touchBanks s1 (keysFrom (64 * line) 64)) w.rid (keysFrom (64 * line) 64)) w line) word v)
/-- Change waiting reduction k. -/
def setRed (s : State) (k : Nat) (w : RedWait) : State := { s with redWait := s.redWait.set k w }
/-- The rest of a reduction fails: an addition that reaches its home after the home adopted another generation is rejected (R296, R297),
and one over a link that has gone down ends with an error completion (R23). -/
def rejectRed (s : State) (k : Nat) (w : RedWait) (cause : Nat) (a : W64) : State :=
  (setRed s k { w with adds := [], close := [] }).updCtxs (fun c => c.has && c.id == w.ctx) fun c =>
    pendTrap c ⟨cause, w.line, w.slot, a, 0, streamCode .x, false⟩
/-- Reduction k is over: it leaves its counter. -/
def finishRed (s : State) (k : Nat) (w : RedWait) : State :=
  { s with redWait := s.redWait.eraseIdx k }.updCtxs (fun c => c.has && c.id == w.ctx) fun c => c.finish 2 w.seq
/-- The context of a reduction is to end with a trap. -/
def redEnds (s : State) (w : RedWait) : Bool := s.running.any fun c => c.id == w.ctx && c.due.isSome
/-- The reductions of contexts of a die whose next addition goes to dies that a test names end with error completions. -/
def failReds (s : State) (src : Nat) (t : Nat → Bool) : State :=
  (List.range s.redWait.length).foldl (fun s k => match s.redWait[k]? with
    | some w => match w.adds with
      | p :: _ => if w.ctx.die == src && t (redDie w) then rejectRed s k w tcUnreach p.2.2 else s
      | [] => s
    | none => s) s
/-- R345: the unit of die a takes the next addition of reduction b; after the last one the words that it closes are written and the
instruction completes. An addition that finds the unit full waits; once its context is to end, the rest of the reduction is dropped, so that
the region can complete and close its lines (R347; log entry 116). -/
def execReductionAddition (s : State) : Out :=
  match s.redWait[s.sub.b]? with
  | none => .refused (.noSubject "no such reduction")
  | some w =>
    match w.adds with
    | p :: r =>
      if redDie w != s.sub.a then .refused (.noSubject "the next addition is another unit's")
      else if ctlGen s w.asid (ctlOf s (4 * p.1)) != w.gen then .next (rejectRed s s.sub.b w tcStale p.2.2)
      else if !fabricClear s [4 * p.1] then .next s.block
      else match acceptAdd s w p.1 p.2.1 with
        | none => .next (if redEnds s w then finishRed s s.sub.b w else s.block)
        | some t => .next (setRed t s.sub.b { w with adds := r })
    | [] => .next (finishRed (closeWords s w.close) s.sub.b w)

end Sys2Proof.Machine
end

