-- ==== Sys2Proof/Machine/Package.lean ====
section
/-! DEFINITION. Links, fabric ports, the endpoint and the power manager (R21 to R29, R322, R446), and error completions (R418). -/

namespace Sys2Proof.Machine

/-- Change every entry of a table; defaults are not listed. -/
def Tab.mapAll {α : Type} [DecidableEq α] (d : α) (f : α → α) (t : Tab α) : Tab α :=
  t.filterMap fun x => if f x.2 = d then none else some (x.1, f x.2)

/-! ## Error completions (R418) -/

/-- What names requests: a test of the bytes that one reaches and of how far it has come. -/
abbrev ReqTest := List Nat → Journey → Bool
/-- The focused context's S access, not yet performed, is one that a test names. -/
def globHits (s : State) (t : ReqTest) : Bool :=
  match slotSeeker s .glob 0 with
  | none => false
  | some (ks, j) => t ks j
/-- Access k of the focused context, presented and not yet performed, is one that a test names. -/
def accHits (s : State) (t : ReqTest) (k : Nat) : Bool :=
  match slotSeeker s .load k with
  | none => false
  | some (ks, j) => t ks j
/-- The focused context's requests that a test names receive error completions. -/
def failOwn (s : State) (t : ReqTest) : State :=
  let s1 := match s.cx.gacc with
    | some g => if globHits s t then setGacc s g (.failed tcUnreach) else s
    | none => s
  ((List.range s1.cx.accs.length).reverse.filter (accHits s1 t)).foldl (fun s k => match s.cx.accs[k]? with
    | some a => failAcc s k a tcUnreach
    | none => s) s1
/-- The requests of the contexts of a die that a test names receive error completions. -/
def failFrom (s : State) (src : Nat) (t : ReqTest) : State :=
  ((s.running.filter fun c => c.id.die == src).map (·.id)).foldl (fun s id => asCtx s id fun u => failOwn u t) s
/-- The traffic between the destination and the source of a hand-off takes a link of this package. -/
def pullsOver (s : State) (j : TwJob) (a b : Nat) : Bool :=
  let port (d : Nat) : Nat := if d / 8 == s.pkg.pkgnum.toNat then d % 8 else 6
  j.die != 0 && usesLink s (port (dieGlob s j.die)) (port j.src) a b
/-- Everything outstanding over the link between two dies, whose routes still stand in the state, receives an error completion: the
requests of contexts that hold a slot, reductions, and the pulls of Twilight engines (R23). -/
def failLink (s : State) (a b : Nat) : State :=
  let s1 := (List.range 6).foldl (fun u d =>
    failReds (failFrom u d fun ks j => j.slot && usesLink s d (answerDie u d ks) a b) d fun e => usesLink s d e a b) s
  failPulls s1 fun j => pullsOver s j a b
/-- R23: a module of the link between dies a and b is removed; with the last one the link is down, and every request outstanding
over it receives an error completion. -/
def execModuleFailure (s : State) : Out :=
  let a := s.sub.a
  let b := s.sub.b
  match linkModules a b with
  | none => .refused (.noSubject "no such link")
  | some n =>
    let l := s.link a b
    if n ≤ l.lost then .refused (.noSubject "the link has no working module")
    else
      let s1 := s.setLink a b { l with lost := l.lost + 1, errors := l.errors + 1 }
      if l.lost + 1 < n then .next s1
      else .next { failLink s a b with links := s1.links }
/-- R23: link-level retry replays a flit; the order on the link is kept. -/
def execFlitRetry (s : State) : Out :=
  if !linkUp s s.sub.a s.sub.b then .refused (.noSubject "no such link is up")
  else
    let l := s.link s.sub.a s.sub.b
    .next (s.setLink s.sub.a s.sub.b { l with retries := l.retries + 1 })

/-! ## Request slots (R25) -/

/-- Give a slot to the access that a grant names. -/
def grantSlot (c : Ctx) (acc : AccQ) (k : Nat) : Ctx :=
  match acc with
  | .glob => { c with gacc := c.gacc.map fun g => { g with go := { g.go with slot := true } } }
  | _ => { c with accs := c.accs.modify k fun a => { a with go := { a.go with slot := true } } }
/-- R25: a waiting request of a context takes one of the 64 slots of its pair of dies; it keeps it until its response has come. -/
def execRequestSlotGrant (s : State) : Out :=
  match s.running.find? (·.id == s.sub.ctx) with
  | none => .refused (.noSubject "no such context")
  | some c =>
    let u := focusOn s c.id
    match slotSeeker u s.sub.acc s.sub.c with
    | none => .refused (.noSubject "no such request")
    | some (ks, j) =>
      let b := answerDie u c.id.die ks
      if c.id.die != s.sub.a || b != s.sub.b || !lacksSlot u c.id.die ks j then .refused (.noSubject "the request waits for no such slot")
      else if 64 ≤ slotsInUse s s.sub.a s.sub.b || (s.sub.acc != .glob && olderSeeker u b s.sub.c) then .next s.block
      else .next (s.updCtxs (fun d => d.id == c.id) fun d => grantSlot d s.sub.acc s.sub.c)

/-! ## Ports and the endpoint (R26, R28, R322) -/

/-- Fabric port n is down. -/
def portOff (s : State) (n : Nat) : State := { s with pkg := { s.pkg with linkup := s.pkg.linkup &&& ~~~(1#18 <<< n) } }
/-- R26: the lanes of a port fail training, during LINKS or later; the port stays down. -/
def execFabricPortTrainingFailure (s : State) : Out :=
  if 18 ≤ s.sub.a || s.pkg.phase = .reset || s.pkg.phase = .boot then .refused (.noSubject "no such port is training")
  else
    let t := portOff s s.sub.a
    .next { t with pkg := { t.pkg with dead := t.pkg.dead ||| (1#18 <<< s.sub.a) } }
/-- R322: a port that was up goes down. The requests on it are still answered; traffic for its dies moves to another port once they
all have been. -/
def execFabricPortDown (s : State) : Out :=
  if 18 ≤ s.sub.a || !s.pkg.linkup.getLsbD s.sub.a then .refused (.noSubject "no such port is up")
  else .next (portOff s s.sub.a)
/-- R28: the endpoint of the bridging package trains down; the endpoints of the others are disabled. -/
def execEndpointTrainDown (s : State) : Out :=
  if s.pkg.bridge && (s.sub.a = 8 || s.sub.a = 4) && s.sub.a < s.pkg.lanes then .next { s with pkg := { s.pkg with lanes := s.sub.a } }
  else .refused (.noSubject "the endpoint does not train down to this width")

/-! ## Power (R29, R446) -/

/-- R446: the window of 1 ms ends. Withheld issue delays instructions and has no other effect (R29). -/
def execPowerWindow (s : State) : Out :=
  .next { s with pkg := { s.pkg with pwrw := BitVec.ofNat 16 s.sub.a, withheld := BitVec.ofNat 16 s.sub.b,
                                     tmax := BitVec.ofNat 16 s.sub.c,
                                     throtcnt := if s.sub.b = 0 then s.pkg.throtcnt else s.pkg.throtcnt + 1 } }
/-- R446: a read of THROTCNT. -/
def execThrotcntRead (s : State) : Out :=
  if !pkgReady s then .next (s.reply 4 [0])
  else .next ({ s with pkg := { s.pkg with throtcnt := 0 } }.reply 4 [s.pkg.throtcnt.setWidth 64])
/-- R446: a write of PWRLIM. -/
def execPwrlimWrite (s : State) : Out :=
  if pkgReady s && 400 ≤ s.sub.a && s.sub.a ≤ 2000 then .next { s with pkg := { s.pkg with pwrlim := BitVec.ofNat 16 s.sub.a } }
  else .next s

end Sys2Proof.Machine
end

