-- ==== Sys2Proof/Machine/Resets.lean ====
section
/-! DEFINITION. Resets of dies (R414 to R417), package reset, bring-up and the lifecycle (R443, R444, R448, R449). -/

namespace Sys2Proof.Machine

/-! ## What a reset of a die ends and wipes (R416, R417) -/

/-- A running iteration ends at once with cause 0x12: what its core had issued is lost. -/
def endRunning (s : State) (id : CtxId) : State :=
  asCtx { s with fresh := s.fresh + 1, redWait := s.redWait.filter (fun w => w.ctx != id), kvq := s.kvq.filter fun w => w.ctx != id } id fun t =>
    let first := t.cx.due.getD (t.cx.pend.getD (outsideTrap s tcReset))
    finishTrap t first (t.cx.more || t.cx.due.isSome || t.cx.pend.isSome)
/-- Step 1 of R416: every iteration of the die, running or saved, ends. -/
def endIterations (s : State) (die : Nat) : State :=
  let s1 := ((s.running.filter fun c => c.id.die == die).map (·.id)).foldl endRunning s
  (s1.saved.filter fun v => v.ctx.id.die == die).foldl (fun s v => endSaved s v tcReset) s1
/-- A key of a die's scratch memories. -/
def scratchOfDie (die k : Nat) : Bool := 2 ^ 50 ≤ k && (k - 2 ^ 50) / 2 ^ 25 / 2048 == die
/-- The entries of a table keyed by Twilight engine or die that do not belong to a die. -/
def offDie (per die : Nat) (t : Tab Nat) : Tab Nat := t.filter fun x => x.1 / per != die
/-- The core domain at reset: scratch wiped, every FMT raw, no swizzle, arrays and instruction caches empty, the engines' counters zero
(R414, R416). -/
def wipeCores (s : State) (die : Nat) : State :=
  { s with
    mem := s.mem.filter (fun c => !scratchOfDie die c.1)
    bad := s.bad.filter (fun l => !scratchOfDie die (64 * l))
    soft := s.soft.filter (fun l => !scratchOfDie die (64 * l))
    fmt := s.fmt.filter (fun f => f.1 / 64 / 2048 != die)
    swz := s.swz.filter (fun f => f.1 / 64 / 2048 != die)
    nonfin := offDie 2 die s.nonfin
    twerr := offDie 1 die s.twerr
    garr := s.garr.filter (fun g => g.1 / 2048 != die)
    darr := s.darr.filter (fun d => d.1 / 2048 != die)
    cores := s.cores.filter (fun c => c.1 / 2048 != die)
    icache := s.icache.filter (fun l => l.core / 2048 != die)
    xlat := s.xlat.filter (fun x => x.core == 0 || (x.core - 1) / 2048 != die)
    parked := s.parked.filter (fun c => c.has || c.id.die != die) }
/-- Every block pool of the die is wiped (R358). -/
def wipePools (s : State) (die : Nat) : State :=
  (s.vis.map (·.1)).foldl (fun s vi =>
    let p := poolOf s vi die
    let s1 := (List.range p.n).foldl (fun s i => wipeSlot s vi die i) s
    setPool s1 vi die { p with wiping := false, busy := [] }) s
/-- The home die of a structure. -/
def homeDie (s : State) (asid : Nat) (va : W64) : Option Nat :=
  match agentKeys s hubDie asid (genOf s asid) .rd va 1 with
  | .ok (k :: _) => if k / 2 ^ 42 = s.pkg.pkgnum.toNat then some (k / 2 ^ 39 % 8) else none
  | _ => none
/-- A stream whose record lies on the die: no transition on it succeeds, and its regions complete with FAULT. -/
def loseRecords (s : State) (die : Nat) : State :=
  (s.regions.filterMap fun r => match r.origin with
    | .accept a _ _ => if homeDie s r.asid a = some die then some a else none
    | _ => none).dedup.foldl (fun s a => dropJob (stopStream s a 3) a) s
/-- What the reset of a die means for the streams (R77, R89): a core reset counts as a reset of the die. -/
def resetDie (s : State) (die : Nat) : State := dieLost s (s.dieAddr die)

/-- The reset register of a die says BUSY (R415). -/
def rstBusy (s : State) (die : Nat) : Bool := s.rsts.any (·.die == die) || s.downDies.contains die
/-- A write to RSTCTL of a die; one while BUSY, or before READY, is ignored (R415, R443). -/
def rstWrite (s : State) (act : State) : Out :=
  if 6 ≤ s.sub.a then .refused (.noSubject "no such die")
  else if rstBusy s s.sub.a || !pkgReady s then .next s
  else .next act
/-- A shard of a SAMPLE node that a die's sampler engine has not reported. -/
def shardOn (s : State) (die : Nat) (x : Samp) : Bool :=
  x.desc.shards.zipIdx.any fun z => z.1.2.2.2 == s.dieAddr die && !x.shards.any fun d => d.1 == z.2
/-- The SAMPLE nodes whose shards a die's engines serve end with an error completion (R416 step 2). -/
def failSamples (s : State) (die : Nat) : State :=
  (s.samps.filter (shardOn s die)).foldl (fun s x => match s.node? x.nid with
    | some n => finishNode (failNode { s with samps := s.samps.erase x } n.rid stFault n.va) n.nid
    | none => { s with samps := s.samps.erase x }) s
/-- A core reset: the iterations end, what the die's engines serve for the streams is lost, the core domain and the pools are wiped. -/
def coreReset (s : State) (die : Nat) : State :=
  wipePools (wipeCores (failSamples (resetDie (endIterations s die) die) die) die) die
/-- R416. -/
def execCoreReset (s : State) : Out := rstWrite s (coreReset s s.sub.a)

/-! ## The quiesce handshake (R417) -/

/-- The dies linked to a die (R21). -/
def neighbours (die : Nat) : List Nat := (List.range 7).filter fun d => (linkModules die d).isSome
/-- Step 1: QUIESCE goes to every linked die. -/
def startDieReset (s : State) (die : Nat) : State := { s with rsts := s.rsts ++ [⟨die, neighbours die, [], []⟩] }
/-- R417 step 1. -/
def execDieReset (s : State) : Out := rstWrite s (startDieReset s s.sub.a)
/-- Change the reset of a die. -/
def updRst (s : State) (die : Nat) (f : DieRst → DieRst) : State :=
  { s with rsts := s.rsts.map fun r => if r.die = die then f r else r }
/-- The requests of a die that wait for a slot to another receive error completions. -/
def failWaiting (s : State) (src die : Nat) : State := failFrom s src fun ks j => answerDie s src ks == die && !j.slot
/-- What a die has outstanding at another receives error completions: requests that hold a slot, reductions, pulls (R417 step 4). -/
def failOutstanding (s : State) (src die : Nat) : State :=
  let s1 := failReds (failFrom s src fun ks j => answerDie s src ks == die && j.slot) src (· == die)
  failPulls s1 fun j => j.die == src && j.src == s.dieAddr die
/-- R417 step 2: die b receives QUIESCE; it issues nothing more to die a, and requests that wait for a slot fail. -/
def execQuiesce (s : State) : Out :=
  match s.rsts.find? (·.die == s.sub.a) with
  | none => .refused (.noSubject "no such reset")
  | some r =>
    if !r.asked.contains s.sub.b || r.quiet.contains s.sub.b then .refused (.noSubject "no QUIESCE for this die")
    else .next (failWaiting (updRst s s.sub.a fun r => { r with quiet := r.quiet ++ [s.sub.b] }) s.sub.b s.sub.a)
/-- R417 step 4: what is still outstanding to die a fails, and die b reports FENCED. -/
def execQuiesceWindowEnd (s : State) : Out :=
  match s.rsts.find? (·.die == s.sub.a) with
  | none => .refused (.noSubject "no such reset")
  | some r =>
    if !r.quiet.contains s.sub.b || r.fenced.contains s.sub.b then .refused (.noSubject "the die has not fenced its link, or has reported")
    else .next (failOutstanding (updRst s s.sub.a fun r => { r with fenced := r.fenced ++ [s.sub.b] }) s.sub.b s.sub.a)
/-- A physical address of a die of this package. -/
def memOfDie (s : State) (die k : Nat) : Bool := k < 2 ^ 50 && k / 2 ^ 42 == s.pkg.pkgnum.toNat && k / 2 ^ 39 % 8 == die
/-- A controller of a die (R296). -/
def ctlOfDie (die ctl : Nat) : Bool :=
  if ctl < 2048 then ctl / 512 + 2 == die else ctl < 2052 && (ctl - 2048) / 2 == die
/-- The uncore domain at reset: memory, buffers and controllers (R414, R417 step 5); the controllers take the current generations. -/
def wipeUncore (s : State) (die : Nat) : State :=
  { s with
    mem := s.mem.filter (fun c => !memOfDie s die c.1)
    bad := s.bad.filter (fun l => !memOfDie s die (64 * l))
    soft := s.soft.filter (fun l => !memOfDie s die (64 * l))
    sealed := s.sealed.filter (fun l => !memOfDie s die (64 * l))
    wc := s.wc.filter (fun l => !memOfDie s die (64 * l.line))
    red := s.red.filter (fun l => !memOfDie s die (64 * l.line))
    vaults := s.vaults.filter (fun v => v.1 / 512 + 2 != die)
    xlat := s.xlat.filter (fun x => x.die != die)
    asTab := Tab.mapAll AsEntry.zero (fun e => { e with pending := e.pending.filter fun c => !ctlOfDie die c }) s.asTab }
/-- R417 step 5. -/
def execDieResetExecute (s : State) : Out :=
  match s.rsts.find? (·.die == s.sub.a) with
  | none => .refused (.noSubject "no such reset")
  | some r =>
    if !(r.asked.all fun d => r.fenced.contains d) || s.downDies.contains s.sub.a then .refused (.noSubject "a neighbour has not reported")
    else
      let s1 := loseRecords (endIterations s s.sub.a) s.sub.a
      let s2 := failSamples (resetDie s1 s.sub.a) s.sub.a
      .next { wipePools (wipeUncore (wipeCores s2 s.sub.a) s.sub.a) s.sub.a with downDies := s.downDies ++ [s.sub.a] }
/-- R417 step 6: the links of the die have retrained, with every module, and the fence is lifted. -/
def execLinkRetrain (s : State) : Out :=
  if !s.downDies.contains s.sub.a then .refused (.noSubject "the die has not been reset")
  else .next { s with
    downDies := s.downDies.filter (· != s.sub.a)
    rsts := s.rsts.filter (fun r => r.die != s.sub.a)
    links := s.links.filter (fun l => !(l.1 / 8 == s.sub.a || l.1 % 8 == s.sub.a)) }

/-! ## Package reset and bring-up (R443, R444, R449) -/

/-- A package reset: everything is wiped; what is fused, and the lifecycle, stay. The clock, the free values used up, what other agents
are to do and the replies given are not part of the package. -/
def packageReset (s : State) : State :=
  let p := s.pkg
  { State.reset with
    agenda := s.agenda, fresh := s.fresh, cycle := s.cycle, replies := s.replies
    pkg := { Pkg.reset with lcs := p.lcs, devid := p.devid, step := p.step, minsvn := p.minsvn, attkey := p.attkey, ownerkey := p.ownerkey } }
/-- R443. -/
def execPowerOn (s : State) : Out := .next (packageReset s)
/-- R443. -/
def execResetPin (s : State) : Out := .next (packageReset s)
/-- R443: PKGRST lies in the administrative page, which answers in READY. -/
def execPkgrst (s : State) : Out := if pkgReady s then .next (packageReset s) else .next s
/-- R446: a junction sensor exceeds 120 °C: bit 8 of LINKERR, and a reset of the die; that of the hub is a package reset (R414). -/
def execJunctionOvertemp (s : State) : Out :=
  let s1 := { s with pkg := { s.pkg with linkerr := s.pkg.linkerr ||| 0x100 } }
  if 7 ≤ s.sub.a then .refused (.noSubject "no such die")
  else if s.sub.a = 6 then
    let t := packageReset s
    .next { t with pkg := { t.pkg with linkerr := 0x100 } }
  else if rstBusy s s.sub.a then .next s1
  else .next (startDieReset s1 s.sub.a)
/-- BOOTSTAT: the first step of R449 that fails, or 0. -/
def bootResult (i : BootImage) (minsvn : BitVec 16) : Nat :=
  if !i.present then 1
  else if !i.headerOk then 2
  else if !i.hashOk then 3
  else if !i.sigOk then 4
  else if i.fwsvn < minsvn.toNat then 5
  else 0
/-- R449: after the wipe the image is verified; one that passes every step is copied into the loop core's tightly coupled memory and runs,
and the package enters LINKS. -/
def execBootVerify (s : State) : Out :=
  if s.pkg.phase != .reset then .refused (.noSubject "the package is not at its reset")
  else
    let r := bootResult s.sub.img s.pkg.minsvn
    if r = 0 then
      let p := { s.pkg with phase := .links, bootstat := 0, fwsvn := BitVec.ofNat 16 s.sub.img.fwsvn, loopcore := true,
                            fwhash := (List.range 8).map fun k => Config.freeBits s.fresh k }
      .next { s with pkg := p, tcm := Mem.putAll [] ((keysFrom 0 tcmSize).zip s.sub.img.bytes), fresh := s.fresh + 1 }
    else .next { s with pkg := { s.pkg with phase := .boot, bootstat := BitVec.ofNat 8 r } }
/-- R444: the links train but for the ports that have failed training (R26), the package takes its number, 0 when it bridges, and it enters
READY; two packages with one number stay in LINKS. -/
def execLinkTraining (s : State) : Out :=
  if s.pkg.phase != .links then .refused (.noSubject "the package is not in LINKS")
  else
    let p := { s.pkg with pkgnum := if s.sub.q then 0 else BitVec.ofNat 8 s.sub.a, bridge := s.sub.q
                          linkup := BitVec.ofNat 18 s.sub.b &&& ~~~s.pkg.dead }
    if s.sub.p then .next { s with pkg := { p with linkerr := p.linkerr ||| 4 } }
    else .next { s with pkg := { p with phase := .ready } }

/-! ## Lifecycle (R448) -/

/-- The edges of the lifecycle. -/
def edgeOk (a b : Nat) : Bool := (a == 0 && b == 1) || (a == 1 && b == 2) || ((a == 1 || a == 2) && b == 3)
/-- What an advance does to the fuses and keys. -/
def advanced (p : Pkg) (target : Nat) : Pkg :=
  { p with
    lcs := BitVec.ofNat 2 target
    attkey := if target = 1 then true else if target = 3 then false else p.attkey
    ownerkey := p.ownerkey || target == 1
    minsvn := if target = 2 then p.fwsvn else p.minsvn }
/-- R448: a signed command for this device along an edge; any other is refused and changes nothing. What runs is ended and everything is
wiped, then the package is reset. -/
def execLifecycleAdvance (s : State) : Out :=
  if s.sub.p && s.sub.q && edgeOk s.pkg.lcs.toNat s.sub.a then .next (packageReset { s with pkg := advanced s.pkg s.sub.a })
  else .next s

end Sys2Proof.Machine
end

