-- ==== Sys2Proof/Machine/Admin.lean ====
section
/-! DEFINITION. Attestation and management over MCTP (R450, R451). -/

namespace Sys2Proof.Machine

/-- The code of a phase (R443). -/
def phaseCode (p : Phase) : Nat :=
  match p with
  | .reset => 0
  | .boot => 1
  | .links => 2
  | .ready => 3
/-- The identity and status registers as they are visible in the present phase (R443, R446). -/
def identityRegs (p : Pkg) : List W64 :=
  let c := phaseCode p.phase
  let on (n : Nat) (w : W64) : W64 := if n ≤ c then w else 0
  [p.devid, (p.step ++ p.part).setWidth 64, natW (p.lcs.toNat + 2 ^ 8 * c), on 2 (natW (p.pkgnum.toNat + 2 ^ 8 * p.fwsvn.toNat)),
   on 1 (p.bootstat.setWidth 64), on 2 (natW (p.linkup.toNat + 2 ^ 32 * p.linkerr.toNat)),
   on 3 (natW (p.pwrw.toNat + 2 ^ 16 * p.pwrlim.toNat + 2 ^ 32 * p.withheld.toNat + 2 ^ 48 * p.tmax.toNat))]
/-- The configuration block of a VI (R53). -/
def cfgWords (v : Vi) : List W64 :=
  [natW (v.en.toNat + 2 * v.stop.toNat), natW (v.asidbase + 2 ^ 16 * v.asidn), natW (v.cores + 2 ^ 16 * v.mincores + 2 ^ 32 * v.bvc),
   natW (v.lease + 2 ^ 16 * v.bw + 2 ^ 32 * v.priomax), natW v.scratch, natW (v.tqbase + 2 ^ 8 * v.tqn)]
/-- The report of R450 for a nonce; the signature's 49,856 bytes are free values. -/
def attReport (s : State) (nonce : Nat) : List W64 :=
  let p := s.pkg
  [p.devid, (p.step ++ p.part).setWidth 64, p.lcs.setWidth 64, p.pkgnum.setWidth 64, p.fwsvn.setWidth 64] ++ p.fwhash
    ++ ((List.range 4).map fun k => natW (nonce / 2 ^ (64 * k)))
    ++ ((List.range 64).flatMap fun n => cfgWords (s.vi n))
    ++ (List.range 6232).map fun k => Config.freeBits s.fresh k
/-- R450: refused in MANUFACTURE and RETURNED. -/
def execAttestationRequest (s : State) : Out :=
  if s.pkg.lcs = 0 || s.pkg.lcs = 3 then .next (s.reply 8 [])
  else .next ({ s with fresh := s.fresh + 1 }.reply 8 (attReport s s.sub.a))
/-- R451: a control message is served; the spec does not give the content of its response. -/
def execMctpControlMessage (s : State) : Out :=
  .next ({ s with fresh := s.fresh + 1 }.reply 5 [natW s.sub.a, Config.freeBits s.fresh 0])
/-- R451: the identity registers. -/
def execReadIdentity (s : State) : Out := .next (s.reply 6 (identityRegs s.pkg))
/-- The hottest bank and the highest rate of a vault (R306). -/
def hottest (v : Vault) : Nat := v.banks.foldl (fun m b => max m b.2.temp) 0
def highestRate (v : Vault) : Nat := v.banks.foldl (fun m b => max m b.2.rate) 0
/-- The status registers of a vault (R306). -/
def vaultWords (v : Vault) : List W64 :=
  [natW (v.rtax + 2 ^ 8 * min 255 (hottest v) + 2 ^ 16 * highestRate v), natW v.wakewait, natW v.wakereplay,
   natW (v.corrected + 2 ^ 16 * v.uncorrectable)]
/-- The counters of the package: THROTCNT, the trap and degradation counts of every VI, the status of every vault (R306, R396, R446). -/
def counterWords (s : State) : List W64 :=
  s.pkg.throtcnt.setWidth 64
    :: ((List.range 64).flatMap fun n =>
        [(s.vi n).trapcnt &&& 0xFFFF, (s.vi n).traplost &&& 0xFFFFFFFF, (s.vi n).degcnt &&& 0xFFFFFFFF])
      ++ (List.range 2048).flatMap fun w => vaultWords (s.vault w)
/-- The counters that a read clears. -/
def clearCounters (s : State) : State :=
  { s with pkg := { s.pkg with throtcnt := 0 },
           vis := Tab.mapAll Vi.zero (fun v => { v with traplost := 0, degcnt := 0 }) s.vis }
/-- R451: the message reads the registers themselves, and so clears those that a read clears; before READY it is not answered (R443). -/
def execReadCounters (s : State) : Out :=
  if !pkgReady s then .next s else .next ((clearCounters s).reply 7 (counterWords s))
/-- R451: the board's controller assigns a dynamic address. -/
def execDynamicAddressAssignment (s : State) : Out :=
  if 128 ≤ s.sub.a then .refused (.noSubject "no I3C address") else .next { s with pkg := { s.pkg with i3c := some s.sub.a } }

end Sys2Proof.Machine
end

