-- ==== Sys2Proof/Machine/Dispatch.lean ====
section
/-! DEFINITION. The meaning of every instruction and device step: one direct call each. -/

namespace Sys2Proof.Machine

def exec (i : Instr) (s : State) : Host.Outcome State Fault Refusal :=
  match i with
  | .nop w => Sys2Proof.Machine.execNop w s
  | .br w => Sys2Proof.Machine.execBr w s
  | .call w => Sys2Proof.Machine.execCall w s
  | .callr w => Sys2Proof.Machine.execCallr w s
  | .ret w => Sys2Proof.Machine.execRet w s
  | .brr w => Sys2Proof.Machine.execBrr w s
  | .bc w => Sys2Proof.Machine.execBc w s
  | .bcr w => Sys2Proof.Machine.execBcr w s
  | .loop w => Sys2Proof.Machine.execLoop w s
  | .loopBound w => Sys2Proof.Machine.execLoopBound w s
  | .lend w => Sys2Proof.Machine.execLend w s
  | .lbrk w => Sys2Proof.Machine.execLbrk w s
  | .lcont w => Sys2Proof.Machine.execLcont w s
  | .lrd w => Sys2Proof.Machine.execLrd w s
  | .btok w => Sys2Proof.Machine.execBtok w s
  | .wait w => Sys2Proof.Machine.execWait w s
  | .fence w => Sys2Proof.Machine.execFence w s
  | .bar w => Sys2Proof.Machine.execBar w s
  | .barv w => Sys2Proof.Machine.execBarv w s
  | .barw w => Sys2Proof.Machine.execBarw w s
  | .sstep w => Sys2Proof.Machine.execSstep w s
  | .setm w => Sys2Proof.Machine.execSetm w s
  | .phint w => Sys2Proof.Machine.execPhint w s
  | .resume w => Sys2Proof.Machine.execResume w s
  | .exit w => Sys2Proof.Machine.execExit w s
  | .cede w => Sys2Proof.Machine.execCede w s
  | .add w => Sys2Proof.Machine.execAdd w s
  | .sub w => Sys2Proof.Machine.execSub w s
  | .mul w => Sys2Proof.Machine.execMul w s
  | .mulh w => Sys2Proof.Machine.execMulh w s
  | .mulhu w => Sys2Proof.Machine.execMulhu w s
  | .div w => Sys2Proof.Machine.execDiv w s
  | .divu w => Sys2Proof.Machine.execDivu w s
  | .rem w => Sys2Proof.Machine.execRem w s
  | .remu w => Sys2Proof.Machine.execRemu w s
  | .and w => Sys2Proof.Machine.execAnd w s
  | .or w => Sys2Proof.Machine.execOr w s
  | .xor w => Sys2Proof.Machine.execXor w s
  | .sll w => Sys2Proof.Machine.execSll w s
  | .srl w => Sys2Proof.Machine.execSrl w s
  | .sra w => Sys2Proof.Machine.execSra w s
  | .min w => Sys2Proof.Machine.execMin w s
  | .max w => Sys2Proof.Machine.execMax w s
  | .minu w => Sys2Proof.Machine.execMinu w s
  | .maxu w => Sys2Proof.Machine.execMaxu w s
  | .cmp w => Sys2Proof.Machine.execCmp w s
  | .sel w => Sys2Proof.Machine.execSel w s
  | .popc w => Sys2Proof.Machine.execPopc w s
  | .clz w => Sys2Proof.Machine.execClz w s
  | .ctz w => Sys2Proof.Machine.execCtz w s
  | .ppopc w => Sys2Proof.Machine.execPpopc w s
  | .dep w => Sys2Proof.Machine.execDep w s
  | .ext w => Sys2Proof.Machine.execExt w s
  | .exts w => Sys2Proof.Machine.execExts w s
  | .fadd w => Sys2Proof.Machine.execFadd w s
  | .fsub w => Sys2Proof.Machine.execFsub w s
  | .fmul w => Sys2Proof.Machine.execFmul w s
  | .fdiv w => Sys2Proof.Machine.execFdiv w s
  | .fma w => Sys2Proof.Machine.execFma w s
  | .fmin w => Sys2Proof.Machine.execFmin w s
  | .fmax w => Sys2Proof.Machine.execFmax w s
  | .fcmp w => Sys2Proof.Machine.execFcmp w s
  | .fcvt w => Sys2Proof.Machine.execFcvt w s
  | .amaxx w => Sys2Proof.Machine.execAmaxx w s
  | .addi w => Sys2Proof.Machine.execAddi w s
  | .andi w => Sys2Proof.Machine.execAndi w s
  | .ori w => Sys2Proof.Machine.execOri w s
  | .xori w => Sys2Proof.Machine.execXori w s
  | .slli w => Sys2Proof.Machine.execSlli w s
  | .srli w => Sys2Proof.Machine.execSrli w s
  | .srai w => Sys2Proof.Machine.execSrai w s
  | .gld w => Sys2Proof.Machine.execGld w s
  | .gst w => Sys2Proof.Machine.execGst w s
  | .gatom w => Sys2Proof.Machine.execGatom w s
  | .vadd w => Sys2Proof.Machine.execVadd w s
  | .vsub w => Sys2Proof.Machine.execVsub w s
  | .vmul w => Sys2Proof.Machine.execVmul w s
  | .vfma w => Sys2Proof.Machine.execVfma w s
  | .vfnma w => Sys2Proof.Machine.execVfnma w s
  | .vdiv w => Sys2Proof.Machine.execVdiv w s
  | .vmin w => Sys2Proof.Machine.execVmin w s
  | .vmax w => Sys2Proof.Machine.execVmax w s
  | .vabs w => Sys2Proof.Machine.execVabs w s
  | .vneg w => Sys2Proof.Machine.execVneg w s
  | .vsqrt w => Sys2Proof.Machine.execVsqrt w s
  | .vrsqrt w => Sys2Proof.Machine.execVrsqrt w s
  | .vrcp w => Sys2Proof.Machine.execVrcp w s
  | .vexp2 w => Sys2Proof.Machine.execVexp2 w s
  | .vlog2 w => Sys2Proof.Machine.execVlog2 w s
  | .vexp w => Sys2Proof.Machine.execVexp w s
  | .vtanh w => Sys2Proof.Machine.execVtanh w s
  | .vsigm w => Sys2Proof.Machine.execVsigm w s
  | .vsilu w => Sys2Proof.Machine.execVsilu w s
  | .vand w => Sys2Proof.Machine.execVand w s
  | .vor w => Sys2Proof.Machine.execVor w s
  | .vxor w => Sys2Proof.Machine.execVxor w s
  | .vshl w => Sys2Proof.Machine.execVshl w s
  | .vshr w => Sys2Proof.Machine.execVshr w s
  | .vcmp w => Sys2Proof.Machine.execVcmp w s
  | .vclass w => Sys2Proof.Machine.execVclass w s
  | .vsel w => Sys2Proof.Machine.execVsel w s
  | .vcvt w => Sys2Proof.Machine.execVcvt w s
  | .vquant w => Sys2Proof.Machine.execVquant w s
  | .vdequant w => Sys2Proof.Machine.execVdequant w s
  | .vsetsc w => Sys2Proof.Machine.execVsetsc w s
  | .vgetsc w => Sys2Proof.Machine.execVgetsc w s
  | .vredsum w => Sys2Proof.Machine.execVredsum w s
  | .vredmax w => Sys2Proof.Machine.execVredmax w s
  | .vredmin w => Sys2Proof.Machine.execVredmin w s
  | .vredamax w => Sys2Proof.Machine.execVredamax w s
  | .vscan w => Sys2Proof.Machine.execVscan w s
  | .vscanmax w => Sys2Proof.Machine.execVscanmax w s
  | .vperm w => Sys2Proof.Machine.execVperm w s
  | .vbcast w => Sys2Proof.Machine.execVbcast w s
  | .vins w => Sys2Proof.Machine.execVins w s
  | .vext w => Sys2Proof.Machine.execVext w s
  | .vzip w => Sys2Proof.Machine.execVzip w s
  | .vunzip w => Sys2Proof.Machine.execVunzip w s
  | .vsmx w => Sys2Proof.Machine.execVsmx w s
  | .vtok w => Sys2Proof.Machine.execVtok w s
  | .vmov w => Sys2Proof.Machine.execVmov w s
  | .viota w => Sys2Proof.Machine.execViota w s
  | .vplog w => Sys2Proof.Machine.execVplog w s
  | .vpcnt w => Sys2Proof.Machine.execVpcnt w s
  | .mldb w => Sys2Proof.Machine.execMldb w s
  | .mma w => Sys2Proof.Machine.execMma w s
  | .mmacro w => Sys2Proof.Machine.execMmacro w s
  | .mdrain w => Sys2Proof.Machine.execMdrain w s
  | .mzero w => Sys2Proof.Machine.execMzero w s
  | .mrowf w => Sys2Proof.Machine.execMrowf w s
  | .mscan w => Sys2Proof.Machine.execMscan w s
  | .mrel w => Sys2Proof.Machine.execMrel w s
  | .mmode w => Sys2Proof.Machine.execMmode w s
  | .mgain w => Sys2Proof.Machine.execMgain w s
  | .mcarry w => Sys2Proof.Machine.execMcarry w s
  | .mmask w => Sys2Proof.Machine.execMmask w s
  | .mstat w => Sys2Proof.Machine.execMstat w s
  | .dmvld w => Sys2Proof.Machine.execDmvld w s
  | .dmv w => Sys2Proof.Machine.execDmv w s
  | .dmdrain w => Sys2Proof.Machine.execDmdrain w s
  | .dmzero w => Sys2Proof.Machine.execDmzero w s
  | .dmstep w => Sys2Proof.Machine.execDmstep w s
  | .xcopy w => Sys2Proof.Machine.execXcopy w s
  | .xcopy2d w => Sys2Proof.Machine.execXcopy2d w s
  | .xgath w => Sys2Proof.Machine.execXgath w s
  | .xscat w => Sys2Proof.Machine.execXscat w s
  | .xmcast w => Sys2Proof.Machine.execXmcast w s
  | .xsend w => Sys2Proof.Machine.execXsend w s
  | .xred w => Sys2Proof.Machine.execXred w s
  | .xredmax w => Sys2Proof.Machine.execXredmax w s
  | .xshadOpen w => Sys2Proof.Machine.execXshadOpen w s
  | .xshadDiscard w => Sys2Proof.Machine.execXshadDiscard w s
  | .xshadUnreg w => Sys2Proof.Machine.execXshadUnreg w s
  | .xpub w => Sys2Proof.Machine.execXpub w s
  | .xkvapp w => Sys2Proof.Machine.execXkvapp w s
  | .xplan w => Sys2Proof.Machine.execXplan w s
  | .xfill w => Sys2Proof.Machine.execXfill w s
  | .xwipe w => Sys2Proof.Machine.execXwipe w s
  | .xsig w => Sys2Proof.Machine.execXsig w s
  | .xnred w => Sys2Proof.Machine.execXnred w s
  | .xnamax w => Sys2Proof.Machine.execXnamax w s
  | .xnclone w => Sys2Proof.Machine.execXnclone w s
  | .xncomp w => Sys2Proof.Machine.execXncomp w s
  | .xncrc w => Sys2Proof.Machine.execXncrc w s
  | .xnwipe w => Sys2Proof.Machine.execXnwipe w s
  | .xnstat w => Sys2Proof.Machine.execXnstat w s
  | .xnscale w => Sys2Proof.Machine.execXnscale w s
  | .agset w => Sys2Proof.Machine.execAgset w s
  | .agld w => Sys2Proof.Machine.execAgld w s
  | .agst w => Sys2Proof.Machine.execAgst w s
  | .agstop w => Sys2Proof.Machine.execAgstop w s
  | .aget w => Sys2Proof.Machine.execAget w s
  | .ldv w => Sys2Proof.Machine.execLdv w s
  | .stv w => Sys2Proof.Machine.execStv w s
  | .lds w => Sys2Proof.Machine.execLds w s
  | .sts w => Sys2Proof.Machine.execSts w s
  | .amark w => Sys2Proof.Machine.execAmark w s
  | .spfmt w => Sys2Proof.Machine.execSpfmt w s
  | .atom w => Sys2Proof.Machine.execAtom w s
  | .amovToA w => Sys2Proof.Machine.execAmovToA w s
  | .amovToS w => Sys2Proof.Machine.execAmovToS w s
  | .aadd w => Sys2Proof.Machine.execAadd w s
  | .ycsrr w => Sys2Proof.Machine.execYcsrr w s
  | .ycsrw w => Sys2Proof.Machine.execYcsrw w s
  | .ycsrs w => Sys2Proof.Machine.execYcsrs w s
  | .ycsrc w => Sys2Proof.Machine.execYcsrc w s
  | .ytrap w => Sys2Proof.Machine.execYtrap w s
  | .ysig w => Sys2Proof.Machine.execYsig w s
  | .yperf w => Sys2Proof.Machine.execYperf w s
  | .ytlbi w => Sys2Proof.Machine.execYtlbi w s
  | .yprobe w => Sys2Proof.Machine.execYprobe w s
  | .ygen w => Sys2Proof.Machine.execYgen w s
  | .ytqs w => Sys2Proof.Machine.execYtqs w s
  | .ytqr w => Sys2Proof.Machine.execYtqr w s
  | .ysave w => Sys2Proof.Machine.execYsave w s
  | .yrest w => Sys2Proof.Machine.execYrest w s
  | .yswap w => Sys2Proof.Machine.execYswap w s
  | .yctx w => Sys2Proof.Machine.execYctx w s
  | .moduleFailure => Sys2Proof.Machine.execModuleFailure s
  | .flitRetry => Sys2Proof.Machine.execFlitRetry s
  | .requestSlotGrant => Sys2Proof.Machine.execRequestSlotGrant s
  | .fabricPortTrainingFailure => Sys2Proof.Machine.execFabricPortTrainingFailure s
  | .powerWindow => Sys2Proof.Machine.execPowerWindow s
  | .junctionOvertemp => Sys2Proof.Machine.execJunctionOvertemp s
  | .regionStart => Sys2Proof.Machine.execRegionStart s
  | .regionCompletion => Sys2Proof.Machine.execRegionCompletion s
  | .nodeCompletion => Sys2Proof.Machine.execNodeCompletion s
  | .kernelNodeStart => Sys2Proof.Machine.execKernelNodeStart s
  | .condNode => Sys2Proof.Machine.execCondNode s
  | .loopNode => Sys2Proof.Machine.execLoopNode s
  | .switchNode => Sys2Proof.Machine.execSwitchNode s
  | .signalNode => Sys2Proof.Machine.execSignalNode s
  | .sampleNode => Sys2Proof.Machine.execSampleNode s
  | .handoffNode => Sys2Proof.Machine.execHandoffNode s
  | .midnightNode => Sys2Proof.Machine.execMidnightNode s
  | .tileDispatch => Sys2Proof.Machine.execTileDispatch s
  | .cancelRequest => Sys2Proof.Machine.execCancelRequest s
  | .viEnable => Sys2Proof.Machine.execViEnable s
  | .viDisable => Sys2Proof.Machine.execViDisable s
  | .viStop => Sys2Proof.Machine.execViStop s
  | .registerWrite => Sys2Proof.Machine.execRegisterWrite s
  | .wqTailWrite => Sys2Proof.Machine.execWqTailWrite s
  | .wqNop => Sys2Proof.Machine.execWqNop s
  | .wqStart => Sys2Proof.Machine.execWqStart s
  | .wqAdmit => Sys2Proof.Machine.execWqAdmit s
  | .wqIterate => Sys2Proof.Machine.execWqIterate s
  | .wqerrRead => Sys2Proof.Machine.execWqerrRead s
  | .tokenQueueDepthWrite => Sys2Proof.Machine.execTokenQueueDepthWrite s
  | .tokenQueueFlush => Sys2Proof.Machine.execTokenQueueFlush s
  | .tokenQueueAttempt => Sys2Proof.Machine.execTokenQueueAttempt s
  | .preemptionRequest => Sys2Proof.Machine.execPreemptionRequest s
  | .mincoresStarvation => Sys2Proof.Machine.execMincoresStarvation s
  | .contextStallSwitch => Sys2Proof.Machine.execContextStallSwitch s
  | .contextChangeComplete => Sys2Proof.Machine.execContextChangeComplete s
  | .leaseArbitration => Sys2Proof.Machine.execLeaseArbitration s
  | .leaseEnd => Sys2Proof.Machine.execLeaseEnd s
  | .leaseTimeLimit => Sys2Proof.Machine.execLeaseTimeLimit s
  | .leaseIdleEnd => Sys2Proof.Machine.execLeaseIdleEnd s
  | .leaseTimeout => Sys2Proof.Machine.execLeaseTimeout s
  | .twilightReservation => Sys2Proof.Machine.execTwilightReservation s
  | .sealedNotice => Sys2Proof.Machine.execSealedNotice s
  | .twilightPullReturn => Sys2Proof.Machine.execTwilightPullReturn s
  | .releaseNotice => Sys2Proof.Machine.execReleaseNotice s
  | .releaseDoneNotice => Sys2Proof.Machine.execReleaseDoneNotice s
  | .fabricPathTimeout => Sys2Proof.Machine.execFabricPathTimeout s
  | .headerLiveRewrite => Sys2Proof.Machine.execHeaderLiveRewrite s
  | .blockWipeComplete => Sys2Proof.Machine.execBlockWipeComplete s
  | .lineFetch => Sys2Proof.Machine.execLineFetch s
  | .lineDelivery => Sys2Proof.Machine.execLineDelivery s
  | .resultWrite => Sys2Proof.Machine.execResultWrite s
  | .completionCounterDecrement => Sys2Proof.Machine.execCompletionCounterDecrement s
  | .barrierPhaseComplete => Sys2Proof.Machine.execBarrierPhaseComplete s
  | .globalAccessResponse => Sys2Proof.Machine.execGlobalAccessResponse s
  | .agAccessGenerate => Sys2Proof.Machine.execAgAccessGenerate s
  | .accessPerformed => Sys2Proof.Machine.execAccessPerformed s
  | .mmacroGroup => Sys2Proof.Machine.execMmacroGroup s
  | .mscanStep => Sys2Proof.Machine.execMscanStep s
  | .pageTableWalk => Sys2Proof.Machine.execPageTableWalk s
  | .dwinWrite => Sys2Proof.Machine.execDwinWrite s
  | .generationAdoption => Sys2Proof.Machine.execGenerationAdoption s
  | .generationAdvanceComplete => Sys2Proof.Machine.execGenerationAdvanceComplete s
  | .viTlbInvalidateAll => Sys2Proof.Machine.execViTlbInvalidateAll s
  | .viTlbInvalidatePage => Sys2Proof.Machine.execViTlbInvalidatePage s
  | .viGenAdvance => Sys2Proof.Machine.execViGenAdvance s
  | .viGenAdvanceRoot => Sys2Proof.Machine.execViGenAdvanceRoot s
  | .viProbe => Sys2Proof.Machine.execViProbe s
  | .bankRetentionSleep => Sys2Proof.Machine.execBankRetentionSleep s
  | .bankWake => Sys2Proof.Machine.execBankWake s
  | .longWakeReturn => Sys2Proof.Machine.execLongWakeReturn s
  | .thermalSensorRead => Sys2Proof.Machine.execThermalSensorRead s
  | .bankRefresh => Sys2Proof.Machine.execBankRefresh s
  | .rtaxWindowEnd => Sys2Proof.Machine.execRtaxWindowEnd s
  | .midnightRestore => Sys2Proof.Machine.execMidnightRestore s
  | .wcLineDrain => Sys2Proof.Machine.execWcLineDrain s
  | .directRowAccess => Sys2Proof.Machine.execDirectRowAccess s
  | .reductionAddition => Sys2Proof.Machine.execReductionAddition s
  | .blockPoolWrite => Sys2Proof.Machine.execBlockPoolWrite s
  | .poolWipeComplete => Sys2Proof.Machine.execPoolWipeComplete s
  | .slidingWindowRelease => Sys2Proof.Machine.execSlidingWindowRelease s
  | .trap => Sys2Proof.Machine.execTrap s
  | .watchdogExpiry => Sys2Proof.Machine.execWatchdogExpiry s
  | .save => Sys2Proof.Machine.execSave s
  | .restore => Sys2Proof.Machine.execRestore s
  | .traplostRead => Sys2Proof.Machine.execTraplostRead s
  | .degcntRead => Sys2Proof.Machine.execDegcntRead s
  | .throtcntRead => Sys2Proof.Machine.execThrotcntRead s
  | .saveSlotConfigWrite => Sys2Proof.Machine.execSaveSlotConfigWrite s
  | .coreReset => Sys2Proof.Machine.execCoreReset s
  | .dieReset => Sys2Proof.Machine.execDieReset s
  | .quiesce => Sys2Proof.Machine.execQuiesce s
  | .quiesceWindowEnd => Sys2Proof.Machine.execQuiesceWindowEnd s
  | .dieResetExecute => Sys2Proof.Machine.execDieResetExecute s
  | .linkRetrain => Sys2Proof.Machine.execLinkRetrain s
  | .errorCompletion => Sys2Proof.Machine.execErrorCompletion s
  | .samplerShard => Sys2Proof.Machine.execSamplerShard s
  | .samplerMerge => Sys2Proof.Machine.execSamplerMerge s
  | .loopCoreCommit => Sys2Proof.Machine.execLoopCoreCommit s
  | .powerOn => Sys2Proof.Machine.execPowerOn s
  | .resetPin => Sys2Proof.Machine.execResetPin s
  | .pkgrst => Sys2Proof.Machine.execPkgrst s
  | .bootVerify => Sys2Proof.Machine.execBootVerify s
  | .linkTraining => Sys2Proof.Machine.execLinkTraining s
  | .pwrlimWrite => Sys2Proof.Machine.execPwrlimWrite s
  | .lifecycleAdvance => Sys2Proof.Machine.execLifecycleAdvance s
  | .attestationRequest => Sys2Proof.Machine.execAttestationRequest s
  | .mctpControlMessage => Sys2Proof.Machine.execMctpControlMessage s
  | .readIdentity => Sys2Proof.Machine.execReadIdentity s
  | .readCounters => Sys2Proof.Machine.execReadCounters s
  | .fabricPortDown => Sys2Proof.Machine.execFabricPortDown s
  | .endpointTrainDown => Sys2Proof.Machine.execEndpointTrainDown s
  | .dynamicAddressAssignment => Sys2Proof.Machine.execDynamicAddressAssignment s

end Sys2Proof.Machine
end

