-- ==== Sys2Proof/Machine/HostPages.lean ====
section
/-! DEFINITION. BAR0 of the bridging endpoint: the administrative page of every package and the page of every VI, as the host and the
loop core reach them by aligned accesses of 8 bytes (R56, R302, R358, R396, R443 to R447). -/

namespace Sys2Proof.Machine

/-! ## Places -/

/-- What an offset of BAR0 names: a package and an offset of its administrative page, or a package, a VI and an offset of the VI's page. -/
inductive BarPlace where
  | admin (p off : Nat)
  | page (p vi off : Nat)
  | nothing
deriving DecidableEq, Repr

/-- The place that an offset of BAR0 names (R445). -/
def barPlace (off : Nat) : BarPlace :=
  if off % 8 != 0 || 0x8000000 ≤ off then .nothing
  else if 0x4000000 ≤ off then .page ((off - 0x4000000) / 0x40000) ((off - 0x4000000) % 0x40000 / 0x1000) (off % 0x1000)
  else if off < 0x1000000 then .admin (off / 0x10000) (off % 0x10000)
  else .nothing

/-! ## Writes -/

/-- The device steps of a write of 8 bytes to the administrative page (R53, R287, R303, R415, R443, R446, R447); an offset that holds no
register takes nothing. -/
def adminWrite (off : Nat) (x : W64) : List Todo :=
  if off = 0x0040 then [.event .pwrlimWrite { a := bitsOf x 16 16 }]
  else if off = 0x0F00 then (if bitAt x 0 then [.event .pkgrst {}] else [])
  else if 0x1000 ≤ off && off < 0x1030 then
    let k := (off - 0x1000) / 8
    if bitAt x 1 then [.event .dieReset { a := k }] else if bitAt x 0 then [.event .coreReset { a := k }] else []
  else if 0x2000 ≤ off && off < 0x3000 then
    let n := (off - 0x2000) / 64
    if off % 64 != 0 then [.event .registerWrite { a := off, x := x }]
    else [.event .viStop { a := n, p := bitAt x 1 }, if bitAt x 0 then .event .viEnable { a := n } else .event .viDisable { a := n }]
  else if 0x4000 ≤ off && off < 0x8000 then [.event .dwinWrite { a := (off - 0x4000) / 8, x := x }]
  else if 0x8000 ≤ off && off < 0xC000 then [.event .registerWrite { a := off, x := x }]
  else []
/-- A write to the register of token queue l: its depth, then the flush (R56). -/
def queueWrite (n l : Nat) (x : W64) : List Todo :=
  .event .tokenQueueDepthWrite { a := n, b := l, c := bitsOf x 0 9 }
    :: (if bitAt x 16 then [.event .tokenQueueFlush { a := n, b := l }] else [])
/-- The device steps of a write of 8 bytes to the page of VI n (R56, R302, R358, R396). -/
def pageWrite (n off : Nat) (x : W64) : List Todo :=
  if 0x040 ≤ off && off < 0x060 then [.event .wqTailWrite { a := n, b := (off - 0x040) / 8, x := x }]
  else if 0x100 ≤ off && off < 0x300 then queueWrite n ((off - 0x100) / 8) x
  else if off = 0x300 || off = 0x308 then [.event .saveSlotConfigWrite { a := n, b := off, x := x }]
  else if 0x800 ≤ off && off < 0x860 then
    [.event .blockPoolWrite { a := n, b := (off - 0x800) / 16, p := off % 16 == 8, x := x }]
  else [.event .registerWrite { a := off, x := x, opt := some n }]

/-! ## Reads -/

/-- The value of a register of the administrative page (R446, R447, R53, R287, R303, R415); before READY only the identity and status
registers answer (R443). -/
def adminWord (s : State) (off : Nat) : W64 :=
  if off < 0x30 then (identityRegs s.pkg).getD (off / 8) 0
  else if off = 0x40 then (identityRegs s.pkg).getD 6 0
  else if !pkgReady s then 0
  else if 0x1000 ≤ off && off < 0x1030 then (if rstBusy s ((off - 0x1000) / 8) then natW (2 ^ 63) else 0)
  else if 0x2000 ≤ off && off < 0x3000 then (cfgWords (s.vi ((off - 0x2000) / 64))).getD (off % 64 / 8) 0
  else if 0x4000 ≤ off && off < 0x8000 then (s.vault ((off - 0x4000) / 8)).dwin
  else if 0x8000 ≤ off && off < 0xC000 then (s.vault ((off - 0x8000) / 8)).retidle.setWidth 64
  else 0
/-- The register of token queue l of a VI: DEPTH and COUNT; zero past the VI's queues (R56). -/
def queueWord (s : State) (v : Vi) (l : Nat) : W64 :=
  if v.tqn ≤ l then 0 else natW (Tab.get 0 v.depth l + 2 ^ 32 * (Tab.get [] s.tqs (v.tqbase + l)).length)
/-- LOG2N and WQEN of the four queues (R56). -/
def wqConfigWord (v : Vi) : W64 :=
  natW ((List.range 4).foldl (fun n k => n + 2 ^ (8 * k) * ((v.queue k).log2n + 128 * (v.queue k).en.toNat)) 0)
/-- The register of a pool: its base, or slots, slot size and FREE (R358). -/
def poolWord (p : Pool) (second : Bool) : W64 := if second then natW (p.n + 2 ^ 24 * p.size + 2 ^ 40 * poolFree p) else p.base
/-- The value of a register of the page of VI n that a read leaves as it is (R56, R302, R358, R396). -/
def pageWord (s : State) (n off : Nat) : W64 :=
  let v := s.vi n
  if off < 0x020 then (v.queue (off / 8)).base
  else if 0x040 ≤ off && off < 0x060 then (v.queue ((off - 0x040) / 8)).tail.setWidth 64
  else if 0x060 ≤ off && off < 0x080 then (v.queue ((off - 0x060) / 8)).head.setWidth 64
  else if 0x100 ≤ off && off < 0x300 then queueWord s v ((off - 0x100) / 8)
  else if 0x800 ≤ off && off < 0x860 then poolWord (poolOf s n ((off - 0x800) / 16)) (off % 16 == 8)
  else match off with
    | 0x020 => wqConfigWord v
    | 0x088 => v.btbase
    | 0x090 => natW v.btn
    | 0x098 => v.iter
    | 0x0A0 => v.torncnt
    | 0x0A8 => v.badcnt
    | 0x0B0 => natW v.rootact.toNat
    | 0x0C0 => natW (v.cmdAsid.toNat + 2 ^ 16 * v.cmdOp.toNat + 2 ^ 62 * v.cmdErr.toNat + 2 ^ 63 * v.cmdBusy.toNat)
    | 0x0C8 => v.arg
    | 0x0D0 => v.res
    | 0x300 => v.savebase
    | 0x308 => natW (v.saven + 2 ^ 16 * v.savesz + 2 ^ 32 * v.saveuse)
    | 0x310 => v.trapbase
    | 0x318 => natW (v.trapn + 2 ^ 32 * bitsOf v.trapcnt 0 16)
    | 0x328 => v.wdlim.setWidth 64
    | 0x330 => v.sigdata
    | _ => 0
/-- A read whose register a read clears is a device step of its own (R56, R396, R446). -/
def clearingRead (pl : BarPlace) : Option Todo :=
  match pl with
  | .admin _ 0x0048 => some (.event .throtcntRead {})
  | .page _ n 0x080 => some (.event .wqerrRead { a := n })
  | .page _ n 0x320 => some (.event .traplostRead { a := n })
  | .page _ n 0x338 => some (.event .degcntRead { a := n })
  | _ => none
/-- The value that a read of a place gives. -/
def barWord (s : State) (pl : BarPlace) : W64 :=
  match pl with
  | .admin _ off => adminWord s off
  | .page _ n off => if pkgReady s then pageWord s n off else 0
  | .nothing => 0

/-! ## The access -/

/-- The package that a place belongs to. -/
def BarPlace.package (pl : BarPlace) : Option Nat :=
  match pl with
  | .admin p _ => some p
  | .page p _ _ => some p
  | .nothing => none
/-- The device steps of a write to a place. -/
def barWrite (pl : BarPlace) (x : W64) : List Todo :=
  match pl with
  | .admin _ off => adminWrite off x
  | .page _ n off => pageWrite n off x
  | .nothing => []
/-- A write to a page of another package travels there over the fabric; of it the model holds the block pools of its dies, which hand-offs
from this package use (R90, R358). -/
def awayWrite (pl : BarPlace) (x : W64) : List Todo :=
  match pl with
  | .page p n off =>
    if 0x800 ≤ off && off < 0x860 then
      [.event .blockPoolWrite { a := n, b := 2048 + 8 * p + (off - 0x800) / 16, p := off % 16 == 8, x := x }]
    else []
  | _ => []
/-- An access of 8 bytes at an offset of BAR0 (R445): to a page of this package, to a page of another, or to no register, which reads as zero
and takes nothing. What the registers of another package hold is a free value (log entry 117). -/
def barAccess (s : State) (off : Nat) (x : W64) (write : Bool) : State :=
  let pl := barPlace off
  if pl.package = some s.pkg.pkgnum.toNat then
    if write then { s with agenda := barWrite pl x ++ s.agenda }
    else match clearingRead pl with
      | some t => { s with agenda := t :: s.agenda }
      | none => s.reply 10 [natW off, barWord s pl]
  else if pl.package.any fun p => Config.peerPresent p then
    if write then { s with agenda := awayWrite pl x ++ s.agenda }
    else { s with fresh := s.fresh + 1 }.reply 10 [natW off, Config.freeBits s.fresh 0]
  else if write then s
  else s.reply 10 [natW off, 0]

/-- A soft error in a 64-byte line (R308): of one bit, which the next read corrects, or of more. One in a line of DRAM that the
write-combining buffer holds whole is never read. -/
def upsetLine (s : State) (line : Nat) (multi : Bool) : State :=
  if s.wc.any fun l => l.line == line && l.valid == BitVec.allOnes 64 then s
  else if multi || s.soft.contains line then
    { s with bad := if s.bad.contains line then s.bad else s.bad ++ [line], soft := s.soft.filter (· != line) }
  else if s.bad.contains line then s
  else { s with soft := s.soft ++ [line] }

end Sys2Proof.Machine
end

