-- ==== Sys2Proof/Machine/Step.lean ====
section
/-! DEFINITION. One step of the machine: the head of the agenda, else the next event of the nominal order. -/

namespace Sys2Proof.Machine

/-- One step. What the agenda names comes first: a turn to another context, an error in stored data, an access through BAR0, or a device step. Else the nominal order of the
focused context's cycle goes on: a device step, the head of a queue, a matrix command in flight, the turn of the next context,
or the next cycle. -/
def step (s : State) : Host.Outcome State Fault Refusal :=
  match s.agenda with
  | .focus c :: r => .next (focusOn { s with agenda := r } c)
  | .upset line multi :: r => .next (upsetLine { s with agenda := r } line multi)
  | .bar off x write :: r => .next (barAccess { s with agenda := r } off x write)
  | .event i sub :: r =>
    let t := { s with agenda := r }
    if isDevice i then settleAgenda t (exec i (withSub t sub)) else .refused (.noSubject "an instruction comes from a queue")
  | [] =>
    match plan s with
    | .event i sub again => settle s again (exec i (withSub s sub))
    | .issue st e i => settleIssue s st e (exec i (takeHead s st e))
    | .drop st => .next { s with cx := s.cx.setQueue st (s.cx.queue st).tail }
    | .cont e i => settle s false (exec i (takeCmd s e))
    | .turn => .next (nextPhase (turnAt s))
    | .pass => .next (nextPhase s)
    | .rotate => .next (rotate s)
    | .tick => .next (tick s)

/-- The state with an instruction, given in the opcode table's numbering, placed where the next step takes it: at the head of
the queue that its stream issues from (log entry 12). -/
def State.withFetchWord (s : State) (nbits w : Nat) : State := placeWord s nbits w

end Sys2Proof.Machine
end

