-- ==== Sys2Proof/Safety.lean ====
section
/-! DEFINITION. What counts as a safe state and a safe run, in the terms the statements use. -/

namespace Sys2Proof.Machine

/-- The invariant of every state: memory stands in its canonical form. -/
def State.Ok (s : State) : Prop := Mem.wf s.mem = true

/-- A step that answers a next state. -/
def Steps (s t : State) : Prop := step s = .next t

/-- A run of n steps, each of which answers a next state. -/
inductive Runs : Nat → State → State → Prop where
  | done (s : State) : Runs 0 s s
  | more {n : Nat} {s t u : State} (h : Steps s t) (r : Runs n t u) : Runs (n + 1) s u

end Sys2Proof.Machine
end

