-- ==== Sys2Proof/Certificates/Slice0/Obligations.lean ====
section
/-! DEFINITION. The statements for the provers: what each instruction of the five streams and each step of the machine's
other agents does, from the spec's numbered rules. Each statement's docstring begins with the rules that it rests on. The
namespace Sys2Proof.Claims holds the vocabulary of the statements, and the parts of those that group several instructions
of one shape. -/

/-! ## Vocabulary -/

namespace Sys2Proof.Claims

open Sys2Proof.Machine

/-- Nothing but the focused context, the counter of free values and the counter of port entries has changed, and every byte
of memory reads as before. -/
def OnlyCx (s t : State) (c : Ctx) : Prop :=
  t = { s with cx := c, fresh := t.fresh, nextId := t.nextId } ∧ ∀ k, homeByte t k = homeByte s k

/-- A result in flight, as R125 describes it: what it writes, the flags it raises, when it lands, and the instruction that
issued it. -/
structure IsResult (s : State) (f : InFlight) (st : Stream) (lat : Nat) (res : Res) (fl : Flags) : Prop where
  res : f.res = res
  flags : f.flags = fl
  issued : f.issued = s.cycle
  due : f.due = s.cycle + lat
  st : f.st = st
  ten : f.ten = s.cur.ten
  seq : f.seq = s.cur.seq
  line : f.line = s.cur.line
  slot : f.slot = s.cur.slot
  clean : f.contested = false

/-- The instruction that is executing sees no breach in checking mode (R127): checking is off, or no source lies in an
ownership window and the destination's write meets none. -/
def NoBreach (s : State) (reads : List (BitVec 6)) (d : BitVec 6) : Prop :=
  s.cur.chk = false
    ∨ ((∀ r ∈ reads, breachS s.cx s.cycle r.toNat = false) ∧ (VDst.scal d).breach s = false)

end Sys2Proof.Claims

/-! ## The scalar stream -/

namespace Sys2Proof.Claims

open Sys2Proof.Machine

/-- An S instruction as its rule describes it: gate, destination, sources, latency (R155), and s[d] from the sources'
values. -/
structure SForm where
  g : BitVec 2
  d : BitVec 6
  a : BitVec 6
  b : Option (BitVec 6)
  c : Option (BitVec 6)
  lat : Nat
  val : W64 → W64 → W64 → W64

/-- 1 where a condition holds, else 0. -/
def oneIf (p : Prop) [Decidable p] : W64 := if p then 1 else 0

/-- The conditions of cmp (R159): EQ, NE, LT, GE signed, LTU, GEU unsigned. -/
def cmpSpec (cc : BitVec 6) (x y : W64) : W64 :=
  match cc.toNat with
  | 0 => oneIf (x = y)
  | 1 => oneIf (x ≠ y)
  | 2 => oneIf (x.toInt < y.toInt)
  | 3 => oneIf (y.toInt ≤ x.toInt)
  | 4 => oneIf (x.toNat < y.toNat)
  | _ => oneIf (y.toNat ≤ x.toNat)

/-- The table of R156 with the edges of R157, and R159 to R160: what each integer instruction of two or three registers
writes to s[d]. -/
def intForm (i : Instr) : Option SForm :=
  match i with
  | .add w => some ⟨w.g, w.d, w.a, some w.b, none, 1, fun x y _ => x + y⟩
  | .sub w => some ⟨w.g, w.d, w.a, some w.b, none, 1, fun x y _ => x - y⟩
  | .mul w => some ⟨w.g, w.d, w.a, some w.b, none, 3, fun x y _ => x * y⟩
  | .mulh w => some ⟨w.g, w.d, w.a, some w.b, none, 4, fun x y _ => (x.signExtend 128 * y.signExtend 128).extractLsb' 64 64⟩
  | .mulhu w => some ⟨w.g, w.d, w.a, some w.b, none, 4, fun x y _ => (x.setWidth 128 * y.setWidth 128).extractLsb' 64 64⟩
  | .div w => some ⟨w.g, w.d, w.a, some w.b, none, 24,
      fun x y _ => if y = 0 then 0xFFFFFFFFFFFFFFFF else if x = BitVec.intMin 64 ∧ y = -1 then BitVec.intMin 64 else x.sdiv y⟩
  | .divu w => some ⟨w.g, w.d, w.a, some w.b, none, 24, fun x y _ => if y = 0 then 0xFFFFFFFFFFFFFFFF else x / y⟩
  | .rem w => some ⟨w.g, w.d, w.a, some w.b, none, 24,
      fun x y _ => if y = 0 then x else if x = BitVec.intMin 64 ∧ y = -1 then 0 else x - y * x.sdiv y⟩
  | .remu w => some ⟨w.g, w.d, w.a, some w.b, none, 24, fun x y _ => if y = 0 then x else x - y * (x / y)⟩
  | .and w => some ⟨w.g, w.d, w.a, some w.b, none, 1, fun x y _ => x &&& y⟩
  | .or w => some ⟨w.g, w.d, w.a, some w.b, none, 1, fun x y _ => x ||| y⟩
  | .xor w => some ⟨w.g, w.d, w.a, some w.b, none, 1, fun x y _ => x ^^^ y⟩
  | .sll w => some ⟨w.g, w.d, w.a, some w.b, none, 1, fun x y _ => x <<< (y &&& 63).toNat⟩
  | .srl w => some ⟨w.g, w.d, w.a, some w.b, none, 1, fun x y _ => x >>> (y &&& 63).toNat⟩
  | .sra w => some ⟨w.g, w.d, w.a, some w.b, none, 1, fun x y _ => x.sshiftRight (y &&& 63).toNat⟩
  | .min w => some ⟨w.g, w.d, w.a, some w.b, none, 1, fun x y _ => BitVec.ofInt 64 (min x.toInt y.toInt)⟩
  | .max w => some ⟨w.g, w.d, w.a, some w.b, none, 1, fun x y _ => BitVec.ofInt 64 (max x.toInt y.toInt)⟩
  | .minu w => some ⟨w.g, w.d, w.a, some w.b, none, 1, fun x y _ => BitVec.ofNat 64 (min x.toNat y.toNat)⟩
  | .maxu w => some ⟨w.g, w.d, w.a, some w.b, none, 1, fun x y _ => BitVec.ofNat 64 (max x.toNat y.toNat)⟩
  | .cmp w => some ⟨w.g, w.d, w.a, some w.b, none, 1, fun x y _ => cmpSpec w.f x y⟩
  | .sel w => some ⟨w.g, w.d, w.a, some w.b, some w.f, 1, fun x y z => if z ≠ 0 then x else y⟩
  | _ => none

/-- The mask of bits pos to pos + len - 1. -/
def fieldMask (pos len : Nat) : W64 := BitVec.ofNat 64 ((2 ^ len - 1) * 2 ^ pos)

/-- The bits of a word below bit n that are set. -/
def popBelow (n : Nat) (x : W64) : Nat := ((List.range n).filter fun k => x.getLsbD k).length

/-- What R158 and R161 to R163 write to s[d]: the immediate forms, the bit counts and the bit fields. popc is Pop(x); clz and
ctz are the numbers of leading and trailing zeros, 64 for 0. -/
def bitForm (i : Instr) : Option SForm :=
  match i with
  | .addi w => some ⟨w.g, w.d, w.a, none, none, 1, fun x _ _ => x + iImm w.imm w.x⟩
  | .andi w => some ⟨w.g, w.d, w.a, none, none, 1, fun x _ _ => x &&& iImm w.imm w.x⟩
  | .ori w => some ⟨w.g, w.d, w.a, none, none, 1, fun x _ _ => x ||| iImm w.imm w.x⟩
  | .xori w => some ⟨w.g, w.d, w.a, none, none, 1, fun x _ _ => x ^^^ iImm w.imm w.x⟩
  | .slli w => some ⟨w.g, w.d, w.a, none, none, 1, fun x _ _ => x <<< (w.imm &&& 63).toNat⟩
  | .srli w => some ⟨w.g, w.d, w.a, none, none, 1, fun x _ _ => x >>> (w.imm &&& 63).toNat⟩
  | .srai w => some ⟨w.g, w.d, w.a, none, none, 1, fun x _ _ => x.sshiftRight (w.imm &&& 63).toNat⟩
  | .popc w => some ⟨w.g, w.d, w.a, none, none, 1, fun x _ _ => BitVec.ofNat 64 (popBelow 64 x)⟩
  | .clz w => some ⟨w.g, w.d, w.a, none, none, 1, fun x _ _ => BitVec.ofNat 64 (if x = 0 then 64 else 63 - Nat.log2 x.toNat)⟩
  | .ctz w => some ⟨w.g, w.d, w.a, none, none, 1,
      fun x _ _ => BitVec.ofNat 64 (if x = 0 then 64 else Nat.log2 (x &&& (0 - x)).toNat)⟩
  | .ppopc w => some ⟨w.g, w.d, w.a, some w.b, none, 2, fun x y _ =>
      if x.getLsbD (y.toNat % 16) then BitVec.ofNat 64 (popBelow (y.toNat % 16) x) else 0xFFFFFFFFFFFFFFFF⟩
  | .dep w => some ⟨w.g, w.d, w.a, some w.d, none, 1, fun x y _ =>
      (y &&& ~~~ fieldMask w.b.toNat (w.f.toNat + 1)) ||| ((x <<< w.b.toNat) &&& fieldMask w.b.toNat (w.f.toNat + 1))⟩
  | .ext w => some ⟨w.g, w.d, w.a, none, none, 1, fun x _ _ => (x >>> w.b.toNat) &&& fieldMask 0 (w.f.toNat + 1)⟩
  | .exts w => some ⟨w.g, w.d, w.a, none, none, 1, fun x _ _ =>
      ((x >>> w.b.toNat).setWidth (w.f.toNat + 1)).signExtend 64⟩
  | _ => none

/-- An S instruction completes as its form says: nothing changes but that one result is in flight, which lands L cycles after
issue and writes s[d] with the value that the form computes from the sources' values at issue; it raises no flag. -/
def Completes (form : Instr → Option SForm) : Prop :=
  ∀ (i : Instr) (w : SForm) (s : State), form i = some w → gateOk w.g s.cur.level = true →
    NoBreach s (w.a :: (w.b.toList ++ w.c.toList)) w.d →
    ∃ t f, exec i s = .next t ∧ OnlyCx s t { s.cx with inflight := s.cx.inflight ++ [f] }
      ∧ IsResult s f .s w.lat (.s w.d.toNat (w.val (readOp s 0 (some w.a)) (readOp s 3 w.b) (readOp s 6 w.c))) 0

end Sys2Proof.Claims

/-- R155 to R160: each integer instruction of two or three registers computes its value of R156 from its sources' values at
issue, with the edges of R157, and puts it in flight for s[d]; nothing else changes. -/
def Obligations.ScalarIntegerResults : Prop := Sys2Proof.Claims.Completes Sys2Proof.Claims.intForm

/-- R155, R158, R161 to R163: the same of the immediate forms, the bit counts, ppopc and the bit fields. -/
def Sys2Proof.Claims.ScalarBitResults : Prop := Sys2Proof.Claims.Completes Sys2Proof.Claims.bitForm

/-! ### Scalar floating point -/

namespace Sys2Proof.Claims

open Sys2Proof.Machine

/-- The rational that a finite value stands for; 0 for the others. -/
def ratOf (v : FVal) : Rat :=
  match v with
  | .fin s m e => (if s then -1 else 1) * (m : Rat) * (2 : Rat) ^ e
  | _ => 0

/-- A value is finite. -/
def isFin (v : FVal) : Bool := !v.isNaN && !v.isInf

/-- The exact sum (R165): NaN for a NaN operand, and with IV for ∞ - ∞; an infinity; else the exact rational, where an exact
zero has the common sign of two zeros, and otherwise - only toward -∞. -/
def IsSum (rm : BitVec 2) (x y v : FVal) (fl : Flags) : Prop :=
  if x.isNaN || y.isNaN then v.isNaN = true ∧ fl = 0
  else if x.isInf && y.isInf then (if x.neg = y.neg then v = .inf x.neg ∧ fl = 0 else v.isNaN = true ∧ fl = flIV)
  else if x.isInf then v = .inf x.neg ∧ fl = 0
  else if y.isInf then v = .inf y.neg ∧ fl = 0
  else isFin v = true ∧ ratOf v = ratOf x + ratOf y ∧ fl = 0
    ∧ (ratOf v = 0 → v.neg = if ratOf x = 0 ∧ x.neg = y.neg then x.neg else rm == 2)

/-- The exact product (R165): NaN for a NaN operand, and with IV for 0 x ∞; else of the operands' magnitudes with the sign of
their signs. -/
def IsProduct (x y v : FVal) (fl : Flags) : Prop :=
  if x.isNaN || y.isNaN then v.isNaN = true ∧ fl = 0
  else if (x.isInf && ratOf y = 0 && isFin y) || (y.isInf && ratOf x = 0 && isFin x) then v.isNaN = true ∧ fl = flIV
  else if x.isInf || y.isInf then v = .inf (x.neg != y.neg) ∧ fl = 0
  else isFin v = true ∧ ratOf v = ratOf x * ratOf y ∧ v.neg = (x.neg != y.neg) ∧ fl = 0

/-- The quotient (R165): NaN for a NaN operand, and with IV for 0 / 0 and ∞ / ∞; a signed infinity for ∞ / y, and with DZ
for a finite x / 0; a signed zero for x / ∞; else the quotient's magnitude cut to a multiple of a power of two that it holds
at least 2^60 times, with `sticky` telling whether anything was cut. -/
def IsQuotient (x y v : FVal) (sticky : Bool) (fl : Flags) : Prop :=
  if x.isNaN || y.isNaN then v.isNaN = true ∧ sticky = false ∧ fl = 0
  else if (x.isInf && y.isInf) || (isFin x && isFin y && ratOf x = 0 && ratOf y = 0) then
    v.isNaN = true ∧ sticky = false ∧ fl = flIV
  else if x.isInf then v = .inf (x.neg != y.neg) ∧ sticky = false ∧ fl = 0
  else if y.isInf || ratOf x = 0 then
    isFin v = true ∧ ratOf v = 0 ∧ v.neg = (x.neg != y.neg) ∧ sticky = false ∧ fl = 0
  else if ratOf y = 0 then v = .inf (x.neg != y.neg) ∧ sticky = false ∧ fl = flDZ
  else fl = 0 ∧ ∃ m e, v = .fin (x.neg != y.neg) m e ∧ 2 ^ 60 ≤ m
    ∧ (m : Rat) * 2 ^ e ≤ |ratOf x / ratOf y| ∧ |ratOf x / ratOf y| < (m + 1 : Rat) * 2 ^ e
    ∧ (sticky = true ↔ (m : Rat) * 2 ^ e ≠ |ratOf x / ratOf y|)

/-- The order of two values that are not NaN: infinities at the ends, finite values by their rationals. -/
def valueLt (x y : FVal) : Prop :=
  if x = .inf false ∨ y = .inf true then False
  else if x = .inf true ∨ y = .inf false then True
  else ratOf x < ratOf y

/-- The smaller (`less`) or larger of two values (R165): NaN for a NaN operand; -0 is smaller than +0. -/
def IsMinOrMax (less : Bool) (x y v : FVal) : Prop :=
  if x.isNaN || y.isNaN then v.isNaN = true
  else (v = x ∨ v = y)
    ∧ (valueLt x y → v = if less then x else y) ∧ (valueLt y x → v = if less then y else x)
    ∧ (¬ valueLt x y → ¬ valueLt y x → v.neg = if less then x.neg || y.neg else x.neg && y.neg)

/-- The mode of an S rounding (R164, R178): the override of f, else VMODE.RM at delivery. -/
def sMode (w : FR) (vm : BitVec 2) : BitVec 2 :=
  match (w.f.extractLsb' 0 3).toNat with
  | 0 => vm
  | 1 => 0
  | 2 => 1
  | 3 => 2
  | _ => 3

/-- An FP32 operand (R164): bits [31:0], flushed under FZI. -/
def sOperand (w : FR) (x : W64) : FVal := unpackZ f32 (w.f.getLsbD 3) (x.setWidth 32).toNat

/-- The exact result of an arithmetic form before its one rounding: the value, what was cut from it, and the flags. -/
def ExactResult (i : Instr) (vm : BitVec 2) (x y z : W64) (v : FVal) (sticky : Bool) (fl : Flags) : Prop :=
  match i with
  | .fadd w => IsSum (sMode w vm) (sOperand w x) (sOperand w y) v fl ∧ sticky = false
  | .fsub w => IsSum (sMode w vm) (sOperand w x) (sOperand w y).negate v fl ∧ sticky = false
  | .fmul w => IsProduct (sOperand w x) (sOperand w y) v fl ∧ sticky = false
  | .fdiv w => IsQuotient (sOperand w x) (sOperand w y) v sticky fl
  | .fma w => sticky = false ∧ ∃ p f1 f2, IsProduct (sOperand w x) (sOperand w y) p f1
      ∧ IsSum (sMode w vm) p (sOperand w z) v f2 ∧ fl = f1 ||| f2
  | .fmin w => IsMinOrMax true (sOperand w x) (sOperand w y) v ∧ sticky = false ∧ fl = 0
  | .fmax w => IsMinOrMax false (sOperand w x) (sOperand w y) v ∧ sticky = false ∧ fl = 0
  | _ => False

/-- The fields, latency and sources of a floating-point form (R155, R165). -/
def fltFields (i : Instr) : Option (FR × Nat × Option (BitVec 6) × Option (BitVec 6)) :=
  match i with
  | .fadd w => some (w, 4, some w.b, none)
  | .fsub w => some (w, 4, some w.b, none)
  | .fmul w => some (w, 4, some w.b, none)
  | .fdiv w => some (w, 16, some w.b, none)
  | .fma w => some (w, 4, some w.b, some w.d)
  | .fmin w => some (w, 4, some w.b, none)
  | .fmax w => some (w, 4, some w.b, none)
  | .fcmp w => some (w, 2, some w.b, none)
  | .fcvt w => some (w, 3, none, none)
  | _ => none

/-- The value and flags of an arithmetic form (R165): its exact result rounded once, to bits [31:0], under its mode and FZO. -/
def FltValue (i : Instr) (w : FR) (vm : BitVec 2) (x y z : W64) (r : W64) (fl : Flags) : Prop :=
  ∃ v sticky f0, ExactResult i vm x y z v sticky f0
    ∧ r = BitVec.ofNat 64 (roundFmt f32 (sMode w vm) (w.f.getLsbD 4) v sticky).1
    ∧ fl = f0 ||| (roundFmt f32 (sMode w vm) (w.f.getLsbD 4) v sticky).2

/-- The conditions EQ, NE, LT, LE, UN of fcmp between values that are not NaN (R166): -0 and +0 are equal. -/
def fcmpTrue (cc : Nat) (a b : FVal) : Prop :=
  match cc with
  | 0 => ¬ valueLt a b ∧ ¬ valueLt b a
  | 1 => valueLt a b ∨ valueLt b a
  | 2 => valueLt a b
  | 3 => ¬ valueLt b a
  | _ => False

/-- The value and flags of fcmp (R166): a NaN operand makes NE and UN true and raises IV. -/
def FcmpValue (w : FR) (x y : W64) (r : W64) (fl : Flags) : Prop :=
  let a := sOperand w x
  let b := sOperand w y
  if a.isNaN || b.isNaN then (r = if w.f.extractLsb' 0 3 = 1 ∨ w.f.extractLsb' 0 3 = 4 then 1 else 0) ∧ fl = flIV
  else fl = 0 ∧ (r = 1 ∨ r = 0) ∧ (r = 1 ↔ fcmpTrue (w.f.extractLsb' 0 3).toNat a b)

/-- The value and flags of fcvt (R167): one rounding to FP32, BF16 or FP16, or to an integer with saturation. -/
def FcvtValue (w : FR) (vm : BitVec 2) (x : W64) (r : W64) (fl : Flags) : Prop :=
  let rm := sMode w vm
  let lo := (x.setWidth 32).toNat
  let half := (x.setWidth 16).toNat
  let flt (p : Nat × Flags) : Prop := r = BitVec.ofNat 64 p.1 ∧ fl = p.2
  let int (p : Int × Flags) : Prop := r = BitVec.ofInt 64 p.1 ∧ fl = p.2
  match (w.f.extractLsb' 3 3).toNat with
  | 0 => flt (roundFmt f32 rm false (.fin (x.toInt < 0) x.toInt.natAbs 0) false)
  | 1 => flt (roundFmt f32 rm false (.fin false x.toNat 0) false)
  | 2 => int (toIntSat rm (-2 ^ 63) (2 ^ 63 - 1) (unpack f32 lo))
  | 3 => int (toIntSat rm 0 (2 ^ 64 - 1) (unpack f32 lo))
  | 4 => flt (roundFmt bf16 rm false (unpack f32 lo) false)
  | 5 => flt (roundFmt f16 rm false (unpack f32 lo) false)
  | 6 => flt (roundFmt f32 rm false (unpack bf16 half) false)
  | _ => flt (roundFmt f32 rm false (unpack f16 half) false)

/-- The value and flags of a floating-point S instruction from its sources. -/
def SFloatValue (i : Instr) (vm : BitVec 2) (x y z : W64) (r : W64) (fl : Flags) : Prop :=
  match i with
  | .fcmp w => FcmpValue w x y r fl
  | .fcvt w => FcvtValue w vm x r fl
  | .fadd w | .fsub w | .fmul w | .fdiv w | .fma w | .fmin w | .fmax w => FltValue i w vm x y z r fl
  | _ => False

/-- A trap with line or instruction precision has been taken at the executing instruction (R392, R394 steps 1 and 2): it is
recorded, or MORE is set beside an earlier one; every queue is empty, the sequencer has ended, no register, result in flight
or byte of memory has changed. -/
def PreciseTrap (s t : State) (st : Stream) (cause : Nat) (addr : W64) (code : Nat) : Prop :=
  (s.cx.due = none → s.cx.pend = none → t.cx.due = some ⟨cause, s.cur.line, s.cur.slot, addr, code, streamCode st, true⟩
    ∧ t.cx.more = s.cx.more
    ∧ t.cx.cq = [] ∧ t.cx.sq = [] ∧ t.cx.vq = [] ∧ t.cx.mq = [] ∧ t.cx.xq = [] ∧ t.cx.aq = [] ∧ t.cx.yq = []
    ∧ t.cx.mode = .ended)
    ∧ (∀ p, s.cx.due = none → s.cx.pend = some p → t.cx.due = some p)
    ∧ (∀ d, s.cx.due = some d → t.cx.due = some d ∧ t.cx.more = true)
    ∧ t.cx.s = s.cx.s ∧ t.cx.a = s.cx.a ∧ t.cx.v = s.cx.v ∧ t.cx.p = s.cx.p ∧ t.cx.inflight = s.cx.inflight
    ∧ t.cx.flg = s.cx.flg ∧ OnlyCx s t t.cx

end Sys2Proof.Claims

/-- R155, R164 to R167: a floating-point S instruction computes the exact result of its operands, rounds it once and puts it in
flight with the flags it raised; a flag whose trap is enabled makes it the precise arithmetic trap instead, and the
destination is not written. -/
def Sys2Proof.Claims.ScalarFloatResults : Prop :=
  open Sys2Proof Sys2Proof.Machine Sys2Proof.Claims in
  ∀ (i : Instr) (w : FR) (lat : Nat) (b c : Option (BitVec 6)) (s : State), wf i = true →
    fltFields i = some (w, lat, b, c) →
    gateOk w.g s.cur.level = true → NoBreach s (w.a :: (b.toList ++ c.toList)) w.d →
    ∃ r fl, SFloatValue i s.cur.rm (readOp s 0 (some w.a)) (readOp s 3 b) (readOp s 6 c) r fl
      ∧ if fl &&& s.cur.ten = 0 then
          ∃ t f, exec i s = .next t ∧ OnlyCx s t { s.cx with inflight := s.cx.inflight ++ [f] }
            ∧ IsResult s f .s lat (.s w.d.toNat r) fl
        else ∃ t, exec i s = .next t ∧ PreciseTrap s t .s 0x0E (BitVec.ofNat 64 (fl.toNat * 65536)) 0

/-- R155, R158 to R166, R173, R174: the immediate forms, bit counts, bit fields and the floating-point instructions of the S
stream complete with their results, each as its part says. -/
def Obligations.ScalarBitsAndFloats : Prop :=
  Sys2Proof.Claims.ScalarBitResults
    ∧ Sys2Proof.Claims.ScalarFloatResults

/-! ### Rounding -/

namespace Sys2Proof.Claims

open Sys2Proof.Machine

/-- The formats that RoundFmt rounds to in R179 (E4M3 is rounded by R183). -/
def roundFormats : List Fmt := [f32, bf16, f16]
/-- The greatest finite value of a format (R173): (2 - 2^-fb) x 2^bias. -/
def greatest (f : Fmt) : Rat := (2 - 2 ^ (-(f.fb : Int))) * 2 ^ (f.bias : Int)
/-- The finite patterns of a format. -/
def FinitePat (f : Fmt) (p : Nat) : Prop := p < 2 ^ (1 + f.eb + f.fb) ∧ isFin (unpack f p) = true

/-- The magnitude rounded without a bound on the exponent exceeds the greatest finite value (R179): nearest reaches that value
plus half its step, away from zero passes it, toward zero reaches the next power of two. -/
def Overflows (f : Fmt) (rm : BitVec 2) (neg : Bool) (x : Rat) : Prop :=
  if rm = 0 then greatest f + 2 ^ ((f.bias : Int) - f.fb - 1) ≤ |x|
  else if (rm = 2 ∧ neg = true) ∨ (rm = 3 ∧ neg = false) then greatest f < |x|
  else 2 ^ ((f.bias : Int) + 1) ≤ |x|

/-- Tiny(x) of R180: x is not zero, and rounded with an unbounded exponent its magnitude lies below the smallest normal. -/
def Tiny (f : Fmt) (rm : BitVec 2) (neg : Bool) (x : Rat) : Prop :=
  x ≠ 0 ∧
    if rm = 0 then |x| < 2 ^ (1 - (f.bias : Int)) - 2 ^ (-1 - (f.bias : Int) - f.fb)
    else if (rm = 2 ∧ neg = true) ∨ (rm = 3 ∧ neg = false) then |x| ≤ 2 ^ (1 - (f.bias : Int)) - 2 ^ (-(f.bias : Int) - f.fb)
    else |x| < 2 ^ (1 - (f.bias : Int))

/-- The result of an overflow (R179): RNE gives the infinity of the sign, toward zero the greatest finite value of the sign,
toward -∞ and toward +∞ the one or the other. -/
def overflowResult (f : Fmt) (rm : BitVec 2) (neg : Bool) : Nat :=
  let inf := (2 ^ f.eb - 1) * 2 ^ f.fb
  let away := if rm = 0 then true else if rm = 1 then false else if rm = 2 then neg else !neg
  (if neg then 2 ^ (f.eb + f.fb) else 0) + (if away then inf else inf - 1)

/-- The finite value y of pattern p is the neighbour of x that the mode picks (R179): no finite value of the format is nearer,
and on a tie the last fraction bit is 0; or no finite value lies between y and x on the mode's side. -/
def Neighbour (f : Fmt) (rm : BitVec 2) (x : Rat) (p : Nat) : Prop :=
  let y := ratOf (unpack f p)
  ∀ q, FinitePat f q →
    let z := ratOf (unpack f q)
    if rm = 0 then |y - x| ≤ |z - x| ∧ (|y - x| = |z - x| → z ≠ y → p % 2 = 0)
    else if rm = 2 ∨ (rm = 1 ∧ 0 ≤ x) then y ≤ x ∧ (z ≤ x → z ≤ y)
    else x ≤ y ∧ (x ≤ z → y ≤ z)

end Sys2Proof.Claims

/-- R179, and the flags NX, UF and OF of R180: RoundFmt of an exact value x picks the neighbour that the mode asks for, keeps the sign of a zero, and raises NX
exactly when the result differs from x and UF exactly when x is also tiny; where the rounded magnitude exceeds the greatest
finite value it gives the overflow result of the mode and raises OF and NX. -/
def Obligations.RoundingPicksTheNeighbour : Prop :=
  open Sys2Proof Sys2Proof.Machine Sys2Proof.Claims in
  ∀ f ∈ roundFormats, ∀ (rm : BitVec 2) (neg : Bool) (m : Nat) (e : Int),
    let x := ratOf (.fin neg m e)
    let r := roundFmt f rm false (.fin neg m e) false
    (Overflows f rm neg x → r = (overflowResult f rm neg, flOF ||| flNX))
      ∧ (¬ Overflows f rm neg x → FinitePat f r.1 ∧ Neighbour f rm x r.1 ∧ signOf f r.1 = neg
        ∧ (r.2 = 0 ↔ ratOf (unpack f r.1) = x)
        ∧ (ratOf (unpack f r.1) ≠ x → Tiny f rm neg x → r.2 = flUF ||| flNX)
        ∧ (ratOf (unpack f r.1) ≠ x → ¬ Tiny f rm neg x → r.2 = flNX))

/-! ### Reads and results of registers -/

namespace Sys2Proof.Claims

open Sys2Proof.Machine

/-- Two words agree with a choice in each 4-byte unit: the unit of v is that of x or that of y (R126). -/
def UnitsOf (v x y : W64) : Prop :=
  (v.extractLsb' 0 32 = x.extractLsb' 0 32 ∨ v.extractLsb' 0 32 = y.extractLsb' 0 32)
    ∧ (v.extractLsb' 32 32 = x.extractLsb' 32 32 ∨ v.extractLsb' 32 32 = y.extractLsb' 32 32)

/-- Everything of a context that an instruction can name but the registers, results in flight and accesses. -/
def RestSame (c d : Ctx) : Prop :=
  d.a = c.a ∧ d.rm = c.rm ∧ d.ten = c.ten ∧ d.psel = c.psel ∧ d.gzero = c.gzero ∧ d.chk = c.chk ∧ d.deadrd = c.deadrd
    ∧ d.depth = c.depth ∧ d.loops = c.loops ∧ d.rrb = c.rrb ∧ d.vdep = c.vdep ∧ d.pdep = c.pdep ∧ d.hint = c.hint
    ∧ d.ncl = c.ncl ∧ d.ncs = c.ncs ∧ d.ncx = c.ncx ∧ d.ncm = c.ncm ∧ d.lports = c.lports ∧ d.ag = c.ag ∧ d.cols = c.cols
    ∧ d.pc = c.pc ∧ d.resume = c.resume

/-- What a result that has met no other write leaves in the registers, predicates, ports and token queue (R125, R136, R137,
R140, R154, R201, R235). -/
def LandsIn (r : Res) (c d : Ctx) : Prop :=
  match r with
  | .none => d.s = c.s ∧ d.v = c.v ∧ d.p = c.p ∧ d.sports = c.sports ∧ d.tokens = c.tokens
  | .s n v =>
    (∀ k, d.rs k = if k = n ∧ n ≠ 0 ∧ n < 64 then v else c.rs k) ∧ d.v = c.v ∧ d.p = c.p ∧ d.sports = c.sports ∧ d.tokens = c.tokens
  | .v n x sc =>
    (∀ k, d.v[k]? = if k = n ∧ n < 48 then some ⟨x, sc⟩ else c.v[k]?)
      ∧ (∀ k, d.vage[k]? = if c.khd.rot = true ∧ 16 ≤ n ∧ k = n - 16 ∧ k < 32 then some 0 else c.vage[k]?)
      ∧ d.s = c.s ∧ d.p = c.p ∧ d.page = c.page ∧ d.sports = c.sports ∧ d.tokens = c.tokens
  | .vsc n sc =>
    (∀ k, d.v[k]? = if k = n ∧ n < 48 then c.v[k]?.map (fun o => ⟨o.d, sc⟩) else c.v[k]?)
      ∧ d.s = c.s ∧ d.p = c.p ∧ d.page = c.page ∧ d.sports = c.sports ∧ d.tokens = c.tokens
  | .p n x =>
    (∀ k, d.p[k]? = if k = n ∧ n ≠ 0 ∧ n < 16 then some x else c.p[k]?)
      ∧ (∀ k, d.page[k]? = if c.khd.rot = true ∧ 8 ≤ n ∧ k = n - 8 ∧ k < 8 then some 0 else c.page[k]?)
      ∧ d.s = c.s ∧ d.v = c.v ∧ d.vage = c.vage ∧ d.sports = c.sports ∧ d.tokens = c.tokens
  | .port n eid x sc =>
    (∀ k, d.sports[k]? = if k = n then c.sports[k]?.map (fun es => es.map fun e =>
        if e.eid = eid then ⟨e.eid, true, ⟨x, sc⟩⟩ else e) else c.sports[k]?)
      ∧ d.s = c.s ∧ d.v = c.v ∧ d.p = c.p ∧ d.tokens = c.tokens
  | .tok t => d.tokens = c.tokens ++ [t] ∧ d.s = c.s ∧ d.v = c.v ∧ d.p = c.p ∧ d.sports = c.sports

end Sys2Proof.Claims

/-- R125, R126, R154, R169, R213: what a read of a scalar register finds. s0 is zero; with no write of the register in flight and no access
that owns it, the register; of one write in flight the new value from the cycle in which it lands, the old value until the
cycle after issue, and one of the two in between; of a register that an access owns, the old value or the one that the access brings. -/
def Sys2Proof.Claims.ScalarReads : Prop :=
  open Sys2Proof Sys2Proof.Machine in
  ∀ (s : State) (k r : Nat),
    (r = 0 → readS s k r = 0)
      ∧ (ownsS s.cx r = false → (∀ f ∈ s.cx.inflight, f.res.sreg ≠ some r) → readS s k r = s.cx.rs r)
      ∧ (∀ (l m : List InFlight) (f : InFlight) (v : W64), r ≠ 0 → ownsS s.cx r = false → s.cx.inflight = l ++ f :: m →
          f.res = .s r v → (∀ g ∈ l ++ m, g.res.sreg ≠ some r) →
          (f.due ≤ s.cycle → readS s k r = v)
            ∧ (s.cycle < f.due → s.cycle ≤ f.issued → readS s k r = s.cx.rs r)
            ∧ (s.cycle < f.due → f.issued < s.cycle → readS s k r = s.cx.rs r ∨ readS s k r = v))
      ∧ (ownsS s.cx r = true → (∀ f ∈ s.cx.inflight, f.res.sreg ≠ some r) →
          readS s k r = s.cx.rs r ∨ newS s r = some (readS s k r))

/-- R125, R126, R180: a result in flight whose cycle has come lands: it leaves the results in flight, is written where it is to
be, ORs the flags it raised into VMODE.FLG and its SMXNAN into the status, and changes no byte of memory. A scalar result that
has met another write leaves in each 4-byte unit one of the two values. -/
def Sys2Proof.Claims.ResultsLand : Prop :=
  open Sys2Proof Sys2Proof.Machine Sys2Proof.Claims in
  ∀ (s : State) (f : InFlight), s.cx.inflight[s.sub.a]? = some f → f.due ≤ s.cycle →
    ∃ t, exec .resultWrite s = .next t
      ∧ t.cx.flg = s.cx.flg ||| f.flags ∧ t.cx.smxnan = (s.cx.smxnan || f.smx)
      ∧ t.cx.inflight.map (fun g => { g with contested := false })
          = (s.cx.inflight.eraseIdx s.sub.a).map (fun g => { g with contested := false })
      ∧ (f.contested = false → LandsIn f.res s.cx t.cx)
      ∧ (∀ n v, f.res = .s n v → n ≠ 0 → n < 64 → UnitsOf (t.cx.rs n) (s.cx.rs n) v)
      ∧ RestSame s.cx t.cx ∧ OnlyCx s t t.cx
      ∧ (f.flags &&& f.ten = 0 ∨ f.st = .s → t.cx.pend = s.cx.pend)

/-- R142: a counted instruction that has completed leaves its counter, and nothing else changes. -/
def Sys2Proof.Claims.CountersFall : Prop :=
  open Sys2Proof Sys2Proof.Machine Sys2Proof.Claims in
  ∀ (s : State) (d : Dec), s.cx.decs[s.sub.a]? = some d → d.ctr ≤ 3 →
    ∃ t, exec .completionCounterDecrement s = .next t
      ∧ t = { s with cx := { s.cx with
          ncl := s.cx.ncl - (if d.ctr = 0 then 1 else 0), ncs := s.cx.ncs - (if d.ctr = 1 then 1 else 0),
          ncx := s.cx.ncx - (if d.ctr = 2 then 1 else 0), ncm := s.cx.ncm - (if d.ctr = 3 then 1 else 0),
          decs := s.cx.decs.eraseIdx s.sub.a } }
      ∧ ∀ k, homeByte t k = homeByte s k

/-- R125, R126, R142, R154, R180: reads of scalar registers, results in flight that land, and counters that fall, each as its
part says. -/
def Obligations.ScalarRegistersReadAndLand : Prop :=
  Sys2Proof.Claims.ScalarReads
    ∧ Sys2Proof.Claims.ResultsLand
    ∧ Sys2Proof.Claims.CountersFall

/-! ### Uncached global accesses -/

namespace Sys2Proof.Claims

open Sys2Proof.Machine

/-- The bytes and the extension of an sz code (R103): s8 z8 s16 z16 s32 z32 s64. -/
def szSpec (sz : BitVec 3) : Nat × Bool :=
  match sz.toNat with
  | 0 => (1, true)
  | 1 => (1, false)
  | 2 => (2, true)
  | 3 => (2, false)
  | 4 => (4, true)
  | 5 => (4, false)
  | _ => (8, true)

/-- The address of gld and gst (R170): base plus off9 x size, or plus a byte offset in an E word. -/
def globAddr (w : FIM) (base : W64) : W64 :=
  match w.x with
  | [] => base + w.off.signExtend 64 * BitVec.ofNat 64 (szSpec w.sz).1
  | e :: _ => base + e.signExtend 64

/-- The S accesses as R170 to R172 describe them: gate, registers read, register owned, and the outstanding access. -/
structure GForm where
  g : BitVec 2
  reads : List (BitVec 6)
  d : Option (BitVec 6)
  op : GOp
  addr : W64

/-- The form of each S access in a state. -/
def globForm (i : Instr) (s : State) : Option GForm :=
  match i with
  | .gld w => some ⟨w.g, [w.a], some w.d, .gld (szSpec w.sz).1 (szSpec w.sz).2, globAddr w (readS s 0 w.a.toNat)⟩
  | .gst w => some ⟨w.g, [w.a, w.d], none, .gst (szSpec w.sz).1 (readS s 3 w.d.toNat), globAddr w (readS s 0 w.a.toNat)⟩
  | .gatom w => some ⟨w.g, [w.a, w.b] ++ (if w.f.extractLsb' 0 4 = 3 then [w.d] else []), some w.d,
      .gatom (w.f.extractLsb' 0 4).toNat (w.f.extractLsb' 4 2).toNat (readS s 3 w.b.toNat) (readS s 6 w.d.toNat),
      readS s 0 w.a.toNat⟩
  | .amaxx w => some ⟨w.g, [w.a], some w.d, .amaxx, readS s 0 w.a.toNat⟩
  | _ => none

/-- The value that gatom leaves at its address (R171); none where nothing is written. `old` and the operands have 64 bits, of
.famax the low 32. -/
def gatomSpec (op : Nat) (old b d : W64) : Option W64 :=
  match op with
  | 0 => none
  | 1 => some b
  | 2 => some b
  | 3 => if old = d then some b else none
  | 4 => some (old + b)
  | 5 => some (old &&& b)
  | 6 => some (old ||| b)
  | 7 => some (old ^^^ b)
  | 8 => some (if old.slt b then b else old)
  | 9 => some (if old.ult b then b else old)
  | 10 => some (if old.slt b then old else b)
  | 11 => some (if old.ult b then old else b)
  | _ =>
    let m : W64 := if (unpack f32 (b.setWidth 32).toNat).isNaN then 0x7FC00000 else b &&& 0x7FFFFFFF
    some (if old.ult m then m else old)

/-- The bytes that an S access leaves at its address, lowest first; none where it writes nothing. -/
def globBytes (op : GOp) (old : Nat) : Option (List Byte) :=
  match op with
  | .gld _ _ => none
  | .gst n v => some ((List.range n).map fun i => v.extractLsb' (8 * i) 8)
  | .gatom o _ b d =>
    (gatomSpec o (BitVec.ofNat 64 old) b d).map fun v => (List.range (if o = 12 then 4 else 8)).map fun i => v.extractLsb' (8 * i) 8
  | .amaxx => some [0, 0, 0, 0]

/-- The value that an S access returns (R170 to R172): the bytes read, sign-extended for a signed gld. -/
def globValue (op : GOp) (old : Nat) : W64 :=
  match op with
  | .gld n true => (BitVec.ofNat (8 * n) old).signExtend 64
  | .gst _ _ => 0
  | _ => BitVec.ofNat 64 old

/-- Nothing holds an access to its home up on its way (R25, R303, R417). -/
def HopFree (s : State) (src : Nat) (ks : List Nat) (j : Journey) : Prop :=
  fencedKeys s src ks = false ∧ lacksSlot s src ks j = false ∧ asleepAt s ks = false

/-- An S access returns a value to its register. -/
def returns (op : GOp) : Bool :=
  match op with
  | .gst _ _ => false
  | _ => true

/-- A byte of memory reads as before, or its line is uncorrectable and it reads as zero: bytes of such a line that the write-combining
buffer has held are lost when the buffer's line gives way (R307, R308). -/
def SameByte (s t : State) (k : Nat) : Prop := homeByte t k = homeByte s k ∨ (k / 64 ∈ s.bad ∧ homeByte t k = 0)

/-- After a store of bytes at keys, each byte reads as stored unless its line is SEALED or uncorrectable, and every other byte
reads as before. -/
def Stored (s t : State) (ks : List Nat) (bs : List Byte) : Prop :=
  (∀ k ∉ ks, SameByte s t k)
    ∧ (ks.Nodup → ∀ (j : Nat) (k : Nat) (b : Byte), ks[j]? = some k → bs[j]? = some b → k / 64 ∉ s.bad → k / 64 ∉ s.sealed →
        (k < 2 ^ 50 ∨ redFind s.red (k / 4) = none) → homeByte t k = b)

end Sys2Proof.Claims

/-- R168, R170 to R172: an S access issues when no access of its context is outstanding: it stands outstanding, unperformed, at
the address and with the operands read at issue, and nothing else changes. -/
def Sys2Proof.Claims.GlobalAccessesIssue : Prop :=
  open Sys2Proof Sys2Proof.Machine Sys2Proof.Claims in
  ∀ (i : Instr) (w : GForm) (s : State), wf i = true → globForm i s = some w → gateOk w.g s.cur.level = true →
    s.cx.gacc = none →
    (s.cur.chk = false ∨ ((∀ r ∈ w.reads, breachS s.cx s.cycle r.toNat = false)
      ∧ ∀ d, w.d = some d → (VDst.scal d).breach s = false)) →
    ∃ t a, exec i s = .next t ∧ OnlyCx s t { s.cx with gacc := some a }
      ∧ a.op = w.op ∧ a.addr = w.addr ∧ (∀ d, w.d = some d → a.sd = d.toNat) ∧ a.st = .waiting ∧ a.seq = s.cur.seq
      ∧ a.line = s.cur.line ∧ a.slot = s.cur.slot ∧ a.mixed = false

/-- R168, R312, R321, R322: an outstanding S access that passes the checks of R286 and has released what it releases, whose way to its home
is free (its die is not being reset, it holds its request slot, its banks are awake) and whose home lies in this package is performed as
one action: it keeps the value it returns, its bytes are stored and every byte outside them reads as before. A store to another package
leaves through its fabric port, and no byte changes yet. An access that fails a check performs no byte and keeps the cause of the first
check that failed. -/
def Sys2Proof.Claims.GlobalAccessesPerform : Prop :=
  open Sys2Proof Sys2Proof.Machine Sys2Proof.Claims in
  ∀ (s : State) (g : GAcc), s.Ok → s.sub.acc = .glob → s.sub.ecc ≠ .uncorrectable → s.cx.gacc = some g → g.st = .waiting →
    (∀ ks, globResolve s g = .ok ks → globReleased s g ks = true → HopFree s s.cx.id.die ks g.go → awayDie s ks = none →
      ∃ t, exec .accessPerformed s = .next t
        ∧ t.cx = { s.cx with gacc := some { g with st := .done (globValue g.op (homeNat s ks)) } }
        ∧ (globBytes g.op (homeNat s ks) = none → ∀ k, homeByte t k = homeByte s k)
        ∧ ∀ bs, globBytes g.op (homeNat s ks) = some bs → Stored s t ks bs)
      ∧ (∀ ks d, globResolve s g = .ok ks → globReleased s g ks = true → HopFree s s.cx.id.die ks g.go → awayDie s ks = some d →
        g.go.left = none → g.op.isStore = true → (∀ q ∈ leftOnFabric s, q.1 = d → q.2.1 = fabPort s d) →
        ∃ t, exec .accessPerformed s = .next t
          ∧ t = { s with fabOrd := s.fabOrd + 1
                         cx := { s.cx with gacc := some { g with go := { g.go with left := some (fabPort s d, s.fabOrd), keys := ks } } } })
      ∧ (∀ c, globResolve s g = .error c → ∃ t, exec .accessPerformed s = .next t
        ∧ t.cx = { s.cx with gacc := some { g with st := .failed c } } ∧ ∀ k, homeByte t k = homeByte s k)

/-- R168, R169: the response of a performed S access ends it: a returned value is written to its register, s0 apart, and no
other register changes; a failed access is the precise trap of its cause, and writes no register. -/
def Sys2Proof.Claims.GlobalResponsesWrite : Prop :=
  open Sys2Proof Sys2Proof.Machine Sys2Proof.Claims in
  ∀ (s : State) (g : GAcc), s.cx.gacc = some g →
    (∀ v, g.st = .done v → ∃ t, exec .globalAccessResponse s = .next t ∧ t.cx.gacc = none
      ∧ (g.mixed = false → ∀ r, t.cx.rs r = if r = g.sd ∧ r ≠ 0 ∧ r < 64 ∧ returns g.op = true then v else s.cx.rs r)
      ∧ t.cx.v = s.cx.v ∧ t.cx.p = s.cx.p ∧ t.cx.flg = s.cx.flg ∧ RestSame s.cx t.cx ∧ OnlyCx s t t.cx)
      ∧ (∀ c, g.st = .failed c → s.cx.due = none → s.cx.pend = none → ∃ t, exec .globalAccessResponse s = .next t
        ∧ t.cx.gacc = none ∧ t.cx.due = some ⟨c, g.line, g.slot, g.addr, 0, 2, true⟩ ∧ t.cx.mode = .ended ∧ t.cx.sq = []
        ∧ t.cx.s = s.cx.s ∧ t.cx.v = s.cx.v ∧ t.cx.p = s.cx.p ∧ OnlyCx s t t.cx)

/-- R168 to R172, R286, R312: gld, gst and gatom issue, are performed as one action, and end with their response, each as its
part says. -/
def Obligations.GlobalAccesses : Prop :=
  Sys2Proof.Claims.GlobalAccessesIssue
    ∧ Sys2Proof.Claims.GlobalAccessesPerform
    ∧ Sys2Proof.Claims.GlobalResponsesWrite

/-! ## The C stream -/

namespace Sys2Proof.Claims

open Sys2Proof.Machine

/-- The registers that a C instruction reads have been written by everything before it (R122). -/
def ReadsReady (s : State) (rs : List (BitVec 6)) : Prop := ∀ r ∈ rs, sWritePending s.cx s.cycle r.toNat = false
/-- The register that a C instruction writes has been read and written by everything before it (R122). -/
def WriteReady (s : State) (r : BitVec 6) : Prop := sUsePending s.cx s.cycle r.toNat = false
/-- PC + 32 x off of the executing instruction's line. -/
def lineTarget {n : Nat} (s : State) (off : BitVec n) : W64 := s.cur.line + 32 * off.signExtend 64
/-- A target that R139 allows: a line address in [0, 2^57). -/
def LegalTarget (t : W64) : Prop := t.toNat % 32 = 0 ∧ t.toNat < 2 ^ 57
/-- The fault of a target that R139 does not allow: alignment (0x0A), else the window bound (0x06). -/
def targetFault (t : W64) : Nat := if t.toNat % 32 ≠ 0 then 0x0A else 0x06

/-- A branch or call (R138): gate, registers read, register that the link is written to, condition, target. -/
structure BForm where
  g : BitVec 2
  reads : List (BitVec 6)
  link : Option (BitVec 6)
  taken : Bool
  target : W64

/-- The conditions of bc against zero (R103): EQZ, NEZ, LTZ, GEZ, LEZ, GTZ. -/
def zeroCond (cc : BitVec 3) (x : W64) : Bool :=
  match cc.toNat with
  | 0 => x == 0
  | 1 => x != 0
  | 2 => x.slt 0
  | 3 => !x.slt 0
  | 4 => x.slt 0 || x == 0
  | _ => !(x.slt 0 || x == 0)

/-- The table of R138. -/
def branchForm (i : Instr) (s : State) : Option BForm :=
  match i with
  | .br w => some ⟨w.g, [], none, true, lineTarget s w.off⟩
  | .call w => some ⟨w.g, [], some 63, true, lineTarget s w.off⟩
  | .callr w => some ⟨w.g, [w.a], some w.d, true, s.cx.rs w.a.toNat⟩
  | .ret w => some ⟨w.g, [63], none, true, s.cx.rs 63⟩
  | .brr w => some ⟨w.g, [w.a], none, true, s.cx.rs w.a.toNat⟩
  | .bc w => some ⟨w.g, [w.a], none, zeroCond w.cc (s.cx.rs w.a.toNat), lineTarget s w.off⟩
  | .bcr w => some ⟨w.g, [w.a, w.b], none,
      cmpSpec (w.cc.setWidth 6) (s.cx.rs w.a.toNat) (s.cx.rs w.b.toNat) == 1, lineTarget s w.off⟩
  | _ => none

/-- Level k of the loop stack. -/
def lev (c : Ctx) (k : Nat) : Loop := c.loops.getD k Loop.zero

/-- The registers after the strides of an iteration end (R129): x, then y, each modulo 2^64; s0 stays zero. -/
def strided (c : Ctx) (l : Loop) (r : Nat) : W64 :=
  let v1 (k : Nat) : W64 := if k = l.x.toNat ∧ k ≠ 0 ∧ l.n ≠ 0 then c.rs k + l.stx.signExtend 64 else c.rs k
  if r = l.y.toNat ∧ r ≠ 0 ∧ l.n = 2 then v1 r + l.sty.signExtend 64 else v1 r

/-- The hint stands on the innermost level (R148). -/
def HintInside (c : Ctx) : Prop := c.hint.v = true ∧ c.hint.lev = c.depth - 1 ∧ c.depth ≠ 0

/-- What an iteration end leaves (R129): the strides, the rotation with its ages, the index, the level popped or not, the next line, the
boundary and the hint. `exit` is the exit line of the instruction; with `falls` it is the next line in memory, to which the line falls
through, so that past a LAST line no boundary comes before its trap (R96). A hint on a popped level stands until a boundary that is
entered has passed. -/
def IterationEnds (s t : State) (exit : W64) (falls : Bool) : Prop :=
  let c := s.cx
  let l := lev c (c.depth - 1)
  let goesOn : Prop := (l.idx + 1).toNat < l.cnt.toNat
  OnlyCx s t t.cx
    ∧ (∀ r, r < 64 → t.cx.rs r = strided c l r)
    ∧ (∀ k, k ≠ c.depth - 1 → lev t.cx k = lev c k)
    ∧ (c.depth ≤ 6 → lev t.cx (c.depth - 1) = { l with idx := l.idx + 1 })
    ∧ (goesOn → t.cx.depth = c.depth ∧ t.cx.nxt = some l.body)
    ∧ (¬ goesOn → t.cx.depth = c.depth - 1 ∧ t.cx.nxt = if falls then c.nxt else some exit)
    ∧ (c.khd.rot = true → t.cx.rrb = c.rrb - 1 ∧ t.cx.vage = c.vage.map (fun x => min 32 (x + 1))
        ∧ t.cx.page = c.page.map (fun x => min 8 (x + 1)))
    ∧ (c.khd.rot = false → t.cx.rrb = c.rrb ∧ t.cx.vage = c.vage ∧ t.cx.page = c.page)
    ∧ (HintInside c ∧ (goesOn ∨ falls = false ∨ c.last = false) ∧ (c.yieldReq = true ∨ c.prioReq = true) → t.cx.mode = .boundary)
    ∧ (¬ HintInside c ∨ (¬ goesOn ∧ falls = true ∧ c.last = true) ∨ (c.yieldReq = false ∧ c.prioReq = false) →
        t.cx.mode = c.mode)
    ∧ (HintInside c → c.depth ≤ 6 → ¬ goesOn → t.cx.mode ≠ .boundary → t.cx.hint = Hint.none)
    ∧ (t.cx.mode = .boundary ∨ c.hint.lev = 7 ∨ c.hint.lev < t.cx.depth → t.cx.hint = c.hint)
    ∧ t.cx.v = c.v ∧ t.cx.p = c.p ∧ t.cx.a = c.a ∧ t.cx.inflight = c.inflight ∧ t.cx.flg = c.flg ∧ t.cx.tokens = c.tokens

end Sys2Proof.Claims

/-- R138, R122: a branch or call whose registers are ready completes. Taken, it makes its target the next line and writes its
link, the line after its own, s0 apart; not taken, it changes nothing; nothing else changes. -/
def Sys2Proof.Claims.BranchesTransfer : Prop :=
  open Sys2Proof Sys2Proof.Machine Sys2Proof.Claims in
  ∀ (i : Instr) (w : BForm) (s : State), wf i = true → branchForm i s = some w → gateOk w.g s.cur.level = true →
    ReadsReady s w.reads → (∀ d, w.link = some d → WriteReady s d) → (w.taken = true → LegalTarget w.target) →
    ∃ t, exec i s = .next t
      ∧ (w.taken = false → t = s)
      ∧ (w.taken = true → OnlyCx s t { s.cx with s := t.cx.s, nxt := some w.target }
        ∧ ∀ r, t.cx.rs r = if w.link.map BitVec.toNat = some r ∧ r ≠ 0 then s.cur.line + 32 else s.cx.rs r)

/-- R139: a taken transfer whose target is not a line address below 2^57 is not taken and traps precisely at its line, by the
alignment trap first. -/
def Sys2Proof.Claims.BadTargetsTrap : Prop :=
  open Sys2Proof Sys2Proof.Machine Sys2Proof.Claims in
  ∀ (i : Instr) (w : BForm) (s : State), wf i = true → branchForm i s = some w → gateOk w.g s.cur.level = true →
    ReadsReady s w.reads → (∀ d, w.link = some d → WriteReady s d) → w.taken = true → ¬ LegalTarget w.target →
    ∃ t, exec i s = .next t ∧ PreciseTrap s t .c (targetFault w.target) w.target 0 ∧ t.cx.nxt = s.cx.nxt

/-- R122, R138, R139: branches and calls complete, and a taken one with a bad target traps, each as its part says. -/
def Obligations.BranchesTransferOrTrap : Prop :=
  Sys2Proof.Claims.BranchesTransfer
    ∧ Sys2Proof.Claims.BadTargetsTrap

/-- R128, R133, R135: loop with a count that is not zero pushes a level that latches the count, the line after its own and its
bindings; a count of 0 pushes nothing and starts the skip of the body; a count of 2^32 or more, and a push at depth 6, trap
precisely with the stack unchanged. -/
def Sys2Proof.Claims.LoopsPush : Prop :=
  open Sys2Proof Sys2Proof.Machine Sys2Proof.Claims in
  ∀ (i : Instr) (w : FL) (s : State), i = .loop w ∨ i = .loopBound w → wf i = true → gateOk w.g s.cur.level = true →
    ReadsReady s [w.a] →
    let c := s.cx.rs w.a.toNat
    let e := w.x.headD 0
    (c.toNat < 2 ^ 32 → c ≠ 0 → s.cx.depth < 6 →
      ∃ t, exec i s = .next t ∧ OnlyCx s t { s.cx with loops := t.cx.loops, depth := s.cx.depth + 1 }
        ∧ lev t.cx s.cx.depth = ⟨c.setWidth 32, 0, s.cur.line + 32, w.n, w.bx, w.by', e.setWidth 16, e.extractLsb' 16 16⟩
        ∧ ∀ k, k ≠ s.cx.depth → lev t.cx k = lev s.cx k)
      ∧ (c = 0 → ∃ t, exec i s = .next t ∧ OnlyCx s t { s.cx with skip := some 0 })
      ∧ (2 ^ 32 ≤ c.toNat → ∃ t, exec i s = .next t ∧ PreciseTrap s t .c 0x04 0 0 ∧ t.cx.loops = s.cx.loops ∧ t.cx.depth = s.cx.depth)
      ∧ (c.toNat < 2 ^ 32 → c ≠ 0 → 6 ≤ s.cx.depth →
        ∃ t, exec i s = .next t ∧ PreciseTrap s t .c 0x05 0 0 ∧ t.cx.loops = s.cx.loops ∧ t.cx.depth = s.cx.depth)

/-- R129 to R131, R139: lend and lcont end an iteration of the innermost level once the registers bound to it are free: lend
falls through to the line after its own, lcont exits to PC + 32 x off. -/
def Sys2Proof.Claims.IterationsEnd : Prop :=
  open Sys2Proof Sys2Proof.Machine Sys2Proof.Claims in
  ∀ (i : Instr) (w : FJ) (s : State) (exit : W64) (falls : Bool), wf i = true →
    (i = .lend w ∧ falls = true ∧ exit = s.cur.line + 32 ∧ lineTarget s w.off = (lev s.cx (s.cx.depth - 1)).body)
      ∨ (i = .lcont w ∧ falls = false ∧ exit = lineTarget s w.off) →
    s.cx.depth ≠ 0 → s.cx.pend = none →
    (let l := lev s.cx (s.cx.depth - 1)
     (falls = true ∨ LegalTarget exit ∨ (l.idx + 1).toNat < l.cnt.toNat) ∧ (l.n ≠ 0 → WriteReady s l.x) ∧ (l.n = 2 → WriteReady s l.y)) →
    ∃ t, exec i s = .next t ∧ IterationEnds s t exit falls

/-- R130 to R132, R134, R135: lend and lcont and lbrk with no level active, and lend whose target is not the body of the innermost
level, are the precise illegal-loop trap, and so is lrd of a level that is not active. -/
def Sys2Proof.Claims.IllegalLoopsTrap : Prop :=
  open Sys2Proof Sys2Proof.Machine Sys2Proof.Claims in
  ∀ (i : Instr) (s : State), wf i = true →
    ((∃ w, i = .lend w ∧ (s.cx.depth = 0 ∨ lineTarget s w.off ≠ (lev s.cx (s.cx.depth - 1)).body))
      ∨ (∃ w, (i = .lcont w ∨ i = .lbrk w) ∧ s.cx.depth = 0)
      ∨ (∃ w, i = .lrd w ∧ gateOk w.g s.cur.level = true ∧ s.cx.depth ≤ (if w.a = 7 then s.cx.depth - 1 else w.a.toNat))) →
    ∃ t, exec i s = .next t ∧ PreciseTrap s t .c 0x04 0 0 ∧ t.cx.loops = s.cx.loops ∧ t.cx.depth = s.cx.depth

/-- R132, R134: lbrk pops the innermost level at once, with no stride, rotation or index change, clears a hint that stood on it
and continues at its offset; lrd writes the index, the count or the remaining iterations of an active level, zero-extended,
to s[d], s0 apart. Nothing else changes. -/
def Sys2Proof.Claims.LoopsBreakAndRead : Prop :=
  open Sys2Proof Sys2Proof.Machine Sys2Proof.Claims in
  (∀ (w : FJ) (s : State), wf (.lbrk w) = true → s.cx.depth ≠ 0 → LegalTarget (lineTarget s w.off) →
    ∃ t, exec (.lbrk w) s = .next t
      ∧ OnlyCx s t { s.cx with depth := s.cx.depth - 1, hint := t.cx.hint, nxt := some (lineTarget s w.off) }
      ∧ (HintInside s.cx → t.cx.hint = Hint.none) ∧ (¬ HintInside s.cx → t.cx.hint = s.cx.hint))
  ∧ ∀ (w : FR) (s : State), wf (.lrd w) = true → gateOk w.g s.cur.level = true →
    (let k := if w.a = 7 then s.cx.depth - 1 else w.a.toNat
     k < s.cx.depth → WriteReady s w.d →
     ∃ t, exec (.lrd w) s = .next t ∧ OnlyCx s t { s.cx with s := t.cx.s }
       ∧ ∀ r, t.cx.rs r = if r = w.d.toNat ∧ r ≠ 0 then
           (match w.b.toNat with
            | 0 => (lev s.cx k).idx.setWidth 64
            | 1 => (lev s.cx k).cnt.setWidth 64
            | _ => BitVec.ofNat 64 ((lev s.cx k).cnt.toNat - (lev s.cx k).idx.toNat - 1))
         else s.cx.rs r)

/-- R128 to R135, R139: loop, lend, lcont, lbrk and lrd complete, and trap where R135 says, each as its part says. -/
def Obligations.LoopsRun : Prop :=
  Sys2Proof.Claims.LoopsPush
    ∧ Sys2Proof.Claims.IterationsEnd
    ∧ Sys2Proof.Claims.IllegalLoopsTrap
    ∧ Sys2Proof.Claims.LoopsBreakAndRead

/-! ### Tokens, waits, fences, barriers, modes and the end of an iteration -/

namespace Sys2Proof.Claims

open Sys2Proof.Machine

/-- A limit of wait holds (R143): 63 is no limit. -/
def Within (lim : BitVec 6) (n : Nat) : Prop := lim = 63 ∨ n ≤ lim.toNat

/-- The instruction waits: it stays at the head of its queue and changes nothing. -/
def Waits (i : Instr) (s : State) : Prop := exec i s = .next { s with blk := true }

/-- The number of arrivals of a context at a scope and id. -/
def arrivedAt (c : Ctx) (scope id : Nat) : Nat := ((c.arrivals.find? fun a => a.1 == scope && a.2.1 == id).map (·.2.2)).getD 0

/-- An arrival has been made (R145): the context's next phase at the barrier is its outstanding one, marked with who made it. -/
def Arrived (s t : State) (w : FF) (mark : Nat) : Prop :=
  outOf t.cx w.scope.toNat w.id.toNat = some ⟨w.scope.toNat, w.id.toNat, arrivedAt s.cx w.scope.toNat w.id.toNat + 1, mark⟩
    ∧ arrivedAt t.cx w.scope.toNat w.id.toNat = arrivedAt s.cx w.scope.toNat w.id.toNat + 1
    ∧ (∀ sc id, (sc, id) ≠ (w.scope.toNat, w.id.toNat) → arrivedAt t.cx sc id = arrivedAt s.cx sc id
        ∧ outOf t.cx sc id = outOf s.cx sc id)
    ∧ (∃ b ∈ t.bars, b.nid = s.cx.it.nid ∧ b.scope = w.scope.toNat ∧ b.id = w.id.toNat ∧ b.group = groupKey s.cx.id w.scope.toNat)
    ∧ t = { s with cx := { s.cx with arrivals := t.cx.arrivals, outBars := t.cx.outBars, cq := t.cx.cq }, bars := t.bars }
    ∧ ∀ k, homeByte t k = homeByte s k

/-- An arrival's wait has ended (R145): no arrival is outstanding at the scope and id. -/
def BarrierPassed (s t : State) (w : FF) : Prop :=
  outOf t.cx w.scope.toNat w.id.toNat = none
    ∧ (∀ sc id, (sc, id) ≠ (w.scope.toNat, w.id.toNat) → outOf t.cx sc id = outOf s.cx sc id)
    ∧ OnlyCx s t { s.cx with outBars := t.cx.outBars }

end Sys2Proof.Claims

/-- R141, R143, R144, R150, R153: btok consumes the oldest token and takes its target when it says TAKE; a wait whose limits hold
and a fence whose classes have no access pending at its scope let the line go on with nothing changed, and a cede without a hint and a nop
do nothing; a cede under a hint is a boundary, at which a pending yield or priority change stops delivery. -/
def Sys2Proof.Claims.WaitsAndFencesPass : Prop :=
  open Sys2Proof Sys2Proof.Machine Sys2Proof.Claims in
  ∀ s : State,
    (∀ w, exec (.nop w) s = .next s)
    ∧ (∀ (w : FZ) (t : Token) (r : List Token), gateOk w.g s.cur.level = true → s.cx.tokens = t :: r →
        (t.take = false → exec (.btok w) s = .next { s with cx := { s.cx with tokens := r } })
        ∧ (t.take = true → LegalTarget t.target →
            exec (.btok w) s = .next { s with cx := { s.cx with tokens := r, nxt := some t.target } })
        ∧ (t.take = true → ¬ LegalTarget t.target → ∃ u, exec (.btok w) s = .next u ∧ u.cx.tokens = r
            ∧ PreciseTrap { s with cx := { s.cx with tokens := r } } u .c (targetFault t.target) t.target 0))
    ∧ (∀ w : FZ, gateOk w.g s.cur.level = true → s.cx.tokens = [] → Waits (.btok w) s)
    ∧ (∀ w : FW, gateOk w.g s.cur.level = true → s.cx.pend = none →
        (Within w.ncl s.cx.ncl ∧ Within w.ncs s.cx.ncs ∧ Within w.ncx s.cx.ncx ∧ Within w.ncm s.cx.ncm →
          exec (.wait w) s = .next s)
        ∧ (¬ (Within w.ncl s.cx.ncl ∧ Within w.ncs s.cx.ncs ∧ Within w.ncx s.cx.ncx ∧ Within w.ncm s.cx.ncm) →
          Waits (.wait w) s))
    ∧ (∀ w : FF, gateOk w.g s.cur.level = true → s.cx.pend = none →
        let mine := pendingClasses s (decide (w.scope = 4)) (s.cur.seq / 8 * 8 + 8) &&& w.cls
        (mine = 0 → exec (.fence w) s = .next s) ∧ (mine ≠ 0 → Waits (.fence w) s))
    ∧ ∀ w : FZ, gateOk w.g s.cur.level = true →
        (s.cx.hint.v = false → exec (.cede w) s = .next s)
        ∧ (s.cx.hint.v = true → s.cx.pend = none →
            exec (.cede w) s = .next { s with cx := { s.cx with
              mode := if s.cx.yieldReq = true ∨ s.cx.prioReq = true then .boundary else s.cx.mode } })

/-- R145, R146: barv arrives once every operation before it is performed and an outstanding arrival's phase is complete; barw ends
when the phase of the outstanding arrival is complete, and has no effect without one; bar arrives, stays at the head of the
queue, and then ends as barw does; sstep with NCX = 0 acts as bar, and waits before. -/
def Sys2Proof.Claims.BarriersArriveAndPass : Prop :=
  open Sys2Proof Sys2Proof.Machine Sys2Proof.Claims in
  ∀ (s : State) (w : FF), gateOk w.g s.cur.level = true → s.cx.pend = none →
    let out := outOf s.cx w.scope.toNat w.id.toNat
    let free : Prop := (∀ o, out = some o → phaseMet s s.cx o = true) ∧ released s false (s.cur.seq / 8 * 8 + 8) = true
    (free → ∃ t, exec (.barv w) s = .next t ∧ Arrived s t w 0 ∧ t.cx.cq = s.cx.cq)
      ∧ (out = none → exec (.barw w) s = .next s)
      ∧ (∀ o, out = some o → phaseMet s s.cx o = true → ∃ t, exec (.barw w) s = .next t ∧ BarrierPassed s t w)
      ∧ (∀ o, out = some o → phaseMet s s.cx o = false → Waits (.barw w) s)
      ∧ (∀ i, i = .bar w ∨ (i = .sstep w ∧ s.cx.ncx = 0) →
          (free → (∀ o, out = some o → o.by' ≠ s.cur.seq + 1) →
            ∃ t, exec i s = .next t ∧ Arrived s t w (s.cur.seq + 1) ∧ t.cx.cq = s.cur :: s.cx.cq)
          ∧ (∀ o, out = some o → o.by' = s.cur.seq + 1 → phaseMet s s.cx o = true →
            ∃ t, exec i s = .next t ∧ BarrierPassed s t w))
      ∧ (s.cx.ncx ≠ 0 → Waits (.sstep w) s)

/-- R333: the next phase of a barrier completes when every iteration of its node instance is dispatched and every participant in
its group that has not exited has arrived at it; one more phase is complete then, and nothing else changes. -/
def Sys2Proof.Claims.BarrierPhasesComplete : Prop :=
  open Sys2Proof Sys2Proof.Machine in
  ∀ (s : State) (b : Barrier) (n : GNode), s.bars[s.sub.a]? = some b → s.node? b.nid = some n → n.total ≤ n.next →
    (∃ c ∈ participants s b, b.done < arrivalsAt c b.scope b.id) →
    (∀ c ∈ participants s b, b.done < arrivalsAt c b.scope b.id) →
    exec .barrierPhaseComplete s = .next { s with bars := s.bars.set s.sub.a { b with done := b.done + 1 } }

/-- R141, R143 to R146, R150, R333: btok, wait, fence, cede and the barriers complete, and the phases of a barrier do, each as
its part says. -/
def Obligations.WaitsFencesAndBarriers : Prop :=
  Sys2Proof.Claims.WaitsAndFencesPass
    ∧ Sys2Proof.Claims.BarriersArriveAndPass
    ∧ Sys2Proof.Claims.BarrierPhasesComplete

/-- R147, R177, R181, R220: setm writes the register that it names from s[a], reserved bits ignored, and returns the old value in
s[d]: LDEPTH (in a kernel that rotates), VMODE once earlier lines have written their results, GPRED, CHK or DEADRD; no other
register changes. -/
def Sys2Proof.Claims.SetmWritesModes : Prop :=
  open Sys2Proof Sys2Proof.Machine Sys2Proof.Claims in
  ∀ (w : FK) (s : State), wf (.setm w) = true → gateOk w.g s.cur.level = true → ReadsReady s [w.a] → WriteReady s w.d →
    (w.num = 4 → earlierWritten s.cx (s.cur.seq / 8) = true) →
    let v := s.cx.rs w.a.toNat
    ∃ t, exec (.setm w) s = .next t
      ∧ OnlyCx s t { s.cx with s := t.cx.s, vdep := t.cx.vdep, pdep := t.cx.pdep, rm := t.cx.rm, ten := t.cx.ten, flg := t.cx.flg,
                               psel := t.cx.psel, gzero := t.cx.gzero, chk := t.cx.chk, deadrd := t.cx.deadrd }
      ∧ (∀ r, t.cx.rs r = if r = w.d.toNat ∧ r ≠ 0 then crRead s.cx w.num.toNat else s.cx.rs r)
      ∧ (t.cx.vdep = if w.num = 3 ∧ s.cx.khd.rot = true then v.extractLsb' 0 6 else s.cx.vdep)
      ∧ (t.cx.pdep = if w.num = 3 ∧ s.cx.khd.rot = true then v.extractLsb' 8 4 else s.cx.pdep)
      ∧ (t.cx.rm = if w.num = 4 then v.extractLsb' 0 2 else s.cx.rm)
      ∧ (t.cx.ten = if w.num = 4 then v.extractLsb' 4 5 else s.cx.ten)
      ∧ (t.cx.flg = if w.num = 4 then v.extractLsb' 16 5 else s.cx.flg)
      ∧ (t.cx.psel = if w.num = 5 then v.extractLsb' 0 4 else s.cx.psel)
      ∧ (t.cx.gzero = if w.num = 5 then v.getLsbD 8 else s.cx.gzero)
      ∧ (t.cx.chk = if w.num = 6 then v.getLsbD 0 else s.cx.chk)
      ∧ (t.cx.deadrd = if w.num = 7 then v.getLsbD 0 else s.cx.deadrd)

/-- R148, R151: phint declares the hint on the innermost level, or on none, with its bitmaps; resume, while the record is armed,
disarms it, transfers to the saved PC and re-issues every captured operation so that each lands a common number of cycles
after the cycles it was from landing, none issued in the past; without the record it is the precise illegal-instruction
trap. -/
def Sys2Proof.Claims.HintsAndResume : Prop :=
  open Sys2Proof Sys2Proof.Machine Sys2Proof.Claims in
  (∀ (w : FPH) (s : State), gateOk w.g s.cur.level = true →
    exec (.phint w) s = .next { s with cx := { s.cx with hint :=
      ⟨true, if s.cx.depth = 0 then 7 else s.cx.depth - 1, w.e1, w.e2.extractLsb' 0 16, w.e2.extractLsb' 16 16, w.sr⟩ } })
  ∧ ∀ (w : FZ) (s : State), gateOk w.g s.cur.level = true →
    (∀ r, s.cx.resume = some r → ∃ t t0, exec (.resume w) s = .next t ∧ s.cycle < t0
      ∧ OnlyCx s t { s.cx with inflight := t.cx.inflight, nextIss := t.cx.nextIss, nxt := some r.pc, resume := none }
      ∧ t.cx.inflight.map (fun f => (f.res, f.due)) = s.cx.inflight.map (fun f => (f.res, f.due)) ++ r.ops.map (fun o => (o.f.res, t0 + o.rest))
      ∧ (∀ o ∈ r.ops, s.cycle < t0 - (o.f.due - o.f.issued - o.rest)))
    ∧ (s.cx.resume = none → ∃ t, exec (.resume w) s = .next t ∧ PreciseTrap s t .c 0x02 0 0)

/-- R152, R47, R248: exit ends the iteration once everything that it waits for is done: the context holds nothing any more, its
node instance has one more iteration exited, its great-array lease and its request have ended, it owns no slot, and every byte of
memory reads as before; until then it waits. -/
def Sys2Proof.Claims.ExitEndsTheIteration : Prop :=
  open Sys2Proof Sys2Proof.Machine Sys2Proof.Claims in
  ∀ (w : FZ) (s : State), gateOk w.g s.cur.level = true → s.cx.pend = none →
    let c := s.cx
    let done : Prop := c.sq = [] ∧ c.vq = [] ∧ c.mq = [] ∧ c.xq = [] ∧ c.aq = [] ∧ c.yq = [] ∧ c.inflight = [] ∧ c.gacc = none
      ∧ c.ncl = 0 ∧ c.ncs = 0 ∧ c.ncx = 0 ∧ c.ncm = 0 ∧ c.accs = [] ∧ c.yfly = none
    (done → ∃ t, exec (.exit w) s = .next t ∧ t.cx = Ctx.idle c.id
      ∧ t.nodes = s.nodes.map (fun n => if n.nid = c.it.nid then { n with exited := n.exited + 1 } else n)
      ∧ leaseOf t c.id = none ∧ (∀ r ∈ (t.great c.id.cluster).reqs, c.id.prof = .p → r.ctx ≠ c.id)
      ∧ (∀ x ∈ slotsOf t c.id, x.2.owner ≠ some c.id)
      ∧ t.parked = s.parked ∧ t.regions = s.regions ∧ t.vis = s.vis ∧ ∀ k, homeByte t k = homeByte s k)
      ∧ (¬ done → Waits (.exit w) s)

/-- R147, R148, R151, R152, R177, R181, R220: setm, phint, resume and exit complete, each as its part says. -/
def Obligations.ModesHintsAndExit : Prop :=
  Sys2Proof.Claims.SetmWritesModes
    ∧ Sys2Proof.Claims.HintsAndResume
    ∧ Sys2Proof.Claims.ExitEndsTheIteration

/-! ## The vector stream -/

namespace Sys2Proof.Claims

open Sys2Proof.Machine

/-- A V instruction's issue as its format describes it: gate, sources, P, whether the governing predicate and D are read whatever
P is, destination, type of the result, type of the source, E words, latency (R223). -/
structure VIssue where
  g : BitVec 2
  a : VSrc
  b : VSrc
  p : Bool
  sel : Bool
  rd : Bool
  dst : VDst
  t : BitVec 3
  ti : BitVec 3
  x : List W32
  lat : Nat

/-- The governing predicate as a source (R220, R221). -/
def VIssue.gov (v : VIssue) (s : State) : VSrc := if v.p || v.sel then .preg s.cur.psel else .none
/-- D as a source: read as an operand, or for merging (R221). -/
def VIssue.old (v : VIssue) (s : State) : VSrc :=
  match v.dst with
  | .vec c n => if (v.rd || (v.p && !s.cur.gzero)) && isVr c then .vec c n else .none
  | _ => .none
/-- The conditions of R223 for issue, and no breach in checking mode (R127, R137). -/
def VIssue.Ready (v : VIssue) (s : State) : Prop :=
  gateOk v.g s.cur.level = true ∧ portsReady s.cx v.a v.b = true ∧ dstRoom s.cx v.dst = true
    ∧ (s.cur.chk = false
      ∨ ((∀ o ∈ [v.a, v.b, v.gov s, v.old s], o.breach s = false ∧ o.dead (s.cx.asDelivered s.cur) = false)
        ∧ v.dst.breach s = false))

/-- The vectors that a source gives at issue (R104, R106, R137): a register group, successive port entries after `skip` others, an
immediate broadcast, zeros; a scalar or a predicate in the low bits. `k` numbers the free values of a breached read. -/
def sourceVals (s : State) (k skip : Nat) (t : BitVec 3) (x : List W32) (src : VSrc) : List VReg :=
  match src with
  | .none => [VReg.zero]
  | .sreg r => [⟨(readS s k r.toNat).setWidth 1024, one32⟩]
  | .preg r => [⟨(readP s k r.toNat).setWidth 1024, one32⟩]
  | .vec c n =>
    if isVr c then (List.range n).map fun j => readV s (k + 30 * j) (c.toNat + j)
    else match portOf c with
      | some q => (((s.cx.lports.getD q []).drop skip).take n).map (·.v)
      | none => List.replicate n (if c = 0x39 then immVec s.cx.id.prof t x else VReg.zero)

/-- The operands of a V instruction at issue: A, B, D and the governing predicate (R104, R220). -/
structure VOperands where
  a : List VReg
  b : VReg
  d : VReg
  gp : PData

/-- The operands that an issue finds. -/
def VIssue.operands (v : VIssue) (s : State) : VOperands where
  a := sourceVals s 0 0 v.ti v.x v.a
  b := (sourceVals s 150 (match v.b with
    | .vec c _ => (match portOf c with | some q => v.a.pops q | none => 0)
    | _ => 0) v.ti v.x v.b).headD VReg.zero
  d := (sourceVals s 210 0 v.ti v.x (v.old s)).headD VReg.zero
  gp := if v.p || v.sel then readP s 200 s.cur.psel.toNat else BitVec.allOnes 128

/-- A V instruction has issued: the load-port vectors that it reads are popped, the store-port entries that it writes are
reserved, DEADRD is set for a dead register, its results are in flight and land L cycles later with its flags, and nothing else
changes: no register, no flag, no byte of memory. -/
def VIssue.Issued (v : VIssue) (s t : State) (res : List Res) (fl : Flags) (smx : Bool) : Prop :=
  (∃ fs : List InFlight, fs.map (·.res) = res ∧ (∀ f ∈ fs, IsResult s f .v v.lat f.res fl ∧ f.smx = smx)
    ∧ OnlyCx s t { s.cx with lports := t.cx.lports, sports := t.cx.sports, deadrd := t.cx.deadrd,
                             inflight := s.cx.inflight ++ fs })
    ∧ (∀ q, q < 8 → t.cx.lports.getD q [] = (s.cx.lports.getD q []).drop (v.a.pops q + v.b.pops q))
    ∧ (∀ q, q < 8 → ∃ new : List PEntry, t.cx.sports.getD q [] = s.cx.sports.getD q [] ++ new
        ∧ (∀ e ∈ new, e.ready = false)
        ∧ new.map (·.eid) = res.filterMap fun r => match r with | .port w e _ _ => if w = q then some e else none | _ => none)
    ∧ t.cx.deadrd = (s.cx.deadrd || [v.a, v.b, v.gov s, v.old s].any fun o => o.dead (s.cx.asDelivered s.cur))

/-- The result of one vector goes to destination code c (R104, R125, R136): a physical register, an entry of a store port, or
nowhere. -/
def ToVector (s : State) (c : BitVec 6) (x : VData) (sc : W32) (res : List Res) : Prop :=
  if isVr c then res = [.v ((s.cx.asDelivered s.cur).physV c.toNat) x sc]
  else match portOf c with
    | some w => ∃ eid, res = [.port w eid x sc]
    | none => res = [.none]

/-- Element k of width w of a vector (R105). -/
def el (w k : Nat) (d : VData) : Nat := (d.extractLsb' (w * k) w).toNat
/-- Element k is active in a predicate for E elements (R219). -/
def act (n k : Nat) (gp : PData) : Bool := gp.getLsbD (k * (128 / n))

/-- The rounding mode of a V instruction (R106, R178): the modifier word after an immediate, else VMODE.RM at delivery. -/
def vecMode (imm : Bool) (x : List W32) (vm : BitVec 2) : BitVec 2 :=
  match ((if imm then x.tail else x).headD 0).toNat % 8 with
  | 1 => 0
  | 2 => 1
  | 3 => 2
  | 4 => 3
  | _ => vm

/-- An integer result wrapped, or clamped to the type's range with SAT (R176). -/
def intOut (t : BitVec 3) (sat : Bool) (v : Int) : Nat :=
  let v' := if sat then max (intMin t) (min (intMax t) v) else v
  (BitVec.ofInt (tyWidth t) v').toNat

/-- A float result: the exact value rounded once in T, its flags those of the operation and of the rounding. -/
def RoundsTo (w : FV) (vm : BitVec 2) (exact : FVal → Bool → Flags → Prop) (r : Nat) (fl : Flags) : Prop :=
  ∃ v sticky f0, exact v sticky f0
    ∧ (r, fl) = ((roundFmt (tyFmt w.t) (vecMode (usesImm w.a w.b) w.x vm) w.fzo v sticky).1,
        f0 ||| (roundFmt (tyFmt w.t) (vecMode (usesImm w.a w.b) w.x vm) w.fzo v sticky).2)

/-- A float operand, flushed under FZI in its own format (R182). -/
def fltIn (w : FV) (n : Nat) : FVal := unpackZ (tyFmt w.t) w.fzi n

/-- A special function of R230 (R242 for the plain moves): the model's exact value with its table of special inputs (log entry 8
says how far it is exact). -/
def specialOf (i : Instr) : Option SpecFn :=
  match i with
  | .vsqrt _ => some fnSqrt
  | .vrsqrt _ => some fnRsqrt
  | .vexp2 _ => some fnExp2
  | .vlog2 _ => some fnLog2
  | .vexp _ => some fnExp
  | .vtanh _ => some fnTanh
  | .vsigm _ => some fnSigm
  | .vsilu _ => some fnSilu
  | _ => none

/-- The root of R230 with its special inputs: √x cut to a multiple of a power of two that it holds at least 2^60 times. -/
def IsRoot (x v : FVal) (sticky : Bool) (fl : Flags) : Prop :=
  if x.isNaN then v.isNaN = true ∧ fl = 0
  else if x.neg && ratOf x != 0 || x = .inf true then v.isNaN = true ∧ fl = flIV
  else if x = .inf false then v = .inf false ∧ fl = 0
  else if ratOf x = 0 then isFin v = true ∧ ratOf v = 0 ∧ v.neg = x.neg ∧ sticky = false ∧ fl = 0
  else fl = 0 ∧ ∃ m e, v = .fin false m e ∧ 2 ^ 60 ≤ m
    ∧ ((m : Rat) * 2 ^ e) ^ 2 ≤ ratOf x ∧ ratOf x < ((m + 1 : Rat) * 2 ^ e) ^ 2
    ∧ (sticky = true ↔ ((m : Rat) * 2 ^ e) ^ 2 ≠ ratOf x)

/-- What an elementwise V instruction makes of active element k (R227 to R231): a and b are the elements of A and B, d of D. -/
def ElemRule (i : Instr) (vm : BitVec 2) (a b d : Nat) (r : Nat) (fl : Flags) : Prop :=
  match i with
  | .vadd w => if isIntTy w.t then r = intOut w.t w.fzo (intVal w.t a + intVal w.t b) ∧ fl = 0
      else RoundsTo w vm (fun v st f => st = false ∧ IsSum (vecMode (usesImm w.a w.b) w.x vm) (fltIn w a) (fltIn w b) v f) r fl
  | .vsub w => if isIntTy w.t then r = intOut w.t w.fzo (intVal w.t a - intVal w.t b) ∧ fl = 0
      else RoundsTo w vm (fun v st f => st = false ∧ IsSum (vecMode (usesImm w.a w.b) w.x vm) (fltIn w a) (fltIn w b).negate v f) r fl
  | .vmul w => if isIntTy w.t then r = intOut w.t w.fzo (intVal w.t a * intVal w.t b) ∧ fl = 0
      else RoundsTo w vm (fun v st f => st = false ∧ IsProduct (fltIn w a) (fltIn w b) v f) r fl
  | .vdiv w => RoundsTo w vm (fun v st f => IsQuotient (fltIn w a) (fltIn w b) v st f) r fl
  | .vfma w => if isIntTy w.t then r = intOut w.t w.fzo (intVal w.t a * intVal w.t b + intVal w.t d) ∧ fl = 0
      else RoundsTo w vm (fun v st f => st = false ∧ ∃ p f1 f2, IsProduct (fltIn w a) (fltIn w b) p f1
        ∧ IsSum (vecMode (usesImm w.a w.b) w.x vm) p (fltIn w d) v f2 ∧ f = f1 ||| f2) r fl
  | .vfnma w => if isIntTy w.t then r = intOut w.t w.fzo (intVal w.t d - intVal w.t a * intVal w.t b) ∧ fl = 0
      else RoundsTo w vm (fun v st f => st = false ∧ ∃ p f1 f2, IsProduct (fltIn w a).negate (fltIn w b) p f1
        ∧ IsSum (vecMode (usesImm w.a w.b) w.x vm) p (fltIn w d) v f2 ∧ f = f1 ||| f2) r fl
  | .vmin w => if isIntTy w.t then r = intOut w.t false (min (intVal w.t a) (intVal w.t b)) ∧ fl = 0
      else RoundsTo w vm (fun v st f => st = false ∧ f = 0 ∧ IsMinOrMax true (fltIn w a) (fltIn w b) v) r fl
  | .vmax w => if isIntTy w.t then r = intOut w.t false (max (intVal w.t a) (intVal w.t b)) ∧ fl = 0
      else RoundsTo w vm (fun v st f => st = false ∧ f = 0 ∧ IsMinOrMax false (fltIn w a) (fltIn w b) v) r fl
  | .vabs w => if isIntTy w.t then r = intOut w.t w.fzo |intVal w.t a| ∧ fl = 0
      else RoundsTo w vm (fun v st f => st = false ∧ f = 0 ∧ v = (fltIn w a).withSign false) r fl
  | .vneg w => if isIntTy w.t then r = intOut w.t w.fzo (-intVal w.t a) ∧ fl = 0
      else RoundsTo w vm (fun v st f => st = false ∧ f = 0 ∧ v = (fltIn w a).withSign (!(fltIn w a).neg)) r fl
  | .vrcp w => RoundsTo w vm (fun v st f => IsQuotient (.fin false 1 0) (fltIn w a) v st f) r fl
  | .vsqrt w => RoundsTo w vm (fun v st f => IsRoot (fltIn w a) v st f) r fl
  | .vand _ => r = a &&& b ∧ fl = 0
  | .vor _ => r = a ||| b ∧ fl = 0
  | .vxor _ => r = a ^^^ b ∧ fl = 0
  | .vshl w => r = intOut w.t w.fzo (intVal w.t a * 2 ^ (b % tyWidth w.t)) ∧ fl = 0
  | .vshr w => r = intOut w.t false (intVal w.t a / 2 ^ (b % tyWidth w.t)) ∧ fl = 0
  | .vrsqrt w | .vexp2 w | .vlog2 w | .vexp w | .vtanh w | .vsigm w | .vsilu w =>
      RoundsTo w vm (fun v st f => ∃ fn, specialOf i = some fn ∧ fn (fltIn w a) = ((v, st), f)) r fl
  | _ => False

/-- The fields, latency (R223) and sources of an elementwise instruction: B is a source, D is read; the sidecar is A's, else
1.0 (R222). -/
def elemFields (i : Instr) : Option (FV × Nat × Bool × Bool × Bool) :=
  match i with
  | .vadd w | .vsub w | .vmul w => some (w, 4, true, false, false)
  | .vfma w | .vfnma w => some (w, 4, true, true, false)
  | .vdiv w => some (w, 12, true, false, false)
  | .vmin w | .vmax w | .vshl w | .vshr w => some (w, 2, true, false, false)
  | .vand w | .vor w | .vxor w => some (w, 2, true, false, true)
  | .vabs w | .vneg w => some (w, 2, false, false, false)
  | .vsqrt w => some (w, 12, false, false, false)
  | .vrsqrt w | .vrcp w | .vexp2 w | .vlog2 w => some (w, 8, false, false, false)
  | .vexp w | .vtanh w | .vsigm w | .vsilu w => some (w, 10, false, false, false)
  | _ => none

/-- The issue of a V-format instruction with a vector destination. -/
def vIssue (w : FV) (lat : Nat) (two rd : Bool) : VIssue :=
  ⟨w.g, .vec w.a 1, if two then .vec w.b 1 else .none, w.p, false, rd, .vec w.d 1, w.t, w.t, w.x, lat⟩

/-- The elements of a result (R221): the rule's where active, else D's where the destination is a register and ZERO is 0, else
+0; only active elements raise flags. -/
def ElementsBy (s : State) (o : VOperands) (t : BitVec 3) (p : Bool) (reg : Bool) (rule : Nat → Nat → Flags → Prop) (x : VData)
    (fl : Flags) : Prop :=
  let n := elemCount s.cx.id.prof t
  ∃ f : Nat → Flags, (∀ k < n, if act n k o.gp then rule k (el (tyWidth t) k x) (f k)
      else f k = 0 ∧ el (tyWidth t) k x = if p && !s.cur.gzero && reg then el (tyWidth t) k o.d.d else 0)
    ∧ fl = (List.range n).foldl (fun m k => m ||| f k) 0
    ∧ x.toNat < 2 ^ (tyWidth t * n)

end Sys2Proof.Claims

/-- R105, R219 to R223, R227 to R231: an elementwise arithmetic, special-function, bitwise or shift instruction that may issue
completes: it computes each active element of its destination from the same elements of its operands, leaves the inactive ones
as R221 says, raises the active elements' flags, and puts the vector in flight with its sidecar; nothing else changes. -/
def Obligations.VectorElementwiseResults : Prop :=
  open Sys2Proof Sys2Proof.Machine Sys2Proof.Claims in
  ∀ (i : Instr) (w : FV) (lat : Nat) (two rd sa : Bool) (s : State), wf i = true → elemFields i = some (w, lat, two, rd, sa) →
    (rd = true → isVr w.d = true) → (vIssue w lat two rd).Ready s →
    let v := vIssue w lat two rd
    let o := v.operands s
    let a := o.a.headD VReg.zero
    ∃ t x fl res, exec i s = .next t ∧ v.Issued s t res fl false
      ∧ ToVector s w.d x (if sa then a.sc else 0x3F800000) res
      ∧ ElementsBy s o w.t w.p (isVr w.d) (fun k r f =>
          ElemRule i s.cur.rm (el (tyWidth w.t) k a.d) (el (tyWidth w.t) k o.b.d) (el (tyWidth w.t) k o.d.d) r f) x fl

/-! ### Moves, predicates, conversions, reductions -/

namespace Sys2Proof.Claims

open Sys2Proof.Machine

/-- The sign- or zero-extended element that vext writes (R243). -/
def extElem (t : BitVec 3) (n : Nat) : W64 :=
  if isIntTy t && t != 5 then (BitVec.ofNat (tyWidth t) n).signExtend 64 else BitVec.ofNat 64 n

/-- What a move makes of element k (R234, R242, R243): the patterns are taken from A and B, indices modulo E. -/
def moveElem (i : Instr) (n : Nat) (a b : VReg) (gp : PData) (k : Nat) : Nat :=
  match i with
  | .vmov w => el (tyWidth w.t) k a.d
  | .viota _ => k
  | .vperm w => el (tyWidth w.t) (el (tyWidth w.t) k b.d % n) a.d
  | .vzip w => if k % 2 = 0 then el (tyWidth w.t) (k / 2) a.d else el (tyWidth w.t) ((k - 1) / 2) b.d
  | .vunzip w => if k < n / 2 then el (tyWidth w.t) (2 * k) a.d else el (tyWidth w.t) (2 * (k - n / 2)) b.d
  | .vbcast w => el (tyWidth w.t) ((b.d.setWidth 64).toNat % n) a.d
  | .vsel w => if act n k gp then el (tyWidth w.t) k a.d else el (tyWidth w.t) k b.d
  | _ => 0

/-- The issue of a move (R223, R242, R243), and whether its sidecar is A's (R222). -/
def moveForm (i : Instr) : Option (FV × VIssue × Bool) :=
  match i with
  | .vmov w => some (w, vIssue w 2 false false, true)
  | .viota w => some (w, vIssue w 2 false false, false)
  | .vperm w | .vzip w | .vunzip w => some (w, vIssue w 4 true false, true)
  | .vbcast w => some (w, ⟨w.g, .vec w.a 1, .sreg w.b, false, false, false, .vec w.d 1, w.t, w.t, w.x, 2⟩, true)
  | .vsel w => some (w, ⟨w.g, .vec w.a 1, .vec w.b 1, false, true, false, .vec w.d 1, w.t, w.t, w.x, 2⟩, true)
  | _ => none

/-- The condition of vcmp or vclass on the elements a and b (R232, R233), and whether it raises IV. -/
def testElem (i : Instr) (a b : Nat) : Prop × Bool :=
  match i with
  | .vcmp w =>
    if isIntTy w.t then
      (match w.cc.toNat with
        | 0 => intVal w.t a = intVal w.t b
        | 1 => intVal w.t a ≠ intVal w.t b
        | 2 => intVal w.t a < intVal w.t b
        | _ => intVal w.t a ≤ intVal w.t b, false)
    else
      let x := unpackZ (tyFmt w.t) w.fzi a
      let y := unpackZ (tyFmt w.t) w.fzi b
      if x.isNaN || y.isNaN then (w.cc = 1, true) else (fcmpTrue w.cc.toNat x y, false)
  | .vclass w =>
    (match w.cc.toNat with
      | 0 => (unpack (tyFmt w.t) a).isNaN = true
      | 1 => (unpack (tyFmt w.t) a).isInf = true
      | 2 => isFin (unpack (tyFmt w.t) a) = true ∧ ratOf (unpack (tyFmt w.t) a) = 0
      | _ => isSub (tyFmt w.t) a = true, false)
  | _ => (False, false)

/-- The issue of a comparison or class test. -/
def testForm (i : Instr) : Option (FVC × VIssue) :=
  match i with
  | .vcmp w => some (w, ⟨w.g, .vec w.a 1, .vec w.b 1, w.p, false, false, .pred w.pd, w.t, w.t, w.x, 2⟩)
  | .vclass w => some (w, ⟨w.g, .vec w.a 1, .none, w.p, false, false, .pred w.pd, w.t, w.t, w.x, 2⟩)
  | _ => none

/-- A value for predicate register pn: p0 takes none (R235). -/
def ToPred (s : State) (r : BitVec 4) (q : PData) (res : List Res) : Prop :=
  res = [if r = 0 then .none else .p ((s.cx.asDelivered s.cur).physP r.toNat) q]

/-- The number of set bits of a predicate. -/
def setBits (q : PData) : Nat := ((List.range 128).filter fun k => q.getLsbD k).length

/-- The value of a source element of vcvt and its flags (R184, R185, R236): an integer, a float, or the exact product of an e4m3
element and the sidecar. -/
def CvtSource (w : FVK) (sc : W32) (n : Nat) (v : FVal) (f : Flags) : Prop :=
  if isIntTy w.s then v = .fin (intVal w.s n < 0) (intVal w.s n).natAbs 0 ∧ f = 0
  else if w.s = 3 then IsProduct (unpackZ e4m3 w.fzi n) (unpack f32 sc.toNat) v f
  else v = unpackZ (tyFmt w.s) w.fzi n ∧ f = 0

/-- What vcvt makes of a source element (R236): integer to integer wraps or saturates, float to integer saturates, to e4m3 by
SatE4M3, to the other floats by one rounding. -/
def CvtElem (w : FVK) (vm : BitVec 2) (sc : W32) (n r : Nat) (fl : Flags) : Prop :=
  let rm := vecMode (w.a == 0x39) w.x vm
  if isIntTy w.s && isIntTy w.t then r = intOut w.t w.fzo (intVal w.s n) ∧ fl = 0
  else ∃ v f, CvtSource w sc n v f ∧
    if isIntTy w.t then
      r = intOut w.t false (toIntSat rm (intMin w.t) (intMax w.t) v).1 ∧ fl = f ||| (toIntSat rm (intMin w.t) (intMax w.t) v).2
    else if w.t = 3 then r = (satE4M3 rm w.fzo v false).1 ∧ fl = f ||| (satE4M3 rm w.fzo v false).2
    else r = (roundFmt (tyFmt w.t) rm w.fzo v false).1 ∧ fl = f ||| (roundFmt (tyFmt w.t) rm w.fzo v false).2

/-- The operation of a node of a reduction or scan on two patterns (R240): a rounded or wrapped sum, a maximum, a minimum, a
greatest magnitude; with the identity that inactive elements count as. -/
def nodeOf (i : Instr) (vm : BitVec 2) : (Nat → Nat → Nat × Flags) × Nat :=
  match i with
  | .vredsum w | .vscan w => ((redSum w vm).op, if isIntTy w.t then 0 else 2 ^ (tyWidth w.t - 1))
  | .vredmax w | .vscanmax w => ((redMax w).op,
      if isIntTy w.t then intOut w.t false (intMin w.t) else infPat (tyFmt w.t) true)
  | .vredmin w => ((redMin w).op, if isIntTy w.t then intOut w.t false (intMax w.t) else infPat (tyFmt w.t) false)
  | .vredamax w => ((redAmax w).op, 0)
  | _ => (fun x _ => (x, 0), 0)

/-- The value of the binary tree of R240 over 2^d leaves from leaf `lo`, with the flags of its nodes. -/
def treeOf (op : Nat → Nat → Nat × Flags) (x : Nat → Nat) : Nat → Nat → Nat × Flags
  | 0, lo => (x lo, 0)
  | d + 1, lo =>
    let l := treeOf op x d lo
    let r := treeOf op x d (lo + 2 ^ d)
    ((op l.1 r.1).1, l.2 ||| r.2 ||| (op l.1 r.1).2)

/-- Element k after j levels of the prefix network of R241. -/
def prefixOf (op : Nat → Nat → Nat × Flags) (x : Nat → Nat) : Nat → Nat → Nat
  | 0, k => x k
  | j + 1, k => if k < 2 ^ j then prefixOf op x j k else (op (prefixOf op x j (k - 2 ^ j)) (prefixOf op x j k)).1

/-- FZO on a delivered float pattern (R182): a subnormal becomes the zero of its sign. -/
def flushed (w : FV) (r : Nat) : Nat :=
  if !isIntTy w.t && w.fzo && isSub (tyFmt w.t) r then (if signOf (tyFmt w.t) r then 2 ^ (tyWidth w.t - 1) else 0) else r

/-- The canonical NaN in place of any NaN (R175). -/
def canonical (w : FV) (r : Nat) : Nat :=
  if !isIntTy w.t && (unpack (tyFmt w.t) r).isNaN then
    (match w.t.toNat with
      | 0 => 0x7FC00000
      | 1 => 0x7FC0
      | _ => 0x7E00)
  else r

/-- The flags of an FZO flush (R182). -/
def flushFlags (w : FV) (r : Nat) : Flags := if !isIntTy w.t && w.fzo && isSub (tyFmt w.t) r then flUF ||| flNX else 0

/-- The flags of every node that leads to element k after j levels of the prefix network (R180, R241). -/
def prefixFlags (op : Nat → Nat → Nat × Flags) (x : Nat → Nat) : Nat → Nat → Flags
  | 0, _ => 0
  | j + 1, k => if k < 2 ^ j then prefixFlags op x j k
      else prefixFlags op x j (k - 2 ^ j) ||| prefixFlags op x j k ||| (op (prefixOf op x j (k - 2 ^ j)) (prefixOf op x j k)).2

/-- The inputs of a reduction or scan (R240): FZI on the active float elements, the identity for the others. -/
def redInput (s : State) (w : FV) (o : VOperands) (ident k : Nat) : Nat :=
  let n := el (tyWidth w.t) k (o.a.headD VReg.zero).d
  if act (elemCount s.cx.id.prof w.t) k o.gp then
    (if !isIntTy w.t && w.fzi && isSub (tyFmt w.t) n then (if signOf (tyFmt w.t) n then 2 ^ (tyWidth w.t - 1) else 0) else n)
  else ident

/-- The issue of a reduction (its predicate governs the inputs only) or of a scan. -/
def redForm (i : Instr) : Option (FV × VIssue) :=
  match i with
  | .vredsum w | .vredmax w | .vredmin w | .vredamax w =>
      some (w, ⟨w.g, .vec w.a 1, .none, false, w.p, false, .vec w.d 1, w.t, w.t, w.x, 8⟩)
  | .vscan w | .vscanmax w => some (w, vIssue w 10 false false)
  | _ => none

/-- The instruction is a scan. -/
def isScan (i : Instr) : Bool :=
  match i with
  | .vscan _ => true
  | .vscanmax _ => true
  | _ => false

/-- The weight of R245: e^(x - m) rounded to nearest, with its cases at the infinities. -/
def SmxWeight (x m : FVal) (wt : Nat) : Prop :=
  if x = .inf true then wt = 0
  else if m = .inf false then wt = if x = .inf false then 0x3F800000 else 0
  else ∃ d, IsSum 0 x (m.withSign (!m.neg)) d 0 ∧
    wt = (roundFmt f32 0 false (fnExp d).1.1 (fnExp d).1.2).1

/-- Row r of vsmx (R245): a NaN in a state makes the row NaN; else the greater m, the weighted sum of l rounded to nearest, and
both weights; two infinite terms of opposite sign make only the sum NaN. `bad` tells whether the row sets SMXNAN. -/
def SmxRow (ma la mb lb : Nat) (x0 x1 x2 x3 : Nat) (bad : Bool) : Prop :=
  let va := unpack f32 ma
  let vb := unpack f32 mb
  let ya := unpack f32 la
  let yb := unpack f32 lb
  if va.isNaN || vb.isNaN || ya.isNaN || yb.isNaN then
    x0 = 0x7FC00000 ∧ x1 = 0x7FC00000 ∧ x2 = 0x7FC00000 ∧ x3 = 0x7FC00000 ∧ bad = true
  else ∃ m ca cb v f1 f2 f3, IsMinOrMax false va vb m ∧ x0 = (roundFmt f32 0 false m false).1
    ∧ SmxWeight va m x2 ∧ SmxWeight vb m x3
    ∧ (if x2 = 0 then ca = .fin false 0 0 else IsProduct (unpack f32 x2) ya ca f1)
    ∧ (if x3 = 0 then cb = .fin false 0 0 else IsProduct (unpack f32 x3) yb cb f2)
    ∧ IsSum 0 ca cb v f3
    ∧ (if v.isNaN then x1 = 0x7FC00000 ∧ bad = true
       else bad = false ∧ x1 = if ratOf v = 0 ∧ isFin v = true then 0 else (roundFmt f32 0 false v false).1)

end Sys2Proof.Claims

/-- R222, R223, R234, R242, R243: a move that may issue completes: each active element of its destination is the pattern that it
takes from A or B, the inactive ones are as R221 says, the sidecar is A's (of viota 1.0), and no flag is raised; vins writes one
element of D and keeps the others and the sidecar; vext writes one element, extended, to s[d]; vsetsc writes only the sidecar
of D; vgetsc reads A's into s[d]. -/
def Sys2Proof.Claims.VectorMoves : Prop :=
  open Sys2Proof Sys2Proof.Machine Sys2Proof.Claims in
  (∀ (i : Instr) (w : FV) (v : VIssue) (sa : Bool) (s : State), wf i = true → moveForm i = some (w, v, sa) → v.Ready s →
    let o := v.operands s
    let a := o.a.headD VReg.zero
    ∃ t x res, exec i s = .next t ∧ v.Issued s t res 0 false
      ∧ ToVector s w.d x (if sa then a.sc else 0x3F800000) res
      ∧ ElementsBy s (if v.sel then { o with gp := BitVec.allOnes 128 } else o) w.t v.p (isVr w.d) (fun k r f => f = 0 ∧
          r = moveElem i (elemCount s.cx.id.prof w.t) a o.b o.gp k % 2 ^ tyWidth w.t) x 0)
  ∧ (∀ (w : FV) (s : State), wf (.vins w) = true → isVr w.d = true →
      (⟨w.g, .sreg w.a, .sreg w.b, false, false, true, .vec w.d 1, w.t, w.t, w.x, 2⟩ : VIssue).Ready s →
      let v : VIssue := ⟨w.g, .sreg w.a, .sreg w.b, false, false, true, .vec w.d 1, w.t, w.t, w.x, 2⟩
      let n := elemCount s.cx.id.prof w.t
      let d := readV s 210 w.d.toNat
      ∃ t x, exec (.vins w) s = .next t ∧ v.Issued s t [.v ((s.cx.asDelivered s.cur).physV w.d.toNat) x d.sc] 0 false
        ∧ ∀ k < n, el (tyWidth w.t) k x = if k = (readS s 0 w.a.toNat).toNat % n
            then (readS s 150 w.b.toNat).toNat % 2 ^ tyWidth w.t else el (tyWidth w.t) k d.d)
  ∧ (∀ (w : FV) (s : State), wf (.vext w) = true →
      (⟨w.g, .vec w.a 1, .sreg w.b, false, false, false, .scal w.d, w.t, w.t, w.x, 3⟩ : VIssue).Ready s →
      let v : VIssue := ⟨w.g, .vec w.a 1, .sreg w.b, false, false, false, .scal w.d, w.t, w.t, w.x, 3⟩
      let n := elemCount s.cx.id.prof w.t
      ∃ t, exec (.vext w) s = .next t ∧ v.Issued s t [.s w.d.toNat (extElem w.t
        (el (tyWidth w.t) ((readS s 150 w.b.toNat).toNat % n) ((v.operands s).a.headD VReg.zero).d))] 0 false)
  ∧ (∀ (w : FV) (s : State), wf (.vsetsc w) = true →
      (⟨w.g, .none, .sreg w.b, false, false, false, .side w.d, w.t, w.t, w.x, 2⟩ : VIssue).Ready s →
      ∃ t, exec (.vsetsc w) s = .next t
        ∧ (⟨w.g, .none, .sreg w.b, false, false, false, .side w.d, w.t, w.t, w.x, 2⟩ : VIssue).Issued s t
          [.vsc ((s.cx.asDelivered s.cur).physV w.d.toNat) ((readS s 150 w.b.toNat).setWidth 32)] 0 false)
  ∧ ∀ (w : FV) (s : State), wf (.vgetsc w) = true →
      (⟨w.g, .vec w.a 1, .none, false, false, false, .scal w.d, w.t, w.t, w.x, 3⟩ : VIssue).Ready s →
      let v : VIssue := ⟨w.g, .vec w.a 1, .none, false, false, false, .scal w.d, w.t, w.t, w.x, 3⟩
      ∃ t, exec (.vgetsc w) s = .next t
        ∧ v.Issued s t [.s w.d.toNat (((v.operands s).a.headD VReg.zero).sc.setWidth 64)] 0 false

/-- R219, R221, R232, R233, R235, R246: a comparison or class test sets the bits of the active elements that meet it and clears all
others, raising IV for a NaN operand of vcmp; vplog combines two predicates in all 128 bits; a destination of p0 takes nothing;
vpcnt counts the bits set in both; vtok appends the token of its mode. -/
def Sys2Proof.Claims.VectorPredicates : Prop :=
  open Sys2Proof Sys2Proof.Machine Sys2Proof.Claims in
  (∀ (i : Instr) (w : FVC) (v : VIssue) (s : State), wf i = true → testForm i = some (w, v) → v.Ready s →
    let o := v.operands s
    let n := elemCount s.cx.id.prof w.t
    let a := (o.a.headD VReg.zero).d
    ∃ t q fl res, exec i s = .next t ∧ v.Issued s t res fl false ∧ ToPred s w.pd q res
      ∧ (∀ k < n, ∀ j < 128 / n, q.getLsbD (k * (128 / n) + j) = true
          ↔ act n k o.gp = true ∧ (testElem i (el (tyWidth w.t) k a) (el (tyWidth w.t) k o.b.d)).1)
      ∧ fl = if ∃ k < n, act n k o.gp = true ∧ (testElem i (el (tyWidth w.t) k a) (el (tyWidth w.t) k o.b.d)).2 = true
          then flIV else 0)
  ∧ (∀ (w : FVP) (s : State), wf (.vplog w) = true →
      (⟨w.g, .preg w.pa, .preg w.pb, false, false, false, .pred w.pd, 0, 0, [], 1⟩ : VIssue).Ready s →
      let x := readP s 0 w.pa.toNat
      let y := readP s 150 w.pb.toNat
      ∃ t res, exec (.vplog w) s = .next t
        ∧ (⟨w.g, .preg w.pa, .preg w.pb, false, false, false, .pred w.pd, 0, 0, [], 1⟩ : VIssue).Issued s t res 0 false
        ∧ ToPred s w.pd (match w.op.toNat with
          | 0 => x &&& y
          | 1 => x ||| y
          | 2 => x ^^^ y
          | 3 => x &&& ~~~ y
          | _ => ~~~ x) res)
  ∧ (∀ (w : FVP) (s : State), wf (.vpcnt w) = true →
      (⟨w.g, .preg w.pa, .preg w.pb, false, false, false, .scal w.sd, 0, 0, [], 3⟩ : VIssue).Ready s →
      ∃ t, exec (.vpcnt w) s = .next t
        ∧ (⟨w.g, .preg w.pa, .preg w.pb, false, false, false, .scal w.sd, 0, 0, [], 3⟩ : VIssue).Issued s t
          [.s w.sd.toNat (BitVec.ofNat 64 (setBits (readP s 0 w.pa.toNat &&& readP s 150 w.pb.toNat)))] 0 false)
  ∧ ∀ (w : FVT) (s : State), wf (.vtok w) = true →
      (⟨w.g, .preg w.p, .none, false, false, false, .tok (lineTarget s w.e), 0, 0, [], 2⟩ : VIssue).Ready s →
      let q := readP s 0 w.p.toNat
      ∃ t take, exec (.vtok w) s = .next t
        ∧ (⟨w.g, .preg w.p, .none, false, false, false, .tok (lineTarget s w.e), 0, 0, [], 2⟩ : VIssue).Issued s t
          [.tok ⟨take, lineTarget s w.e⟩] 0 false
        ∧ (take = true ↔ match w.mode.toNat with
          | 0 => q ≠ 0
          | 1 => q = BitVec.allOnes 128
          | 2 => q = 0
          | _ => q.getLsbD 0 = true)

/-- R219 to R223, R232 to R235, R242, R243, R246: the moves and the predicate instructions of the V stream complete, each as
its part says. -/
def Obligations.VectorMovesAndPredicates : Prop :=
  Sys2Proof.Claims.VectorMoves
    ∧ Sys2Proof.Claims.VectorPredicates

/-- R183 to R185, R222, R236 to R238: vcvt converts the active elements that both types have, zeroes those beyond, and its sidecar
is 1.0; vdequant expands the e4m3 elements times their sidecar into its group of vectors; vquant scales the group by its
greatest finite magnitude over 448 rounded to nearest, or by 1.0 with finite elements zero when that is zero, and writes the
scale as its sidecar. -/
def Sys2Proof.Claims.VectorConversions : Prop :=
  open Sys2Proof Sys2Proof.Machine Sys2Proof.Claims in
  (∀ (w : FVK) (s : State), wf (.vcvt w) = true →
    (⟨w.g, .vec w.a 1, .none, w.p, false, false, .vec w.d 1, w.t, w.s, w.x, 4⟩ : VIssue).Ready s →
    let v : VIssue := ⟨w.g, .vec w.a 1, .none, w.p, false, false, .vec w.d 1, w.t, w.s, w.x, 4⟩
    let o := v.operands s
    let a := o.a.headD VReg.zero
    let n := min (elemCount s.cx.id.prof w.s) (elemCount s.cx.id.prof w.t)
    ∃ t x fl res, exec (.vcvt w) s = .next t ∧ v.Issued s t res fl false ∧ ToVector s w.d x 0x3F800000 res
      ∧ ∃ f : Nat → Flags, fl = (List.range (elemCount s.cx.id.prof w.t)).foldl (fun m k => m ||| f k) 0
        ∧ ∀ k < elemCount s.cx.id.prof w.t,
          if n ≤ k then el (tyWidth w.t) k x = 0 ∧ f k = 0
          else if act (elemCount s.cx.id.prof w.t) k o.gp then CvtElem w s.cur.rm a.sc (el (tyWidth w.s) k a.d) (el (tyWidth w.t) k x) (f k)
          else f k = 0 ∧ el (tyWidth w.t) k x = if w.p && !s.cur.gzero && isVr w.d then el (tyWidth w.t) k o.d.d else 0)
  ∧ (∀ (w : FVK) (s : State), wf (.vdequant w) = true →
    (⟨w.g, .vec w.a 1, .none, false, false, false, .vec w.d (if w.t = 0 then 4 else 2), w.t, w.s, w.x, 4⟩ : VIssue).Ready s →
    let v : VIssue := ⟨w.g, .vec w.a 1, .none, false, false, false, .vec w.d (if w.t = 0 then 4 else 2), w.t, w.s, w.x, 4⟩
    let a := (v.operands s).a.headD VReg.zero
    let e := elemCount s.cx.id.prof w.t
    ∃ t fl res, ∃ xs : List VData, exec (.vdequant w) s = .next t ∧ v.Issued s t res fl false ∧ xs.length = (if w.t = 0 then 4 else 2)
      ∧ (isVr w.d = true → res = xs.zipIdx.map fun p => .v ((s.cx.asDelivered s.cur).physV (w.d.toNat + p.2)) p.1 0x3F800000)
      ∧ (∀ q, portOf w.d = some q → ∃ eid, res = xs.zipIdx.map fun p => .port q (eid + p.2) p.1 0x3F800000)
      ∧ ∀ j < xs.length, ∀ k < e, ∃ p f, IsProduct (unpackZ e4m3 w.fzi (el 8 (j * e + k) a.d)) (unpack f32 a.sc.toNat) p f
          ∧ el (tyWidth w.t) k (xs.getD j 0) = (roundFmt (tyFmt w.t) (vecMode (w.a == 0x39) w.x s.cur.rm) w.fzo p false).1)
  ∧ ∀ (w : FVK) (s : State), wf (.vquant w) = true →
    (⟨w.g, .vec w.a (if w.s = 0 then 4 else 2), .none, false, false, false, .vec w.d 1, w.t, w.s, w.x, 8⟩ : VIssue).Ready s →
    let v : VIssue := ⟨w.g, .vec w.a (if w.s = 0 then 4 else 2), .none, false, false, false, .vec w.d 1, w.t, w.s, w.x, 8⟩
    let e := elemCount s.cx.id.prof w.s
    let src (j : Nat) : FVal := unpackZ (tyFmt w.s) w.fzi (el (tyWidth w.s) (j % e) ((v.operands s).a.getD (j / e) VReg.zero).d)
    let n := elemCount s.cx.id.prof 3
    ∃ t x fl res amax sc, exec (.vquant w) s = .next t ∧ v.Issued s t res fl false ∧ ToVector s w.d x sc res
      ∧ (∀ j < n, isFin (src j) = true → |ratOf (src j)| ≤ amax) ∧ (amax = 0 ∨ ∃ j < n, isFin (src j) = true ∧ amax = |ratOf (src j)|)
      ∧ ∃ a q sticky, isFin a = true ∧ a.neg = false ∧ ratOf a = amax ∧ IsQuotient a (.fin false 448 0) q sticky 0
        ∧ let raw : W32 := BitVec.ofNat 32 (roundFmt f32 0 false q sticky).1
          let zero : Prop := amax = 0 ∨ raw = 0
          (zero → sc = 0x3F800000) ∧ (¬ zero → sc = raw)
          ∧ ∀ j < n, if isFin (src j) = false then el 8 j x = (satE4M3 (vecMode (w.a == 0x39) w.x s.cur.rm) w.fzo (src j) false).1
            else (zero → el 8 j x = 0) ∧ (¬ zero → ∃ y st, IsQuotient (src j) (unpack f32 sc.toNat) y st 0
              ∧ el 8 j x = (satE4M3 (vecMode (w.a == 0x39) w.x s.cur.rm) w.fzo y st).1)

/-- R175, R180, R182, R222, R223, R240, R241, R245: a reduction writes the value of its fixed binary tree to element 0 and zeros to the
others, with the flags of its nodes; a scan writes to each active element the value of its prefix network, a NaN made canonical, with
the flags of the nodes that lead to an active element; vsmx merges the row states of A and B, setting SMXNAN for a row
that became NaN. -/
def Sys2Proof.Claims.VectorReductions : Prop :=
  open Sys2Proof Sys2Proof.Machine Sys2Proof.Claims in
  (∀ (i : Instr) (w : FV) (v : VIssue) (s : State), wf i = true → redForm i = some (w, v) → v.Ready s →
    let o := v.operands s
    let n := elemCount s.cx.id.prof w.t
    let op := (nodeOf i s.cur.rm).1
    let inp (k : Nat) : Nat := redInput s w o (nodeOf i s.cur.rm).2 k
    ∃ t x fl res, exec i s = .next t ∧ v.Issued s t res fl false ∧ ToVector s w.d x 0x3F800000 res
      ∧ (isScan i = false → x = BitVec.ofNat 1024 (flushed w (treeOf op inp (Nat.log2 n) 0).1)
        ∧ fl = (treeOf op inp (Nat.log2 n) 0).2 ||| flushFlags w (treeOf op inp (Nat.log2 n) 0).1)
      ∧ (isScan i = true → ElementsBy s o w.t w.p (isVr w.d) (fun k r f =>
          r = flushed w (canonical w (prefixOf op inp (Nat.log2 n) k))
            ∧ f = prefixFlags op inp (Nat.log2 n) k ||| flushFlags w (canonical w (prefixOf op inp (Nat.log2 n) k))) x fl))
  ∧ ∀ (w : FV) (s : State), wf (.vsmx w) = true → (vIssue w 12 true false).Ready s →
    let o := (vIssue w 12 true false).operands s
    let a := (o.a.headD VReg.zero).d
    let b := o.b.d
    ∃ t x fl smx res, ∃ bad : Nat → Bool, exec (.vsmx w) s = .next t ∧ (vIssue w 12 true false).Issued s t res fl smx
      ∧ ToVector s w.d x 0x3F800000 res
      ∧ (∀ r < elemCount s.cx.id.prof 0 / 4, SmxRow (el 32 (4 * r) a) (el 32 (4 * r + 1) a) (el 32 (4 * r) b) (el 32 (4 * r + 1) b)
          (el 32 (4 * r) x) (el 32 (4 * r + 1) x) (el 32 (4 * r + 2) x) (el 32 (4 * r + 3) x) (bad r))
      ∧ (smx = true ↔ ∃ r < elemCount s.cx.id.prof 0 / 4, bad r = true)

/-- R183 to R185, R221 to R223, R236 to R241, R244, R245: the conversions, reductions, scans and vsmx complete, each as its
part says. -/
def Obligations.VectorConversionsAndReductions : Prop :=
  Sys2Proof.Claims.VectorConversions
    ∧ Sys2Proof.Claims.VectorReductions

/-! ## The matrix stream -/

namespace Sys2Proof.Claims

open Sys2Proof.Machine

/-- The exact product of two finite elements of a type. -/
def prodOf (bf : Bool) (x w : Nat) : Rat :=
  let f := if bf then bf16 else e4m3
  ratOf (unpack f x) * ratOf (unpack f w)
/-- Every element of a list is finite in its type. -/
def allFinite (bf : Bool) (xs : List Nat) : Prop := ∀ x ∈ xs, isFin (unpack (if bf then bf16 else e4m3) x) = true

/-- The integer nearest a rational, the even one on a tie (R189). -/
def NearestEven (u : Int) (x : Rat) : Prop := |x - u| ≤ 1 / 2 ∧ (|x - u| = 1 / 2 → u % 2 = 0)

/-- x truncated toward zero to a multiple of 2^q (R187), in those units. -/
def TruncatedTo (n : Int) (x : Rat) (q : Int) : Prop :=
  |(n : Rat) * 2 ^ q| ≤ |x| ∧ |x| < (|(n : Rat)| + 1) * 2 ^ q ∧ (0 ≤ x → 0 ≤ n) ∧ (x ≤ 0 → n ≤ 0)

/-- What an element brings to a promotion (R188, R189): its key, which a partial marked NaN has too, and its exact value, or a NaN
mark. A combined scale that is not finite has no key. -/
def Brings (bf : Bool) (p : Part) (sa sw : W32) (key : Option Int) (v : Option Rat) : Prop :=
  let sig := unpack f32 (roundFmt f32 0 false (mulF (unpack f32 sa.toNat) (unpack f32 sw.toNat)).1 false).1
  let sigBits := (roundFmt f32 0 false (mulF (unpack f32 sa.toNat) (unpack f32 sw.toNat)).1 false).1
  if bf then
    key = some (p.bfM - 18) ∧ v = if p.nan then none else some ((p.bfSum : Rat) * 2 ^ (p.bfM - 40))
  else if !isFin sig then key = none ∧ v = none
  else key = some (if expOf f32 sigBits = 0 then -126 else (expOf f32 sigBits : Int) - 127)
    ∧ v = if p.nan then none else some ((p.fix : Rat) * 2 ^ (-18 : Int) * ratOf sig)

/-- An element added to its accumulator with saturation (R189). -/
def satTo (e : Elem) (u : Int) : Elem :=
  let t := e.a.toInt + u
  { e with a := BitVec.ofInt 64 (max (-2 ^ 63) (min (2 ^ 63 - 1) t)), sat := e.sat || decide (t < -2 ^ 63 ∨ 2 ^ 63 - 1 < t) }

/-- A slot of the context's array (R247). -/
def slotCount (p : Profile) : Nat :=
  match p with
  | .p => 2
  | .d => 4
  | .b => 0

/-- An M command may issue and begin (R127, R250, R254): its gate is open, none of its context is in flight in the array, checking
mode sees no breach, and the lease is held, not ending, with commands and cycles left, where it needs one. -/
def MReady (s : State) (g : BitVec 2) (lease : Bool) (reads : List VSrc) : Prop :=
  gateOk g s.cur.level = true ∧ s.cx.mfly = []
    ∧ (s.cur.chk = false ∨ ∀ r ∈ reads, r.breach s = false ∧ r.dead (s.cx.asDelivered s.cur) = false)
    ∧ (lease = true → ∃ l, leaseOf s s.cx.id = some l ∧ l.ending = false ∧ l.cmds < 16 ∧ s.cycle < l.at' + 4096)

/-- A command has issued (R250, R254): the context is c, one command is counted under a lease, and nothing but the array, memory and
what its reads and writes count has changed. -/
structure Issued (s t : State) (lease : Bool) (c : Ctx) : Prop where
  cx : t.cx = c
  rest : t = { s with cx := c, garr := t.garr, darr := t.darr, regions := t.regions, vaults := t.vaults, fresh := t.fresh,
                      mem := t.mem, soft := t.soft, red := t.red, bad := t.bad, wc := t.wc }
  clusters : ∀ k, k ≠ s.cx.id.cluster → t.great k = s.great k
  cores : ∀ k, k ≠ s.cx.id.coreKey → t.decArr k = s.decArr k
  lease : (t.great s.cx.id.cluster).lease = if lease then (s.great s.cx.id.cluster).lease.map fun l =>
    { l with cmds := l.cmds + 1, idle := s.cycle } else (s.great s.cx.id.cluster).lease
  reqs : (t.great s.cx.id.cluster).reqs = (s.great s.cx.id.cluster).reqs
  grants : (t.great s.cx.id.cluster).grants = (s.great s.cx.id.cluster).grants

/-- The context after a command that has completed (R250). -/
def completed (c : Ctx) (s : State) : Ctx := { c with decs := c.decs ++ [⟨3, s.cur.seq⟩] }
/-- The buffers, the row former and the records are as before. -/
def TablesSame (s t : State) : Prop :=
  let g := s.great s.cx.id.cluster
  let h := t.great s.cx.id.cluster
  h.bufs = g.bufs ∧ h.holder = g.holder ∧ h.rowf = g.rowf ∧ h.recs = g.recs
/-- Slot n of the context's array becomes m, and every other slot is as before. -/
def SlotBecomes (s t : State) (n : Nat) (m : MSlot) : Prop :=
  slotAt t s.cx.id n = m ∧ ∀ k, k ≠ n → slotAt t s.cx.id k = slotAt s s.cx.id k
/-- Every slot is as before. -/
def SlotsSame (s t : State) : Prop := ∀ k, slotAt t s.cx.id k = slotAt s s.cx.id k
/-- Every byte of memory reads as before. -/
def MemSame (s t : State) : Prop := ∀ k, homeByte t k = homeByte s k

/-- The vectors at the head of a load port (R201). -/
def PortHolds (s : State) (q n : Nat) (vs : List VReg) : Prop :=
  n ≤ (s.cx.lports.getD q []).length ∧ (∀ e ∈ (s.cx.lports.getD q []).take n, e.ready = true)
    ∧ vs = ((s.cx.lports.getD q []).take n).map (·.v)
/-- The context after n vectors have been popped from port q. -/
def popped (c : Ctx) (q n : Nat) : Ctx := { c with lports := c.lports.setIfInBounds q ((c.lports.getD q []).drop n) }

/-- A cleared slot (R259, R273): owned, in its mode; every element, carry, bit, CE and the mask gone. -/
def cleared (c : CtxId) (mode : SlotMode) : MSlot := ⟨some c, mode, [], 0, [], none, 0, [], 0, 0⟩

/-- The bytes of an address range of a space that a command reads (R252). -/
def ReadsRange (s : State) (win : List Nat) (a : W64) (n align : Nat) (v : Nat) : Prop :=
  a.toNat / 2 ^ 60 ∈ win ∧ ∃ ks, resolve s s.cx .rd false false a n align = .ok ks ∧ v = homeNat s ks

end Sys2Proof.Claims

/-- R186 to R189: the partial of a pass is the exact sum of its E4M3 products in units of 2^-18; in BF16 the sum of its products
truncated toward zero to multiples of 2^(M - 40), where M is the greatest exponent of a non-zero product and -144 when there is
none; a NaN or an infinity marks it. A promotion latches for a block without a CE, once a value of the block is not a NaN, the greatest
key over every vector that it writes there, NaN-marked ones included, keeps every other CE, marks the NaN elements, and adds to the others the integer nearest their value in units of 2^(CE - 29), with
saturation; every partial it promotes becomes zero and no other element changes. (A group of both types has a free value: log
entry 10; it is excluded.) -/
def Obligations.PartialsAreExactAndPromoted : Prop :=
  open Sys2Proof Sys2Proof.Machine Sys2Proof.Claims in
  (∀ (xs ws : List Nat), xs.length = ws.length → allFinite false xs → allFinite false ws →
    (dotPart false xs ws).nan = false ∧ (dotPart false xs ws).terms = []
      ∧ ((dotPart false xs ws).fix : Rat) = 2 ^ 18 * ((xs.zip ws).map fun p => prodOf false p.1 p.2).sum)
  ∧ (∀ (xs ws : List Nat), xs.length = ws.length → allFinite true xs → allFinite true ws →
    let p := dotPart true xs ws
    p.nan = false ∧ p.used = false
      ∧ ((∀ q ∈ xs.zip ws, prodOf true q.1 q.2 = 0) → p.bfM = -144 ∧ p.bfSum = 0)
      ∧ ((∃ q ∈ xs.zip ws, prodOf true q.1 q.2 ≠ 0) →
          (∃ q ∈ xs.zip ws, (2 : Rat) ^ p.bfM ≤ |prodOf true q.1 q.2|)
          ∧ ∀ q ∈ xs.zip ws, |prodOf true q.1 q.2| < (2 : Rat) ^ (p.bfM + 1))
      ∧ ∃ ns : List Int, p.bfSum = ns.sum
          ∧ List.Forall₂ (fun n q => TruncatedTo n (prodOf true q.1 q.2) (p.bfM - 40)) ns
              ((xs.zip ws).filter fun q => prodOf true q.1 q.2 != 0))
  ∧ (∀ (bf : Bool) (xs ws : List Nat), xs.length = ws.length → (¬ allFinite bf xs ∨ ¬ allFinite bf ws) → (dotPart bf xs ws).nan = true)
  ∧ ∀ (m : MSlot) (bf : Bool) (fresh : Nat) (xs : List (Nat × Nat × Part × W32 × W32)),
    (xs.map (·.1)).Nodup → (∀ x ∈ xs, x.2.1 < 4 ∧ x.2.2.1.base = none ∧ if bf then x.2.2.1.used = false else x.2.2.1.terms = []) →
    (∀ b, ∀ c, m.ceOf b = some c → (promote m bf fresh xs).ceOf b = some c)
      ∧ (∀ b < 4, m.ceOf b = none → ∀ vals : List (Option Int × Option Rat),
          List.Forall₂ (fun x v => Brings bf x.2.2.1 x.2.2.2.1 x.2.2.2.2 v.1 v.2) (xs.filter (·.2.1 == b)) vals →
          (∀ v ∈ vals, ∀ k, v.1 = some k → k < 2 ^ 20) →
          ((∀ v ∈ vals, v.2 = none) → (promote m bf fresh xs).ceOf b = none)
          ∧ ((∃ v ∈ vals, v.2 ≠ none) → ∃ c, (promote m bf fresh xs).ceOf b = some c ∧ (∃ v ∈ vals, v.1 = some c)
              ∧ ∀ v ∈ vals, ∀ k, v.1 = some k → k ≤ c))
      ∧ (∀ x ∈ xs, ∃ k v, Brings bf x.2.2.1 x.2.2.2.1 x.2.2.2.2 k v ∧
          (v = none → (promote m bf fresh xs).elem x.1 = { m.elem x.1 with part := Part.zero, nan := true })
          ∧ ∀ e r c, k = some e → v = some r → e < 2 ^ 20 → (promote m bf fresh xs).ceOf x.2.1 = some c →
            ∃ u, NearestEven u (r / 2 ^ (c - 29)) ∧ (promote m bf fresh xs).elem x.1 = satTo { m.elem x.1 with part := Part.zero } u)
      ∧ (∀ k, k ∉ xs.map (·.1) → (promote m bf fresh xs).elem k = m.elem k)
      ∧ promote m bf fresh xs = { m with elems := (promote m bf fresh xs).elems, ce := (promote m bf fresh xs).ce }

/-- R253, R256, R262, R265, R268: a weight-buffer load, a row-former load, a mask and a load of stationary columns that may begin
complete with what they read, and change nothing else of the array. -/
def Sys2Proof.Claims.ArrayTablesLoad : Prop :=
  open Sys2Proof Sys2Proof.Machine Sys2Proof.Claims in
  (∀ (w : FR) (s : State) (tile tbl : Nat), wf (.mldb w) = true → MReady s w.g true [.sreg w.a, .sreg w.b] →
    ReadsRange s [2] (readOp s 0 (some w.a)) 16384 128 tile → ReadsRange s [2] (readOp s 3 (some w.b)) 8 8 tbl →
    ∃ t, exec (.mldb w) s = .next t ∧ Issued s t true (completed s.cx s) ∧ SlotsSame s t ∧ MemSame s t
      ∧ (∀ b < 2, (t.great s.cx.id.cluster).bufs[b]? = if b = w.d.toNat then
          some ⟨BitVec.ofNat 131072 tile, BitVec.ofNat 32 tbl, BitVec.ofNat 32 (tbl / 2 ^ 32), w.f.getLsbD 0⟩
          else (s.great s.cx.id.cluster).bufs[b]?)
      ∧ (t.great s.cx.id.cluster).rowf = (s.great s.cx.id.cluster).rowf
      ∧ (t.great s.cx.id.cluster).holder = some s.cx.id)
  ∧ (∀ (w : FR) (s : State) (r : RowF), wf (.mrowf w) = true → MReady s w.g true [.sreg w.a] →
    readRowF s s.cx (readOp s 0 (some w.a)) = .ok r →
    ∃ t, exec (.mrowf w) s = .next t ∧ Issued s t true (completed s.cx s) ∧ SlotsSame s t ∧ MemSame s t
      ∧ (t.great s.cx.id.cluster).rowf = some r ∧ (t.great s.cx.id.cluster).bufs = (s.great s.cx.id.cluster).bufs
      ∧ (t.great s.cx.id.cluster).holder = some s.cx.id)
  ∧ (∀ (w : FR) (s : State), wf (.mmask w) = true → w.d.toNat < slotCount s.cx.id.prof →
    MReady s w.g (s.cx.id.prof == .p) [.sreg w.a] → ownSlot s w.d.toNat = true →
    ∀ b, (readOp s 0 (some w.a) = 0 ∧ b = none ∨ readOp s 0 (some w.a) ≠ 0
        ∧ ∃ k, readMask s s.cx (readOp s 0 (some w.a)) = .ok k ∧ b = some k) →
    ∃ t, exec (.mmask w) s = .next t ∧ Issued s t (s.cx.id.prof == .p) (completed s.cx s) ∧ TablesSame s t ∧ MemSame s t
      ∧ SlotBecomes s t w.d.toNat { slotAt s s.cx.id w.d.toNat with mask := b })
  ∧ ∀ (w : FR) (s : State), wf (.dmvld w) = true → MReady s w.g false [.vec w.a w.b.toNat] → portsReady s.cx (.vec w.a w.b.toNat) .none = true →
    ∃ t, exec (.dmvld w) s = .next t ∧ SlotsSame s t ∧ MemSame s t ∧ TablesSame s t
      ∧ Issued s t false (completed { s.cx with lports := t.cx.lports, deadrd := t.cx.deadrd, cols := t.cx.cols } s)
      ∧ (∀ q < 8, t.cx.lports[q]? = (s.cx.lports[q]?).map (·.drop ((VSrc.vec w.a w.b.toNat).pops q)))
      ∧ ∀ i < 8, t.cx.cols[i]? = if w.d.toNat ≤ i ∧ i < w.d.toNat + w.b.toNat then
          ((sourceVals s 0 0 0 [] (.vec w.a w.b.toNat))[i - w.d.toNat]?).map (fun v => ⟨v, w.f.getLsbD 0⟩) else s.cx.cols[i]?

/-- R248, R259, R264, R268, R273, R278: mzero and dmzero claim a free or own slot and clear it, mmode clears its elements and sets
its mode, mrel releases the slots it names that the context owns and, with END, its lease; no other slot changes. -/
def Sys2Proof.Claims.SlotsAreClaimedAndReleased : Prop :=
  open Sys2Proof Sys2Proof.Machine Sys2Proof.Claims in
  (∀ (w : FR) (s : State), wf (.mzero w) = true → s.cx.id.prof = .p → MReady s w.g true [] →
    (∀ o, (slotAt s s.cx.id w.d.toNat).owner = some o → o = s.cx.id) →
    ∃ t, exec (.mzero w) s = .next t ∧ Issued s t true (completed s.cx s) ∧ TablesSame s t ∧ MemSame s t
      ∧ SlotBecomes s t w.d.toNat (cleared s.cx.id (if w.f.getLsbD 0 then .split else .plain)))
  ∧ (∀ (w : FR) (s : State), wf (.dmzero w) = true → s.cx.id.prof = .d → MReady s w.g false [] →
    (∀ o, (slotAt s s.cx.id w.d.toNat).owner = some o → o = s.cx.id) →
    ∃ t, exec (.dmzero w) s = .next t ∧ Issued s t false (completed s.cx s) ∧ TablesSame s t ∧ MemSame s t
      ∧ SlotBecomes s t w.d.toNat (cleared s.cx.id .plain))
  ∧ (∀ (w : FR) (s : State), wf (.mmode w) = true → w.d.toNat < slotCount s.cx.id.prof → MReady s w.g (s.cx.id.prof == .p) [] →
    ownSlot s w.d.toNat = true → (slotAt s s.cx.id w.d.toNat).mode ≠ .split →
    ∃ t, exec (.mmode w) s = .next t ∧ Issued s t (s.cx.id.prof == .p) (completed s.cx s) ∧ TablesSame s t ∧ MemSame s t
      ∧ SlotBecomes s t w.d.toNat { slotAt s s.cx.id w.d.toNat with
          mode := if w.f.getLsbD 0 then .affine else .plain, elems := [], rmask := 0, ce := [], macdone := 0, step := 0 })
  ∧ ∀ (w : FR) (s : State), wf (.mrel w) = true → s.cx.id.prof = .p → gateOk w.g s.cur.level = true → s.cx.mfly = [] →
    ∃ t, exec (.mrel w) s = .next t ∧ t = { s with garr := t.garr } ∧ (∀ k, k ≠ s.cx.id.cluster → t.great k = s.great k)
      ∧ (∀ n < 2, slotAt t s.cx.id n = if w.f.getLsbD n = true ∧ ownSlot s n = true then MSlot.free else slotAt s s.cx.id n)
      ∧ TablesSame s t
      ∧ (w.f.getLsbD 2 = true → leaseOf t s.cx.id = none ∧ ∀ l, (s.great s.cx.id.cluster).lease = some l → l.ctx ≠ s.cx.id →
          (t.great s.cx.id.cluster).lease = some l)
      ∧ (w.f.getLsbD 2 = false → (t.great s.cx.id.cluster).lease = (s.great s.cx.id.cluster).lease
          ∧ (t.great s.cx.id.cluster).reqs = (s.great s.cx.id.cluster).reqs)

/-! ### Rows, drains and affine commands -/

namespace Sys2Proof.Claims

open Sys2Proof.Machine

/-- The K elements of half h of a row of 128 bytes (R257, R269). -/
def halfOf (bf : Bool) (x : VData) (h : Nat) : List Nat :=
  if bf then (List.range 32).map fun e => el 16 (32 * h + e) x else (List.range 64).map fun e => el 8 (64 * h + e) x
/-- Weight (e, c) of a tile (R253). -/
def weightOf (b : WBuf) (e c : Nat) : Nat :=
  if b.bf then (b.tile.extractLsb' (8 * (512 * e + 2 * c)) 16).toNat else (b.tile.extractLsb' (8 * (256 * e + c)) 8).toNat
/-- The weights of column c. -/
def columnOf (b : WBuf) (c : Nat) : List Nat := (List.range (if b.bf then 32 else 64)).map fun e => weightOf b e c

/-- The row control of mma, mdrain and mscan is within its limits (R257, R261). -/
def RowsLegal (b : W64) : Prop :=
  (b.extractLsb' 0 10).toNat ≤ 511 ∧ 1 ≤ (b.extractLsb' 16 10).toNat ∧ (b.extractLsb' 0 10).toNat + (b.extractLsb' 16 10).toNat ≤ 512
    ∧ b.extractLsb' 10 6 = 0 ∧ b.extractLsb' 26 6 = 0

/-- A pass of an mma (R257): row k of the stream, whose accumulator row is ROW0 + k, adds to the partial of each of its 256
elements, or replaces it under GF; a masked row sets RMASK; with GL the streamed rows are promoted together. -/
def Streamed (m : MSlot) (b : WBuf) (h : Nat) (gf gl : Bool) (fresh row0 : Nat) (rows : List ARow) (m' : MSlot) : Prop :=
  ∃ m1, m1 = { m with elems := m1.elems, rmask := m1.rmask }
    ∧ (∀ i, i < 512 → m1.rmask.getLsbD i = (m.rmask.getLsbD i
        || (decide (row0 ≤ i) && ((rows[i - row0]?).map (·.masked)).getD false)))
    ∧ (∀ i c, c < 256 → m1.elem (256 * i + c) =
        match if row0 ≤ i then rows[i - row0]? else none with
        | none => m.elem (256 * i + c)
        | some r =>
          let p := dotPart b.bf (halfOf b.bf r.x (if m.mode = .split then c / 128 else h)) (columnOf b c)
          { m.elem (256 * i + c) with part := if gf then p else (m.elem (256 * i + c)).part.add p })
    ∧ m' = if gl then promote m1 b.bf fresh (rows.zipIdx.flatMap fun r => (List.range 256).map fun c =>
        (256 * (row0 + r.2) + c, c / 128, (m1.elem (256 * (row0 + r.2) + c)).part, r.1.sc, if c < 128 then b.sc0 else b.sc1)) else m1

/-- The drained pattern of an element (R191, R261, R266, R270, R276): -∞ where it is masked; B in affine mode; the merge of both
halves into an empty element in split-K mode; else A in units of 2^(CE - 29), +0 without a CE; NaN where NANST is set. -/
def Drained (m : MSlot) (great : Bool) (fm : Fmt) (row col : Nat) (r : Nat) : Prop :=
  let e := m.elem (if great then 256 * row + col else 8 * row + col)
  let value (a : W64) (nan : Bool) (ce : Option Int) : Prop :=
    if nan then r = nanPat fm
    else match ce with
      | none => r = 0
      | some c => if a = 0 then r = 0 else r = (roundFmt fm 0 false (.fin (a.toInt < 0) a.toInt.natAbs (c - 29)) false).1
  if m.masked great row col then r = infPat fm true
  else match m.mode with
    | .affine => if e.nan then r = nanPat fm else r = (roundFmt fm 0 false (unpack f32 e.b.toNat) false).1
    | .split => let d := mergeSplit m row col (0, none, false, false); value d.1 d.2.2.1 d.2.1
    | .plain => value e.a e.nan (m.ceOf (if great then col / 128 else row / 128))

/-- The element of bytes z k to z k + z - 1 of a list of bytes. -/
def elemAt (bs : List Byte) (z k : Nat) : Nat := leNat ((bs.drop (z * k)).take z)

/-- The keys of rows that are written one after the other (R251): every row lies in the windows and passes its check. -/
def RowKeys (s : State) (wins : List Nat) : List (W64 × Nat) → List Nat → Prop
  | [], ks => ks = []
  | (a, n) :: r, ks => a.toNat / 2 ^ 60 ∈ wins
      ∧ ∃ k1 k2, resolve s s.cx .wr true false a n 1 = .ok k1 ∧ RowKeys s wins r k2 ∧ ks = k1 ++ k2

/-- The columns that CB names, upward (R261). -/
def drainCols (m : MSlot) (cb : Nat) : List Nat :=
  if m.mode = .split then List.range 128
  else (List.range 256).filter fun c => cb.testBit (c / 128)

/-- A pair of an affine element. -/
def pairOf (e : Elem) : W32 × W32 := (e.g, e.b)
/-- The identity pair (1.0, +0). -/
def unitPair : W32 × W32 := (0x3F800000, 0)

/-- Composition (R274): the pair of p2 after p1 and whether the gain underflowed. -/
def Composed (p2 p1 r : W32 × W32) (under : Bool) : Prop :=
  let g2 := unpack f32 p2.1.toNat
  let b2 := unpack f32 p2.2.toNat
  let g1 := unpack f32 p1.1.toNat
  let b1 := unpack f32 p1.2.toNat
  if g2.isNaN || b2.isNaN || g1.isNaN || b1.isNaN then r = (0x7FC00000, 0x7FC00000) ∧ under = false
  else ∃ x pb y g b f1 f2 f3, IsProduct g2 g1 x f1 ∧ IsProduct g2 b1 pb f2 ∧ IsSum 0 pb b2 y f3
    ∧ b = BitVec.ofNat 32 (roundFmt f32 0 false y false).1
    ∧ (under = true ↔ isFin x = true ∧ ratOf x ≠ 0
        ∧ (roundFmt f32 0 false x false).1 % 2 ^ 31 < 2 ^ 23)
    ∧ g = (if under then (if x.neg then 0x80000000 else 0) else BitVec.ofNat 32 (roundFmt f32 0 false x false).1)
    ∧ r = if (unpack f32 g.toNat).isNaN || (unpack f32 b.toNat).isNaN then (0x7FC00000, 0x7FC00000) else (g, b)

/-- The offset that Form gives an element (R275). -/
def Formed (m : MSlot) (e : Elem) (block : Nat) (r : W32) : Prop :=
  if e.nan then r = 0x7FC00000
  else match m.ceOf block with
    | none => r = 0
    | some c => if e.a = 0 then r = 0
        else r = BitVec.ofNat 32 (roundFmt f32 0 false (.fin (e.a.toInt < 0) e.a.toInt.natAbs (c - 29)) false).1

/-- A gain as it is stored (R279): NaN canonical, a subnormal a zero of its sign; whether it was either. -/
def gainStored (v : W32) : W32 × Bool × Bool :=
  if (unpack f32 v.toNat).isNaN then (0x7FC00000, true, false)
  else if v &&& 0x7FFFFFFF ≠ 0 ∧ (v &&& 0x7FFFFFFF).toNat < 2 ^ 23 then (v &&& 0x80000000, false, true)
  else (v, false, false)

end Sys2Proof.Claims

/-- R257, R269: an mma of rows from a load port or from scratch, and a dmv, that may begin with legal operands complete: each
element streamed has its partial replaced or added to, with GL the rows of an mma are promoted together and those of a dmv one after
the other, the port's vectors are popped, and nothing else changes. -/
def Obligations.RowsAccumulate : Prop :=
  open Sys2Proof Sys2Proof.Machine Sys2Proof.Claims in
  (∀ (w : FR) (s : State) (rows : List ARow), wf (.mma w) = true → s.cx.id.prof = .p →
    let src := w.f.toNat % 4
    MReady s w.g true ((if src = 1 then [.sreg w.a] else []) ++ [.sreg w.b]) →
    let ctl := readOp s 3 (some w.b)
    let n := (ctl.extractLsb' 16 10).toNat
    RowsLegal ctl → ownSlot s w.d.toNat = true →
    (src = 0 ∧ (∃ vs, PortHolds s w.a.toNat n vs ∧ rows = vs.map fun v => ⟨v.d, v.sc, false, []⟩)
      ∨ src = 1 ∧ ctl.extractLsb' 32 7 = 0
        ∧ scratchRows s (readOp s 0 (some w.a)) (ctl.extractLsb' 32 32).toNat n = .ok rows) →
    ∃ t m', exec (.mma w) s = .next t ∧ MemSame s t ∧ TablesSame s t
      ∧ Issued s t true (completed (if src = 0 then popped s.cx w.a.toNat n else s.cx) s)
      ∧ Streamed (slotAt s s.cx.id w.d.toNat) ((s.great s.cx.id.cluster).bufs.getD (w.f.getLsbD 2).toNat WBuf.zero)
          (w.f.getLsbD 3).toNat (w.f.getLsbD 4) (w.f.getLsbD 5) (s.fresh + 1) (ctl.extractLsb' 0 10).toNat rows m'
      ∧ SlotBecomes s t w.d.toNat m')
  ∧ ∀ (w : FR) (s : State) (vs : List VReg), wf (.dmv w) = true → s.cx.id.prof = .d → MReady s w.g false [.sreg w.b] →
    let ctl := readOp s 3 (some w.b)
    let row0 := (ctl.extractLsb' 0 10).toNat
    let n := (ctl.extractLsb' 10 8).toNat
    let act := (List.range 8).filter fun i => ctl.getLsbD (18 + i)
    let col (i : Nat) : Col := s.cx.cols.getD i Col.zero
    row0 % 2 = 0 → n % 2 = 0 → 2 ≤ n → n ≤ 128 → row0 / 128 = (row0 + n - 1) / 128 → row0 + n ≤ 512 → ctl.extractLsb' 26 6 = 0 →
    ∀ bf, (∀ i ∈ act, (col i).bf = bf) → (act = [] → bf = false) → ownSlot s w.d.toNat = true → PortHolds s w.a.toNat (n / 2) vs →
    ∃ t m' m1, exec (.dmv w) s = .next t ∧ MemSame s t ∧ TablesSame s t
      ∧ Issued s t false (completed (popped s.cx w.a.toNat (n / 2)) s) ∧ SlotBecomes s t w.d.toNat m'
      ∧ m1 = { slotAt s s.cx.id w.d.toNat with elems := m1.elems }
      ∧ (∀ j i, i < 8 → m1.elem (8 * j + i) =
          let m := slotAt s s.cx.id w.d.toNat
          if row0 ≤ j ∧ j < row0 + n ∧ i ∈ act then
            let p := dotPart bf (halfOf bf (col i).v.d (w.f.getLsbD 0).toNat)
              (halfOf bf (vs.getD ((j - row0) / 2) VReg.zero).d ((j - row0) % 2))
            { m.elem (8 * j + i) with part := if w.f.getLsbD 1 then p else (m.elem (8 * j + i)).part.add p }
          else m.elem (8 * j + i))
      ∧ m' = if w.f.getLsbD 2 then (List.range n).foldl (fun m k => promote m bf (s.fresh + 1) (act.map fun i =>
            (8 * (row0 + k) + i, (row0 + k) / 128, (m1.elem (8 * (row0 + k) + i)).part, (col i).v.sc, ctl.extractLsb' 32 32))) m1
          else m1

/-- R261, R270: a drain to memory that may begin, with legal operands and rows that all lie in its windows and pass their checks,
completes: each drained element is written in its place, every byte outside the rows reads as before, and the slot keeps its
contents or is released with REL; an mdrain with DST 2 writes no memory. -/
def Obligations.DrainsWriteResults : Prop :=
  open Sys2Proof Sys2Proof.Machine Sys2Proof.Claims in
  (∀ (w : FR) (s : State) (ks : List Nat), s.Ok → wf (.mdrain w) = true → s.cx.id.prof = .p →
    MReady s w.g true [.sreg w.a, .sreg w.b] →
    let at' := readOp s 0 (some w.a)
    let ctl := readOp s 3 (some w.b)
    let m := slotAt s s.cx.id w.d.toNat
    let cols := drainCols m (ctl.extractLsb' 32 2).toNat
    let z := if w.f.getLsbD 0 then 2 else 4
    let n := (ctl.extractLsb' 16 10).toNat
    w.f.toNat / 2 % 4 = 0 → RowsLegal ctl → ctl.extractLsb' 34 6 = 0 → ctl.extractLsb' 40 7 = 0 → ownSlot s w.d.toNat = true →
    (m.mode = .split → ctl.extractLsb' 32 2 = 1) → cols ≠ [] →
    RowKeys s [1, 2] ((List.range n).map fun k => (at' + BitVec.ofNat 64 (k * (ctl.extractLsb' 40 24).toNat), cols.length * z)) ks →
    ∃ t bs, exec (.mdrain w) s = .next t ∧ Issued s t true (completed s.cx s) ∧ TablesSame s t
      ∧ SlotBecomes s t w.d.toNat (if w.f.getLsbD 3 then MSlot.free else m)
      ∧ bs.length = n * (cols.length * z) ∧ Stored s t ks bs
      ∧ ∀ k < n, ∀ j < cols.length, Drained m true (if w.f.getLsbD 0 then bf16 else f32) ((ctl.extractLsb' 0 10).toNat + k)
          (cols.getD j 0) (elemAt bs z (k * cols.length + j)))
  ∧ (∀ (w : FR) (s : State), wf (.mdrain w) = true → s.cx.id.prof = .p → MReady s w.g true [.sreg w.a, .sreg w.b] →
    let ctl := readOp s 3 (some w.b)
    let m := slotAt s s.cx.id w.d.toNat
    let d := slotAt s s.cx.id (1 - w.d.toNat)
    let cb := (ctl.extractLsb' 32 2).toNat
    let row0 := (ctl.extractLsb' 0 10).toNat
    let n := (ctl.extractLsb' 16 10).toNat
    w.f.toNat / 2 % 4 = 2 → RowsLegal ctl → ctl.extractLsb' 34 6 = 0 → ctl.extractLsb' 40 7 = 0 → ownSlot s w.d.toNat = true →
    ownSlot s (1 - w.d.toNat) = true → m.mode = .split → d.mode = .plain → (cb = 1 ∨ cb = 2) →
    ∃ t, exec (.mdrain w) s = .next t ∧ Issued s t true (completed s.cx s) ∧ TablesSame s t ∧ MemSame s t
      ∧ slotAt t s.cx.id w.d.toNat = (if w.f.getLsbD 3 then MSlot.free else m)
      ∧ (slotAt t s.cx.id (1 - w.d.toNat)).ceOf (cb / 2) = (d.ceOf (cb / 2)).or ((m.ceOf 1).or (m.ceOf 0))
      ∧ (∀ i j, j < 256 → (slotAt t s.cx.id (1 - w.d.toNat)).elem (256 * i + j) =
          let e := d.elem (256 * i + j)
          if row0 ≤ i ∧ i < row0 + n ∧ j / 128 = cb / 2 then
            let r := mergeSplit m i (j % 128) (e.a, (d.ceOf (cb / 2)).or ((m.ceOf 1).or (m.ceOf 0)), e.nan, e.sat)
            { e with a := r.1, nan := r.2.2.1, sat := r.2.2.2 }
          else e))
  ∧ (∀ (w : FR) (s : State) (ks : List Nat), s.Ok → wf (.dmdrain w) = true → s.cx.id.prof = .d →
    MReady s w.g false [.sreg w.a, .sreg w.b] →
    let at' := readOp s 0 (some w.a)
    let ctl := readOp s 3 (some w.b)
    let m := slotAt s s.cx.id w.d.toNat
    let act := (List.range 8).filter fun i => ctl.getLsbD (20 + i)
    let z := if w.f.getLsbD 0 then 2 else 4
    let n := (ctl.extractLsb' 10 10).toNat
    let row0 := (ctl.extractLsb' 0 10).toNat
    row0 ≤ 511 → 1 ≤ n → row0 + n ≤ 512 → ctl.extractLsb' 28 36 = 0 → ownSlot s w.d.toNat = true →
    RowKeys s [1, 4] ((List.range n).flatMap fun k => act.map fun i =>
      (at' + BitVec.ofNat 64 (if w.f.getLsbD 1 then i * n * z + k * z else k * 8 * z + i * z), z)) ks →
    ∃ t bs, exec (.dmdrain w) s = .next t ∧ Issued s t false (completed s.cx s) ∧ TablesSame s t
      ∧ SlotBecomes s t w.d.toNat (if w.f.getLsbD 2 then MSlot.free else m)
      ∧ bs.length = n * act.length * z ∧ Stored s t ks bs
      ∧ ∀ k < n, ∀ j < act.length, Drained m false (if w.f.getLsbD 0 then bf16 else f32) (row0 + k) (act.getD j 0)
          (elemAt bs z (k * act.length + j)))
  ∧ ∀ (m : MSlot) (i j : Nat) (ce : Option Int) (a : W64) (nan sat : Bool),
    let up := m.elem (256 * i + 128 + j)
    (m.ceOf 1 = none → m.ceOf 0 = none → mergeSplit m i j (a, ce, nan, sat) = (a, ce, nan, sat))
      ∧ (∀ c1, m.ceOf 1 = some c1 → m.ceOf 0 = none → ∃ u, NearestEven u ((up.a.toInt : Rat) * 2 ^ (c1 - ce.getD c1)) ∧
          let e1 := satTo { Elem.zero with sat := sat } u
          let e2 := satTo { e1 with a := a } e1.a.toInt
          mergeSplit m i j (a, ce, nan, sat) = (e2.a, some (ce.getD c1), nan || up.nan, e2.sat || up.sat))
      ∧ (∀ c1 c0, m.ceOf 1 = some c1 → m.ceOf 0 = some c0 → mergeSplit m i j (a, ce, nan, sat)
          = mergeSplit { m with ce := [(0, c0)] } i j (mergeSplit { m with ce := [(1, c1)] } i j (a, ce, nan, sat)))

/-- R272 to R283: mgain stores gains, mcarry loads and stores carries, dmstep advances each active element's recurrence by one
composition, and a step of an mscan forms offsets, composes a level from the values before it, or composes the carries; nothing
else of the slot changes. -/
def Obligations.AffineCommandsAct : Prop :=
  open Sys2Proof Sys2Proof.Machine Sys2Proof.Claims in
  (∀ p2 p1, ∃ u, Composed p2 p1 (compose p2 p1).1 u ∧ (compose p2 p1).2 = u)
  ∧ (∀ (w : FR) (s : State) (rows : List Nat), wf (.mgain w) = true → s.cx.id.prof = .p →
    MReady s w.g true [.sreg w.a, .sreg w.b] →
    let ctl := readOp s 3 (some w.b)
    let z := if w.f.getLsbD 0 then 2 else 4
    let n := (ctl.extractLsb' 16 10).toNat
    let row0 := (ctl.extractLsb' 0 10).toNat
    let m := slotAt s s.cx.id w.d.toNat
    let gain (k c : Nat) : W32 := BitVec.ofNat 32 (rows.getD k 0 / 2 ^ (8 * z * c) % 2 ^ (8 * z) * (if z = 2 then 65536 else 1))
    RowsLegal ctl → ctl.extractLsb' 32 7 = 0 → ownSlot s w.d.toNat = true → m.mode = .affine →
    (rows.length = n ∧ ∀ k < n, ReadsRange s [1, 2]
      (readOp s 0 (some w.a) + BitVec.ofNat 64 (k * (ctl.extractLsb' 32 32).toNat)) (256 * z) 128 (rows.getD k 0)) →
    ∃ t m', exec (.mgain w) s = .next t ∧ Issued s t true (completed s.cx s) ∧ TablesSame s t ∧ MemSame s t
      ∧ SlotBecomes s t w.d.toNat m' ∧ m' = { m with elems := m'.elems, guf := m'.guf }
      ∧ (∀ i c, c < 256 → m'.elem (256 * i + c) = if row0 ≤ i ∧ i < row0 + n then
          { m.elem (256 * i + c) with
            g := (gainStored (gain (i - row0) c)).1
            nan := (m.elem (256 * i + c)).nan || (gainStored (gain (i - row0) c)).2.1 }
          else m.elem (256 * i + c))
      ∧ ∀ c < 256, m'.guf.getLsbD c = (m.guf.getLsbD c || (List.range n).any fun k => (gainStored (gain k c)).2.2))
  ∧ (∀ (w : FR) (s : State) (vs : List VReg), wf (.mgain w) = true → s.cx.id.prof = .d → MReady s w.g false [.sreg w.b] →
    let ctl := readOp s 3 (some w.b)
    let z := if w.f.getLsbD 0 then 2 else 4
    let n := (ctl.extractLsb' 10 10).toNat
    let per := 128 / z
    let row0 := (ctl.extractLsb' 0 10).toNat
    let m := slotAt s s.cx.id w.d.toNat
    let gain (k : Nat) : W32 := BitVec.ofNat 32 (el (8 * z) (k % per) (vs.getD (k / per) VReg.zero).d * (if z = 2 then 65536 else 1))
    n % (per / 8) = 0 → n ≤ 512 → row0 ≤ 511 → row0 + n ≤ 512 → ctl.extractLsb' 20 44 = 0 → ownSlot s w.d.toNat = true →
    m.mode = .affine → PortHolds s w.a.toNat (n * 8 / per) vs →
    ∃ t m', exec (.mgain w) s = .next t ∧ Issued s t false (completed (popped s.cx w.a.toNat (n * 8 / per)) s) ∧ TablesSame s t
      ∧ MemSame s t ∧ SlotBecomes s t w.d.toNat m' ∧ m' = { m with elems := m'.elems, guf := m'.guf }
      ∧ (∀ j i, i < 8 → m'.elem (8 * j + i) = if row0 ≤ j ∧ j < row0 + n then
          { m.elem (8 * j + i) with
            g := (gainStored (gain (8 * (j - row0) + i))).1
            nan := (m.elem (8 * j + i)).nan || (gainStored (gain (8 * (j - row0) + i))).2.1 }
          else m.elem (8 * j + i)))
  ∧ (∀ (w : FR) (s : State), s.Ok → wf (.mcarry w) = true → w.d.toNat < slotCount s.cx.id.prof →
    MReady s w.g (s.cx.id.prof == .p) [.sreg w.a, .sreg w.b] →
    let ctl := readOp s 3 (some w.b)
    let at' := readOp s 0 (some w.a)
    let p := s.cx.id.prof
    let per := if p = .p then 1 else 8
    let wins := if p = .p then [1, 2] else [1, 4]
    let first := (ctl.extractLsb' 0 10).toNat
    let n := (ctl.extractLsb' 16 10).toNat
    let m := slotAt s s.cx.id w.d.toNat
    1 ≤ n → first + n ≤ (if p = .p then 256 else 512) → ctl.extractLsb' 10 6 = 0 → ctl.extractLsb' 26 38 = 0 →
    ownSlot s w.d.toNat = true →
    (w.f.getLsbD 0 = false → ∀ v, ReadsRange s wins at' (8 * n * per) 8 v →
      ∃ t m', exec (.mcarry w) s = .next t ∧ Issued s t (p == .p) (completed s.cx s) ∧ TablesSame s t ∧ MemSame s t
        ∧ SlotBecomes s t w.d.toNat m' ∧ m' = { m with carry := m'.carry, guf := m'.guf }
        ∧ ∀ k, m'.carryAt k = if per * first ≤ k ∧ k < per * (first + n) then
            let x := v / 2 ^ (64 * (k - per * first)) % 2 ^ 64
            let b : W32 := BitVec.ofNat 32 (x / 2 ^ 32)
            ((gainStored (BitVec.ofNat 32 x)).1, if (unpack f32 b.toNat).isNaN then 0x7FC00000 else b)
          else m.carryAt k)
    ∧ (w.f.getLsbD 0 = true → ∀ ks, at'.toNat / 2 ^ 60 ∈ wins → at'.toNat % 8 = 0 →
      resolve s s.cx .wr true false at' (8 * n * per) 1 = .ok ks →
      ∃ t bs, exec (.mcarry w) s = .next t ∧ Issued s t (p == .p) (completed s.cx s) ∧ TablesSame s t ∧ SlotsSame s t
        ∧ Stored s t ks bs ∧ bs.length = 8 * n * per
        ∧ ∀ k < per * n, elemAt bs 4 (2 * k) = (m.carryAt (per * first + k)).1.toNat
          ∧ elemAt bs 4 (2 * k + 1) = (m.carryAt (per * first + k)).2.toNat))
  ∧ (∀ (w : FR) (s : State), wf (.dmstep w) = true → s.cx.id.prof = .d → MReady s w.g false [.sreg w.b] →
    let ctl := readOp s 3 (some w.b)
    let row0 := (ctl.extractLsb' 0 10).toNat
    let n := (ctl.extractLsb' 10 10).toNat
    let m := slotAt s s.cx.id w.d.toNat
    row0 ≤ 511 → 1 ≤ n → row0 + n ≤ 512 → ctl.extractLsb' 28 36 = 0 → ownSlot s w.d.toNat = true → m.mode = .affine →
    ∃ t m', exec (.dmstep w) s = .next t ∧ Issued s t false (completed s.cx s) ∧ TablesSame s t ∧ MemSame s t
      ∧ SlotBecomes s t w.d.toNat m' ∧ m' = { m with elems := m'.elems, carry := m'.carry, guf := m'.guf }
      ∧ ∀ j i, i < 8 → if row0 ≤ j ∧ j < row0 + n ∧ ctl.getLsbD (20 + i) = true then
          ∃ o r u, Formed m (m.elem (8 * j + i)) (j / 128) o
            ∧ Composed ((m.elem (8 * j + i)).g, o) (m.carryAt (8 * j + i)) r u
            ∧ m'.carryAt (8 * j + i) = r
            ∧ m'.elem (8 * j + i) = { m.elem (8 * j + i) with g := r.1, b := r.2, nan := (m.elem (8 * j + i)).nan || decide (r = (0x7FC00000, 0x7FC00000)) }
        else m'.elem (8 * j + i) = m.elem (8 * j + i) ∧ m'.carryAt (8 * j + i) = m.carryAt (8 * j + i))
  ∧ ∀ (m : MSlot) (row0 n step l : Nat), 1 ≤ n → row0 + n ≤ 512 → n ≤ 2 ^ l → (∀ k, n ≤ 2 ^ k → l ≤ k) → step ≤ l + 1 →
    let m' := scanStep m row0 n step
    let n1 := step + 1
    m' = { m with elems := m'.elems, carry := m'.carry, guf := m'.guf, step := n1 }
      ∧ (∀ i c, c < 256 → (i < row0 ∨ row0 + n ≤ i) → m'.elem (256 * i + c) = m.elem (256 * i + c))
      ∧ (step = 0 → m'.guf = m.guf ∧ m'.carry = m.carry ∧ ∀ r c, r < n → c < 256 →
          ∃ o, Formed m (m.elem (256 * (row0 + r) + c)) (c / 128) o
            ∧ m'.elem (256 * (row0 + r) + c) = { m.elem (256 * (row0 + r) + c) with b := o })
      ∧ (1 ≤ step → step ≤ l → m'.carry = m.carry ∧ ∀ r c, r < n → c < 256 →
          if r < 2 ^ (step - 1) then m'.elem (256 * (row0 + r) + c) = m.elem (256 * (row0 + r) + c)
          else ∃ x u, Composed (pairOf (m.elem (256 * (row0 + r) + c))) (pairOf (m.elem (256 * (row0 + r - 2 ^ (step - 1)) + c))) x u
            ∧ m'.elem (256 * (row0 + r) + c) = { m.elem (256 * (row0 + r) + c) with g := x.1, b := x.2, nan := (m.elem (256 * (row0 + r) + c)).nan || decide (x = (0x7FC00000, 0x7FC00000)) })
      ∧ (step = l + 1 → (∀ c < 256, m'.carryAt c = pairOf (m'.elem (256 * (row0 + n - 1) + c))) ∧ ∀ r c, r < n → c < 256 →
          ∃ x u, Composed (pairOf (m.elem (256 * (row0 + r) + c))) (m.carryAt c) x u
            ∧ m'.elem (256 * (row0 + r) + c) = { m.elem (256 * (row0 + r) + c) with g := x.1, b := x.2, nan := (m.elem (256 * (row0 + r) + c)).nan || decide (x = (0x7FC00000, 0x7FC00000)) })

/-- R250, R254, R258, R267, R281, R282: an mmacro with a legal descriptor, and an mscan, begin and stay in flight; a group of an
mmacro counts one lease command, loads both buffers, streams its two passes and moves MACDONE, and the last one completes it; a
step of an mscan counts one lease command and the last one completes it with STEP 0; mstat reads its item 4 cycles later. -/
def Obligations.LongCommandsAndStatus : Prop :=
  open Sys2Proof Sys2Proof.Machine Sys2Proof.Claims in
  (∀ (w : FR) (s : State) (v : Nat) (d : MacDesc), wf (.mmacro w) = true → s.cx.id.prof = .p → MReady s w.g true [.sreg w.a] →
    ReadsRange s [2] (readOp s 0 (some w.a)) 64 64 v → parseMac v = some d → ownSlot s w.d.toNat = true →
    (slotAt s s.cx.id w.d.toNat).mode = .plain →
    ∃ t, exec (.mmacro w) s = .next t ∧ SlotsSame s t ∧ MemSame s t ∧ TablesSame s t
      ∧ Issued s t false { s.cx with mfly := [⟨s.cur, readOp s 0 (some w.a), 0, [], [], .gemm d d.g0⟩] })
  ∧ (∀ (w : FR) (s : State), wf (.mscan w) = true → s.cx.id.prof = .p → MReady s w.g true [.sreg w.b] →
    RowsLegal (readOp s 3 (some w.b)) → (readOp s 3 (some w.b)).extractLsb' 32 32 = 0 → ownSlot s w.d.toNat = true →
    (slotAt s s.cx.id w.d.toNat).mode = .affine →
    ∃ t, exec (.mscan w) s = .next t ∧ SlotsSame s t ∧ MemSame s t ∧ TablesSame s t
      ∧ Issued s t false { s.cx with mfly := [⟨s.cur, 0, readOp s 3 (some w.b), [], [], .scan⟩] })
  ∧ (∀ (s : State) (h : MCmd) (r : List MCmd) (d : MacDesc) (g : Nat) (m1 m2 : MSlot) (b1 b2 : WBuf) (k1 k2 : List Nat),
    s.cx.mfly = h :: r → h.prog = .gemm d g → s.cx.due = none → s.cx.caps = none →
    let n := (h.e.word.extractLsb' 18 6).toNat
    let s1 : State := { countCmd { s with cur := h.e, cx := { s.cx with mfly := r } } s.cx.id with fresh := s.fresh }
    n < 2 → leaseReady s s.cx.id = true →
    macPass s1 d n g 0 (slotAt s s.cx.id n) = .ok (m1, b1, none, k1) → macPass s1 d n g 1 m1 = .ok (m2, b2, none, k2) →
    ∃ t, exec .mmacroGroup s = .next t ∧ MemSame s t
      ∧ SlotBecomes s t n { m2 with macdone := g + 1 }
      ∧ (t.great s.cx.id.cluster).bufs[0]? = some b1 ∧ (t.great s.cx.id.cluster).bufs[1]? = some b2
      ∧ (t.great s.cx.id.cluster).recs = (s.great s.cx.id.cluster).recs
      ∧ (t.great s.cx.id.cluster).lease = (s.great s.cx.id.cluster).lease.map (fun l =>
          { l with cmds := l.cmds + 1, idle := s.cycle })
      ∧ (g + 1 < d.ng → t.cx = { s.cx with mfly := { h with prog := .gemm d (g + 1) } :: r })
      ∧ (d.ng ≤ g + 1 → t.cx = { s.cx with mfly := r, decs := s.cx.decs ++ [⟨3, h.e.seq⟩] }))
  ∧ (∀ (s : State) (h : MCmd) (r : List MCmd), s.cx.mfly = h :: r → h.prog = .scan → s.cx.due = none → s.cx.caps = none →
    let n := (h.e.word.extractLsb' 18 6).toNat
    let m := slotAt s s.cx.id n
    let m1 := scanStep m (h.b.extractLsb' 0 10).toNat (h.b.extractLsb' 16 10).toNat m.step
    n < 2 → (h.b.extractLsb' 16 10).toNat ≤ 512 → leaseReady s s.cx.id = true → ∀ l, (h.b.extractLsb' 16 10).toNat ≤ 2 ^ l → (∀ k, (h.b.extractLsb' 16 10).toNat ≤ 2 ^ k → l ≤ k) →
    ∃ t, exec .mscanStep s = .next t ∧ MemSame s t
      ∧ SlotBecomes s t n (if m.step + 1 < l + 2 then m1 else { m1 with step := 0 })
      ∧ (t.great s.cx.id.cluster).lease = (s.great s.cx.id.cluster).lease.map (fun l =>
          { l with cmds := l.cmds + 1, idle := s.cycle })
      ∧ t.cx = if m.step + 1 < l + 2 then s.cx else { s.cx with mfly := r, decs := s.cx.decs ++ [⟨3, h.e.seq⟩] })
  ∧ ∀ (w : FR) (s : State), wf (.mstat w) = true → gateOk w.g s.cur.level = true → s.cx.mfly = [] →
    (s.cur.chk = false ∨ (VDst.scal w.d).breach s = false) →
    let m := slotAt s s.cx.id w.a.toNat
    ∃ t f v, exec (.mstat w) s = .next t ∧ OnlyCx s t { s.cx with inflight := s.cx.inflight ++ [f] }
      ∧ IsResult s f .m 4 (.s w.d.toNat v) 0
      ∧ (w.b = 0 → (v.getLsbD 0 = m.elems.any (·.2.nan)) ∧ (v.getLsbD 1 = m.elems.any (·.2.sat)) ∧ (v.getLsbD 2 = decide (m.guf ≠ 0))
          ∧ (v.getLsbD 3 = decide (m.rmask ≠ 0)) ∧ (v.getLsbD 4 = decide (m.owner = some s.cx.id))
          ∧ (v.getLsbD 5 = decide (m.mode = .split)) ∧ (v.getLsbD 6 = decide (m.mode = .affine)) ∧ (v.getLsbD 7 = m.mask.isSome)
          ∧ v.toNat < 256)
      ∧ (w.b = 5 → v = BitVec.ofNat 64 m.macdone)
      ∧ (1 ≤ w.b.toNat → w.b.toNat ≤ 4 → v = match m.ceOf (w.b.toNat - 1) with
          | some e => BitVec.ofInt 64 e
          | none => 0x8000000000000000)

/-- R248, R251: a command that names a slot of its array that the context does not own changes no slot and no byte of memory; the
illegal-operand condition is recorded for the next boundary with its line and slot, and the command completes and leaves NCM. -/
def Sys2Proof.Claims.UnownedSlotsAreRefused : Prop :=
  open Sys2Proof Sys2Proof.Machine Sys2Proof.Claims in
  ∀ (i : Instr) (w : FR) (s : State), wf i = true →
    (i = .mdrain w ∧ s.cx.id.prof = .p ∧ MReady s w.g true [.sreg w.a, .sreg w.b]
      ∨ i = .mmode w ∧ s.cx.id.prof ≠ .b ∧ MReady s w.g (s.cx.id.prof == .p) []
      ∨ i = .mmask w ∧ s.cx.id.prof ≠ .b ∧ MReady s w.g (s.cx.id.prof == .p) [.sreg w.a]
      ∨ i = .mcarry w ∧ s.cx.id.prof ≠ .b ∧ MReady s w.g (s.cx.id.prof == .p) [.sreg w.a, .sreg w.b]
      ∨ i = .mscan w ∧ s.cx.id.prof = .p ∧ MReady s w.g true [.sreg w.b]
      ∨ i = .mgain w ∧ s.cx.id.prof = .p ∧ MReady s w.g true [.sreg w.a, .sreg w.b]
      ∨ i = .dmdrain w ∧ s.cx.id.prof = .d ∧ MReady s w.g false [.sreg w.a, .sreg w.b]
      ∨ i = .dmstep w ∧ s.cx.id.prof = .d ∧ MReady s w.g false [.sreg w.b]) →
    ownSlot s w.d.toNat = false → s.cx.due = none → s.cx.pend = none →
    ∃ t, exec i s = .next t ∧ SlotsSame s t ∧ MemSame s t ∧ TablesSame s t
      ∧ t.cx = { s.cx with pend := some ⟨0x03, s.cur.line, s.cur.slot, 0, 0, streamCode .m, false⟩,
                           decs := s.cx.decs ++ [⟨3, s.cur.seq⟩] }

/-- R248, R251, R253, R256, R259, R262 to R265, R268, R273, R278: the commands that load tables and claim, clear and release
slots complete, and one that names a slot not owned does nothing to it, each as its part says. -/
def Obligations.ArrayStateCommands : Prop :=
  Sys2Proof.Claims.ArrayTablesLoad
    ∧ Sys2Proof.Claims.SlotsAreClaimedAndReleased
    ∧ Sys2Proof.Claims.UnownedSlotsAreRefused

/-! ## Transfers -/

namespace Sys2Proof.Claims

open Sys2Proof.Machine

/-- An X instruction issues: its gate is open and checking mode sees no breach (R127, R336). -/
def XReady (s : State) (g : BitVec 2) (regs : List (BitVec 6)) : Prop :=
  gateOk g s.cur.level = true ∧ (s.cur.chk = false ∨ ∀ r ∈ regs, breachS s.cx s.cycle r.toNat = false)
/-- The context after an X instruction that has completed (R326, R336). -/
def xDone (s : State) : Ctx := { s.cx with decs := s.cx.decs ++ [⟨2, s.cur.seq⟩] }
/-- A transfer has completed: it leaves NCX, and nothing but memory, with what reads and writes count, has changed. -/
structure Moved (s t : State) : Prop where
  cx : t.cx = xDone s
  rest : t = { s with cx := xDone s, fresh := t.fresh, mem := t.mem, red := t.red, bad := t.bad, soft := t.soft, wc := t.wc,
                      regions := t.regions, vaults := t.vaults }

/-- The values of the register fields at issue. -/
def xargs (s : State) (w : FR) : XArgs :=
  ⟨readS s 0 w.d.toNat, readS s 3 w.a.toNat, readS s 6 w.b.toNat, readS s 9 w.f.toNat⟩

/-- The keys of n units of z bytes from an address (R286, R337, R342). -/
def UnitKeys (s : State) (kind : AccessKind) (a : W64) (z : Nat) : Nat → List Nat → Prop
  | 0, ks => ks = []
  | n + 1, ks => ∃ k1 k2, UnitKeys s kind a z n k1
      ∧ resolve s (xctx s) kind (kind != .rd) false (a + BitVec.ofNat 64 (z * n)) z 1 = .ok k2 ∧ ks = k1 ++ k2

/-- The keys of words, each of 4 bytes at its own address. -/
def WordKeys (s : State) (kind : AccessKind) (as : List W64) (ks : List (List Nat)) : Prop :=
  List.Forall₂ (fun a k => resolve s (xctx s) kind (kind != .rd) false a 4 1 = .ok k) as ks

/-- Addresses that a transfer may start from (R338): in a window, aligned to k, each with n bytes before the end of its window. -/
def StartsOk (s : State) (as : List W64) (k n : Nat) : Prop :=
  (∀ a ∈ as, a.toNat % k = 0 ∧ ∃ p, placeOf s (xctx s) a = .ok p) ∧ pastEnd s (xctx s) (as.map fun a => (a, n)) = none

/-- The rows of a copy with legal control values: sources and destinations, and the bytes of each (R339, R340). `idx` is the index
list of a gather or scatter. -/
def copyRowsOf (i : Instr) (x : XArgs) (idx : List Nat) : Option (List (W64 × W64) × Nat) :=
  match i with
  | .xcopy _ => if x.b.toNat < 2 ^ 32 then some ([(x.a, x.d)], x.b.toNat) else none
  | .xcopy2d _ =>
    let rows := (x.b.extractLsb' 20 16).toNat
    if x.b.extractLsb' 36 28 = 0 ∧ x.c.extractLsb' 0 2 = 0 ∧ x.c.extractLsb' 32 2 = 0 then
      some ((List.range rows).map fun k => (x.a + BitVec.ofInt 64 (k * (x.c.extractLsb' 0 32).toInt),
        x.d + BitVec.ofInt 64 (k * (x.c.extractLsb' 32 32).toInt)), (x.b.extractLsb' 0 20).toNat)
    else none
  | .xgath _ =>
    let z := (x.c.extractLsb' 0 20).toNat
    if x.c.extractLsb' 36 28 = 0 ∧ idx.length = (x.c.extractLsb' 20 16).toNat then
      some (idx.zipIdx.map fun p => (x.a + BitVec.ofNat 64 (p.1 * z), x.d + BitVec.ofNat 64 (p.2 * z)), z)
    else none
  | .xscat _ =>
    let z := (x.c.extractLsb' 0 20).toNat
    if x.c.extractLsb' 36 28 = 0 ∧ idx.length = (x.c.extractLsb' 20 16).toNat then
      some (idx.zipIdx.map fun p => (x.a + BitVec.ofNat 64 (p.2 * z), x.d + BitVec.ofNat 64 (p.1 * z)), z)
    else none
  | _ => none

/-- The fields of a copy, and the registers that it reads. -/
def copyFields (i : Instr) : Option (FR × List (BitVec 6)) :=
  match i with
  | .xcopy w => some (w, [w.d, w.a, w.b])
  | .xcopy2d w | .xgath w | .xscat w => some (w, [w.d, w.a, w.b, w.f])
  | _ => none

/-- The indices of a gather or scatter: 4-byte words at its list (R340). -/
def IndexWords (i : Instr) (s : State) (x : XArgs) (idx : List Nat) : Prop :=
  match i with
  | .xgath _ | .xscat _ => StartsOk s [x.b] 4 (4 * idx.length)
      ∧ ∃ kss, WordKeys s .rd ((List.range idx.length).map fun k => x.b + BitVec.ofNat 64 (4 * k)) kss ∧ idx = kss.map (homeNat s)
  | _ => idx = []

/-- The pieces of all rows (R337, R200). -/
def RowPieces (s : State) (n : Nat) : List (W64 × W64) → List Piece → Prop
  | [], ps => ps = []
  | (a, d) :: r, ps => ∃ p q, copyPieces s (xctx s) (xctx s) a d n = .ok p ∧ RowPieces s n r q ∧ ps = p ++ q

/-- The scale cell of the row of a scratch key (R199). -/
def scaleCell (k : Nat) : Nat := cellKey ((k - 2 ^ 50) / 2 ^ 25) ((k - 2 ^ 50) % 2 ^ 25 / 128)
/-- What a piece whose ends pass their checks writes, by key: the bytes of its destination, and the scale cell of its row where
R200 gives it one. -/
def cellsOf (s : State) (p : Piece) : List Host.Cell :=
  (keysOr p.dk).zip (pieceBytes s p).1 ++
    (match keysOr p.dk, (pieceBytes s p).2 with
      | k :: _, some sc => (keysFrom (scaleCell k) 4).zip (leBytes 4 sc.toNat)
      | _, _ => [])
/-- The cells of all pieces, with the free values that the instruction takes. -/
def allCells (s : State) (ps : List Piece) : List Host.Cell := ps.flatMap (cellsOf { s with fresh := s.fresh + 1 })
/-- Every end passes its checks, no byte is written twice, none that is read is written (R337, R338), and no store that left before for a
die that it writes to is still on the fabric (R322). -/
def CleanPieces (s : State) (ps : List Piece) : Prop :=
  (∀ p ∈ ps, (∃ dk, p.dk = .ok dk) ∧ ∀ x ∈ p.src, ∃ k, x.k = .ok k)
    ∧ (ps.flatMap fun p => keysOr p.dk).Nodup ∧ ((allCells s ps).map (·.1)).Nodup
    ∧ (∀ p ∈ ps, ∀ q ∈ ps, ∀ k ∈ p.srcKeys, k ∉ keysOr q.dk) ∧ (∀ p ∈ ps, ∀ k ∈ p.srcKeys, k ∉ (allCells s ps).map (·.1))
    ∧ fabricClear s (ps.flatMap fun p => keysOr p.dk) = true

/-- The read-back value of a register (R344). -/
def readBack (r : RedReg) (v : W32) : Prop :=
  if r.nan = true ∨ (r.pinf = true ∧ r.ninf = true) then v = 0x7FC00000
  else if r.pinf then v = 0x7F800000
  else if r.ninf then v = 0xFF800000
  else ∃ x, isFin x = true ∧ ratOf x = (r.r.toInt : Rat) * 2 ^ (-149 : Int) ∧ (r.r = 0 → x.neg = false)
    ∧ v = BitVec.ofNat 32 (roundFmt f32 0 false x false).1

/-- The exact sum of a group's finite elements rounded once, with the first rows of R344 (R377). -/
def GroupSum (vs : List FVal) (v : W32) : Prop :=
  let p := FVal.inf false ∈ vs
  let n := FVal.inf true ∈ vs
  if (∃ x ∈ vs, x.isNaN = true) ∨ (p ∧ n) then v = 0x7FC00000
  else if p then v = 0x7F800000
  else if n then v = 0xFF800000
  else ∃ x, isFin x = true ∧ ratOf x = (vs.map ratOf).sum ∧ (ratOf x = 0 → x.neg = false)
    ∧ v = BitVec.ofNat 32 (roundFmt f32 0 false x false).1
/-- The greatest magnitude of a group's finite elements, +0 when there is none (R378). -/
def GroupAmax (vs : List FVal) (v : W32) : Prop :=
  ∃ x, isFin x = true ∧ x.neg = false ∧ v = BitVec.ofNat 32 (roundFmt f32 0 false x false).1
    ∧ (∀ y ∈ vs, isFin y = true → |ratOf y| ≤ ratOf x) ∧ (ratOf x = 0 ∨ ∃ y ∈ vs, isFin y = true ∧ |ratOf y| = ratOf x)

/-- The keys of groups, each of n bytes at its own address. -/
def GroupKeys (s : State) (as : List W64) (n : Nat) (ks : List (List Nat)) : Prop :=
  List.Forall₂ (fun a k => resolve s (xctx s) .rd false false a n 1 = .ok k) as ks

/-- Byte d of slot k of a destination copy (R353). -/
def slotByte (bs : List Byte) (kv hdim k d : Nat) : Byte :=
  bs.getD (if kv = 0 then 64 + 16 * d + k else 64 + hdim * k + d) 0
/-- A block that passes the checks of R380 with its bytes and its header. -/
def BlockAt (s : State) (a b : W64) (hdim : Nat) (ks : List Nat) (h : KvHdr) : Prop :=
  hdim = (b.extractLsb' 0 10).toNat ∧ 16 ≤ hdim ∧ hdim ≤ 512 ∧ hdim % 16 = 0 ∧ b.extractLsb' 10 6 = 0 ∧ b.extractLsb' 32 32 = 0
    ∧ a.toNat / 2 ^ 60 = 4 ∧ resolve s (xctx s) .wr true false a (64 + 16 * hdim) 64 = .ok ks ∧ ks.Nodup
    ∧ (∀ k ∈ ks, k / 64 ∉ s.bad ∧ k / 64 ∉ s.sealed ∧ k < 2 ^ 50)
    ∧ kvHdr (fun _ n => .ok (homeNat s (ks.take n))) 0 = .ok h ∧ h.owner = s.dieAddr s.cx.id.die
    ∧ h.gen = (b.extractLsb' 16 16).toNat ∧ (h.state = 5 ∨ h.state = 4)

/-- The maximum of two FP32 patterns for xredmax (R348): maxu of the magnitude, or fmax. -/
def RedMax (mode : Bool) (old x : Nat) (r : Nat) : Prop :=
  if mode then ∃ m, IsMinOrMax false (unpack f32 old) (unpack f32 x) m ∧ r = (roundFmt f32 0 false m false).1
  else r = max old (if (unpack f32 (x % 2 ^ 32)).isNaN then 0x7FC00000 else x % 2 ^ 31)

end Sys2Proof.Claims

/-- R337 to R341: a copy, a strided copy, a gather, a scatter or a multicast with legal control values, whose rows pass every
check and do not overlap, completes: every piece's destination holds what the piece gives, with the scale cells of R200; a piece
without conversion moves its bytes unchanged, and a float element is converted with one rounding to nearest, one of an e4m3+scale bank
with the scale of its row; every other byte reads as before. With no row, or rows of no bytes, nothing moves. -/
def Sys2Proof.Claims.CopiesMoveTheirPieces : Prop :=
  open Sys2Proof Sys2Proof.Machine Sys2Proof.Claims in
  (∀ (i : Instr) (w : FR) (regs : List (BitVec 6)) (s : State) (rows : List (W64 × W64)) (n : Nat) (idx : List Nat) (ps : List Piece),
    s.Ok → wf i = true → copyFields i = some (w, regs) → XReady s w.g regs → copyRowsOf i (xargs s w) idx = some (rows, n) →
    rows ≠ [] → n ≠ 0 → IndexWords i s (xargs s w) idx →
    StartsOk s (rows.flatMap fun r => [r.1, r.2]) 4 0 → n % 4 = 0 → pastEnd s (xctx s) (rows.map fun r => (r.1, n)) = none →
    RowPieces s n rows ps → CleanPieces s ps →
    ∃ t, exec i s = .next t ∧ Moved s t
      ∧ Stored s t ((allCells s ps).map (·.1)) ((allCells s ps).map (·.2)))
  ∧ (∀ (i : Instr) (w : FR) (regs : List (BitVec 6)) (s : State) (rows : List (W64 × W64)) (n : Nat) (idx : List Nat),
    wf i = true → copyFields i = some (w, regs) → XReady s w.g regs → copyRowsOf i (xargs s w) idx = some (rows, n) →
    (rows = [] ∨ n = 0) → (idx = [] ∨ IndexWords i s (xargs s w) idx) →
    ∃ t, exec i s = .next t ∧ Moved s t ∧ ∀ k, homeByte t k = homeByte s k)
  ∧ (∀ (w : FR) (s : State) (ps : List Piece), s.Ok → wf (.xmcast w) = true → XReady s w.g [w.d, w.a, w.b, w.f] →
    let x := xargs s w
    let n := x.b.toNat
    x.c.extractLsb' 16 48 = 0 → (s.cx.id.prof = .p → x.c.extractLsb' 8 8 = 0) → x.d.toNat / 2 ^ 60 = 1 → x.c ≠ 0 → n ≠ 0 →
    StartsOk s [x.a, x.d] 4 0 → n % 4 = 0 → pastEnd s (xctx s) [(x.a, n)] = none →
    castPieces s x.a x.d n ((List.range 16).filter fun t => x.c.getLsbD t) = .ok (ps, false) → CleanPieces s ps →
    ∃ t, exec (.xmcast w) s = .next t ∧ Moved s t
      ∧ Stored s t ((allCells s ps).map (·.1)) ((allCells s ps).map (·.2)))
  ∧ (∀ (s : State) (p : Piece) (kss : List (List Nat)),
    List.Forall₂ (fun x ks => x.k = .ok ks ∧ (x.f = (if p.row then 4 else p.df) ∨ x.f = 0 ∨ (p.row = false ∧ p.df = 0))) p.src kss →
    (pieceBytes s p).1 = kss.flatMap (homeBytes s))
  ∧ ∀ (s : State) (p : Piece) (x : Src) (ks : List Nat), p.row = false → p.src = [x] → x.k = .ok ks → ks ≠ [] →
    (x.f = 1 ∨ x.f = 2 ∨ x.f = 3 ∨ x.f = 4) → (p.df = 1 ∨ p.df = 2 ∨ p.df = 3) → x.f ≠ p.df →
    let raw : Nat := leNat (homeBytes s ks)
    let fm := if p.df = 1 then f32 else if p.df = 2 then bf16 else f16
    ∃ v fl, (if x.f = 4 then IsProduct (unpack e4m3 raw) (unpack f32 (homeAt s (scaleCell (ks.headD 0)) 4)) v fl
        else v = unpack (if x.f = 1 then f32 else if x.f = 2 then bf16 else f16) raw)
      ∧ leNat (pieceBytes s p).1 = (roundFmt fm 0 false v false).1

/-- R342, R343: xfill writes its pattern to every word of its range and xwipe zeros, with the scale cells of whole scratch rows at
1.0; xsend writes its value as one message; xsig, once every earlier access of its context is performed, sets, adds to or ORs the
8-byte word. Every other byte reads as before. -/
def Sys2Proof.Claims.FillsAndSignalsWrite : Prop :=
  open Sys2Proof Sys2Proof.Machine Sys2Proof.Claims in
  (∀ (w : FR) (s : State) (ks : List Nat), s.Ok → wf (.xfill w) = true → XReady s w.g [w.d, w.a, w.b] →
    let x := xargs s w
    let n := x.b.toNat
    n ≠ 0 → n % 4 = 0 → StartsOk s [x.d] 4 n → UnitKeys s .wr x.d 4 (n / 4) ks → fabricClear s ks = true →
    ∃ t bs, exec (.xfill w) s = .next t ∧ Moved s t ∧ Stored s t ks bs ∧ bs.length = ks.length
      ∧ ∀ j < ks.length, bs[j]? = some (x.a.extractLsb' (8 * (j % 4)) 8))
  ∧ (∀ (w : FR) (s : State) (ks : List Nat), s.Ok → wf (.xwipe w) = true → XReady s w.g [w.d, w.b] →
    let x := xargs s w
    let n := x.b.toNat
    n ≠ 0 → n % 64 = 0 → StartsOk s [x.d] 64 n → UnitKeys s .wr x.d 64 (n / 64) ks → ks.Nodup → fabricClear s ks = true →
    (∀ k ∈ ks, k / 64 ∉ s.bad ∧ k / 64 ∉ s.sealed ∧ (k < 2 ^ 50 ∨ redFind s.red (k / 4) = none ∧ (k - 2 ^ 50) % 2 ^ 25 < 2 ^ 24)) →
    ∃ t, exec (.xwipe w) s = .next t ∧ Moved s t ∧ (∀ k ∈ ks, homeByte t k = 0)
      ∧ (∀ j ∈ ks, 2 ^ 50 ≤ j → j % 128 = 0 → (∀ i < 128, j + i ∈ ks) →
          (∀ i < 4, (scaleCell j + i) / 64 ∉ s.bad ∧ (scaleCell j + i) / 64 ∉ s.sealed ∧ redFind s.red ((scaleCell j + i) / 4) = none) →
          homeAt t (scaleCell j) 4 = 0x3F800000)
      ∧ ∀ k ∉ ks, (∀ j ∈ ks, 2 ^ 50 ≤ j → ¬ (scaleCell j ≤ k ∧ k < scaleCell j + 4)) → SameByte s t k)
  ∧ (∀ (w : FR) (s : State), (wf (.xfill w) = true → XReady s w.g [w.d, w.a, w.b] → (xargs s w).b = 0 →
      ∃ t, exec (.xfill w) s = .next t ∧ Moved s t ∧ ∀ k, homeByte t k = homeByte s k)
    ∧ (wf (.xwipe w) = true → XReady s w.g [w.d, w.b] → (xargs s w).b = 0 →
      ∃ t, exec (.xwipe w) s = .next t ∧ Moved s t ∧ ∀ k, homeByte t k = homeByte s k))
  ∧ (∀ (w : FR) (s : State) (ks : List Nat), s.Ok → wf (.xsend w) = true → XReady s w.g [w.d, w.a] →
    let x := xargs s w
    let n := if w.f.getLsbD 0 then 8 else 4
    resolve s (xctx s) .wr true false x.d n n = .ok ks → fabricClear s ks = true →
    ∃ t, exec (.xsend w) s = .next t ∧ Moved s t ∧ Stored s t ks ((List.range n).map fun j => x.a.extractLsb' (8 * j) 8))
  ∧ ∀ (w : FR) (s : State) (ks : List Nat), s.Ok → wf (.xsig w) = true → XReady s w.g [w.d, w.a] →
    let x := xargs s w
    let op := w.f.toNat % 4
    resolve s (xctx s) (if op = 0 then .wr else .rw) true false x.d 8 8 = .ok ks → fabricClear s ks = true →
    pendingClasses s (awayDie s ks).isSome s.cur.seq = 0 →
    let old : W64 := BitVec.ofNat 64 (homeNat s ks)
    let new : W64 := if op = 0 then x.a else if op = 1 then old + x.a else old ||| x.a
    ∃ t, exec (.xsig w) s = .next t ∧ Moved s t ∧ Stored s t ks ((List.range 8).map fun j => new.extractLsb' (8 * j) 8)

/-- R200, R337 to R343: copies, fills, wipes, messages and signals complete, each as its part says. -/
def Obligations.BytesMoveAndSignal : Prop :=
  Sys2Proof.Claims.CopiesMoveTheirPieces
    ∧ Sys2Proof.Claims.FillsAndSignalsWrite

/-- R344 to R348: an xred with legal operands whose units pass their checks gives the reduction unit its additions and closes, in
order, and writes nothing itself; the unit takes an addition into the open register of its word, exactly, or opens the line with
its memory values first; after the last addition the words it closes are closed with their read-back values, which changes no
byte that a read finds, and the xred completes. A register wraps modulo 2^288 and reads back by the table of R344. xredmax writes
the maximum to each word. -/
def Obligations.ReductionsAddExactly : Prop :=
  open Sys2Proof Sys2Proof.Machine Sys2Proof.Claims in
  (∀ (w : FR) (s : State) (dss sss : List (List Nat)), wf (.xred w) = true →
    let add := !w.f.getLsbD 2
    let z := if w.f.getLsbD 1 then 2 else 4
    XReady s w.g ([w.d, w.b] ++ if add then [w.a] else []) →
    let x := xargs s w
    let n := x.b.toNat
    let win := x.d.toNat / 2 ^ 60
    let da (e : Nat) : W64 := x.d + BitVec.ofNat 64 (4 * e)
    n ≠ 0 → (win = 0 ∨ s.cx.id.prof = .d ∧ (win = 4 ∨ win = 5) ∨ s.cx.id.prof = .b ∧ win = 4) →
    StartsOk s [x.d] 4 (4 * n) → WordKeys s .rw ((List.range n).map da) dss → (∀ ks ∈ dss, ks ≠ []) →
    (add = false → sss = []) →
    (add = true → StartsOk s [x.a] 4 (z * n)
      ∧ List.Forall₂ (fun a k => resolve s (xctx s) .rd false false a z 1 = .ok k)
        ((List.range n).map fun e => x.a + BitVec.ofNat 64 (z * e)) sss ∧ ∀ ks ∈ sss, ks ≠ []) →
    ∃ t, exec (.xred w) s = .next t ∧ (∀ k, homeByte t k = homeByte s k) ∧ t.cx = s.cx
      ∧ t.redWait = s.redWait ++ [⟨s.cx.id, s.cur.seq, s.cur.line, s.cur.slot, s.cx.it.rid, s.cx.it.asid, s.cx.it.gen,
          (dss.zip sss).zipIdx.map fun p => (p.1.1.headD 0 / 4,
            BitVec.ofNat 32 (if z = 2 then homeNat s p.1.2 * 65536 else homeNat s p.1.2), da p.2),
          if w.f.getLsbD 0 then dss.map fun ks => ks.headD 0 / 4 else []⟩]
      ∧ t = { s with redWait := t.redWait, fresh := t.fresh, regions := t.regions, vaults := t.vaults, soft := t.soft })
  ∧ (∀ (s : State) (w : RedWait) (word : Nat) (v : W32) (a : W64) (r : List (Nat × W32 × W64)),
    s.redWait[s.sub.b]? = some w → w.adds = (word, v, a) :: r → redDie w = s.sub.a →
    ctlGen s w.asid (ctlOf s (4 * word)) = w.gen → fabricClear s [4 * word] = true → word / 16 ∉ s.sealed →
    (∀ l ∈ s.red, ∀ g ∈ l.regs, g.word = word → l.line = word / 16) → (∀ l ∈ s.red, l.line = word / 16 → l.rid = w.rid) →
    (∀ l1 l2 : RedLine, l1 ∈ s.red → l2 ∈ s.red → l1.line = l2.line → l1 = l2) →
    (∀ l ∈ s.red, ∀ g h : RedReg, g ∈ l.regs → h ∈ l.regs → g.word = h.word → g = h) →
    (∀ g, redFind s.red word = some g → ∃ t, exec .reductionAddition s = .next t ∧ redFind t.red word = some (g.add v)
      ∧ t.redWait = s.redWait.set s.sub.b { w with adds := r } ∧ t.cx = s.cx)
    ∧ ((∀ l ∈ s.red, l.line ≠ word / 16) → openLines s (64 * (word / 16) / 2 ^ 39 % 8) < 4096 →
      ∃ t, exec .reductionAddition s = .next t ∧ t.redWait = s.redWait.set s.sub.b { w with adds := r } ∧ t.cx = s.cx
        ∧ redFind t.red word = some (((RedReg.mk word 0 false false false).add (BitVec.ofNat 32 (homeAt s (4 * word) 4))).add v)))
  ∧ (∀ (s : State) (w : RedWait), s.Ok → s.redWait[s.sub.b]? = some w → w.adds = [] →
    ∃ t, exec .reductionAddition s = .next t ∧ (∀ k, SameByte s t k) ∧ (∀ k ∈ w.close, redFind t.red k = none)
      ∧ t.redWait = s.redWait.eraseIdx s.sub.b
      ∧ ∀ c ∈ t.ctxs, c.has = true → c.id = w.ctx → ∃ d ∈ s.ctxs, c = { d with decs := d.decs ++ [⟨2, w.seq⟩] })
  ∧ (∀ (r : RedReg) (v : W32),
    readBack r r.back
      ∧ (r.add v).word = r.word
      ∧ (isFin (unpack f32 v.toNat) = true → ∀ n : Int, (n : Rat) * 2 ^ (-149 : Int) = ratOf (unpack f32 v.toNat) →
          r.add v = { r with r := r.r + BitVec.ofInt 288 n })
      ∧ ((unpack f32 v.toNat).isNaN = true → r.add v = { r with nan := true })
      ∧ (unpack f32 v.toNat = .inf false → r.add v = { r with pinf := true })
      ∧ (unpack f32 v.toNat = .inf true → r.add v = { r with ninf := true }))
  ∧ ∀ (w : FR) (s : State) (dss sss : List (List Nat)), s.Ok → wf (.xredmax w) = true → XReady s w.g [w.d, w.a, w.b] →
    let x := xargs s w
    let n := x.b.toNat
    n ≠ 0 → StartsOk s [x.d, x.a] 4 (4 * n) → WordKeys s .rw ((List.range n).map fun e => x.d + BitVec.ofNat 64 (4 * e)) dss →
    WordKeys s .rd ((List.range n).map fun e => x.a + BitVec.ofNat 64 (4 * e)) sss →
    (∀ ks ∈ dss ++ sss, ks ≠ []) → dss.flatten.Nodup → (∀ k ∈ dss.flatten, k ∉ sss.flatten) →
    fabricClear s ((dss.zip sss).flatMap fun p => p.1 ++ p.2) = true →
    ∃ t bs, exec (.xredmax w) s = .next t ∧ Moved s t ∧ Stored s t dss.flatten bs ∧ bs.length = 4 * n
      ∧ ∀ e < n, RedMax (w.f.getLsbD 0) (homeNat s (dss.getD e [])) (homeNat s (sss.getD e [])) (elemAt bs 4 e)

/-! ### Shadows, plans, appends, near memory -/

namespace Sys2Proof.Claims

open Sys2Proof.Machine

/-- The blocks of a snapshot's entries (R352). -/
def totalBlocks (bs : List Nat) : Nat := bs.sum
/-- Entry e's global blocks start after those of the entries before it. -/
def blocksBefore (bs : List Nat) (e : Nat) : Nat := (bs.take e).sum
/-- The spans of the blocks lo to hi - 1 (R352): one for each entry that has some of them, in entry order, with the first block of
the entry and their number. -/
def spansOf (bs : List Nat) (lo hi : Nat) : List (Nat × Nat × Nat) :=
  (List.range bs.length).filterMap fun e =>
    let b := blocksBefore bs e
    let f := max lo b
    let l := min hi (b + bs.getD e 0)
    if f < l then some (e, f - b, l - f) else none
/-- The words of core c's list (R352). -/
def planWords (bs : List Nat) (ncore maxspan c : Nat) : List Nat :=
  let lo := c * totalBlocks bs / ncore
  let hi := (c + 1) * totalBlocks bs / ncore
  let sp := spansOf bs lo hi
  let kept := sp.take maxspan
  (kept.length + (if maxspan < sp.length then 2 ^ 16 else 0) + 2 ^ 32 * (hi - lo)) :: kept.map fun s => s.1 + 2 ^ 16 * s.2.1 + 2 ^ 40 * s.2.2

/-- The rows of the tokens of an append, in order: K then V of each, once the blocks of both are accepted (R351). -/
def Appends (t : KvTab) (w : KvWait) : Nat → State → State → Prop
  | 0, s, u => u = s
  | k + 1, s, u => ∃ b s1 s2, appBlock s t w (w.app.ntok - (k + 1)) 1 = .ok b ∧ appHalf s t w (w.app.ntok - (k + 1)) 0 false = .ok s1
      ∧ appHalf s1 t w (w.app.ntok - (k + 1)) 1 false = .ok s2 ∧ Appends t w k s2 u
/-- The append of a descriptor that an executing xkvapp makes in a stream of generation sgen. -/
def appOf (s : State) (a : KvApp) (btab : W64) (sgen : Nat) : KvWait :=
  ⟨s.cx.id.die, s.cx.it.vi, s.cx.id, s.cur.seq, s.cur.line, s.cur.slot, a, btab, sgen, 0, 0⟩

/-- The bytes of words of 4, in order. -/
def wordBytes (ws : List Nat) : List Byte := ws.flatMap fun w => (List.range 4).map fun j => BitVec.ofNat 8 (w / 2 ^ (8 * j))

/-- An address lies in one of the windows. -/
def inWins (a : W64) (ws : List Nat) : Prop := a.toNat / 2 ^ 60 ∈ ws

end Sys2Proof.Claims

/-- R329, R349 to R352: xshad.open registers a legal buffer with the translations of both images, open and not swapped, or opens a
registered one again; discard closes it, unreg removes it, and xpub, once every earlier access is performed, swaps the images of an
open one and closes it. xplan writes each core's list of spans. xkvapp, when each half of each of its tokens can be appended, ends
with all of them appended in order. -/
def Obligations.ShadowsPlansAndAppends : Prop :=
  open Sys2Proof Sys2Proof.Machine Sys2Proof.Claims in
  (∀ (w : FR) (s : State) (p q : List (Nat × BitVec 3)), wf (.xshadOpen w) = true → XReady s w.g [w.d, w.a, w.b] →
    let x := xargs s w
    let v := x.a.toNat
    let d := x.d.toNat
    let len := x.b.toNat
    (∀ h ∈ s.shadows, h.asid = s.cx.it.asid → h.base ≠ x.a ∧ shadowClash h v len = false ∧ shadowClash h d len = false) →
    v + len ≤ 2 ^ 57 → d + len ≤ 2 ^ 57 → v % 65536 = 0 → d % 65536 = 0 → len % 65536 = 0 → len ≠ 0 → len ≤ 2 ^ 34 →
    (d + len ≤ v ∨ v + len ≤ d) → (s.shadows.filter fun h => h.vi == s.cx.it.vi).length < 64 →
    latchUnits s v (len / 65536) = some p → latchUnits s d (len / 65536) = some q →
    ∃ t, exec (.xshadOpen w) s = .next t ∧ t = { s with cx := xDone s, fresh := t.fresh, shadows :=
      s.shadows ++ [⟨s.cx.it.vi, s.cx.it.asid, s.cx.it.gen, x.a, x.d, len, true, false, p, q⟩] })
  ∧ (∀ (i : Instr) (w : FR) (s : State) (h : Shadow), wf i = true →
    (i = .xshadOpen w ∧ XReady s w.g [w.d, w.a, w.b] ∧ h.second = (xargs s w).d ∧ h.len = (xargs s w).b.toNat
      ∨ i = .xshadDiscard w ∧ XReady s w.g [w.a] ∨ i = .xshadUnreg w ∧ XReady s w.g [w.a]
      ∨ i = .xpub w ∧ XReady s w.g [w.a] ∧ pendingClasses s (awayDie s ((h.pa1 ++ h.pa2).map (·.1))).isSome s.cur.seq = 0) →
    s.shadows.find? (fun h => h.asid == s.cx.it.asid && h.base == (xargs s w).a) = some h →
    ∃ t, exec i s = .next t ∧ t = { s with cx := xDone s, fresh := t.fresh, shadows :=
      match i with
      | .xshadUnreg _ => s.shadows.filter fun h => !(h.asid == s.cx.it.asid && h.base == (xargs s w).a)
      | _ => s.shadows.map fun h =>
        if h.asid = s.cx.it.asid ∧ h.base = (xargs s w).a then
          (match i with
            | .xshadOpen _ => { h with opened := true }
            | .xshadDiscard _ => { h with opened := false }
            | _ => if h.opened then { h with swapped := !h.swapped, opened := false } else h)
        else h })
  ∧ (∀ (w : FR) (s : State) (hd : Nat) (bs : List Nat) (kss : List (List Nat)), s.Ok → wf (.xplan w) = true →
    XReady s w.g [w.d, w.a, w.b] →
    let x := xargs s w
    let ncore := (x.b.extractLsb' 0 16).toNat
    let maxspan := (x.b.extractLsb' 16 16).toNat
    let rstr := 64 * ((8 + 8 * maxspan + 63) / 64)
    let nact := hd / 2 ^ 64 % 2 ^ 16
    let words := (List.range ncore).flatMap fun c => (planWords bs ncore maxspan c).zipIdx.flatMap fun p =>
      [(x.d + BitVec.ofNat 64 (c * rstr + 8 * p.2), p.1 % 2 ^ 32), (x.d + BitVec.ofNat 64 (c * rstr + 8 * p.2 + 4), p.1 / 2 ^ 32)]
    x.b.extractLsb' 32 32 = 0 → 1 ≤ ncore → ncore ≤ 1024 → 1 ≤ maxspan → maxspan ≤ 256 →
    StartsOk s [x.a, x.d] 4 0 → (∃ ks, UnitKeys s .rd x.a 4 16 ks ∧ hd = homeNat s ks) →
    (∃ pss, WordKeys s .rd ((List.range nact).map fun i => x.a + BitVec.ofNat 64 (64 + 32 * i + 16)) pss
      ∧ bs = pss.map fun k => (homeNat s k + 15) / 16) →
    WordKeys s .wr (words.map (·.1)) kss → fabricClear s kss.flatten = true →
    ∃ t, exec (.xplan w) s = .next t ∧ Moved s t ∧ Stored s t kss.flatten (wordBytes (words.map (·.2))))
  ∧ ∀ (w : FR) (s u : State) (v w0 btab : Nat) (a : KvApp) (t : KvTab), wf (.xkvapp w) = true → XReady s w.g [w.a] →
    let x := xargs s w
    (∃ ks, resolve s (xctx s) .rd false false x.a 64 64 = .ok ks ∧ v = homeNat s ks) → x.a.toNat / 2 ^ 60 ≤ 2 → parseApp v = some a →
    let s0 := noteRead { s with fresh := s.fresh + 1 } x.a 64
    let s1 := noteRead (noteRead s0 a.srec 72) (BitVec.ofNat 64 btab) 64
    ctxReader s0 s0.cx 8 a.srec 8 = .ok w0 → ctxReader s0 s0.cx 8 (a.srec + 64) 8 = .ok btab →
    w0 / 2 ^ 32 % 2 ^ 11 = s.dieAddr s.cx.id.die → w0 / 2 ^ 16 % 2 ^ 4 = (if s.cx.id.prof = .p then 1 else 3) →
    streamTab (ctxReader s0 s0.cx 8) a.srec (BitVec.ofNat 64 btab) = .ok t →
    a.layer < t.nlayer → a.kvh < t.nkv → (a.pos0 + a.ntok - 1) / 16 < t.nlb → appChecks s1 a t.hdim = none →
    Appends t (appOf s a (BitVec.ofNat 64 btab) (w0 / 2 ^ 48 % 2 ^ 16)) a.ntok s1 u →
    ∃ t', exec (.xkvapp w) s = .next t' ∧ t' = { u with fresh := t'.fresh, cx := { u.cx with decs := u.cx.decs ++ [⟨2, u.cur.seq⟩] } }

/-- R375 to R385: each near-memory instruction with legal operands whose bytes pass their checks completes with its result: sums and
greatest magnitudes of groups, copies, zeros, compacted and rescaled blocks, checksums, and the status words of a vault. -/
def Obligations.NearMemoryComputes : Prop :=
  open Sys2Proof Sys2Proof.Machine Sys2Proof.Claims in
  (∀ (i : Instr) (w : FR) (s : State) (kss : List (List Nat)) (dk : List Nat), s.Ok → wf i = true → (i = .xnred w ∨ i = .xnamax w) →
    XReady s w.g [w.d, w.a, w.b, w.f] →
    let x := xargs s w
    let n := (x.b.extractLsb' 0 16).toNat
    let ngrp := (x.b.extractLsb' 16 16).toNat
    let ty := (x.b.extractLsb' 32 2).toNat
    let stride := (x.c.extractLsb' 0 32).toNat
    let z := if ty = 0 then 4 else if ty = 1 then 2 else 1
    let grp := (List.range ngrp).map fun g => x.a + BitVec.ofNat 64 (g * stride)
    let vs (g : Nat) : List FVal := (List.range n).map fun e =>
      unpack (if ty = 0 then f32 else if ty = 1 then bf16 else e4m3) (homeNat s (kss.getD g []) / 2 ^ (8 * z * e) % 2 ^ (8 * z))
    x.b.extractLsb' 34 30 = 0 → n ≠ 0 → 1 ≤ ngrp → ngrp ≤ 4096 → (ty ≤ 1 ∨ ty = 2 ∧ i = .xnamax w) → n * ngrp ≤ 2 ^ 20 → stride % 4 = 0 →
    x.c.extractLsb' 32 32 = 0 → inWins x.a [4] → inWins x.d [1, 4] → x.d.toNat % 4 = 0 →
    StartsOk s grp 4 (n * z) → pastEnd s (xctx s) [(x.d, 4 * ngrp)] = none → GroupKeys s grp (n * z) kss →
    resolve s (xctx s) .wr true false x.d (4 * ngrp) 4 = .ok dk → dk.Nodup → (∀ k ∈ dk, k ∉ kss.flatten) →
    (∀ k ∈ kss.flatten, k / 64 ∉ s.bad) →
    ∃ t bs, exec i s = .next t ∧ Moved s t ∧ Stored s t dk bs ∧ bs.length = 4 * ngrp
      ∧ ∀ g < ngrp, (i = .xnred w → GroupSum (vs g) (BitVec.ofNat 32 (elemAt bs 4 g)))
          ∧ (i = .xnamax w → GroupAmax (vs g) (BitVec.ofNat 32 (elemAt bs 4 g))))
  ∧ (∀ (w : FR) (s : State) (sk dk : List Nat), s.Ok → wf (.xnclone w) = true → XReady s w.g [w.d, w.a, w.b] →
    let x := xargs s w
    let n := x.b.toNat
    n % 1024 = 0 → n ≤ 2 ^ 24 → inWins x.a [4] → inWins x.d [4] → x.a.toNat % 1024 = 0 → x.d.toNat % 1024 = 0 →
    (n ≠ 0 → resolve s (xctx s) .rd true false x.a n 1024 = .ok sk ∧ resolve s (xctx s) .wr true false x.d n 1024 = .ok dk) →
    (n = 0 → sk = [] ∧ dk = []) → dk.Nodup → (∀ k ∈ dk, k ∉ sk) → (∀ k ∈ sk, k / 64 ∉ s.bad) →
    ∃ t, exec (.xnclone w) s = .next t ∧ Moved s t ∧ Stored s t dk (homeBytes s sk))
  ∧ (∀ (w : FR) (s : State) (dk : List Nat), s.Ok → wf (.xnwipe w) = true → XReady s w.g [w.d, w.b] →
    let x := xargs s w
    let n := x.b.toNat
    n % 1024 = 0 → n ≤ 2 ^ 24 → inWins x.d [4] → x.d.toNat % 1024 = 0 →
    (n ≠ 0 → resolve s (xctx s) .wr true false x.d n 1024 = .ok dk) → (n = 0 → dk = []) →
    ∃ t, exec (.xnwipe w) s = .next t ∧ Moved s t ∧ Stored s t dk (List.replicate dk.length 0))
  ∧ (∀ (w : FR) (s : State) (sk dk : List Nat), s.Ok → wf (.xncrc w) = true → XReady s w.g [w.d, w.a, w.b] →
    let x := xargs s w
    let n := x.b.toNat
    let chain := w.f.getLsbD 0
    n ≤ 2 ^ 24 → inWins x.a [4] → inWins x.d [1, 4] → x.d.toNat % 4 = 0 →
    (n ≠ 0 → resolve s (xctx s) .rd true false x.a n 1 = .ok sk) → (n = 0 → sk = []) → (∀ k ∈ sk ++ dk, k / 64 ∉ s.bad) →
    resolve s (xctx s) (if chain then .rw else .wr) true false x.d 4 4 = .ok dk →
    ∃ t bs, exec (.xncrc w) s = .next t ∧ Moved s t ∧ Stored s t dk bs
      ∧ (chain = false → bs = leBytes 4 (crc32c 0 (homeBytes s sk)).toNat)
      ∧ (chain = true → n ≠ 0 → bs = leBytes 4 (crc32c (BitVec.ofNat 32 (homeNat s dk)) (homeBytes s sk)).toNat)
      ∧ (chain = true → n = 0 → ∀ k, SameByte s t k))
  ∧ (∀ (w : FR) (s : State) (hdim : Nat) (ks : List Nat) (h : KvHdr), s.Ok → wf (.xncomp w) = true → XReady s w.g [w.d, w.a, w.b] →
    let x := xargs s w
    let keep := x.a.toNat
    let rank (m i : Nat) : Nat := ((List.range i).filter fun j => m.testBit j).length
    x.a.extractLsb' 16 48 = 0 → BlockAt s x.d x.b hdim ks h →
    ∃ t, exec (.xncomp w) s = .next t ∧ Moved s t ∧ (∀ k ∉ ks, SameByte s t k)
      ∧ homeNat t (ks.take 2) = h.bitmap &&& keep ∧ (∀ j, 2 ≤ j → j < 64 → homeByte t (ks.getD j 0) = homeByte s (ks.getD j 0))
      ∧ ∀ i < 16, ∀ d < hdim, (h.bitmap.testBit i = true → keep.testBit i = true →
            slotByte (homeBytes t ks) h.kv hdim (rank (h.bitmap &&& keep) i) d = slotByte (homeBytes s ks) h.kv hdim (rank h.bitmap i) d)
          ∧ (rank (h.bitmap &&& keep) 16 ≤ i → slotByte (homeBytes t ks) h.kv hdim i d = 0))
  ∧ (∀ (w : FR) (s : State) (hdim : Nat) (ks ak : List Nat) (h : KvHdr), s.Ok → wf (.xnscale w) = true → XReady s w.g [w.d, w.a, w.b] →
    let x := xargs s w
    let n := ((List.range 16).filter fun j => h.bitmap.testBit j).length
    let s0 := unpack f32 h.scale.toNat
    let e (k d : Nat) : FVal := unpack e4m3 (slotByte (homeBytes s ks) h.kv hdim k d).toNat
    BlockAt s x.a x.b hdim ks h → isFin s0 = true → 0 < ratOf s0 →
    (w.d = 0 ∧ ak = [] ∨ w.d ≠ 0 ∧ inWins x.d [1, 4] ∧ x.d.toNat % 4 = 0 ∧ resolve s (xctx s) .wr true false x.d 4 4 = .ok ak
      ∧ ∀ k ∈ ak, k ∉ ks) →
    ∃ t a q sticky, exec (.xnscale w) s = .next t ∧ Moved s t ∧ (∀ k ∉ ks ++ ak, SameByte s t k)
      ∧ isFin a = true ∧ a.neg = false ∧ (∀ k < n, ∀ d < hdim, isFin (e k d) = true → |ratOf (e k d) * ratOf s0| ≤ ratOf a)
      ∧ (ratOf a = 0 ∨ ∃ k < n, ∃ d < hdim, isFin (e k d) = true ∧ |ratOf (e k d) * ratOf s0| = ratOf a)
      ∧ IsQuotient a (.fin false 448 0) q sticky 0
      ∧ (let raw := (roundFmt f32 0 false q sticky).1
        let zero : Prop := ratOf a = 0 ∨ raw = 0
        (∀ j, j < 64 → (j < 8 ∨ 12 ≤ j) → homeByte t (ks.getD j 0) = homeByte s (ks.getD j 0))
        ∧ (zero → homeNat t ((ks.drop 8).take 4) = 0x3F800000) ∧ (¬ zero → homeNat t ((ks.drop 8).take 4) = raw)
        ∧ ∀ k < 16, ∀ d < hdim, (n ≤ k ∨ (e k d).isNaN = true →
              slotByte (homeBytes t ks) h.kv hdim k d = slotByte (homeBytes s ks) h.kv hdim k d)
            ∧ (k < n → isFin (e k d) = true → (zero → slotByte (homeBytes t ks) h.kv hdim k d = 0)
              ∧ (¬ zero → ∃ y y' st f, IsProduct (e k d) s0 y f ∧ IsQuotient y (unpack f32 raw) y' st 0
                ∧ (slotByte (homeBytes t ks) h.kv hdim k d).toNat = (satE4M3 0 false y' st).1)))
      ∧ (w.d ≠ 0 → Stored s t (ks ++ ak) (homeBytes t ks ++ leBytes 4 (roundFmt f32 0 false a false).1)))
  ∧ ∀ (w : FR) (s : State) (dk : List Nat) (v pa : Nat), s.Ok → wf (.xnstat w) = true → XReady s w.g [w.d, w.a] →
    let x := xargs s w
    x.a.toNat ≤ 3 → inWins x.d [1] → x.d.toNat % 32 = 0 → resolve s (xctx s) .wr true false x.d 32 32 = .ok dk →
    placeOf s s.cx (BitVec.ofNat 64 (4 * 2 ^ 60 + x.a.toNat * 2 ^ 32)) = .ok (.vault v pa) →
    let b := s.vault v
    let word (k : Nat) : Nat := match k with
      | 0 => b.vtax
      | 1 => b.wakewait
      | 2 => b.wakereplay
      | 3 => b.vecc
      | 4 => b.vfgd
      | 5 => 0
      | 6 => b.sleepMap % 2 ^ 32
      | _ => b.sleepMap / 2 ^ 32
    (∀ k < 8, word k < 2 ^ 32) →
    ∃ t, exec (.xnstat w) s = .next t ∧ Moved s t ∧ Stored s t dk (wordBytes ((List.range 8).map word))

/-! ### The address-generator stream -/

namespace Sys2Proof.Claims

open Sys2Proof.Machine

/-- Field code of a parameter set written (R206, R208): reserved bits of CTL are ignored. -/
def withField (a : AgSet) (code : Nat) (v : W64) : AgSet :=
  match code with
  | 0 => { a with base := v }
  | 1 => { a with ctl := v &&& 0x3F03 }
  | n => { a with lvl := a.lvl.setIfInBounds (n - 2) v }
/-- Field or progress code of a parameter set as aget returns it (R211). -/
def fieldOf (a : AgSet) (code : Nat) : W64 :=
  match code with
  | 0 => a.base
  | 1 => a.ctl
  | 6 => BitVec.ofNat 64 a.done
  | 7 => BitVec.ofNat 64 a.status
  | n => a.lvl.getD (n - 2) 0
/-- The 4-byte words of an access (R206): 0 and values above VLEN/4 mean VLEN/4. -/
def runWords (a : AgSet) (p : Profile) : Nat :=
  let most := if p = .b then 16 else 32
  let n := (a.ctl.extractLsb' 8 6).toNat
  if 1 ≤ n ∧ n ≤ most then n else most
/-- The counts and the byte strides of the levels in use (R206, R207). -/
def runCounts (a : AgSet) : List Nat := (a.lvl.toList.take ((a.ctl.extractLsb' 0 2).toNat + 1)).map fun l => (l.extractLsb' 0 32).toNat
def runStrides (a : AgSet) : List Int := (a.lvl.toList.take ((a.ctl.extractLsb' 0 2).toNat + 1)).map fun l => (l.extractLsb' 32 32).toInt
/-- The address of access k of a run (R207): level j is at k divided by the counts below it, modulo its own. -/
def runAddress (base : W64) (cs : List Nat) (ds : List Int) (k : Nat) : W64 :=
  base + BitVec.ofInt 64 ((List.range cs.length).map fun j =>
    ((k / (cs.take j).prod % cs.getD j 1 : Nat) : Int) * ds.getD j 0).sum

/-- A set of the context. -/
def setOf (c : Ctx) (g : Nat) : AgSet := c.ag.getD g AgSet.zero
/-- The context with a set changed. -/
def putSet (c : Ctx) (g : Nat) (a : AgSet) : Ctx := { c with ag := c.ag.setIfInBounds g a }
/-- A run that has nothing more to generate and nothing outstanding completes (R209, R210, R218): status 0, or 2 after a fault, and it
leaves NCL or NCS. -/
def Settled (c : Ctx) (g : Nat) (a : AgSet) (r : Run) : Ctx :=
  if r.left = 0 ∧ (r.total ≤ r.next ∨ r.stop = true) then
    let d := putSet c g { a with run := none, status := if r.fault then 2 else 0 }
    { d with decs := c.decs ++ [⟨if r.load then 0 else 1, r.seq⟩] }
  else putSet c g { a with run := some r }

/-- What each instruction that acts on address registers and sets at once leaves: its gate, the scalar registers it reads, and
the context (R208, R210, R211, R217). -/
def setForm (i : Instr) (s : State) : Option (BitVec 2 × List (BitVec 6) × Ctx) :=
  let c := s.cx
  match i with
  | .agset w =>
    if (setOf c w.d.toNat).run = none then
      some (w.g, [], putSet c w.d.toNat (withField (setOf c w.d.toNat) w.b.toNat (c.a.getD w.a.toNat 0)))
    else none
  | .agstop w => some (w.g, [], match (setOf c w.a.toNat).run with
      | none => c
      | some r => Settled c w.a.toNat (setOf c w.a.toNat) { r with stop := true })
  | .aget w => some (w.g, [], { c with a := c.a.setIfInBounds w.d.toNat (fieldOf (setOf c w.a.toNat) w.b.toNat) })
  | .amovToA w => some (w.g, [w.a], { c with a := c.a.setIfInBounds w.d.toNat (readS s 0 w.a.toNat) })
  | .aadd w => some (w.g, [], { c with a := c.a.setIfInBounds w.d.toNat (c.a.getD w.a.toNat 0 + iImm w.imm w.x) })
  | _ => none

/-- The bytes of an atom by its TY (R216). -/
def atomWidth (f : BitVec 6) : Nat :=
  match (f.extractLsb' 4 2).toNat with
  | 0 => 4
  | 1 => 8
  | 2 => 4
  | _ => 2

/-- A direct access as its rule describes it (R212, R214 to R216): gate, register sources, destination, queues, operation,
address and size. -/
structure AForm where
  g : BitVec 2
  reads : List VSrc
  d : Option VDst
  ql : Bool
  qs : Bool
  op : AOp
  addr : W64
  size : Nat

/-- The form of each direct access in a state. -/
def accForm (i : Instr) (s : State) : Option AForm :=
  let at' (r : BitVec 6) : W64 := s.cx.a.getD r.toNat 0
  let vlen := if s.cx.id.prof = .b then 64 else 128
  match i with
  | .ldv w => some ⟨w.g, [], some (.vec w.d 1), true, false, .ldv ((s.cx.asDelivered s.cur).physV w.d.toNat), at' w.a, vlen⟩
  | .stv w =>
    if w.d.toNat < 48 then some ⟨w.g, [.vec w.d 1], none, false, true, .stv (readV s 0 w.d.toNat), at' w.a, vlen⟩ else none
  | .lds w => some ⟨w.g, [], some (.scal w.d), true, false, .lds w.d.toNat w.b.toNat, at' w.a, (szSpec (w.b.setWidth 3)).1⟩
  | .sts w => some ⟨w.g, [.sreg w.d], none, false, true, .sts w.b.toNat (readS s 0 w.d.toNat), at' w.a,
      (szSpec (w.b.setWidth 3)).1⟩
  | .amark w => some ⟨w.g, [], none, true, true, .mark, 0, 0⟩
  | .spfmt w => some ⟨w.g, [], none, true, true, .spfmt w.d.toNat (w.b.toNat + 1), at' w.a, 0⟩
  | .atom w => some ⟨w.g, [.sreg w.b] ++ (if w.f.extractLsb' 1 5 = 1 ∨ w.f.extractLsb' 1 5 = 9 then [.sreg w.d] else []),
      some (.scal w.d), true, true, .atom w.f w.d.toNat (readS s 0 w.b.toNat) (readS s 3 w.d.toNat), at' w.a,
      atomWidth w.f⟩
  | _ => none

/-- The accesses that stand in the load queue or the store queue. -/
def inQueue (c : Ctx) (load : Bool) : Nat := (c.accs.filter fun a => if load then a.ql else a.qs).length
/-- The queues that an access enters hold fewer than 64 accesses and have accepted fewer than 2 in this cycle (R202). -/
def HasRoom (c : Ctx) (ql qs : Bool) : Prop :=
  (ql = true → inQueue c true < 64 ∧ c.accL < 2) ∧ (qs = true → inQueue c false < 64 ∧ c.accS < 2)
/-- The context with an access accepted by its queues. -/
def entered (c : Ctx) (a : Acc) : Ctx :=
  { c with accs := c.accs ++ [a], accL := c.accL + (if a.ql then 1 else 0), accS := c.accS + (if a.qs then 1 else 0) }
/-- A breach of the instruction in checking mode (R127). -/
def ABreach (s : State) (reads : List VSrc) (d : Option VDst) : Prop :=
  s.cur.chk = true ∧ ((∃ r ∈ reads, r.breach s = true ∨ r.dead (s.cx.asDelivered s.cur) = true) ∨ ∃ x, d = some x ∧ x.breach s = true)

/-- The new value of atom (R216) at the width of its type, and the value it returns. `old`, `y`, `c` have 64 bits; in a narrow
type their low bits count. -/
def atomSpec (f : BitVec 6) (old y c new ret : W64) : Prop :=
  let op := (f.extractLsb' 1 3).toNat
  let u := f.getLsbD 0
  let int (n : Nat) : Prop :=
    let o := old.setWidth n
    let b := y.setWidth n
    let cm := c.setWidth n
    let less (x z : BitVec n) : Bool := if u then x.ult z else x.slt z
    new.setWidth n = (match op with
      | 0 => b
      | 1 => if o = cm then b else o
      | 2 => o + b
      | 3 => o &&& b
      | 4 => o ||| b
      | 5 => o ^^^ b
      | 6 => if less o b then b else o
      | _ => if less o b then o else b)
      ∧ ret = o.signExtend 64
  let flt (fm : Fmt) (n : Nat) : Prop :=
    let x := unpackZ fm (f.getLsbD 1) (old.setWidth n).toNat
    let z := unpackZ fm (f.getLsbD 1) (y.setWidth n).toNat
    ret = (old.setWidth n).setWidth 64 ∧ match (f.extractLsb' 2 2).toNat with
      | 0 => ∃ v fl, IsSum 0 x z v fl ∧ new.setWidth n = BitVec.ofNat n (roundFmt fm 0 (f.getLsbD 0) v false).1
      | 1 => ∃ v, IsMinOrMax false x z v ∧ new.setWidth n = BitVec.ofNat n (roundFmt fm 0 (f.getLsbD 0) v false).1
      | 2 => ∃ v, IsMinOrMax true x z v ∧ new.setWidth n = BitVec.ofNat n (roundFmt fm 0 (f.getLsbD 0) v false).1
      | _ => new.setWidth n = if (unpack fm (y.setWidth n).toNat).isNaN then BitVec.ofNat n (nanPat fm) else y.setWidth n
  match (f.extractLsb' 4 2).toNat with
  | 0 => int 32
  | 1 => int 64
  | 2 => flt f32 32
  | _ => flt bf16 16

/-- The bytes of a number, lowest first. -/
def bytesOf (n v : Nat) : List Byte := (List.range n).map fun i => BitVec.ofNat 8 (v / 2 ^ (8 * i))
/-- The format of the bank of the first of some keys, 0 outside scratch (R199). -/
def fmtOf (s : State) (ks : List Nat) : Nat := (ks.head?.map (fmtOfKey s)).getD 0
/-- The vector and the sidecar that a vector access delivers (R199): the row's scale cell in an e4m3+scale bank, else 1.0. -/
def vectorAt (s : State) (ks : List Nat) : VReg :=
  ⟨BitVec.ofNat 1024 (homeNat s ks),
   if fmtOf s ks = 4 then BitVec.ofNat 32 (homeNat s (scaleKeys ks)) else 0x3F800000⟩
where
  /-- The keys of the scale cell of the first key's row. -/
  scaleKeys (ks : List Nat) : List Nat := (List.range 4).map (scaleCell (ks.headD 0) + ·)

/-- What a performed access stores: keys and bytes. -/
def accStores (s : State) (a : Acc) (ks : List Nat) (new : W64) : Option (List Nat × List Byte) :=
  let vec (v : VReg) : List Nat × List Byte :=
    if fmtOf s ks = 4 then (ks ++ vectorAt.scaleKeys ks, bytesOf ks.length v.d.toNat ++ bytesOf 4 v.sc.toNat)
    else (ks, bytesOf ks.length v.d.toNat)
  match a.op with
  | .stv v => some (vec v)
  | .wrRun _ v => some (vec v)
  | .sts _ v => some (ks, bytesOf ks.length v.toNat)
  | .atom _ _ _ _ => some (ks, bytesOf ks.length new.toNat)
  | _ => none

/-- A run of set g after one more of its accesses has been performed (R209, R211). -/
def RunSteps (c : Ctx) (g : Nat) (fault : Bool) : Ctx :=
  let a := setOf c g
  match a.run with
  | none => if fault then c else putSet c g { a with done := a.done + 1 }
  | some r => Settled c g { a with done := if fault then a.done else a.done + 1 } { r with left := r.left - 1, fault := r.fault || fault }
/-- The load port with the entry of an access filled (R201). -/
def filled (c : Ctx) (p eid : Nat) (v : VReg) : Ctx :=
  { c with lports := c.lports.setIfInBounds p ((c.lports.getD p []).map fun e => if e.eid = eid then ⟨e.eid, true, v⟩ else e) }

/-- What an access that has been performed leaves in its context's registers, ports and runs, and the counter it leaves (R209,
R212, R213, R216); `val` is a vector loaded, `ret` a scalar returned; `fault` after R218, with zeros. -/
def accLeaves (c : Ctx) (a : Acc) (val : VReg) (ret : W64) (fault : Bool) : Ctx :=
  let scal (d : Nat) : Ctx := if d = 0 then c else { c with s := c.s.setIfInBounds d ret }
  match a.op with
  | .ldv r =>
    { c with v := c.v.setIfInBounds r val, vage := if c.khd.rot = true ∧ 16 ≤ r then c.vage.setIfInBounds (r - 16) 0 else c.vage
             decs := c.decs ++ [⟨0, a.seq⟩] }
  | .stv _ => { c with decs := c.decs ++ [⟨1, a.seq⟩] }
  | .lds d _ => { scal d with decs := c.decs ++ [⟨0, a.seq⟩] }
  | .sts _ _ => { c with decs := c.decs ++ [⟨1, a.seq⟩] }
  | .atom _ d _ _ => { scal d with decs := c.decs ++ [⟨0, a.seq⟩] }
  | .rdRun g p e => RunSteps (filled c p e val) g fault
  | .wrRun g _ => RunSteps c g fault
  | _ => c

/-- The contexts agree but for the marks of writes that other writes meet (R126) and the counter of bytes moved. -/
def SameButMeets (c d : Ctx) : Prop :=
  d = { c with inflight := d.inflight, accs := d.accs, gacc := d.gacc, perf := d.perf }
    ∧ d.inflight.map (fun g => { g with contested := false }) = c.inflight.map (fun g => { g with contested := false })
    ∧ d.accs.map (fun g => { g with mixed := false }) = c.accs.map (fun g => { g with mixed := false })
    ∧ d.gacc.map (fun g => { g with mixed := false }) = c.gacc.map (fun g => { g with mixed := false })

/-- The access has the size of its operation. -/
def SizeFits (a : Acc) : Prop :=
  (∀ d z, a.op = .lds d z → z < 7 ∧ a.size = (szSpec (BitVec.ofNat 3 z)).1) ∧ ∀ f d y z, a.op = .atom f d y z → a.size = atomWidth f

/-- The step names an access of the focused context that comes first in its order and, in scratch, is the one that its bank serves (R198,
R202, R203, R214); those of a base vector core to the vaults of its quad are direct-row accesses (R375). -/
def Presents (s : State) (a : Acc) : Prop :=
  directRow s.cx a = false ∧ s.cx.accs[s.sub.a]? = some a ∧ accOk s s.sub.a = true ∧ (s.sub.acc = .load ∧ a.ql = true ∨ s.sub.acc = .store ∧ a.qs = true)
/-- The context without that access. -/
def without (c : Ctx) (k : Nat) : Ctx := { c with accs := c.accs.eraseIdx k }

end Sys2Proof.Claims

/-- R206, R208 to R211, R217: agset writes a field of a set that has no run, agstop ends a run once what it has generated is
performed, aget reads a field or the progress, amov and aadd write an address register, each at issue and with nothing else
changed; agset of a set with a run waits; an amov to a scalar register puts the value in flight for 2 cycles. -/
def Sys2Proof.Claims.AddressRegistersAndSets : Prop :=
  open Sys2Proof Sys2Proof.Machine Sys2Proof.Claims in
  (∀ (i : Instr) (s : State) (g : BitVec 2) (rs : List (BitVec 6)) (c : Ctx), wf i = true → setForm i s = some (g, rs, c) →
    gateOk g s.cur.level = true → (s.cur.chk = false ∨ ∀ r ∈ rs, breachS s.cx s.cycle r.toNat = false) →
    ∃ t, exec i s = .next t ∧ OnlyCx s t { c with aseq := s.cx.aseq + 1 })
  ∧ (∀ (w : FR) (s : State), gateOk w.g s.cur.level = true → (setOf s.cx w.d.toNat).run ≠ none → Waits (.agset w) s)
  ∧ ∀ (w : FR) (s : State), gateOk w.g s.cur.level = true → NoBreach s [] w.d →
    ∃ t f, exec (.amovToS w) s = .next t
      ∧ OnlyCx s t { s.cx with inflight := s.cx.inflight ++ [f], aseq := s.cx.aseq + 1 }
      ∧ IsResult s f .a 2 (.s w.d.toNat (s.cx.a.getD w.a.toNat 0)) 0

/-- R206, R207, R209: agld and agst of a set without a run start one with the set's fields, words, counts and strides as they stand; a
count of 0 completes it at once; a set with a run makes them wait. -/
def Sys2Proof.Claims.RunsStart : Prop :=
  open Sys2Proof Sys2Proof.Machine Sys2Proof.Claims in
  ∀ (load : Bool) (w : FR) (s : State), w.a.toNat < 16 → gateOk w.g s.cur.level = true →
    let i : Instr := if load then .agld w else .agst w
    let a := setOf s.cx w.a.toNat
    (a.run ≠ none → Waits i s)
    ∧ (a.run = none → ∃ t, exec i s = .next t ∧ OnlyCx s t { Settled s.cx w.a.toNat { a with done := 0, status := 1 }
        ⟨load, w.d.toNat, a.base, runWords a s.cx.id.prof, runCounts a, runStrides a, (runCounts a).prod, 0, 0, false, false,
          s.cx.aseq, s.cur.seq, s.cur.line, s.cur.slot, s.cur.chk, 0⟩ with aseq := s.cx.aseq + 1 })

/-- R201, R202, R207, R209, R218: the oldest run of its port that still generates adds its next access, at the address that R207 gives, to its
queue: a load run with a free entry of its port reserves the entry, a store run takes the oldest entry once it is written. A
run that has faulted gives its port a zero vector with scale 1.0, or drops an entry, for each access it had still to make, and then
completes. A run generates at most one access a cycle. Nothing else changes. -/
def Sys2Proof.Claims.RunsGenerate : Prop :=
  open Sys2Proof Sys2Proof.Machine Sys2Proof.Claims in
  ∀ (s : State) (r : Run), s.sub.a < 16 → (setOf s.cx s.sub.a).run = some r → r.next < r.total → r.stop = false → r.ready ≤ s.cycle → s.cx.caps = none →
    (∀ g < 16, ∀ q, (setOf s.cx g).run = some q → q.load = r.load → q.port = r.port → q.aseq < r.aseq → q.total ≤ q.next ∨ q.stop = true) →
    let lq := s.cx.lports.getD r.port []
    let wq := s.cx.sports.getD r.port []
    let a := setOf s.cx s.sub.a
    let on : Run := { r with next := r.next + 1, ready := s.cycle + 1 }
    (r.load = true → lq.length < 8 → r.fault = false → HasRoom s.cx true false →
      ∃ t, exec .agAccessGenerate s = .next t ∧ OnlyCx s t (entered { putSet s.cx s.sub.a { a with run := some { on with left := r.left + 1 } } with
        lports := s.cx.lports.setIfInBounds r.port (lq ++ [⟨s.nextId, false, VReg.zero⟩]) }
        ⟨.rdRun s.sub.a r.port s.nextId, runAddress r.base r.counts r.strides r.next, 4 * r.lenw, true, false,
          r.aseq, r.seq, r.line, r.slot, r.chk, false, Journey.start⟩))
    ∧ (r.load = false → ∀ e es, wq = e :: es → e.ready = true → r.fault = false → HasRoom s.cx false true →
      ∃ t, exec .agAccessGenerate s = .next t ∧ OnlyCx s t (entered { putSet s.cx s.sub.a { a with run := some { on with left := r.left + 1 } } with
        sports := s.cx.sports.setIfInBounds r.port es }
        ⟨.wrRun s.sub.a e.v, runAddress r.base r.counts r.strides r.next, 4 * r.lenw, false, true,
          r.aseq, r.seq, r.line, r.slot, r.chk, false, Journey.start⟩))
    ∧ (r.load = true → lq.length < 8 → r.fault = true → ∃ t, exec .agAccessGenerate s = .next t
        ∧ OnlyCx s t { Settled s.cx s.sub.a a on with
            lports := s.cx.lports.setIfInBounds r.port (lq ++ [⟨s.nextId, true, ⟨0, 0x3F800000⟩⟩]) })
    ∧ (r.load = false → ∀ e es, wq = e :: es → e.ready = true → r.fault = true → ∃ t, exec .agAccessGenerate s = .next t
        ∧ OnlyCx s t { Settled s.cx s.sub.a a on with sports := s.cx.sports.setIfInBounds r.port es })

/-- R201, R202, R206 to R211, R217, R218: the address instructions complete, and runs start, generate and end, each as its
part says. -/
def Obligations.AddressSetsAndRuns : Prop :=
  Sys2Proof.Claims.AddressRegistersAndSets
    ∧ Sys2Proof.Claims.RunsStart
    ∧ Sys2Proof.Claims.RunsGenerate

/-- R202, R212 to R216: each direct access, mark, bank format and atomic enters the queues it uses, which have room and accept two a cycle, with its
address and its register operands as they stand at issue, and nothing else changes; without room it waits. -/
def Sys2Proof.Claims.DirectAccessesEnter : Prop :=
  open Sys2Proof Sys2Proof.Machine Sys2Proof.Claims in
  ∀ (i : Instr) (s : State) (f : AForm), wf i = true → accForm i s = some f → gateOk f.g s.cur.level = true → ¬ ABreach s f.reads f.d →
    (¬ HasRoom s.cx f.ql f.qs → Waits i s)
    ∧ (HasRoom s.cx f.ql f.qs → ∃ t, exec i s = .next t ∧ OnlyCx s t (entered { s.cx with
          deadrd := s.cx.deadrd || f.reads.any fun r => r.dead (s.cx.asDelivered s.cur)
          aseq := s.cx.aseq + 1 }
        ⟨f.op, f.addr, f.size, f.ql, f.qs, s.cx.aseq, s.cur.seq, s.cur.line, s.cur.slot, s.cur.chk, false, Journey.start⟩))

/-- R198, R199, R203, R209, R212, R213, R216, R312, R321: an access that comes first, resolves and has its way to a home of this package
free is performed, one that reaches two rows of scratch once the bank of the first has served it: a load delivers the bytes with their
sidecar or extension, a store changes its bytes (and the scale cell of an e4m3+scale row) and no other, an atomic does both as one
action, and the access leaves its counter. A store to another package leaves through its fabric port, and no byte changes yet. A mark
leaves its queues with nothing else changed. -/
def Sys2Proof.Claims.AccessesPerform : Prop :=
  open Sys2Proof Sys2Proof.Machine Sys2Proof.Claims in
  ∀ (s : State) (a : Acc), s.Ok → Presents s a →
    (a.op = .mark → exec .accessPerformed s = .next { s with cx := without s.cx s.sub.a })
    ∧ (a.op.isMark = false → s.sub.ecc ≠ .uncorrectable → a.mixed = false → SizeFits a → ∀ ks, accResolve s a = .ok ks →
      (a.chk = false ∨ a.kind ≠ .rd) → HopFree s s.cx.id.die ks a.go →
      (awayDie s ks = none → 1 < (rowsOf ks).length → a.go.half = false → ∃ t, exec .accessPerformed s = .next t
        ∧ t = { s with
            served := t.served
            cx := { s.cx with accs := s.cx.accs.set s.sub.a { a with go := { a.go with half := true, pres := some (s.cycle + 1) } } } })
      ∧ (∀ d, awayDie s ks = some d → a.go.left = none → a.kind = .wr → (∀ q ∈ leftOnFabric s, q.1 = d → q.2.1 = fabPort s d) →
        ∃ t, exec .accessPerformed s = .next t ∧ t = { s with
            fabOrd := s.fabOrd + 1
            cx := { s.cx with accs := s.cx.accs.set s.sub.a { a with go := { a.go with left := some (fabPort s d, s.fabOrd), keys := ks } } } })
      ∧ (awayDie s ks = none → (rowsOf ks).length ≤ 1 ∨ a.go.half = true →
        ∃ t new ret, exec .accessPerformed s = .next t
        ∧ (∀ d z, a.op = .lds d z → ret = if (szSpec (BitVec.ofNat 3 z)).2 then (BitVec.ofNat (8 * (szSpec (BitVec.ofNat 3 z)).1) (homeNat s ks)).signExtend 64
            else (BitVec.ofNat (8 * (szSpec (BitVec.ofNat 3 z)).1) (homeNat s ks)).setWidth 64)
        ∧ (∀ f d y z, a.op = .atom f d y z → atomSpec f (BitVec.ofNat 64 (homeNat s ks)) y z new ret)
        ∧ SameButMeets (accLeaves (without s.cx s.sub.a) a (vectorAt s ks) ret false) t.cx
        ∧ (accStores s a ks new = none → MemSame s t)
        ∧ ∀ kb, accStores s a ks new = some kb → Stored s t kb.1 kb.2))

/-- R215: a bank format that comes first sets the format of the banks it names, all inside a memory whose window it may name and
with no row in a range it does not reach, and of no other bank; data and scale cells stay. A forbidden one changes no format and is
recorded for the next boundary. -/
def Sys2Proof.Claims.FormatsAreSet : Prop :=
  open Sys2Proof Sys2Proof.Machine Sys2Proof.Claims in
  ∀ (s : State) (a : Acc) (f n : Nat), Presents s a → a.op = .spfmt f n →
    let win := a.addr.toNat / 2 ^ 60
    let sid := if win = 1 then ownSid s.cx.id else clusterSid s.cx.id.die (s.cx.id.core / 8)
    let first := a.addr.toNat % 2 ^ 48 / sidBank sid
    let legal := (win = 1 ∨ win = 2 ∧ s.cx.id.prof = .p) ∧ a.addr.extractLsb' 48 12 = 0 ∧ first + n ≤ sidCap sid / sidBank sid
    (legal → fmtForbidden s win sid first n = false → ∃ t, exec .accessPerformed s = .next t
      ∧ t = { s with cx := without s.cx s.sub.a, fmt := t.fmt } ∧ MemSame s t
      ∧ ∀ k, Tab.get 0 t.fmt k = if sid * 64 + first ≤ k ∧ k < sid * 64 + first + n then f else Tab.get 0 s.fmt k)
    ∧ (¬ legal ∨ fmtForbidden s win sid first n = true → s.cx.due = none → s.cx.pend = none → ∃ t, exec .accessPerformed s = .next t
      ∧ t = { s with cx := { without s.cx s.sub.a with
          pend := some ⟨if legal then tcPermission else tcWindow, a.line, a.slot, a.addr, 0, streamCode .a, false⟩ } })

/-- R218, R392, R418: an access that fails a check of R286, or receives an error completion, performs no byte: the first condition is
recorded for the next boundary with its line, slot and address; a direct load writes zero, a vector with scale 1.0, an atomic zero to its
register, a store nothing, and each completes; a run stops generating. -/
def Sys2Proof.Claims.FaultingAccessesPerformNothing : Prop :=
  open Sys2Proof Sys2Proof.Machine Sys2Proof.Claims in
  ∀ (s : State) (a : Acc) (c : Nat), s.cx.due = none → s.cx.pend = none → a.op.isMark = false →
    (Presents s a ∧ (∀ f n, a.op ≠ .spfmt f n) ∧ accResolve s a = .error c →
      ∃ t, exec .accessPerformed s = .next t ∧ MemSame s t
        ∧ t.cx = { accLeaves (without s.cx s.sub.a) a ⟨0, 0x3F800000⟩ 0 true with
            pend := some ⟨c, a.line, a.slot, a.addr, 0, streamCode .a, false⟩ })
    ∧ (s.cx.accs[s.sub.a]? = some a ∧ (s.sub.acc = .load ∧ a.ql = true ∨ s.sub.acc = .store ∧ a.qs = true) →
      ∃ t, exec .errorCompletion s = .next t ∧ MemSame s t
        ∧ t.cx = { accLeaves (without s.cx s.sub.a) a ⟨0, 0x3F800000⟩ 0 true with
            pend := some ⟨tcUnreach, a.line, a.slot, a.addr, 0, streamCode .a, false⟩ })

/-- R202, R212 to R216, R218, R392, R418: the direct accesses, marks, bank formats and atomics complete at issue, a format is
set, and an access that faults performs nothing, each as its part says. -/
def Obligations.DirectAccesses : Prop :=
  Sys2Proof.Claims.DirectAccessesEnter
    ∧ Sys2Proof.Claims.FormatsAreSet
    ∧ Sys2Proof.Claims.FaultingAccessesPerformNothing

/-! ### Control registers, events and token queues -/

namespace Sys2Proof.Claims

open Sys2Proof.Machine

/-- The value of a control register, reserved bits zero (R121, R177, R220, R244); PC is the address of the line being delivered. -/
def crValue (c : Ctx) (line : W64) (n : Nat) : W64 :=
  if 0x10 ≤ n then
    let l := c.loops.getD ((n - 0x10) / 4) Loop.zero
    match (n - 0x10) % 4 with
    | 0 => l.cnt.setWidth 64
    | 1 => l.idx.setWidth 64
    | 2 => l.body
    | _ => l.x.setWidth 64 ||| l.y.setWidth 64 <<< 6 ||| l.n.setWidth 64 <<< 12 ||| l.stx.setWidth 64 <<< 32 ||| l.sty.setWidth 64 <<< 48
  else match n with
    | 0 => line
    | 1 => BitVec.ofNat 64 c.depth
    | 2 => c.rrb.setWidth 64
    | 3 => c.vdep.setWidth 64 ||| c.pdep.setWidth 64 <<< 8
    | 4 => c.rm.setWidth 64 ||| c.ten.setWidth 64 <<< 4 ||| c.flg.setWidth 64 <<< 16
    | 5 => c.psel.setWidth 64 ||| (BitVec.ofBool c.gzero).setWidth 64 <<< 8
    | 6 => (BitVec.ofBool c.chk).setWidth 64
    | 7 => (BitVec.ofBool c.deadrd).setWidth 64
    | 8 => BitVec.ofNat 64 (c.ncl + 2 ^ 8 * c.ncs + 2 ^ 16 * c.ncx + 2 ^ 24 * c.ncm)
    | 9 => BitVec.ofNat 64 c.tokens.length
    | 0xA => BitVec.ofNat 64 (c.hint.lev + 8 * c.hint.v.toNat)
    | 0xB => c.hint.va.setWidth 64
    | 0xC => c.hint.vb.setWidth 64 ||| c.hint.p.setWidth 64 <<< 16
    | 0xD => c.hint.sr.setWidth 64
    | _ => (BitVec.ofBool c.smxnan).setWidth 64

/-- A write of the register lies inside its condition (R121). -/
def CrAllowed (c : Ctx) (n : Nat) : Prop := (n = 2 → c.depth = 0) ∧ (0x10 ≤ n → c.depth ≤ (n - 0x10) / 4)

/-- The names of the instructions delivered before a write of RRB stay as the base at their delivery makes them (R147, R406). -/
def namesKept (c : Ctx) (rrb : BitVec 5) : Ctx :=
  let kept (q : List QEntry) : List QEntry := q.map fun e => { e with rrb := some (e.rrb.getD rrb) }
  { c with vq := kept c.vq, mq := kept c.mq, aq := kept c.aq, xq := kept c.xq }

/-- The context after a write of a control register (R121): reserved bits and read-only registers ignore it, and so do RRB and LDEPTH
without rotation. -/
def crAfter (c : Ctx) (n : Nat) (v : W64) : Ctx :=
  let k := (n - 0x10) / 4
  let l := c.loops.getD k Loop.zero
  let put (l : Loop) : Ctx := { c with loops := c.loops.setIfInBounds k l }
  if 0x10 ≤ n then
    match (n - 0x10) % 4 with
    | 0 => put { l with cnt := v.extractLsb' 0 32 }
    | 1 => put { l with idx := v.extractLsb' 0 32 }
    | 2 => put { l with body := v >>> 5 <<< 5 }
    | _ => put { l with x := v.extractLsb' 0 6, y := v.extractLsb' 6 6, n := v.extractLsb' 12 2, stx := v.extractLsb' 32 16, sty := v.extractLsb' 48 16 }
  else match n with
    | 2 => namesKept (if c.khd.rot then { c with rrb := v.extractLsb' 0 5 } else c) c.rrb
    | 3 => if c.khd.rot then { c with vdep := v.extractLsb' 0 6, pdep := v.extractLsb' 8 4 } else c
    | 4 => { c with rm := v.extractLsb' 0 2, ten := v.extractLsb' 4 5, flg := v.extractLsb' 16 5 }
    | 5 => { c with psel := v.extractLsb' 0 4, gzero := v.getLsbD 8 }
    | 6 => { c with chk := v.getLsbD 0 }
    | 7 => { c with deadrd := v.getLsbD 0 }
    | 0xE => { c with smxnan := v.getLsbD 0 }
    | _ => c

/-- The Y instruction acts (R101, R127, R405): its gate is open, every slot of its line that uses a register it writes has issued, and
checking mode sees no breach. -/
def YReady (s : State) (g : BitVec 2) (reads dsts : List (BitVec 6)) : Prop :=
  gateOk g s.cur.level = true ∧ (∀ d ∈ dsts, lineUsePending s.cx s.cur d.toNat = false)
    ∧ (s.cur.chk = false ∨ ((∀ r ∈ reads, breachS s.cx s.cycle r.toNat = false) ∧ ∀ d ∈ dsts, (VDst.scal d).breach s = false))

/-- The context is c with value v written to scalar register d at once. -/
def Wrote (c t : Ctx) (d : Nat) (v : W64) : Prop :=
  SameButMeets (if d = 0 then c else { c with s := c.s.setIfInBounds d v }) t ∧ t.perf = c.perf
/-- A Y instruction has completed: the context is c with value v in register d, and nothing outside the context has changed. -/
def YResult (s t : State) (c : Ctx) (d : BitVec 6) (v : W64) : Prop :=
  Wrote c t.cx d.toNat v ∧ t = { s with cx := t.cx, fresh := t.fresh } ∧ MemSame s t

/-- What each of the forms of R406 writes into its register, if anything. -/
def csrForm (i : Instr) (s : State) : Option (FK × Option W64) :=
  match i with
  | .ycsrr w => some (w, none)
  | .ycsrw w => some (w, some (readS s 0 w.a.toNat))
  | .ycsrs w => some (w, if w.a = 0 then none else some (crValue s.cx s.cur.line w.num.toNat ||| readS s 0 w.a.toNat))
  | .ycsrc w => some (w, if w.a = 0 then none else some (crValue s.cx s.cur.line w.num.toNat &&& ~~~readS s 0 w.a.toNat))
  | _ => none

/-- The items of yctx (R413). -/
def yctxItem (s : State) (n : Nat) : W64 :=
  match n with
  | 0 =>
    let o := otherCtx s s.cx.id
    BitVec.ofNat 64 s.cx.id.ctx ||| (BitVec.ofBool o.isSome).setWidth 64 <<< 1
      ||| (BitVec.ofBool (o.any fun d => !ctxBlocked s d)).setWidth 64 <<< 2
      ||| (BitVec.ofBool s.cx.yieldReq).setWidth 64 <<< 3 ||| (BitVec.ofBool s.cx.it.restored).setWidth 64 <<< 4
  | 1 => BitVec.ofNat 64 (s.pkg.pkgnum.toNat * 8 + s.cx.id.die + 2 ^ 11 * s.cx.id.core)
  | 2 => s.cx.it.nodeVa
  | _ => BitVec.ofNat 64 s.cx.it.ord

/-- The C slots of a line have acted, or an exit alone is left, which waits for every queue of the context (R152). -/
def LineDone (c : Ctx) : Prop := ∀ e ∈ c.cq.head?, ∃ w, e.instr .c = some (.exit w)

/-- What one attempt at a token queue finds (R73): its status, the entry received, and the entries afterwards. -/
def attemptOf (q : List W64) (depth : Nat) (send : Bool) (v : W64) : Nat × W64 × List W64 :=
  if depth = 0 then (2, 0, q)
  else if send = true ∧ q.length < depth then (0, 0, q ++ [v])
  else if send = false ∧ q ≠ [] then (0, q.headD 0, q.tail)
  else (4, 0, q)

end Sys2Proof.Claims

/-- R121, R405, R406: each of the four forms returns the old value with its reserved bits zero; a write inside its condition changes the
named fields alone, one outside it is the precise illegal-loop trap. -/
def Sys2Proof.Claims.ControlRegistersReadAndWrite : Prop :=
  open Sys2Proof Sys2Proof.Machine Sys2Proof.Claims in
  ∀ (i : Instr) (s : State) (w : FK) (new : Option W64), wf i = true → csrForm i s = some (w, new) → YReady s w.g [w.a] [w.d] →
    (w.num = 4 → earlierWritten s.cx (s.cur.seq / 8) = true) →
    (new = none → ∃ t, exec i s = .next t ∧ YResult s t s.cx w.d (crValue s.cx s.cur.line w.num.toNat))
    ∧ ∀ v, new = some v →
      (CrAllowed s.cx w.num.toNat → ∃ t, exec i s = .next t ∧ YResult s t (crAfter s.cx w.num.toNat v) w.d (crValue s.cx s.cur.line w.num.toNat))
      ∧ (¬ CrAllowed s.cx w.num.toNat → ∃ t, exec i s = .next t ∧ PreciseTrap s t .y 0x04 0 0)

/-- R405, R407 to R409, R412, R413: ytrap is the software trap with its code and payload; ysig, once released, sets SIGDATA of its VI and
posts the interrupts of its event; yperf and yctx write their counter and item; yswap passes the turn to a context of its core that is
not blocked, 8 cycles later, and else does nothing. -/
def Sys2Proof.Claims.TrapsEventsAndContextForms : Prop :=
  open Sys2Proof Sys2Proof.Machine Sys2Proof.Claims in
  (∀ (w : FK) (s : State), YReady s w.g [w.a] [] → ∃ t, exec (.ytrap w) s = .next t ∧ PreciseTrap s t .y 0x0F (readS s 0 w.a.toNat) w.num.toNat)
  ∧ (∀ (w : FR) (s : State), YReady s w.g [w.a, w.b] [] →
    let e := readS s 0 w.a.toNat
    let vi := s.cx.it.vi
    let legal := e.extractLsb' 0 2 ≠ 0 ∧ e.extractLsb' 2 6 = 0 ∧ e.extractLsb' 16 48 = 0
    (¬ legal → ∃ t, exec (.ysig w) s = .next t ∧ PreciseTrap s t .y 0x03 0 0)
    ∧ (legal → released s false s.cur.seq = false → Waits (.ysig w) s)
    ∧ (legal → released s false s.cur.seq = true → ∃ t, exec (.ysig w) s = .next t ∧ MemSame s t
        ∧ t = { s with vis := t.vis, msix := t.msix, fresh := t.fresh, intrs := s.intrs
            ++ (if e.getLsbD 0 then [⟨true, vi, (e.extractLsb' 8 8).toNat⟩] else [])
            ++ (if e.getLsbD 1 then [⟨false, vi, (e.extractLsb' 8 8).toNat⟩] else []) }
        ∧ (∀ k, t.vi k = if k = vi then { s.vi k with sigdata := readS s 3 w.b.toNat } else s.vi k)
        ∧ ∀ k, Tab.get 0 t.msix k = Tab.get 0 s.msix k
          + if e.getLsbD 0 = true ∧ k = 32 * vi + (e.extractLsb' 8 5).toNat then 1 else 0))
  ∧ (∀ (w : FR) (s : State), YReady s w.g [w.a] [w.d] →
    let n := (readS s 0 w.a.toNat).toNat
    (n < 8 → ∃ t, exec (.yperf w) s = .next t ∧ YResult s t s.cx w.d (s.cx.perf.getD n 0))
    ∧ (8 ≤ n → ∃ t, exec (.yperf w) s = .next t ∧ PreciseTrap s t .y 0x03 0 0))
  ∧ (∀ (w : FR) (s : State), wf (.yctx w) = true → s.cx.id.ctx < 2 → YReady s w.g [] [w.d] →
    ∃ t, exec (.yctx w) s = .next t ∧ YResult s t s.cx w.d (yctxItem s w.b.toNat))
  ∧ ∀ (w : FR) (s : State), YReady s w.g [] [] →
    (¬ LineDone s.cx → Waits (.yswap w) s)
    ∧ (LineDone s.cx → (∀ o, otherCtx s s.cx.id = some o → ctxBlocked s o = true) → exec (.yswap w) s = .next s)
    ∧ (LineDone s.cx → ∀ o, otherCtx s s.cx.id = some o → ctxBlocked s o = false → ∃ t, exec (.yswap w) s = .next t
        ∧ t = { s with cx := { s.cx with replay := [], stall := 0, prioReq := false }, cores := t.cores, garr := t.garr }
        ∧ (∀ k, t.coreSt k = if k = s.cx.id.coreKey then { s.coreSt k with change := some (o.id.ctx, s.cycle + 8) } else s.coreSt k)
        ∧ leaseOf t s.cx.id = (leaseOf s s.cx.id).map fun l => { l with ending := true })

/-- R121, R405 to R409, R412, R413: the control-register forms, ytrap, ysig, yperf, yctx and yswap complete, each as its part
says. -/
def Obligations.SystemInstructions : Prop :=
  Sys2Proof.Claims.ControlRegistersReadAndWrite
    ∧ Sys2Proof.Claims.TrapsEventsAndContextForms

/-- R71 to R73, R405: ytqs and ytqr start their attempts at a queue of their VI, and name no other; an attempt takes effect at the hub as one action,
and ends the instruction with its status and entry, with TIMEOUT, with YIELDED, or sets the next attempt 128 cycles after its return. -/
def Obligations.TokenQueueInstructions : Prop :=
  open Sys2Proof Sys2Proof.Machine Sys2Proof.Claims in
  (∀ (send : Bool) (w : FR) (s : State), YReady s w.g (if send then [w.a, w.b] else [w.a]) [] →
    let i : Instr := if send then .ytqs w else .ytqr w
    let q := readS s 0 w.a.toNat
    let mine := q.toNat < (s.vi s.cx.it.vi).tqn ∧ q.toNat < 64
    (¬ mine → ∃ t, exec i s = .next t ∧ PreciseTrap s t .y 0x08 q 0)
    ∧ (mine → ∃ t, exec i s = .next t ∧ OnlyCx s t { s.cx with yfly := some (.tq send q.toNat (if send then readS s 3 w.b.toNat else 0)
        w.d.toNat (if send then 0 else w.b.toNat) w.f.toNat s.cycle (s.cycle + 150)), yseq := s.cur.seq }))
  ∧ ∀ (s : State) (send : Bool) (q : Nat) (v : W64) (d b tmo start at' : Nat), s.cx.yfly = some (.tq send q v d b tmo start at') →
    (∀ r ∈ [d, b], lineUsePending s.cx { QEntry.none with seq := (s.cx.lineSeq - 1) * 8 } r = false) →
    let vi := s.vi s.cx.it.vi
    let k := vi.tqbase + q
    let r := attemptOf (Tab.get [] s.tqs k) (Tab.get 0 vi.depth q) send v
    let late := tmo = 0 ∨ tmo < 63 ∧ start + 2 ^ tmo ≤ s.cycle
    let fin : Option (Nat × W64) :=
      if r.1 ≠ 4 then some (r.1, r.2.1) else if late then some (1, 0) else if s.cx.yieldReq || s.cx.due.isSome then some (3, 0) else none
    ∃ t, exec .tokenQueueAttempt s = .next t
      ∧ t = { s with cx := t.cx, tqs := t.tqs, fresh := t.fresh }
      ∧ (∀ n, Tab.get [] t.tqs n = if n = k then r.2.2 else Tab.get [] s.tqs n)
      ∧ (fin = none → t.cx = { s.cx with yfly := some (.tq send q v d b tmo start (s.cycle + 278)) })
      ∧ ∀ st e, fin = some (st, e) → t.cx.yfly = none
        ∧ (∀ n < 64, t.cx.rs n = if n ≠ 0 ∧ n = d then (if send then BitVec.ofNat 64 st else e)
            else if n ≠ 0 ∧ send = false ∧ n = b then BitVec.ofNat 64 st else s.cx.rs n)
        ∧ SameButMeets { s.cx with yfly := none, s := t.cx.s } t.cx
/-! ### Translation and generations -/

namespace Sys2Proof.Claims

open Sys2Proof.Machine

/-- A register value names an ASID of the running iteration's VI (R53, R298). -/
def OwnAsid (s : State) (v : W64) : Prop :=
  v.toNat < 4096 ∧ (s.vi s.cx.it.vi).asidbase ≤ v.toNat ∧ v.toNat < (s.vi s.cx.it.vi).asidbase + (s.vi s.cx.it.vi).asidn
/-- The result of a probe (R300): the cause of the first check that fails, or the page size and the physical address. -/
def probeValue (s : State) (die core asid : Nat) (gen : BitVec 16) (kind : AccessKind) (a : W64) : W64 :=
  if 2 ^ 57 ≤ a.toNat then 3
  else if gen ≠ (s.asid asid).gen then 4
  else match translate s die core asid gen kind false a.toNat with
    | .error c => if c = 0x08 then 2 else 1
    | .ok pa =>
      let size := match leafOf s die core asid gen a.toNat with
        | .ok l => l.size
        | .error _ => 2 ^ 16
      let code := if size = 2 ^ 16 then 0 else if size = 2 ^ 21 then 1 else if size = 2 ^ 29 then 2 else 3
      BitVec.ofNat 64 (2 ^ 63 + 2 ^ 60 * code + pa)
/-- The kinds of yprobe (R298). -/
def probeKind (n : Nat) : AccessKind :=
  match n with
  | 0 => .rd
  | 1 => .wr
  | 2 => .ex
  | _ => .rw
/-- A new root is legal (R301). -/
def RootLegal (s : State) (r : W64) : Prop := r.extractLsb' 50 14 = 0 ∧ r.extractLsb' 0 15 = 0 ∧ paOk s r.toNat 32768 = true
/-- An advance has reached the hub (R301): it stands behind the advances of its ASID that have reached it before. No other entry of the
table changes. -/
def Reaches (s t : State) (asid : Nat) (w : Advance) : Prop :=
  (t.asid asid).queue = (s.asid asid).queue ++ [w] ∧ ∀ k, k ≠ asid → t.asid k = s.asid k
/-- An advance of an ASID has started (R297): its table entry has the next generation and the new root, if one is given; the old
generation is remembered; every controller and fabric port has yet to adopt it. -/
def Advancing (s t : State) (asid : Nat) (root : Option W64) : Prop :=
  (t.asid asid).gen = (s.asid asid).gen + 1 ∧ (t.asid asid).old = (s.asid asid).gen
    ∧ (t.asid asid).root = root.getD (s.asid asid).root
    ∧ ∀ k, k ∈ (t.asid asid).pending ↔ k = advanceMark ∨ k < 2070

end Sys2Proof.Claims

/-- R298 to R301, R405: ytlbi drops the cached translations of its address space, or those that map its address, and no other; yprobe reports the
translation and may fill the caches; ygen requests an advance of an address space of its VI, performed one at a time in the order of reaching the hub, holds delivery until it has
completed, and writes the new generation; another ASID, or an illegal root, traps precisely with nothing changed. -/
def Sys2Proof.Claims.TranslationInstructions : Prop :=
  open Sys2Proof Sys2Proof.Machine Sys2Proof.Claims in
  (∀ (w : FR) (s : State), YReady s w.g [w.a, w.b] [] →
    let a := readS s 0 w.a.toNat
    let va := (readS s 3 w.b.toNat).toNat % 2 ^ 57
    (¬ OwnAsid s a → ∃ t, exec (.ytlbi w) s = .next t ∧ PreciseTrap s t .y 0x08 a 0)
    ∧ (OwnAsid s a → ∃ t, exec (.ytlbi w) s = .next t ∧ MemSame s t ∧ t = { s with xlat := t.xlat, fresh := t.fresh }
        ∧ t.xlat.Sublist s.xlat ∧ ∀ e ∈ s.xlat, e ∈ t.xlat ↔ ¬ (e.asid = a.toNat ∧ (w.b = 0 ∨ e.va ≤ va ∧ va < e.va + e.size))))
  ∧ (∀ (w : FR) (s : State), YReady s w.g [w.a] [w.d] →
    let c := s.cx
    let v := probeValue s c.id.die c.id.coreKey c.it.asid c.it.gen (probeKind w.b.toNat) (readS s 0 w.a.toNat)
    ∃ t, exec (.yprobe w) s = .next t ∧ Wrote s.cx t.cx w.d.toNat v ∧ MemSame s t ∧ t = { s with cx := t.cx, xlat := t.xlat, fresh := t.fresh })
  ∧ ∀ (w : FR) (s : State), YReady s w.g [w.a, w.b] [w.d] →
    let a := readS s 0 w.a.toNat
    let r := readS s 3 w.b.toNat
    (∀ x g, s.cx.yfly = some (.gen x g) →
      (g < 65536 → Waits (.ygen w) s)
      ∧ (65536 ≤ g → ∃ t, exec (.ygen w) s = .next t ∧ YResult s t { s.cx with yfly := none } w.d (BitVec.ofNat 64 (g % 65536))))
    ∧ (s.cx.yfly = none →
      (¬ OwnAsid s a → ∃ t, exec (.ygen w) s = .next t ∧ PreciseTrap s t .y 0x08 a 0)
      ∧ (OwnAsid s a → w.b ≠ 0 → ¬ RootLegal s r → ∃ t, exec (.ygen w) s = .next t ∧ PreciseTrap s t .y 0x03 0 0)
      ∧ (OwnAsid s a → (w.b = 0 ∨ RootLegal s r) →
          let root := if w.b = 0 then none else some r
          ∃ t, exec (.ygen w) s = .next t ∧ MemSame s t
            ∧ t = { s with asTab := t.asTab, fresh := t.fresh, cx := { s.cx with
                yq := s.cur :: s.cx.yq, yfly := some (.gen a.toNat 0), yseq := s.cur.seq } }
            ∧ Reaches s t a.toNat ⟨some s.cx.id, s.cx.it.vi, root⟩
            ∧ if advanceMark ∈ (s.asid a.toNat).pending then t.asid a.toNat = { s.asid a.toNat with queue := (t.asid a.toNat).queue }
              else Advancing s t a.toNat root))

/-! ### Saves and restores -/

namespace Sys2Proof.Claims

open Sys2Proof.Machine

/-- The 64-bit word at a byte offset of a little-endian value. -/
def wordIn (v o : Nat) : Nat := v / 2 ^ (8 * o) % 2 ^ 64
/-- The save area of a context holds what R402 and R403 lay down: kind, PC, node, size, VMODE, every scalar and address register,
the counters, every live vector register and predicate, and the image of every live range. -/
def AreaHolds (v : Nat) (s : State) (c : Ctx) : Prop :=
  wordIn v 0 % 256 = 0x40 ∧ wordIn v 0x08 = (nextPc c).toNat ∧ wordIn v 0x10 = c.it.nodeVa.toNat
    ∧ wordIn v 0x20 = areaSize s c % 2 ^ 64 ∧ wordIn v 0x30 = (crValue c c.pc 4).toNat
    ∧ (∀ n < 64, wordIn v (0x200 + 8 * n) = (c.rs n).toNat)
    ∧ (∀ n < 32, wordIn v (0x400 + 8 * n) = (c.a.getD n 0).toNat)
    ∧ (∀ k < 8, wordIn v (0x900 + 8 * k) = (c.perf.getD k 0).toNat)
    ∧ (∀ r ∈ liveV c, v / 2 ^ (8 * (0x3000 + 256 * r)) % 2 ^ 1024 = (c.v.getD r VReg.zero).d.toNat
        ∧ v / 2 ^ (8 * (0x3000 + 256 * r + 128)) % 2 ^ 32 = (c.v.getD r VReg.zero).sc.toNat)
    ∧ (∀ p ∈ liveP c, v / 2 ^ (8 * (0x6000 + 16 * p)) % 2 ^ 128 = (c.p.getD p 0).toNat)
    ∧ ∀ m ∈ liveRanges c, ∀ (j k : Nat), (scratchKeys s (ownSid c.id) ((c.khd.range m).row * 128) ((c.khd.range m).nrow * 128))[j]? = some k →
        v / 2 ^ (8 * (wordIn v (0x9C0 + 8 * m) + j)) % 2 ^ 8 = (homeByte s k).toNat
/-- What a context holds fits its area. -/
def AreaFits (c : Ctx) (caps : List Captured) : Prop :=
  c.tokens.length ≤ 4 ∧ caps.length ≤ 16 ∧ (∀ k < 8, (c.lports.getD k []).length ≤ 8 ∧ (c.sports.getD k []).length ≤ 8)
    ∧ ∀ r ∈ c.khd.ranges, r.nrow < 2 ^ 32

/-- An area at an address can be accessed: each 64-byte unit, and the whole, resolves to keys. -/
def AreaAt (s : State) (kind : AccessKind) (a : W64) (n : Nat) (ks : List Nat) : Prop :=
  (∀ k < n / 64, ∃ us, resolve s s.cx kind false false (a + BitVec.ofNat 64 (64 * k)) 64 64 = .ok us)
    ∧ resolve s s.cx kind false false a n 64 = .ok ks
/-- The address of an area is legal (R410, R411). -/
def areaCause (a : W64) : Option Nat :=
  if a.extractLsb' 60 4 ≠ 0 then some 0x06 else if a.extractLsb' 0 16 ≠ 0 then some 0x0A else none

/-- Slots of the context's array that it owns are free, and no other slot of any context's array has changed. -/
def SlotsReleased (s t : State) (c : CtxId) : Prop :=
  ∀ n < 4, slotAt t c n = if (slotAt s c n).owner = some c then MSlot.free else slotAt s c n

/-- The registers, controls and place of a context are those of an area (R404 step 4). -/
def FromArea (v : Nat) (d : Ctx) : Prop :=
  (∀ n < 64, d.rs n = if n = 0 then 0 else BitVec.ofNat 64 (wordIn v (0x200 + 8 * n)))
    ∧ (∀ n < 32, d.a.getD n 0 = BitVec.ofNat 64 (wordIn v (0x400 + 8 * n)))
    ∧ (∀ r < 48, d.v.getD r VReg.zero = if v / 2 ^ (8 * (0x3000 + 256 * r + 133)) % 2 = 1 then
          ⟨BitVec.ofNat 1024 (v / 2 ^ (8 * (0x3000 + 256 * r))), BitVec.ofNat 32 (v / 2 ^ (8 * (0x3000 + 256 * r + 128)))⟩
        else ⟨0, 0x3F800000⟩)
    ∧ (∀ p < 16, d.p.getD p 0 = if v / 2 ^ (8 * 0x6110 + p) % 2 = 1 then BitVec.ofNat 128 (v / 2 ^ (8 * (0x6000 + 16 * p))) else 0)
    ∧ d.depth = wordIn v 0 / 2 ^ 16 % 8
    ∧ d.rrb = BitVec.ofNat 5 (wordIn v 0x28) ∧ d.vdep = BitVec.ofNat 6 (wordIn v 0x28 / 2 ^ 8) ∧ d.pdep = BitVec.ofNat 4 (wordIn v 0x28 / 2 ^ 16)
    ∧ d.rm = BitVec.ofNat 2 (wordIn v 0x30) ∧ d.ten = BitVec.ofNat 5 (wordIn v 0x30 / 2 ^ 4) ∧ d.flg = BitVec.ofNat 5 (wordIn v 0x30 / 2 ^ 16)
    ∧ (∀ k < 8, d.perf.getD k 0 = BitVec.ofNat 64 (wordIn v (0x900 + 8 * k)))
    ∧ d.resume.map (·.pc) = some (BitVec.ofNat 64 (wordIn v 0x08))

/-- The size that an area gives itself, no less than its fixed part. -/
def areaBytes (v : Nat) : Nat := max 0x10800 (wordIn v 0x20)

/-- A saved iteration may come back in a context now (R65, R404). -/
def MayReturn (s : State) (v : Saved) : Prop :=
  s.saved[s.sub.a]? = some v ∧ restorable s v s.sub.ctx = true
    ∧ (v.ctx.id.bvc = true ∨ isFirst s s.sub.ctx (savedRank s v) = true)
/-- The machine as seen by the iteration that comes back. -/
def comingBack (s : State) (v : Saved) : State :=
  { s with cx := { v.ctx with id := s.sub.ctx, has := true, it := { v.ctx.it with restored := true, dispatched := s.nextId } }, parked := s.ctxs }
/-- The save slot of an iteration has become free. -/
def SlotFreed (s t : State) (v : Saved) : Prop :=
  t.saved = s.saved.erase v ∧ (t.vi v.vi).saveuse = (s.vi v.vi).saveuse - 1
/-- A saved iteration has come back whole (R404): its context holds what the area says, and its save slot is free. -/
def Returned (s t : State) (v : Saved) (area : Nat) : Prop :=
  t.cx.id = s.sub.ctx ∧ t.cx.has = true ∧ t.cx.it = { v.ctx.it with restored := true, dispatched := s.nextId } ∧ t.cx.khd = v.ctx.khd
    ∧ FromArea area t.cx ∧ SlotFreed s t v

end Sys2Proof.Claims

/-- R401 to R403, R410: ysave first captures the operations in flight, waits until what it waits for is done (a condition recorded
meanwhile becomes its trap), and writes the context's area at its
address, or nothing when it exceeds the limit; it returns the size or 0, and the context goes on with its slots and lease. An address that may
not hold an area traps precisely. -/
def Sys2Proof.Claims.SoftwareSavesWriteTheArea : Prop :=
  open Sys2Proof Sys2Proof.Machine Sys2Proof.Claims in
  ∀ (w : FR) (s : State), s.Ok → YReady s w.g [w.a, w.b] [w.d] →
    let a := readS s 0 w.a.toNat
    let c := { s.cx with nxt := none, pc := s.cur.line, inLine := true }
    (∀ x, areaCause a = some x → ∃ t, exec (.ysave w) s = .next t ∧ PreciseTrap s t .y x a 0)
    ∧ (areaCause a = none →
      (s.cx.caps = none → onlyY s.cx = false ∨ lineActed s.cx w.d.toNat = false → Waits (.ysave w) s)
      ∧ (s.cx.caps = none → onlyY s.cx = true → lineActed s.cx w.d.toNat = true →
          exec (.ysave w) s = .next { s with cx := { s.cx with caps := some (capture s.cx (s.cycle + 1)), yq := s.cur :: s.cx.yq } })
      ∧ ∀ caps, s.cx.caps = some caps →
        (∀ p, s.cx.pend = some p → s.cx.due = none →
          ∃ t, exec (.ysave w) s = .next t ∧ t.cx.due = some p ∧ t.cx.mode = .ended ∧ OnlyCx s t t.cx)
        ∧ (s.cx.pend = none → saveDrained s = false → Waits (.ysave w) s)
        ∧ (s.cx.pend = none → saveDrained s = true →
          ((readS s 3 w.b.toNat).toNat < areaSize s c → ∃ t, exec (.ysave w) s = .next t ∧ YResult s t { s.cx with caps := none } w.d 0)
          ∧ ∀ ks, areaSize s c ≤ (readS s 3 w.b.toNat).toNat → AreaAt s .wr a (areaSize s c) ks → AreaFits c caps →
            ∃ t v, exec (.ysave w) s = .next t ∧ Wrote { s.cx with caps := none } t.cx w.d.toNat (BitVec.ofNat 64 (areaSize s c))
              ∧ AreaHolds v s c ∧ Stored s t ks (bytesOf (areaSize s c) v)
              ∧ t.garr = s.garr ∧ t.darr = s.darr ∧ t.saved = s.saved ∧ t.vis = s.vis))

/-- R400 to R403: at a boundary with a yield asked for, a save that fits captures the operations in flight; one that no longer fits is withdrawn; a
recorded condition turns it into its trap; once all has drained the area is written to the lowest free slot of the VI, the context is
free, its slots are released and its lease has ended, and SAVEUSE has risen by 1. -/
def Sys2Proof.Claims.BoundarySavesFreeTheContext : Prop :=
  open Sys2Proof Sys2Proof.Machine Sys2Proof.Claims in
  ∀ s : State, s.Ok → s.cx.has = true → s.cx.mode = .boundary → queuesEmpty s.cx = true →
    (s.cx.caps = none → s.cx.yieldReq = true →
      (saveFits s s.cx = false → exec .save s = .next { s with cx := { s.cx with yieldReq := false } })
      ∧ (saveFits s s.cx = true → s.cx.id.prof = .b → s.cx.ncx ≠ 0 → exec .save s = .next { s with blk := true })
      ∧ (saveFits s s.cx = true → s.cx.id.prof ≠ .b ∨ s.cx.ncx = 0 →
          exec .save s = .next { s with cx := { s.cx with caps := some (capture s.cx (max (s.cx.lastIssue + 1) s.cycle)) } }))
    ∧ ∀ caps, s.cx.caps = some caps →
      (∀ p, s.cx.pend = some p → s.cx.due = none → ∃ t, exec .save s = .next t ∧ t.cx.due = some p ∧ t.cx.mode = .ended ∧ OnlyCx s t t.cx)
      ∧ (s.cx.pend = none → saveDrained s = false → exec .save s = .next { s with blk := true })
      ∧ (s.cx.pend = none → saveDrained s = true → ∀ slot ks, freeSaveSlot s s.cx.it.vi = some slot →
          let a := saveSlotAt (s.vi s.cx.it.vi) slot
          let c := { s.cx with caps := none, perf := s.cx.perf.setIfInBounds 7 (s.cx.perf.getD 7 0 + 1) }
          AreaAt s .wr a (areaSize s s.cx) ks → AreaFits s.cx caps →
          ∃ t v, exec .save s = .next t ∧ AreaHolds v s c ∧ Stored s t ks (bytesOf (areaSize s s.cx) v)
            ∧ t.cx = Ctx.idle s.cx.id ∧ SlotsReleased s t s.cx.id ∧ leaseOf t s.cx.id = none
            ∧ (t.vi s.cx.it.vi).saveuse = (s.vi s.cx.it.vi).saveuse + 1
            ∧ ∃ x, t.saved = s.saved ++ [x] ∧ x.vi = s.cx.it.vi ∧ x.slot = slot ∧ x.ctx.it = s.cx.it ∧ x.ctx.khd = s.cx.khd ∧ x.ctx.id = s.cx.id)

/-- R400 to R403, R410: saves by ysave and at a boundary, each as its part says. -/
def Obligations.ContextsAreSaved : Prop :=
  Sys2Proof.Claims.SoftwareSavesWriteTheArea
    ∧ Sys2Proof.Claims.BoundarySavesFreeTheContext

/-- R373, R404, R411: yrest releases the slots of the context, loads the area at its address into it and arms the resume record, once the counters are
0 and no other owner holds its slots or banks; one whose area does not suit it traps with nothing changed. A saved iteration that may come back in a
context, a midnight iteration also only when the foreground demand has been calm, comes back with what its area holds and frees its slot; one
whose area cannot be read ends, and frees its slot too. -/
def Obligations.RestoresBringTheContextBack : Prop :=
  open Sys2Proof Sys2Proof.Machine Sys2Proof.Claims in
  (∀ (w : FR) (s : State), YReady s w.g [w.a] [] →
    let a := readS s 0 w.a.toNat
    (∀ x, areaCause a = some x → ∃ t, exec (.yrest w) s = .next t ∧ PreciseTrap s t .y x a 0)
    ∧ ∀ k0 ks, areaCause a = none → AreaAt s .rd a 0x10800 k0 → AreaAt s .rd a (areaBytes (homeNat s k0)) ks →
      let v := homeNat s ks
      (areaFits s v = false → ∃ t, exec (.yrest w) s = .next t ∧ PreciseTrap s t .y 0x03 0 0)
      ∧ (areaFits s v = true → (s.cx.ncl ≠ 0 ∨ s.cx.ncs ≠ 0 ∨ s.cx.ncx ≠ 0 ∨ s.cx.ncm ≠ 0) → Waits (.yrest w) s)
      ∧ (areaFits s v = true → s.cx.ncl = 0 → s.cx.ncs = 0 → s.cx.ncx = 0 → s.cx.ncm = 0 → restoreWaits s s.cx v = true →
          ∃ t, exec (.yrest w) s = .next t ∧ SlotsReleased s t s.cx.id
            ∧ t = { s with cx := { s.cx with yq := s.cur :: s.cx.yq }, garr := t.garr, darr := t.darr })
      ∧ (areaFits s v = true → s.cx.ncl = 0 → s.cx.ncs = 0 → s.cx.ncx = 0 → s.cx.ncm = 0 → restoreWaits s s.cx v = false →
          (∀ x ∈ areaSlots v, v / 2 ^ (8 * x.2 + 8) % 2 = 0) →
          ∃ t, exec (.yrest w) s = .next t ∧ FromArea v t.cx ∧ t.cx.id = s.cx.id ∧ t.cx.it = s.cx.it ∧ t.cx.khd = s.cx.khd
            ∧ t.cx.pc = s.cx.pc ∧ t.cx.line = s.cx.line ∧ t.saved = s.saved ∧ t.vis = s.vis))
  ∧ ∀ (s : State) (v : Saved), MayReturn s v →
    let i : Instr := if v.ctx.id.bvc then .midnightRestore else .restore
    let u := comingBack s v
    let a := saveSlotAt (s.vi v.vi) v.slot
    (v.ctx.id.bvc = true → midnightCalm s v = true) →
    (∀ e, areaFault u .rd a 0x10800 = some e → ∃ t, exec i s = .next t ∧ SlotFreed s t v ∧ t.cx = Ctx.idle s.sub.ctx)
    ∧ ∀ k0 ks, AreaAt u .rd a 0x10800 k0 → AreaAt u .rd a (areaBytes (homeNat u k0)) ks →
      (restoreWaits s u.cx (homeNat u ks) = true → exec i s = .next { s with blk := true })
      ∧ (restoreWaits s u.cx (homeNat u ks) = false → (∀ x ∈ areaSlots (homeNat u ks), homeNat u ks / 2 ^ (8 * x.2 + 8) % 2 = 0) →
          ∃ t, exec i s = .next t ∧ Returned s t v (homeNat u ks))

/-! ### Lines, traps, turns and leases -/

namespace Sys2Proof.Claims

open Sys2Proof.Machine

/-- A slot holds a control transfer or a loop instruction of the C stream (R95, R113). -/
def turns (l : Line) (k : Nat) : Bool :=
  slotCode l k == 1 && [1, 2, 3, 4, 5, 6, 7, 8, 9, 10, 11, 13, 26, 27].contains ((l.getD k 0).extractLsb' 26 6).toNat
/-- A slot is illegal by the table of R98. -/
def SlotBad (l : Line) (k : Nat) : Prop :=
  8 < slotCode l k ∨ (slotCode l k = 0 ∧ l.getD k 0 ≠ 0)
    ∨ (slotCode l k = 8 ∧ ∀ j, 1 ≤ j → j < k → slotCode l j = 0 ∨ 8 ≤ slotCode l j)
    ∨ (turns l k = true ∧ ∃ j, 1 ≤ j ∧ j < k ∧ turns l j = true)

/-- A trap with line precision has been taken (R392): nothing is delivered, every queue is empty, nothing else has changed. -/
def LineTrapped (s t : State) (line : W64) (cause slot : Nat) (addr : W64) (code : Nat) : Prop :=
  (s.cx.due = none → s.cx.pend = none → t.cx.due = some ⟨cause, line, slot, addr, 0, code, true⟩)
    ∧ (∀ p, s.cx.due = none → s.cx.pend = some p → t.cx.due = some p)
    ∧ (s.cx.due = none → t.cx.mode = .ended ∧ t.cx.sq = [] ∧ t.cx.vq = [] ∧ t.cx.mq = [] ∧ t.cx.xq = [] ∧ t.cx.aq = [] ∧ t.cx.yq = [])
    ∧ t.cx.s = s.cx.s ∧ t.cx.a = s.cx.a ∧ t.cx.v = s.cx.v ∧ t.cx.p = s.cx.p ∧ t.cx.inflight = s.cx.inflight ∧ MemSame s t

/-- The line that follows in the order of delivery (R95, R96). -/
def following (c : Ctx) : W64 := if c.inLine then c.nxt.getD (c.pc + 32) else c.pc
/-- The context turned to the line to be fetched (R95, R123). -/
def turned (s : State) : Ctx :=
  let c := s.cx
  if c.inLine then
    let far := c.nxt.isSome && !c.replay.any (·.1 == following c)
    let start := if far then max (c.nextIss.getD 0 0) (s.cycle + 2) else c.nextIss.getD 0 0
    { c with pc := following c, nxt := none, inLine := false, line := none, nextIss := c.nextIss.setIfInBounds 0 start }
  else c
/-- The machine turned to the line to be fetched. -/
def turnedState (s : State) : State := { s with cx := turned s }
/-- The line at an address that the replay buffer holds in decoded form, or else the instruction cache (R115, R123). -/
def heldLine (s : State) (a : W64) : Option Line := ((s.cx.replay.find? (·.1 == a)).map (·.2)).or (cachedLine s a)

/-- The entries of a line that take effect in a counter (R142). -/
def counted (es : List (Stream × QEntry)) (k : Nat) : Nat := (es.filter fun e => countsIn e == some k).length
/-- The C entries of a line in the order in which they act: transfers after the others, cede at the end of the line (R95, R150). -/
def inLineOrder (es : List (Stream × QEntry)) : List QEntry :=
  let cs := (es.filter fun e => e.1 == .c).map (·.2)
  cs.filter (fun e => !([9, 11, 26, 27, 28].contains (e.word.extractLsb' 26 6).toNat))
    ++ cs.filter (fun e => [9, 11, 26, 27].contains (e.word.extractLsb' 26 6).toNat)
    ++ cs.filter fun e => (e.word.extractLsb' 26 6).toNat == 28
/-- A legal line has been delivered (R94, R123, R142). -/
def LineDelivered (s t : State) (l : Line) : Prop :=
  let es := entriesOf s.cx s.cycle l
  OnlyCx s t { s.cx with
    cq := inLineOrder es, sq := t.cx.sq, vq := t.cx.vq, mq := t.cx.mq, xq := t.cx.xq, aq := t.cx.aq, yq := t.cx.yq
    ncl := s.cx.ncl + counted es 0, ncs := s.cx.ncs + counted es 1, ncx := s.cx.ncx + counted es 2, ncm := s.cx.ncm + counted es 3
    inLine := true, last := (l.getD 0 0).getLsbD 28, hold := (l.getD 0 0).getLsbD 29, nxt := none, lineSeq := s.cx.lineSeq + 1
    replay := t.cx.replay, dline := s.cx.pc, wd := 0, resume := t.cx.resume, perf := s.cx.perf.setIfInBounds 1 (s.cx.perf.getD 1 0 + 1), nextIss := t.cx.nextIss }
    ∧ (∀ st, st ≠ .c → t.cx.queue st = s.cx.queue st ++ (es.filter fun e => e.1 == st).map (·.2))
    ∧ t.cx.replay.head? = some (s.cx.pc, l) ∧ t.cx.replay.length ≤ 64

/-- The trap record (R395); the time is the hub's. -/
def recordWords (s : State) (t : TrapInfo) (more : Bool) (time : W64) : List W64 :=
  let c := s.cx
  [BitVec.ofNat 64 (t.cause + 2 ^ 8 * t.prec.toNat + 2 ^ 9 * t.slot + 2 ^ 12 * t.st + 2 ^ 16 * more.toNat + 2 ^ 17 * c.id.ctx
      + 2 ^ 18 * (s.pkg.pkgnum.toNat * 8 + c.id.die) + 2 ^ 29 * c.id.core + 2 ^ 38 * c.it.vi + 2 ^ 44 * t.code + 2 ^ 56 * c.id.bvc.toNat),
   t.line, t.addr, if c.nxt.isSome then c.nxt.getD 0 else if c.inLine then c.pc + 32 else c.pc, c.it.nodeVa,
   BitVec.ofNat 64 (c.it.ord % 2 ^ 48), time, 0]
/-- The regions after a node of region rid has failed with a status (R31, R36, R37); one that has not started notes the fault domain. -/
def regionsFailed (s : State) (rid status : Nat) (at' : W64) : List Region :=
  s.regions.map fun r =>
    if r.rid = rid then
      if r.completed then r
      else if r.status = 0 ∨ (r.status = 5 ∧ status < 5) then { r with stopped := true, status := status, failAt := at' }
      else { r with stopped := true }
    else match s.region? rid with
      | none => r
      | some f =>
        if r.vi ≠ f.vi ∨ r.completed = true then r
        else if r.started = false ∧ r.status = 0 then { r with halted := f.fdom :: r.halted }
        else if r.fdom = f.fdom then { r with stopped := true, status := if r.status = 0 then 6 else r.status }
        else r
/-- The iteration of the focused context has ended by a trap (R394 steps 4 and 5, R396): the record stands in the log of its VI, or is counted as
lost, the context is free, and its node has failed with FAULT. -/
def TrapTaken (s t : State) (f : TrapInfo) : Prop :=
  let v := s.vi s.cx.it.vi
  let a := v.trapbase + BitVec.ofNat 64 (64 * v.trapcnt.toNat)
  (∀ ks, v.trapcnt.toNat < v.trapn → resolve s s.cx .wr false false a 64 64 = .ok ks →
      t.vi s.cx.it.vi = { v with trapcnt := v.trapcnt + 1 }
      ∧ ∃ time, Stored s t ks ((recordWords s f s.cx.more time).flatMap fun w => (List.range 8).map fun i => w.extractLsb' (8 * i) 8))
    ∧ (v.trapn ≤ v.trapcnt.toNat ∨ (∃ e, resolve s s.cx .wr false false a 64 64 = .error e) →
      t.vi s.cx.it.vi = { v with traplost := v.traplost + 1 } ∧ MemSame s t)
    ∧ t.cx = Ctx.idle s.cx.id ∧ t.parked = s.parked ∧ SlotsReleased s t s.cx.id ∧ leaseOf t s.cx.id = none
    ∧ t.nodes = s.nodes.map (fun n => if n.nid = s.cx.it.nid then { n with exited := n.exited + 1 } else n)
    ∧ t.regions = regionsFailed s s.cx.it.rid 3 s.cx.it.nodeVa

/-- The request that an array grants next (R70): an urgent one, oldest first; else one within its share, by priority, then age; else by
priority, then age. The share of a region is also a part of the share of each region above it (R34). -/
def NextGrant (s : State) (g : GArray) (r : LReq) : Prop :=
  let share (q : LReq) : Prop := ∀ p ∈ lineage s q.rid, (g.grants.filter fun x => (lineage s x).contains p).length < ((s.region? p).map (·.lease)).getD 0
  let before (q : LReq) : Prop := q.prio < r.prio ∨ q.prio = r.prio ∧ r.at' ≤ q.at'
  r ∈ g.reqs ∧
    ((8 ≤ r.passed ∧ ∀ q ∈ g.reqs, 8 ≤ q.passed → r.at' ≤ q.at')
      ∨ ((∀ q ∈ g.reqs, q.passed < 8) ∧ share r ∧ ∀ q ∈ g.reqs, share q → before q)
      ∨ ((∀ q ∈ g.reqs, q.passed < 8 ∧ ¬ share q) ∧ ∀ q ∈ g.reqs, before q))
/-- Only the lease of one great array has changed. -/
def LeaseBecomes (s t : State) (k : Nat) (l : Option Lease) : Prop :=
  t = { s with garr := t.garr } ∧ (∀ j, t.great j = if j = k then { s.great j with lease := l } else s.great j)
/-- The lease has reached a limit of R254. -/
def AtLimit (s : State) (l : Lease) : Prop := l.ending = true ∨ 16 ≤ l.cmds ∨ l.at' + 4096 ≤ s.cycle

end Sys2Proof.Claims

/-- R91, R92, R95, R96, R98, R115, R123: the line that follows is fetched, from the replay buffer, the core's instruction cache or memory under the region's address space: the
target of a taken transfer, else the next line. A fetch that faults is the precise trap of its cause at the line, a fall-through past a LAST line the
illegal-line trap at slot 0. A line is illegal just when its header's top bits or one of its slots are so by the table of R98, and the lowest
such slot is the one reported. -/
def Sys2Proof.Claims.LinesAreFetched : Prop :=
  open Sys2Proof Sys2Proof.Machine Sys2Proof.Claims in
  (∀ s : State, canFetch s = true → (s.cx.resume = none ∨ s.cx.inLine = true) →
    let u := turnedState s
    let pc := following s.cx
    (s.cx.inLine = true → s.cx.nxt = none → s.cx.last = true →
      ∃ t, exec .lineFetch s = .next t ∧ LineTrapped s t s.cx.pc 0x01 0 0 0)
    ∧ (¬ (s.cx.inLine = true ∧ s.cx.nxt = none ∧ s.cx.last = true) →
      (∀ l, heldLine u pc = some l → exec .lineFetch s = .next { s with cx := { turned s with line := some l } })
      ∧ (heldLine u pc = none →
        (∀ ks, resolve u u.cx .ex false false pc 32 32 = .ok ks → fencedKeys s s.cx.id.die ks = false →
          ∃ t, exec .lineFetch s = .next t ∧ MemSame s t ∧ t.cx = { turned s with
            line := some ((List.range 8).map fun k => BitVec.ofNat 32 (homeNat s ks / 2 ^ (32 * k))) })
        ∧ ∀ e, resolve u u.cx .ex false false pc 32 32 = .error e →
          ∃ t, exec .lineFetch s = .next t ∧ LineTrapped s t pc e 0 pc 0)))
  ∧ (∀ l : Line, illegalLine l = none ↔ (l.getD 0 0).extractLsb' 30 2 = 0 ∧ ∀ k, 1 ≤ k → k ≤ 7 → ¬ SlotBad l k)
  ∧ ∀ (l : Line) (k : Nat), illegalLine l = some k ↔
      (k = 0 ∧ (l.getD 0 0).extractLsb' 30 2 ≠ 0)
      ∨ ((l.getD 0 0).extractLsb' 30 2 = 0 ∧ 1 ≤ k ∧ k ≤ 7 ∧ SlotBad l k ∧ ∀ j, 1 ≤ j → j < k → ¬ SlotBad l j)

/-- R92, R94, R98, R99, R123, R133, R142: a fetched line that nothing holds is checked whole: an illegal one and one with a slot that fails its check
trap precisely with no slot delivered; a legal one whose queues have room is delivered to its streams' queues in slot order and counted;
without room it waits. In the body of a loop of count 0 a line is passed over, with loop slots counted up and lend slots down, until the
count falls below 0. -/
def Sys2Proof.Claims.LinesAreDelivered : Prop :=
  open Sys2Proof Sys2Proof.Machine Sys2Proof.Claims in
  ∀ (s : State) (l : Line), canDeliver s = true → s.cx.line = some l →
    (∀ k, illegalLine l = some k → ∃ t, exec .lineDelivery s = .next t
      ∧ LineTrapped s t s.cx.pc 0x01 k 0 (if k = 0 then 0 else slotCode l k))
    ∧ (s.cx.skip = none → illegalLine l = none →
      (∀ k c, firstBad s.cx l = some (k, c) → ∃ t, exec .lineDelivery s = .next t ∧ LineTrapped s t s.cx.pc c k 0 (slotCode l k))
      ∧ (firstBad s.cx l = none → roomFor s.cx (entriesOf s.cx s.cycle l) = true →
          ∃ t, exec .lineDelivery s = .next t ∧ LineDelivered s t l)
      ∧ (firstBad s.cx l = none → roomFor s.cx (entriesOf s.cx s.cycle l) = false → exec .lineDelivery s = .next { s with blk := true }))
    ∧ ∀ n : Nat, s.cx.skip = some n → illegalLine l = none →
      let loops := ((lineSlots l).filter fun q => q.st == .c && (q.word.extractLsb' 26 6).toNat == 8).length
      let lends := ((lineSlots l).filter fun q => q.st == .c && (q.word.extractLsb' 26 6).toNat == 9).length
      ((l.getD 0 0).getLsbD 28 = false → exec .lineDelivery s = .next { s with cx := { s.cx with
          pc := s.cx.pc + 32, line := none, skip := if n + loops < lends then none else some (n + loops - lends)
          nextIss := s.cx.nextIss.setIfInBounds 0 (s.cycle + 1) } })
      ∧ ((l.getD 0 0).getLsbD 28 = true → ∃ t, exec .lineDelivery s = .next t ∧ LineTrapped s t s.cx.pc 0x01 0 0 0)

/-- R91 to R98, R115, R123, R133, R142: a line is fetched, checked and delivered, each as its part says. -/
def Obligations.LinesAreFetchedAndDelivered : Prop :=
  Sys2Proof.Claims.LinesAreFetched
    ∧ Sys2Proof.Claims.LinesAreDelivered

/-- R394 to R397: once everything that was issued has completed, a trap ends its iteration: the record is written to the log of the VI, or counted as
lost, the context ends as at exit and its node fails with FAULT; until then it waits. A context that has delivered no line for its
watchdog's limit takes the watchdog trap at the last delivered line. -/
def Sys2Proof.Claims.TrapsEndTheIteration : Prop :=
  open Sys2Proof Sys2Proof.Machine Sys2Proof.Claims in
  (∀ (s : State) (f : TrapInfo), s.Ok → s.cx.due = some f →
    (trapReady s = true → ∃ t, exec .trap s = .next t ∧ TrapTaken s t f)
    ∧ (trapReady s = false → exec .trap s = .next { s with blk := true }))
  ∧ ∀ s : State, s.cx.has = true → s.cx.due = none → s.cx.pend = none →
    let w := (s.vi s.cx.it.vi).wdlim.toNat
    (if w = 0 then 256 else w) * 65536 ≤ s.cx.wd →
    ∃ t slot code, exec .watchdogExpiry s = .next t ∧ LineTrapped s t (if s.cx.lineSeq = 0 then s.cx.pc else s.cx.dline) 0x0D slot 0 code
      ∧ (∀ e r, s.cx.cq = e :: r → (∀ w, e.instr .c ≠ some (.exit w)) → slot = e.slot ∧ code = 1)
      ∧ (∀ e r w, s.cx.cq = e :: r → e.instr .c = some (.exit w) → slot = 0)
      ∧ (∀ e r, s.cx.cq = [] → s.cx.yq = e :: r → slot = e.slot ∧ code = 7)
      ∧ (∀ y, s.cx.cq = [] → s.cx.yq = [] → s.cx.yfly = some y → slot = s.cx.yseq % 8 ∧ code = 7)
      ∧ (s.cx.cq = [] → s.cx.yq = [] → s.cx.yfly = none → slot = 0)

/-- R68, R70, R123: an active context that has waited 64 cycles at a blocking wait gives way to one of its core that is not blocked: its lease is to
end, its replay buffer is emptied, and the change takes 8 cycles. At its end the other context is the active one. -/
def Sys2Proof.Claims.ContextsTakeTurns : Prop :=
  open Sys2Proof Sys2Proof.Machine Sys2Proof.Claims in
  (∀ (s : State) (o : Ctx), s.cx.has = true → (s.coreSt s.cx.id.coreKey).active = s.cx.id.ctx → (s.coreSt s.cx.id.coreKey).change = none →
    64 ≤ s.cx.stall → ctxBlocked s s.cx = true → otherCtx s s.cx.id = some o → ctxBlocked s o = false →
    ∃ t, exec .contextStallSwitch s = .next t
      ∧ t = { s with cx := { s.cx with replay := [], stall := 0, prioReq := false }, cores := t.cores, garr := t.garr }
      ∧ (∀ k, t.coreSt k = if k = s.cx.id.coreKey then { s.coreSt k with change := some (o.id.ctx, s.cycle + 8) } else s.coreSt k)
      ∧ leaseOf t s.cx.id = (leaseOf s s.cx.id).map fun l => { l with ending := true })
  ∧ ∀ (s : State) (n at' : Nat), (s.coreSt s.cx.id.coreKey).change = some (n, at') → at' ≤ s.cycle →
    let g (c : Ctx) : Ctx := if c.id.coreKey = s.cx.id.coreKey ∧ c.id.ctx = n then { c with
        replay := [], stall := 0, prioReq := match otherCtx s c.id with | some o => decide (c.it.prio < o.it.prio) | none => false }
      else c
    ∃ t, exec .contextChangeComplete s = .next t ∧ t = { s with cx := g s.cx, parked := s.parked.map g, cores := t.cores }
      ∧ ∀ k, t.coreSt k = if k = s.cx.id.coreKey then ⟨n, none⟩ else s.coreSt k

/-- R69, R70, R254, R255, R398: a free great array grants the request that R70 chooses, and refills its buffers for a holder whose data it does not hold; a lease at
its limit ends once its commands have completed or stand at a boundary; 4,096 cycles after its grant it is to end; one whose holder has
had no great-array instruction for 16 cycles ends; after 16,384 cycles its commands are aborted and the holder is to take the lease-timeout trap. -/
def Obligations.LeasesAreGrantedAndEnd : Prop :=
  open Sys2Proof Sys2Proof.Machine Sys2Proof.Claims in
  (∀ s : State, (s.great s.sub.a).lease = none → (s.great s.sub.a).reqs ≠ [] → (∀ q ∈ (s.great s.sub.a).reqs, q.ctx.cluster = s.sub.a) →
    ∃ t r, exec .leaseArbitration s = .next t ∧ NextGrant s (s.great s.sub.a) r ∧ MemSame s t
      ∧ (t.great s.sub.a).lease = some ⟨r.ctx, r.rid, s.cycle, 0, false, s.cycle⟩
      ∧ (t.great s.sub.a).reqs = ((s.great s.sub.a).reqs.erase r).map (fun q => { q with passed := q.passed + 1 })
      ∧ (t.great s.sub.a).grants = (r.rid :: (s.great s.sub.a).grants).take 1024
      ∧ (t.great s.sub.a).slots = (s.great s.sub.a).slots ∧ (t.great s.sub.a).holder = some r.ctx
      ∧ (∀ k, k ≠ s.sub.a → t.great k = s.great k)
      ∧ ((s.great s.sub.a).holder = some r.ctx → (t.great s.sub.a).bufs = (s.great s.sub.a).bufs ∧ (t.great s.sub.a).rowf = (s.great s.sub.a).rowf)
      ∧ ((s.great s.sub.a).holder ≠ some r.ctx →
          let rec' := recOf (s.great s.sub.a) r.ctx
          let u := focusOn s r.ctx
          (∀ b, (b = 0 ∨ b = 1) →
            let x := if b = 0 then rec'.b0 else rec'.b1
            (t.great s.sub.a).bufs[b]? = some ((x.bind fun y => (loadTile u u.cx y.1 y.2.1 y.2.2.1).toOption).getD ⟨0, 0x3F800000, 0x3F800000, false⟩))
          ∧ (t.great s.sub.a).rowf = rec'.rowf.bind fun y => (readRowF u u.cx y.1).toOption))
  ∧ (∀ (s : State) (l : Lease), (s.great s.sub.a).lease = some l → AtLimit s l → cmdsAtBoundary s l.ctx = true →
      ∃ t, exec .leaseEnd s = .next t ∧ LeaseBecomes s t s.sub.a none)
  ∧ (∀ (s : State) (l : Lease), (s.great s.sub.a).lease = some l → l.at' + 4096 ≤ s.cycle →
      ∃ t, exec .leaseTimeLimit s = .next t ∧ LeaseBecomes s t s.sub.a (some { l with ending := true }))
  ∧ (∀ (s : State) (l : Lease), (s.great s.sub.a).lease = some l → l.idle + 16 ≤ s.cycle →
      (∀ c, ctxOf s l.ctx = some c → c.mfly = [] ∧ pendingGreat c = false) →
      ∃ t, exec .leaseIdleEnd s = .next t ∧ LeaseBecomes s t s.sub.a none)
  ∧ ∀ (s : State) (l : Lease), (s.great s.sub.a).lease = some l → l.ctx = s.cx.id → l.at' + 16384 ≤ s.cycle →
      cmdsAtBoundary s l.ctx = false → s.cx.due = none → s.cx.pend = none →
      ∃ t line slot, exec .leaseTimeout s = .next t ∧ (t.great s.sub.a).lease = none ∧ MemSame s t
        ∧ t.cx = { s.cx with mfly := [], decs := s.cx.decs ++ s.cx.mfly.map (fun h => ⟨3, h.e.seq⟩)
                             pend := some ⟨0x0C, line, slot, 0, 0, 4, false⟩ }

/-! ### Task graphs, regions and placement -/

namespace Sys2Proof.Claims

open Sys2Proof.Machine

/-- A node's KIND (R38). -/
def kindOf (n : GNode) : Nat := ((n.words.getD 0 0).extractLsb' 0 8).toNat
/-- The hub has read structures for the work of a region: banks have woken and errors are counted, and regions may be marked DEGRADED; nothing
else differs (R303, R306, R308). -/
def Seen (s u : State) : Prop :=
  u = { s with regions := u.regions, vaults := u.vaults, soft := u.soft }
    ∧ ∃ bad : Region → Bool, u.regions = s.regions.map fun r => { r with degraded := r.degraded || bad r }

/-- Node a of the subject may start now (R31, R37, R39, R53, R78): it is ready, the first ready one of its region's graph, and its region runs under
the current generation with nothing to cancel. -/
structure MayStart (s : State) (n : GNode) (r : Region) : Prop where
  node : s.node? s.sub.a = some n
  region : s.region? n.rid = some r
  ready : n.st = .ready
  live : r.started = true ∧ r.completed = false ∧ r.stopped = false
  on : viOn s r.vi = true
  first : ∀ m, s.nodes.find? (fun m => m.rid == n.rid && m.st == .ready) = some m → m.nid = n.nid
  current : r.gen = (s.asid r.asid).gen
  go : sampleCancel s r.rid = none

/-- The nodes with one of them changed. -/
def nodesWith (s : State) (nid : Nat) (f : GNode → GNode) : List GNode := s.nodes.map fun n => if n.nid = nid then f n else n
/-- The node does not run, and the graph of its region stops with a status (R31, R37). -/
def NodeFails (s t : State) (n : GNode) (status : Nat) (at' : W64) : Prop :=
  ∃ u, Seen s u ∧ t = { u with nodes := nodesWith s n.nid fun m => { m with st := .done }, regions := regionsFailed u n.rid status at' }
/-- The node has started and its work is done. -/
def workDone (m : GNode) : GNode := { m with st := .running, finished := true }

/-- The hub reads the words of a node at an address, and of a kernel node its header and record (R30 to R32). -/
def NodeAt (s : State) (r : Region) (va : W64) (ws : List W64) : Prop :=
  (∃ v, hubNat s r.asid r.gen va 64 = .ok v ∧ parseNode v = some ws)
    ∧ ∀ m : GNode, m.va = va → m.words = ws → kindOf m = 0x10 ∨ kindOf m = 0x17 → ∃ p, kernelParts s m r (kindOf m == 0x17) = .ok p
/-- DEPS of the node at an address is d (R38). -/
def DepsAt (s : State) (r : Region) (va : W64) (d : Nat) : Prop :=
  va.toNat / 2 ^ 60 = 0 ∧ va.toNat % 64 = 0 ∧ ∃ w, hubNat s r.asid r.gen va 8 = .ok w ∧ w / 2 ^ 8 % 2 ^ 8 = d
/-- An instance has been opened at an entry, which is its first ready node (R39); `base` are the nodes before. -/
def Opened (s t : State) (base : List GNode) (rid : Nat) (opener : Option Nat) (depth : Nat) (entry : W64) (ws : List W64) : Prop :=
  t.insts = s.insts ++ [⟨s.nextId, rid, opener, depth, [(entry, 0)], false⟩]
    ∧ ∃ m : GNode, t.nodes = base ++ [m] ∧ m.nid = s.nextId + 1 ∧ m.iid = s.nextId ∧ m.rid = rid ∧ m.va = entry ∧ m.words = ws ∧ m.st = .ready
/-- Node n opens the instance at an entry, or does nothing further when the entry is 0 (R43). -/
def OpensOrEnds (s t : State) (n : GNode) (r : Region) (entry : W64) : Prop :=
  (entry = 0 → ∃ u, Seen s u ∧ t = { u with nodes := nodesWith s n.nid workDone })
    ∧ ∀ ws, entry ≠ 0 → depthOf s n < 8 → DepsAt s r entry 0 → NodeAt s r entry ws →
      Opened s t (nodesWith s n.nid fun m => { m with st := .running }) n.rid (some n.nid) (depthOf s n + 1) entry ws
/-- The word that a node tests, masked (R42). -/
def Tested (s : State) (n : GNode) (r : Region) (x : W64) : Prop :=
  ∃ v, hubNat s r.asid r.gen (n.words.getD 2 0) 8 = .ok v ∧ x = BitVec.ofNat 64 v &&& n.words.getD 3 0
/-- The condition of R42. -/
def condTrue (cmp : Nat) (x op : W64) : Bool :=
  match cmp with
  | 0 => x == op
  | 1 => x != op
  | 2 => x.ult op
  | 3 => !x.ult op
  | 4 => x.slt op
  | 5 => !x.slt op
  | 6 => x != 0
  | _ => x == 0

/-- The index of level j at an ordinal (R47): the levels that stand after it in ORDER run faster. -/
def levelIndex (l : Lnr) (ord j : Nat) : Nat :=
  let after := l.order.drop (l.order.idxOf j + 1)
  ord / (after.map fun k => l.counts.getD k 1).prod % l.counts.getD j 1
/-- s1 to s6 of an iteration (R47). -/
def nestScalar (l : Option Lnr) (ord j : Nat) : W64 :=
  match l with
  | none => 0
  | some l => if j ∈ l.order then BitVec.ofInt 64 (l.bases.getD j 0 + levelIndex l ord j * l.steps.getD j 0) else 0
/-- The context of an iteration at dispatch (R47, R48, R120). -/
def freshContext (s : State) (n : GNode) (k : Khd) (r : Region) (id : CtxId) : Ctx :=
  { Ctx.idle id with
    has := true, khd := k, pc := k.entry
    s := Vector.ofFn fun j : Fin 64 =>
      if 1 ≤ j.val ∧ j.val ≤ 6 then nestScalar n.lnr n.next (j.val - 1)
      else if 7 ≤ j.val ∧ j.val ≤ 9 then n.words.getD (j.val - 2) 0 else 0
    it := ⟨n.nid, n.va, n.rid, n.next, r.vi, r.asid, r.gen, r.prio, false, s.nextId⟩ }

/-- What the completion of node n does to one successor (R39): its pending count falls by one; at zero the node becomes ready; below zero, or with a
count that cannot be read, the graph stops. -/
def SuccessorStep (s : State) (n : GNode) (p : W64) (t : State) : Prop :=
  ∀ r i, s.region? n.rid = some r → s.inst? n.iid = some i →
    (r.stopped = true ∨ p = 0 → t = s)
    ∧ ∀ d : Int, r.stopped = false → p ≠ 0 →
      ((∃ x, i.pending.find? (·.1 == p) = some x ∧ x.2 = d) ∨ (i.pending.find? (·.1 == p) = none ∧ ∃ k : Nat, DepsAt s r p k ∧ d = k)) →
      let insts := s.insts.map fun j => if j.iid = i.iid then { j with pending := (p, d - 1) :: j.pending.filter (·.1 != p) } else j
      (1 < d → ∃ u, Seen s u ∧ t = { u with insts := insts })
      ∧ (d < 1 → ∃ u, Seen s u ∧ t = { u with insts := insts, regions := regionsFailed u n.rid 2 n.va })
      ∧ (d = 1 → ∀ ws, NodeAt s r p ws → (∃ u, Seen s u ∧ t = { u with insts := insts, nodes := t.nodes, nextId := s.nextId + 1 })
          ∧ ∃ m : GNode, t.nodes = s.nodes ++ [m] ∧ m.nid = s.nextId ∧ m.iid = n.iid ∧ m.va = p ∧ m.words = ws ∧ m.st = .ready)
/-- The successors are served one after the other. -/
def SuccessorsServed (s : State) (n : GNode) (ps : List W64) (t : State) : Prop :=
  match ps with
  | [] => t = s
  | p :: r => ∃ u, SuccessorStep s n p u ∧ SuccessorsServed u n r t
/-- A node has completed (R39): no successor is served once its region's graph has stopped. -/
def NodeCompleted (s t : State) (n : GNode) : Prop :=
  let u := { s with nodes := nodesWith s n.nid fun m => { m with st := .done } }
  ∀ r, s.region? n.rid = some r →
    (r.stopped = true → t = u)
    ∧ (r.stopped = false →
      let k := ((n.words.getD 0 0).extractLsb' 16 8).toNat
      (k = 0 → t = u)
      ∧ (k = 1 → SuccessorsServed u n [n.words.getD 1 0] t)
      ∧ (1 < k → ∀ v, hubNat s r.asid r.gen (n.words.getD 1 0) (8 * k) = .ok v →
          ∃ x, Seen u x ∧ SuccessorsServed x n ((List.range k).map fun j => BitVec.ofNat 64 (v / 2 ^ (64 * j))) t)
      ∧ (1 < k → ∀ e, hubNat s r.asid r.gen (n.words.getD 1 0) (8 * k) = .error e →
          ∃ x, Seen u x ∧ t = { x with regions := regionsFailed x n.rid 3 n.va }))

/-- The work of a running node is done (R41, R43 to R45). -/
def WorkDone (s : State) (n : GNode) : Prop :=
  n.st = .running ∧
    ((kindOf n = 0x10 ∨ kindOf n = 0x17) ∧ n.next = n.total ∧ n.exited = n.total
      ∨ (kindOf n ≠ 0x10 ∧ kindOf n ≠ 0x17 ∧ n.finished = true)
      ∨ ((kindOf n = 0x11 ∨ kindOf n = 0x13) ∧ n.finished = false ∧ openedDone s n.nid = true))

/-- The regions after the graph of a stale region has stopped (R37). -/
def regionsStale (s : State) (rid : Nat) : List Region :=
  s.regions.map fun r =>
    if r.rid = rid ∧ r.completed = false then
      (if r.status = 0 ∨ r.status = 5 then { r with stopped := true, status := 4, failAt := 0 } else { r with stopped := true })
    else r

/-- The effective fields of a region (R34, R55): b is its control block. -/
def EffectiveFields (s : State) (r : Region) (b : Rcb) (q : Region) : Prop :=
  let v := s.vi r.vi
  let inVi := v.asidbase ≤ b.asid ∧ b.asid < v.asidbase + v.asidn
  match r.parent.bind s.region? with
  | none => inVi ∧ q.prio = min b.prio v.priomax ∧ q.asid = b.asid ∧ q.gen = b.gen ∧ q.fdom = b.fdom ∧ q.fpol = b.fpol
      ∧ q.cores = min b.cores v.cores ∧ q.bvc = min b.bvc v.bvc ∧ q.lease = min b.lease v.lease ∧ q.bw = min b.bw v.bw
      ∧ q.scratch = min b.scratch v.scratch ∧ q.part = b.part ∧ q.owns = b.part
  | some p =>
    let own (k : Nat) : Prop := b.ovr.testBit k = true
    let cap (k mine its res : Nat) : Prop := (own k → res = min mine its) ∧ (¬ own k → res = its)
    (own 1 → inVi ∧ q.asid = b.asid ∧ q.gen = b.gen) ∧ (¬ own 1 → q.asid = p.asid ∧ q.gen = p.gen)
      ∧ (own 2 → q.fdom = b.fdom ∧ q.fpol = b.fpol) ∧ (¬ own 2 → q.fdom = p.fdom ∧ q.fpol = p.fpol)
      ∧ cap 0 b.prio p.prio q.prio ∧ cap 3 b.cores p.cores q.cores ∧ cap 4 b.bvc p.bvc q.bvc ∧ cap 5 b.lease p.lease q.lease
      ∧ cap 6 b.bw p.bw q.bw ∧ cap 7 b.scratch p.scratch q.scratch ∧ (own 8 → q.part = b.part)
      ∧ (¬ own 8 → q.part = p.part) ∧ (q.owns = true ↔ own 8 ∧ b.part = true)
/-- A region may start, and its control block is b (R30, R33, R35, R53, R71). -/
structure MayOpen (s : State) (r : Region) (b : Rcb) (r1 q : Region) : Prop where
  region : s.region? s.sub.a = some r
  idle : r.started = false ∧ r.completed = false ∧ r.status = 0
  on : viOn s r.vi = true
  block : ∃ v, hubNat s (rcbSpace s r).1 (rcbSpace s r).2 r.va 128 = .ok v ∧ r.va.toNat / 2 ^ 60 = 0 ∧ r.va.toNat % 128 = 0 ∧ parseRcb v = some b
  near : reachesTooFar s r b = false
  fields : effective s r b = some r1
  set : withSet s r1 b = .ok q
  part : q.owns = true → q.cset.isSome = true
  free : partitionOk s q = true
/-- A region that has been named and has not started. -/
def Named (t : State) (va : W64) (parent : Option Nat) (depth vi : Nat) : Prop :=
  ∃ c ∈ t.regions, c.va = va ∧ c.parent = parent ∧ c.depth = depth ∧ c.vi = vi ∧ c.origin = .child ∧ c.started = false ∧ c.completed = false

/-- An iteration asked to yield (R67): the running one of lowest priority below p in the placement set, the latest dispatched on a tie. -/
def Victim (s : State) (n : GNode) (p : Nat) (c : Ctx) : Prop :=
  let fits (d : Ctx) : Prop := d ∈ s.running ∧ inPlacement s n d.id = true ∧ d.it.prio < p ∧ canYield s d = true
  fits c ∧ ∀ d, fits d → c.it.prio < d.it.prio ∨ c.it.prio = d.it.prio ∧ d.it.dispatched ≤ c.it.dispatched
/-- One context is asked to yield. -/
def Asked (s t : State) (id : CtxId) : Prop :=
  let f (d : Ctx) : Ctx := if d.id = id then { d with yieldReq := true } else d
  t = { s with cx := f s.cx, parked := s.parked.map f, nodes := t.nodes, vis := t.vis }

end Sys2Proof.Claims

/-- R30 to R32, R37 to R45, R78, R368: the first ready node of its region's graph starts: a KERNEL or MIDNIGHT node's iterations become eligible, a COND, SWITCH or LOOP node
opens the instance that its word selects, a SIGNAL node performs its write and posts its event; a word that cannot be read stops the graph. -/
def Obligations.NodesStart : Prop :=
  open Sys2Proof Sys2Proof.Machine Sys2Proof.Claims in
  ∀ (s : State) (n : GNode) (r : Region), MayStart s n r →
    let w (k : Nat) : W64 := n.words.getD k 0
    let cmp := ((w 5).extractLsb' 0 4).toNat
    (kindOf n = 0x10 → exec .kernelNodeStart s = .next { s with nodes := nodesWith s n.nid fun m => { m with st := .running } })
    ∧ (kindOf n = 0x17 → exec .midnightNode s = .next { s with nodes := nodesWith s n.nid fun m => { m with st := .running } })
    ∧ (kindOf n = 0x11 → (∀ x, Tested s n r x → ∃ t, exec .condNode s = .next t ∧ OpensOrEnds s t n r (if condTrue cmp x (w 4) then w 6 else w 7))
        ∧ ((¬ ∃ x, Tested s n r x) → ∃ t, exec .condNode s = .next t ∧ NodeFails s t n 3 n.va))
    ∧ (kindOf n = 0x13 → (∀ x, Tested s n r x →
          let k := x.toNat / 2 ^ ((w 4).extractLsb' 0 6).toNat
          (((w 4).extractLsb' 32 16).toNat ≤ k → ∃ t, exec .switchNode s = .next t ∧ OpensOrEnds s t n r (w 6))
          ∧ (k < ((w 4).extractLsb' 32 16).toNat → ∀ e, hubNat s r.asid r.gen (w 5 + BitVec.ofNat 64 (8 * k)) 8 = .ok e →
              ∃ t, exec .switchNode s = .next t ∧ OpensOrEnds s t n r (if e = 0 then w 6 else BitVec.ofNat 64 e)))
        ∧ ((¬ ∃ x, Tested s n r x) → ∃ t, exec .switchNode s = .next t ∧ NodeFails s t n 3 n.va))
    ∧ (kindOf n = 0x12 → n.loopsDone = 0 →
        let count := ((w 5).extractLsb' 32 32).toNat
        let while' := (w 5).getLsbD 4
        let ended (u : State) : State := { u with nodes := nodesWith s n.nid fun m => { workDone m with loopCount := count } }
        (while' = false → count = 0 → exec .loopNode s = .next (ended s))
        ∧ (∀ x, while' = true → Tested s n r x → condTrue cmp x (w 4) = false → ∃ u, Seen s u ∧ exec .loopNode s = .next (ended u))
        ∧ ∀ ws, ((while' = false ∧ 0 < count) ∨ (while' = true ∧ ∃ x, Tested s n r x ∧ condTrue cmp x (w 4) = true)) →
            depthOf s n < 8 → DepsAt s r (w 6) 0 → NodeAt s r (w 6) ws →
            ∃ t, exec .loopNode s = .next t ∧ Opened s t (nodesWith s n.nid fun m => { m with
              st := .running, loopCount := count, loopsDone := m.loopsDone + 1 }) n.rid (some n.nid) (depthOf s n + 1) (w 6) ws)
    ∧ (kindOf n = 0x14 → s.Ok →
        let op := ((w 4).extractLsb' 0 2).toNat
        let vec := ((w 4).extractLsb' 16 8).toNat
        let posted := s.intrs ++ (if (w 4).getLsbD 8 then [⟨true, r.vi, vec⟩] else []) ++ (if (w 4).getLsbD 9 then [⟨false, r.vi, vec⟩] else [])
        let raised (t : State) : Prop := ∀ k, Tab.get 0 t.msix k = Tab.get 0 s.msix k
          + if (w 4).getLsbD 8 = true ∧ k = 32 * r.vi + vec % 32 then 1 else 0
        (w 2 = 0 → ∃ t, exec .signalNode s = .next t ∧ raised t
          ∧ t = { s with nodes := nodesWith s n.nid workDone, intrs := posted, msix := t.msix })
        ∧ (∀ ks, w 2 ≠ 0 → agentKeys s hubDie r.asid r.gen (if op = 0 then .wr else .rw) (w 2) 8 = .ok ks →
            let old := BitVec.ofNat 64 (homeNat s ks)
            let new := if op = 0 then w 3 else if op = 1 then old + w 3 else old ||| w 3
            ∃ t, exec .signalNode s = .next t ∧ t.nodes = nodesWith s n.nid workDone ∧ t.intrs = posted ∧ raised t
              ∧ Stored s t ks ((List.range 8).map fun i => new.extractLsb' (8 * i) 8))
        ∧ (∀ e, w 2 ≠ 0 → agentKeys s hubDie r.asid r.gen (if op = 0 then .wr else .rw) (w 2) 8 = .error e →
            ∃ t, exec .signalNode s = .next t ∧ NodeFails s t n 3 n.va))

/-- R39, R41, R43, R44, R47: a node whose work is done completes and serves its successors; a LOOP whose body instance is done opens the next one, or
ends; one whose region's generation is old stops the graph instead, which is to complete STALE. R47, R48, R65, R66, R120: the context named takes the next iteration of the first node for it, with its loop-nest scalars, its
arguments, its entry line and everything else as idle; its rotating registers are zero, and what its other vector
registers and predicates hold is free (log entry 3). -/
def Obligations.NodesCompleteAndDispatch : Prop :=
  open Sys2Proof Sys2Proof.Machine Sys2Proof.Claims in
  (∀ (s : State) (n : GNode) (r : Region), s.node? s.sub.a = some n → s.region? n.rid = some r → (s.inst? n.iid).isSome = true → WorkDone s n →
    (r.live = false ∨ r.gen = (s.asid r.asid).gen → ∃ t, exec .nodeCompletion s = .next t ∧ NodeCompleted s t n)
    ∧ (r.live = true → r.gen ≠ (s.asid r.asid).gen → exec .nodeCompletion s = .next { s with
        nodes := nodesWith s n.nid fun m => { m with st := .done }, regions := regionsStale s n.rid }))
  ∧ (∀ (s : State) (n : GNode) (r : Region), s.node? s.sub.a = some n → s.region? n.rid = some r → n.st = .running → kindOf n = 0x12 →
    n.finished = false → openedDone s n.nid = true → r.stopped = false → r.gen = (s.asid r.asid).gen →
    let w (k : Nat) : W64 := n.words.getD k 0
    let cap := ((w 7).extractLsb' 0 32).toNat
    let capped := cap ≠ 0 ∧ cap ≤ n.loopsDone
    let goes := ((w 5).getLsbD 4 = false ∧ n.loopsDone < n.loopCount)
      ∨ ((w 5).getLsbD 4 = true ∧ ∃ x, Tested s n r x ∧ condTrue ((w 5).extractLsb' 0 4).toNat x (w 4) = true)
    ∀ ws, ¬ capped → goes → depthOf s n < 8 → DepsAt s r (w 6) 0 → NodeAt s r (w 6) ws →
      ∃ t, exec .nodeCompletion s = .next t
        ∧ Opened s t (nodesWith s n.nid fun m => { m with loopsDone := m.loopsDone + 1 }) n.rid (some n.nid) (depthOf s n + 1) (w 6) ws)
  ∧ ∀ (s u : State) (n : GNode) (k : Khd) (r : Region), firstNode s s.sub.ctx = some n → n.khd = some k → s.region? n.rid = some r →
    lowestCtx s n s.sub.ctx = true → (k.prof = .b ∨ sampleCancel s n.rid = none) → enterPrefill s n s.sub.ctx = (u, true) →
    (∀ l, n.lnr = some l → ∀ j ∈ l.order, j < 6) →
    ∃ t, exec .tileDispatch s = .next t ∧ t.cx = { freshContext u n k r s.sub.ctx with v := t.cx.v, p := t.cx.p, prioReq := t.cx.prioReq }
      ∧ (k.rot = true → ∀ j, (16 ≤ j → t.cx.v.getD j VReg.zero = VReg.zero) ∧ (8 ≤ j → t.cx.p.getD j 0 = 0))
      ∧ t.nodes = nodesWith u n.nid (fun m => { m with next := m.next + 1 })
      ∧ (otherCtx t s.sub.ctx = none → t.coreSt s.sub.ctx.coreKey = ⟨s.sub.ctx.ctx, none⟩)

/-- R33 to R36, R63, R71: a region whose control block is well formed starts with its effective fields, opens its graph at GRAPH, and its first child and its next
sibling follow; a malformed one does not start, and completes MALFORMED. A region whose graph and children have completed writes its
status and the first failing address to its completion record and completes. -/
def Obligations.RegionsStartAndComplete : Prop :=
  open Sys2Proof Sys2Proof.Machine Sys2Proof.Claims in
  (∀ (s : State) (r r1 q : Region) (b : Rcb), MayOpen s r b r1 q → q.gen = (s.asid q.asid).gen → q.fdom ∉ r.halted →
    ∃ t, exec .regionStart s = .next t
      ∧ (b.graph = 0 ∨ (∃ ws, DepsAt s q b.graph 0 ∧ NodeAt s q b.graph ws) →
          ∃ o, t.region? r.rid = some o ∧ o.started = true ∧ o.stopped = r.stopped ∧ o.completed = false ∧ o.cset = q.cset ∧ o.compl = b.compl
            ∧ EffectiveFields s r b o)
      ∧ (b.graph = 0 → t.nodes = s.nodes ∧ t.insts = s.insts)
      ∧ (∀ ws, b.graph ≠ 0 → DepsAt s q b.graph 0 → NodeAt s q b.graph ws → r.stopped = false → Opened s t s.nodes r.rid none 1 b.graph ws)
      ∧ (b.child ≠ 0 → Named t b.child (some r.rid) (r.depth + 1) r.vi)
      ∧ (b.next ≠ 0 → r.origin = .child → Named t b.next r.parent r.depth r.vi))
  ∧ (∀ (s : State) (r : Region) (v : Nat), s.region? s.sub.a = some r → r.started = false → r.completed = false → r.status = 0 → viOn s r.vi = true →
    hubNat s (rcbSpace s r).1 (rcbSpace s r).2 r.va 128 = .ok v →
    (r.va.toNat / 2 ^ 60 ≠ 0 ∨ r.va.toNat % 128 ≠ 0 ∨ parseRcb v = none ∨ ∃ b, parseRcb v = some b ∧ (reachesTooFar s r b = true ∨ effective s r b = none)) →
    ∃ t o, exec .regionStart s = .next t ∧ t.region? r.rid = some o ∧ o.started = false ∧ o.stopped = true ∧ o.status = 2 ∧ o.failAt = r.va
      ∧ t.nodes = s.nodes ∧ t.insts = s.insts ∧ MemSame s t)
  ∧ ∀ (s : State) (r : Region), s.Ok → s.region? s.sub.a = some r → r.started = true → r.completed = false → r.gen = (s.asid r.asid).gen →
    (∀ c ∈ r.children, ∃ o, s.region? c = some o ∧ o.completed = true) → graphDone s r = true →
    (∀ a irq vec, r.origin = .accept a irq vec → ∀ j ∈ s.tw, j.srec = a → j.committed = true) →
    ∃ t o, exec .regionCompletion s = .next t ∧ t.region? r.rid = some o ∧ o.completed = true
      ∧ (r.degraded = true → r.fpol = 0 → (t.vi r.vi).degcnt = (s.vi r.vi).degcnt + 1)
      ∧ (r.origin = .root → (t.vi r.vi).rootact = false)
      ∧ (∀ irq vec lists, r.origin = .iterate irq vec lists → (t.vi r.vi).iter = (s.vi r.vi).iter + 1
          ∧ t.intrs = s.intrs ++ if irq then [⟨false, r.vi, vec⟩] else [])
      ∧ (r.degraded = false → (∀ l ∈ s.red, l.rid ≠ r.rid) → (r.origin = .child ∨ r.origin = .root) →
          (r.compl = 0 → MemSame s t)
          ∧ ∀ ks, r.compl ≠ 0 → agentKeys s hubDie r.asid r.gen .wr r.compl 16 = .ok ks →
            Stored s t ks (bytesOf 16 (r.status + 2 ^ 64 * r.failAt.toNat)))

/-- R67, R372: a node with no eligible free context asks the iteration of lowest priority in its placement set to yield, the latest dispatched on a tie, once;
foreground demand asks a Midnight iteration; a VI below MINCORES whose work has waited 65,536 cycles asks one of a VI above its own.
R52: software's cancel stores 1 to word 1 of a stream record. -/
def Sys2Proof.Claims.YieldsAndCancelsAreAsked : Prop :=
  open Sys2Proof Sys2Proof.Machine Sys2Proof.Claims in
  (∀ (s : State) (c : Ctx), s.running.find? (fun c => c.id == s.sub.ctx && demandHigh s c && canYield s c) = some c →
    ∃ t, exec .preemptionRequest s = .next t ∧ Asked s t c.id ∧ t.nodes = s.nodes ∧ t.vis = s.vis)
  ∧ (∀ (s : State) (n : GNode) (r : Region), (∀ c ∈ s.running, c.id = s.sub.ctx → demandHigh s c = false) → s.node? s.sub.a = some n →
    s.region? n.rid = some r → n.st = .running → n.next < n.total → regionPlaceable s n.rid = true → askOut s n = false →
    (∀ id ∈ allCtxs, eligible s n id = false) → (∃ c, Victim s n r.prio c) →
    ∃ t c, exec .preemptionRequest s = .next t ∧ Victim s n r.prio c ∧ Asked s t c.id ∧ t.vis = s.vis
      ∧ t.nodes = nodesWith s n.nid fun m => { m with asked := some c.id })
  ∧ (∀ (s : State) (c : Ctx), 65536 ≤ (s.vi s.sub.a).starved → viCores s s.sub.a < (s.vi s.sub.a).mincores →
    s.running.find? (fun c => c.id == s.sub.ctx && !c.id.bvc && c.it.vi != s.sub.a && (s.vi c.it.vi).mincores < viCores s c.it.vi && canYield s c)
      = some c →
    ∃ t, exec .mincoresStarvation s = .next t ∧ Asked s t c.id ∧ t.nodes = s.nodes
      ∧ ∀ k, t.vi k = if k = s.sub.a then { s.vi k with starved := 0 } else s.vi k)
  ∧ ∀ (s : State) (ks : List Nat), s.Ok → agentKeys s hubDie s.sub.a (s.asid s.sub.a).gen .wr (s.sub.x + 8) 8 = .ok ks →
    ∃ t, exec .cancelRequest s = .next t ∧ Stored s t ks (bytesOf 8 1)

/-- R52, R67, R68, R70, R123, R372, R394 to R397: traps, turns, and requests to yield and to cancel, each as its part says. -/
def Obligations.IterationsTrapTurnAndYield : Prop :=
  Sys2Proof.Claims.TrapsEndTheIteration
    ∧ Sys2Proof.Claims.ContextsTakeTurns
    ∧ Sys2Proof.Claims.YieldsAndCancelsAreAsked

/-! ### Streams: hand-off, conversion, commit, cancellation; block pools -/

namespace Sys2Proof.Claims

open Sys2Proof.Machine

/-- Only memory, what is held of it, the counters of its controllers and the pools may differ. -/
def OnlyMem (s t : State) : Prop :=
  t = { s with mem := t.mem, red := t.red, bad := t.bad, soft := t.soft, vaults := t.vaults, wc := t.wc, sealed := t.sealed, vis := t.vis, fresh := t.fresh }
/-- An engine of a die writes n bytes of a value at a virtual address; a write that faults has no effect. -/
def EngWrites (s t : State) (die asid : Nat) (a : W64) (n v : Nat) : Prop :=
  OnlyMem s t ∧ (s.Ok → t.Ok)
    ∧ (∀ ks, engKeys s die asid (s.asid asid).gen .wr a.toNat n = .ok ks → s.Ok → Stored s t ks (bytesOf n v) ∧ t.sealed = s.sealed)
    ∧ (∀ e, engKeys s die asid (s.asid asid).gen .wr a.toNat n = .error e → t = s)
/-- The lines of n bytes at an address leave the set of SEALED lines. -/
def unsealAt (s : State) (die asid : Nat) (a : W64) (n : Nat) : State :=
  match engKeys s die asid (s.asid asid).gen .rd a.toNat n with
  | .ok ks => { s with sealed := s.sealed.filter fun l => !((ks.map (· / 64)).contains l) }
  | .error _ => s
/-- The bytes of a block: a source copy holds BF16, a destination copy E4M3 (R353). -/
def blockBytes (dusk : Bool) (hdim : Nat) : Nat := if dusk then 64 + 16 * hdim else 64 + 32 * hdim

/-- A source block is sealed (R82): its CRC over the logical block number and the payload goes to its header, its state becomes SEALED, and no
write lands on its lines any more. -/
def BlockSealed (s t : State) (die asid hdim : Nat) (a : W64) (lb : Nat) (c : W32) : Prop :=
  let n := blockBytes false hdim
  ∀ ks, engKeys s die asid (s.asid asid).gen .rd a.toNat n = .ok ks →
    c = crc32c 0 (bytesOf 4 lb ++ (homeBytes s ks).drop 64)
    ∧ ∃ u v, EngWrites (unsealAt s die asid a n) u die asid (a + 12) 4 c.toNat ∧ EngWrites u v die asid (a + 2) 1 2
      ∧ t = { v with sealed := v.sealed ++ (ks.map (· / 64)).dedup }
/-- Blocks are sealed one after the other; c is the XOR of their CRCs. -/
def BlocksSealed (s : State) (die asid hdim : Nat) (bs : List (W64 × Nat)) (t : State) (c : W32) : Prop :=
  match bs with
  | [] => t = s ∧ c = 0
  | b :: r => ∃ u x y, BlockSealed s u die asid hdim b.1 b.2 x ∧ BlocksSealed u die asid hdim r t y ∧ c = x ^^^ y
/-- The indexes of a layer's blocks (R82, R356): for each head K and V, for each logical block of the prompt. -/
def layerBlocks (q : Srec) (t : KvTab) (l : Nat) : List (Nat × Nat × Nat × Nat) :=
  (List.range t.nkv).flatMap fun h => [0, 1].flatMap fun kv => (List.range ((q.prompt + 15) / 16)).map fun lb => (l, h, kv, lb)
/-- The address that a half of a block-table entry holds, when it holds one (R356). -/
def HalfIs (s : State) (die asid : Nat) (btab : W64) (t : KvTab) (half : Nat) (x : Nat × Nat × Nat × Nat) (a : W64) : Prop :=
  Machine.halfOf s die asid btab t half x = some a
/-- A block may be sealed: FILLING or SEALED, of the stream's generation, its survivors the first ones (R82, R355, R360). -/
def MaySeal (s : State) (die asid : Nat) (q : Srec) (t : KvTab) (x : Nat × Nat × Nat × Nat) (a : W64) : Prop :=
  HalfIs s die asid q.btab t 0 x a ∧ ∃ h, kvHdr (engReader s die asid (s.asid asid).gen) a.toNat = .ok h
    ∧ (h.state = 1 ∨ h.state = 2) ∧ h.gen = q.sgen ∧ ∃ k, h.bitmap + 1 = 2 ^ k
/-- The sealed notice of a layer, with the source copies of its blocks, stands with the hand-off of the stream, once (R82). -/
def Noticed (s t : State) (srec : W64) (l : Nat) (as : List W64) : Prop :=
  t.tw = s.tw.map fun j => if j.srec = srec ∧ (j.notes.any fun x => x.1 == l) = false then { j with notes := j.notes ++ [(l, as)] } else j
/-- A layer of a stream is sealed (R82, R83), and its notice is sent; a layer whose seal record says SEAL stays as it is. -/
def LayerSealed (s t : State) (die asid : Nat) (srec : W64) (q : Srec) (l : Nat) : Prop :=
  let at' := q.seals + BitVec.ofNat 64 (32 * l)
  ∃ x v tab, Seen s x ∧ engReader s die asid (s.asid asid).gen at' 32 = .ok v ∧ kvTab (engReader s die asid (s.asid asid).gen) q.btab q.layers = .ok tab
    ∧ (v / 2 ^ 63 % 2 = 1 → t = { x with tw := t.tw }
        ∧ Noticed s t srec l ((layerBlocks q tab l).map fun z => (Machine.halfOf s die asid q.btab tab 0 z).getD 0))
    ∧ (v / 2 ^ 63 % 2 = 0 → ∃ (as : List W64) (u w : State) (c : W32), as.length = (layerBlocks q tab l).length
        ∧ (∀ z ∈ (layerBlocks q tab l).zip as, MaySeal s die asid q tab z.1 z.2)
        ∧ BlocksSealed x die asid tab.hdim (as.zip ((layerBlocks q tab l).map fun x => x.2.2.2)) u c
        ∧ EngWrites u w die asid at' 16 (as.length + 2 ^ 32 * tab.hdim + 2 ^ 63 + 2 ^ 64 * c.toNat)
        ∧ t = { w with tw := t.tw } ∧ Noticed s t srec l as)
/-- The layers of a HANDOFF node are sealed in ascending order. -/
def LayersSealed (s : State) (die asid : Nat) (srec : W64) (q : Srec) (ls : List Nat) (t : State) : Prop :=
  match ls with
  | [] => t = s
  | l :: r => ∃ u, LayerSealed s u die asid srec q l ∧ LayersSealed u die asid srec q r t
/-- The layers that a HANDOFF node names (R40). -/
def nodeLayers (n : GNode) : List Nat :=
  (List.range ((n.words.getD 4 0).extractLsb' 16 16).toNat).map fun k => ((n.words.getD 4 0).extractLsb' 0 16).toNat + k
/-- Every layer of the node can be sealed, each in the state that the former ones leave. -/
def CanSeal (s : State) (die asid : Nat) (srec : W64) (q : Srec) (ls : List Nat) : Prop :=
  match ls with
  | [] => True
  | l :: r => (∃ u, LayerSealed s u die asid srec q l) ∧ ∀ u, LayerSealed s u die asid srec q l → CanSeal u die asid srec q r

/-- The wished-for and possible destination of a stream that needs a number of blocks (R83, R90): of the Dusk dies with room where no earlier
allocation waits, the named one, or, where the scheduler chooses, the one of lowest tax class, the lowest address on a tie: of this
package, and only when none of these has room, of the packages that the region's core set names. -/
def Destination (s : State) (vi dest need : Nat) (cset : Option CoreSet) (d : Nat) : Prop :=
  let room (e : Nat) : Prop := e ∉ s.downDies ∧ need ≤ poolFree (poolOf s vi e) ∧ ∀ w ∈ s.kvq, ¬ (w.die = e ∧ w.vi = vi)
  let best (fits : Nat → Prop) : Prop := fits d ∧ ∀ e, fits e → dieTax s d < dieTax s e ∨ dieTax s d = dieTax s e ∧ d ≤ e
  let near (e : Nat) : Prop := 2 ≤ e ∧ e ≤ 5 ∧ room e
  if dest ≠ 0x7FF then d = dieRef s dest ∧ room d
  else best near ∨ ((∀ e, ¬ near e) ∧ best fun e => e ∈ remoteDusk s cset ∧ room e)
/-- A block is reserved (R81, R83): the lowest EMPTY slot of the pool becomes IN_FLIGHT, with the index and the generation to come in its header. -/
def BlockReserved (s t : State) (vi die asid : Nat) (srec : W64) (q : Srec) (x : Nat × Nat × Nat × Nat) (a : W64) : Prop :=
  let p := poolOf s vi die
  ∃ i u v, (i < p.n ∧ i ∉ p.busy ∧ ∀ j < i, j ∈ p.busy) ∧ a = p.base + BitVec.ofNat 64 (i * p.size * 64)
    ∧ (∀ k, u.vi k = if k = vi then { s.vi vi with pools := (u.vi vi).pools } else s.vi k)
    ∧ (∀ d, poolOf u vi d = if d = die then { p with busy := p.busy ++ [i] } else poolOf s vi d)
    ∧ u = { s with vis := u.vis }
    ∧ (∃ (sc crc : W32), EngWrites u v die asid a 64 (KvHdr.value ⟨0, 3, dieGlob s die, (q.sgen + 1) % 65536, sc, crc, x.2.2.2, x.1, x.2.1, x.2.2.1, srec⟩))
    ∧ t = { v with fresh := v.fresh + 1 }
/-- Blocks are reserved one after the other, numbered from k. -/
def BlocksReserved (s : State) (vi die asid : Nat) (srec : W64) (q : Srec) (xs : List (Nat × Nat × Nat × Nat)) (k : Nat) (t : State)
    (bs : List (Nat × W64)) : Prop :=
  match xs with
  | [] => t = s ∧ bs = []
  | x :: r => ∃ u a cs, BlockReserved s u vi die asid srec q x a ∧ BlocksReserved u vi die asid srec q r (k + 1) t cs ∧ bs = (k, a) :: cs

/-- A copy becomes FREED (R81); one that a reset has wiped to EMPTY, or that is FREED, stays as it is. -/
def CopyFreed (s t : State) (die asid : Nat) (b : W64) (n : Nat) : Prop :=
  match engReader s die asid (s.asid asid).gen b 64 with
  | .ok v => if 1 ≤ v / 2 ^ 16 % 8 ∧ v / 2 ^ 16 % 8 ≤ 5 then EngWrites (unsealAt s die asid b n) t die asid (b + 2) 1 6 else t = s
  | .error _ => t = s
/-- The block of an index is freed (R81, R357): its half of the table becomes 0 and then its state FREED; an absent one is passed over. -/
def IndexFreed (s t : State) (die asid : Nat) (btab : W64) (tab : KvTab) (half : Nat) (x : Nat × Nat × Nat × Nat) : Prop :=
  match Machine.halfOf s die asid btab tab half x with
  | none => t = s
  | some b => ∃ u, EngWrites s u die asid (kvHalfAt btab tab x.1 x.2.1 x.2.2.1 x.2.2.2 half) 8 0
      ∧ CopyFreed u t die asid b (blockBytes (half == 1) tab.hdim)
/-- The blocks of indexes are freed one after the other. -/
def IndexesFreed (s : State) (die asid : Nat) (btab : W64) (tab : KvTab) (half : Nat) (xs : List (Nat × Nat × Nat × Nat)) (t : State) : Prop :=
  match xs with
  | [] => t = s
  | x :: r => ∃ u, IndexFreed s u die asid btab tab half x ∧ IndexesFreed u die asid btab tab half r t
/-- Every index of a block table. -/
def allIndexes (tab : KvTab) : List (Nat × Nat × Nat × Nat) :=
  (List.range tab.nlayer).flatMap fun l => (List.range tab.nkv).flatMap fun h => [0, 1].flatMap fun kv => (List.range tab.nlb).map fun lb => (l, h, kv, lb)
/-- Every copy of a stream that a half of its table names is freed; a table that cannot be read names none. -/
def CopiesFreed (s t : State) (die asid : Nat) (q : Srec) (half : Nat) : Prop :=
  match kvTab (engReader s die asid (s.asid asid).gen) q.btab q.layers with
  | .error _ => t = s
  | .ok tab => IndexesFreed s die asid q.btab tab half (allIndexes tab) t
/-- The reserved copies of a hand-off are freed, with the table halves of those that landed (R88). -/
def ReservedFreed (s t : State) (j : TwJob) (q : Srec) : Prop :=
  ∃ u, CopiesFreed s u j.die j.asid q 1 ∧ EachFreed u t (j.blocks.map (·.2))
where
  /-- Blocks become FREED. -/
  EachFreed (s t : State) (bs : List W64) : Prop :=
    match bs with
    | [] => t = s
    | b :: r => ∃ u, CopyFreed s u j.die j.asid b 64 ∧ EachFreed u t r

/-- A hand-off as it is when pulls are told to end (R88 step 1): no pull is issued any more; those of unfinished layers that are outstanding are
awaited. -/
def pullsEnd (j : TwJob) : TwJob :=
  { j with cancelling := true, layers := j.layers.map fun l => { l with pulls := if l.matched then [] else l.pulls.take 32 } }
/-- The hand-offs with that of one stream changed. -/
def jobsWith (s : State) (srec : W64) (f : TwJob → TwJob) : List TwJob := s.tw.map fun j => if j.srec = srec then f j else j
/-- A layer of a hand-off changed. -/
def layerWith (l : Nat) (x : TwLayer) (j : TwJob) : TwJob := { j with layers := j.layers.map fun y => if y.layer = l then x else y }
/-- Words 2 and 3 of a layer's seal record (R83). -/
def landedWords (l : TwLayer) : Nat := l.landn + 2 ^ 32 * l.tries + 2 ^ 64 * l.landcrc.toNat
/-- The destination element of a source element (R85); sc is the scale, or none when every finite element becomes +0. -/
def converted (sc : W32 × Bool) (x q : Nat) : Prop :=
  match unpack bf16 x with
  | .nan _ => q = x / 2 ^ 15 * 128 + 0x7F
  | .inf _ => q = x / 2 ^ 15 * 128 + 0x7E
  | v => q = if sc.2 then 0 else quant85 sc v
/-- The contents of a destination copy (R85): element (t, d) lies at 16·d + t of a K block and at HDIM·t + d of a V block, and is 0 where the bitmap
has no survivor. -/
def ConvertedBlock (kv hdim bm : Nat) (payload : List Byte) (sc : W32) (out : List Byte) : Prop :=
  let src (t d : Nat) : Nat := leNat ((payload.drop (2 * (hdim * t + d))).take 2)
  let live := (List.range 16).filter fun t => bm.testBit t
  let z := quantScale (amaxFin ((live.flatMap fun t => (List.range hdim).map fun d => src t d).map (unpack bf16)))
  sc = z.1 ∧ out.length = 16 * hdim
    ∧ ∀ t d, t < 16 → d < hdim → ∃ q, out[if kv = 0 then 16 * d + t else hdim * t + d]? = some (BitVec.ofNat 8 q)
      ∧ (bm.testBit t = false → q = 0) ∧ (bm.testBit t = true → converted z (src t d) q)

/-- The infinities among the survivors of a source block (R85). -/
def infinities (hdim bm : Nat) (payload : List Byte) : Nat :=
  (((List.range 16).filter fun t => bm.testBit t).flatMap fun t => (List.range hdim).filter fun d =>
    match unpack bf16 (leNat ((payload.drop (2 * (hdim * t + d))).take 2)) with
    | .inf _ => true
    | _ => false).length

/-- The stream of a record is one that an ADMIT of a live or completed region named (R33). -/
def Admitted (s : State) (asid : Nat) (srec : W64) : Prop := ∃ r ∈ s.regions, r.asid = asid ∧ ∃ a b, r.origin = .accept srec a b
/-- The streams that ADMIT entries have named, with their address spaces, in the order of their regions. -/
def admissions (s : State) : List (Nat × W64) :=
  s.regions.filterMap fun r => match r.origin with
    | .accept a _ _ => some (r.asid, a)
    | _ => none
/-- The loss of die d has no meaning for a stream (R77, R89): it is queued or finished, or d is neither its owner nor a side of its hand-off. -/
def Unharmed (s : State) (asid : Nat) (srec : W64) (d : Nat) : Prop :=
  ∀ q, readSrec s asid (s.asid asid).gen srec = .ok q →
    (q.state ≠ 1 ∧ q.state ≠ 2 ∧ q.state ≠ 3)
      ∨ (q.owner ≠ d ∧ ∀ j, jobOf s srec = some j → j.src ≠ d ∧ (j.die = 0 ∨ dieGlob s j.die ≠ d))
/-- A slot of a pool is wiped: its bytes read zero (R81). -/
def SlotWiped (s t : State) (vi die i : Nat) : Prop :=
  let p := poolOf s vi die
  let asid := poolSpace s vi p.base
  OnlyMem s t ∧ t.vis = s.vis
    ∧ ∀ ks, engKeys s hubDie asid (s.asid asid).gen .rd (p.base + BitVec.ofNat 64 (i * p.size * 64)).toNat (p.size * 64) = .ok ks → s.Ok →
      (∀ k ∉ ks, SameByte s t k) ∧ (∀ k ∈ ks, (k < 2 ^ 50 ∨ redFind s.red (k / 4) = none) → homeByte t k = 0)
/-- Slots are wiped one after the other. -/
def SlotsWiped (s : State) (vi die : Nat) (is : List Nat) (t : State) : Prop :=
  match is with
  | [] => t = s
  | i :: r => ∃ u, SlotWiped s u vi die i ∧ SlotsWiped u vi die r t
/-- The VI page and the pools of others are as before, and a pool becomes p. -/
def PoolBecomes (s t : State) (vi die : Nat) (p : Pool) : Prop :=
  (∀ k, t.vi k = if k = vi then { s.vi vi with pools := (t.vi vi).pools } else s.vi k)
    ∧ ∀ d, poolOf t vi d = if d = die then p else poolOf s vi d
/-- The block of an index under a sliding window whose start is w (R361): a LIVE copy whose last survivor lies before it is freed. -/
def WindowStep (s t : State) (asid : Nat) (q : Srec) (tab : KvTab) (w : Nat) (x : Nat × Nat × Nat × Nat) : Prop :=
  let old := ∃ a h, Machine.halfOf s hubDie asid q.btab tab 1 x = some a ∧ kvHdr (engReader s hubDie asid (s.asid asid).gen) a.toNat = .ok h
    ∧ (h.state = 5 ∨ h.state = 4) ∧ h.gen = q.sgen
    ∧ (h.bitmap = 0 → 16 * x.2.2.2 + 15 < w) ∧ (∀ i, h.bitmap.testBit i = true → 16 * x.2.2.2 + i < w)
  (old → IndexFreed s t hubDie asid q.btab tab 1 x) ∧ (¬ old → t = s)
/-- A sliding window passes over indexes. -/
def WindowPasses (s : State) (asid : Nat) (q : Srec) (tab : KvTab) (w : Nat) (xs : List (Nat × Nat × Nat × Nat)) (t : State) : Prop :=
  match xs with
  | [] => t = s
  | x :: r => ∃ u, WindowStep s u asid q tab w x ∧ WindowPasses u asid q tab w r t

end Sys2Proof.Claims

/-- R52, R75, R79: a transition of a stream record reads words 0 and 1 with its write: it stores the new STATE, OWNER and SGEN in word 0 and keeps word 0's
other bits, or, when word 0 is not the expected one, CANCEL stops it, or its home is being reset or has lost the record, it fails and
writes nothing. -/
def Sys2Proof.Claims.TransitionsAreAtomic : Prop :=
  open Sys2Proof Sys2Proof.Machine Sys2Proof.Claims in
  ∀ (s : State) (asid : Nat) (gen : BitVec 16) (va : W64) (e : Srec) (st owner sgen : Nat) (noCancel : Bool) (ks : List Nat), s.Ok →
    agentKeys s hubDie asid gen .rw va 16 = .ok ks →
    let w0 := BitVec.ofNat 64 (homeNat s ks)
    let w1 := BitVec.ofNat 64 (homeNat s ks / 2 ^ 64)
    let holds := (w0.extractLsb' 16 4).toNat = e.state ∧ (w0.extractLsb' 32 11).toNat = e.owner ∧ (w0.extractLsb' 48 16).toNat = e.sgen
      ∧ ¬ (noCancel = true ∧ w1.getLsbD 0 = true) ∧ w0.extractLsb' 0 8 = 0x30 ∧ fencedKeys s hubDie ks = false
    let new : W64 := BitVec.ofNat 16 sgen ++ w0.extractLsb' 43 5 ++ BitVec.ofNat 11 owner ++ w0.extractLsb' 20 12 ++ BitVec.ofNat 4 st
      ++ w0.extractLsb' 0 16
    (holds → st < 16 → ∃ t, transit s asid gen va e st owner sgen noCancel = some t ∧ Stored s t (ks.take 8) (bytesOf 8 new.toNat))
      ∧ (¬ holds → transit s asid gen va e st owner sgen noCancel = none)

/-- R40, R82, R83: a HANDOFF node that starts waits for a reservation in PREFILL, seals its layers in HANDOFF, is done at once in a final state, and stops its
graph MALFORMED otherwise. -/
def Sys2Proof.Claims.HandoffNodesStart : Prop :=
  open Sys2Proof Sys2Proof.Machine Sys2Proof.Claims in
  ∀ (s : State) (n : GNode) (r : Region), MayStart s n r → kindOf n = 0x16 →
    let srec := n.words.getD 2 0
    let dest := ((n.words.getD 3 0).extractLsb' 0 11).toNat
    let run := { s with nodes := nodesWith s n.nid fun m => { m with st := .running } }
    (∀ e, readSrec s r.asid r.gen srec = .error e → ∃ t, exec .handoffNode s = .next t ∧ NodeFails s t n 3 srec)
    ∧ ∀ q, readSrec s r.asid r.gen srec = .ok q →
      let good := q.kind = 0x30 ∧ q.clean = true ∧ nodeLayers n ≠ [] ∧ (∀ l ∈ nodeLayers n, l < q.layers)
        ∧ (dest = 0x7FF ∨ (2 ≤ dest % 8 ∧ dest % 8 ≤ 5 ∧ (dest / 8 = s.pkg.pkgnum.toNat ∨ Config.peerPresent (dest / 8) = true)))
      (good → q.state = 1 → exec .handoffNode s = .next run)
      ∧ (good → q.state = 2 → CanSeal run (q.owner % 8) r.asid srec q (nodeLayers n) →
          ∃ t, exec .handoffNode s = .next t ∧ LayersSealed run (q.owner % 8) r.asid srec q (nodeLayers n) t)
      ∧ (good → q.state = 4 ∨ q.state = 5 ∨ q.state = 6 → exec .handoffNode s = .next { s with nodes := nodesWith s n.nid workDone })
      ∧ (¬ good ∨ q.state = 0 ∨ q.state = 3 → ∃ t, exec .handoffNode s = .next t ∧ NodeFails s t n 2 n.va)

/-- R40, R52, R75, R82, R83: the transitions of stream records and the start of HANDOFF nodes, each as its part says. -/
def Obligations.StreamRecordsAndHandoffs : Prop :=
  Sys2Proof.Claims.TransitionsAreAtomic
    ∧ Sys2Proof.Claims.HandoffNodesStart

/-- R77, R82, R83: the first HANDOFF node of a stream reserves every block at the destination, writes DEST, makes the transition to HANDOFF and seals its
layers; with no room it waits, and a CANCEL that it samples then (the model's reading, log entry 44) cancels the
stream. -/
def Obligations.ReservationsAreMade : Prop :=
  open Sys2Proof Sys2Proof.Machine Sys2Proof.Claims in
  ∀ (s : State) (n : GNode) (r : Region) (q : Srec) (tab : KvTab), s.node? s.sub.a = some n → s.region? n.rid = some r → n.st = .running →
    kindOf n = 0x16 → n.finished = false → viOn s r.vi = true → r.gen = (s.asid r.asid).gen →
    let srec := n.words.getD 2 0
    let dest := ((n.words.getD 3 0).extractLsb' 0 11).toNat
    readSrec s r.asid r.gen srec = .ok q → kvTab (engReader s hubDie r.asid r.gen) q.btab q.layers = .ok tab → jobOf s srec = none →
    let need := 2 * tab.nkv * ((q.prompt + 15) / 16) * q.layers
    (q.state ≠ 1 → exec .twilightReservation s = .next { s with nodes := nodesWith s n.nid fun m => { m with finished := true } })
    ∧ (q.state = 1 → q.cancel = false → (¬ ∃ d, Destination s r.vi dest need r.cset d) → exec .twilightReservation s = .next { s with blk := true })
    ∧ ∀ d, q.state = 1 → Destination s r.vi dest need r.cset d → blockBytes true tab.hdim ≤ (poolOf s r.vi d).size * 64 →
      ∃ (u v : State) (bs : List (Nat × W64)), BlocksReserved s r.vi d r.asid srec q ((List.range q.layers).flatMap (layerBlocks q tab)) 0 u bs
        ∧ OnlyMem u v ∧ (∀ ks, agentKeys u hubDie r.asid r.gen .wr (srec + 16) 2 = .ok ks → s.Ok → Stored u v ks (bytesOf 2 (dieGlob s d)))
        ∧ ∀ w, transit v r.asid r.gen srec q 2 q.owner q.sgen true = some w →
          let w' := { w with tw := s.tw ++ [⟨n.nid, srec, r.asid, r.vi, q.owner, d, dest == 0x7FF, 0, q.layers, [], [], false, false, false, bs⟩] }
          CanSeal w' (q.owner % 8) r.asid srec q (nodeLayers n) →
          ∃ t, exec .twilightReservation s = .next t ∧ LayersSealed w' (q.owner % 8) r.asid srec q (nodeLayers n) t

/-- R77, R78, R83 to R88: the notice of a sealed layer starts its pulls, and a CANCEL sampled there ends them; a block that returns from a SEALED
source copy is converted and written to its IN_FLIGHT copy, and counted in the layer's seal record; during a cancellation it is only awaited. A committed hand-off's
notice frees the source copies; the notice that a cancelled one is released ends it. -/
def Obligations.LayersArePulledAndReleased : Prop :=
  open Sys2Proof Sys2Proof.Machine Sys2Proof.Claims in
  (∀ (s : State) (j : TwJob) (q : Srec) (tab : KvTab) (v : Nat), jobOf s s.sub.x = some j → j.srec = s.sub.x → j.cancelling = false → j.committed = false → j.die ≠ 0 →
    (∀ l ∈ j.layers, l.layer ≠ s.sub.a) → s.sub.a < j.nlayers → (∃ as, (s.sub.a, as) ∈ j.notes) →
    kvTab (engReader s j.die j.asid (s.asid j.asid).gen) q.btab q.layers = .ok tab → readSrec s j.asid (s.asid j.asid).gen j.srec = .ok q →
    engReader s j.die j.asid (s.asid j.asid).gen (q.seals + BitVec.ofNat 64 (32 * s.sub.a)) 32 = .ok v → v / 2 ^ 63 % 2 = 1 →
    let l : TwLayer := ⟨s.sub.a, v % 2 ^ 32, BitVec.ofNat 32 (v / 2 ^ 64), 0, 0, 1, false, false, List.range (v % 2 ^ 32)⟩
    (q.cancel = false → l.nblk ≠ 0 → ∀ ks, engKeys s j.die j.asid (s.asid j.asid).gen .wr (q.seals + BitVec.ofNat 64 (32 * s.sub.a) + 16).toNat 16 = .ok ks →
      ∃ t, exec .sealedNotice s = .next t ∧ t.tw = jobsWith s j.srec (fun k => { k with layers := k.layers ++ [l] })
        ∧ (s.Ok → Stored s t ks (bytesOf 16 (landedWords l))))
    ∧ (q.cancel = true → (∃ x ∈ j.layers, x.matched = false ∧ x.pulls ≠ []) →
        exec .sealedNotice s = .next { s with tw := jobsWith s j.srec fun k => { k with cancelling := true, layers := (pullsEnd j).layers } })
    ∧ (q.cancel = true → (∀ x ∈ j.layers, x.matched = true ∨ x.pulls = []) →
        ∃ t u, exec .sealedNotice s = .next t
          ∧ ReservedFreed { s with tw := jobsWith s j.srec fun k => { k with cancelling := true, layers := (pullsEnd j).layers } } u j q
          ∧ t = { u with tw := jobsWith u j.srec fun k => { k with freed := true, blocks := [] } }))
  ∧ (∀ (s : State) (j : TwJob) (q : Srec) (tab : KvTab) (l : TwLayer) (x : Nat × Nat × Nat × Nat) (a : W64) (ks : List Nat),
    jobOf s s.sub.x = some j → j.srec = s.sub.x → j.layers.find? (·.layer == s.sub.a) = some l → j.cancelling = false →
    readSrec s j.asid (s.asid j.asid).gen j.srec = .ok q → kvTab (engReader s j.die j.asid (s.asid j.asid).gen) q.btab q.layers = .ok tab →
    s.sub.b ∈ l.pulls.take 32 → l.pulls.erase s.sub.b ≠ [] → s.sub.p = false → s.sub.q = false → (layerBlocks q tab l.layer)[s.sub.b]? = some x →
    (∃ as, j.notes.find? (·.1 == l.layer) = some (l.layer, as) ∧ as[s.sub.b]? = some a) → a ≠ 0 → engKeys s j.die j.asid (s.asid j.asid).gen .rd a.toNat (blockBytes false tab.hdim) = .ok ks →
    (∀ z ∈ j.blocks, z.1 = l.layer * (layerBlocks q tab l.layer).length + s.sub.b → ∀ z' ∈ j.blocks, z'.1 = z.1 → z' = z) →
    ∀ dest, (l.layer * (layerBlocks q tab l.layer).length + s.sub.b, dest) ∈ j.blocks →
    let raw := homeBytes s ks
    let bm := leNat (raw.take 2)
    leNat (raw.take 64) / 2 ^ 16 % 8 = 2 → leNat (raw.take 64) / 2 ^ 48 % 2 ^ 16 = q.sgen →
    (∃ h0, kvHdr (engReader s j.die j.asid (s.asid j.asid).gen) dest.toNat = .ok h0 ∧ h0.state = 3 ∧ h0.gen = (q.sgen + 1) % 65536 ∧ h0.srec = j.srec) →
    ∀ sc out, ConvertedBlock x.2.2.1 tab.hdim bm (raw.drop 64) sc out →
    let h : KvHdr := ⟨bm, 4, dieGlob s j.die, (q.sgen + 1) % 65536, sc, crc32c 0 out, x.2.2.2, x.1, x.2.1, x.2.2.1, j.srec⟩
    let l1 := { l with landcrc := l.landcrc ^^^ crc32c 0 (bytesOf 4 x.2.2.2 ++ raw.drop 64), landn := l.landn + 1, pulls := l.pulls.erase s.sub.b }
    ∃ t u v w y, exec .twilightPullReturn s = .next t ∧ EngWrites s u j.die j.asid (dest + 64) out.length (leNat out)
      ∧ EngWrites u v j.die j.asid dest 64 h.value ∧ EngWrites v w j.die j.asid (kvHalfAt q.btab tab x.1 x.2.1 x.2.2.1 x.2.2.2 1) 8 dest.toNat
      ∧ EngWrites w y j.die j.asid (q.seals + BitVec.ofNat 64 (32 * l.layer) + 16) 16 (landedWords l1)
      ∧ Tab.get 0 t.nonfin (2 * j.die + l.layer % 2) = Tab.get 0 s.nonfin (2 * j.die + l.layer % 2) + infinities tab.hdim bm (raw.drop 64)
      ∧ ((∀ p ∈ [(s, dest + 64, out.length), (u, dest, 64), (v, kvHalfAt q.btab tab x.1 x.2.1 x.2.2.1 x.2.2.2 1, 8),
            (w, q.seals + BitVec.ofNat 64 (32 * l.layer) + 16, 16)],
          ∃ ks, engKeys p.1 j.die j.asid (s.asid j.asid).gen .wr p.2.1.toNat p.2.2 = .ok ks) →
        t.tw = jobsWith s j.srec (layerWith l.layer l1) ∧ MemSame y t))
  ∧ (∀ (s : State) (j : TwJob) (q : Srec) (l : TwLayer), jobOf s s.sub.x = some j → j.srec = s.sub.x → j.layers.find? (·.layer == s.sub.a) = some l →
    readSrec s j.asid (s.asid j.asid).gen j.srec = .ok q → s.sub.b ∈ l.pulls.take 32 → j.cancelling = true →
    let waiting := { s with tw := jobsWith s j.srec fun k => { k with layers := k.layers.map fun y =>
      if y.layer = l.layer then { y with pulls := y.pulls.erase s.sub.b } else y } }
    ((∃ y ∈ j.layers, (if y.layer = l.layer then y.pulls.erase s.sub.b else y.pulls) ≠ []) → exec .twilightPullReturn s = .next waiting)
    ∧ ((∀ y ∈ j.layers, (if y.layer = l.layer then y.pulls.erase s.sub.b else y.pulls) = []) →
        ∃ t u, exec .twilightPullReturn s = .next t ∧ ReservedFreed waiting u j q
          ∧ t = { u with tw := jobsWith u j.srec fun k => { k with freed := true, blocks := [] } }))
  ∧ (∀ (s : State) (j : TwJob) (q : Srec), jobOf s s.sub.x = some j → j.srec = s.sub.x → j.committed = true →
    readSrec s j.asid (s.asid j.asid).gen j.srec = .ok q →
    ∃ t u, exec .releaseNotice s = .next t ∧ CopiesFreed s u (j.src % 8) j.asid q 0 ∧ t = { u with tw := s.tw.filter fun k => k.srec != j.srec })
  ∧ ∀ (s : State) (j : TwJob) (q : Srec), jobOf s s.sub.x = some j → j.srec = s.sub.x → j.cancelling = true → j.freed = true →
    readSrec s j.asid (s.asid j.asid).gen j.srec = .ok q → ((s.vi j.vi).disabling = false ∨ q.cancel = true) →
    let gone := s.tw.filter fun k => k.srec != j.srec
    (q.state ≠ 2 → exec .releaseDoneNotice s = .next { s with tw := gone })
    ∧ (q.state = 2 → ∃ t, exec .releaseDoneNotice s = .next t ∧ t.tw = gone
      ∧ ∀ u, transit s j.asid (s.asid j.asid).gen j.srec q 5 q.owner q.sgen false = some u →
        ∃ v w x, ReservedFreed u v j q ∧ CopiesFreed { v with tw := gone } w hubDie j.asid q 0 ∧ CopiesFreed w x hubDie j.asid q 1 ∧ MemSame x t)

/-- R77, R88, R90: a fabric path that has been down for 1 ms is the loss of the die beyond it. A stream that does not use the die goes on as it is; a
hand-off whose destination was there, and which the scheduler chose, seeks another one while tries are left, with every block to be pulled again;
a stream that the die owned in DECODE becomes FAULTED and its copies are freed. -/
def Obligations.LostPathsEndStreams : Prop :=
  open Sys2Proof Sys2Proof.Machine Sys2Proof.Claims in
  ∀ (s : State), s.sub.a / 8 ≠ s.pkg.pkgnum.toNat → s.sub.a < 2048 →
    (∃ t, exec .fabricPathTimeout s = .next t)
    ∧ ((∀ asid srec, Admitted s asid srec → Unharmed s asid srec s.sub.a) → exec .fabricPathTimeout s = .next s)
    ∧ (∀ (asid : Nat) (srec : W64) (q : Srec) (j : TwJob), admissions s = [(asid, srec)] → readSrec s asid (s.asid asid).gen srec = .ok q → q.state = 2 →
        jobOf s srec = some j → j.die ≠ 0 → dieGlob s j.die = s.sub.a → dieGone s j.src = false → j.cancelling = false → j.any = true → j.retries < 3 →
        exec .fabricPathTimeout s = .next { s with tw := jobsWith s srec fun j =>
          { j with die := 0, blocks := [], layers := j.layers.map fun l => { l with pulls := [], matched := false } } })
    ∧ ∀ (u : State) (asid : Nat) (srec : W64) (q : Srec), admissions s = [(asid, srec)] → readSrec s asid (s.asid asid).gen srec = .ok q → q.state = 3 →
        q.owner = s.sub.a → jobOf s srec = none → transit s asid (s.asid asid).gen srec q 6 q.owner q.sgen false = some u →
        ∃ t v w, exec .fabricPathTimeout s = .next t ∧ CopiesFreed u v hubDie asid q 0 ∧ CopiesFreed v w hubDie asid q 1 ∧ t = { w with nodes := t.nodes }

/-- R81, R357, R361: a LANDED copy of a committed stream is rewritten to LIVE; a FREED block is wiped, and its slot is EMPTY again; the sliding window of a
stream in DECODE frees the copies whose last survivor lies before it, and no other. -/
def Obligations.BlocksAreRewrittenWipedAndPassed : Prop :=
  open Sys2Proof Sys2Proof.Machine Sys2Proof.Claims in
  (∀ (s : State) (h : KvHdr) (q : Srec), kvHdr (engReader s hubDie s.sub.a (s.asid s.sub.a).gen) s.sub.x.toNat = .ok h →
    readSrec s s.sub.a (s.asid s.sub.a).gen h.srec = .ok q → h.state = 4 → q.state = 3 → q.sgen = h.gen →
    ∃ t, exec .headerLiveRewrite s = .next t ∧ EngWrites (unsealAt s hubDie s.sub.a s.sub.x 64) t hubDie s.sub.a (s.sub.x + 2) 1 5)
  ∧ (∀ (s : State), s.Ok →
    let p := poolOf s s.sub.a s.sub.b
    let asid := poolSpace s s.sub.a p.base
    s.sub.c ∈ p.busy → (∀ w ∈ s.kvq, ¬ (w.vi = s.sub.a ∧ w.die = s.sub.b)) →
    (∃ v, engReader s hubDie asid (s.asid asid).gen (p.base + BitVec.ofNat 64 (s.sub.c * p.size * 64)) 64 = .ok v ∧ v / 2 ^ 16 % 8 = 6) →
    ∃ t u, exec .blockWipeComplete s = .next t ∧ SlotWiped s u s.sub.a s.sub.b s.sub.c ∧ MemSame u t ∧ t.sealed = u.sealed
      ∧ PoolBecomes s t s.sub.a s.sub.b { p with busy := p.busy.erase s.sub.c })
  ∧ ∀ (s : State) (q : Srec), readSrec s s.sub.a (s.asid s.sub.a).gen s.sub.x = .ok q → q.state = 3 →
    match kvTab (engReader s hubDie s.sub.a (s.asid s.sub.a).gen) q.btab q.layers with
    | .error _ => exec .slidingWindowRelease s = .next s
    | .ok tab => if tab.win = 0 then exec .slidingWindowRelease s = .next s
        else ∃ t, exec .slidingWindowRelease s = .next t ∧ WindowPasses s s.sub.a q tab (q.pos - tab.win) (allIndexes tab) t

/-- R358: the pool registers of a die take a write, and the pool begins to be wiped, while every slot is EMPTY; another write is ignored. When the wipe
completes, every slot reads as zero and is EMPTY. -/
def Obligations.PoolsAreSetAndWiped : Prop :=
  open Sys2Proof Sys2Proof.Machine Sys2Proof.Claims in
  (∀ (s : State), s.sub.a < 64 → (s.sub.b ≤ 5 ∨ 2048 ≤ s.sub.b ∧ s.sub.b < 4096) →
    let p := poolOf s s.sub.a s.sub.b
    (s.pkg.phase = .ready → p.wiping = false → p.busy = [] →
      let q := if s.sub.p then { p with n := (s.sub.x.extractLsb' 0 24).toNat, size := (s.sub.x.extractLsb' 24 16).toNat } else { p with base := s.sub.x }
      ∃ t, exec .blockPoolWrite s = .next t ∧ PoolBecomes s t s.sub.a s.sub.b { q with wiping := q.n != 0 } ∧ t = { s with vis := t.vis })
    ∧ (s.pkg.phase ≠ .ready ∨ p.wiping = true ∨ p.busy ≠ [] → exec .blockPoolWrite s = .next s))
  ∧ ∀ (s : State),
    let p := poolOf s s.sub.a s.sub.b
    p.wiping = true → (∀ w ∈ s.kvq, ¬ (w.vi = s.sub.a ∧ w.die = s.sub.b)) →
    ∃ t u, exec .poolWipeComplete s = .next t ∧ SlotsWiped s s.sub.a s.sub.b (List.range p.n) u ∧ MemSame u t
      ∧ PoolBecomes s t s.sub.a s.sub.b { p with wiping := false, busy := [] }

/-! ### Sampling and the commit of a token -/

namespace Sys2Proof.Claims

open Sys2Proof.Machine

/-- The hub writes n bytes of a value under an address space; a write that faults has no effect. -/
def HubWrites (s t : State) (asid : Nat) (a : W64) (n v : Nat) : Prop :=
  OnlyMem s t ∧ (s.Ok → t.Ok)
    ∧ (∀ ks, agentKeys s hubDie asid (s.asid asid).gen .wr a n = .ok ks → s.Ok → Stored s t ks (bytesOf n v) ∧ t.sealed = s.sealed)
    ∧ (∀ e, agentKeys s hubDie asid (s.asid asid).gen .wr a n = .error e → t = s)
/-- STAGE of a stage control block (R425). -/
def stageNo (b : List W64) : Nat := ((b.getD 0 0).extractLsb' 8 4).toNat
/-- The greatest of the logits of a row. -/
def IsGreatest (xs : List W32) (m : W32) : Prop := m ∈ xs ∧ ∀ x ∈ xs, cmpF (val32 m) (val32 x) ≠ .lt
/-- The logits of a row, shard by shard, as the engines reported them. -/
def rowLogits (x : Samp) (row : Nat) : List (List W32) :=
  (List.range x.desc.shards.length).map fun k => (((x.shards.find? (·.1 == k)).map (·.2)).getD []).getD row []
/-- The first token of a shard. -/
def firstToken (x : Samp) (k : Nat) : Nat := (x.desc.shards.getD k (0, 0, 0, 0)).2.1
/-- A logit of the reported row that R425 admits: no NaN. -/
def RowsClean (x : Samp) (row : Nat) : Prop := ∀ l ∈ rowLogits x row, ∀ w ∈ l, (val32 w).isNaN = false
/-- The token and the shard that a draw without a filter gives (R427 to R430); u and u' are the two random fractions in units of 2^-64. -/
def DrawnUnfiltered (x : Samp) (row : Nat) (greedy : Bool) (u u' : Nat) (y : Nat) : Prop :=
  let ls := rowLogits x row
  ∀ m, IsGreatest (negInf :: ls.flatten) m →
    let ws := ls.map fun l => l.map (weight m)
    let t := ws.flatten.sum
    if t = 0 then y = 0xFFFFFFFF
    else if greedy = true then
      let best (k i : Nat) : Prop := ∃ w, (ls.getD k [])[i]? = some w ∧ cmpF (val32 w) (val32 m) = .eq
      (∃ k i, best k i ∧ y = firstToken x k + i) ∧ ∀ k i, best k i → y ≤ firstToken x k + i
    else ∃ k i, k < ls.length ∧ i < (ls.getD k []).length ∧ y = firstToken x k + i
      ∧ 2 ^ 64 * ((ws.take k).flatten.sum) ≤ u * t ∧ u * t < 2 ^ 64 * ((ws.take (k + 1)).flatten.sum)
      ∧ 2 ^ 64 * (((ws.getD k []).take i).sum) ≤ u' * (ws.getD k []).sum ∧ u' * (ws.getD k []).sum < 2 ^ 64 * (((ws.getD k []).take (i + 1)).sum)
/-- The weight of a list of tokens. -/
def massOf (l : List Tok) : Nat := (l.map (·.2.2.2)).sum
/-- Token a may stand before token b in candidate order (R427): x descending, then token ascending. -/
def CandBefore (a b : Tok) : Prop :=
  cmpF (val32 b.2.2.1) (val32 a.2.2.1) ≠ .gt ∧ (cmpF (val32 b.2.2.1) (val32 a.2.2.1) = .eq → a.2.1 ≤ b.2.1)
/-- The token that a draw from survivors in candidate order gives (R430); u and u' are the two random fractions in units of 2^-64. -/
def DrawnFrom (nshard : Nat) (live : List Tok) (greedy : Bool) (u u' y : Nat) : Prop :=
  let part (k : Nat) := live.filter fun a => a.1 == k
  let sum (k : Nat) := ((List.range k).map fun j => massOf (part j)).sum
  if sum nshard = 0 then y = 0xFFFFFFFF
  else if greedy = true then ∃ a r, live = a :: r ∧ y = a.2.1
  else ∃ k before a after, k < nshard ∧ (before ++ a :: after).Perm (part k) ∧ (before ++ a :: after).Pairwise (fun a b => a.2.1 ≤ b.2.1) ∧ y = a.2.1
    ∧ 2 ^ 64 * sum k ≤ u * sum nshard ∧ u * sum nshard < 2 ^ 64 * sum (k + 1)
    ∧ 2 ^ 64 * massOf before ≤ u' * massOf (part k) ∧ u' * massOf (part k) < 2 ^ 64 * massOf (before ++ [a])
/-- What top-p keeps of tokens in candidate order whose reference weight is t (R428 step 3): the shortest prefix that is enough, or all of them. -/
def TopP (topp : W32) (t : Nat) (ks kept : List Tok) : Prop :=
  let enough (c : Nat) : Prop := ∀ sg m e, val32 topp = .fin sg m e → m * t ≤ c * 2 ^ (-e).toNat
  kept <+: ks ∧ ((enough (massOf kept) ∧ ∀ p, p <+: ks → p.length < kept.length → ¬ enough (massOf p))
    ∨ (kept = ks ∧ ∀ p, p <+: ks → ¬ enough (massOf p)))
/-- The survivors of a FILTER block, over the tokens l of a row in candidate order, none of which was cut from a list (R428). -/
def Survive (f : List W64) (all l live : List Tok) : Prop :=
  let topk := ((f.getD 2 0).extractLsb' 0 32).toNat
  let topp := (f.getD 3 0).extractLsb' 0 32
  let minp := unitsOf149 ((f.getD 4 0).extractLsb' 0 32)
  let ks := (if topk = 0 then l else l.take topk).filter fun a => minp ≤ a.2.2.2
  if topk = 0 ∧ topp = one32 ∧ minp = 0 then live = l.filter fun a => a.2.2.2 != 0
  else if topp = one32 then live = ks
  else TopP topp (if topk = 0 ∧ minp = 0 then massOf all else massOf ks) ks live
/-- The biases that name a token have been added to a logit in list order, each sum rounded (R425); the spec states no result where it is not a
number. -/
def BiasSteps (tok : Nat) (bs : List (Nat × W32)) (x y : W32) : Prop :=
  match bs with
  | [] => y = x
  | b :: r => ∃ z, BiasSteps tok r z y ∧ (b.1 ≠ tok → z = x)
    ∧ (b.1 = tok → let q := rne32 (addF 0 (val32 x) (val32 b.2)).1; (val32 q).isNaN = false → z = q)
/-- A logit of a token that occurs c times in its window, after PENALTY (R425). -/
def penalised (rep freq pres : W32) (c : Nat) (x : W32) : W32 :=
  if c = 0 then x
  else
    let y := if cmpF (val32 x) (.fin false 0 0) = .gt then rne32s (divF (val32 x) (val32 rep)).1 else rne32 (mulF (val32 x) (val32 rep)).1
    rne32 (addF 0 (addF 0 (val32 y) ((mulF (ofInt c) (val32 freq)).1.negate)).1 (val32 pres).negate).1
/-- The n words of 32 bits of a value. -/
def words32Of (v n : Nat) : List Nat := (List.range n).map fun j => v / 2 ^ (32 * j) % 2 ^ 32
/-- The walk of a VERIFY from node n (R431): the tokens emitted, each with the node accepted for it, 127 for the last. -/
def Walk (x : Samp) (m : MaskBlk) (drafts : List Nat) (seed : W64) (n : Nat) (es : List (Nat × Nat)) : Prop :=
  match es with
  | [] => False
  | e :: r =>
    let child (c : Nat) : Prop := c < m.nnode ∧ drafts.getD c 0xFFFFFFFF = e.1
      ∧ (n < c ∧ (m.anc.getD c 0).getLsbD n = true ∧ ∀ k, n < k → k < c → (m.anc.getD c 0).getLsbD k = false)
    let w6 := (x.chain.getLastD []).getD 6 0
    let stops := e.1 = 0xFFFFFFFF ∨ e.1 = (w6.extractLsb' 0 32).toNat ∨ e.1 = (w6.extractLsb' 32 32).toNat
    e.1 = (drawRow x seed n (m.pos.getD n 0 + 1)).1
      ∧ ((stops ∨ ¬ ∃ c, child c) → r = [] ∧ e.2 = 0x7F)
      ∧ (¬ stops → ∀ c, child c → (∀ d, child d → c ≤ d) → e.2 = c ∧ Walk x m drafts seed c r)
/-- Word 0 of an output record but for TRUNC (R432). -/
def recordWord0 (ntok status : Nat) (nan greedy : Bool) : Nat := ntok + 2 ^ 8 * (ntok - 1) + 2 ^ 16 * status + 2 ^ 21 * nan.toNat + 2 ^ 22 * greedy.toNat
/-- STATUS of an output record by the last token emitted (R432). -/
def recordStatus (chain : List (List W64)) (y : Nat) : Nat :=
  let w6 := (chain.getLastD []).getD 6 0
  if y = 0xFFFFFFFF then 1 else if y = (w6.extractLsb' 0 32).toNat ∨ y = (w6.extractLsb' 32 32).toNat then 2 else 0
/-- The request is greedy: a SCALE with TEMP +0 (R425). -/
def Greedy (chain : List (List W64)) : Prop := ∃ b, chain.find? (fun b => stageNo b == 0) = some b ∧ (b.getD 2 0).extractLsb' 0 32 = 0
/-- The entries of an output record (R432). -/
def entryWords (es : List (Nat × Nat)) : Nat := wordsNat (es.map fun e => BitVec.ofNat 64 (e.1 + 2 ^ 32 * e.2))
/-- A node's output record is written and the node is done (R423, R432). -/
def OutputWritten (s t : State) (n : GNode) (r : Region) (at' : W64) (es : List (Nat × Nat)) (w0 rootpos : Nat) : Prop :=
  ∀ ks, agentKeys s hubDie r.asid r.gen .wr at' (64 + 8 * es.length) = .ok ks → s.Ok →
    Stored s t ks (bytesOf (64 + 8 * es.length) (w0 + 2 ^ 64 * rootpos + 2 ^ 512 * entryWords es))
      ∧ ∀ m, t.node? n.nid = some m → m.finished = true

/-- The die of a sampler engine is being reset, so that the hub hands it no work (R417). -/
def EngineDown (s : State) (d : Nat) : Prop :=
  d / 8 = s.pkg.pkgnum.toNat ∧ (d % 8 ∈ s.downDies ∨ ∃ r ∈ s.rsts, r.die = d % 8 ∧ 6 ∈ r.quiet)
/-- The address of the chain that the SAMPLE node of an output record used (R423). -/
def ChainAt (s : State) (srec rec : W64) (q : Srec) : W64 :=
  match (s.nodes.filter fun n => kindOf n == 0x15 && n.words.getD 2 0 == srec && n.words.getD 5 0 == rec).getLast? with
  | some n => if n.words.getD 3 0 = 0 then q.scb else n.words.getD 3 0
  | none => q.scb
/-- What the commit makes of a stream once its words are written (R78, R434 steps 5 and 6), for a stream of the given state and no batch entry. -/
def StreamCommitted (s t : State) (asid : Nat) (srec : W64) (q : Srec) (ended : Bool) : Prop :=
  let g := (s.asid asid).gen
  (q.state = 3 → ended = false → q.cancel = false → t = s)
    ∧ (q.state = 3 → ended = true → ∀ u, transit s asid g srec q 4 q.owner q.sgen false = some u → jobOf s srec = none →
        ∃ v w, CopiesFreed u v hubDie asid q 0 ∧ CopiesFreed v w hubDie asid q 1
          ∧ ((∀ q', readSrec w asid g srec = .ok q' → q'.state = 4) → MemSame w t))

end Sys2Proof.Claims

/-- R31, R423, R425: a SAMPLE node whose stream is neither in PREFILL nor in DECODE writes an output record of STATUS 3 and is done; otherwise its chain and its
logits descriptor are handed to the sampler engines; what is malformed or cannot be read stops its graph. A well-formed chain has its
stages in ascending order and ends in its only DRAW or VERIFY. -/
def Obligations.SampleNodesStart : Prop :=
  open Sys2Proof Sys2Proof.Machine Sys2Proof.Claims in
  (∀ (s : State) (n : GNode) (r : Region) (q : Srec), MayStart s n r → kindOf n = 0x15 → q.kind = 0x30 → q.clean = true →
    let w (k : Nat) : W64 := n.words.getD k 0
    let run := { s with nodes := nodesWith s n.nid fun m => { m with st := .running } }
    let idle := q.state ≠ 1 ∧ q.state ≠ 3
    readSrec s r.asid r.gen (w 2) = .ok q →
    (∀ d ks, idle → readLogits s r.asid r.gen (w 4) = .ok d → agentKeys s hubDie r.asid r.gen .wr (w 5) 64 = .ok ks → s.Ok →
      ∃ t, exec .sampleNode s = .next t ∧ Stored s t ks (bytesOf 64 (2 ^ 16 * 3 + 2 ^ 64 * d.rootpos)) ∧ t.nodes = nodesWith s n.nid workDone)
    ∧ (∀ e, ¬ idle → readChain s r.asid r.gen 7 (if w 3 = 0 then q.scb else w 3) none = .error e →
        ∃ t, exec .sampleNode s = .next t ∧ NodeFails s t n e.1 e.2)
    ∧ ∀ chain d, ¬ idle → readChain s r.asid r.gen 7 (if w 3 = 0 then q.scb else w 3) none = .ok chain →
        readLogits s r.asid r.gen (w 4) = .ok d →
        (∀ b ∈ chain, stageNo b = 6 → ∃ m, verifyMask s r.asid r.gen d (b.getD 2 0) = .ok m) →
        exec .sampleNode s = .next { run with samps := s.samps ++ [⟨n.nid, w 2, chain, d, w 5, [], false⟩] })
  ∧ (∀ (s : State) (asid : Nat) (gen : BitVec 16) (va : W64) (chain : List (List W64)), readChain s asid gen 7 va none = .ok chain →
      chain ≠ [] ∧ (chain.map stageNo).Pairwise (· < ·)
        ∧ (∀ k b, chain[k]? = some b → ((stageNo b = 5 ∨ stageNo b = 6) ↔ k + 1 = chain.length))
        ∧ ∀ k b, chain[k]? = some b → ∃ a v, hubNat s asid gen a 64 = .ok v ∧ b = (List.range 8).map (fun j => BitVec.ofNat 64 (v / 2 ^ (64 * j)))
          ∧ a = (if k = 0 then va else (chain.getD (k - 1) []).getD 1 0))

/-- R423 to R432: the engine of a shard reports the logits of every row, a NaN as minus infinity, after the stages of the chain: the temperature, the
biases in list order, the mask, the penalty by the occurrences in the window; once every shard has reported, the merge draws by the exact weights
from the survivors, or takes the first of them when greedy, walks the tree of a VERIFY, and writes the output record. What survives a FILTER is
stated for lists that KP does not cut. -/
def Obligations.TokensAreDrawn : Prop :=
  open Sys2Proof Sys2Proof.Machine Sys2Proof.Claims in
  (∀ (s : State) (x : Samp) (n : GNode) (r : Region), s.samps.find? (·.nid == s.sub.a) = some x → s.node? s.sub.a = some n →
    s.region? n.rid = some r → s.sub.b < x.desc.shards.length → (∀ z ∈ x.shards, z.1 ≠ s.sub.b) →
    let e := x.desc.shards.getD s.sub.b (0, 0, 0, 0)
    ¬ EngineDown s e.2.2.2 →
    let rows := if stageNo (x.chain.getLastD []) = 6 then x.desc.nrow else 1
    let size := if x.desc.bf then 2 else 4
    let stage (k : Nat) := x.chain.find? (fun b => stageNo b == k)
    ∀ (vs : List Nat) (mask : Option Nat) (bs : List (Nat × W32)) (win : Nat → List Nat), vs.length = rows →
      (∀ k v, vs[k]? = some v → hubNat s r.asid r.gen (e.1 + BitVec.ofNat 64 (k * x.desc.rstride)) (size * e.2.2.1) = .ok v) →
      (stage 2 = none → mask = none) →
      (∀ b, stage 2 = some b → ∃ m, mask = some m
        ∧ hubNat s r.asid r.gen (b.getD 2 0 + BitVec.ofNat 64 (e.2.1 / 8)) ((e.2.1 + e.2.2.1 + 7) / 8 - e.2.1 / 8) = .ok m) →
      (stage 1 = none → bs = []) →
      (∀ b, stage 1 = some b → let c := ((b.getD 3 0).extractLsb' 0 13).toNat
        ∃ v, hubNat s r.asid r.gen (b.getD 2 0) (4 * (2 * c)) = .ok v
          ∧ bs = (List.range c).map fun j => (v / 2 ^ (64 * j) % 2 ^ 32, BitVec.ofNat 32 (v / 2 ^ (64 * j + 32) % 2 ^ 32))) →
      (∀ b, stage 3 = some b → ∀ k < rows, windowTokens s r.asid r.gen x.chain x.desc k (((b.getD 2 0).extractLsb' 0 16).toNat) = .ok (win k)) →
      ∃ t rs, exec .samplerShard s = .next t ∧ rs.length = rows
        ∧ t = { s with fresh := s.fresh + 1, samps := s.samps.map fun y => if y.nid = x.nid then
            { y with shards := y.shards ++ [(s.sub.b, rs)], nanseen := y.nanseen || vs.any fun v => (List.range e.2.2.1).any fun i =>
              (val32 (if x.desc.bf then BitVec.ofNat 32 (v / 2 ^ (16 * i) % 2 ^ 16 * 2 ^ 16) else BitVec.ofNat 32 (v / 2 ^ (32 * i)))).isNaN } else y }
        ∧ ∀ (k v : Nat), vs[k]? = some v → (rs.getD k []).length = e.2.2.1 ∧ ∀ i < e.2.2.1,
          let x0 : W32 := if x.desc.bf then BitVec.ofNat 32 (v / 2 ^ (16 * i) % 2 ^ 16 * 2 ^ 16) else BitVec.ofNat 32 (v / 2 ^ (32 * i))
          let x1 := if (val32 x0).isNaN then negInf else x0
          let x2 := match stage 0 with
            | none => x1
            | some b =>
              let temp : W32 := (b.getD 2 0).extractLsb' 0 32
              if temp = 0 then x1 else rne32s (divF (val32 x1) (val32 temp)).1
          ∃ x3, BiasSteps (e.2.1 + i) bs x2 x3 ∧
          let x4 := match mask with
            | none => x3
            | some m => if m.testBit (e.2.1 % 8 + i) then x3 else negInf
          (rs.getD k [])[i]? = some (match stage 3 with
            | none => x4
            | some b => penalised ((b.getD 3 0).extractLsb' 0 32) ((b.getD 4 0).extractLsb' 0 32) ((b.getD 4 0).extractLsb' 32 32)
                ((win k).count (e.2.1 + i)) x4))
  ∧ (∀ (s : State) (asid : Nat) (gen : BitVec 16) (chain : List (List W64)) (d : LogitDesc) (row w : Nat),
    let last := chain.getLastD []
    let toks := last.getD 7 0
    (stageNo last = 5 → let lo := d.rootpos + 1 - w
      ∀ v, hubNat s asid gen (toks + BitVec.ofNat 64 (4 * lo)) (4 * (d.rootpos + 1 - lo)) = .ok v →
        windowTokens s asid gen chain d row w = .ok (words32Of v (d.rootpos + 1 - lo)))
    ∧ ∀ m ds, stageNo last ≠ 5 → verifyMask s asid gen d (last.getD 2 0) = .ok m → words32 s asid gen (last.getD 3 0) m.nnode = .ok ds →
      let p := m.pos.getD row 0
      let lo := p + 1 - w
      let n := min p d.rootpos + 1 - lo
      let drafts := ((List.range m.nnode).filter fun k => ((m.anc.getD row 0).getLsbD k || k == row) && d.rootpos < m.pos.getD k 0
        && lo ≤ m.pos.getD k 0).map fun k => ds.getD k 0
      (d.rootpos < lo → windowTokens s asid gen chain d row w = .ok drafts)
      ∧ (lo ≤ d.rootpos → ∀ v, hubNat s asid gen (toks + BitVec.ofNat 64 (4 * lo)) (4 * n) = .ok v →
          windowTokens s asid gen chain d row w = .ok (words32Of v n ++ drafts)))
  ∧ (∀ (s : State) (x : Samp) (n : GNode) (r : Region) (q : Srec), s.samps.find? (·.nid == s.sub.a) = some x → s.node? s.sub.a = some n →
    s.region? n.rid = some r → x.desc.shards.length ≤ x.shards.length → readSrec s r.asid r.gen x.srec = .ok q →
    (stageNo (x.chain.getLastD []) = 5 → (∀ b ∈ x.chain, stageNo b ≠ 4) → RowsClean x 0 →
      ∃ t y g, exec .samplerMerge s = .next t ∧ (g = true ↔ Greedy x.chain)
        ∧ DrawnUnfiltered x 0 g (uniform q.seed (x.desc.rootpos + 1) 0) (uniform q.seed (x.desc.rootpos + 1) 1) y
        ∧ OutputWritten s t n r (n.words.getD 5 0) [(y, 0x7F)] (recordWord0 1 (recordStatus x.chain y) x.nanseen g) x.desc.rootpos)
    ∧ (stageNo (x.chain.getLastD []) = 5 →
        let live := survivors x.chain (rowTokens x 0)
        ∃ t y g, exec .samplerMerge s = .next t ∧ (g = true ↔ Greedy x.chain)
          ∧ DrawnFrom x.desc.shards.length live.1 g (uniform q.seed (x.desc.rootpos + 1) 0) (uniform q.seed (x.desc.rootpos + 1) 1) y
          ∧ OutputWritten s t n r (n.words.getD 5 0) [(y, 0x7F)] (recordWord0 1 (recordStatus x.chain y) x.nanseen g + 2 ^ 20 * live.2.toNat) x.desc.rootpos)
    ∧ (∀ m ds, stageNo (x.chain.getLastD []) = 6 → verifyMask s r.asid r.gen x.desc ((x.chain.getLastD []).getD 2 0) = .ok m → m.nnode ≤ 64 →
        words32 s r.asid r.gen ((x.chain.getLastD []).getD 3 0) m.nnode = .ok ds →
        ∃ t es g, exec .samplerMerge s = .next t ∧ (g = true ↔ Greedy x.chain) ∧ Walk x m ds q.seed 0 es
          ∧ ∃ trunc : Bool, OutputWritten s t n r (n.words.getD 5 0) es
            (recordWord0 es.length (recordStatus x.chain (es.getLastD (0, 0)).1) x.nanseen g + 2 ^ 20 * trunc.toNat) x.desc.rootpos))
  ∧ ∀ (x : Samp) (row : Nat) (f : List W64), RowsClean x row → x.chain.find? (fun b => stageNo b == 4) = some f →
    let rows := rowTokens x row
    (∀ m, IsGreatest (negInf :: (rowLogits x row).flatten) m → ∀ k l, rows[k]? = some l → ∃ ws : List W32, (rowLogits x row)[k]? = some ws
      ∧ l = ws.zipIdx.map fun p => (k, firstToken x k + p.2, p.1, weight m p.1))
    ∧ ((∀ l ∈ rows, (l.filter fun a => a.2.2.1 != negInf).length ≤ ((f.getD 5 0).extractLsb' 0 11).toNat) →
        ∃ l, l.Perm (rows.flatten.filter fun a => a.2.2.1 != negInf) ∧ l.Pairwise CandBefore
          ∧ Survive f rows.flatten l (survivors x.chain rows).1 ∧ (survivors x.chain rows).2 = false)

/-- R78, R361, R434: the loop core writes the tokens of an output record, then POS, then GENTOK, applies the sliding window, and ends the stream when its
generation has ended; it skips a record of STATUS 3 and a region that failed. A stream in DECODE that goes on, without a sliding window and with CANCEL
0, keeps everything else. -/
def Obligations.TokensAreCommitted : Prop :=
  open Sys2Proof Sys2Proof.Machine Sys2Proof.Claims in
  ∀ (s : State) (q : Srec) (hd : Nat),
    let asid := (s.vi s.sub.a).asidbase
    let g := (s.asid asid).gen
    readSrec s asid g s.sub.x = .ok q → hubNat s asid g s.sub.y 64 = .ok hd → s.pkg.phase = .ready →
    (hd / 2 ^ 16 % 8 = 3 → exec .loopCoreCommit s = .next s)
    ∧ ∀ chain es, hd / 2 ^ 16 % 8 ≠ 3 → (∀ o ∈ s.regions, o.completed = false) → s.sub.opt = none →
      readChain s asid g 7 (ChainAt s s.sub.x s.sub.y q) none = .ok chain → hubNat s asid g (s.sub.y + 64) (8 * (hd % 2 ^ 7)) = .ok es →
      let k := min (hd % 2 ^ 7) (q.maxtok - q.gentok)
      let toks := (List.range k).map fun j => es / 2 ^ (64 * j) % 2 ^ 32
      let root := hd / 2 ^ 64 % 2 ^ 32
      let w6 := (chain.getLastD []).getD 6 0
      let ended := q.gentok + k = q.maxtok ∨ hd / 2 ^ 16 % 8 = 1 ∨ hd / 2 ^ 16 % 8 = 2
        ∨ ∃ y ∈ toks, y ≠ 0xFFFFFFFF ∧ (y = (w6.extractLsb' 0 32).toNat ∨ y = (w6.extractLsb' 32 32).toNat)
      ∃ t u v w x, exec .loopCoreCommit s = .next t
        ∧ HubWrites s u asid ((chain.getLastD []).getD 7 0 + BitVec.ofNat 64 (4 * (root + 1))) (4 * k) (toks.foldr (fun y acc => y + 2 ^ 32 * acc) 0)
        ∧ HubWrites u v asid (s.sub.x + 40) 8 (q.prompt + 2 ^ 32 * ((root + hd / 2 ^ 8 % 2 ^ 6 + 1) % 2 ^ 32))
        ∧ HubWrites v w asid (s.sub.x + 48) 8 (q.maxtok + 2 ^ 32 * (q.gentok + k))
        ∧ (∀ q1, readSrec w asid g s.sub.x = .ok q1 → ∀ tab, kvTab (engReader w hubDie asid g) q1.btab q1.layers = .ok tab →
            (tab.win = 0 ∨ q1.state ≠ 3 → x = w)
              ∧ (tab.win ≠ 0 → q1.state = 3 → WindowPasses w asid q1 tab (q1.pos - tab.win) (allIndexes tab) x))
        ∧ (∀ q2, readSrec x asid g s.sub.x = .ok q2 → ∀ b : Bool, (b = true ↔ ended) → StreamCommitted x t asid s.sub.x q2 b)
        ∧ ((∃ q1, readSrec w asid g s.sub.x = .ok q1 ∧ q1.state = 3 ∧ q1.cancel = false
              ∧ ∀ tab, kvTab (engReader w hubDie asid g) q1.btab q1.layers = .ok tab → tab.win = 0) → ¬ ended → t = w)

/-! ### Virtual interfaces -/

namespace Sys2Proof.Claims

open Sys2Proof.Machine

/-- Only the interfaces may differ, and one of them is as given. -/
def ViBecomes (s t : State) (n : Nat) (v : Vi) : Prop := t = { s with vis := t.vis } ∧ ∀ k, t.vi k = if k = n then v else s.vi k
/-- Two ranges share no number. -/
def Apart (a n b m : Nat) : Prop := ∀ k, ¬ (a ≤ k ∧ k < a + n ∧ b ≤ k ∧ k < b + m)
/-- The other interfaces that are enabled. -/
def othersOn (s : State) (n : Nat) : List Vi := (s.vis.filter fun x => x.1 != n && x.2.en).map (·.2)
/-- EN takes 1 (R53, R448). -/
def MayEnable (s : State) (n : Nat) : Prop :=
  let v := s.vi n
  v.asidbase + v.asidn ≤ 4096 ∧ v.tqbase + v.tqn ≤ 64 ∧ s.pkg.lcs ≠ 3 ∧ v.mincores + ((othersOn s n).map (·.mincores)).sum ≤ 2560
    ∧ ∀ w ∈ othersOn s n, Apart v.asidbase v.asidn w.asidbase w.asidn ∧ Apart v.tqbase v.tqn w.tqbase w.tqn
/-- A field of a word that is written. -/
def fieldAt (x : W64) (lo n : Nat) : Nat := (x.extractLsb' lo n).toNat
/-- A work queue of an interface. -/
def queueAt (v : Vi) (k : Nat) : WorkQ := v.wq.getD k WorkQ.zero
/-- An interface with one work queue changed. -/
def withQueue (v : Vi) (k : Nat) (q : WorkQ) : Vi := { v with wq := v.wq.setIfInBounds k q }
/-- A queue serves entries: enabled, of 16 to 65,536 entries (R56). -/
def Serving (q : WorkQ) : Prop := q.en = true ∧ 4 ≤ q.log2n ∧ q.log2n ≤ 16
/-- An interface's configuration block after a write (R53). -/
def configured (v : Vi) (off : Nat) (x : W64) : Vi :=
  if off = 0x08 then { v with asidbase := fieldAt x 0 12, asidn := fieldAt x 16 13 }
  else if off = 0x10 then { v with cores := fieldAt x 0 16, mincores := fieldAt x 16 16, bvc := fieldAt x 32 16 }
  else if off = 0x18 then { v with lease := fieldAt x 0 11, bw := fieldAt x 16 11, priomax := fieldAt x 32 4 }
  else if off = 0x20 then { v with scratch := fieldAt x 0 32 }
  else if off = 0x28 then { v with tqbase := fieldAt x 0 6, tqn := fieldAt x 8 7 }
  else v
/-- The VI page after a write to a register that only stores (R56, R302, R396). -/
def pageStored (v : Vi) (off : Nat) (x : W64) : Option Vi :=
  if off < 0x20 ∧ off % 8 = 0 then some (withQueue v (off / 8) { queueAt v (off / 8) with base := x })
  else if off = 0x88 then some { v with btbase := x }
  else if off = 0x90 then some { v with btn := fieldAt x 0 11 }
  else if off = 0xC8 then some { v with arg := x }
  else if off = 0x310 then some { v with trapbase := x }
  else if off = 0x318 then some { v with trapn := fieldAt x 0 16, trapcnt := (x.extractLsb' 32 16).setWidth 64 }
  else if off = 0x328 then some { v with wdlim := x.extractLsb' 0 16 }
  else none

/-- A record of a failure (R57, R58): the first one stands until it is read. -/
def failed (v : Vi) (k code : Nat) (entry : W32) : W64 :=
  if v.wqerr.getLsbD 63 then v.wqerr else 1#1 ++ 0#15 ++ entry ++ BitVec.ofNat 8 code ++ 0#6 ++ BitVec.ofNat 2 k
/-- The entry at the head of queue k of an interface has been taken: the head has advanced and the turn has passed (R57). -/
def taken (v : Vi) (k : Nat) : Vi := { withQueue v k { queueAt v k with head := (queueAt v k).head + 1 } with turn := (k + 1) % 4 }
/-- The hub reads the head entry of queue k (R57). -/
def HeadIs (s : State) (vi k : Nat) (e : List W64) : Prop :=
  let q := queueAt (s.vi vi) k
  let asid := (s.vi vi).asidbase
  ∃ v, hubNat s asid (s.asid asid).gen (q.base + BitVec.ofNat 64 (64 * (q.head.toNat % 2 ^ q.log2n))) 64 = .ok v
    ∧ e = (List.range 8).map fun j => BitVec.ofNat 64 (v / 2 ^ (64 * j))
/-- OP of an entry (R58). -/
def opOf (e : List W64) : Nat := fieldAt (e.getD 0 0) 0 8
/-- The iteration of a control block is in flight in a VI (R62). -/
def InFlight' (s : State) (vi : Nat) (rcb : W64) : Prop :=
  ∃ r ∈ s.regions, r.vi = vi ∧ r.va = rcb ∧ r.completed = false ∧ ∃ i n ls, r.origin = .iterate i n ls
/-- Queue k has nothing to serve now: it is off or empty, or its head is an ITERATE whose control block is in flight (R57, R62). -/
def Idles (s : State) (vi k : Nat) : Prop :=
  ¬ Serving (queueAt (s.vi vi) k) ∨ (queueAt (s.vi vi) k).head = (queueAt (s.vi vi) k).tail
    ∨ ∃ e, HeadIs s vi k e ∧ opOf e = 3 ∧ InFlight' s vi (e.getD 1 0)
/-- The subject's queue is served now: the first from the turn on, round robin, that does not idle (R57). -/
structure Served (s : State) : Prop where
  on : viOn s s.sub.a = true
  ready : s.pkg.phase = .ready
  first : ∃ j, s.sub.b = ((s.vi s.sub.a).turn + j) % 4 ∧ j < 4 ∧ ∀ i < j, Idles s s.sub.a (((s.vi s.sub.a).turn + i) % 4)
  busy : ¬ Idles s s.sub.a s.sub.b
/-- The head entry fails: it is recorded and taken, and has no other effect (R58). -/
def EntryFails (s t : State) (code : Nat) : Prop :=
  let v := s.vi s.sub.a
  ViBecomes s t s.sub.a (taken { v with wqerr := failed v s.sub.b code (queueAt v s.sub.b).head } s.sub.b)
/-- Words 4 to 7 and the bits of word 0 above OP are zero. -/
def RestZero (e : List W64) : Prop := (e.getD 0 0).extractLsb' 8 56 = 0 ∧ ∀ k, 4 ≤ k → e.getD k 0 = 0
/-- A pointer to a structure of an alignment, or 0 (R30, R58). -/
def PtrOk (align : Nat) (p : W64) : Prop := p.toNat < 2 ^ 60 ∧ p.toNat % align = 0
/-- The active root region of a VI, whose effective fields are fixed. -/
def ActiveRoot (s : State) (vi : Nat) (r : Region) : Prop :=
  (s.vi vi).rootact = true ∧ (∃ k, (s.vi vi).root = some k ∧ s.region? k = some r) ∧ (r.started = true ∨ r.status ≠ 0)
/-- The hub can read n bytes of a structure. -/
def Readable (s : State) (asid : Nat) (gen : BitVec 16) (a : W64) (n : Nat) : Prop := ∃ v, hubNat s asid gen a n = .ok v
/-- A region has been named below another, by an entry (R58). -/
def NamedUnder (s t : State) (r : Region) (va : W64) (o : Origin) : Prop :=
  ∃ c, t.regions = (s.regions.map fun q => if q.rid = r.rid then { q with children := q.children ++ [s.nextId] } else q)
      ++ [if s.nextId = r.rid then { c with children := c.children ++ [s.nextId] } else c]
    ∧ t.nextId = s.nextId + 1 ∧ c.rid = s.nextId ∧ c.va = va ∧ c.parent = some r.rid ∧ c.depth = r.depth + 1 ∧ c.vi = r.vi ∧ c.origin = o
    ∧ c.asid = r.asid ∧ c.gen = r.gen ∧ c.started = false ∧ c.completed = false ∧ c.stopped = false ∧ c.children = []

/-- Valid(c) of a batch-table entry read as v (R60). -/
def BatchValid (s : State) (vi : Nat) (r : Region) (v : Nat) : Prop :=
  v / 2 ^ 33 % 2 ^ 7 = 0 ∧ v / 2 ^ 48 % 2 ^ 16 = 0 ∧ v / 2 ^ 192 % 2 ^ 64 = 0 ∧ v / 2 ^ 40 % 2 ^ 8 ≤ 64
    ∧ (v / 2 ^ 32 % 2 = 1 → v / 2 ^ 64 % 2 ^ 64 ≠ 0 ∧ ∃ q, readSrec s r.asid r.gen (BitVec.ofNat 64 (v / 2 ^ 64)) = .ok q ∧ q.vi = vi)
/-- Entry i, as read, is torn (R60): its VERSION is odd, or changed between the two reads of it. -/
def Torn (s : State) (i x : Nat) : Prop := x % 2 = 1 ∨ i ∈ s.sub.torn
/-- CANCEL of a stream that a snapshot lists changes nothing (R78): it is 0, or the stream is not in DECODE. -/
def NotCancelled (s : State) (r : Region) (srec : W64) : Prop :=
  ∀ q, readSrec s r.asid (s.asid r.asid).gen srec = .ok q → q.cancel = false ∨ q.state ≠ 3
/-- The last copies and counters after entries i, i + 1, ... have been taken (R60): vs are the entries as read. -/
def BatchesTaken (s : State) (vi : Nat) (r : Region) (vs : List Nat) (i : Nat) (v : Vi) (torn : Nat) (w : Vi) (torn' : Nat) : Prop :=
  match vs with
  | [] => w = v ∧ torn' = torn
  | x :: rest => ∃ u k, BatchesTaken s vi r rest (i + 1) u k w torn'
    ∧ (Torn s i x → u = { v with torncnt := v.torncnt + 1 } ∧ k = torn + 1)
    ∧ (¬ Torn s i x → k = torn ∧ (BatchValid s vi r x → u = { v with batch := u.batch }
          ∧ ∀ j, Tab.get Batch.zero u.batch j = if j = i then ⟨x / 2 ^ 32 % 2 == 1, x / 2 ^ 40 % 2 ^ 8, BitVec.ofNat 64 (x / 2 ^ 64), BitVec.ofNat 64 (x / 2 ^ 128)⟩
              else Tab.get Batch.zero v.batch j)
        ∧ (¬ BatchValid s vi r x → u = { v with badcnt := v.badcnt + 1 }))
/-- A hand-off of an interface that is neither committed nor has freed the copies it had reserved (R54, R88). -/
def AtWork (vi : Nat) (j : TwJob) : Prop := j.vi = vi ∧ j.committed = false ∧ j.freed = false
/-- The entry of a snapshot for slot i (R61). -/
def SnapEntryIs (s : State) (r : Region) (i : Nat) (b : Batch) (x : Nat) : Prop :=
  ∃ q, readSrec s r.asid r.gen b.stream = .ok q
    ∧ x = i + 2 ^ 40 * b.ndraft + 2 ^ 64 * b.stream.toNat + 2 ^ 128 * q.pos + 2 ^ 160 * q.gentok + 2 ^ 192 * b.user.toNat

end Sys2Proof.Claims

/-- R53, R56, R57, R72, R302, R303, R396, R443, R448: the registers of an interface take their fields in READY: EN under its conditions, STOP, the
configuration block while EN is 0, the VI page, the depths and flushes of token queues, the tail of a work queue; some reads clear. Before READY writes are ignored and reads give zero. -/
def Obligations.InterfaceRegisters : Prop :=
  open Sys2Proof Sys2Proof.Machine Sys2Proof.Claims in
  (∀ (s : State), s.sub.a < 64 → s.pkg.phase ≠ .ready →
    (∀ i ∈ [Instr.viEnable, .viStop, .viDisable, .saveSlotConfigWrite, .tokenQueueDepthWrite, .tokenQueueFlush, .registerWrite], exec i s = .next s)
    ∧ ∀ p ∈ [(Instr.wqerrRead, 1), (.traplostRead, 2), (.degcntRead, 3)], exec p.1 s = .next { s with replies := s.replies ++ [⟨p.2, [0]⟩] })
  ∧ (∀ (s : State), s.sub.a < 64 → s.pkg.phase = .ready →
    let n := s.sub.a
    let v := s.vi n
    let l := s.sub.b
    let held := (Tab.get [] s.tqs (v.tqbase + l)).length
    (v.en = false → MayEnable s n → ∃ t, exec .viEnable s = .next t ∧ ViBecomes s t n { v with en := true })
    ∧ (v.en = true ∨ ¬ MayEnable s n → exec .viEnable s = .next s)
    ∧ (∃ t, exec .viStop s = .next t ∧ ViBecomes s t n (if v.disabling then v else { v with stop := s.sub.p }))
    ∧ (∃ t, exec .wqerrRead s = .next t ∧ ViBecomes { s with replies := s.replies ++ [⟨1, [v.wqerr]⟩] } t n { v with wqerr := 0 })
    ∧ (∃ t, exec .traplostRead s = .next t ∧ ViBecomes { s with replies := s.replies ++ [⟨2, [(v.traplost.extractLsb' 0 32).setWidth 64]⟩] } t n
        { v with traplost := 0 })
    ∧ (∃ t, exec .degcntRead s = .next t ∧ ViBecomes { s with replies := s.replies ++ [⟨3, [(v.degcnt.extractLsb' 0 32).setWidth 64]⟩] } t n
        { v with degcnt := 0 })
    ∧ (v.saveuse = 0 → s.sub.b = 0x300 → ∃ t, exec .saveSlotConfigWrite s = .next t ∧ ViBecomes s t n { v with savebase := s.sub.x })
    ∧ (v.saveuse = 0 → s.sub.b = 0x308 → ∃ t, exec .saveSlotConfigWrite s = .next t
        ∧ ViBecomes s t n { v with saven := fieldAt s.sub.x 0 16, savesz := fieldAt s.sub.x 16 16 })
    ∧ (v.saveuse ≠ 0 → exec .saveSlotConfigWrite s = .next s)
    ∧ (l < v.tqn → held ≤ s.sub.c % 512 → ∃ t, exec .tokenQueueDepthWrite s = .next t ∧ ViBecomes s t n { v with depth := (t.vi n).depth }
        ∧ ∀ k, Tab.get 0 (t.vi n).depth k = if k = l then s.sub.c % 512 else Tab.get 0 v.depth k)
    ∧ (v.tqn ≤ l ∨ s.sub.c % 512 < held → exec .tokenQueueDepthWrite s = .next s)
    ∧ (∃ t, exec .tokenQueueFlush s = .next t ∧ t = { s with tqs := t.tqs }
        ∧ ∀ k, Tab.get [] t.tqs k = if l < v.tqn ∧ k = v.tqbase + l then [] else Tab.get [] s.tqs k)
    ∧ (s.sub.b < 4 →
        let q := { queueAt v s.sub.b with tail := s.sub.x.extractLsb' 0 32 }
        let exceeds := 2 ^ q.log2n < (q.tail - q.head).toNat
        (¬ exceeds → ∃ t, exec .wqTailWrite s = .next t ∧ ViBecomes s t n (withQueue v s.sub.b q))
        ∧ (exceeds → ∃ t e, exec .wqTailWrite s = .next t ∧ ViBecomes { s with fresh := s.fresh + 1 } t n
            { withQueue v s.sub.b { q with en := false, head := q.tail } with wqerr := failed v s.sub.b 1 e })))
  ∧ (∀ (s : State) (n off : Nat), s.pkg.phase = .ready → s.sub.opt = none → n < 64 → off < 64 → s.sub.a = 0x2000 + 64 * n + off →
    ∃ t, exec .registerWrite s = .next t ∧ ViBecomes s t n (if (s.vi n).en then s.vi n else configured (s.vi n) off s.sub.x))
  ∧ (∀ (s : State) (w : Nat), s.pkg.phase = .ready → s.sub.opt = none → w < 2048 → s.sub.a = 0x8000 + 8 * w →
    ∃ t, exec .registerWrite s = .next t ∧ t = { s with vaults := t.vaults }
      ∧ ∀ k, t.vault k = if k = w then { s.vault w with retidle := s.sub.x.extractLsb' 0 16 } else s.vault k)
  ∧ ∀ (s : State) (n : Nat), s.pkg.phase = .ready → s.sub.opt = some n → n < 64 →
    let v := s.vi n
    let x := s.sub.x
    (∀ w, pageStored v s.sub.a x = some w → ∃ t, exec .registerWrite s = .next t ∧ ViBecomes s t n w)
    ∧ (s.sub.a = 0x20 → ∃ t w, exec .registerWrite s = .next t ∧ ViBecomes s t n w ∧ w = { v with wq := w.wq }
        ∧ ∀ k < 4, queueAt w k = { queueAt v k with log2n := fieldAt x (8 * k) 5, en := x.getLsbD (8 * k + 7) })
    ∧ (s.sub.a = 0xC0 →
        let op := fieldAt x 16 3
        let go := x.getLsbD 31 = true ∧ v.cmdBusy = false
        let starts := go ∧ 1 ≤ op ∧ op ≤ 5
        ∃ t, exec .registerWrite s = .next t ∧ t = { s with vis := t.vis, agenda := t.agenda }
          ∧ (∀ k, t.vi k = if k = n then { v with
                cmdAsid := x.extractLsb' 0 12, cmdOp := x.extractLsb' 16 3, cmdErr := (t.vi n).cmdErr
                cmdBusy := (t.vi n).cmdBusy, cmdRun := (t.vi n).cmdRun } else s.vi k)
          ∧ (starts → (t.vi n).cmdBusy = true ∧ (t.vi n).cmdRun = some (op, fieldAt x 0 12, v.arg))
          ∧ (¬ starts → (t.vi n).cmdBusy = v.cmdBusy ∧ (t.vi n).cmdRun = v.cmdRun)
          ∧ ((t.vi n).cmdErr = true ↔ v.cmdErr = true ∨ (go ∧ (op = 0 ∨ op = 6 ∨ op = 7)))
          ∧ (¬ go → t.agenda = s.agenda)
          ∧ (go → t.agenda = (if op = 1 then [.event .viTlbInvalidateAll { a := n }] else if op = 2 then [.event .viTlbInvalidatePage { a := n }]
              else if op = 3 then [.event .viGenAdvance { a := n }] else if op = 4 then [.event .viGenAdvanceRoot { a := n }]
              else if op = 5 then [.event .viProbe { a := n }] else []) ++ s.agenda))

/-- R57, R58, R60 to R63: the entry at the head of the queue whose turn it is: one that cannot be read or is malformed is recorded and taken; NOP is taken;
START names the root or a region under it; ADMIT checks the record and names the stream's region; ITERATE takes a snapshot, if it asks for
one, and names its region. -/
def Obligations.WorkQueuesServe : Prop :=
  open Sys2Proof Sys2Proof.Machine Sys2Proof.Claims in
  ∀ (s : State), Served s →
    let n := s.sub.a
    let v := s.vi n
    let asid := v.asidbase
    ((¬ ∃ e, HeadIs s n s.sub.b e) → ∀ i ∈ [Instr.wqNop, .wqStart, .wqAdmit, .wqIterate], ∃ t, exec i s = .next t ∧ EntryFails s t 5)
    ∧ ∀ e, HeadIs s n s.sub.b e →
      let p := e.getD 1 0
      let x := e.getD 2 0
      let took := taken v s.sub.b
      ((∀ w ∈ e, w = 0) → ∃ t, exec .wqNop s = .next t ∧ ViBecomes s t n took)
      ∧ ((opOf e = 0 ∨ 4 ≤ opOf e) → (∃ w ∈ e, w ≠ 0) → ∃ t, exec .wqNop s = .next t ∧ EntryFails s t 2)
      ∧ (opOf e = 1 →
          let good := RestZero e ∧ x.extractLsb' 1 63 = 0 ∧ e.getD 3 0 = 0 ∧ PtrOk 128 p
          (¬ good → ∃ t, exec .wqStart s = .next t ∧ EntryFails s t 2)
          ∧ (good → x.getLsbD 0 = v.rootact → ∃ t, exec .wqStart s = .next t ∧ EntryFails s t 3)
          ∧ (good → x.getLsbD 0 = true → v.rootact = false → ¬ Readable s asid (s.asid asid).gen p 128 →
              ∃ t, exec .wqStart s = .next t ∧ EntryFails s t 5)
          ∧ (good → x.getLsbD 0 = true → v.rootact = false → Readable s asid (s.asid asid).gen p 128 →
              ∃ t c, exec .wqStart s = .next t ∧ ViBecomes { s with regions := s.regions ++ [c], nextId := s.nextId + 1 } t n
                  { took with rootact := true, root := some s.nextId }
                ∧ c.rid = s.nextId ∧ c.va = p ∧ c.parent = none ∧ c.depth = 0 ∧ c.vi = n ∧ c.origin = .root ∧ c.started = false ∧ c.completed = false)
          ∧ ∀ r, good → x.getLsbD 0 = false → ActiveRoot s n r →
              (¬ Readable s r.asid r.gen p 128 → ∃ t, exec .wqStart s = .next t ∧ EntryFails s t 5)
              ∧ (Readable s r.asid r.gen p 128 → ∃ t u, exec .wqStart s = .next t ∧ NamedUnder s t r p .child
                  ∧ ViBecomes s u n took ∧ t = { u with regions := t.regions, nextId := t.nextId }))
      ∧ (opOf e = 2 →
          let good := RestZero e ∧ x.extractLsb' 0 16 = 0 ∧ x.extractLsb' 25 39 = 0 ∧ e.getD 3 0 = 0 ∧ PtrOk 128 p
          (¬ good → ∃ t, exec .wqAdmit s = .next t ∧ EntryFails s t 2)
          ∧ (good → v.rootact = false → ∃ t, exec .wqAdmit s = .next t ∧ EntryFails s t 3)
          ∧ ∀ r, good → ActiveRoot s n r →
              (¬ Readable s r.asid r.gen p 128 → ∃ t, exec .wqAdmit s = .next t ∧ EntryFails s t 5)
              ∧ ∀ z, hubNat s r.asid r.gen p 128 = .ok z →
                let ok := z % 2 ^ 8 = 0x30 ∧ z / 2 ^ 8 % 2 ^ 6 = n ∧ z / 2 ^ 16 % 2 ^ 4 = 0 ∧ recordOk z = true
                (¬ ok → ∃ t, exec .wqAdmit s = .next t ∧ EntryFails s t 4)
                ∧ (ok → Readable s r.asid r.gen (srecOf z).region 128 → ∃ t u, exec .wqAdmit s = .next t
                    ∧ NamedUnder s t r (srecOf z).region (.accept p (x.getLsbD 24) (fieldAt x 16 8))
                    ∧ ViBecomes s u n took ∧ t = { u with regions := t.regions, nextId := t.nextId }))
      ∧ (opOf e = 3 →
          let buf := e.getD 3 0
          let good := RestZero e ∧ x.extractLsb' 0 16 = 0 ∧ x.extractLsb' 25 39 = 0 ∧ PtrOk 128 p ∧ PtrOk 64 buf
          (¬ good → ∃ t, exec .wqIterate s = .next t ∧ EntryFails s t 2)
          ∧ (good → v.rootact = false → ∃ t, exec .wqIterate s = .next t ∧ EntryFails s t 3)
          ∧ ∀ r, good → ActiveRoot s n r → Readable s r.asid r.gen p 128 →
              (buf = 0 → ∃ t u, exec .wqIterate s = .next t ∧ NamedUnder s t r p (.iterate (x.getLsbD 24) (fieldAt x 16 8) [])
                ∧ ViBecomes s u n took ∧ t = { u with regions := t.regions, nextId := t.nextId })
              ∧ ∀ vs w torn slots xs ks, buf ≠ 0 → vs.length = min 1024 v.btn →
                (∀ j y, vs[j]? = some y → hubNat s asid (s.asid asid).gen (v.btbase + BitVec.ofNat 64 (32 * j)) 32 = .ok y) →
                (v.batch.map (·.1)).Pairwise (· < ·) → (∀ b ∈ v.batch, b.2 ≠ Batch.zero) → BatchesTaken s n r vs 0 v 0 w torn →
                slots = (List.range v.btn).filter (fun j => (Tab.get Batch.zero w.batch j).active) → xs.length = slots.length →
                (∀ j ∈ slots, NotCancelled s r (Tab.get Batch.zero w.batch j).stream) →
                (∀ z ∈ slots.zip xs, SnapEntryIs s r z.1 (Tab.get Batch.zero w.batch z.1) z.2) →
                agentKeys s hubDie r.asid r.gen .wr buf (64 + 32 * slots.length) = .ok ks → s.Ok →
                ∃ t, exec .wqIterate s = .next t ∧ NamedUnder s t r p (.iterate (x.getLsbD 24) (fieldAt x 16 8) (slots.map fun j => (Tab.get Batch.zero w.batch j).stream))
                  ∧ Stored s t ks (bytesOf (64 + 32 * slots.length) (v.iter.toNat + 2 ^ 64 * (slots.length + 2 ^ 16 * torn)
                      + 2 ^ 512 * xs.foldr (fun y acc => y + 2 ^ 256 * acc) 0))
                  ∧ (t.vi n).torncnt = w.torncnt ∧ (t.vi n).badcnt = w.badcnt ∧ queueAt (t.vi n) s.sub.b = queueAt took s.sub.b
                  ∧ ∀ j, Tab.get Batch.zero (t.vi n).batch j = Tab.get Batch.zero w.batch j)

/-- R54, R88: a disable first stops the queues, whose entries that have not started are abandoned, and the regions of the interface, and every iteration
of it is to end; while one still runs, or a hand-off of the interface has not ended as a cancellation ends it, it waits; then the regions
have completed and the interface is as if never used, but for its counters. That an abandoned queue's head moves up to its tail is the
model's choice (log entry 115). -/
def Sys2Proof.Claims.InterfacesAreDisabled : Prop :=
  open Sys2Proof Sys2Proof.Machine Sys2Proof.Claims in
  ∀ (s : State), s.sub.a < 64 → s.pkg.phase = .ready →
    let n := s.sub.a
    let v := s.vi n
    (v.en = false → exec .viDisable s = .next s)
    ∧ (v.en = true → v.disabling = false → (∀ c ∈ s.running, c.it.vi ≠ n) → (∀ x ∈ s.saved, x.vi ≠ n) → (s.regions.map (·.rid)).Nodup →
        let stop (r : Region) : Region := { r with stopped := true, status := if r.status = 0 then 6 else r.status, failAt := if r.status = 0 then 0 else r.failAt }
        ∃ t, exec .viDisable s = .next t
          ∧ t = { s with vis := t.vis, regions := s.regions.map fun r => if r.vi = n ∧ r.completed = false then stop r else r }
          ∧ (∀ k, k ≠ n → t.vi k = s.vi k) ∧ t.vi n = { v with disabling := true, wq := (t.vi n).wq }
          ∧ ∀ k < 4, queueAt (t.vi n) k = { queueAt v k with en := false, head := (queueAt v k).tail })
    ∧ (v.en = true → v.disabling = true → (∃ c ∈ s.running, c.it.vi = n) → exec .viDisable s = .next { s with blk := true })
    ∧ (v.en = true → v.disabling = true → (∀ c ∈ s.running, c.it.vi ≠ n) → (∃ j ∈ s.tw, AtWork n j) → (∀ j ∈ s.tw, AtWork n j → j.cancelling = true) →
        exec .viDisable s = .next { s with blk := true })
    ∧ (v.en = true → v.disabling = true → (∀ c ∈ s.running, c.it.vi ≠ n) → (∀ j ∈ s.tw, ¬ AtWork n j) → (∀ r ∈ s.regions, r.vi = n → r.completed = true ∧ ∀ a b c, r.origin ≠ .accept a b c) →
        (∀ x ∈ s.samps, ∀ m, s.node? x.nid = some m → ∀ r ∈ s.regions, r.rid = m.rid → r.vi ≠ n) →
        ∃ t, exec .viDisable s = .next t
          ∧ t = { s with vis := t.vis, nodes := t.nodes, tqs := t.tqs, shadows := s.shadows.filter fun h => h.vi != n }
          ∧ (∀ m, m ∈ t.nodes ↔ ∃ o ∈ s.nodes, m = if (∃ r ∈ s.regions, r.vi = n ∧ r.rid = o.rid) then { o with st := .done } else o)
          ∧ (∀ k, Tab.get [] t.tqs k = if v.tqbase ≤ k ∧ k < v.tqbase + v.tqn then [] else Tab.get [] s.tqs k)
          ∧ (∀ k, k ≠ n → t.vi k = s.vi k)
          ∧ t.vi n = { v with en := false, disabling := false, rootact := false, root := none, batch := [] })

/-- R299 to R302: the commands of the VI page act on the ASID that the page named when GO was written, which must be the interface's: invalidations drop its cached translations, the
advances reach the hub and give it a new generation, at once or after those that have reached the hub before, the probe answers as a read under its current one. -/
def Sys2Proof.Claims.PageCommandsAct : Prop :=
  open Sys2Proof Sys2Proof.Machine Sys2Proof.Claims in
  ∀ (s : State) (op asid : Nat) (arg : W64), s.sub.a < 64 → s.pkg.phase = .ready → (s.vi s.sub.a).cmdFor = none → (s.vi s.sub.a).cmdRun = some (op, asid, arg) →
    let n := s.sub.a
    let v := s.vi n
    let done := { v with cmdBusy := false, cmdRun := none }
    let owned := v.asidbase ≤ asid ∧ asid < v.asidbase + v.asidn
    let va := arg.toNat % 2 ^ 57
    let refused (i : Instr) := ∃ t, exec i s = .next t ∧ ViBecomes s t n { done with cmdErr := true }
    let drops (i : Instr) (all : Bool) := ∃ t, exec i s = .next t ∧ ViBecomes { s with xlat := t.xlat } t n { done with cmdErr := false }
      ∧ t.xlat.Sublist s.xlat ∧ ∀ e ∈ s.xlat, e ∈ t.xlat ↔ ¬ (e.asid = asid ∧ (all = true ∨ e.va ≤ va ∧ va < e.va + e.size))
    let advances (i : Instr) (root : Option W64) :=
      ∃ t, exec i s = .next t ∧ Reaches s t asid ⟨none, n, root⟩
        ∧ (if advanceMark ∈ (s.asid asid).pending then t.asid asid = { s.asid asid with queue := (t.asid asid).queue } else Advancing s t asid root)
        ∧ ViBecomes { s with asTab := t.asTab } t n { v with cmdErr := false, cmdBusy := true, cmdFor := some asid, cmdRun := some (op, asid, root.getD 0) }
    (op = 1 → (¬ owned → refused .viTlbInvalidateAll) ∧ (owned → drops .viTlbInvalidateAll true))
    ∧ (op = 2 → (¬ owned → refused .viTlbInvalidatePage) ∧ (owned → drops .viTlbInvalidatePage false))
    ∧ (op = 3 → (¬ owned → refused .viGenAdvance) ∧ (owned → advances .viGenAdvance none))
    ∧ (op = 4 → ((¬ owned ∨ ¬ RootLegal s arg) → refused .viGenAdvanceRoot) ∧ (owned → RootLegal s arg → advances .viGenAdvanceRoot (some arg)))
    ∧ (op = 5 → (¬ owned → refused .viProbe) ∧ (owned → ∃ t, exec .viProbe s = .next t
        ∧ ViBecomes s t n { done with cmdErr := false, res := probeValue s hubDie 0 asid (s.asid asid).gen .rd arg }))

/-- R54, R299 to R302: the disabling of an interface, and the commands of its page, each as its part says. -/
def Obligations.InterfacesStopAndCommand : Prop :=
  Sys2Proof.Claims.InterfacesAreDisabled
    ∧ Sys2Proof.Claims.PageCommandsAct

/-! ### Memory controllers, translation, direct rows -/

namespace Sys2Proof.Claims

open Sys2Proof.Machine

/-- A vault's entry becomes v, and nothing else changes. -/
def VaultBecomes (s t : State) (w : Nat) (v : Vault) : Prop := t = { s with vaults := t.vaults } ∧ ∀ k, t.vault k = if k = w then v else s.vault k
/-- A bank of a vault becomes b, and nothing else changes. -/
def BankBecomes (s t : State) (w n : Nat) (b : BankSt) : Prop :=
  VaultBecomes s t w { s.vault w with banks := (t.vault w).banks } ∧ ∀ k, t.bank w k = if k = n then b else s.bank w k
/-- The row of R304 for a temperature. -/
def rateRow (t : Nat) : Nat := if t ≤ 85 then 0 else if t ≤ 95 then 1 else if t ≤ 105 then 2 else 3
/-- An access has waited 120 ns at a sleeping bank, and has not been returned (R303). -/
def Late (s : State) (j : Journey) : Prop := j.back = false ∧ ∃ t, j.arr = some t ∧ t + 228 ≤ s.cycle
/-- The accesses of one context that wait at bank b of vault w. -/
def waitersOf (s : State) (c : Ctx) (w b : Nat) : List Journey := waitersAt { s with cx := c, parked := [] } w b
/-- Only the journeys of accesses differ between two contexts. -/
def SameButJourneys (c d : Ctx) : Prop :=
  d = { c with gacc := d.gacc, accs := d.accs } ∧ (∃ f : GAcc → Journey, d.gacc = c.gacc.map fun g => { g with go := f g })
    ∧ ∃ f : Acc → Journey, d.accs = c.accs.map fun a => { a with go := f a }
/-- A step changes one vault's counters and banks, and of the contexts only how far their accesses have come. -/
def JourneysMove (s t : State) : Prop :=
  t = { s with vaults := t.vaults, cx := t.cx, parked := t.parked } ∧ SameButJourneys s.cx t.cx ∧ t.parked.length = s.parked.length
    ∧ ∀ (k : Nat) (c : Ctx), s.parked[k]? = some c → ∃ d, t.parked[k]? = some d ∧ SameButJourneys c d
/-- Only requests to yield differ between two contexts, and only iterations of profile B on the contexts of a vault's quad are asked (R372). -/
def AskedToYield (c d : Ctx) (w : Nat) : Prop :=
  d = { c with yieldReq := d.yieldReq } ∧ (d.yieldReq ≠ c.yieldReq → d.yieldReq = true ∧ c.has = true ∧ c.id.bvc = true ∧ w ∈ vaultsOf c.id)
/-- What the completion of an advance does to a context (R297, R301): under the ASID its replay buffer is emptied; the ygen that asked for it has its
result, or is over when a trap is being taken. -/
def afterAdvance (asid : Nat) (w : Advance) (g : BitVec 16) (c : Ctx) : Ctx :=
  { c with
    replay := if c.has = true ∧ c.it.asid = asid then [] else c.replay
    yfly := if w.ctx = some c.id then (match c.yfly with
      | some (.gen a n) => if a = asid ∧ n < 65536 then (if c.due.isSome then none else some (.gen a (g.toNat + 65536))) else c.yfly
      | y => y) else c.yfly }

end Sys2Proof.Claims

/-- R287, R303 to R307, R370: the direct window takes its named bits when its limits are legal; a bank sleeps when no access has reached it for RETIDLE; it returns
what has waited 120 ns, with everything later of the same source, and when it wakes what waits goes on, counted as waits or as replays; it steps its refresh rate up at once and down one row; a window publishes the refresh tax and foreground demand in one action, upon which Midnight iterations may be asked to yield; a line of the
write-combining buffer drains when it is full or old. -/
def Obligations.VaultControllersAct : Prop :=
  open Sys2Proof Sys2Proof.Machine Sys2Proof.Claims in
  (∀ (s : State), s.sub.a < 2048 →
    let lo := (s.sub.x.extractLsb' 0 14).toNat
    let hi := (s.sub.x.extractLsb' 16 15).toNat
    (s.pkg.phase = .ready → lo ≤ hi → hi ≤ 16384 → ∃ t d, exec .dwinWrite s = .next t ∧ VaultBecomes s t s.sub.a { s.vault s.sub.a with dwin := d }
      ∧ ∀ i < 64, d.getLsbD i = (s.sub.x.getLsbD i && (decide (i < 14) || decide (16 ≤ i ∧ i < 31) || decide (32 ≤ i ∧ i < 44) || i == 63)))
    ∧ (s.pkg.phase ≠ .ready ∨ hi < lo ∨ 16384 < hi → exec .dwinWrite s = .next s))
  ∧ (∀ (s : State), s.sub.a < 2048 → s.sub.b < 64 →
    let v := s.vault s.sub.a
    let b := s.bank s.sub.a s.sub.b
    (b.asleep = false → v.retidle ≠ 0 → v.retidle.toNat * 64 * 19 ≤ (s.cycle - b.last) * 10 →
      ∃ t, exec .bankRetentionSleep s = .next t ∧ BankBecomes s t s.sub.a s.sub.b { b with asleep := true, waking := none })
    ∧ (∀ w, b.waking = some w →
        let ws := waitersAt s s.sub.a s.sub.b
        let awake (u : State) : Prop := BankBecomes s u s.sub.a s.sub.b { b with asleep := false, waking := none, last := s.cycle }
        ((∃ j ∈ ws, Late s j ∧ j.arr ≠ some (s.cycle - 228)) → exec .bankWake s = .next { s with blk := true })
        ∧ ((∀ j ∈ ws, Late s j → j.arr = some (s.cycle - 228)) → ∃ t u, exec .bankWake s = .next t ∧ JourneysMove s t
            ∧ (ws = [] → t.cx = s.cx ∧ t.parked = s.parked) ∧ awake { u with cx := s.cx, parked := s.parked }
            ∧ VaultBecomes u t s.sub.a { u.vault s.sub.a with wakewait := min (2 ^ 32 - 1) (v.wakewait + (ws.filter fun j => !j.back).length) })
        ∧ ∀ late : List Ctx, (∃ j ∈ ws, Late s j) →
            late.Sublist s.running → (∀ c ∈ s.running, c ∈ late ↔ ∃ j ∈ waitersOf s c s.sub.a s.sub.b, j.back = true ∨ Late s j) → s.running.Nodup →
            ∃ t u, exec .longWakeReturn s = .next t ∧ JourneysMove s t ∧ u = { s with cx := t.cx, parked := t.parked }
              ∧ VaultBecomes u t s.sub.a { v with
                  wakereplay := min (2 ^ 32 - 1) (v.wakereplay + (late.map fun c => ((waitersOf s c s.sub.a s.sub.b).filter fun j => !j.back).length).sum) })
    ∧ (∃ t r, exec .thermalSensorRead s = .next t ∧ BankBecomes s t s.sub.a s.sub.b { b with temp := s.sub.c, rate := r }
        ∧ (b.rate ≤ rateRow s.sub.c → r = rateRow s.sub.c)
        ∧ (rateRow s.sub.c < b.rate → s.sub.p = true → s.sub.c + 3 ≤ 85 + 10 * (b.rate - 1) → r + 1 = b.rate)
        ∧ (rateRow s.sub.c < b.rate → (s.sub.p = false ∨ 85 + 10 * (b.rate - 1) < s.sub.c + 3) → r = b.rate))
    ∧ ∃ t, exec .bankRefresh s = .next t ∧ BankBecomes s t s.sub.a s.sub.b { b with refreshed := b.refreshed + 1 })
  ∧ (∀ (s : State), s.sub.a < 2048 → 0 < s.sub.d → s.sub.b ≤ s.sub.d → s.sub.c ≤ s.sub.d →
    let v := s.vault s.sub.a
    let fgd := min 1024 (1024 * s.sub.c / s.sub.d)
    ∃ t u, exec .rtaxWindowEnd s = .next t ∧ VaultBecomes s u s.sub.a
        { v with rtax := min 255 (256 * s.sub.b / s.sub.d), fgd := fgd, fgdPrev := v.fgd, fgdrun := if v.thr < fgd then min 65535 (v.fgdrun + 1) else 0 }
      ∧ t = { u with cx := t.cx, parked := t.parked } ∧ AskedToYield s.cx t.cx s.sub.a
      ∧ t.parked.length = s.parked.length ∧ ∀ (k : Nat) (c : Ctx), s.parked[k]? = some c → ∃ d, t.parked[k]? = some d ∧ AskedToYield c d s.sub.a)
  ∧ ∀ (s : State), (∃ l, s.wc.find? (fun l => l.line == s.sub.a) = some l ∧ (l.valid = BitVec.allOnes 64 ∨ l.at' + 512 ≤ s.cycle)) →
    ∃ t, exec .wcLineDrain s = .next t ∧ t = { s with wc := s.wc.filter fun l => l.line != s.sub.a } ∧ ∀ k, SameByte s t k

/-- R294, R295: a walk for a request fills the die's translation buffer with the leaf, for a core also its own; a failed one leaves no translation, and
what it met of uncorrectable lines marks the region. R297, R301, R302, R347, R349: controllers adopt a
generation one by one; when all have, and no fabric access of the old one is unanswered, the advance drops what the old one held and answers the instruction or the
command that asked for it; then the advance that has reached the hub next begins. -/
def Sys2Proof.Claims.TranslationsAndGenerations : Prop :=
  open Sys2Proof Sys2Proof.Machine Sys2Proof.Claims in
  (∀ (s : State) (c : Ctx) (l : Leaf), s.running.find? (fun c => c.id.die == s.sub.a && c.it.asid == s.sub.b) = some c →
    let va := s.sub.x.toNat % 2 ^ 57
    walk s s.sub.b va = .ok l →
    (permOk s.sub.kind l.perm = false ∨ (xlatHit s s.sub.a c.id.coreKey s.sub.b c.it.gen va).isSome = true ∨ c.it.gen ≠ (s.asid s.sub.b).gen →
        exec .pageTableWalk s = .next s)
    ∧ (permOk s.sub.kind l.perm = true → xlatHit s s.sub.a c.id.coreKey s.sub.b c.it.gen va = none → c.it.gen = (s.asid s.sub.b).gen →
        ∃ t, exec .pageTableWalk s = .next t ∧ t = { s with xlat := t.xlat }
          ∧ ∃ kept, kept.Sublist s.xlat ∧ s.xlat.length ≤ kept.length + 2
            ∧ t.xlat = kept ++ [⟨s.sub.a, 0, s.sub.b, c.it.gen, l.va, l.size, l.pa, l.perm⟩, ⟨s.sub.a, c.id.coreKey + 1, s.sub.b, c.it.gen, l.va, l.size, l.pa, l.perm⟩]))
  ∧ (∀ (s : State) (e : Nat), (s.running.find? (fun c => c.id.die == s.sub.a && c.it.asid == s.sub.b) ≠ none
        ∨ s.sub.a < 7 ∧ s.regions.find? (fun r => r.asid == s.sub.b && !r.completed) ≠ none) →
    walk s s.sub.b (s.sub.x.toNat % 2 ^ 57) = .error e → ∃ t, exec .pageTableWalk s = .next t ∧ Seen s t)
  ∧ (∀ (s : State) (r : Region) (l : Leaf), s.running.find? (fun c => c.id.die == s.sub.a && c.it.asid == s.sub.b) = none → s.sub.a < 7 →
    s.regions.find? (fun r => r.asid == s.sub.b && !r.completed) = some r →
    let va := s.sub.x.toNat % 2 ^ 57
    walk s s.sub.b va = .ok l →
    (permOk s.sub.kind l.perm = false ∨ (xlatHit s s.sub.a 0 s.sub.b r.gen va).isSome = true ∨ r.gen ≠ (s.asid s.sub.b).gen → exec .pageTableWalk s = .next s)
    ∧ (permOk s.sub.kind l.perm = true → xlatHit s s.sub.a 0 s.sub.b r.gen va = none → r.gen = (s.asid s.sub.b).gen →
        ∃ t, exec .pageTableWalk s = .next t ∧ t = { s with xlat := t.xlat }
          ∧ ∃ kept, kept.Sublist s.xlat ∧ s.xlat.length ≤ kept.length + 1
            ∧ t.xlat = kept ++ [⟨s.sub.a, 0, s.sub.b, r.gen, l.va, l.size, l.pa, l.perm⟩]))
  ∧ (∀ (s : State), s.sub.a ≠ advanceMark → s.sub.a ∈ (s.asid s.sub.b).pending →
    ∃ t, exec .generationAdoption s = .next t ∧ t = { s with asTab := t.asTab }
      ∧ ∀ k, t.asid k = if k = s.sub.b then ({ s.asid s.sub.b with pending := (s.asid s.sub.b).pending.erase s.sub.a } : AsEntry) else s.asid k)
  ∧ (∀ (s : State), (s.asid s.sub.a).pending = [advanceMark] → leftOld s s.sub.a = true → exec .generationAdvanceComplete s = .next { s with blk := true })
  ∧ ∀ (s : State) (w : Advance) (rest : List Advance), (s.asid s.sub.a).pending = [advanceMark] → leftOld s s.sub.a = false →
      (s.asid s.sub.a).queue = w :: rest → (s.running.map (·.id)).Nodup →
    let x := s.sub.a
    let g := (s.asid x).gen
    let ended := { s.asid x with pending := [], old := g, queue := rest }
    ∃ t, exec .generationAdvanceComplete s = .next t
      ∧ t = { s with asTab := t.asTab, vis := t.vis, xlat := t.xlat, icache := t.icache, red := t.red, shadows := t.shadows, cx := t.cx, parked := t.parked }
      ∧ t.xlat = s.xlat.filter (fun e => e.asid != x) ∧ t.icache = s.icache.filter (fun l => l.asid != x)
      ∧ t.red = s.red.filter (fun l => !(l.asid == x && l.gen != g)) ∧ t.shadows = s.shadows.filter (fun h => h.asid != x)
      ∧ t.cx = afterAdvance x w g s.cx ∧ t.parked = s.parked.map (afterAdvance x w g)
      ∧ (∀ k, k ≠ x → t.asid k = s.asid k)
      ∧ (rest = [] → t.asid x = ended)
      ∧ (∀ v, rest.head? = some v → t.asid x = { ended with root := v.root.getD ended.root, gen := g + 1, pending := (t.asid x).pending }
          ∧ ∀ k, k ∈ (t.asid x).pending ↔ k = advanceMark ∨ k < 2070)
      ∧ ∀ k, t.vi k = if w.ctx = none ∧ k = w.vi ∧ (s.vi k).cmdBusy = true ∧ (s.vi k).cmdFor = some x
          then { s.vi k with cmdBusy := false, cmdFor := none, cmdRun := none, res := BitVec.ofNat 64 g.toNat } else s.vi k

/-- R294 to R302, R347, R349, R405: ytlbi, yprobe and ygen complete, walks fill the caches, and generations advance, each as
its part says. -/
def Obligations.TranslationsAreCachedAndAdvanced : Prop :=
  Sys2Proof.Claims.TranslationInstructions
    ∧ Sys2Proof.Claims.TranslationsAndGenerations

/-- R375: an access of a base vector core through the direct-row window drains the lines of the write-combining buffer that it touches and reads or writes
memory; none of its lines is in the buffer afterwards. -/
def Sys2Proof.Claims.DirectRowsAreAccessed : Prop :=
  open Sys2Proof Sys2Proof.Machine Sys2Proof.Claims in
  ∀ (s : State) (a : Acc) (ks : List Nat), s.Ok → s.cx.accs[s.sub.a]? = some a → accOk s s.sub.a = true → s.cx.id.prof = .b →
    a.addr.toNat / 2 ^ 60 = 4 → a.op.isMark = false → s.sub.ecc ≠ .uncorrectable → a.mixed = false → SizeFits a → accResolve s a = .ok ks →
    (a.chk = false ∨ a.kind ≠ .rd) → HopFree s s.cx.id.die ks a.go → awayDie s ks = none → (rowsOf ks).length ≤ 1 →
    let u := { s with wc := s.wc.filter fun l => !(ks.map (· / 64)).contains l.line }
    ∃ t new ret, exec .directRowAccess s = .next t
      ∧ (∀ d z, a.op = .lds d z → ret = if (szSpec (BitVec.ofNat 3 z)).2 then (BitVec.ofNat (8 * (szSpec (BitVec.ofNat 3 z)).1) (homeNat u ks)).signExtend 64
          else (BitVec.ofNat (8 * (szSpec (BitVec.ofNat 3 z)).1) (homeNat u ks)).setWidth 64)
      ∧ (∀ f d y z, a.op = .atom f d y z → atomSpec f (BitVec.ofNat 64 (homeNat u ks)) y z new ret)
      ∧ SameButMeets (accLeaves (without s.cx s.sub.a) a (vectorAt u ks) ret false) t.cx
      ∧ (accStores s a ks new = none → ∀ k, SameByte s t k)
      ∧ (∀ kb, accStores s a ks new = some kb → Stored s t kb.1 kb.2)
      ∧ ∀ l ∈ t.wc, l.line ∉ ks.map (· / 64)

/-- R199, R203, R209, R212, R213, R216, R312, R375: an access that comes first is performed, and so is one through the
direct-row window, each as its part says. -/
def Obligations.MemoryAccessesArePerformed : Prop :=
  Sys2Proof.Claims.AccessesPerform
    ∧ Sys2Proof.Claims.DirectRowsAreAccessed

/-! ### Links, ports, power, resets, bring-up, management -/

namespace Sys2Proof.Claims

open Sys2Proof.Machine

/-- The link between two dies becomes l. -/
def LinkBecomes (s t : State) (a b : Nat) (l : Link) : Prop :=
  t.link a b = l ∧ ∀ x y, linkKey x y ≠ linkKey a b → t.link x y = s.link x y
/-- The modules of the link between two dies (R21): four between a Dawn and a Dusk die, two between neighbours of the ring of Dusk dies, one to the
hub. -/
def modulesOf (a b : Nat) : Option Nat :=
  let dusk (d : Nat) : Prop := 2 ≤ d ∧ d ≤ 5
  if (a ≤ 1 ∧ dusk b) ∨ (b ≤ 1 ∧ dusk a) then some 4
  else if dusk a ∧ dusk b ∧ (b % 4 = (a + 1) % 4 ∨ a % 4 = (b + 1) % 4) then some 2
  else if (a = 6 ∧ b < 6) ∨ (b = 6 ∧ a < 6) then some 1
  else none
/-- The package is as after a package reset (R443): everything wiped; what is fused and the lifecycle stay. -/
def PackageReset (s t : State) (linkerr : W32) : Prop :=
  let p := s.pkg
  let kept := { Pkg.reset with lcs := p.lcs, devid := p.devid, step := p.step, minsvn := p.minsvn, attkey := p.attkey, ownerkey := p.ownerkey }
  t = { State.reset with agenda := s.agenda, fresh := s.fresh, cycle := s.cycle, replies := s.replies, pkg := { kept with linkerr := linkerr } }
/-- Only the package's own registers differ. -/
def PkgBecomes (s t : State) (p : Pkg) : Prop := t = { s with pkg := p }
/-- Two contexts differ only in that the access a grant names holds its slot (R25). -/
def SlotGiven (c d : Ctx) (acc : AccQ) (k : Nat) : Prop :=
  match acc with
  | .glob => d = { c with gacc := c.gacc.map fun g => { g with go := { g.go with slot := true } } }
  | _ => d = { c with accs := d.accs } ∧ d.accs.length = c.accs.length
      ∧ ∀ n, d.accs[n]? = if n = k then c.accs[n]?.map fun a => { a with go := { a.go with slot := true } } else c.accs[n]?
/-- No shard of a SAMPLE node in progress lies on a die. -/
def NoShardOn (s : State) (die : Nat) : Prop := ∀ x ∈ s.samps, ∀ z ∈ x.desc.shards, z.2.2.2 ≠ s.dieAddr die
/-- A reset of a die is under way, or its links have not retrained (R415). -/
def Busy (s : State) (die : Nat) : Prop := (∃ r ∈ s.rsts, r.die = die) ∨ die ∈ s.downDies
/-- No iteration of the die runs or is saved, no stream has been admitted, no shard is awaited from it, and the die has no pool. -/
def Quiet (s : State) (die : Nat) : Prop :=
  (∀ c ∈ s.running, c.id.die ≠ die) ∧ (∀ v ∈ s.saved, v.ctx.id.die ≠ die) ∧ (∀ asid srec, ¬ Admitted s asid srec)
    ∧ NoShardOn s die ∧ ∀ vi, (poolOf s vi die).n = 0
/-- The core domain of a die is wiped (R414, R416): its scratch memories read as after reset, their formats are raw, its arrays are
empty, its pools hold nothing. -/
def CoresWiped (s t : State) (die : Nat) : Prop :=
  (∀ k, 2 ^ 50 ≤ k → (k - 2 ^ 50) / 2 ^ 36 = die → redFind s.red (k / 4) = none → homeByte t k = memDefault k)
    ∧ (∀ f ∈ t.fmt, f.1 / 2 ^ 17 ≠ die) ∧ (∀ f ∈ t.swz, f.1 / 2 ^ 17 ≠ die) ∧ (∀ e < 2, Tab.get 0 t.nonfin (2 * die + e) = 0) ∧ Tab.get 0 t.twerr die = 0 ∧ (∀ g ∈ t.garr, g.1 / 2 ^ 11 ≠ die) ∧ (∀ d ∈ t.darr, d.1 / 2 ^ 11 ≠ die)
    ∧ (∀ l ∈ t.icache, l.core / 2 ^ 11 ≠ die)
    ∧ ∀ vi, poolOf t vi die = { poolOf s vi die with wiping := false, busy := [] } ∧ ∀ d, d ≠ die → poolOf t vi d = poolOf s vi d
/-- A physical address of a die of this package (R10, R288). -/
def OnDie (s : State) (die k : Nat) : Prop := k < 2 ^ 50 ∧ k / 2 ^ 42 = s.pkg.pkgnum.toNat ∧ k / 2 ^ 39 % 8 = die

end Sys2Proof.Claims

/-- R21, R23, R25, R26, R28, R322: a module that fails is removed from its link and counted; a replayed flit changes nothing else; a waiting request takes a
slot of its pair of dies, of which there are 64, in the issue order of its queue; a port that fails training is down for good; a port that was up
goes down; the endpoint of the bridging package trains down. -/
def Sys2Proof.Claims.LinksAndPorts : Prop :=
  open Sys2Proof Sys2Proof.Machine Sys2Proof.Claims in
  (∀ (s : State) (n : Nat), modulesOf s.sub.a s.sub.b = some n → (s.link s.sub.a s.sub.b).lost < n →
    let l := s.link s.sub.a s.sub.b
    (∃ t, exec .moduleFailure s = .next t ∧ LinkBecomes s t s.sub.a s.sub.b { l with lost := l.lost + 1, errors := l.errors + 1 }
      ∧ (l.lost + 1 < n → t = { s with links := t.links }))
    ∧ ∃ t, exec .flitRetry s = .next t ∧ LinkBecomes s t s.sub.a s.sub.b { l with retries := l.retries + 1 } ∧ t = { s with links := t.links })
  ∧ (∀ (s : State) (c : Ctx) (ks : List Nat) (j : Journey), s.running.find? (·.id == s.sub.ctx) = some c →
    slotSeeker (focusOn s c.id) s.sub.acc s.sub.c = some (ks, j) → s.sub.a = c.id.die → s.sub.b = answerDie (focusOn s c.id) c.id.die ks →
    lacksSlot (focusOn s c.id) c.id.die ks j = true →
    let behind := s.sub.acc ≠ .glob ∧ olderSeeker (focusOn s c.id) s.sub.b s.sub.c = true
    (64 ≤ slotsInUse s s.sub.a s.sub.b ∨ behind → exec .requestSlotGrant s = .next { s with blk := true })
    ∧ (slotsInUse s s.sub.a s.sub.b < 64 → ¬ behind → ∃ t, exec .requestSlotGrant s = .next t ∧ t = { s with cx := t.cx, parked := t.parked }
        ∧ (if s.cx.id = c.id then SlotGiven s.cx t.cx s.sub.acc s.sub.c else t.cx = s.cx) ∧ t.parked.length = s.parked.length
        ∧ ∀ (n : Nat) (p : Ctx), s.parked[n]? = some p → ∃ q, t.parked[n]? = some q ∧ if p.id = c.id then SlotGiven p q s.sub.acc s.sub.c else q = p))
  ∧ (∀ (s : State), s.sub.a < 18 →
    let less (up : BitVec 18) : Prop := ∀ i, up.getLsbD i = (s.pkg.linkup.getLsbD i && i != s.sub.a)
    (s.pkg.phase = .links ∨ s.pkg.phase = .ready → ∃ t up dead, exec .fabricPortTrainingFailure s = .next t
        ∧ PkgBecomes s t { s.pkg with linkup := up, dead := dead } ∧ less up ∧ ∀ i, dead.getLsbD i = (s.pkg.dead.getLsbD i || i == s.sub.a))
    ∧ (s.pkg.linkup.getLsbD s.sub.a = true → ∃ t up, exec .fabricPortDown s = .next t ∧ PkgBecomes s t { s.pkg with linkup := up } ∧ less up))
  ∧ ∀ (s : State), s.pkg.bridge = true → (s.sub.a = 8 ∨ s.sub.a = 4) → s.sub.a < s.pkg.lanes →
    ∃ t, exec .endpointTrainDown s = .next t ∧ PkgBecomes s t { s.pkg with lanes := s.sub.a }

/-- R414 to R417: a core reset of a die wipes its core domain; a die reset first asks every linked die to quiesce; each fences its link and reports; once all
have, memory, buffers, controllers and translations of the die are wiped and its links retrain. A write while BUSY, or before
READY, is ignored. -/
def Sys2Proof.Claims.DiesAreReset : Prop :=
  open Sys2Proof Sys2Proof.Machine Sys2Proof.Claims in
  (∀ (s : State), s.sub.a < 6 →
    (Busy s s.sub.a ∨ s.pkg.phase ≠ .ready → exec .coreReset s = .next s ∧ exec .dieReset s = .next s)
    ∧ (¬ Busy s s.sub.a → s.pkg.phase = .ready →
        (Quiet s s.sub.a → ∃ t, exec .coreReset s = .next t ∧ (s.Ok → CoresWiped s t s.sub.a) ∧ t.rsts = s.rsts ∧ t.regions = s.regions)
        ∧ exec .dieReset s = .next { s with rsts := s.rsts ++ [⟨s.sub.a, (List.range 7).filter fun d => (modulesOf s.sub.a d).isSome, [], []⟩] }))
  ∧ (∀ (s : State) (r : DieRst), s.rsts.find? (·.die == s.sub.a) = some r →
    let with' (f : DieRst → DieRst) := s.rsts.map fun r => if r.die = s.sub.a then f r else r
    (s.sub.b ∈ r.asked → s.sub.b ∉ r.quiet → ∃ t, exec .quiesce s = .next t ∧ t.rsts = with' (fun r => { r with quiet := r.quiet ++ [s.sub.b] })
      ∧ ((∀ c ∈ s.running, c.id.die ≠ s.sub.b) → t = { s with rsts := t.rsts }))
    ∧ (s.sub.b ∈ r.quiet → s.sub.b ∉ r.fenced → ∃ t, exec .quiesceWindowEnd s = .next t
        ∧ t.rsts = with' (fun r => { r with fenced := r.fenced ++ [s.sub.b] })
        ∧ ((∀ c ∈ s.running, c.id.die ≠ s.sub.b) → (∀ w ∈ s.redWait, w.ctx.die ≠ s.sub.b) → (∀ j ∈ s.tw, j.die ≠ s.sub.b) → t = { s with rsts := t.rsts }))
    ∧ ((∀ d ∈ r.asked, d ∈ r.fenced) → s.sub.a ∉ s.downDies → Quiet s s.sub.a →
        ∃ t, exec .dieResetExecute s = .next t ∧ t.downDies = s.downDies ++ [s.sub.a] ∧ t.regions = s.regions
          ∧ (s.Ok → CoresWiped s t s.sub.a)
          ∧ (∀ k, OnDie s s.sub.a k → s.Ok → redFind t.red (k / 4) = none → homeByte t k = memDefault k)
          ∧ (∀ w, w / 512 + 2 = s.sub.a → t.vault w = Vault.zero) ∧ (∀ e ∈ t.xlat, e.die ≠ s.sub.a)
          ∧ (∀ l ∈ t.wc, ¬ OnDie s s.sub.a (64 * l.line)) ∧ ∀ l ∈ t.sealed, ¬ OnDie s s.sub.a (64 * l)))
  ∧ ∀ (s : State), s.sub.a ∈ s.downDies → s.sub.a < 7 → ∃ t, exec .linkRetrain s = .next t ∧ ¬ Busy t s.sub.a
    ∧ t = { s with downDies := s.downDies.filter (· != s.sub.a), rsts := s.rsts.filter (fun r => r.die != s.sub.a), links := t.links }
    ∧ ∀ d < 7, t.link s.sub.a d = Link.zero

/-- R21 to R28, R322, R414 to R417: links, ports and the resets of cores and dies, each as its part says. -/
def Obligations.LinksPortsAndResets : Prop :=
  Sys2Proof.Claims.LinksAndPorts
    ∧ Sys2Proof.Claims.DiesAreReset

/-- R443, R444, R448, R449: power-on, the pin and PKGRST reset the package and keep what is fused; the image is verified step by step, and the first step that
fails keeps the package in BOOT; one that passes is copied into the loop core's memory; training brings the ports up that have not failed it and the
package to READY, as number 0 when it bridges; the lifecycle advances along its edges only. -/
def Obligations.BringUp : Prop :=
  open Sys2Proof Sys2Proof.Machine Sys2Proof.Claims in
  ∀ (s : State),
    (∃ t, exec .powerOn s = .next t ∧ PackageReset s t 0) ∧ (∃ t, exec .resetPin s = .next t ∧ PackageReset s t 0)
    ∧ (s.pkg.phase = .ready → ∃ t, exec .pkgrst s = .next t ∧ PackageReset s t 0) ∧ (s.pkg.phase ≠ .ready → exec .pkgrst s = .next s)
    ∧ (s.pkg.phase = .reset →
        let i := s.sub.img
        let r := if i.present = false then 1 else if i.headerOk = false then 2 else if i.hashOk = false then 3 else if i.sigOk = false then 4
          else if i.fwsvn < s.pkg.minsvn.toNat then 5 else 0
        (r ≠ 0 → ∃ t, exec .bootVerify s = .next t ∧ PkgBecomes s t { s.pkg with phase := .boot, bootstat := BitVec.ofNat 8 r })
        ∧ (r = 0 → ∃ t h, exec .bootVerify s = .next t ∧ h.length = 8 ∧ PkgBecomes { s with fresh := s.fresh + 1, tcm := t.tcm } t
              { s.pkg with phase := .links, bootstat := 0, fwsvn := BitVec.ofNat 16 i.fwsvn, loopcore := true, fwhash := h }
            ∧ ∀ k < 262144, Mem.get t.tcm k = i.bytes.getD k 0))
    ∧ (s.pkg.phase = .links →
        ∃ up, (∀ n, up.getLsbD n = ((BitVec.ofNat 18 s.sub.b).getLsbD n && !s.pkg.dead.getLsbD n)) ∧
        let p := { s.pkg with pkgnum := if s.sub.q then 0 else BitVec.ofNat 8 s.sub.a, bridge := s.sub.q, linkup := up }
        ∃ t, exec .linkTraining s = .next t ∧ PkgBecomes s t (if s.sub.p then { p with linkerr := p.linkerr ||| 4 } else { p with phase := .ready }))
    ∧ (let from' := s.pkg.lcs.toNat
       let to' := s.sub.a
       let edge := (from' = 0 ∧ to' = 1) ∨ (from' = 1 ∧ to' = 2) ∨ (from' = 1 ∧ to' = 3) ∨ (from' = 2 ∧ to' = 3)
       let good := s.sub.p = true ∧ s.sub.q = true ∧ edge
       let key := if to' = 1 then true else if to' = 3 then false else s.pkg.attkey
       let svn := if to' = 2 then s.pkg.fwsvn else s.pkg.minsvn
       let fused := { s.pkg with lcs := BitVec.ofNat 2 to', attkey := key, ownerkey := if to' = 1 then true else s.pkg.ownerkey, minsvn := svn }
       (¬ good → exec .lifecycleAdvance s = .next s)
       ∧ (good → ∃ t, exec .lifecycleAdvance s = .next t ∧ PackageReset { s with pkg := fused } t 0))

/-- R29, R396, R443, R446, R450, R451: the power window, the power limit, a sensor above 120 degrees; reads and reports over MCTP: the identity registers as the
phase shows them, the counters, which the read clears, the attestation report in PROVISIONED and DEPLOYED. -/
def Obligations.PowerAndManagement : Prop :=
  open Sys2Proof Sys2Proof.Machine Sys2Proof.Claims in
  ∀ (s : State),
    let p := s.pkg
    let say (kind : Nat) (ws : List W64) := s.replies ++ [⟨kind, ws⟩]
    let code := match p.phase with | .reset => 0 | .boot => 1 | .links => 2 | .ready => 3
    let seen (n : Nat) (w : W64) : W64 := if n ≤ code then w else 0
    let pow := { p with pwrw := BitVec.ofNat 16 s.sub.a, withheld := BitVec.ofNat 16 s.sub.b, tmax := BitVec.ofNat 16 s.sub.c }
    let report := [p.devid, (p.step ++ p.part).setWidth 64, p.lcs.setWidth 64, p.pkgnum.setWidth 64, p.fwsvn.setWidth 64] ++ p.fwhash
      ++ ((List.range 4).map fun k => BitVec.ofNat 64 (s.sub.a / 2 ^ (64 * k))) ++ (List.range 64).flatMap fun n => cfgWords (s.vi n)
    let ident := [p.devid, (p.step ++ p.part).setWidth 64, BitVec.ofNat 64 (p.lcs.toNat + 2 ^ 8 * code), seen 2 (BitVec.ofNat 64 (p.pkgnum.toNat + 2 ^ 8 * p.fwsvn.toNat)),
      seen 1 (p.bootstat.setWidth 64), seen 2 (p.linkerr ++ p.linkup.setWidth 32), seen 3 (p.tmax ++ p.withheld ++ p.pwrlim ++ p.pwrw)]
    (∃ t, exec .powerWindow s = .next t ∧ PkgBecomes s t { pow with throtcnt := if s.sub.b = 0 then p.throtcnt else p.throtcnt + 1 })
    ∧ (exec .throtcntRead s = .next (if p.phase = .ready then { s with pkg := { p with throtcnt := 0 }, replies := say 4 [p.throtcnt.setWidth 64] }
        else { s with replies := say 4 [0] }))
    ∧ (exec .pwrlimWrite s = .next (if p.phase = .ready ∧ 400 ≤ s.sub.a ∧ s.sub.a ≤ 2000 then { s with pkg := { p with pwrlim := BitVec.ofNat 16 s.sub.a } } else s))
    ∧ (s.sub.a < 6 → ∃ t, exec .junctionOvertemp s = .next t ∧ t = { s with rsts := t.rsts, pkg := { p with linkerr := p.linkerr ||| 0x100 } } ∧ Busy t s.sub.a)
    ∧ (s.sub.a = 6 → ∃ t, exec .junctionOvertemp s = .next t ∧ PackageReset s t 0x100)
    ∧ (p.lcs = 0 ∨ p.lcs = 3 → exec .attestationRequest s = .next { s with replies := say 8 [] })
    ∧ (p.lcs = 1 ∨ p.lcs = 2 → ∃ sig : List W64, sig.length = 6232
        ∧ exec .attestationRequest s = .next { s with fresh := s.fresh + 1, replies := say 8 (report ++ sig) })
    ∧ (∃ w, exec .mctpControlMessage s = .next { s with fresh := s.fresh + 1, replies := say 5 [BitVec.ofNat 64 s.sub.a, w] })
    ∧ exec .readIdentity s = .next { s with replies := say 6 ident }
    ∧ (p.phase ≠ .ready → exec .readCounters s = .next s)
    ∧ (p.phase = .ready → ∃ t, exec .readCounters s = .next t ∧ t = { s with vis := t.vis, pkg := { p with throtcnt := 0 }, replies := say 7 (counterWords s) }
        ∧ (counterWords s)[0]? = some (p.throtcnt.setWidth 64) ∧ (counterWords s).length = 8385
        ∧ ((s.vis.map (·.1)).Nodup → ∀ k, t.vi k = { s.vi k with traplost := 0, degcnt := 0 }))
    ∧ (s.sub.a < 128 → ∃ t, exec .dynamicAddressAssignment s = .next t ∧ PkgBecomes s t { p with i3c := some s.sub.a })

/-! ### Words, gates, steps, reset -/

namespace Sys2Proof.Claims

open Sys2Proof.Machine

/-- The gate of R101: whether an instruction takes effect, by the level that its line was delivered under: none, or whether its iteration is the
first and whether it is the last. -/
def takesEffect (g : BitVec 2) (level : Option (Bool × Bool)) : Prop :=
  match level with
  | none => g ≠ 3
  | some (first, last) => (g = 0) ∨ (g = 1 ∧ first = true) ∨ (g = 2 ∧ last = true) ∨ (g = 3 ∧ first = false)
/-- The head of a stream's queue has its turn in the present cycle and may issue now (R94, R122, R123, R168, R417). -/
structure MayIssue (s : State) (st : Stream) (e : QEntry) (rest : List QEntry) : Prop where
  agenda : s.agenda = []
  turn : s.phase = phaseOf st
  head : s.cx.queue st = e :: rest
  active : isActive s s.cx = true
  cycle : e.at' ≤ s.cycle ∧ (st ≠ .c → s.cx.nextIss.getD (streamCode st) 0 ≤ s.cycle)
  free : (st = .s → s.cx.gacc = none) ∧ (st = .x ∨ st = .m → linkFenced s s.cx.id.die = false)
/-- The state in which the head of a queue executes. -/
def headTaken (s : State) (st : Stream) (e : QEntry) (rest : List QEntry) : State := { s with cur := e, blk := false, cx := s.cx.setQueue st rest }
/-- The same state after it has issued: its stream may issue again in the next cycle, in checking mode in the one after (R94, R127); the
counter of issued instructions has grown (R409). -/
def hasIssued (s t : State) (st : Stream) (e : QEntry) : State :=
  let c := t.cx
  let nxt := if st = .c then c.nextIss else c.nextIss.setIfInBounds (streamCode st) (s.cycle + if e.chk then 2 else 1)
  { t with
    phase := if st = .c then t.phase else t.phase + 1
    cx := if c.has then { c with lastIssue := s.cycle, perf := c.perf.setIfInBounds 2 (c.perf.getD 2 0 + 1), nextIss := nxt } else c }

end Sys2Proof.Claims

/-- R153: nop is opcode 0x00 in the Z format, so that an all-zero word of a C slot is one, and it has no effect. -/
def Obligations.NopHasNoEffect : Prop :=
  open Sys2Proof Sys2Proof.Machine Sys2Proof.Claims in
  (∀ g : BitVec 2, decode .c (0#6 ++ g ++ 0#24) [] = .ok (.nop ⟨g⟩)) ∧ decode .c 0 [] = .ok (.nop ⟨0⟩)
  ∧ ∀ (w : FZ) (s : State), exec (.nop w) s = .next s

/-- R100, R101: an instruction whose gate suppresses it issues and takes its stream's issue cycle, and has no other effect. -/
def Obligations.SuppressedInstructionsOnlyIssue : Prop :=
  open Sys2Proof Sys2Proof.Machine Sys2Proof.Claims in
  (∀ (i : Instr) (x : Enc) (s : State), encode i = some x → ¬ takesEffect (x.word.extractLsb' 24 2) s.cur.level → exec i s = .next s)
  ∧ ∀ (s : State) (st : Stream) (i : Instr) (e : QEntry) (rest : List QEntry), MayIssue s st e rest → decode st e.word e.ext = .ok i →
    ¬ takesEffect (e.word.extractLsb' 24 2) e.level → (∀ f, rest.head? = some f → f.seq ≠ e.seq) →
    step s = .next (hasIssued s (headTaken s st e rest) st e)

/-- The head of a queue whose words decode to an instruction executes as exec of that instruction: a step gives what exec gives, with the entry out of its
queue and the stream's next issue moved on; an instruction that has to wait stays where it was, and one that stops stops the step. -/
def Obligations.StepsRunTheDecodedInstruction : Prop :=
  open Sys2Proof Sys2Proof.Machine Sys2Proof.Claims in
  ∀ (s : State) (st : Stream) (i : Instr) (e : QEntry) (rest : List QEntry), MayIssue s st e rest → decode st e.word e.ext = .ok i →
    (st ≠ .s → takesEffect (e.word.extractLsb' 24 2) e.level → behindS s.cx s.cycle e i = false) →
    wf i = true
    ∧ (∀ t, exec i (headTaken s st e rest) = .next t → t.blk = false → (∀ f, (t.cx.queue st).head? = some f → f.seq ≠ e.seq) →
        step s = .next (hasIssued s t st e))
    ∧ (∀ t f, exec i (headTaken s st e rest) = .next t → t.blk = false → (t.cx.queue st).head? = some f → f.seq = e.seq →
        step s = .next { t with phase := t.phase + 1 })
    ∧ (∀ t, exec i (headTaken s st e rest) = .next t → t.blk = true → step s = .next { s with phase := s.phase + 1 })
    ∧ (∀ f, exec i (headTaken s st e rest) = .fault f → step s = .fault f)
    ∧ (∀ r, exec i (headTaken s st e rest) = .refused r → step s = .refused r)

/-- Words of the spec's own examples decode to the instructions that they stand for. -/
def Obligations.WordsDecodeAsTheSpecSays : Prop :=
  open Sys2Proof Sys2Proof.Machine Sys2Proof.Claims in
  decode .s 0xA1300002 [] = .ok (.addi ⟨1, 12, 0, 2, []⟩)
  ∧ decode .s 0x601C4140 [] = .ok (.ppopc ⟨0, 7, 4, 5, 0⟩)
  ∧ decode .c 0x24000000 [] = .ok (.lend ⟨0, 0⟩)
  ∧ decode .c 0x205D4010 [8] = .ok (.loopBound ⟨0, 23, 20, 0, 1, [8]⟩)
  ∧ decode .v 0x80554E00 [] = .ok (.vredsum ⟨0, 0x15, 0x14, 0x38, 0, false, false, false, []⟩)
  ∧ decode .v 0x70510018 [] = .ok (.vquant ⟨0, 0x14, 0x10, 0, 3, false, false, false, []⟩)
  ∧ decode .m 0x44003502 [] = .ok (.dmv ⟨0, 0, 3, 0x14, 2⟩)
  ∧ decode .m 0x18000380 [] = .ok (.mscan ⟨0, 0, 0, 14, 0⟩)
  ∧ decode .x 0x18209180 [] = .ok (.xred ⟨0, 8, 9, 6, 0⟩)
  ∧ decode .y 0x281461C0 [] = .ok (.ygen ⟨0, 5, 6, 7, 0⟩)
  ∧ decode .y 0x04146004 [] = .ok (.ycsrw ⟨0, 5, 6, 4⟩)
  ∧ decode .c 0xFC000000 [] = .error .reservedOpcode

/-- R91 to R114: the words of every well-formed instruction decode to it, with every operand at every value that the encoding admits. -/
def Obligations.EncodedInstructionsDecodeToThemselves : Prop :=
  open Sys2Proof Sys2Proof.Machine Sys2Proof.Claims in
  ∀ (i : Instr) (x : Enc), wf i = true → encode i = some x → decode x.st x.word x.ext = .ok i

/-- What reset leaves, where the spec gives it: PHASE is RESET, no interface is enabled and every field of its registers is zero, no work is running, memory
and scratch bytes read zero, every bank is raw, direct windows are off and RETIDLE is 32, no address space has a root. -/
def Obligations.ResetLeavesTheStatedValues : Prop :=
  open Sys2Proof Sys2Proof.Machine Sys2Proof.Claims in
  let s := State.reset
  s.pkg.phase = .reset ∧ s.pkg.part = 0xD002
  ∧ (∀ n, (s.vi n).en = false ∧ (s.vi n).stop = false ∧ (s.vi n).asidn = 0 ∧ (s.vi n).mincores = 0 ∧ (s.vi n).tqn = 0 ∧ (s.vi n).btn = 0
      ∧ (s.vi n).wqerr = 0 ∧ (s.vi n).iter = 0 ∧ (s.vi n).torncnt = 0 ∧ (s.vi n).badcnt = 0 ∧ (s.vi n).rootact = false ∧ (s.vi n).traplost = 0
      ∧ (s.vi n).saven = 0 ∧ (s.vi n).wdlim = 0 ∧ (s.vi n).degcnt = 0 ∧ ∀ k < 4, (queueAt (s.vi n) k) = ⟨0, 0, false, 0, 0⟩)
  ∧ (∀ n d, poolOf s n d = ⟨0, 0, 0, [], false⟩)
  ∧ (∀ w, (s.vault w).dwin = 0 ∧ (s.vault w).retidle = 32)
  ∧ (∀ k, k < 2 ^ 50 → homeByte s k = 0)
  ∧ (∀ sid o, o < 2 ^ 24 → homeByte s (scratchKey sid o) = 0 ∧ fmtOfKey s (scratchKey sid o) = 0)
  ∧ (∀ a, (s.asid a).root = 0 ∧ (s.asid a).gen = 0)
  ∧ s.running = [] ∧ s.regions = [] ∧ s.nodes = [] ∧ s.saved = []

/-- The canonical form of memory holds at reset. -/
def Obligations.ResetMemoryIsCanonical : Prop :=
  open Sys2Proof Sys2Proof.Machine Sys2Proof.Claims in
  State.reset.Ok

/-- Every step keeps memory in its canonical form: keys strictly rising, no byte listed that reads the same unlisted. -/
def Obligations.StepsKeepMemoryCanonical : Prop :=
  open Sys2Proof Sys2Proof.Machine Sys2Proof.Claims in
  ∀ (s t : State), s.Ok → step s = .next t → t.Ok
end

