-- ==== Sys2Proof/Laws/Encoding.lean ====
section
/-! SUPPORT. The laws of the encodings: for each format of R102, the opcode and the fields of a packed word are those that were
packed. -/

namespace Sys2Proof

/-- The opcode of a word in format Z. -/
theorem op_packZ (op : BitVec 6) (w : FZ) : (packZ op w).extractLsb' 26 6 = op := by
  unfold packZ
  ext i hi
  rw [BitVec.getElem_extractLsb']
  change BitVec.getLsbD (w := 6+2+24) _ _ = _
  simp only [BitVec.getLsbD_append]
  simp (disch := omega) only [if_neg]
  rw [← BitVec.getLsbD_eq_getElem]
  congr 1
  omega
/-- The fields of a word in format Z. -/
theorem fields_packZ (op : BitVec 6) (w : FZ) : fZ (packZ op w) = w := by
  cases w
  simp only [fZ, packZ, gateOf, FZ.mk.injEq]
  ext i hi
  rw [BitVec.getElem_extractLsb']
  change BitVec.getLsbD (w := 6+2+24) _ _ = _
  simp only [BitVec.getLsbD_append]
  simp (disch := omega) only [if_neg, if_pos]
  rw [← BitVec.getLsbD_eq_getElem]
  congr 1
  omega

/-- The opcode of a word in format J. -/
theorem op_packJ (op : BitVec 6) (w : FJ) : (packJ op w).extractLsb' 26 6 = op := by
  unfold packJ
  ext i hi
  rw [BitVec.getElem_extractLsb']
  change BitVec.getLsbD (w := 6+2+24) _ _ = _
  simp only [BitVec.getLsbD_append]
  simp (disch := omega) only [if_neg]
  rw [← BitVec.getLsbD_eq_getElem]
  congr 1
  omega
/-- The fields of a word in format J. -/
theorem fields_packJ (op : BitVec 6) (w : FJ) : fJ (packJ op w) = w := by
  cases w
  simp only [fJ, packJ, gateOf, FJ.mk.injEq]
  refine ⟨?_, ?_⟩
  · ext i hi
    rw [BitVec.getElem_extractLsb']
    change BitVec.getLsbD (w := 6+2+24) _ _ = _
    simp only [BitVec.getLsbD_append]
    simp (disch := omega) only [if_neg, if_pos]
    rw [← BitVec.getLsbD_eq_getElem]
    congr 1
    omega
  · ext i hi
    rw [BitVec.getElem_extractLsb']
    change BitVec.getLsbD (w := 6+2+24) _ _ = _
    simp only [BitVec.getLsbD_append]
    simp (disch := omega) only [if_neg, if_pos]
    rw [← BitVec.getLsbD_eq_getElem]
    congr 1
    omega

/-- The opcode of a word in format R. -/
theorem op_packR (op : BitVec 6) (w : FR) : (packR op w).extractLsb' 26 6 = op := by
  unfold packR
  ext i hi
  rw [BitVec.getElem_extractLsb']
  change BitVec.getLsbD (w := 6+2+6+6+6+6) _ _ = _
  simp only [BitVec.getLsbD_append]
  simp (disch := omega) only [if_neg]
  rw [← BitVec.getLsbD_eq_getElem]
  congr 1
  omega
/-- The fields of a word in format R. -/
theorem fields_packR (op : BitVec 6) (w : FR) : fR (packR op w) = w := by
  cases w
  simp only [fR, packR, gateOf, FR.mk.injEq]
  refine ⟨?_, ?_, ?_, ?_, ?_⟩
  · ext i hi
    rw [BitVec.getElem_extractLsb']
    change BitVec.getLsbD (w := 6+2+6+6+6+6) _ _ = _
    simp only [BitVec.getLsbD_append]
    simp (disch := omega) only [if_neg, if_pos]
    rw [← BitVec.getLsbD_eq_getElem]
    congr 1
    omega
  · ext i hi
    rw [BitVec.getElem_extractLsb']
    change BitVec.getLsbD (w := 6+2+6+6+6+6) _ _ = _
    simp only [BitVec.getLsbD_append]
    simp (disch := omega) only [if_neg, if_pos]
    rw [← BitVec.getLsbD_eq_getElem]
    congr 1
    omega
  · ext i hi
    rw [BitVec.getElem_extractLsb']
    change BitVec.getLsbD (w := 6+2+6+6+6+6) _ _ = _
    simp only [BitVec.getLsbD_append]
    simp (disch := omega) only [if_neg, if_pos]
    rw [← BitVec.getLsbD_eq_getElem]
    congr 1
    omega
  · ext i hi
    rw [BitVec.getElem_extractLsb']
    change BitVec.getLsbD (w := 6+2+6+6+6+6) _ _ = _
    simp only [BitVec.getLsbD_append]
    simp (disch := omega) only [if_neg, if_pos]
    rw [← BitVec.getLsbD_eq_getElem]
    congr 1
    omega
  · ext i hi
    rw [BitVec.getElem_extractLsb']
    change BitVec.getLsbD (w := 6+2+6+6+6+6) _ _ = _
    simp only [BitVec.getLsbD_append]
    simp (disch := omega) only [if_neg, if_pos]
    rw [← BitVec.getLsbD_eq_getElem]
    congr 1
    omega

/-- The opcode of a word in format I. -/
theorem op_packI (op : BitVec 6) (w : FI) : (packI op w).extractLsb' 26 6 = op := by
  unfold packI
  ext i hi
  rw [BitVec.getElem_extractLsb']
  change BitVec.getLsbD (w := 6+2+6+6+12) _ _ = _
  simp only [BitVec.getLsbD_append]
  simp (disch := omega) only [if_neg]
  rw [← BitVec.getLsbD_eq_getElem]
  congr 1
  omega
/-- The fields of a word in format I. -/
theorem fields_packI (op : BitVec 6) (w : FI) : fI (packI op w) w.x = w := by
  cases w
  simp only [fI, packI, gateOf, FI.mk.injEq, and_true]
  refine ⟨?_, ?_, ?_, ?_⟩
  · ext i hi
    rw [BitVec.getElem_extractLsb']
    change BitVec.getLsbD (w := 6+2+6+6+12) _ _ = _
    simp only [BitVec.getLsbD_append]
    simp (disch := omega) only [if_neg, if_pos]
    rw [← BitVec.getLsbD_eq_getElem]
    congr 1
    omega
  · ext i hi
    rw [BitVec.getElem_extractLsb']
    change BitVec.getLsbD (w := 6+2+6+6+12) _ _ = _
    simp only [BitVec.getLsbD_append]
    simp (disch := omega) only [if_neg, if_pos]
    rw [← BitVec.getLsbD_eq_getElem]
    congr 1
    omega
  · ext i hi
    rw [BitVec.getElem_extractLsb']
    change BitVec.getLsbD (w := 6+2+6+6+12) _ _ = _
    simp only [BitVec.getLsbD_append]
    simp (disch := omega) only [if_neg, if_pos]
    rw [← BitVec.getLsbD_eq_getElem]
    congr 1
    omega
  · ext i hi
    rw [BitVec.getElem_extractLsb']
    change BitVec.getLsbD (w := 6+2+6+6+12) _ _ = _
    simp only [BitVec.getLsbD_append]
    simp (disch := omega) only [if_neg, if_pos]
    rw [← BitVec.getLsbD_eq_getElem]
    congr 1
    omega

/-- The opcode of a word in format IM. -/
theorem op_packIM (op : BitVec 6) (w : FIM) : (packIM op w).extractLsb' 26 6 = op := by
  unfold packIM
  ext i hi
  rw [BitVec.getElem_extractLsb']
  change BitVec.getLsbD (w := 6+2+6+6+3+9) _ _ = _
  simp only [BitVec.getLsbD_append]
  simp (disch := omega) only [if_neg]
  rw [← BitVec.getLsbD_eq_getElem]
  congr 1
  omega
/-- The fields of a word in format IM. -/
theorem fields_packIM (op : BitVec 6) (w : FIM) : fIM (packIM op w) w.x = w := by
  cases w
  simp only [fIM, packIM, gateOf, FIM.mk.injEq, and_true]
  refine ⟨?_, ?_, ?_, ?_, ?_⟩
  · ext i hi
    rw [BitVec.getElem_extractLsb']
    change BitVec.getLsbD (w := 6+2+6+6+3+9) _ _ = _
    simp only [BitVec.getLsbD_append]
    simp (disch := omega) only [if_neg, if_pos]
    rw [← BitVec.getLsbD_eq_getElem]
    congr 1
    omega
  · ext i hi
    rw [BitVec.getElem_extractLsb']
    change BitVec.getLsbD (w := 6+2+6+6+3+9) _ _ = _
    simp only [BitVec.getLsbD_append]
    simp (disch := omega) only [if_neg, if_pos]
    rw [← BitVec.getLsbD_eq_getElem]
    congr 1
    omega
  · ext i hi
    rw [BitVec.getElem_extractLsb']
    change BitVec.getLsbD (w := 6+2+6+6+3+9) _ _ = _
    simp only [BitVec.getLsbD_append]
    simp (disch := omega) only [if_neg, if_pos]
    rw [← BitVec.getLsbD_eq_getElem]
    congr 1
    omega
  · ext i hi
    rw [BitVec.getElem_extractLsb']
    change BitVec.getLsbD (w := 6+2+6+6+3+9) _ _ = _
    simp only [BitVec.getLsbD_append]
    simp (disch := omega) only [if_neg, if_pos]
    rw [← BitVec.getLsbD_eq_getElem]
    congr 1
    omega
  · ext i hi
    rw [BitVec.getElem_extractLsb']
    change BitVec.getLsbD (w := 6+2+6+6+3+9) _ _ = _
    simp only [BitVec.getLsbD_append]
    simp (disch := omega) only [if_neg, if_pos]
    rw [← BitVec.getLsbD_eq_getElem]
    congr 1
    omega

/-- The opcode of a word in format K. -/
theorem op_packK (op : BitVec 6) (w : FK) : (packK op w).extractLsb' 26 6 = op := by
  unfold packK
  ext i hi
  rw [BitVec.getElem_extractLsb']
  change BitVec.getLsbD (w := 6+2+6+6+12) _ _ = _
  simp only [BitVec.getLsbD_append]
  simp (disch := omega) only [if_neg]
  rw [← BitVec.getLsbD_eq_getElem]
  congr 1
  omega
/-- The fields of a word in format K. -/
theorem fields_packK (op : BitVec 6) (w : FK) : fK (packK op w) = w := by
  cases w
  simp only [fK, packK, gateOf, FK.mk.injEq]
  refine ⟨?_, ?_, ?_, ?_⟩
  · ext i hi
    rw [BitVec.getElem_extractLsb']
    change BitVec.getLsbD (w := 6+2+6+6+12) _ _ = _
    simp only [BitVec.getLsbD_append]
    simp (disch := omega) only [if_neg, if_pos]
    rw [← BitVec.getLsbD_eq_getElem]
    congr 1
    omega
  · ext i hi
    rw [BitVec.getElem_extractLsb']
    change BitVec.getLsbD (w := 6+2+6+6+12) _ _ = _
    simp only [BitVec.getLsbD_append]
    simp (disch := omega) only [if_neg, if_pos]
    rw [← BitVec.getLsbD_eq_getElem]
    congr 1
    omega
  · ext i hi
    rw [BitVec.getElem_extractLsb']
    change BitVec.getLsbD (w := 6+2+6+6+12) _ _ = _
    simp only [BitVec.getLsbD_append]
    simp (disch := omega) only [if_neg, if_pos]
    rw [← BitVec.getLsbD_eq_getElem]
    congr 1
    omega
  · ext i hi
    rw [BitVec.getElem_extractLsb']
    change BitVec.getLsbD (w := 6+2+6+6+12) _ _ = _
    simp only [BitVec.getLsbD_append]
    simp (disch := omega) only [if_neg, if_pos]
    rw [← BitVec.getLsbD_eq_getElem]
    congr 1
    omega

/-- The opcode of a word in format V. -/
theorem op_packV (op : BitVec 6) (w : FV) : (packV op w).extractLsb' 26 6 = op := by
  unfold packV
  ext i hi
  rw [BitVec.getElem_extractLsb']
  change BitVec.getLsbD (w := 6+2+6+6+6+3+1+1+1) _ _ = _
  simp only [BitVec.getLsbD_append]
  simp (disch := omega) only [if_neg]
  rw [← BitVec.getLsbD_eq_getElem]
  congr 1
  omega
/-- The fields of a word in format V. -/
theorem fields_packV (op : BitVec 6) (w : FV) : fV (packV op w) w.x = w := by
  cases w
  simp only [fV, packV, gateOf, FV.mk.injEq, and_true]
  refine ⟨?_, ?_, ?_, ?_, ?_, ?_, ?_, ?_⟩
  · ext i hi
    rw [BitVec.getElem_extractLsb']
    change BitVec.getLsbD (w := 6+2+6+6+6+3+1+1+1) _ _ = _
    simp only [BitVec.getLsbD_append]
    simp (disch := omega) only [if_neg, if_pos]
    rw [← BitVec.getLsbD_eq_getElem]
    congr 1
    omega
  · ext i hi
    rw [BitVec.getElem_extractLsb']
    change BitVec.getLsbD (w := 6+2+6+6+6+3+1+1+1) _ _ = _
    simp only [BitVec.getLsbD_append]
    simp (disch := omega) only [if_neg, if_pos]
    rw [← BitVec.getLsbD_eq_getElem]
    congr 1
    omega
  · ext i hi
    rw [BitVec.getElem_extractLsb']
    change BitVec.getLsbD (w := 6+2+6+6+6+3+1+1+1) _ _ = _
    simp only [BitVec.getLsbD_append]
    simp (disch := omega) only [if_neg, if_pos]
    rw [← BitVec.getLsbD_eq_getElem]
    congr 1
    omega
  · ext i hi
    rw [BitVec.getElem_extractLsb']
    change BitVec.getLsbD (w := 6+2+6+6+6+3+1+1+1) _ _ = _
    simp only [BitVec.getLsbD_append]
    simp (disch := omega) only [if_neg, if_pos]
    rw [← BitVec.getLsbD_eq_getElem]
    congr 1
    omega
  · ext i hi
    rw [BitVec.getElem_extractLsb']
    change BitVec.getLsbD (w := 6+2+6+6+6+3+1+1+1) _ _ = _
    simp only [BitVec.getLsbD_append]
    simp (disch := omega) only [if_neg, if_pos]
    rw [← BitVec.getLsbD_eq_getElem]
    congr 1
    omega
  · change BitVec.getLsbD (w := 6+2+6+6+6+3+1+1+1) _ _ = _
    simp only [BitVec.getLsbD_append]
    simp (disch := omega) only [if_neg, if_pos]
    simp
  · change BitVec.getLsbD (w := 6+2+6+6+6+3+1+1+1) _ _ = _
    simp only [BitVec.getLsbD_append]
    simp (disch := omega) only [if_neg, if_pos]
    simp
  · change BitVec.getLsbD (w := 6+2+6+6+6+3+1+1+1) _ _ = _
    simp only [BitVec.getLsbD_append]
    simp (disch := omega) only [if_neg, if_pos]
    simp

/-- The opcode of a word in format VK. -/
theorem op_packVK (op : BitVec 6) (w : FVK) : (packVK op w).extractLsb' 26 6 = op := by
  unfold packVK
  ext i hi
  rw [BitVec.getElem_extractLsb']
  change BitVec.getLsbD (w := 6+2+6+6+3+3+3+1+1+1) _ _ = _
  simp only [BitVec.getLsbD_append]
  simp (disch := omega) only [if_neg]
  rw [← BitVec.getLsbD_eq_getElem]
  congr 1
  omega
/-- The fields of a word in format VK. -/
theorem fields_packVK (op : BitVec 6) (w : FVK) : fVK (packVK op w) w.x = w := by
  cases w
  simp only [fVK, packVK, gateOf, FVK.mk.injEq, and_true]
  refine ⟨?_, ?_, ?_, ?_, ?_, ?_, ?_, ?_⟩
  · ext i hi
    rw [BitVec.getElem_extractLsb']
    change BitVec.getLsbD (w := 6+2+6+6+3+3+3+1+1+1) _ _ = _
    simp only [BitVec.getLsbD_append]
    simp (disch := omega) only [if_neg, if_pos]
    rw [← BitVec.getLsbD_eq_getElem]
    congr 1
    omega
  · ext i hi
    rw [BitVec.getElem_extractLsb']
    change BitVec.getLsbD (w := 6+2+6+6+3+3+3+1+1+1) _ _ = _
    simp only [BitVec.getLsbD_append]
    simp (disch := omega) only [if_neg, if_pos]
    rw [← BitVec.getLsbD_eq_getElem]
    congr 1
    omega
  · ext i hi
    rw [BitVec.getElem_extractLsb']
    change BitVec.getLsbD (w := 6+2+6+6+3+3+3+1+1+1) _ _ = _
    simp only [BitVec.getLsbD_append]
    simp (disch := omega) only [if_neg, if_pos]
    rw [← BitVec.getLsbD_eq_getElem]
    congr 1
    omega
  · ext i hi
    rw [BitVec.getElem_extractLsb']
    change BitVec.getLsbD (w := 6+2+6+6+3+3+3+1+1+1) _ _ = _
    simp only [BitVec.getLsbD_append]
    simp (disch := omega) only [if_neg, if_pos]
    rw [← BitVec.getLsbD_eq_getElem]
    congr 1
    omega
  · ext i hi
    rw [BitVec.getElem_extractLsb']
    change BitVec.getLsbD (w := 6+2+6+6+3+3+3+1+1+1) _ _ = _
    simp only [BitVec.getLsbD_append]
    simp (disch := omega) only [if_neg, if_pos]
    rw [← BitVec.getLsbD_eq_getElem]
    congr 1
    omega
  · change BitVec.getLsbD (w := 6+2+6+6+3+3+3+1+1+1) _ _ = _
    simp only [BitVec.getLsbD_append]
    simp (disch := omega) only [if_neg, if_pos]
    simp
  · change BitVec.getLsbD (w := 6+2+6+6+3+3+3+1+1+1) _ _ = _
    simp only [BitVec.getLsbD_append]
    simp (disch := omega) only [if_neg, if_pos]
    simp
  · change BitVec.getLsbD (w := 6+2+6+6+3+3+3+1+1+1) _ _ = _
    simp only [BitVec.getLsbD_append]
    simp (disch := omega) only [if_neg, if_pos]
    simp

/-- The opcode of a word in format VC. -/
theorem op_packVC (op : BitVec 6) (w : FVC) : (packVC op w).extractLsb' 26 6 = op := by
  unfold packVC
  ext i hi
  rw [BitVec.getElem_extractLsb']
  change BitVec.getLsbD (w := 6+2+4+2+6+6+3+1+1+1) _ _ = _
  simp only [BitVec.getLsbD_append]
  simp (disch := omega) only [if_neg]
  rw [← BitVec.getLsbD_eq_getElem]
  congr 1
  omega
/-- The fields of a word in format VC. -/
theorem fields_packVC (op : BitVec 6) (w : FVC) : fVC (packVC op w) w.x = w := by
  cases w
  simp only [fVC, packVC, gateOf, FVC.mk.injEq, and_true]
  refine ⟨?_, ?_, ?_, ?_, ?_, ?_, ?_, ?_⟩
  · ext i hi
    rw [BitVec.getElem_extractLsb']
    change BitVec.getLsbD (w := 6+2+4+2+6+6+3+1+1+1) _ _ = _
    simp only [BitVec.getLsbD_append]
    simp (disch := omega) only [if_neg, if_pos]
    rw [← BitVec.getLsbD_eq_getElem]
    congr 1
    omega
  · ext i hi
    rw [BitVec.getElem_extractLsb']
    change BitVec.getLsbD (w := 6+2+4+2+6+6+3+1+1+1) _ _ = _
    simp only [BitVec.getLsbD_append]
    simp (disch := omega) only [if_neg, if_pos]
    rw [← BitVec.getLsbD_eq_getElem]
    congr 1
    omega
  · ext i hi
    rw [BitVec.getElem_extractLsb']
    change BitVec.getLsbD (w := 6+2+4+2+6+6+3+1+1+1) _ _ = _
    simp only [BitVec.getLsbD_append]
    simp (disch := omega) only [if_neg, if_pos]
    rw [← BitVec.getLsbD_eq_getElem]
    congr 1
    omega
  · ext i hi
    rw [BitVec.getElem_extractLsb']
    change BitVec.getLsbD (w := 6+2+4+2+6+6+3+1+1+1) _ _ = _
    simp only [BitVec.getLsbD_append]
    simp (disch := omega) only [if_neg, if_pos]
    rw [← BitVec.getLsbD_eq_getElem]
    congr 1
    omega
  · ext i hi
    rw [BitVec.getElem_extractLsb']
    change BitVec.getLsbD (w := 6+2+4+2+6+6+3+1+1+1) _ _ = _
    simp only [BitVec.getLsbD_append]
    simp (disch := omega) only [if_neg, if_pos]
    rw [← BitVec.getLsbD_eq_getElem]
    congr 1
    omega
  · ext i hi
    rw [BitVec.getElem_extractLsb']
    change BitVec.getLsbD (w := 6+2+4+2+6+6+3+1+1+1) _ _ = _
    simp only [BitVec.getLsbD_append]
    simp (disch := omega) only [if_neg, if_pos]
    rw [← BitVec.getLsbD_eq_getElem]
    congr 1
    omega
  · change BitVec.getLsbD (w := 6+2+4+2+6+6+3+1+1+1) _ _ = _
    simp only [BitVec.getLsbD_append]
    simp (disch := omega) only [if_neg, if_pos]
    simp
  · change BitVec.getLsbD (w := 6+2+4+2+6+6+3+1+1+1) _ _ = _
    simp only [BitVec.getLsbD_append]
    simp (disch := omega) only [if_neg, if_pos]
    simp

/-- The opcode of a word in format VP. -/
theorem op_packVP (op : BitVec 6) (w : FVP) : (packVP op w).extractLsb' 26 6 = op := by
  unfold packVP
  ext i hi
  rw [BitVec.getElem_extractLsb']
  change BitVec.getLsbD (w := 6+2+4+4+4+4+2+6) _ _ = _
  simp only [BitVec.getLsbD_append]
  simp (disch := omega) only [if_neg]
  rw [← BitVec.getLsbD_eq_getElem]
  congr 1
  omega
/-- The fields of a word in format VP. -/
theorem fields_packVP (op : BitVec 6) (w : FVP) : fVP (packVP op w) = w := by
  cases w
  simp only [fVP, packVP, gateOf, FVP.mk.injEq]
  refine ⟨?_, ?_, ?_, ?_, ?_, ?_⟩
  · ext i hi
    rw [BitVec.getElem_extractLsb']
    change BitVec.getLsbD (w := 6+2+4+4+4+4+2+6) _ _ = _
    simp only [BitVec.getLsbD_append]
    simp (disch := omega) only [if_neg, if_pos]
    rw [← BitVec.getLsbD_eq_getElem]
    congr 1
    omega
  · ext i hi
    rw [BitVec.getElem_extractLsb']
    change BitVec.getLsbD (w := 6+2+4+4+4+4+2+6) _ _ = _
    simp only [BitVec.getLsbD_append]
    simp (disch := omega) only [if_neg, if_pos]
    rw [← BitVec.getLsbD_eq_getElem]
    congr 1
    omega
  · ext i hi
    rw [BitVec.getElem_extractLsb']
    change BitVec.getLsbD (w := 6+2+4+4+4+4+2+6) _ _ = _
    simp only [BitVec.getLsbD_append]
    simp (disch := omega) only [if_neg, if_pos]
    rw [← BitVec.getLsbD_eq_getElem]
    congr 1
    omega
  · ext i hi
    rw [BitVec.getElem_extractLsb']
    change BitVec.getLsbD (w := 6+2+4+4+4+4+2+6) _ _ = _
    simp only [BitVec.getLsbD_append]
    simp (disch := omega) only [if_neg, if_pos]
    rw [← BitVec.getLsbD_eq_getElem]
    congr 1
    omega
  · ext i hi
    rw [BitVec.getElem_extractLsb']
    change BitVec.getLsbD (w := 6+2+4+4+4+4+2+6) _ _ = _
    simp only [BitVec.getLsbD_append]
    simp (disch := omega) only [if_neg, if_pos]
    rw [← BitVec.getLsbD_eq_getElem]
    congr 1
    omega
  · ext i hi
    rw [BitVec.getElem_extractLsb']
    change BitVec.getLsbD (w := 6+2+4+4+4+4+2+6) _ _ = _
    simp only [BitVec.getLsbD_append]
    simp (disch := omega) only [if_neg, if_pos]
    rw [← BitVec.getLsbD_eq_getElem]
    congr 1
    omega

/-- The opcode of a word in format VT. -/
theorem op_packVT (op : BitVec 6) (w : FVT) : (packVT op w).extractLsb' 26 6 = op := by
  unfold packVT
  ext i hi
  rw [BitVec.getElem_extractLsb']
  change BitVec.getLsbD (w := 6+2+4+2+18) _ _ = _
  simp only [BitVec.getLsbD_append]
  simp (disch := omega) only [if_neg]
  rw [← BitVec.getLsbD_eq_getElem]
  congr 1
  omega
/-- The fields of a word in format VT. -/
theorem fields_packVT (op : BitVec 6) (w : FVT) : fVT (packVT op w) [w.e] = w := by
  cases w
  simp only [fVT, packVT, gateOf, FVT.mk.injEq, List.getD_cons_zero, and_true]
  refine ⟨?_, ?_, ?_⟩
  · ext i hi
    rw [BitVec.getElem_extractLsb']
    change BitVec.getLsbD (w := 6+2+4+2+18) _ _ = _
    simp only [BitVec.getLsbD_append]
    simp (disch := omega) only [if_neg, if_pos]
    rw [← BitVec.getLsbD_eq_getElem]
    congr 1
    omega
  · ext i hi
    rw [BitVec.getElem_extractLsb']
    change BitVec.getLsbD (w := 6+2+4+2+18) _ _ = _
    simp only [BitVec.getLsbD_append]
    simp (disch := omega) only [if_neg, if_pos]
    rw [← BitVec.getLsbD_eq_getElem]
    congr 1
    omega
  · ext i hi
    rw [BitVec.getElem_extractLsb']
    change BitVec.getLsbD (w := 6+2+4+2+18) _ _ = _
    simp only [BitVec.getLsbD_append]
    simp (disch := omega) only [if_neg, if_pos]
    rw [← BitVec.getLsbD_eq_getElem]
    congr 1
    omega

/-- The opcode of a word in format BC. -/
theorem op_packBC (op : BitVec 6) (w : FBC) : (packBC op w).extractLsb' 26 6 = op := by
  unfold packBC
  ext i hi
  rw [BitVec.getElem_extractLsb']
  change BitVec.getLsbD (w := 6+2+6+3+15) _ _ = _
  simp only [BitVec.getLsbD_append]
  simp (disch := omega) only [if_neg]
  rw [← BitVec.getLsbD_eq_getElem]
  congr 1
  omega
/-- The fields of a word in format BC. -/
theorem fields_packBC (op : BitVec 6) (w : FBC) : fBC (packBC op w) = w := by
  cases w
  simp only [fBC, packBC, gateOf, FBC.mk.injEq]
  refine ⟨?_, ?_, ?_, ?_⟩
  · ext i hi
    rw [BitVec.getElem_extractLsb']
    change BitVec.getLsbD (w := 6+2+6+3+15) _ _ = _
    simp only [BitVec.getLsbD_append]
    simp (disch := omega) only [if_neg, if_pos]
    rw [← BitVec.getLsbD_eq_getElem]
    congr 1
    omega
  · ext i hi
    rw [BitVec.getElem_extractLsb']
    change BitVec.getLsbD (w := 6+2+6+3+15) _ _ = _
    simp only [BitVec.getLsbD_append]
    simp (disch := omega) only [if_neg, if_pos]
    rw [← BitVec.getLsbD_eq_getElem]
    congr 1
    omega
  · ext i hi
    rw [BitVec.getElem_extractLsb']
    change BitVec.getLsbD (w := 6+2+6+3+15) _ _ = _
    simp only [BitVec.getLsbD_append]
    simp (disch := omega) only [if_neg, if_pos]
    rw [← BitVec.getLsbD_eq_getElem]
    congr 1
    omega
  · ext i hi
    rw [BitVec.getElem_extractLsb']
    change BitVec.getLsbD (w := 6+2+6+3+15) _ _ = _
    simp only [BitVec.getLsbD_append]
    simp (disch := omega) only [if_neg, if_pos]
    rw [← BitVec.getLsbD_eq_getElem]
    congr 1
    omega

/-- The opcode of a word in format BR2. -/
theorem op_packBR2 (op : BitVec 6) (w : FBR2) : (packBR2 op w).extractLsb' 26 6 = op := by
  unfold packBR2
  ext i hi
  rw [BitVec.getElem_extractLsb']
  change BitVec.getLsbD (w := 6+2+6+6+3+9) _ _ = _
  simp only [BitVec.getLsbD_append]
  simp (disch := omega) only [if_neg]
  rw [← BitVec.getLsbD_eq_getElem]
  congr 1
  omega
/-- The fields of a word in format BR2. -/
theorem fields_packBR2 (op : BitVec 6) (w : FBR2) : fBR2 (packBR2 op w) = w := by
  cases w
  simp only [fBR2, packBR2, gateOf, FBR2.mk.injEq]
  refine ⟨?_, ?_, ?_, ?_, ?_⟩
  · ext i hi
    rw [BitVec.getElem_extractLsb']
    change BitVec.getLsbD (w := 6+2+6+6+3+9) _ _ = _
    simp only [BitVec.getLsbD_append]
    simp (disch := omega) only [if_neg, if_pos]
    rw [← BitVec.getLsbD_eq_getElem]
    congr 1
    omega
  · ext i hi
    rw [BitVec.getElem_extractLsb']
    change BitVec.getLsbD (w := 6+2+6+6+3+9) _ _ = _
    simp only [BitVec.getLsbD_append]
    simp (disch := omega) only [if_neg, if_pos]
    rw [← BitVec.getLsbD_eq_getElem]
    congr 1
    omega
  · ext i hi
    rw [BitVec.getElem_extractLsb']
    change BitVec.getLsbD (w := 6+2+6+6+3+9) _ _ = _
    simp only [BitVec.getLsbD_append]
    simp (disch := omega) only [if_neg, if_pos]
    rw [← BitVec.getLsbD_eq_getElem]
    congr 1
    omega
  · ext i hi
    rw [BitVec.getElem_extractLsb']
    change BitVec.getLsbD (w := 6+2+6+6+3+9) _ _ = _
    simp only [BitVec.getLsbD_append]
    simp (disch := omega) only [if_neg, if_pos]
    rw [← BitVec.getLsbD_eq_getElem]
    congr 1
    omega
  · ext i hi
    rw [BitVec.getElem_extractLsb']
    change BitVec.getLsbD (w := 6+2+6+6+3+9) _ _ = _
    simp only [BitVec.getLsbD_append]
    simp (disch := omega) only [if_neg, if_pos]
    rw [← BitVec.getLsbD_eq_getElem]
    congr 1
    omega

/-- The opcode of a word in format L. -/
theorem op_packL (op : BitVec 6) (w : FL) : (packL op w).extractLsb' 26 6 = op := by
  unfold packL
  ext i hi
  rw [BitVec.getElem_extractLsb']
  change BitVec.getLsbD (w := 6+2+6+6+6+2+4) _ _ = _
  simp only [BitVec.getLsbD_append]
  simp (disch := omega) only [if_neg]
  rw [← BitVec.getLsbD_eq_getElem]
  congr 1
  omega
/-- The fields of a word in format L. -/
theorem fields_packL (op : BitVec 6) (w : FL) : fL (packL op w) w.x = w := by
  cases w
  simp only [fL, packL, gateOf, FL.mk.injEq, and_true]
  refine ⟨?_, ?_, ?_, ?_, ?_⟩
  · ext i hi
    rw [BitVec.getElem_extractLsb']
    change BitVec.getLsbD (w := 6+2+6+6+6+2+4) _ _ = _
    simp only [BitVec.getLsbD_append]
    simp (disch := omega) only [if_neg, if_pos]
    rw [← BitVec.getLsbD_eq_getElem]
    congr 1
    omega
  · ext i hi
    rw [BitVec.getElem_extractLsb']
    change BitVec.getLsbD (w := 6+2+6+6+6+2+4) _ _ = _
    simp only [BitVec.getLsbD_append]
    simp (disch := omega) only [if_neg, if_pos]
    rw [← BitVec.getLsbD_eq_getElem]
    congr 1
    omega
  · ext i hi
    rw [BitVec.getElem_extractLsb']
    change BitVec.getLsbD (w := 6+2+6+6+6+2+4) _ _ = _
    simp only [BitVec.getLsbD_append]
    simp (disch := omega) only [if_neg, if_pos]
    rw [← BitVec.getLsbD_eq_getElem]
    congr 1
    omega
  · ext i hi
    rw [BitVec.getElem_extractLsb']
    change BitVec.getLsbD (w := 6+2+6+6+6+2+4) _ _ = _
    simp only [BitVec.getLsbD_append]
    simp (disch := omega) only [if_neg, if_pos]
    rw [← BitVec.getLsbD_eq_getElem]
    congr 1
    omega
  · ext i hi
    rw [BitVec.getElem_extractLsb']
    change BitVec.getLsbD (w := 6+2+6+6+6+2+4) _ _ = _
    simp only [BitVec.getLsbD_append]
    simp (disch := omega) only [if_neg, if_pos]
    rw [← BitVec.getLsbD_eq_getElem]
    congr 1
    omega

/-- The opcode of a word in format W. -/
theorem op_packW (op : BitVec 6) (w : FW) : (packW op w).extractLsb' 26 6 = op := by
  unfold packW
  ext i hi
  rw [BitVec.getElem_extractLsb']
  change BitVec.getLsbD (w := 6+2+6+6+6+6) _ _ = _
  simp only [BitVec.getLsbD_append]
  simp (disch := omega) only [if_neg]
  rw [← BitVec.getLsbD_eq_getElem]
  congr 1
  omega
/-- The fields of a word in format W. -/
theorem fields_packW (op : BitVec 6) (w : FW) : fW (packW op w) = w := by
  cases w
  simp only [fW, packW, gateOf, FW.mk.injEq]
  refine ⟨?_, ?_, ?_, ?_, ?_⟩
  · ext i hi
    rw [BitVec.getElem_extractLsb']
    change BitVec.getLsbD (w := 6+2+6+6+6+6) _ _ = _
    simp only [BitVec.getLsbD_append]
    simp (disch := omega) only [if_neg, if_pos]
    rw [← BitVec.getLsbD_eq_getElem]
    congr 1
    omega
  · ext i hi
    rw [BitVec.getElem_extractLsb']
    change BitVec.getLsbD (w := 6+2+6+6+6+6) _ _ = _
    simp only [BitVec.getLsbD_append]
    simp (disch := omega) only [if_neg, if_pos]
    rw [← BitVec.getLsbD_eq_getElem]
    congr 1
    omega
  · ext i hi
    rw [BitVec.getElem_extractLsb']
    change BitVec.getLsbD (w := 6+2+6+6+6+6) _ _ = _
    simp only [BitVec.getLsbD_append]
    simp (disch := omega) only [if_neg, if_pos]
    rw [← BitVec.getLsbD_eq_getElem]
    congr 1
    omega
  · ext i hi
    rw [BitVec.getElem_extractLsb']
    change BitVec.getLsbD (w := 6+2+6+6+6+6) _ _ = _
    simp only [BitVec.getLsbD_append]
    simp (disch := omega) only [if_neg, if_pos]
    rw [← BitVec.getLsbD_eq_getElem]
    congr 1
    omega
  · ext i hi
    rw [BitVec.getElem_extractLsb']
    change BitVec.getLsbD (w := 6+2+6+6+6+6) _ _ = _
    simp only [BitVec.getLsbD_append]
    simp (disch := omega) only [if_neg, if_pos]
    rw [← BitVec.getLsbD_eq_getElem]
    congr 1
    omega

/-- The opcode of a word in format F. -/
theorem op_packF (op : BitVec 6) (w : FF) : (packF op w).extractLsb' 26 6 = op := by
  unfold packF
  ext i hi
  rw [BitVec.getElem_extractLsb']
  change BitVec.getLsbD (w := 6+2+3+6+6+9) _ _ = _
  simp only [BitVec.getLsbD_append]
  simp (disch := omega) only [if_neg]
  rw [← BitVec.getLsbD_eq_getElem]
  congr 1
  omega
/-- The fields of a word in format F. -/
theorem fields_packF (op : BitVec 6) (w : FF) : fF (packF op w) = w := by
  cases w
  simp only [fF, packF, gateOf, FF.mk.injEq]
  refine ⟨?_, ?_, ?_, ?_⟩
  · ext i hi
    rw [BitVec.getElem_extractLsb']
    change BitVec.getLsbD (w := 6+2+3+6+6+9) _ _ = _
    simp only [BitVec.getLsbD_append]
    simp (disch := omega) only [if_neg, if_pos]
    rw [← BitVec.getLsbD_eq_getElem]
    congr 1
    omega
  · ext i hi
    rw [BitVec.getElem_extractLsb']
    change BitVec.getLsbD (w := 6+2+3+6+6+9) _ _ = _
    simp only [BitVec.getLsbD_append]
    simp (disch := omega) only [if_neg, if_pos]
    rw [← BitVec.getLsbD_eq_getElem]
    congr 1
    omega
  · ext i hi
    rw [BitVec.getElem_extractLsb']
    change BitVec.getLsbD (w := 6+2+3+6+6+9) _ _ = _
    simp only [BitVec.getLsbD_append]
    simp (disch := omega) only [if_neg, if_pos]
    rw [← BitVec.getLsbD_eq_getElem]
    congr 1
    omega
  · ext i hi
    rw [BitVec.getElem_extractLsb']
    change BitVec.getLsbD (w := 6+2+3+6+6+9) _ _ = _
    simp only [BitVec.getLsbD_append]
    simp (disch := omega) only [if_neg, if_pos]
    rw [← BitVec.getLsbD_eq_getElem]
    congr 1
    omega

/-- The opcode of a word in format PH. -/
theorem op_packPH (op : BitVec 6) (w : FPH) : (packPH op w).extractLsb' 26 6 = op := by
  unfold packPH
  ext i hi
  rw [BitVec.getElem_extractLsb']
  change BitVec.getLsbD (w := 6+2+4+20) _ _ = _
  simp only [BitVec.getLsbD_append]
  simp (disch := omega) only [if_neg]
  rw [← BitVec.getLsbD_eq_getElem]
  congr 1
  omega
/-- The fields of a word in format PH. -/
theorem fields_packPH (op : BitVec 6) (w : FPH) : fPH (packPH op w) [w.e1, w.e2] = w := by
  cases w
  simp only [fPH, packPH, gateOf, FPH.mk.injEq, List.getD_cons_zero, List.getD_cons_succ, and_true]
  refine ⟨?_, ?_⟩
  · ext i hi
    rw [BitVec.getElem_extractLsb']
    change BitVec.getLsbD (w := 6+2+4+20) _ _ = _
    simp only [BitVec.getLsbD_append]
    simp (disch := omega) only [if_neg, if_pos]
    rw [← BitVec.getLsbD_eq_getElem]
    congr 1
    omega
  · ext i hi
    rw [BitVec.getElem_extractLsb']
    change BitVec.getLsbD (w := 6+2+4+20) _ _ = _
    simp only [BitVec.getLsbD_append]
    simp (disch := omega) only [if_neg, if_pos]
    rw [← BitVec.getLsbD_eq_getElem]
    congr 1
    omega

end Sys2Proof
end

