-- ==== Sys2Proof/Laws/Issue.lean ====
section
/-! SUPPORT. The laws of issue: what a gate, the issue of an S, V, A or global instruction, and a read of a register can do. -/

namespace Sys2Proof.Machine

/-! ## Gates -/

/-- A gate that lets the instruction act. -/
theorem gated_open {g : BitVec 2} {s : State} {k : State → Out} (h : gateOk g s.cur.level = true) : gated g s k = k s := by
  simp [gated, h]
/-- A gate that suppresses it. -/
theorem gated_closed {g : BitVec 2} {s : State} {k : State → Out} (h : gateOk g s.cur.level = false) :
    gated g s k = .next s := by
  simp [gated, h]

/-- A boundary with nothing recorded acts. -/
theorem atBoundary_none {s : State} {k : State → Out} (h : s.cx.pend = none) : atBoundary s k = k s := by
  simp [atBoundary, h]
/-- A boundary takes the recorded condition first. -/
theorem atBoundary_some {s : State} {k : State → Out} {t : TrapInfo} (h : s.cx.pend = some t) :
    atBoundary s k = .next (takeTrap s t) := by
  simp [atBoundary, h]

/-! ## The S stream -/

/-- Everything that the issue of an S instruction can do: nothing under a gate, a breach trap, an arithmetic trap, or one
result in flight. -/
theorem issueScalar_cases (g : BitVec 2) (d : BitVec 6) (a b c : Option (BitVec 6)) (lat : Nat) (val : SVal) (s : State) :
    let r := val s.cur.rm (readOp s 0 a) (readOp s 3 b) (readOp s 6 c)
    issueScalar g d a b c lat val s = .next s
    ∨ issueScalar g d a b c lat val s = .next (breachTrap s .s)
    ∨ issueScalar g d a b c lat val s = .next (trapAt s .s tcArith (natW (r.2.toNat * 65536)) 0)
    ∨ issueScalar g d a b c lat val s = .next (launch s [mkFlight s .s lat (.s d.toNat r.1) r.2 false
        (mkCapt s (captS (readOp s 0 a)) (captS (readOp s 3 b)) (captS (readOp s 6 c)) 0)]) := by
  unfold issueScalar gated
  by_cases h : gateOk g s.cur.level = true
  · simp only [h, if_true]
    split
    · exact .inr (.inl rfl)
    · split
      · exact .inr (.inr (.inl rfl))
      · exact .inr (.inr (.inr rfl))
  · simp [h]

/-- The issue of an S instruction that breaches nothing and raises no enabled trap. -/
theorem issueScalar_next {g : BitVec 2} {d : BitVec 6} {a b c : Option (BitVec 6)} {lat : Nat} {val : SVal} {s : State}
    (hg : gateOk g s.cur.level = true)
    (hb : (s.cur.chk && ([a, b, c].any (fun r => r.any fun n => breachS s.cx s.cycle n.toNat)
      || (VDst.scal d).breach s)) = false)
    (ht : (val s.cur.rm (readOp s 0 a) (readOp s 3 b) (readOp s 6 c)).2 &&& s.cur.ten = 0) :
    issueScalar g d a b c lat val s = .next (launch s [mkFlight s .s lat
      (.s d.toNat (val s.cur.rm (readOp s 0 a) (readOp s 3 b) (readOp s 6 c)).1)
      (val s.cur.rm (readOp s 0 a) (readOp s 3 b) (readOp s 6 c)).2 false
      (mkCapt s (captS (readOp s 0 a)) (captS (readOp s 3 b)) (captS (readOp s 6 c)) 0)]) := by
  unfold issueScalar
  rw [gated_open hg, if_neg (by rw [hb]; simp)]
  exact if_neg (by rw [ht]; simp)

/-- The issue of an S instruction that breaches nothing and raises an enabled trap: no result is put in flight. -/
theorem issueScalar_trap {g : BitVec 2} {d : BitVec 6} {a b c : Option (BitVec 6)} {lat : Nat} {val : SVal} {s : State}
    (hg : gateOk g s.cur.level = true)
    (hb : (s.cur.chk && ([a, b, c].any (fun r => r.any fun n => breachS s.cx s.cycle n.toNat)
      || (VDst.scal d).breach s)) = false)
    (ht : (val s.cur.rm (readOp s 0 a) (readOp s 3 b) (readOp s 6 c)).2 &&& s.cur.ten ≠ 0) :
    issueScalar g d a b c lat val s = .next (trapAt s .s tcArith
      (natW ((val s.cur.rm (readOp s 0 a) (readOp s 3 b) (readOp s 6 c)).2.toNat * 65536)) 0) := by
  unfold issueScalar
  rw [gated_open hg, if_neg (by rw [hb]; simp)]
  exact if_pos (by simpa using ht)

/-- The issue of an S access: a gate, an access that still holds the stream, a breach, or the access stands outstanding. -/
theorem issueGlob_next {g : BitVec 2} {reads : List (BitVec 6)} {d : Option (BitVec 6)} {op : GOp} {addr : W64} {sd : Nat}
    {s : State} (hg : gateOk g s.cur.level = true) (hf : s.cx.gacc = none)
    (hb : (s.cur.chk && (reads.any (fun n => breachS s.cx s.cycle n.toNat)
      || d.any fun n => (VDst.scal n).breach s)) = false) :
    issueGlob g reads d op addr sd s = .next { s with
      cx := { s.cx with gacc := some ⟨op, addr, sd, .waiting, s.cur.seq, s.cur.line, s.cur.slot, false, Journey.start⟩ }
      fresh := s.fresh + 1 } := by
  unfold issueGlob
  rw [gated_open hg]
  rw [if_neg (by simp [gaccFree, hf]), if_neg (by rw [hb]; simp)]

/-! ## Reads of scalar registers -/

/-- A fold that a list's elements leave alone. -/
theorem foldl_keep {α β : Type} (f : β → α → β) (l : List α) (b : β) (h : ∀ x ∈ l, ∀ y, f y x = y) : l.foldl f b = b := by
  induction l generalizing b with
  | nil => rfl
  | cons x r ih =>
    rw [List.foldl_cons, h x (by simp) b]
    exact ih b fun y hy => h y (by simp [hy])

/-- A read of a scalar register that no write awaits and no access owns. -/
theorem readS_idle {s : State} {k r : Nat} (hf : ∀ f ∈ s.cx.inflight, f.res.sreg ≠ some r) (ho : ownsS s.cx r = false) :
    readS s k r = s.cx.rs r := by
  unfold readS
  by_cases h : r = 0
  · subst h; simp [Ctx.rs]
  · simp only [h, if_false, ho, Bool.false_and, Bool.false_eq_true]
    apply foldl_keep
    intro f hm y
    have := hf f hm
    revert this
    cases f.res <;> simp [Res.sreg]
    intro h1 h2
    exact absurd h2 h1

end Sys2Proof.Machine
end

