-- ==== Sys2Proof/Laws/Memory.lean ====
section
/-! SUPPORT. The laws of memory: a read after a write, and the canonical form that every store keeps. -/

namespace Sys2Proof.Machine

/-! ## The canonical form -/

/-- A bound below which nothing is listed may be taken lower. -/
theorem Mem.wfAbove_weaken {lo lo' : Option Nat} {m : List Host.Cell} (h : Mem.wfAbove lo m = true)
    (hl : ∀ l', lo' = some l' → ∃ l, lo = some l ∧ l' ≤ l) : Mem.wfAbove lo' m = true := by
  cases m with
  | nil => rfl
  | cons c r =>
    obtain ⟨j, b⟩ := c
    simp only [Mem.wfAbove, Bool.and_eq_true, bne_iff_ne, ne_eq] at h ⊢
    refine ⟨⟨?_, h.1.2⟩, h.2⟩
    cases lo' with
    | none => rfl
    | some l' =>
      obtain ⟨l, hlo, hle⟩ := hl l' rfl
      subst hlo
      have := h.1.1
      simp only [decide_eq_true_eq] at this ⊢
      omega

/-- A list above a bound is canonical. -/
theorem Mem.wf_of_wfAbove {lo : Option Nat} {m : List Host.Cell} (h : Mem.wfAbove lo m = true) : Mem.wf m = true :=
  Mem.wfAbove_weaken h (by simp)

/-- The bound test holds of a key above the bound. -/
theorem Mem.above_ok : ∀ (lo : Option Nat) (k : Nat), (∀ l, lo = some l → l < k) →
    (match lo with | none => true | some l => decide (l < k)) = true
  | none, _, _ => rfl
  | some l, _, h => by simpa using h l rfl

/-- Storing a byte above a bound keeps the canonical form above it. -/
theorem Mem.put_wfAbove {lo : Option Nat} {m : List Host.Cell} (k : Nat) (v : Byte) (h : Mem.wfAbove lo m = true)
    (hk : ∀ l, lo = some l → l < k) : Mem.wfAbove lo (Mem.put m k v) = true := by
  induction m generalizing lo with
  | nil =>
    unfold Mem.put
    split
    · rfl
    · rename_i hv
      simp only [Mem.wfAbove, Bool.and_true, Bool.and_eq_true, bne_iff_ne, ne_eq]
      refine ⟨?_, hv⟩
      cases lo with
      | none => rfl
      | some l => simpa using hk l rfl
  | cons c r ih =>
    obtain ⟨j, b⟩ := c
    have hh := h
    simp only [Mem.wfAbove, Bool.and_eq_true, bne_iff_ne, ne_eq] at hh
    unfold Mem.put
    split
    · rename_i hlt
      split
      · exact h
      · rename_i hv
        simp only [Mem.wfAbove, Bool.and_eq_true, bne_iff_ne, ne_eq, decide_eq_true_eq]
        exact ⟨⟨Mem.above_ok lo k hk, hv⟩, ⟨hlt, hh.1.2⟩, hh.2⟩
    · split
      · rename_i hkj
        subst hkj
        split
        · exact Mem.wfAbove_weaken hh.2 (fun l' hl' => ⟨k, rfl, by have := hk l' hl'; omega⟩)
        · rename_i hv
          simp only [Mem.wfAbove, Bool.and_eq_true, bne_iff_ne, ne_eq]
          exact ⟨⟨Mem.above_ok lo k hk, hv⟩, hh.2⟩
      · simp only [Mem.wfAbove, Bool.and_eq_true, bne_iff_ne, ne_eq]
        refine ⟨hh.1, ih hh.2 ?_⟩
        intro l hl
        cases hl
        omega

/-- Storing a byte keeps the canonical form. -/
theorem Mem.put_wf {m : List Host.Cell} (k : Nat) (v : Byte) (h : Mem.wf m = true) : Mem.wf (Mem.put m k v) = true :=
  Mem.put_wfAbove k v h (by simp)

/-- Storing several bytes keeps the canonical form. -/
theorem Mem.putAll_wf {m : List Host.Cell} (cs : List Host.Cell) (h : Mem.wf m = true) : Mem.wf (Mem.putAll m cs) = true := by
  induction cs generalizing m with
  | nil => exact h
  | cons c r ih => exact ih (Mem.put_wf c.1 c.2 h)

/-- Leaving cells out keeps the canonical form above a bound. -/
theorem Mem.filter_wfAbove {lo : Option Nat} {m : List Host.Cell} (t : Host.Cell → Bool) (h : Mem.wfAbove lo m = true) :
    Mem.wfAbove lo (m.filter t) = true := by
  induction m generalizing lo with
  | nil => rfl
  | cons c r ih =>
    obtain ⟨j, b⟩ := c
    have hh := h
    simp only [Mem.wfAbove, Bool.and_eq_true, bne_iff_ne, ne_eq] at hh
    rw [List.filter_cons]
    split
    · simp only [Mem.wfAbove, Bool.and_eq_true, bne_iff_ne, ne_eq]
      exact ⟨hh.1, ih hh.2⟩
    · refine Mem.wfAbove_weaken (ih hh.2) ?_
      intro l' hl'
      subst hl'
      have := hh.1.1
      simp only [decide_eq_true_eq] at this
      exact ⟨j, rfl, by omega⟩

/-- Leaving cells out keeps the canonical form. -/
theorem Mem.filter_wf {m : List Host.Cell} (t : Host.Cell → Bool) (h : Mem.wf m = true) : Mem.wf (m.filter t) = true :=
  Mem.filter_wfAbove t h

/-! ## Reads after writes -/

/-- Below every listed key a byte reads as its default. -/
theorem Mem.get_below {lo : Nat} {m : List Host.Cell} (h : Mem.wfAbove (some lo) m = true) {k : Nat} (hk : k ≤ lo) :
    Mem.get m k = memDefault k := by
  induction m generalizing lo with
  | nil => rfl
  | cons c r ih =>
    obtain ⟨j, b⟩ := c
    simp only [Mem.wfAbove, Bool.and_eq_true, decide_eq_true_eq] at h
    unfold Mem.get
    rw [if_neg (by omega)]
    exact ih h.2 (by omega)

/-- A read of the byte just written. -/
theorem Mem.get_put_same {m : List Host.Cell} (k : Nat) (v : Byte) (h : Mem.wf m = true) : Mem.get (Mem.put m k v) k = v := by
  unfold Mem.wf at h
  generalize hlo : (none : Option Nat) = lo at h
  clear hlo
  induction m generalizing lo with
  | nil =>
    unfold Mem.put
    split
    · rename_i hv; simp [Mem.get, hv]
    · simp [Mem.get]
  | cons c r ih =>
    obtain ⟨j, b⟩ := c
    have hh := h
    simp only [Mem.wfAbove, Bool.and_eq_true, bne_iff_ne, ne_eq] at hh
    unfold Mem.put
    split
    · rename_i hlt
      split
      · rename_i hv
        unfold Mem.get
        rw [if_neg (by omega), Mem.get_below hh.2 (by omega), hv]
      · simp [Mem.get]
    · split
      · rename_i hkj
        subst hkj
        split
        · rename_i hv
          rw [Mem.get_below hh.2 (le_refl k), hv]
        · simp [Mem.get]
      · rename_i hne
        unfold Mem.get
        rw [if_neg (by omega)]
        exact ih _ hh.2

/-- A read of another byte than the one written. -/
theorem Mem.get_put_other {m : List Host.Cell} {k j : Nat} (v : Byte) (h : Mem.wf m = true) (hj : j ≠ k) :
    Mem.get (Mem.put m k v) j = Mem.get m j := by
  unfold Mem.wf at h
  generalize hlo : (none : Option Nat) = lo at h
  clear hlo
  induction m generalizing lo with
  | nil =>
    unfold Mem.put
    split
    · rfl
    · simp [Mem.get, hj.symm]
  | cons c r ih =>
    obtain ⟨i, b⟩ := c
    have hh := h
    simp only [Mem.wfAbove, Bool.and_eq_true, bne_iff_ne, ne_eq] at hh
    unfold Mem.put
    split
    · split
      · rfl
      · rw [Mem.get, if_neg hj.symm]
    · split
      · rename_i hki
        subst hki
        split
        · rw [Mem.get, if_neg hj.symm]
        · rw [Mem.get, Mem.get, if_neg hj.symm, if_neg hj.symm]
      · rw [Mem.get, Mem.get]
        split
        · rfl
        · exact ih _ hh.2

/-- A read of a byte that several writes leave alone. -/
theorem Mem.get_putAll_other {m : List Host.Cell} (cs : List Host.Cell) {j : Nat} (h : Mem.wf m = true)
    (hj : ∀ c ∈ cs, c.1 ≠ j) : Mem.get (Mem.putAll m cs) j = Mem.get m j := by
  induction cs generalizing m with
  | nil => rfl
  | cons c r ih =>
    rw [Mem.putAll, ih (Mem.put_wf c.1 c.2 h) (fun d hd => hj d (List.mem_cons_of_mem _ hd))]
    exact Mem.get_put_other c.2 h (hj c List.mem_cons_self).symm

/-! ## The stores of a state -/

/-- The write-combining buffer holds tags only: noting a write changes nothing else. -/
theorem wcNote_eq (s : State) (line : Nat) (mask : BitVec 64) : wcNote s line mask = { s with wc := (wcNote s line mask).wc } := by
  unfold wcNote
  split <;> rfl
/-- Noting several lines changes nothing but the write-combining buffers. -/
theorem wcLines_eq (ls : List Nat) (s : State) (ks : List Nat) :
    ∃ w, ls.foldl (fun t l => if isVaultKey (l * 64) then wcNote t l (lineMask ks l) else t) s = { s with wc := w } := by
  induction ls generalizing s with
  | nil => exact ⟨s.wc, rfl⟩
  | cons l r ih =>
    rw [List.foldl_cons]
    obtain ⟨w, hw⟩ := ih (if isVaultKey (l * 64) then wcNote s l (lineMask ks l) else s)
    refine ⟨w, hw.trans ?_⟩
    split
    · rw [wcNote_eq]
    · rfl

/-- What notes a write changes nothing but tags and errors. -/
theorem wroteKeys_eq (s : State) (ks : List Nat) :
    ∃ w b f, wroteKeys s ks = { s with wc := w, bad := b, soft := f } ∧ ∀ l ∈ b, l ∈ s.bad := by
  obtain ⟨w, hw⟩ := wcLines_eq (linesOf (ks.filter (· < 2 ^ 50))) s ks
  unfold wroteKeys
  simp only [hw]
  exact ⟨w, _, _, rfl, fun l hl => List.mem_of_mem_filter hl⟩

/-- Closing reduction registers keeps memory canonical. -/
theorem closeWords_wf (s : State) (ws : List Nat) (h : Mem.wf s.mem = true) : Mem.wf (closeWords s ws).mem = true := by
  unfold closeWords
  obtain ⟨w, b, f, hw, -⟩ := wroteKeys_eq { s with mem := Mem.putAll s.mem (backCells s ws), red := redDrop s.red fun w => ws.contains w }
    ((backCells s ws).map (·.1))
  simp only [hw]
  exact Mem.putAll_wf _ h

/-- Every store keeps memory canonical. -/
theorem putCells_wf (s : State) (cs : List Host.Cell) (h : Mem.wf s.mem = true) : Mem.wf (putCells s cs).mem = true := by
  unfold putCells
  simp only
  generalize hs : closeWords s _ = s1
  obtain ⟨w, b, f, hw, -⟩ := wroteKeys_eq { s1 with mem := Mem.putAll s1.mem cs } (cs.map (·.1))
  simp only [hw]
  exact Mem.putAll_wf _ (hs ▸ closeWords_wf s _ h)
theorem storeCells_wf (s : State) (cs : List Host.Cell) (h : Mem.wf s.mem = true) : Mem.wf (storeCells s cs).mem = true :=
  putCells_wf s _ h
theorem storeAt_wf (s : State) (k n v : Nat) (h : Mem.wf s.mem = true) : Mem.wf (storeAt s k n v).mem = true :=
  storeCells_wf s _ h
theorem storeBytes_wf (s : State) (ks : List Nat) (bs : List Byte) (h : Mem.wf s.mem = true) :
    Mem.wf (storeBytes s ks bs).mem = true := storeCells_wf s _ h

/-! ## Reads at the home after a store -/

/-- A key stored once among cells reads the value stored. -/
theorem Mem.get_putAll_same {m : List Host.Cell} (cs : List Host.Cell) {k : Nat} {v : Byte} (h : Mem.wf m = true)
    (hk : (k, v) ∈ cs) (hu : ∀ c ∈ cs, c.1 = k → c.2 = v) : Mem.get (Mem.putAll m cs) k = v := by
  induction cs generalizing m with
  | nil => simp at hk
  | cons c r ih =>
    obtain ⟨j, u⟩ := c
    rw [Mem.putAll]
    by_cases hr : (k, v) ∈ r
    · exact ih (Mem.put_wf j u h) hr fun c hc => hu c (List.mem_cons_of_mem _ hc)
    · have hj : (k, v) = (j, u) := (List.mem_cons.mp hk).resolve_right hr
      obtain ⟨rfl, rfl⟩ := Prod.mk.inj hj
      rw [Mem.get_putAll_other r (Mem.put_wf k v h), Mem.get_put_same k v h]
      intro c hc hck
      apply hr
      have := hu c (List.mem_cons_of_mem _ hc) hck
      rw [← hck, ← this]
      exact hc

/-- A word that a test does not name keeps its open register. -/
theorem redFind_redDrop (red : List RedLine) (ws : Nat → Bool) (w : Nat) :
    redFind (redDrop red ws) w = if ws w then none else redFind red w := by
  unfold redDrop
  induction red with
  | nil => simp [redFind]
  | cons l r ih =>
    rw [List.map_cons]
    have hf : (l.regs.filter fun g => !ws g.word).find? (fun g => g.word == w)
        = if ws w then none else l.regs.find? (fun g => g.word == w) := by
      induction l.regs with
      | nil => simp
      | cons g t iht =>
        by_cases hg : g.word = w
        · subst hg
          by_cases hw : ws g.word = true
          · simp only [List.filter_cons, hw, Bool.not_true, Bool.false_eq_true, if_false, if_true] at iht ⊢
            exact iht
          · simp [hw]
        · by_cases hw : ws g.word = true
          · simp only [List.filter_cons, hw, Bool.not_true, Bool.false_eq_true, if_false]
            rw [iht, List.find?_cons_of_neg (by simpa using hg)]
          · simp only [List.filter_cons, hw, Bool.not_false, if_true]
            rw [List.find?_cons_of_neg (by simpa using hg), iht, List.find?_cons_of_neg (by simpa using hg)]
    by_cases hl : (l.regs.filter fun g => !ws g.word) = []
    · rw [List.filter_cons_of_neg (by simp [hl]), ih]
      rw [hl] at hf
      simp only [List.find?_nil] at hf
      split
      · rfl
      · rename_i hw
        rw [if_neg hw] at hf
        rw [redFind, ← hf]
    · rw [List.filter_cons_of_pos (by simpa using hl), redFind, redFind, ih, hf]
      by_cases hw : ws w = true
      · simp [hw]
      · simp only [hw, if_false, Bool.false_eq_true]

/-- The byte that the home holds under a possible uncorrectable error: the read-back of an open register, or the byte stored. -/
def heldByte (s : State) (k : Nat) : Byte :=
  match redFind s.red (k / 4) with
  | some g => byteOfW32 g.back (k % 4)
  | none => Mem.get s.mem k

/-- Without an uncorrectable error the home serves the byte that it holds. -/
theorem homeByte_held (s : State) (k : Nat) (h : badByte s k = false) : homeByte s k = heldByte s k := by
  unfold homeByte heldByte
  cases redFind s.red (k / 4) with
  | some g => rfl
  | none => simp [h]
/-- A byte with an uncorrectable error reads as zero. -/
theorem homeByte_bad (s : State) (k : Nat) (h : badByte s k = true) : homeByte s k = 0 := by
  unfold homeByte
  have : redFind s.red (k / 4) = none := by
    simp only [badByte, Bool.and_eq_true, Option.isNone_iff_eq_none] at h
    exact h.1.2
  simp [this, h]
/-- A byte with an uncorrectable error lies in an uncorrectable line. -/
theorem badByte_line (s : State) (k : Nat) (h : badByte s k = true) : k / 64 ∈ s.bad := by
  simp only [badByte, Bool.and_eq_true, List.contains_iff_mem] at h
  exact h.1.1

/-- A cell that the closing of words writes: a byte of the read-back value of an open register among them. -/
theorem mem_backCells (s : State) (ws : List Nat) (c : Host.Cell) (h : c ∈ backCells s ws) :
    ∃ g, c.1 / 4 ∈ ws ∧ redFind s.red (c.1 / 4) = some g ∧ c.2 = byteOfW32 g.back (c.1 % 4) := by
  unfold backCells at h
  obtain ⟨w, hw, hc⟩ := List.mem_flatMap.mp h
  cases hr : redFind s.red w with
  | none => simp [hr] at hc
  | some g =>
    simp only [hr, List.mem_map, List.mem_range] at hc
    obtain ⟨i, hi, rfl⟩ := hc
    have h1 : (4 * w + i) / 4 = w := by omega
    have h2 : (4 * w + i) % 4 = i := by omega
    exact ⟨g, by simpa only [h1] using hw, by simpa only [h1] using hr, by simp only [h2]⟩

/-- Closing words changes no byte that a home holds (R345, R346). -/
theorem heldByte_closeWords (s : State) (ws : List Nat) (k : Nat) (h : Mem.wf s.mem = true) :
    heldByte (closeWords s ws) k = heldByte s k := by
  unfold closeWords
  obtain ⟨w, b, f, hw, -⟩ := wroteKeys_eq { s with mem := Mem.putAll s.mem (backCells s ws), red := redDrop s.red fun w => ws.contains w }
    ((backCells s ws).map (·.1))
  simp only [hw]
  unfold heldByte
  simp only [redFind_redDrop, List.contains_iff_mem]
  by_cases hk : k / 4 ∈ ws
  · simp only [hk, if_true]
    cases hr : redFind s.red (k / 4) with
    | none =>
      refine Mem.get_putAll_other _ h fun c hc hck => ?_
      obtain ⟨g, -, hg, -⟩ := mem_backCells s ws c hc
      simp [hck, hr] at hg
    | some g =>
      refine Mem.get_putAll_same _ h ?_ fun c hc hck => ?_
      · refine List.mem_flatMap.mpr ⟨k / 4, hk, ?_⟩
        simp only [hr, List.mem_map, List.mem_range]
        exact ⟨k % 4, Nat.mod_lt _ (by decide), by rw [Nat.div_add_mod]⟩
      · obtain ⟨g', -, hg, hv⟩ := mem_backCells s ws c hc
        rw [hck, hr] at hg
        cases hg
        rw [hv, hck]
  · simp only [hk, if_false]
    cases redFind s.red (k / 4) with
    | some g => rfl
    | none =>
      refine Mem.get_putAll_other _ h fun c hc hck => hk ?_
      obtain ⟨g, hg, -, -⟩ := mem_backCells s ws c hc
      exact hck ▸ hg

/-- A byte that cells do not name stays as it is held when they are stored (R346). -/
theorem heldByte_putCells_other (s : State) (cs : List Host.Cell) {k : Nat} (h : Mem.wf s.mem = true)
    (hk : ∀ c ∈ cs, c.1 ≠ k) : heldByte (putCells s cs) k = heldByte s k := by
  unfold putCells
  simp only
  rw [← heldByte_closeWords s (((cs.map (·.1)).filter (· < 2 ^ 50)).map (· / 4)).dedup k h]
  generalize hs : closeWords s _ = s1
  obtain ⟨w, b, f, hw, -⟩ := wroteKeys_eq { s1 with mem := Mem.putAll s1.mem cs } (cs.map (·.1))
  simp only [hw]
  unfold heldByte
  cases redFind s1.red (k / 4) with
  | some g => rfl
  | none => exact Mem.get_putAll_other cs (hs ▸ closeWords_wf s _ h) hk

/-- A store leaves the uncorrectable lines or makes some of them correctable (R308). -/
theorem putCells_bad (s : State) (cs : List Host.Cell) (l : Nat) (h : l ∈ (putCells s cs).bad) : l ∈ s.bad := by
  unfold putCells at h
  simp only at h
  generalize hs : closeWords s _ = s1 at h
  obtain ⟨w, b, f, hw, hb⟩ := wroteKeys_eq { s1 with mem := Mem.putAll s1.mem cs } (cs.map (·.1))
  simp only [hw] at h
  have h1 : l ∈ s1.bad := hb l h
  rw [← hs] at h1
  unfold closeWords at h1
  simp only at h1
  generalize (((cs.map (·.1)).filter (· < 2 ^ 50)).map (· / 4)).dedup = ws at h1
  obtain ⟨w', b', f', hw', hb'⟩ := wroteKeys_eq
    { s with mem := Mem.putAll s.mem (backCells s ws), red := redDrop s.red fun w => ws.contains w } ((backCells s ws).map (·.1))
  simp only [hw'] at h1
  exact hb' l h1

/-- A byte that cells do not name reads as before they are stored, when its line is not uncorrectable (R308, R346). -/
theorem homeByte_putCells_other (s : State) (cs : List Host.Cell) {k : Nat} (h : Mem.wf s.mem = true)
    (hk : ∀ c ∈ cs, c.1 ≠ k) (hb : k / 64 ∉ s.bad) : homeByte (putCells s cs) k = homeByte s k := by
  rw [homeByte_held _ k, homeByte_held s k, heldByte_putCells_other s cs h hk]
  · exact Bool.eq_false_iff.mpr fun hc => hb (badByte_line s k hc)
  · exact Bool.eq_false_iff.mpr fun hc => hb (putCells_bad s cs _ (badByte_line _ k hc))

/-- A byte that cells name once reads as the value stored, unless its line is uncorrectable (R308). -/
theorem homeByte_putCells_same (s : State) (cs : List Host.Cell) {k : Nat} {v : Byte} (h : Mem.wf s.mem = true)
    (hk : (k, v) ∈ cs) (hu : ∀ c ∈ cs, c.1 = k → c.2 = v) (hb : k / 64 ∉ s.bad) (h50 : k < 2 ^ 50 ∨ redFind s.red (k / 4) = none) :
    homeByte (putCells s cs) k = v := by
  rw [homeByte_held _ k (Bool.eq_false_iff.mpr fun hc => hb (putCells_bad s cs _ (badByte_line _ k hc)))]
  unfold putCells
  simp only
  generalize hws : (((cs.map (·.1)).filter (· < 2 ^ 50)).map (· / 4)).dedup = ws
  have hw : Mem.wf (closeWords s ws).mem = true := closeWords_wf s _ h
  have hred : redFind (closeWords s ws).red (k / 4) = none := by
    unfold closeWords
    obtain ⟨w, b, f, hw, -⟩ := wroteKeys_eq { s with mem := Mem.putAll s.mem (backCells s ws), red := redDrop s.red fun w => ws.contains w }
      ((backCells s ws).map (·.1))
    simp only [hw, redFind_redDrop]
    rcases h50 with h50 | h50
    · have : k / 4 ∈ ws := by
        rw [← hws]
        simp only [List.mem_dedup, List.mem_map, List.mem_filter]
        exact ⟨k, ⟨⟨(k, v), hk, rfl⟩, by simpa using h50⟩, rfl⟩
      simp [this]
    · rw [h50]; split <;> rfl
  obtain ⟨w, b, f, hw', -⟩ := wroteKeys_eq { closeWords s ws with mem := Mem.putAll (closeWords s ws).mem cs } (cs.map (·.1))
  simp only [hw']
  unfold heldByte
  simp only [hred]
  exact Mem.get_putAll_same cs hw hk hu

/-- A byte outside the cells stored reads as before, when its line is not uncorrectable. -/
theorem homeByte_storeCells_other (s : State) (cs : List Host.Cell) {k : Nat} (h : Mem.wf s.mem = true)
    (hk : ∀ c ∈ cs, c.1 ≠ k) (hb : k / 64 ∉ s.bad) : homeByte (storeCells s cs) k = homeByte s k :=
  homeByte_putCells_other s _ h (fun c hc => hk c (List.mem_of_mem_filter hc)) hb

/-- A byte stored once that is not SEALED and whose line is not uncorrectable reads as the value stored (R82, R308). -/
theorem homeByte_storeCells_same (s : State) (cs : List Host.Cell) {k : Nat} {v : Byte} (h : Mem.wf s.mem = true)
    (hk : (k, v) ∈ cs) (hu : ∀ c ∈ cs, c.1 = k → c.2 = v) (hb : k / 64 ∉ s.bad) (hs : k / 64 ∉ s.sealed)
    (h50 : k < 2 ^ 50 ∨ redFind s.red (k / 4) = none) : homeByte (storeCells s cs) k = v :=
  homeByte_putCells_same s _ h (List.mem_filter.mpr ⟨hk, by simpa using hs⟩)
    (fun c hc => hu c (List.mem_of_mem_filter hc)) hb h50

/-- The keys of a zip of keys and bytes. -/
theorem mem_zip_key {ks : List Nat} {bs : List Byte} {c : Host.Cell} (h : c ∈ ks.zip bs) : c.1 ∈ ks :=
  (List.of_mem_zip h).1

/-- A byte outside the keys stored reads as before, when its line is not uncorrectable. -/
theorem homeByte_storeBytes_other (s : State) (ks : List Nat) (bs : List Byte) {k : Nat} (h : Mem.wf s.mem = true) (hk : k ∉ ks)
    (hb : k / 64 ∉ s.bad) : homeByte (storeBytes s ks bs) k = homeByte s k :=
  homeByte_storeCells_other s _ h (fun _ hc hck => hk (hck ▸ mem_zip_key hc)) hb

end Sys2Proof.Machine
end

