-- ==== Sys2Proof/Laws/State.lean ====
section
/-! SUPPORT. What each named update leaves of a state and of a context: one lemma for each field and update. -/

namespace Sys2Proof.Machine

/-! State.upd -/

@[simp] theorem State.upd_cx (s : State) (f : Ctx → Ctx) : (s.upd f).cx = f s.cx := rfl
@[simp] theorem State.upd_parked (s : State) (f : Ctx → Ctx) : (s.upd f).parked = s.parked := rfl
@[simp] theorem State.upd_cur (s : State) (f : Ctx → Ctx) : (s.upd f).cur = s.cur := rfl
@[simp] theorem State.upd_sub (s : State) (f : Ctx → Ctx) : (s.upd f).sub = s.sub := rfl
@[simp] theorem State.upd_blk (s : State) (f : Ctx → Ctx) : (s.upd f).blk = s.blk := rfl
@[simp] theorem State.upd_agenda (s : State) (f : Ctx → Ctx) : (s.upd f).agenda = s.agenda := rfl
@[simp] theorem State.upd_phase (s : State) (f : Ctx → Ctx) : (s.upd f).phase = s.phase := rfl
@[simp] theorem State.upd_round (s : State) (f : Ctx → Ctx) : (s.upd f).round = s.round := rfl
@[simp] theorem State.upd_fresh (s : State) (f : Ctx → Ctx) : (s.upd f).fresh = s.fresh := rfl
@[simp] theorem State.upd_cycle (s : State) (f : Ctx → Ctx) : (s.upd f).cycle = s.cycle := rfl
@[simp] theorem State.upd_mem (s : State) (f : Ctx → Ctx) : (s.upd f).mem = s.mem := rfl
@[simp] theorem State.upd_bad (s : State) (f : Ctx → Ctx) : (s.upd f).bad = s.bad := rfl
@[simp] theorem State.upd_soft (s : State) (f : Ctx → Ctx) : (s.upd f).soft = s.soft := rfl
@[simp] theorem State.upd_sealed (s : State) (f : Ctx → Ctx) : (s.upd f).sealed = s.sealed := rfl
@[simp] theorem State.upd_wc (s : State) (f : Ctx → Ctx) : (s.upd f).wc = s.wc := rfl
@[simp] theorem State.upd_red (s : State) (f : Ctx → Ctx) : (s.upd f).red = s.red := rfl
@[simp] theorem State.upd_redWait (s : State) (f : Ctx → Ctx) : (s.upd f).redWait = s.redWait := rfl
@[simp] theorem State.upd_kvq (s : State) (f : Ctx → Ctx) : (s.upd f).kvq = s.kvq := rfl
@[simp] theorem State.upd_vaults (s : State) (f : Ctx → Ctx) : (s.upd f).vaults = s.vaults := rfl
@[simp] theorem State.upd_fmt (s : State) (f : Ctx → Ctx) : (s.upd f).fmt = s.fmt := rfl
@[simp] theorem State.upd_swz (s : State) (f : Ctx → Ctx) : (s.upd f).swz = s.swz := rfl
@[simp] theorem State.upd_served (s : State) (f : Ctx → Ctx) : (s.upd f).served = s.served := rfl
@[simp] theorem State.upd_cores (s : State) (f : Ctx → Ctx) : (s.upd f).cores = s.cores := rfl
@[simp] theorem State.upd_garr (s : State) (f : Ctx → Ctx) : (s.upd f).garr = s.garr := rfl
@[simp] theorem State.upd_darr (s : State) (f : Ctx → Ctx) : (s.upd f).darr = s.darr := rfl
@[simp] theorem State.upd_xlat (s : State) (f : Ctx → Ctx) : (s.upd f).xlat = s.xlat := rfl
@[simp] theorem State.upd_icache (s : State) (f : Ctx → Ctx) : (s.upd f).icache = s.icache := rfl
@[simp] theorem State.upd_shadows (s : State) (f : Ctx → Ctx) : (s.upd f).shadows = s.shadows := rfl
@[simp] theorem State.upd_asTab (s : State) (f : Ctx → Ctx) : (s.upd f).asTab = s.asTab := rfl
@[simp] theorem State.upd_vis (s : State) (f : Ctx → Ctx) : (s.upd f).vis = s.vis := rfl
@[simp] theorem State.upd_tqs (s : State) (f : Ctx → Ctx) : (s.upd f).tqs = s.tqs := rfl
@[simp] theorem State.upd_intrs (s : State) (f : Ctx → Ctx) : (s.upd f).intrs = s.intrs := rfl
@[simp] theorem State.upd_regions (s : State) (f : Ctx → Ctx) : (s.upd f).regions = s.regions := rfl
@[simp] theorem State.upd_insts (s : State) (f : Ctx → Ctx) : (s.upd f).insts = s.insts := rfl
@[simp] theorem State.upd_nodes (s : State) (f : Ctx → Ctx) : (s.upd f).nodes = s.nodes := rfl
@[simp] theorem State.upd_bars (s : State) (f : Ctx → Ctx) : (s.upd f).bars = s.bars := rfl
@[simp] theorem State.upd_saved (s : State) (f : Ctx → Ctx) : (s.upd f).saved = s.saved := rfl
@[simp] theorem State.upd_tw (s : State) (f : Ctx → Ctx) : (s.upd f).tw = s.tw := rfl
@[simp] theorem State.upd_nonfin (s : State) (f : Ctx → Ctx) : (s.upd f).nonfin = s.nonfin := rfl
@[simp] theorem State.upd_twerr (s : State) (f : Ctx → Ctx) : (s.upd f).twerr = s.twerr := rfl
@[simp] theorem State.upd_samps (s : State) (f : Ctx → Ctx) : (s.upd f).samps = s.samps := rfl
@[simp] theorem State.upd_rsts (s : State) (f : Ctx → Ctx) : (s.upd f).rsts = s.rsts := rfl
@[simp] theorem State.upd_downDies (s : State) (f : Ctx → Ctx) : (s.upd f).downDies = s.downDies := rfl
@[simp] theorem State.upd_links (s : State) (f : Ctx → Ctx) : (s.upd f).links = s.links := rfl
@[simp] theorem State.upd_fabOrd (s : State) (f : Ctx → Ctx) : (s.upd f).fabOrd = s.fabOrd := rfl
@[simp] theorem State.upd_tcm (s : State) (f : Ctx → Ctx) : (s.upd f).tcm = s.tcm := rfl
@[simp] theorem State.upd_msix (s : State) (f : Ctx → Ctx) : (s.upd f).msix = s.msix := rfl
@[simp] theorem State.upd_pkg (s : State) (f : Ctx → Ctx) : (s.upd f).pkg = s.pkg := rfl
@[simp] theorem State.upd_replies (s : State) (f : Ctx → Ctx) : (s.upd f).replies = s.replies := rfl
@[simp] theorem State.upd_nextId (s : State) (f : Ctx → Ctx) : (s.upd f).nextId = s.nextId := rfl

/-! State.block -/

@[simp] theorem State.block_cx (s : State) : (s.block).cx = s.cx := rfl
@[simp] theorem State.block_parked (s : State) : (s.block).parked = s.parked := rfl
@[simp] theorem State.block_cur (s : State) : (s.block).cur = s.cur := rfl
@[simp] theorem State.block_sub (s : State) : (s.block).sub = s.sub := rfl
@[simp] theorem State.block_blk (s : State) : (s.block).blk = true := rfl
@[simp] theorem State.block_agenda (s : State) : (s.block).agenda = s.agenda := rfl
@[simp] theorem State.block_phase (s : State) : (s.block).phase = s.phase := rfl
@[simp] theorem State.block_round (s : State) : (s.block).round = s.round := rfl
@[simp] theorem State.block_fresh (s : State) : (s.block).fresh = s.fresh := rfl
@[simp] theorem State.block_cycle (s : State) : (s.block).cycle = s.cycle := rfl
@[simp] theorem State.block_mem (s : State) : (s.block).mem = s.mem := rfl
@[simp] theorem State.block_bad (s : State) : (s.block).bad = s.bad := rfl
@[simp] theorem State.block_soft (s : State) : (s.block).soft = s.soft := rfl
@[simp] theorem State.block_sealed (s : State) : (s.block).sealed = s.sealed := rfl
@[simp] theorem State.block_wc (s : State) : (s.block).wc = s.wc := rfl
@[simp] theorem State.block_red (s : State) : (s.block).red = s.red := rfl
@[simp] theorem State.block_redWait (s : State) : (s.block).redWait = s.redWait := rfl
@[simp] theorem State.block_kvq (s : State) : (s.block).kvq = s.kvq := rfl
@[simp] theorem State.block_vaults (s : State) : (s.block).vaults = s.vaults := rfl
@[simp] theorem State.block_fmt (s : State) : (s.block).fmt = s.fmt := rfl
@[simp] theorem State.block_swz (s : State) : (s.block).swz = s.swz := rfl
@[simp] theorem State.block_served (s : State) : (s.block).served = s.served := rfl
@[simp] theorem State.block_cores (s : State) : (s.block).cores = s.cores := rfl
@[simp] theorem State.block_garr (s : State) : (s.block).garr = s.garr := rfl
@[simp] theorem State.block_darr (s : State) : (s.block).darr = s.darr := rfl
@[simp] theorem State.block_xlat (s : State) : (s.block).xlat = s.xlat := rfl
@[simp] theorem State.block_icache (s : State) : (s.block).icache = s.icache := rfl
@[simp] theorem State.block_shadows (s : State) : (s.block).shadows = s.shadows := rfl
@[simp] theorem State.block_asTab (s : State) : (s.block).asTab = s.asTab := rfl
@[simp] theorem State.block_vis (s : State) : (s.block).vis = s.vis := rfl
@[simp] theorem State.block_tqs (s : State) : (s.block).tqs = s.tqs := rfl
@[simp] theorem State.block_intrs (s : State) : (s.block).intrs = s.intrs := rfl
@[simp] theorem State.block_regions (s : State) : (s.block).regions = s.regions := rfl
@[simp] theorem State.block_insts (s : State) : (s.block).insts = s.insts := rfl
@[simp] theorem State.block_nodes (s : State) : (s.block).nodes = s.nodes := rfl
@[simp] theorem State.block_bars (s : State) : (s.block).bars = s.bars := rfl
@[simp] theorem State.block_saved (s : State) : (s.block).saved = s.saved := rfl
@[simp] theorem State.block_tw (s : State) : (s.block).tw = s.tw := rfl
@[simp] theorem State.block_nonfin (s : State) : (s.block).nonfin = s.nonfin := rfl
@[simp] theorem State.block_twerr (s : State) : (s.block).twerr = s.twerr := rfl
@[simp] theorem State.block_samps (s : State) : (s.block).samps = s.samps := rfl
@[simp] theorem State.block_rsts (s : State) : (s.block).rsts = s.rsts := rfl
@[simp] theorem State.block_downDies (s : State) : (s.block).downDies = s.downDies := rfl
@[simp] theorem State.block_links (s : State) : (s.block).links = s.links := rfl
@[simp] theorem State.block_fabOrd (s : State) : (s.block).fabOrd = s.fabOrd := rfl
@[simp] theorem State.block_tcm (s : State) : (s.block).tcm = s.tcm := rfl
@[simp] theorem State.block_msix (s : State) : (s.block).msix = s.msix := rfl
@[simp] theorem State.block_pkg (s : State) : (s.block).pkg = s.pkg := rfl
@[simp] theorem State.block_replies (s : State) : (s.block).replies = s.replies := rfl
@[simp] theorem State.block_nextId (s : State) : (s.block).nextId = s.nextId := rfl

/-! State.setVi -/

@[simp] theorem State.setVi_cx (s : State) (n : Nat) (v : Vi) : (s.setVi n v).cx = s.cx := rfl
@[simp] theorem State.setVi_parked (s : State) (n : Nat) (v : Vi) : (s.setVi n v).parked = s.parked := rfl
@[simp] theorem State.setVi_cur (s : State) (n : Nat) (v : Vi) : (s.setVi n v).cur = s.cur := rfl
@[simp] theorem State.setVi_sub (s : State) (n : Nat) (v : Vi) : (s.setVi n v).sub = s.sub := rfl
@[simp] theorem State.setVi_blk (s : State) (n : Nat) (v : Vi) : (s.setVi n v).blk = s.blk := rfl
@[simp] theorem State.setVi_agenda (s : State) (n : Nat) (v : Vi) : (s.setVi n v).agenda = s.agenda := rfl
@[simp] theorem State.setVi_phase (s : State) (n : Nat) (v : Vi) : (s.setVi n v).phase = s.phase := rfl
@[simp] theorem State.setVi_round (s : State) (n : Nat) (v : Vi) : (s.setVi n v).round = s.round := rfl
@[simp] theorem State.setVi_fresh (s : State) (n : Nat) (v : Vi) : (s.setVi n v).fresh = s.fresh := rfl
@[simp] theorem State.setVi_cycle (s : State) (n : Nat) (v : Vi) : (s.setVi n v).cycle = s.cycle := rfl
@[simp] theorem State.setVi_mem (s : State) (n : Nat) (v : Vi) : (s.setVi n v).mem = s.mem := rfl
@[simp] theorem State.setVi_bad (s : State) (n : Nat) (v : Vi) : (s.setVi n v).bad = s.bad := rfl
@[simp] theorem State.setVi_soft (s : State) (n : Nat) (v : Vi) : (s.setVi n v).soft = s.soft := rfl
@[simp] theorem State.setVi_sealed (s : State) (n : Nat) (v : Vi) : (s.setVi n v).sealed = s.sealed := rfl
@[simp] theorem State.setVi_wc (s : State) (n : Nat) (v : Vi) : (s.setVi n v).wc = s.wc := rfl
@[simp] theorem State.setVi_red (s : State) (n : Nat) (v : Vi) : (s.setVi n v).red = s.red := rfl
@[simp] theorem State.setVi_redWait (s : State) (n : Nat) (v : Vi) : (s.setVi n v).redWait = s.redWait := rfl
@[simp] theorem State.setVi_kvq (s : State) (n : Nat) (v : Vi) : (s.setVi n v).kvq = s.kvq := rfl
@[simp] theorem State.setVi_vaults (s : State) (n : Nat) (v : Vi) : (s.setVi n v).vaults = s.vaults := rfl
@[simp] theorem State.setVi_fmt (s : State) (n : Nat) (v : Vi) : (s.setVi n v).fmt = s.fmt := rfl
@[simp] theorem State.setVi_swz (s : State) (n : Nat) (v : Vi) : (s.setVi n v).swz = s.swz := rfl
@[simp] theorem State.setVi_served (s : State) (n : Nat) (v : Vi) : (s.setVi n v).served = s.served := rfl
@[simp] theorem State.setVi_cores (s : State) (n : Nat) (v : Vi) : (s.setVi n v).cores = s.cores := rfl
@[simp] theorem State.setVi_garr (s : State) (n : Nat) (v : Vi) : (s.setVi n v).garr = s.garr := rfl
@[simp] theorem State.setVi_darr (s : State) (n : Nat) (v : Vi) : (s.setVi n v).darr = s.darr := rfl
@[simp] theorem State.setVi_xlat (s : State) (n : Nat) (v : Vi) : (s.setVi n v).xlat = s.xlat := rfl
@[simp] theorem State.setVi_icache (s : State) (n : Nat) (v : Vi) : (s.setVi n v).icache = s.icache := rfl
@[simp] theorem State.setVi_shadows (s : State) (n : Nat) (v : Vi) : (s.setVi n v).shadows = s.shadows := rfl
@[simp] theorem State.setVi_asTab (s : State) (n : Nat) (v : Vi) : (s.setVi n v).asTab = s.asTab := rfl
@[simp] theorem State.setVi_vis (s : State) (n : Nat) (v : Vi) : (s.setVi n v).vis = Tab.put Vi.zero s.vis n v := rfl
@[simp] theorem State.setVi_tqs (s : State) (n : Nat) (v : Vi) : (s.setVi n v).tqs = s.tqs := rfl
@[simp] theorem State.setVi_intrs (s : State) (n : Nat) (v : Vi) : (s.setVi n v).intrs = s.intrs := rfl
@[simp] theorem State.setVi_regions (s : State) (n : Nat) (v : Vi) : (s.setVi n v).regions = s.regions := rfl
@[simp] theorem State.setVi_insts (s : State) (n : Nat) (v : Vi) : (s.setVi n v).insts = s.insts := rfl
@[simp] theorem State.setVi_nodes (s : State) (n : Nat) (v : Vi) : (s.setVi n v).nodes = s.nodes := rfl
@[simp] theorem State.setVi_bars (s : State) (n : Nat) (v : Vi) : (s.setVi n v).bars = s.bars := rfl
@[simp] theorem State.setVi_saved (s : State) (n : Nat) (v : Vi) : (s.setVi n v).saved = s.saved := rfl
@[simp] theorem State.setVi_tw (s : State) (n : Nat) (v : Vi) : (s.setVi n v).tw = s.tw := rfl
@[simp] theorem State.setVi_nonfin (s : State) (n : Nat) (v : Vi) : (s.setVi n v).nonfin = s.nonfin := rfl
@[simp] theorem State.setVi_twerr (s : State) (n : Nat) (v : Vi) : (s.setVi n v).twerr = s.twerr := rfl
@[simp] theorem State.setVi_samps (s : State) (n : Nat) (v : Vi) : (s.setVi n v).samps = s.samps := rfl
@[simp] theorem State.setVi_rsts (s : State) (n : Nat) (v : Vi) : (s.setVi n v).rsts = s.rsts := rfl
@[simp] theorem State.setVi_downDies (s : State) (n : Nat) (v : Vi) : (s.setVi n v).downDies = s.downDies := rfl
@[simp] theorem State.setVi_links (s : State) (n : Nat) (v : Vi) : (s.setVi n v).links = s.links := rfl
@[simp] theorem State.setVi_fabOrd (s : State) (n : Nat) (v : Vi) : (s.setVi n v).fabOrd = s.fabOrd := rfl
@[simp] theorem State.setVi_tcm (s : State) (n : Nat) (v : Vi) : (s.setVi n v).tcm = s.tcm := rfl
@[simp] theorem State.setVi_msix (s : State) (n : Nat) (v : Vi) : (s.setVi n v).msix = s.msix := rfl
@[simp] theorem State.setVi_pkg (s : State) (n : Nat) (v : Vi) : (s.setVi n v).pkg = s.pkg := rfl
@[simp] theorem State.setVi_replies (s : State) (n : Nat) (v : Vi) : (s.setVi n v).replies = s.replies := rfl
@[simp] theorem State.setVi_nextId (s : State) (n : Nat) (v : Vi) : (s.setVi n v).nextId = s.nextId := rfl

/-! State.setVault -/

@[simp] theorem State.setVault_cx (s : State) (n : Nat) (v : Vault) : (s.setVault n v).cx = s.cx := rfl
@[simp] theorem State.setVault_parked (s : State) (n : Nat) (v : Vault) : (s.setVault n v).parked = s.parked := rfl
@[simp] theorem State.setVault_cur (s : State) (n : Nat) (v : Vault) : (s.setVault n v).cur = s.cur := rfl
@[simp] theorem State.setVault_sub (s : State) (n : Nat) (v : Vault) : (s.setVault n v).sub = s.sub := rfl
@[simp] theorem State.setVault_blk (s : State) (n : Nat) (v : Vault) : (s.setVault n v).blk = s.blk := rfl
@[simp] theorem State.setVault_agenda (s : State) (n : Nat) (v : Vault) : (s.setVault n v).agenda = s.agenda := rfl
@[simp] theorem State.setVault_phase (s : State) (n : Nat) (v : Vault) : (s.setVault n v).phase = s.phase := rfl
@[simp] theorem State.setVault_round (s : State) (n : Nat) (v : Vault) : (s.setVault n v).round = s.round := rfl
@[simp] theorem State.setVault_fresh (s : State) (n : Nat) (v : Vault) : (s.setVault n v).fresh = s.fresh := rfl
@[simp] theorem State.setVault_cycle (s : State) (n : Nat) (v : Vault) : (s.setVault n v).cycle = s.cycle := rfl
@[simp] theorem State.setVault_mem (s : State) (n : Nat) (v : Vault) : (s.setVault n v).mem = s.mem := rfl
@[simp] theorem State.setVault_bad (s : State) (n : Nat) (v : Vault) : (s.setVault n v).bad = s.bad := rfl
@[simp] theorem State.setVault_soft (s : State) (n : Nat) (v : Vault) : (s.setVault n v).soft = s.soft := rfl
@[simp] theorem State.setVault_sealed (s : State) (n : Nat) (v : Vault) : (s.setVault n v).sealed = s.sealed := rfl
@[simp] theorem State.setVault_wc (s : State) (n : Nat) (v : Vault) : (s.setVault n v).wc = s.wc := rfl
@[simp] theorem State.setVault_red (s : State) (n : Nat) (v : Vault) : (s.setVault n v).red = s.red := rfl
@[simp] theorem State.setVault_redWait (s : State) (n : Nat) (v : Vault) : (s.setVault n v).redWait = s.redWait := rfl
@[simp] theorem State.setVault_kvq (s : State) (n : Nat) (v : Vault) : (s.setVault n v).kvq = s.kvq := rfl
@[simp] theorem State.setVault_vaults (s : State) (n : Nat) (v : Vault) : (s.setVault n v).vaults = Tab.put Vault.zero s.vaults n v := rfl
@[simp] theorem State.setVault_fmt (s : State) (n : Nat) (v : Vault) : (s.setVault n v).fmt = s.fmt := rfl
@[simp] theorem State.setVault_swz (s : State) (n : Nat) (v : Vault) : (s.setVault n v).swz = s.swz := rfl
@[simp] theorem State.setVault_served (s : State) (n : Nat) (v : Vault) : (s.setVault n v).served = s.served := rfl
@[simp] theorem State.setVault_cores (s : State) (n : Nat) (v : Vault) : (s.setVault n v).cores = s.cores := rfl
@[simp] theorem State.setVault_garr (s : State) (n : Nat) (v : Vault) : (s.setVault n v).garr = s.garr := rfl
@[simp] theorem State.setVault_darr (s : State) (n : Nat) (v : Vault) : (s.setVault n v).darr = s.darr := rfl
@[simp] theorem State.setVault_xlat (s : State) (n : Nat) (v : Vault) : (s.setVault n v).xlat = s.xlat := rfl
@[simp] theorem State.setVault_icache (s : State) (n : Nat) (v : Vault) : (s.setVault n v).icache = s.icache := rfl
@[simp] theorem State.setVault_shadows (s : State) (n : Nat) (v : Vault) : (s.setVault n v).shadows = s.shadows := rfl
@[simp] theorem State.setVault_asTab (s : State) (n : Nat) (v : Vault) : (s.setVault n v).asTab = s.asTab := rfl
@[simp] theorem State.setVault_vis (s : State) (n : Nat) (v : Vault) : (s.setVault n v).vis = s.vis := rfl
@[simp] theorem State.setVault_tqs (s : State) (n : Nat) (v : Vault) : (s.setVault n v).tqs = s.tqs := rfl
@[simp] theorem State.setVault_intrs (s : State) (n : Nat) (v : Vault) : (s.setVault n v).intrs = s.intrs := rfl
@[simp] theorem State.setVault_regions (s : State) (n : Nat) (v : Vault) : (s.setVault n v).regions = s.regions := rfl
@[simp] theorem State.setVault_insts (s : State) (n : Nat) (v : Vault) : (s.setVault n v).insts = s.insts := rfl
@[simp] theorem State.setVault_nodes (s : State) (n : Nat) (v : Vault) : (s.setVault n v).nodes = s.nodes := rfl
@[simp] theorem State.setVault_bars (s : State) (n : Nat) (v : Vault) : (s.setVault n v).bars = s.bars := rfl
@[simp] theorem State.setVault_saved (s : State) (n : Nat) (v : Vault) : (s.setVault n v).saved = s.saved := rfl
@[simp] theorem State.setVault_tw (s : State) (n : Nat) (v : Vault) : (s.setVault n v).tw = s.tw := rfl
@[simp] theorem State.setVault_nonfin (s : State) (n : Nat) (v : Vault) : (s.setVault n v).nonfin = s.nonfin := rfl
@[simp] theorem State.setVault_twerr (s : State) (n : Nat) (v : Vault) : (s.setVault n v).twerr = s.twerr := rfl
@[simp] theorem State.setVault_samps (s : State) (n : Nat) (v : Vault) : (s.setVault n v).samps = s.samps := rfl
@[simp] theorem State.setVault_rsts (s : State) (n : Nat) (v : Vault) : (s.setVault n v).rsts = s.rsts := rfl
@[simp] theorem State.setVault_downDies (s : State) (n : Nat) (v : Vault) : (s.setVault n v).downDies = s.downDies := rfl
@[simp] theorem State.setVault_links (s : State) (n : Nat) (v : Vault) : (s.setVault n v).links = s.links := rfl
@[simp] theorem State.setVault_fabOrd (s : State) (n : Nat) (v : Vault) : (s.setVault n v).fabOrd = s.fabOrd := rfl
@[simp] theorem State.setVault_tcm (s : State) (n : Nat) (v : Vault) : (s.setVault n v).tcm = s.tcm := rfl
@[simp] theorem State.setVault_msix (s : State) (n : Nat) (v : Vault) : (s.setVault n v).msix = s.msix := rfl
@[simp] theorem State.setVault_pkg (s : State) (n : Nat) (v : Vault) : (s.setVault n v).pkg = s.pkg := rfl
@[simp] theorem State.setVault_replies (s : State) (n : Nat) (v : Vault) : (s.setVault n v).replies = s.replies := rfl
@[simp] theorem State.setVault_nextId (s : State) (n : Nat) (v : Vault) : (s.setVault n v).nextId = s.nextId := rfl

/-! State.setCore -/

@[simp] theorem State.setCore_cx (s : State) (n : Nat) (v : CoreSt) : (s.setCore n v).cx = s.cx := rfl
@[simp] theorem State.setCore_parked (s : State) (n : Nat) (v : CoreSt) : (s.setCore n v).parked = s.parked := rfl
@[simp] theorem State.setCore_cur (s : State) (n : Nat) (v : CoreSt) : (s.setCore n v).cur = s.cur := rfl
@[simp] theorem State.setCore_sub (s : State) (n : Nat) (v : CoreSt) : (s.setCore n v).sub = s.sub := rfl
@[simp] theorem State.setCore_blk (s : State) (n : Nat) (v : CoreSt) : (s.setCore n v).blk = s.blk := rfl
@[simp] theorem State.setCore_agenda (s : State) (n : Nat) (v : CoreSt) : (s.setCore n v).agenda = s.agenda := rfl
@[simp] theorem State.setCore_phase (s : State) (n : Nat) (v : CoreSt) : (s.setCore n v).phase = s.phase := rfl
@[simp] theorem State.setCore_round (s : State) (n : Nat) (v : CoreSt) : (s.setCore n v).round = s.round := rfl
@[simp] theorem State.setCore_fresh (s : State) (n : Nat) (v : CoreSt) : (s.setCore n v).fresh = s.fresh := rfl
@[simp] theorem State.setCore_cycle (s : State) (n : Nat) (v : CoreSt) : (s.setCore n v).cycle = s.cycle := rfl
@[simp] theorem State.setCore_mem (s : State) (n : Nat) (v : CoreSt) : (s.setCore n v).mem = s.mem := rfl
@[simp] theorem State.setCore_bad (s : State) (n : Nat) (v : CoreSt) : (s.setCore n v).bad = s.bad := rfl
@[simp] theorem State.setCore_soft (s : State) (n : Nat) (v : CoreSt) : (s.setCore n v).soft = s.soft := rfl
@[simp] theorem State.setCore_sealed (s : State) (n : Nat) (v : CoreSt) : (s.setCore n v).sealed = s.sealed := rfl
@[simp] theorem State.setCore_wc (s : State) (n : Nat) (v : CoreSt) : (s.setCore n v).wc = s.wc := rfl
@[simp] theorem State.setCore_red (s : State) (n : Nat) (v : CoreSt) : (s.setCore n v).red = s.red := rfl
@[simp] theorem State.setCore_redWait (s : State) (n : Nat) (v : CoreSt) : (s.setCore n v).redWait = s.redWait := rfl
@[simp] theorem State.setCore_kvq (s : State) (n : Nat) (v : CoreSt) : (s.setCore n v).kvq = s.kvq := rfl
@[simp] theorem State.setCore_vaults (s : State) (n : Nat) (v : CoreSt) : (s.setCore n v).vaults = s.vaults := rfl
@[simp] theorem State.setCore_fmt (s : State) (n : Nat) (v : CoreSt) : (s.setCore n v).fmt = s.fmt := rfl
@[simp] theorem State.setCore_swz (s : State) (n : Nat) (v : CoreSt) : (s.setCore n v).swz = s.swz := rfl
@[simp] theorem State.setCore_served (s : State) (n : Nat) (v : CoreSt) : (s.setCore n v).served = s.served := rfl
@[simp] theorem State.setCore_cores (s : State) (n : Nat) (v : CoreSt) : (s.setCore n v).cores = Tab.put CoreSt.zero s.cores n v := rfl
@[simp] theorem State.setCore_garr (s : State) (n : Nat) (v : CoreSt) : (s.setCore n v).garr = s.garr := rfl
@[simp] theorem State.setCore_darr (s : State) (n : Nat) (v : CoreSt) : (s.setCore n v).darr = s.darr := rfl
@[simp] theorem State.setCore_xlat (s : State) (n : Nat) (v : CoreSt) : (s.setCore n v).xlat = s.xlat := rfl
@[simp] theorem State.setCore_icache (s : State) (n : Nat) (v : CoreSt) : (s.setCore n v).icache = s.icache := rfl
@[simp] theorem State.setCore_shadows (s : State) (n : Nat) (v : CoreSt) : (s.setCore n v).shadows = s.shadows := rfl
@[simp] theorem State.setCore_asTab (s : State) (n : Nat) (v : CoreSt) : (s.setCore n v).asTab = s.asTab := rfl
@[simp] theorem State.setCore_vis (s : State) (n : Nat) (v : CoreSt) : (s.setCore n v).vis = s.vis := rfl
@[simp] theorem State.setCore_tqs (s : State) (n : Nat) (v : CoreSt) : (s.setCore n v).tqs = s.tqs := rfl
@[simp] theorem State.setCore_intrs (s : State) (n : Nat) (v : CoreSt) : (s.setCore n v).intrs = s.intrs := rfl
@[simp] theorem State.setCore_regions (s : State) (n : Nat) (v : CoreSt) : (s.setCore n v).regions = s.regions := rfl
@[simp] theorem State.setCore_insts (s : State) (n : Nat) (v : CoreSt) : (s.setCore n v).insts = s.insts := rfl
@[simp] theorem State.setCore_nodes (s : State) (n : Nat) (v : CoreSt) : (s.setCore n v).nodes = s.nodes := rfl
@[simp] theorem State.setCore_bars (s : State) (n : Nat) (v : CoreSt) : (s.setCore n v).bars = s.bars := rfl
@[simp] theorem State.setCore_saved (s : State) (n : Nat) (v : CoreSt) : (s.setCore n v).saved = s.saved := rfl
@[simp] theorem State.setCore_tw (s : State) (n : Nat) (v : CoreSt) : (s.setCore n v).tw = s.tw := rfl
@[simp] theorem State.setCore_nonfin (s : State) (n : Nat) (v : CoreSt) : (s.setCore n v).nonfin = s.nonfin := rfl
@[simp] theorem State.setCore_twerr (s : State) (n : Nat) (v : CoreSt) : (s.setCore n v).twerr = s.twerr := rfl
@[simp] theorem State.setCore_samps (s : State) (n : Nat) (v : CoreSt) : (s.setCore n v).samps = s.samps := rfl
@[simp] theorem State.setCore_rsts (s : State) (n : Nat) (v : CoreSt) : (s.setCore n v).rsts = s.rsts := rfl
@[simp] theorem State.setCore_downDies (s : State) (n : Nat) (v : CoreSt) : (s.setCore n v).downDies = s.downDies := rfl
@[simp] theorem State.setCore_links (s : State) (n : Nat) (v : CoreSt) : (s.setCore n v).links = s.links := rfl
@[simp] theorem State.setCore_fabOrd (s : State) (n : Nat) (v : CoreSt) : (s.setCore n v).fabOrd = s.fabOrd := rfl
@[simp] theorem State.setCore_tcm (s : State) (n : Nat) (v : CoreSt) : (s.setCore n v).tcm = s.tcm := rfl
@[simp] theorem State.setCore_msix (s : State) (n : Nat) (v : CoreSt) : (s.setCore n v).msix = s.msix := rfl
@[simp] theorem State.setCore_pkg (s : State) (n : Nat) (v : CoreSt) : (s.setCore n v).pkg = s.pkg := rfl
@[simp] theorem State.setCore_replies (s : State) (n : Nat) (v : CoreSt) : (s.setCore n v).replies = s.replies := rfl
@[simp] theorem State.setCore_nextId (s : State) (n : Nat) (v : CoreSt) : (s.setCore n v).nextId = s.nextId := rfl

/-! State.setGreat -/

@[simp] theorem State.setGreat_cx (s : State) (n : Nat) (v : GArray) : (s.setGreat n v).cx = s.cx := rfl
@[simp] theorem State.setGreat_parked (s : State) (n : Nat) (v : GArray) : (s.setGreat n v).parked = s.parked := rfl
@[simp] theorem State.setGreat_cur (s : State) (n : Nat) (v : GArray) : (s.setGreat n v).cur = s.cur := rfl
@[simp] theorem State.setGreat_sub (s : State) (n : Nat) (v : GArray) : (s.setGreat n v).sub = s.sub := rfl
@[simp] theorem State.setGreat_blk (s : State) (n : Nat) (v : GArray) : (s.setGreat n v).blk = s.blk := rfl
@[simp] theorem State.setGreat_agenda (s : State) (n : Nat) (v : GArray) : (s.setGreat n v).agenda = s.agenda := rfl
@[simp] theorem State.setGreat_phase (s : State) (n : Nat) (v : GArray) : (s.setGreat n v).phase = s.phase := rfl
@[simp] theorem State.setGreat_round (s : State) (n : Nat) (v : GArray) : (s.setGreat n v).round = s.round := rfl
@[simp] theorem State.setGreat_fresh (s : State) (n : Nat) (v : GArray) : (s.setGreat n v).fresh = s.fresh := rfl
@[simp] theorem State.setGreat_cycle (s : State) (n : Nat) (v : GArray) : (s.setGreat n v).cycle = s.cycle := rfl
@[simp] theorem State.setGreat_mem (s : State) (n : Nat) (v : GArray) : (s.setGreat n v).mem = s.mem := rfl
@[simp] theorem State.setGreat_bad (s : State) (n : Nat) (v : GArray) : (s.setGreat n v).bad = s.bad := rfl
@[simp] theorem State.setGreat_soft (s : State) (n : Nat) (v : GArray) : (s.setGreat n v).soft = s.soft := rfl
@[simp] theorem State.setGreat_sealed (s : State) (n : Nat) (v : GArray) : (s.setGreat n v).sealed = s.sealed := rfl
@[simp] theorem State.setGreat_wc (s : State) (n : Nat) (v : GArray) : (s.setGreat n v).wc = s.wc := rfl
@[simp] theorem State.setGreat_red (s : State) (n : Nat) (v : GArray) : (s.setGreat n v).red = s.red := rfl
@[simp] theorem State.setGreat_redWait (s : State) (n : Nat) (v : GArray) : (s.setGreat n v).redWait = s.redWait := rfl
@[simp] theorem State.setGreat_kvq (s : State) (n : Nat) (v : GArray) : (s.setGreat n v).kvq = s.kvq := rfl
@[simp] theorem State.setGreat_vaults (s : State) (n : Nat) (v : GArray) : (s.setGreat n v).vaults = s.vaults := rfl
@[simp] theorem State.setGreat_fmt (s : State) (n : Nat) (v : GArray) : (s.setGreat n v).fmt = s.fmt := rfl
@[simp] theorem State.setGreat_swz (s : State) (n : Nat) (v : GArray) : (s.setGreat n v).swz = s.swz := rfl
@[simp] theorem State.setGreat_served (s : State) (n : Nat) (v : GArray) : (s.setGreat n v).served = s.served := rfl
@[simp] theorem State.setGreat_cores (s : State) (n : Nat) (v : GArray) : (s.setGreat n v).cores = s.cores := rfl
@[simp] theorem State.setGreat_garr (s : State) (n : Nat) (v : GArray) : (s.setGreat n v).garr = Tab.put GArray.zero s.garr n v := rfl
@[simp] theorem State.setGreat_darr (s : State) (n : Nat) (v : GArray) : (s.setGreat n v).darr = s.darr := rfl
@[simp] theorem State.setGreat_xlat (s : State) (n : Nat) (v : GArray) : (s.setGreat n v).xlat = s.xlat := rfl
@[simp] theorem State.setGreat_icache (s : State) (n : Nat) (v : GArray) : (s.setGreat n v).icache = s.icache := rfl
@[simp] theorem State.setGreat_shadows (s : State) (n : Nat) (v : GArray) : (s.setGreat n v).shadows = s.shadows := rfl
@[simp] theorem State.setGreat_asTab (s : State) (n : Nat) (v : GArray) : (s.setGreat n v).asTab = s.asTab := rfl
@[simp] theorem State.setGreat_vis (s : State) (n : Nat) (v : GArray) : (s.setGreat n v).vis = s.vis := rfl
@[simp] theorem State.setGreat_tqs (s : State) (n : Nat) (v : GArray) : (s.setGreat n v).tqs = s.tqs := rfl
@[simp] theorem State.setGreat_intrs (s : State) (n : Nat) (v : GArray) : (s.setGreat n v).intrs = s.intrs := rfl
@[simp] theorem State.setGreat_regions (s : State) (n : Nat) (v : GArray) : (s.setGreat n v).regions = s.regions := rfl
@[simp] theorem State.setGreat_insts (s : State) (n : Nat) (v : GArray) : (s.setGreat n v).insts = s.insts := rfl
@[simp] theorem State.setGreat_nodes (s : State) (n : Nat) (v : GArray) : (s.setGreat n v).nodes = s.nodes := rfl
@[simp] theorem State.setGreat_bars (s : State) (n : Nat) (v : GArray) : (s.setGreat n v).bars = s.bars := rfl
@[simp] theorem State.setGreat_saved (s : State) (n : Nat) (v : GArray) : (s.setGreat n v).saved = s.saved := rfl
@[simp] theorem State.setGreat_tw (s : State) (n : Nat) (v : GArray) : (s.setGreat n v).tw = s.tw := rfl
@[simp] theorem State.setGreat_nonfin (s : State) (n : Nat) (v : GArray) : (s.setGreat n v).nonfin = s.nonfin := rfl
@[simp] theorem State.setGreat_twerr (s : State) (n : Nat) (v : GArray) : (s.setGreat n v).twerr = s.twerr := rfl
@[simp] theorem State.setGreat_samps (s : State) (n : Nat) (v : GArray) : (s.setGreat n v).samps = s.samps := rfl
@[simp] theorem State.setGreat_rsts (s : State) (n : Nat) (v : GArray) : (s.setGreat n v).rsts = s.rsts := rfl
@[simp] theorem State.setGreat_downDies (s : State) (n : Nat) (v : GArray) : (s.setGreat n v).downDies = s.downDies := rfl
@[simp] theorem State.setGreat_links (s : State) (n : Nat) (v : GArray) : (s.setGreat n v).links = s.links := rfl
@[simp] theorem State.setGreat_fabOrd (s : State) (n : Nat) (v : GArray) : (s.setGreat n v).fabOrd = s.fabOrd := rfl
@[simp] theorem State.setGreat_tcm (s : State) (n : Nat) (v : GArray) : (s.setGreat n v).tcm = s.tcm := rfl
@[simp] theorem State.setGreat_msix (s : State) (n : Nat) (v : GArray) : (s.setGreat n v).msix = s.msix := rfl
@[simp] theorem State.setGreat_pkg (s : State) (n : Nat) (v : GArray) : (s.setGreat n v).pkg = s.pkg := rfl
@[simp] theorem State.setGreat_replies (s : State) (n : Nat) (v : GArray) : (s.setGreat n v).replies = s.replies := rfl
@[simp] theorem State.setGreat_nextId (s : State) (n : Nat) (v : GArray) : (s.setGreat n v).nextId = s.nextId := rfl

/-! State.setDecArr -/

@[simp] theorem State.setDecArr_cx (s : State) (n : Nat) (v : Vector MSlot 4) : (s.setDecArr n v).cx = s.cx := rfl
@[simp] theorem State.setDecArr_parked (s : State) (n : Nat) (v : Vector MSlot 4) : (s.setDecArr n v).parked = s.parked := rfl
@[simp] theorem State.setDecArr_cur (s : State) (n : Nat) (v : Vector MSlot 4) : (s.setDecArr n v).cur = s.cur := rfl
@[simp] theorem State.setDecArr_sub (s : State) (n : Nat) (v : Vector MSlot 4) : (s.setDecArr n v).sub = s.sub := rfl
@[simp] theorem State.setDecArr_blk (s : State) (n : Nat) (v : Vector MSlot 4) : (s.setDecArr n v).blk = s.blk := rfl
@[simp] theorem State.setDecArr_agenda (s : State) (n : Nat) (v : Vector MSlot 4) : (s.setDecArr n v).agenda = s.agenda := rfl
@[simp] theorem State.setDecArr_phase (s : State) (n : Nat) (v : Vector MSlot 4) : (s.setDecArr n v).phase = s.phase := rfl
@[simp] theorem State.setDecArr_round (s : State) (n : Nat) (v : Vector MSlot 4) : (s.setDecArr n v).round = s.round := rfl
@[simp] theorem State.setDecArr_fresh (s : State) (n : Nat) (v : Vector MSlot 4) : (s.setDecArr n v).fresh = s.fresh := rfl
@[simp] theorem State.setDecArr_cycle (s : State) (n : Nat) (v : Vector MSlot 4) : (s.setDecArr n v).cycle = s.cycle := rfl
@[simp] theorem State.setDecArr_mem (s : State) (n : Nat) (v : Vector MSlot 4) : (s.setDecArr n v).mem = s.mem := rfl
@[simp] theorem State.setDecArr_bad (s : State) (n : Nat) (v : Vector MSlot 4) : (s.setDecArr n v).bad = s.bad := rfl
@[simp] theorem State.setDecArr_soft (s : State) (n : Nat) (v : Vector MSlot 4) : (s.setDecArr n v).soft = s.soft := rfl
@[simp] theorem State.setDecArr_sealed (s : State) (n : Nat) (v : Vector MSlot 4) : (s.setDecArr n v).sealed = s.sealed := rfl
@[simp] theorem State.setDecArr_wc (s : State) (n : Nat) (v : Vector MSlot 4) : (s.setDecArr n v).wc = s.wc := rfl
@[simp] theorem State.setDecArr_red (s : State) (n : Nat) (v : Vector MSlot 4) : (s.setDecArr n v).red = s.red := rfl
@[simp] theorem State.setDecArr_redWait (s : State) (n : Nat) (v : Vector MSlot 4) : (s.setDecArr n v).redWait = s.redWait := rfl
@[simp] theorem State.setDecArr_kvq (s : State) (n : Nat) (v : Vector MSlot 4) : (s.setDecArr n v).kvq = s.kvq := rfl
@[simp] theorem State.setDecArr_vaults (s : State) (n : Nat) (v : Vector MSlot 4) : (s.setDecArr n v).vaults = s.vaults := rfl
@[simp] theorem State.setDecArr_fmt (s : State) (n : Nat) (v : Vector MSlot 4) : (s.setDecArr n v).fmt = s.fmt := rfl
@[simp] theorem State.setDecArr_swz (s : State) (n : Nat) (v : Vector MSlot 4) : (s.setDecArr n v).swz = s.swz := rfl
@[simp] theorem State.setDecArr_served (s : State) (n : Nat) (v : Vector MSlot 4) : (s.setDecArr n v).served = s.served := rfl
@[simp] theorem State.setDecArr_cores (s : State) (n : Nat) (v : Vector MSlot 4) : (s.setDecArr n v).cores = s.cores := rfl
@[simp] theorem State.setDecArr_garr (s : State) (n : Nat) (v : Vector MSlot 4) : (s.setDecArr n v).garr = s.garr := rfl
@[simp] theorem State.setDecArr_darr (s : State) (n : Nat) (v : Vector MSlot 4) : (s.setDecArr n v).darr = Tab.put DArray.zero s.darr n v := rfl
@[simp] theorem State.setDecArr_xlat (s : State) (n : Nat) (v : Vector MSlot 4) : (s.setDecArr n v).xlat = s.xlat := rfl
@[simp] theorem State.setDecArr_icache (s : State) (n : Nat) (v : Vector MSlot 4) : (s.setDecArr n v).icache = s.icache := rfl
@[simp] theorem State.setDecArr_shadows (s : State) (n : Nat) (v : Vector MSlot 4) : (s.setDecArr n v).shadows = s.shadows := rfl
@[simp] theorem State.setDecArr_asTab (s : State) (n : Nat) (v : Vector MSlot 4) : (s.setDecArr n v).asTab = s.asTab := rfl
@[simp] theorem State.setDecArr_vis (s : State) (n : Nat) (v : Vector MSlot 4) : (s.setDecArr n v).vis = s.vis := rfl
@[simp] theorem State.setDecArr_tqs (s : State) (n : Nat) (v : Vector MSlot 4) : (s.setDecArr n v).tqs = s.tqs := rfl
@[simp] theorem State.setDecArr_intrs (s : State) (n : Nat) (v : Vector MSlot 4) : (s.setDecArr n v).intrs = s.intrs := rfl
@[simp] theorem State.setDecArr_regions (s : State) (n : Nat) (v : Vector MSlot 4) : (s.setDecArr n v).regions = s.regions := rfl
@[simp] theorem State.setDecArr_insts (s : State) (n : Nat) (v : Vector MSlot 4) : (s.setDecArr n v).insts = s.insts := rfl
@[simp] theorem State.setDecArr_nodes (s : State) (n : Nat) (v : Vector MSlot 4) : (s.setDecArr n v).nodes = s.nodes := rfl
@[simp] theorem State.setDecArr_bars (s : State) (n : Nat) (v : Vector MSlot 4) : (s.setDecArr n v).bars = s.bars := rfl
@[simp] theorem State.setDecArr_saved (s : State) (n : Nat) (v : Vector MSlot 4) : (s.setDecArr n v).saved = s.saved := rfl
@[simp] theorem State.setDecArr_tw (s : State) (n : Nat) (v : Vector MSlot 4) : (s.setDecArr n v).tw = s.tw := rfl
@[simp] theorem State.setDecArr_nonfin (s : State) (n : Nat) (v : Vector MSlot 4) : (s.setDecArr n v).nonfin = s.nonfin := rfl
@[simp] theorem State.setDecArr_twerr (s : State) (n : Nat) (v : Vector MSlot 4) : (s.setDecArr n v).twerr = s.twerr := rfl
@[simp] theorem State.setDecArr_samps (s : State) (n : Nat) (v : Vector MSlot 4) : (s.setDecArr n v).samps = s.samps := rfl
@[simp] theorem State.setDecArr_rsts (s : State) (n : Nat) (v : Vector MSlot 4) : (s.setDecArr n v).rsts = s.rsts := rfl
@[simp] theorem State.setDecArr_downDies (s : State) (n : Nat) (v : Vector MSlot 4) : (s.setDecArr n v).downDies = s.downDies := rfl
@[simp] theorem State.setDecArr_links (s : State) (n : Nat) (v : Vector MSlot 4) : (s.setDecArr n v).links = s.links := rfl
@[simp] theorem State.setDecArr_fabOrd (s : State) (n : Nat) (v : Vector MSlot 4) : (s.setDecArr n v).fabOrd = s.fabOrd := rfl
@[simp] theorem State.setDecArr_tcm (s : State) (n : Nat) (v : Vector MSlot 4) : (s.setDecArr n v).tcm = s.tcm := rfl
@[simp] theorem State.setDecArr_msix (s : State) (n : Nat) (v : Vector MSlot 4) : (s.setDecArr n v).msix = s.msix := rfl
@[simp] theorem State.setDecArr_pkg (s : State) (n : Nat) (v : Vector MSlot 4) : (s.setDecArr n v).pkg = s.pkg := rfl
@[simp] theorem State.setDecArr_replies (s : State) (n : Nat) (v : Vector MSlot 4) : (s.setDecArr n v).replies = s.replies := rfl
@[simp] theorem State.setDecArr_nextId (s : State) (n : Nat) (v : Vector MSlot 4) : (s.setDecArr n v).nextId = s.nextId := rfl

/-! State.post -/

@[simp] theorem State.post_cx (s : State) (h : Bool) (vi vec : Nat) : (s.post h vi vec).cx = s.cx := rfl
@[simp] theorem State.post_parked (s : State) (h : Bool) (vi vec : Nat) : (s.post h vi vec).parked = s.parked := rfl
@[simp] theorem State.post_cur (s : State) (h : Bool) (vi vec : Nat) : (s.post h vi vec).cur = s.cur := rfl
@[simp] theorem State.post_sub (s : State) (h : Bool) (vi vec : Nat) : (s.post h vi vec).sub = s.sub := rfl
@[simp] theorem State.post_blk (s : State) (h : Bool) (vi vec : Nat) : (s.post h vi vec).blk = s.blk := rfl
@[simp] theorem State.post_agenda (s : State) (h : Bool) (vi vec : Nat) : (s.post h vi vec).agenda = s.agenda := rfl
@[simp] theorem State.post_phase (s : State) (h : Bool) (vi vec : Nat) : (s.post h vi vec).phase = s.phase := rfl
@[simp] theorem State.post_round (s : State) (h : Bool) (vi vec : Nat) : (s.post h vi vec).round = s.round := rfl
@[simp] theorem State.post_fresh (s : State) (h : Bool) (vi vec : Nat) : (s.post h vi vec).fresh = s.fresh := rfl
@[simp] theorem State.post_cycle (s : State) (h : Bool) (vi vec : Nat) : (s.post h vi vec).cycle = s.cycle := rfl
@[simp] theorem State.post_mem (s : State) (h : Bool) (vi vec : Nat) : (s.post h vi vec).mem = s.mem := rfl
@[simp] theorem State.post_bad (s : State) (h : Bool) (vi vec : Nat) : (s.post h vi vec).bad = s.bad := rfl
@[simp] theorem State.post_soft (s : State) (h : Bool) (vi vec : Nat) : (s.post h vi vec).soft = s.soft := rfl
@[simp] theorem State.post_sealed (s : State) (h : Bool) (vi vec : Nat) : (s.post h vi vec).sealed = s.sealed := rfl
@[simp] theorem State.post_wc (s : State) (h : Bool) (vi vec : Nat) : (s.post h vi vec).wc = s.wc := rfl
@[simp] theorem State.post_red (s : State) (h : Bool) (vi vec : Nat) : (s.post h vi vec).red = s.red := rfl
@[simp] theorem State.post_redWait (s : State) (h : Bool) (vi vec : Nat) : (s.post h vi vec).redWait = s.redWait := rfl
@[simp] theorem State.post_kvq (s : State) (h : Bool) (vi vec : Nat) : (s.post h vi vec).kvq = s.kvq := rfl
@[simp] theorem State.post_vaults (s : State) (h : Bool) (vi vec : Nat) : (s.post h vi vec).vaults = s.vaults := rfl
@[simp] theorem State.post_fmt (s : State) (h : Bool) (vi vec : Nat) : (s.post h vi vec).fmt = s.fmt := rfl
@[simp] theorem State.post_swz (s : State) (h : Bool) (vi vec : Nat) : (s.post h vi vec).swz = s.swz := rfl
@[simp] theorem State.post_served (s : State) (h : Bool) (vi vec : Nat) : (s.post h vi vec).served = s.served := rfl
@[simp] theorem State.post_cores (s : State) (h : Bool) (vi vec : Nat) : (s.post h vi vec).cores = s.cores := rfl
@[simp] theorem State.post_garr (s : State) (h : Bool) (vi vec : Nat) : (s.post h vi vec).garr = s.garr := rfl
@[simp] theorem State.post_darr (s : State) (h : Bool) (vi vec : Nat) : (s.post h vi vec).darr = s.darr := rfl
@[simp] theorem State.post_xlat (s : State) (h : Bool) (vi vec : Nat) : (s.post h vi vec).xlat = s.xlat := rfl
@[simp] theorem State.post_icache (s : State) (h : Bool) (vi vec : Nat) : (s.post h vi vec).icache = s.icache := rfl
@[simp] theorem State.post_shadows (s : State) (h : Bool) (vi vec : Nat) : (s.post h vi vec).shadows = s.shadows := rfl
@[simp] theorem State.post_asTab (s : State) (h : Bool) (vi vec : Nat) : (s.post h vi vec).asTab = s.asTab := rfl
@[simp] theorem State.post_vis (s : State) (h : Bool) (vi vec : Nat) : (s.post h vi vec).vis = s.vis := rfl
@[simp] theorem State.post_tqs (s : State) (h : Bool) (vi vec : Nat) : (s.post h vi vec).tqs = s.tqs := rfl
@[simp] theorem State.post_intrs (s : State) (h : Bool) (vi vec : Nat) : (s.post h vi vec).intrs = s.intrs ++ [⟨h, vi, vec⟩] := rfl
@[simp] theorem State.post_regions (s : State) (h : Bool) (vi vec : Nat) : (s.post h vi vec).regions = s.regions := rfl
@[simp] theorem State.post_insts (s : State) (h : Bool) (vi vec : Nat) : (s.post h vi vec).insts = s.insts := rfl
@[simp] theorem State.post_nodes (s : State) (h : Bool) (vi vec : Nat) : (s.post h vi vec).nodes = s.nodes := rfl
@[simp] theorem State.post_bars (s : State) (h : Bool) (vi vec : Nat) : (s.post h vi vec).bars = s.bars := rfl
@[simp] theorem State.post_saved (s : State) (h : Bool) (vi vec : Nat) : (s.post h vi vec).saved = s.saved := rfl
@[simp] theorem State.post_tw (s : State) (h : Bool) (vi vec : Nat) : (s.post h vi vec).tw = s.tw := rfl
@[simp] theorem State.post_nonfin (s : State) (h : Bool) (vi vec : Nat) : (s.post h vi vec).nonfin = s.nonfin := rfl
@[simp] theorem State.post_twerr (s : State) (h : Bool) (vi vec : Nat) : (s.post h vi vec).twerr = s.twerr := rfl
@[simp] theorem State.post_samps (s : State) (h : Bool) (vi vec : Nat) : (s.post h vi vec).samps = s.samps := rfl
@[simp] theorem State.post_rsts (s : State) (h : Bool) (vi vec : Nat) : (s.post h vi vec).rsts = s.rsts := rfl
@[simp] theorem State.post_downDies (s : State) (h : Bool) (vi vec : Nat) : (s.post h vi vec).downDies = s.downDies := rfl
@[simp] theorem State.post_links (s : State) (h : Bool) (vi vec : Nat) : (s.post h vi vec).links = s.links := rfl
@[simp] theorem State.post_fabOrd (s : State) (h : Bool) (vi vec : Nat) : (s.post h vi vec).fabOrd = s.fabOrd := rfl
@[simp] theorem State.post_tcm (s : State) (h : Bool) (vi vec : Nat) : (s.post h vi vec).tcm = s.tcm := rfl
@[simp] theorem State.post_msix (s : State) (h : Bool) (vi vec : Nat) : (s.post h vi vec).msix = if h then Tab.put 0 s.msix (msixEntry vi vec) (Tab.get 0 s.msix (msixEntry vi vec) + 1) else s.msix := rfl
@[simp] theorem State.post_pkg (s : State) (h : Bool) (vi vec : Nat) : (s.post h vi vec).pkg = s.pkg := rfl
@[simp] theorem State.post_replies (s : State) (h : Bool) (vi vec : Nat) : (s.post h vi vec).replies = s.replies := rfl
@[simp] theorem State.post_nextId (s : State) (h : Bool) (vi vec : Nat) : (s.post h vi vec).nextId = s.nextId := rfl

/-! launch -/

@[simp] theorem launch_cx (s : State) (fs : List InFlight) : (launch s fs).cx = { s.cx with inflight := s.cx.inflight ++ fs } := rfl
@[simp] theorem launch_parked (s : State) (fs : List InFlight) : (launch s fs).parked = s.parked := rfl
@[simp] theorem launch_cur (s : State) (fs : List InFlight) : (launch s fs).cur = s.cur := rfl
@[simp] theorem launch_sub (s : State) (fs : List InFlight) : (launch s fs).sub = s.sub := rfl
@[simp] theorem launch_blk (s : State) (fs : List InFlight) : (launch s fs).blk = s.blk := rfl
@[simp] theorem launch_agenda (s : State) (fs : List InFlight) : (launch s fs).agenda = s.agenda := rfl
@[simp] theorem launch_phase (s : State) (fs : List InFlight) : (launch s fs).phase = s.phase := rfl
@[simp] theorem launch_round (s : State) (fs : List InFlight) : (launch s fs).round = s.round := rfl
@[simp] theorem launch_fresh (s : State) (fs : List InFlight) : (launch s fs).fresh = s.fresh + 1 := rfl
@[simp] theorem launch_cycle (s : State) (fs : List InFlight) : (launch s fs).cycle = s.cycle := rfl
@[simp] theorem launch_mem (s : State) (fs : List InFlight) : (launch s fs).mem = s.mem := rfl
@[simp] theorem launch_bad (s : State) (fs : List InFlight) : (launch s fs).bad = s.bad := rfl
@[simp] theorem launch_soft (s : State) (fs : List InFlight) : (launch s fs).soft = s.soft := rfl
@[simp] theorem launch_sealed (s : State) (fs : List InFlight) : (launch s fs).sealed = s.sealed := rfl
@[simp] theorem launch_wc (s : State) (fs : List InFlight) : (launch s fs).wc = s.wc := rfl
@[simp] theorem launch_red (s : State) (fs : List InFlight) : (launch s fs).red = s.red := rfl
@[simp] theorem launch_redWait (s : State) (fs : List InFlight) : (launch s fs).redWait = s.redWait := rfl
@[simp] theorem launch_kvq (s : State) (fs : List InFlight) : (launch s fs).kvq = s.kvq := rfl
@[simp] theorem launch_vaults (s : State) (fs : List InFlight) : (launch s fs).vaults = s.vaults := rfl
@[simp] theorem launch_fmt (s : State) (fs : List InFlight) : (launch s fs).fmt = s.fmt := rfl
@[simp] theorem launch_swz (s : State) (fs : List InFlight) : (launch s fs).swz = s.swz := rfl
@[simp] theorem launch_served (s : State) (fs : List InFlight) : (launch s fs).served = s.served := rfl
@[simp] theorem launch_cores (s : State) (fs : List InFlight) : (launch s fs).cores = s.cores := rfl
@[simp] theorem launch_garr (s : State) (fs : List InFlight) : (launch s fs).garr = s.garr := rfl
@[simp] theorem launch_darr (s : State) (fs : List InFlight) : (launch s fs).darr = s.darr := rfl
@[simp] theorem launch_xlat (s : State) (fs : List InFlight) : (launch s fs).xlat = s.xlat := rfl
@[simp] theorem launch_icache (s : State) (fs : List InFlight) : (launch s fs).icache = s.icache := rfl
@[simp] theorem launch_shadows (s : State) (fs : List InFlight) : (launch s fs).shadows = s.shadows := rfl
@[simp] theorem launch_asTab (s : State) (fs : List InFlight) : (launch s fs).asTab = s.asTab := rfl
@[simp] theorem launch_vis (s : State) (fs : List InFlight) : (launch s fs).vis = s.vis := rfl
@[simp] theorem launch_tqs (s : State) (fs : List InFlight) : (launch s fs).tqs = s.tqs := rfl
@[simp] theorem launch_intrs (s : State) (fs : List InFlight) : (launch s fs).intrs = s.intrs := rfl
@[simp] theorem launch_regions (s : State) (fs : List InFlight) : (launch s fs).regions = s.regions := rfl
@[simp] theorem launch_insts (s : State) (fs : List InFlight) : (launch s fs).insts = s.insts := rfl
@[simp] theorem launch_nodes (s : State) (fs : List InFlight) : (launch s fs).nodes = s.nodes := rfl
@[simp] theorem launch_bars (s : State) (fs : List InFlight) : (launch s fs).bars = s.bars := rfl
@[simp] theorem launch_saved (s : State) (fs : List InFlight) : (launch s fs).saved = s.saved := rfl
@[simp] theorem launch_tw (s : State) (fs : List InFlight) : (launch s fs).tw = s.tw := rfl
@[simp] theorem launch_nonfin (s : State) (fs : List InFlight) : (launch s fs).nonfin = s.nonfin := rfl
@[simp] theorem launch_twerr (s : State) (fs : List InFlight) : (launch s fs).twerr = s.twerr := rfl
@[simp] theorem launch_samps (s : State) (fs : List InFlight) : (launch s fs).samps = s.samps := rfl
@[simp] theorem launch_rsts (s : State) (fs : List InFlight) : (launch s fs).rsts = s.rsts := rfl
@[simp] theorem launch_downDies (s : State) (fs : List InFlight) : (launch s fs).downDies = s.downDies := rfl
@[simp] theorem launch_links (s : State) (fs : List InFlight) : (launch s fs).links = s.links := rfl
@[simp] theorem launch_fabOrd (s : State) (fs : List InFlight) : (launch s fs).fabOrd = s.fabOrd := rfl
@[simp] theorem launch_tcm (s : State) (fs : List InFlight) : (launch s fs).tcm = s.tcm := rfl
@[simp] theorem launch_msix (s : State) (fs : List InFlight) : (launch s fs).msix = s.msix := rfl
@[simp] theorem launch_pkg (s : State) (fs : List InFlight) : (launch s fs).pkg = s.pkg := rfl
@[simp] theorem launch_replies (s : State) (fs : List InFlight) : (launch s fs).replies = s.replies := rfl
@[simp] theorem launch_nextId (s : State) (fs : List InFlight) : (launch s fs).nextId = s.nextId := rfl

/-! nextPhase -/

@[simp] theorem nextPhase_cx (s : State) : (nextPhase s).cx = s.cx := rfl
@[simp] theorem nextPhase_parked (s : State) : (nextPhase s).parked = s.parked := rfl
@[simp] theorem nextPhase_cur (s : State) : (nextPhase s).cur = s.cur := rfl
@[simp] theorem nextPhase_sub (s : State) : (nextPhase s).sub = s.sub := rfl
@[simp] theorem nextPhase_blk (s : State) : (nextPhase s).blk = s.blk := rfl
@[simp] theorem nextPhase_agenda (s : State) : (nextPhase s).agenda = s.agenda := rfl
@[simp] theorem nextPhase_phase (s : State) : (nextPhase s).phase = s.phase + 1 := rfl
@[simp] theorem nextPhase_round (s : State) : (nextPhase s).round = s.round := rfl
@[simp] theorem nextPhase_fresh (s : State) : (nextPhase s).fresh = s.fresh := rfl
@[simp] theorem nextPhase_cycle (s : State) : (nextPhase s).cycle = s.cycle := rfl
@[simp] theorem nextPhase_mem (s : State) : (nextPhase s).mem = s.mem := rfl
@[simp] theorem nextPhase_bad (s : State) : (nextPhase s).bad = s.bad := rfl
@[simp] theorem nextPhase_soft (s : State) : (nextPhase s).soft = s.soft := rfl
@[simp] theorem nextPhase_sealed (s : State) : (nextPhase s).sealed = s.sealed := rfl
@[simp] theorem nextPhase_wc (s : State) : (nextPhase s).wc = s.wc := rfl
@[simp] theorem nextPhase_red (s : State) : (nextPhase s).red = s.red := rfl
@[simp] theorem nextPhase_redWait (s : State) : (nextPhase s).redWait = s.redWait := rfl
@[simp] theorem nextPhase_kvq (s : State) : (nextPhase s).kvq = s.kvq := rfl
@[simp] theorem nextPhase_vaults (s : State) : (nextPhase s).vaults = s.vaults := rfl
@[simp] theorem nextPhase_fmt (s : State) : (nextPhase s).fmt = s.fmt := rfl
@[simp] theorem nextPhase_swz (s : State) : (nextPhase s).swz = s.swz := rfl
@[simp] theorem nextPhase_served (s : State) : (nextPhase s).served = s.served := rfl
@[simp] theorem nextPhase_cores (s : State) : (nextPhase s).cores = s.cores := rfl
@[simp] theorem nextPhase_garr (s : State) : (nextPhase s).garr = s.garr := rfl
@[simp] theorem nextPhase_darr (s : State) : (nextPhase s).darr = s.darr := rfl
@[simp] theorem nextPhase_xlat (s : State) : (nextPhase s).xlat = s.xlat := rfl
@[simp] theorem nextPhase_icache (s : State) : (nextPhase s).icache = s.icache := rfl
@[simp] theorem nextPhase_shadows (s : State) : (nextPhase s).shadows = s.shadows := rfl
@[simp] theorem nextPhase_asTab (s : State) : (nextPhase s).asTab = s.asTab := rfl
@[simp] theorem nextPhase_vis (s : State) : (nextPhase s).vis = s.vis := rfl
@[simp] theorem nextPhase_tqs (s : State) : (nextPhase s).tqs = s.tqs := rfl
@[simp] theorem nextPhase_intrs (s : State) : (nextPhase s).intrs = s.intrs := rfl
@[simp] theorem nextPhase_regions (s : State) : (nextPhase s).regions = s.regions := rfl
@[simp] theorem nextPhase_insts (s : State) : (nextPhase s).insts = s.insts := rfl
@[simp] theorem nextPhase_nodes (s : State) : (nextPhase s).nodes = s.nodes := rfl
@[simp] theorem nextPhase_bars (s : State) : (nextPhase s).bars = s.bars := rfl
@[simp] theorem nextPhase_saved (s : State) : (nextPhase s).saved = s.saved := rfl
@[simp] theorem nextPhase_tw (s : State) : (nextPhase s).tw = s.tw := rfl
@[simp] theorem nextPhase_nonfin (s : State) : (nextPhase s).nonfin = s.nonfin := rfl
@[simp] theorem nextPhase_twerr (s : State) : (nextPhase s).twerr = s.twerr := rfl
@[simp] theorem nextPhase_samps (s : State) : (nextPhase s).samps = s.samps := rfl
@[simp] theorem nextPhase_rsts (s : State) : (nextPhase s).rsts = s.rsts := rfl
@[simp] theorem nextPhase_downDies (s : State) : (nextPhase s).downDies = s.downDies := rfl
@[simp] theorem nextPhase_links (s : State) : (nextPhase s).links = s.links := rfl
@[simp] theorem nextPhase_fabOrd (s : State) : (nextPhase s).fabOrd = s.fabOrd := rfl
@[simp] theorem nextPhase_tcm (s : State) : (nextPhase s).tcm = s.tcm := rfl
@[simp] theorem nextPhase_msix (s : State) : (nextPhase s).msix = s.msix := rfl
@[simp] theorem nextPhase_pkg (s : State) : (nextPhase s).pkg = s.pkg := rfl
@[simp] theorem nextPhase_replies (s : State) : (nextPhase s).replies = s.replies := rfl
@[simp] theorem nextPhase_nextId (s : State) : (nextPhase s).nextId = s.nextId := rfl

/-! withSub -/

@[simp] theorem withSub_cx (s : State) (sub : Subject) : (withSub s sub).cx = s.cx := rfl
@[simp] theorem withSub_parked (s : State) (sub : Subject) : (withSub s sub).parked = s.parked := rfl
@[simp] theorem withSub_cur (s : State) (sub : Subject) : (withSub s sub).cur = s.cur := rfl
@[simp] theorem withSub_sub (s : State) (sub : Subject) : (withSub s sub).sub = sub := rfl
@[simp] theorem withSub_blk (s : State) (sub : Subject) : (withSub s sub).blk = false := rfl
@[simp] theorem withSub_agenda (s : State) (sub : Subject) : (withSub s sub).agenda = s.agenda := rfl
@[simp] theorem withSub_phase (s : State) (sub : Subject) : (withSub s sub).phase = s.phase := rfl
@[simp] theorem withSub_round (s : State) (sub : Subject) : (withSub s sub).round = s.round := rfl
@[simp] theorem withSub_fresh (s : State) (sub : Subject) : (withSub s sub).fresh = s.fresh := rfl
@[simp] theorem withSub_cycle (s : State) (sub : Subject) : (withSub s sub).cycle = s.cycle := rfl
@[simp] theorem withSub_mem (s : State) (sub : Subject) : (withSub s sub).mem = s.mem := rfl
@[simp] theorem withSub_bad (s : State) (sub : Subject) : (withSub s sub).bad = s.bad := rfl
@[simp] theorem withSub_soft (s : State) (sub : Subject) : (withSub s sub).soft = s.soft := rfl
@[simp] theorem withSub_sealed (s : State) (sub : Subject) : (withSub s sub).sealed = s.sealed := rfl
@[simp] theorem withSub_wc (s : State) (sub : Subject) : (withSub s sub).wc = s.wc := rfl
@[simp] theorem withSub_red (s : State) (sub : Subject) : (withSub s sub).red = s.red := rfl
@[simp] theorem withSub_redWait (s : State) (sub : Subject) : (withSub s sub).redWait = s.redWait := rfl
@[simp] theorem withSub_kvq (s : State) (sub : Subject) : (withSub s sub).kvq = s.kvq := rfl
@[simp] theorem withSub_vaults (s : State) (sub : Subject) : (withSub s sub).vaults = s.vaults := rfl
@[simp] theorem withSub_fmt (s : State) (sub : Subject) : (withSub s sub).fmt = s.fmt := rfl
@[simp] theorem withSub_swz (s : State) (sub : Subject) : (withSub s sub).swz = s.swz := rfl
@[simp] theorem withSub_served (s : State) (sub : Subject) : (withSub s sub).served = s.served := rfl
@[simp] theorem withSub_cores (s : State) (sub : Subject) : (withSub s sub).cores = s.cores := rfl
@[simp] theorem withSub_garr (s : State) (sub : Subject) : (withSub s sub).garr = s.garr := rfl
@[simp] theorem withSub_darr (s : State) (sub : Subject) : (withSub s sub).darr = s.darr := rfl
@[simp] theorem withSub_xlat (s : State) (sub : Subject) : (withSub s sub).xlat = s.xlat := rfl
@[simp] theorem withSub_icache (s : State) (sub : Subject) : (withSub s sub).icache = s.icache := rfl
@[simp] theorem withSub_shadows (s : State) (sub : Subject) : (withSub s sub).shadows = s.shadows := rfl
@[simp] theorem withSub_asTab (s : State) (sub : Subject) : (withSub s sub).asTab = s.asTab := rfl
@[simp] theorem withSub_vis (s : State) (sub : Subject) : (withSub s sub).vis = s.vis := rfl
@[simp] theorem withSub_tqs (s : State) (sub : Subject) : (withSub s sub).tqs = s.tqs := rfl
@[simp] theorem withSub_intrs (s : State) (sub : Subject) : (withSub s sub).intrs = s.intrs := rfl
@[simp] theorem withSub_regions (s : State) (sub : Subject) : (withSub s sub).regions = s.regions := rfl
@[simp] theorem withSub_insts (s : State) (sub : Subject) : (withSub s sub).insts = s.insts := rfl
@[simp] theorem withSub_nodes (s : State) (sub : Subject) : (withSub s sub).nodes = s.nodes := rfl
@[simp] theorem withSub_bars (s : State) (sub : Subject) : (withSub s sub).bars = s.bars := rfl
@[simp] theorem withSub_saved (s : State) (sub : Subject) : (withSub s sub).saved = s.saved := rfl
@[simp] theorem withSub_tw (s : State) (sub : Subject) : (withSub s sub).tw = s.tw := rfl
@[simp] theorem withSub_nonfin (s : State) (sub : Subject) : (withSub s sub).nonfin = s.nonfin := rfl
@[simp] theorem withSub_twerr (s : State) (sub : Subject) : (withSub s sub).twerr = s.twerr := rfl
@[simp] theorem withSub_samps (s : State) (sub : Subject) : (withSub s sub).samps = s.samps := rfl
@[simp] theorem withSub_rsts (s : State) (sub : Subject) : (withSub s sub).rsts = s.rsts := rfl
@[simp] theorem withSub_downDies (s : State) (sub : Subject) : (withSub s sub).downDies = s.downDies := rfl
@[simp] theorem withSub_links (s : State) (sub : Subject) : (withSub s sub).links = s.links := rfl
@[simp] theorem withSub_fabOrd (s : State) (sub : Subject) : (withSub s sub).fabOrd = s.fabOrd := rfl
@[simp] theorem withSub_tcm (s : State) (sub : Subject) : (withSub s sub).tcm = s.tcm := rfl
@[simp] theorem withSub_msix (s : State) (sub : Subject) : (withSub s sub).msix = s.msix := rfl
@[simp] theorem withSub_pkg (s : State) (sub : Subject) : (withSub s sub).pkg = s.pkg := rfl
@[simp] theorem withSub_replies (s : State) (sub : Subject) : (withSub s sub).replies = s.replies := rfl
@[simp] theorem withSub_nextId (s : State) (sub : Subject) : (withSub s sub).nextId = s.nextId := rfl

/-! Ctx.wa -/

@[simp] theorem Ctx.wa_id (c : Ctx) (r : Nat) (v : W64) : (c.wa r v).id = c.id := rfl
@[simp] theorem Ctx.wa_has (c : Ctx) (r : Nat) (v : W64) : (c.wa r v).has = c.has := rfl
@[simp] theorem Ctx.wa_it (c : Ctx) (r : Nat) (v : W64) : (c.wa r v).it = c.it := rfl
@[simp] theorem Ctx.wa_khd (c : Ctx) (r : Nat) (v : W64) : (c.wa r v).khd = c.khd := rfl
@[simp] theorem Ctx.wa_s (c : Ctx) (r : Nat) (v : W64) : (c.wa r v).s = c.s := rfl
@[simp] theorem Ctx.wa_a (c : Ctx) (r : Nat) (v : W64) : (c.wa r v).a = c.a.setIfInBounds r v := rfl
@[simp] theorem Ctx.wa_v (c : Ctx) (r : Nat) (v : W64) : (c.wa r v).v = c.v := rfl
@[simp] theorem Ctx.wa_p (c : Ctx) (r : Nat) (v : W64) : (c.wa r v).p = c.p := rfl
@[simp] theorem Ctx.wa_vage (c : Ctx) (r : Nat) (v : W64) : (c.wa r v).vage = c.vage := rfl
@[simp] theorem Ctx.wa_page (c : Ctx) (r : Nat) (v : W64) : (c.wa r v).page = c.page := rfl
@[simp] theorem Ctx.wa_pc (c : Ctx) (r : Nat) (v : W64) : (c.wa r v).pc = c.pc := rfl
@[simp] theorem Ctx.wa_line (c : Ctx) (r : Nat) (v : W64) : (c.wa r v).line = c.line := rfl
@[simp] theorem Ctx.wa_inLine (c : Ctx) (r : Nat) (v : W64) : (c.wa r v).inLine = c.inLine := rfl
@[simp] theorem Ctx.wa_last (c : Ctx) (r : Nat) (v : W64) : (c.wa r v).last = c.last := rfl
@[simp] theorem Ctx.wa_nxt (c : Ctx) (r : Nat) (v : W64) : (c.wa r v).nxt = c.nxt := rfl
@[simp] theorem Ctx.wa_skip (c : Ctx) (r : Nat) (v : W64) : (c.wa r v).skip = c.skip := rfl
@[simp] theorem Ctx.wa_mode (c : Ctx) (r : Nat) (v : W64) : (c.wa r v).mode = c.mode := rfl
@[simp] theorem Ctx.wa_depth (c : Ctx) (r : Nat) (v : W64) : (c.wa r v).depth = c.depth := rfl
@[simp] theorem Ctx.wa_loops (c : Ctx) (r : Nat) (v : W64) : (c.wa r v).loops = c.loops := rfl
@[simp] theorem Ctx.wa_rrb (c : Ctx) (r : Nat) (v : W64) : (c.wa r v).rrb = c.rrb := rfl
@[simp] theorem Ctx.wa_vdep (c : Ctx) (r : Nat) (v : W64) : (c.wa r v).vdep = c.vdep := rfl
@[simp] theorem Ctx.wa_pdep (c : Ctx) (r : Nat) (v : W64) : (c.wa r v).pdep = c.pdep := rfl
@[simp] theorem Ctx.wa_rm (c : Ctx) (r : Nat) (v : W64) : (c.wa r v).rm = c.rm := rfl
@[simp] theorem Ctx.wa_ten (c : Ctx) (r : Nat) (v : W64) : (c.wa r v).ten = c.ten := rfl
@[simp] theorem Ctx.wa_flg (c : Ctx) (r : Nat) (v : W64) : (c.wa r v).flg = c.flg := rfl
@[simp] theorem Ctx.wa_psel (c : Ctx) (r : Nat) (v : W64) : (c.wa r v).psel = c.psel := rfl
@[simp] theorem Ctx.wa_gzero (c : Ctx) (r : Nat) (v : W64) : (c.wa r v).gzero = c.gzero := rfl
@[simp] theorem Ctx.wa_chk (c : Ctx) (r : Nat) (v : W64) : (c.wa r v).chk = c.chk := rfl
@[simp] theorem Ctx.wa_deadrd (c : Ctx) (r : Nat) (v : W64) : (c.wa r v).deadrd = c.deadrd := rfl
@[simp] theorem Ctx.wa_smxnan (c : Ctx) (r : Nat) (v : W64) : (c.wa r v).smxnan = c.smxnan := rfl
@[simp] theorem Ctx.wa_ncl (c : Ctx) (r : Nat) (v : W64) : (c.wa r v).ncl = c.ncl := rfl
@[simp] theorem Ctx.wa_ncs (c : Ctx) (r : Nat) (v : W64) : (c.wa r v).ncs = c.ncs := rfl
@[simp] theorem Ctx.wa_ncx (c : Ctx) (r : Nat) (v : W64) : (c.wa r v).ncx = c.ncx := rfl
@[simp] theorem Ctx.wa_ncm (c : Ctx) (r : Nat) (v : W64) : (c.wa r v).ncm = c.ncm := rfl
@[simp] theorem Ctx.wa_tokens (c : Ctx) (r : Nat) (v : W64) : (c.wa r v).tokens = c.tokens := rfl
@[simp] theorem Ctx.wa_hint (c : Ctx) (r : Nat) (v : W64) : (c.wa r v).hint = c.hint := rfl
@[simp] theorem Ctx.wa_replay (c : Ctx) (r : Nat) (v : W64) : (c.wa r v).replay = c.replay := rfl
@[simp] theorem Ctx.wa_cq (c : Ctx) (r : Nat) (v : W64) : (c.wa r v).cq = c.cq := rfl
@[simp] theorem Ctx.wa_sq (c : Ctx) (r : Nat) (v : W64) : (c.wa r v).sq = c.sq := rfl
@[simp] theorem Ctx.wa_vq (c : Ctx) (r : Nat) (v : W64) : (c.wa r v).vq = c.vq := rfl
@[simp] theorem Ctx.wa_mq (c : Ctx) (r : Nat) (v : W64) : (c.wa r v).mq = c.mq := rfl
@[simp] theorem Ctx.wa_xq (c : Ctx) (r : Nat) (v : W64) : (c.wa r v).xq = c.xq := rfl
@[simp] theorem Ctx.wa_aq (c : Ctx) (r : Nat) (v : W64) : (c.wa r v).aq = c.aq := rfl
@[simp] theorem Ctx.wa_yq (c : Ctx) (r : Nat) (v : W64) : (c.wa r v).yq = c.yq := rfl
@[simp] theorem Ctx.wa_lineSeq (c : Ctx) (r : Nat) (v : W64) : (c.wa r v).lineSeq = c.lineSeq := rfl
@[simp] theorem Ctx.wa_hold (c : Ctx) (r : Nat) (v : W64) : (c.wa r v).hold = c.hold := rfl
@[simp] theorem Ctx.wa_inflight (c : Ctx) (r : Nat) (v : W64) : (c.wa r v).inflight = c.inflight := rfl
@[simp] theorem Ctx.wa_gacc (c : Ctx) (r : Nat) (v : W64) : (c.wa r v).gacc = c.gacc := rfl
@[simp] theorem Ctx.wa_lports (c : Ctx) (r : Nat) (v : W64) : (c.wa r v).lports = c.lports := rfl
@[simp] theorem Ctx.wa_sports (c : Ctx) (r : Nat) (v : W64) : (c.wa r v).sports = c.sports := rfl
@[simp] theorem Ctx.wa_accs (c : Ctx) (r : Nat) (v : W64) : (c.wa r v).accs = c.accs := rfl
@[simp] theorem Ctx.wa_accL (c : Ctx) (r : Nat) (v : W64) : (c.wa r v).accL = c.accL := rfl
@[simp] theorem Ctx.wa_accS (c : Ctx) (r : Nat) (v : W64) : (c.wa r v).accS = c.accS := rfl
@[simp] theorem Ctx.wa_ag (c : Ctx) (r : Nat) (v : W64) : (c.wa r v).ag = c.ag := rfl
@[simp] theorem Ctx.wa_aseq (c : Ctx) (r : Nat) (v : W64) : (c.wa r v).aseq = c.aseq := rfl
@[simp] theorem Ctx.wa_cols (c : Ctx) (r : Nat) (v : W64) : (c.wa r v).cols = c.cols := rfl
@[simp] theorem Ctx.wa_outBars (c : Ctx) (r : Nat) (v : W64) : (c.wa r v).outBars = c.outBars := rfl
@[simp] theorem Ctx.wa_arrivals (c : Ctx) (r : Nat) (v : W64) : (c.wa r v).arrivals = c.arrivals := rfl
@[simp] theorem Ctx.wa_decs (c : Ctx) (r : Nat) (v : W64) : (c.wa r v).decs = c.decs := rfl
@[simp] theorem Ctx.wa_mfly (c : Ctx) (r : Nat) (v : W64) : (c.wa r v).mfly = c.mfly := rfl
@[simp] theorem Ctx.wa_yfly (c : Ctx) (r : Nat) (v : W64) : (c.wa r v).yfly = c.yfly := rfl
@[simp] theorem Ctx.wa_yseq (c : Ctx) (r : Nat) (v : W64) : (c.wa r v).yseq = c.yseq := rfl
@[simp] theorem Ctx.wa_dline (c : Ctx) (r : Nat) (v : W64) : (c.wa r v).dline = c.dline := rfl
@[simp] theorem Ctx.wa_pend (c : Ctx) (r : Nat) (v : W64) : (c.wa r v).pend = c.pend := rfl
@[simp] theorem Ctx.wa_more (c : Ctx) (r : Nat) (v : W64) : (c.wa r v).more = c.more := rfl
@[simp] theorem Ctx.wa_due (c : Ctx) (r : Nat) (v : W64) : (c.wa r v).due = c.due := rfl
@[simp] theorem Ctx.wa_yieldReq (c : Ctx) (r : Nat) (v : W64) : (c.wa r v).yieldReq = c.yieldReq := rfl
@[simp] theorem Ctx.wa_prioReq (c : Ctx) (r : Nat) (v : W64) : (c.wa r v).prioReq = c.prioReq := rfl
@[simp] theorem Ctx.wa_caps (c : Ctx) (r : Nat) (v : W64) : (c.wa r v).caps = c.caps := rfl
@[simp] theorem Ctx.wa_resume (c : Ctx) (r : Nat) (v : W64) : (c.wa r v).resume = c.resume := rfl
@[simp] theorem Ctx.wa_wd (c : Ctx) (r : Nat) (v : W64) : (c.wa r v).wd = c.wd := rfl
@[simp] theorem Ctx.wa_perf (c : Ctx) (r : Nat) (v : W64) : (c.wa r v).perf = c.perf := rfl
@[simp] theorem Ctx.wa_stall (c : Ctx) (r : Nat) (v : W64) : (c.wa r v).stall = c.stall := rfl
@[simp] theorem Ctx.wa_lastIssue (c : Ctx) (r : Nat) (v : W64) : (c.wa r v).lastIssue = c.lastIssue := rfl
@[simp] theorem Ctx.wa_nextIss (c : Ctx) (r : Nat) (v : W64) : (c.wa r v).nextIss = c.nextIss := rfl

/-! Ctx.goto -/

@[simp] theorem Ctx.goto_id (c : Ctx) (t : W64) : (c.goto t).id = c.id := rfl
@[simp] theorem Ctx.goto_has (c : Ctx) (t : W64) : (c.goto t).has = c.has := rfl
@[simp] theorem Ctx.goto_it (c : Ctx) (t : W64) : (c.goto t).it = c.it := rfl
@[simp] theorem Ctx.goto_khd (c : Ctx) (t : W64) : (c.goto t).khd = c.khd := rfl
@[simp] theorem Ctx.goto_s (c : Ctx) (t : W64) : (c.goto t).s = c.s := rfl
@[simp] theorem Ctx.goto_a (c : Ctx) (t : W64) : (c.goto t).a = c.a := rfl
@[simp] theorem Ctx.goto_v (c : Ctx) (t : W64) : (c.goto t).v = c.v := rfl
@[simp] theorem Ctx.goto_p (c : Ctx) (t : W64) : (c.goto t).p = c.p := rfl
@[simp] theorem Ctx.goto_vage (c : Ctx) (t : W64) : (c.goto t).vage = c.vage := rfl
@[simp] theorem Ctx.goto_page (c : Ctx) (t : W64) : (c.goto t).page = c.page := rfl
@[simp] theorem Ctx.goto_pc (c : Ctx) (t : W64) : (c.goto t).pc = c.pc := rfl
@[simp] theorem Ctx.goto_line (c : Ctx) (t : W64) : (c.goto t).line = c.line := rfl
@[simp] theorem Ctx.goto_inLine (c : Ctx) (t : W64) : (c.goto t).inLine = c.inLine := rfl
@[simp] theorem Ctx.goto_last (c : Ctx) (t : W64) : (c.goto t).last = c.last := rfl
@[simp] theorem Ctx.goto_nxt (c : Ctx) (t : W64) : (c.goto t).nxt = some t := rfl
@[simp] theorem Ctx.goto_skip (c : Ctx) (t : W64) : (c.goto t).skip = c.skip := rfl
@[simp] theorem Ctx.goto_mode (c : Ctx) (t : W64) : (c.goto t).mode = c.mode := rfl
@[simp] theorem Ctx.goto_depth (c : Ctx) (t : W64) : (c.goto t).depth = c.depth := rfl
@[simp] theorem Ctx.goto_loops (c : Ctx) (t : W64) : (c.goto t).loops = c.loops := rfl
@[simp] theorem Ctx.goto_rrb (c : Ctx) (t : W64) : (c.goto t).rrb = c.rrb := rfl
@[simp] theorem Ctx.goto_vdep (c : Ctx) (t : W64) : (c.goto t).vdep = c.vdep := rfl
@[simp] theorem Ctx.goto_pdep (c : Ctx) (t : W64) : (c.goto t).pdep = c.pdep := rfl
@[simp] theorem Ctx.goto_rm (c : Ctx) (t : W64) : (c.goto t).rm = c.rm := rfl
@[simp] theorem Ctx.goto_ten (c : Ctx) (t : W64) : (c.goto t).ten = c.ten := rfl
@[simp] theorem Ctx.goto_flg (c : Ctx) (t : W64) : (c.goto t).flg = c.flg := rfl
@[simp] theorem Ctx.goto_psel (c : Ctx) (t : W64) : (c.goto t).psel = c.psel := rfl
@[simp] theorem Ctx.goto_gzero (c : Ctx) (t : W64) : (c.goto t).gzero = c.gzero := rfl
@[simp] theorem Ctx.goto_chk (c : Ctx) (t : W64) : (c.goto t).chk = c.chk := rfl
@[simp] theorem Ctx.goto_deadrd (c : Ctx) (t : W64) : (c.goto t).deadrd = c.deadrd := rfl
@[simp] theorem Ctx.goto_smxnan (c : Ctx) (t : W64) : (c.goto t).smxnan = c.smxnan := rfl
@[simp] theorem Ctx.goto_ncl (c : Ctx) (t : W64) : (c.goto t).ncl = c.ncl := rfl
@[simp] theorem Ctx.goto_ncs (c : Ctx) (t : W64) : (c.goto t).ncs = c.ncs := rfl
@[simp] theorem Ctx.goto_ncx (c : Ctx) (t : W64) : (c.goto t).ncx = c.ncx := rfl
@[simp] theorem Ctx.goto_ncm (c : Ctx) (t : W64) : (c.goto t).ncm = c.ncm := rfl
@[simp] theorem Ctx.goto_tokens (c : Ctx) (t : W64) : (c.goto t).tokens = c.tokens := rfl
@[simp] theorem Ctx.goto_hint (c : Ctx) (t : W64) : (c.goto t).hint = c.hint := rfl
@[simp] theorem Ctx.goto_replay (c : Ctx) (t : W64) : (c.goto t).replay = c.replay := rfl
@[simp] theorem Ctx.goto_cq (c : Ctx) (t : W64) : (c.goto t).cq = c.cq := rfl
@[simp] theorem Ctx.goto_sq (c : Ctx) (t : W64) : (c.goto t).sq = c.sq := rfl
@[simp] theorem Ctx.goto_vq (c : Ctx) (t : W64) : (c.goto t).vq = c.vq := rfl
@[simp] theorem Ctx.goto_mq (c : Ctx) (t : W64) : (c.goto t).mq = c.mq := rfl
@[simp] theorem Ctx.goto_xq (c : Ctx) (t : W64) : (c.goto t).xq = c.xq := rfl
@[simp] theorem Ctx.goto_aq (c : Ctx) (t : W64) : (c.goto t).aq = c.aq := rfl
@[simp] theorem Ctx.goto_yq (c : Ctx) (t : W64) : (c.goto t).yq = c.yq := rfl
@[simp] theorem Ctx.goto_lineSeq (c : Ctx) (t : W64) : (c.goto t).lineSeq = c.lineSeq := rfl
@[simp] theorem Ctx.goto_hold (c : Ctx) (t : W64) : (c.goto t).hold = c.hold := rfl
@[simp] theorem Ctx.goto_inflight (c : Ctx) (t : W64) : (c.goto t).inflight = c.inflight := rfl
@[simp] theorem Ctx.goto_gacc (c : Ctx) (t : W64) : (c.goto t).gacc = c.gacc := rfl
@[simp] theorem Ctx.goto_lports (c : Ctx) (t : W64) : (c.goto t).lports = c.lports := rfl
@[simp] theorem Ctx.goto_sports (c : Ctx) (t : W64) : (c.goto t).sports = c.sports := rfl
@[simp] theorem Ctx.goto_accs (c : Ctx) (t : W64) : (c.goto t).accs = c.accs := rfl
@[simp] theorem Ctx.goto_accL (c : Ctx) (t : W64) : (c.goto t).accL = c.accL := rfl
@[simp] theorem Ctx.goto_accS (c : Ctx) (t : W64) : (c.goto t).accS = c.accS := rfl
@[simp] theorem Ctx.goto_ag (c : Ctx) (t : W64) : (c.goto t).ag = c.ag := rfl
@[simp] theorem Ctx.goto_aseq (c : Ctx) (t : W64) : (c.goto t).aseq = c.aseq := rfl
@[simp] theorem Ctx.goto_cols (c : Ctx) (t : W64) : (c.goto t).cols = c.cols := rfl
@[simp] theorem Ctx.goto_outBars (c : Ctx) (t : W64) : (c.goto t).outBars = c.outBars := rfl
@[simp] theorem Ctx.goto_arrivals (c : Ctx) (t : W64) : (c.goto t).arrivals = c.arrivals := rfl
@[simp] theorem Ctx.goto_decs (c : Ctx) (t : W64) : (c.goto t).decs = c.decs := rfl
@[simp] theorem Ctx.goto_mfly (c : Ctx) (t : W64) : (c.goto t).mfly = c.mfly := rfl
@[simp] theorem Ctx.goto_yfly (c : Ctx) (t : W64) : (c.goto t).yfly = c.yfly := rfl
@[simp] theorem Ctx.goto_yseq (c : Ctx) (t : W64) : (c.goto t).yseq = c.yseq := rfl
@[simp] theorem Ctx.goto_dline (c : Ctx) (t : W64) : (c.goto t).dline = c.dline := rfl
@[simp] theorem Ctx.goto_pend (c : Ctx) (t : W64) : (c.goto t).pend = c.pend := rfl
@[simp] theorem Ctx.goto_more (c : Ctx) (t : W64) : (c.goto t).more = c.more := rfl
@[simp] theorem Ctx.goto_due (c : Ctx) (t : W64) : (c.goto t).due = c.due := rfl
@[simp] theorem Ctx.goto_yieldReq (c : Ctx) (t : W64) : (c.goto t).yieldReq = c.yieldReq := rfl
@[simp] theorem Ctx.goto_prioReq (c : Ctx) (t : W64) : (c.goto t).prioReq = c.prioReq := rfl
@[simp] theorem Ctx.goto_caps (c : Ctx) (t : W64) : (c.goto t).caps = c.caps := rfl
@[simp] theorem Ctx.goto_resume (c : Ctx) (t : W64) : (c.goto t).resume = c.resume := rfl
@[simp] theorem Ctx.goto_wd (c : Ctx) (t : W64) : (c.goto t).wd = c.wd := rfl
@[simp] theorem Ctx.goto_perf (c : Ctx) (t : W64) : (c.goto t).perf = c.perf := rfl
@[simp] theorem Ctx.goto_stall (c : Ctx) (t : W64) : (c.goto t).stall = c.stall := rfl
@[simp] theorem Ctx.goto_lastIssue (c : Ctx) (t : W64) : (c.goto t).lastIssue = c.lastIssue := rfl
@[simp] theorem Ctx.goto_nextIss (c : Ctx) (t : W64) : (c.goto t).nextIss = c.nextIss := rfl

/-! Ctx.finish -/

@[simp] theorem Ctx.finish_id (c : Ctx) (k q : Nat) : (c.finish k q).id = c.id := rfl
@[simp] theorem Ctx.finish_has (c : Ctx) (k q : Nat) : (c.finish k q).has = c.has := rfl
@[simp] theorem Ctx.finish_it (c : Ctx) (k q : Nat) : (c.finish k q).it = c.it := rfl
@[simp] theorem Ctx.finish_khd (c : Ctx) (k q : Nat) : (c.finish k q).khd = c.khd := rfl
@[simp] theorem Ctx.finish_s (c : Ctx) (k q : Nat) : (c.finish k q).s = c.s := rfl
@[simp] theorem Ctx.finish_a (c : Ctx) (k q : Nat) : (c.finish k q).a = c.a := rfl
@[simp] theorem Ctx.finish_v (c : Ctx) (k q : Nat) : (c.finish k q).v = c.v := rfl
@[simp] theorem Ctx.finish_p (c : Ctx) (k q : Nat) : (c.finish k q).p = c.p := rfl
@[simp] theorem Ctx.finish_vage (c : Ctx) (k q : Nat) : (c.finish k q).vage = c.vage := rfl
@[simp] theorem Ctx.finish_page (c : Ctx) (k q : Nat) : (c.finish k q).page = c.page := rfl
@[simp] theorem Ctx.finish_pc (c : Ctx) (k q : Nat) : (c.finish k q).pc = c.pc := rfl
@[simp] theorem Ctx.finish_line (c : Ctx) (k q : Nat) : (c.finish k q).line = c.line := rfl
@[simp] theorem Ctx.finish_inLine (c : Ctx) (k q : Nat) : (c.finish k q).inLine = c.inLine := rfl
@[simp] theorem Ctx.finish_last (c : Ctx) (k q : Nat) : (c.finish k q).last = c.last := rfl
@[simp] theorem Ctx.finish_nxt (c : Ctx) (k q : Nat) : (c.finish k q).nxt = c.nxt := rfl
@[simp] theorem Ctx.finish_skip (c : Ctx) (k q : Nat) : (c.finish k q).skip = c.skip := rfl
@[simp] theorem Ctx.finish_mode (c : Ctx) (k q : Nat) : (c.finish k q).mode = c.mode := rfl
@[simp] theorem Ctx.finish_depth (c : Ctx) (k q : Nat) : (c.finish k q).depth = c.depth := rfl
@[simp] theorem Ctx.finish_loops (c : Ctx) (k q : Nat) : (c.finish k q).loops = c.loops := rfl
@[simp] theorem Ctx.finish_rrb (c : Ctx) (k q : Nat) : (c.finish k q).rrb = c.rrb := rfl
@[simp] theorem Ctx.finish_vdep (c : Ctx) (k q : Nat) : (c.finish k q).vdep = c.vdep := rfl
@[simp] theorem Ctx.finish_pdep (c : Ctx) (k q : Nat) : (c.finish k q).pdep = c.pdep := rfl
@[simp] theorem Ctx.finish_rm (c : Ctx) (k q : Nat) : (c.finish k q).rm = c.rm := rfl
@[simp] theorem Ctx.finish_ten (c : Ctx) (k q : Nat) : (c.finish k q).ten = c.ten := rfl
@[simp] theorem Ctx.finish_flg (c : Ctx) (k q : Nat) : (c.finish k q).flg = c.flg := rfl
@[simp] theorem Ctx.finish_psel (c : Ctx) (k q : Nat) : (c.finish k q).psel = c.psel := rfl
@[simp] theorem Ctx.finish_gzero (c : Ctx) (k q : Nat) : (c.finish k q).gzero = c.gzero := rfl
@[simp] theorem Ctx.finish_chk (c : Ctx) (k q : Nat) : (c.finish k q).chk = c.chk := rfl
@[simp] theorem Ctx.finish_deadrd (c : Ctx) (k q : Nat) : (c.finish k q).deadrd = c.deadrd := rfl
@[simp] theorem Ctx.finish_smxnan (c : Ctx) (k q : Nat) : (c.finish k q).smxnan = c.smxnan := rfl
@[simp] theorem Ctx.finish_ncl (c : Ctx) (k q : Nat) : (c.finish k q).ncl = c.ncl := rfl
@[simp] theorem Ctx.finish_ncs (c : Ctx) (k q : Nat) : (c.finish k q).ncs = c.ncs := rfl
@[simp] theorem Ctx.finish_ncx (c : Ctx) (k q : Nat) : (c.finish k q).ncx = c.ncx := rfl
@[simp] theorem Ctx.finish_ncm (c : Ctx) (k q : Nat) : (c.finish k q).ncm = c.ncm := rfl
@[simp] theorem Ctx.finish_tokens (c : Ctx) (k q : Nat) : (c.finish k q).tokens = c.tokens := rfl
@[simp] theorem Ctx.finish_hint (c : Ctx) (k q : Nat) : (c.finish k q).hint = c.hint := rfl
@[simp] theorem Ctx.finish_replay (c : Ctx) (k q : Nat) : (c.finish k q).replay = c.replay := rfl
@[simp] theorem Ctx.finish_cq (c : Ctx) (k q : Nat) : (c.finish k q).cq = c.cq := rfl
@[simp] theorem Ctx.finish_sq (c : Ctx) (k q : Nat) : (c.finish k q).sq = c.sq := rfl
@[simp] theorem Ctx.finish_vq (c : Ctx) (k q : Nat) : (c.finish k q).vq = c.vq := rfl
@[simp] theorem Ctx.finish_mq (c : Ctx) (k q : Nat) : (c.finish k q).mq = c.mq := rfl
@[simp] theorem Ctx.finish_xq (c : Ctx) (k q : Nat) : (c.finish k q).xq = c.xq := rfl
@[simp] theorem Ctx.finish_aq (c : Ctx) (k q : Nat) : (c.finish k q).aq = c.aq := rfl
@[simp] theorem Ctx.finish_yq (c : Ctx) (k q : Nat) : (c.finish k q).yq = c.yq := rfl
@[simp] theorem Ctx.finish_lineSeq (c : Ctx) (k q : Nat) : (c.finish k q).lineSeq = c.lineSeq := rfl
@[simp] theorem Ctx.finish_hold (c : Ctx) (k q : Nat) : (c.finish k q).hold = c.hold := rfl
@[simp] theorem Ctx.finish_inflight (c : Ctx) (k q : Nat) : (c.finish k q).inflight = c.inflight := rfl
@[simp] theorem Ctx.finish_gacc (c : Ctx) (k q : Nat) : (c.finish k q).gacc = c.gacc := rfl
@[simp] theorem Ctx.finish_lports (c : Ctx) (k q : Nat) : (c.finish k q).lports = c.lports := rfl
@[simp] theorem Ctx.finish_sports (c : Ctx) (k q : Nat) : (c.finish k q).sports = c.sports := rfl
@[simp] theorem Ctx.finish_accs (c : Ctx) (k q : Nat) : (c.finish k q).accs = c.accs := rfl
@[simp] theorem Ctx.finish_accL (c : Ctx) (k q : Nat) : (c.finish k q).accL = c.accL := rfl
@[simp] theorem Ctx.finish_accS (c : Ctx) (k q : Nat) : (c.finish k q).accS = c.accS := rfl
@[simp] theorem Ctx.finish_ag (c : Ctx) (k q : Nat) : (c.finish k q).ag = c.ag := rfl
@[simp] theorem Ctx.finish_aseq (c : Ctx) (k q : Nat) : (c.finish k q).aseq = c.aseq := rfl
@[simp] theorem Ctx.finish_cols (c : Ctx) (k q : Nat) : (c.finish k q).cols = c.cols := rfl
@[simp] theorem Ctx.finish_outBars (c : Ctx) (k q : Nat) : (c.finish k q).outBars = c.outBars := rfl
@[simp] theorem Ctx.finish_arrivals (c : Ctx) (k q : Nat) : (c.finish k q).arrivals = c.arrivals := rfl
@[simp] theorem Ctx.finish_decs (c : Ctx) (k q : Nat) : (c.finish k q).decs = c.decs ++ [⟨k, q⟩] := rfl
@[simp] theorem Ctx.finish_mfly (c : Ctx) (k q : Nat) : (c.finish k q).mfly = c.mfly := rfl
@[simp] theorem Ctx.finish_yfly (c : Ctx) (k q : Nat) : (c.finish k q).yfly = c.yfly := rfl
@[simp] theorem Ctx.finish_yseq (c : Ctx) (k q : Nat) : (c.finish k q).yseq = c.yseq := rfl
@[simp] theorem Ctx.finish_dline (c : Ctx) (k q : Nat) : (c.finish k q).dline = c.dline := rfl
@[simp] theorem Ctx.finish_pend (c : Ctx) (k q : Nat) : (c.finish k q).pend = c.pend := rfl
@[simp] theorem Ctx.finish_more (c : Ctx) (k q : Nat) : (c.finish k q).more = c.more := rfl
@[simp] theorem Ctx.finish_due (c : Ctx) (k q : Nat) : (c.finish k q).due = c.due := rfl
@[simp] theorem Ctx.finish_yieldReq (c : Ctx) (k q : Nat) : (c.finish k q).yieldReq = c.yieldReq := rfl
@[simp] theorem Ctx.finish_prioReq (c : Ctx) (k q : Nat) : (c.finish k q).prioReq = c.prioReq := rfl
@[simp] theorem Ctx.finish_caps (c : Ctx) (k q : Nat) : (c.finish k q).caps = c.caps := rfl
@[simp] theorem Ctx.finish_resume (c : Ctx) (k q : Nat) : (c.finish k q).resume = c.resume := rfl
@[simp] theorem Ctx.finish_wd (c : Ctx) (k q : Nat) : (c.finish k q).wd = c.wd := rfl
@[simp] theorem Ctx.finish_perf (c : Ctx) (k q : Nat) : (c.finish k q).perf = c.perf := rfl
@[simp] theorem Ctx.finish_stall (c : Ctx) (k q : Nat) : (c.finish k q).stall = c.stall := rfl
@[simp] theorem Ctx.finish_lastIssue (c : Ctx) (k q : Nat) : (c.finish k q).lastIssue = c.lastIssue := rfl
@[simp] theorem Ctx.finish_nextIss (c : Ctx) (k q : Nat) : (c.finish k q).nextIss = c.nextIss := rfl

/-! Ctx.setLevel -/

@[simp] theorem Ctx.setLevel_id (c : Ctx) (k : Nat) (l : Loop) : (c.setLevel k l).id = c.id := rfl
@[simp] theorem Ctx.setLevel_has (c : Ctx) (k : Nat) (l : Loop) : (c.setLevel k l).has = c.has := rfl
@[simp] theorem Ctx.setLevel_it (c : Ctx) (k : Nat) (l : Loop) : (c.setLevel k l).it = c.it := rfl
@[simp] theorem Ctx.setLevel_khd (c : Ctx) (k : Nat) (l : Loop) : (c.setLevel k l).khd = c.khd := rfl
@[simp] theorem Ctx.setLevel_s (c : Ctx) (k : Nat) (l : Loop) : (c.setLevel k l).s = c.s := rfl
@[simp] theorem Ctx.setLevel_a (c : Ctx) (k : Nat) (l : Loop) : (c.setLevel k l).a = c.a := rfl
@[simp] theorem Ctx.setLevel_v (c : Ctx) (k : Nat) (l : Loop) : (c.setLevel k l).v = c.v := rfl
@[simp] theorem Ctx.setLevel_p (c : Ctx) (k : Nat) (l : Loop) : (c.setLevel k l).p = c.p := rfl
@[simp] theorem Ctx.setLevel_vage (c : Ctx) (k : Nat) (l : Loop) : (c.setLevel k l).vage = c.vage := rfl
@[simp] theorem Ctx.setLevel_page (c : Ctx) (k : Nat) (l : Loop) : (c.setLevel k l).page = c.page := rfl
@[simp] theorem Ctx.setLevel_pc (c : Ctx) (k : Nat) (l : Loop) : (c.setLevel k l).pc = c.pc := rfl
@[simp] theorem Ctx.setLevel_line (c : Ctx) (k : Nat) (l : Loop) : (c.setLevel k l).line = c.line := rfl
@[simp] theorem Ctx.setLevel_inLine (c : Ctx) (k : Nat) (l : Loop) : (c.setLevel k l).inLine = c.inLine := rfl
@[simp] theorem Ctx.setLevel_last (c : Ctx) (k : Nat) (l : Loop) : (c.setLevel k l).last = c.last := rfl
@[simp] theorem Ctx.setLevel_nxt (c : Ctx) (k : Nat) (l : Loop) : (c.setLevel k l).nxt = c.nxt := rfl
@[simp] theorem Ctx.setLevel_skip (c : Ctx) (k : Nat) (l : Loop) : (c.setLevel k l).skip = c.skip := rfl
@[simp] theorem Ctx.setLevel_mode (c : Ctx) (k : Nat) (l : Loop) : (c.setLevel k l).mode = c.mode := rfl
@[simp] theorem Ctx.setLevel_depth (c : Ctx) (k : Nat) (l : Loop) : (c.setLevel k l).depth = c.depth := rfl
@[simp] theorem Ctx.setLevel_loops (c : Ctx) (k : Nat) (l : Loop) : (c.setLevel k l).loops = c.loops.setIfInBounds k l := rfl
@[simp] theorem Ctx.setLevel_rrb (c : Ctx) (k : Nat) (l : Loop) : (c.setLevel k l).rrb = c.rrb := rfl
@[simp] theorem Ctx.setLevel_vdep (c : Ctx) (k : Nat) (l : Loop) : (c.setLevel k l).vdep = c.vdep := rfl
@[simp] theorem Ctx.setLevel_pdep (c : Ctx) (k : Nat) (l : Loop) : (c.setLevel k l).pdep = c.pdep := rfl
@[simp] theorem Ctx.setLevel_rm (c : Ctx) (k : Nat) (l : Loop) : (c.setLevel k l).rm = c.rm := rfl
@[simp] theorem Ctx.setLevel_ten (c : Ctx) (k : Nat) (l : Loop) : (c.setLevel k l).ten = c.ten := rfl
@[simp] theorem Ctx.setLevel_flg (c : Ctx) (k : Nat) (l : Loop) : (c.setLevel k l).flg = c.flg := rfl
@[simp] theorem Ctx.setLevel_psel (c : Ctx) (k : Nat) (l : Loop) : (c.setLevel k l).psel = c.psel := rfl
@[simp] theorem Ctx.setLevel_gzero (c : Ctx) (k : Nat) (l : Loop) : (c.setLevel k l).gzero = c.gzero := rfl
@[simp] theorem Ctx.setLevel_chk (c : Ctx) (k : Nat) (l : Loop) : (c.setLevel k l).chk = c.chk := rfl
@[simp] theorem Ctx.setLevel_deadrd (c : Ctx) (k : Nat) (l : Loop) : (c.setLevel k l).deadrd = c.deadrd := rfl
@[simp] theorem Ctx.setLevel_smxnan (c : Ctx) (k : Nat) (l : Loop) : (c.setLevel k l).smxnan = c.smxnan := rfl
@[simp] theorem Ctx.setLevel_ncl (c : Ctx) (k : Nat) (l : Loop) : (c.setLevel k l).ncl = c.ncl := rfl
@[simp] theorem Ctx.setLevel_ncs (c : Ctx) (k : Nat) (l : Loop) : (c.setLevel k l).ncs = c.ncs := rfl
@[simp] theorem Ctx.setLevel_ncx (c : Ctx) (k : Nat) (l : Loop) : (c.setLevel k l).ncx = c.ncx := rfl
@[simp] theorem Ctx.setLevel_ncm (c : Ctx) (k : Nat) (l : Loop) : (c.setLevel k l).ncm = c.ncm := rfl
@[simp] theorem Ctx.setLevel_tokens (c : Ctx) (k : Nat) (l : Loop) : (c.setLevel k l).tokens = c.tokens := rfl
@[simp] theorem Ctx.setLevel_hint (c : Ctx) (k : Nat) (l : Loop) : (c.setLevel k l).hint = c.hint := rfl
@[simp] theorem Ctx.setLevel_replay (c : Ctx) (k : Nat) (l : Loop) : (c.setLevel k l).replay = c.replay := rfl
@[simp] theorem Ctx.setLevel_cq (c : Ctx) (k : Nat) (l : Loop) : (c.setLevel k l).cq = c.cq := rfl
@[simp] theorem Ctx.setLevel_sq (c : Ctx) (k : Nat) (l : Loop) : (c.setLevel k l).sq = c.sq := rfl
@[simp] theorem Ctx.setLevel_vq (c : Ctx) (k : Nat) (l : Loop) : (c.setLevel k l).vq = c.vq := rfl
@[simp] theorem Ctx.setLevel_mq (c : Ctx) (k : Nat) (l : Loop) : (c.setLevel k l).mq = c.mq := rfl
@[simp] theorem Ctx.setLevel_xq (c : Ctx) (k : Nat) (l : Loop) : (c.setLevel k l).xq = c.xq := rfl
@[simp] theorem Ctx.setLevel_aq (c : Ctx) (k : Nat) (l : Loop) : (c.setLevel k l).aq = c.aq := rfl
@[simp] theorem Ctx.setLevel_yq (c : Ctx) (k : Nat) (l : Loop) : (c.setLevel k l).yq = c.yq := rfl
@[simp] theorem Ctx.setLevel_lineSeq (c : Ctx) (k : Nat) (l : Loop) : (c.setLevel k l).lineSeq = c.lineSeq := rfl
@[simp] theorem Ctx.setLevel_hold (c : Ctx) (k : Nat) (l : Loop) : (c.setLevel k l).hold = c.hold := rfl
@[simp] theorem Ctx.setLevel_inflight (c : Ctx) (k : Nat) (l : Loop) : (c.setLevel k l).inflight = c.inflight := rfl
@[simp] theorem Ctx.setLevel_gacc (c : Ctx) (k : Nat) (l : Loop) : (c.setLevel k l).gacc = c.gacc := rfl
@[simp] theorem Ctx.setLevel_lports (c : Ctx) (k : Nat) (l : Loop) : (c.setLevel k l).lports = c.lports := rfl
@[simp] theorem Ctx.setLevel_sports (c : Ctx) (k : Nat) (l : Loop) : (c.setLevel k l).sports = c.sports := rfl
@[simp] theorem Ctx.setLevel_accs (c : Ctx) (k : Nat) (l : Loop) : (c.setLevel k l).accs = c.accs := rfl
@[simp] theorem Ctx.setLevel_accL (c : Ctx) (k : Nat) (l : Loop) : (c.setLevel k l).accL = c.accL := rfl
@[simp] theorem Ctx.setLevel_accS (c : Ctx) (k : Nat) (l : Loop) : (c.setLevel k l).accS = c.accS := rfl
@[simp] theorem Ctx.setLevel_ag (c : Ctx) (k : Nat) (l : Loop) : (c.setLevel k l).ag = c.ag := rfl
@[simp] theorem Ctx.setLevel_aseq (c : Ctx) (k : Nat) (l : Loop) : (c.setLevel k l).aseq = c.aseq := rfl
@[simp] theorem Ctx.setLevel_cols (c : Ctx) (k : Nat) (l : Loop) : (c.setLevel k l).cols = c.cols := rfl
@[simp] theorem Ctx.setLevel_outBars (c : Ctx) (k : Nat) (l : Loop) : (c.setLevel k l).outBars = c.outBars := rfl
@[simp] theorem Ctx.setLevel_arrivals (c : Ctx) (k : Nat) (l : Loop) : (c.setLevel k l).arrivals = c.arrivals := rfl
@[simp] theorem Ctx.setLevel_decs (c : Ctx) (k : Nat) (l : Loop) : (c.setLevel k l).decs = c.decs := rfl
@[simp] theorem Ctx.setLevel_mfly (c : Ctx) (k : Nat) (l : Loop) : (c.setLevel k l).mfly = c.mfly := rfl
@[simp] theorem Ctx.setLevel_yfly (c : Ctx) (k : Nat) (l : Loop) : (c.setLevel k l).yfly = c.yfly := rfl
@[simp] theorem Ctx.setLevel_yseq (c : Ctx) (k : Nat) (l : Loop) : (c.setLevel k l).yseq = c.yseq := rfl
@[simp] theorem Ctx.setLevel_dline (c : Ctx) (k : Nat) (l : Loop) : (c.setLevel k l).dline = c.dline := rfl
@[simp] theorem Ctx.setLevel_pend (c : Ctx) (k : Nat) (l : Loop) : (c.setLevel k l).pend = c.pend := rfl
@[simp] theorem Ctx.setLevel_more (c : Ctx) (k : Nat) (l : Loop) : (c.setLevel k l).more = c.more := rfl
@[simp] theorem Ctx.setLevel_due (c : Ctx) (k : Nat) (l : Loop) : (c.setLevel k l).due = c.due := rfl
@[simp] theorem Ctx.setLevel_yieldReq (c : Ctx) (k : Nat) (l : Loop) : (c.setLevel k l).yieldReq = c.yieldReq := rfl
@[simp] theorem Ctx.setLevel_prioReq (c : Ctx) (k : Nat) (l : Loop) : (c.setLevel k l).prioReq = c.prioReq := rfl
@[simp] theorem Ctx.setLevel_caps (c : Ctx) (k : Nat) (l : Loop) : (c.setLevel k l).caps = c.caps := rfl
@[simp] theorem Ctx.setLevel_resume (c : Ctx) (k : Nat) (l : Loop) : (c.setLevel k l).resume = c.resume := rfl
@[simp] theorem Ctx.setLevel_wd (c : Ctx) (k : Nat) (l : Loop) : (c.setLevel k l).wd = c.wd := rfl
@[simp] theorem Ctx.setLevel_perf (c : Ctx) (k : Nat) (l : Loop) : (c.setLevel k l).perf = c.perf := rfl
@[simp] theorem Ctx.setLevel_stall (c : Ctx) (k : Nat) (l : Loop) : (c.setLevel k l).stall = c.stall := rfl
@[simp] theorem Ctx.setLevel_lastIssue (c : Ctx) (k : Nat) (l : Loop) : (c.setLevel k l).lastIssue = c.lastIssue := rfl
@[simp] theorem Ctx.setLevel_nextIss (c : Ctx) (k : Nat) (l : Loop) : (c.setLevel k l).nextIss = c.nextIss := rfl

/-! Ctx.ws -/

@[simp] theorem Ctx.ws_id (c : Ctx) (r : Nat) (v : W64) : (c.ws r v).id = c.id := by unfold Ctx.ws; split <;> rfl
@[simp] theorem Ctx.ws_has (c : Ctx) (r : Nat) (v : W64) : (c.ws r v).has = c.has := by unfold Ctx.ws; split <;> rfl
@[simp] theorem Ctx.ws_it (c : Ctx) (r : Nat) (v : W64) : (c.ws r v).it = c.it := by unfold Ctx.ws; split <;> rfl
@[simp] theorem Ctx.ws_khd (c : Ctx) (r : Nat) (v : W64) : (c.ws r v).khd = c.khd := by unfold Ctx.ws; split <;> rfl
@[simp] theorem Ctx.ws_s (c : Ctx) (r : Nat) (v : W64) : (c.ws r v).s = if r = 0 then c.s else c.s.setIfInBounds r v := by unfold Ctx.ws; split <;> rfl
@[simp] theorem Ctx.ws_a (c : Ctx) (r : Nat) (v : W64) : (c.ws r v).a = c.a := by unfold Ctx.ws; split <;> rfl
@[simp] theorem Ctx.ws_v (c : Ctx) (r : Nat) (v : W64) : (c.ws r v).v = c.v := by unfold Ctx.ws; split <;> rfl
@[simp] theorem Ctx.ws_p (c : Ctx) (r : Nat) (v : W64) : (c.ws r v).p = c.p := by unfold Ctx.ws; split <;> rfl
@[simp] theorem Ctx.ws_vage (c : Ctx) (r : Nat) (v : W64) : (c.ws r v).vage = c.vage := by unfold Ctx.ws; split <;> rfl
@[simp] theorem Ctx.ws_page (c : Ctx) (r : Nat) (v : W64) : (c.ws r v).page = c.page := by unfold Ctx.ws; split <;> rfl
@[simp] theorem Ctx.ws_pc (c : Ctx) (r : Nat) (v : W64) : (c.ws r v).pc = c.pc := by unfold Ctx.ws; split <;> rfl
@[simp] theorem Ctx.ws_line (c : Ctx) (r : Nat) (v : W64) : (c.ws r v).line = c.line := by unfold Ctx.ws; split <;> rfl
@[simp] theorem Ctx.ws_inLine (c : Ctx) (r : Nat) (v : W64) : (c.ws r v).inLine = c.inLine := by unfold Ctx.ws; split <;> rfl
@[simp] theorem Ctx.ws_last (c : Ctx) (r : Nat) (v : W64) : (c.ws r v).last = c.last := by unfold Ctx.ws; split <;> rfl
@[simp] theorem Ctx.ws_nxt (c : Ctx) (r : Nat) (v : W64) : (c.ws r v).nxt = c.nxt := by unfold Ctx.ws; split <;> rfl
@[simp] theorem Ctx.ws_skip (c : Ctx) (r : Nat) (v : W64) : (c.ws r v).skip = c.skip := by unfold Ctx.ws; split <;> rfl
@[simp] theorem Ctx.ws_mode (c : Ctx) (r : Nat) (v : W64) : (c.ws r v).mode = c.mode := by unfold Ctx.ws; split <;> rfl
@[simp] theorem Ctx.ws_depth (c : Ctx) (r : Nat) (v : W64) : (c.ws r v).depth = c.depth := by unfold Ctx.ws; split <;> rfl
@[simp] theorem Ctx.ws_loops (c : Ctx) (r : Nat) (v : W64) : (c.ws r v).loops = c.loops := by unfold Ctx.ws; split <;> rfl
@[simp] theorem Ctx.ws_rrb (c : Ctx) (r : Nat) (v : W64) : (c.ws r v).rrb = c.rrb := by unfold Ctx.ws; split <;> rfl
@[simp] theorem Ctx.ws_vdep (c : Ctx) (r : Nat) (v : W64) : (c.ws r v).vdep = c.vdep := by unfold Ctx.ws; split <;> rfl
@[simp] theorem Ctx.ws_pdep (c : Ctx) (r : Nat) (v : W64) : (c.ws r v).pdep = c.pdep := by unfold Ctx.ws; split <;> rfl
@[simp] theorem Ctx.ws_rm (c : Ctx) (r : Nat) (v : W64) : (c.ws r v).rm = c.rm := by unfold Ctx.ws; split <;> rfl
@[simp] theorem Ctx.ws_ten (c : Ctx) (r : Nat) (v : W64) : (c.ws r v).ten = c.ten := by unfold Ctx.ws; split <;> rfl
@[simp] theorem Ctx.ws_flg (c : Ctx) (r : Nat) (v : W64) : (c.ws r v).flg = c.flg := by unfold Ctx.ws; split <;> rfl
@[simp] theorem Ctx.ws_psel (c : Ctx) (r : Nat) (v : W64) : (c.ws r v).psel = c.psel := by unfold Ctx.ws; split <;> rfl
@[simp] theorem Ctx.ws_gzero (c : Ctx) (r : Nat) (v : W64) : (c.ws r v).gzero = c.gzero := by unfold Ctx.ws; split <;> rfl
@[simp] theorem Ctx.ws_chk (c : Ctx) (r : Nat) (v : W64) : (c.ws r v).chk = c.chk := by unfold Ctx.ws; split <;> rfl
@[simp] theorem Ctx.ws_deadrd (c : Ctx) (r : Nat) (v : W64) : (c.ws r v).deadrd = c.deadrd := by unfold Ctx.ws; split <;> rfl
@[simp] theorem Ctx.ws_smxnan (c : Ctx) (r : Nat) (v : W64) : (c.ws r v).smxnan = c.smxnan := by unfold Ctx.ws; split <;> rfl
@[simp] theorem Ctx.ws_ncl (c : Ctx) (r : Nat) (v : W64) : (c.ws r v).ncl = c.ncl := by unfold Ctx.ws; split <;> rfl
@[simp] theorem Ctx.ws_ncs (c : Ctx) (r : Nat) (v : W64) : (c.ws r v).ncs = c.ncs := by unfold Ctx.ws; split <;> rfl
@[simp] theorem Ctx.ws_ncx (c : Ctx) (r : Nat) (v : W64) : (c.ws r v).ncx = c.ncx := by unfold Ctx.ws; split <;> rfl
@[simp] theorem Ctx.ws_ncm (c : Ctx) (r : Nat) (v : W64) : (c.ws r v).ncm = c.ncm := by unfold Ctx.ws; split <;> rfl
@[simp] theorem Ctx.ws_tokens (c : Ctx) (r : Nat) (v : W64) : (c.ws r v).tokens = c.tokens := by unfold Ctx.ws; split <;> rfl
@[simp] theorem Ctx.ws_hint (c : Ctx) (r : Nat) (v : W64) : (c.ws r v).hint = c.hint := by unfold Ctx.ws; split <;> rfl
@[simp] theorem Ctx.ws_replay (c : Ctx) (r : Nat) (v : W64) : (c.ws r v).replay = c.replay := by unfold Ctx.ws; split <;> rfl
@[simp] theorem Ctx.ws_cq (c : Ctx) (r : Nat) (v : W64) : (c.ws r v).cq = c.cq := by unfold Ctx.ws; split <;> rfl
@[simp] theorem Ctx.ws_sq (c : Ctx) (r : Nat) (v : W64) : (c.ws r v).sq = c.sq := by unfold Ctx.ws; split <;> rfl
@[simp] theorem Ctx.ws_vq (c : Ctx) (r : Nat) (v : W64) : (c.ws r v).vq = c.vq := by unfold Ctx.ws; split <;> rfl
@[simp] theorem Ctx.ws_mq (c : Ctx) (r : Nat) (v : W64) : (c.ws r v).mq = c.mq := by unfold Ctx.ws; split <;> rfl
@[simp] theorem Ctx.ws_xq (c : Ctx) (r : Nat) (v : W64) : (c.ws r v).xq = c.xq := by unfold Ctx.ws; split <;> rfl
@[simp] theorem Ctx.ws_aq (c : Ctx) (r : Nat) (v : W64) : (c.ws r v).aq = c.aq := by unfold Ctx.ws; split <;> rfl
@[simp] theorem Ctx.ws_yq (c : Ctx) (r : Nat) (v : W64) : (c.ws r v).yq = c.yq := by unfold Ctx.ws; split <;> rfl
@[simp] theorem Ctx.ws_lineSeq (c : Ctx) (r : Nat) (v : W64) : (c.ws r v).lineSeq = c.lineSeq := by unfold Ctx.ws; split <;> rfl
@[simp] theorem Ctx.ws_hold (c : Ctx) (r : Nat) (v : W64) : (c.ws r v).hold = c.hold := by unfold Ctx.ws; split <;> rfl
@[simp] theorem Ctx.ws_inflight (c : Ctx) (r : Nat) (v : W64) : (c.ws r v).inflight = c.inflight := by unfold Ctx.ws; split <;> rfl
@[simp] theorem Ctx.ws_gacc (c : Ctx) (r : Nat) (v : W64) : (c.ws r v).gacc = c.gacc := by unfold Ctx.ws; split <;> rfl
@[simp] theorem Ctx.ws_lports (c : Ctx) (r : Nat) (v : W64) : (c.ws r v).lports = c.lports := by unfold Ctx.ws; split <;> rfl
@[simp] theorem Ctx.ws_sports (c : Ctx) (r : Nat) (v : W64) : (c.ws r v).sports = c.sports := by unfold Ctx.ws; split <;> rfl
@[simp] theorem Ctx.ws_accs (c : Ctx) (r : Nat) (v : W64) : (c.ws r v).accs = c.accs := by unfold Ctx.ws; split <;> rfl
@[simp] theorem Ctx.ws_accL (c : Ctx) (r : Nat) (v : W64) : (c.ws r v).accL = c.accL := by unfold Ctx.ws; split <;> rfl
@[simp] theorem Ctx.ws_accS (c : Ctx) (r : Nat) (v : W64) : (c.ws r v).accS = c.accS := by unfold Ctx.ws; split <;> rfl
@[simp] theorem Ctx.ws_ag (c : Ctx) (r : Nat) (v : W64) : (c.ws r v).ag = c.ag := by unfold Ctx.ws; split <;> rfl
@[simp] theorem Ctx.ws_aseq (c : Ctx) (r : Nat) (v : W64) : (c.ws r v).aseq = c.aseq := by unfold Ctx.ws; split <;> rfl
@[simp] theorem Ctx.ws_cols (c : Ctx) (r : Nat) (v : W64) : (c.ws r v).cols = c.cols := by unfold Ctx.ws; split <;> rfl
@[simp] theorem Ctx.ws_outBars (c : Ctx) (r : Nat) (v : W64) : (c.ws r v).outBars = c.outBars := by unfold Ctx.ws; split <;> rfl
@[simp] theorem Ctx.ws_arrivals (c : Ctx) (r : Nat) (v : W64) : (c.ws r v).arrivals = c.arrivals := by unfold Ctx.ws; split <;> rfl
@[simp] theorem Ctx.ws_decs (c : Ctx) (r : Nat) (v : W64) : (c.ws r v).decs = c.decs := by unfold Ctx.ws; split <;> rfl
@[simp] theorem Ctx.ws_mfly (c : Ctx) (r : Nat) (v : W64) : (c.ws r v).mfly = c.mfly := by unfold Ctx.ws; split <;> rfl
@[simp] theorem Ctx.ws_yfly (c : Ctx) (r : Nat) (v : W64) : (c.ws r v).yfly = c.yfly := by unfold Ctx.ws; split <;> rfl
@[simp] theorem Ctx.ws_yseq (c : Ctx) (r : Nat) (v : W64) : (c.ws r v).yseq = c.yseq := by unfold Ctx.ws; split <;> rfl
@[simp] theorem Ctx.ws_dline (c : Ctx) (r : Nat) (v : W64) : (c.ws r v).dline = c.dline := by unfold Ctx.ws; split <;> rfl
@[simp] theorem Ctx.ws_pend (c : Ctx) (r : Nat) (v : W64) : (c.ws r v).pend = c.pend := by unfold Ctx.ws; split <;> rfl
@[simp] theorem Ctx.ws_more (c : Ctx) (r : Nat) (v : W64) : (c.ws r v).more = c.more := by unfold Ctx.ws; split <;> rfl
@[simp] theorem Ctx.ws_due (c : Ctx) (r : Nat) (v : W64) : (c.ws r v).due = c.due := by unfold Ctx.ws; split <;> rfl
@[simp] theorem Ctx.ws_yieldReq (c : Ctx) (r : Nat) (v : W64) : (c.ws r v).yieldReq = c.yieldReq := by unfold Ctx.ws; split <;> rfl
@[simp] theorem Ctx.ws_prioReq (c : Ctx) (r : Nat) (v : W64) : (c.ws r v).prioReq = c.prioReq := by unfold Ctx.ws; split <;> rfl
@[simp] theorem Ctx.ws_caps (c : Ctx) (r : Nat) (v : W64) : (c.ws r v).caps = c.caps := by unfold Ctx.ws; split <;> rfl
@[simp] theorem Ctx.ws_resume (c : Ctx) (r : Nat) (v : W64) : (c.ws r v).resume = c.resume := by unfold Ctx.ws; split <;> rfl
@[simp] theorem Ctx.ws_wd (c : Ctx) (r : Nat) (v : W64) : (c.ws r v).wd = c.wd := by unfold Ctx.ws; split <;> rfl
@[simp] theorem Ctx.ws_perf (c : Ctx) (r : Nat) (v : W64) : (c.ws r v).perf = c.perf := by unfold Ctx.ws; split <;> rfl
@[simp] theorem Ctx.ws_stall (c : Ctx) (r : Nat) (v : W64) : (c.ws r v).stall = c.stall := by unfold Ctx.ws; split <;> rfl
@[simp] theorem Ctx.ws_lastIssue (c : Ctx) (r : Nat) (v : W64) : (c.ws r v).lastIssue = c.lastIssue := by unfold Ctx.ws; split <;> rfl
@[simp] theorem Ctx.ws_nextIss (c : Ctx) (r : Nat) (v : W64) : (c.ws r v).nextIss = c.nextIss := by unfold Ctx.ws; split <;> rfl

end Sys2Proof.Machine
end

