-- ==== Sys2Proof/Laws/Table.lean ====
section
/-! SUPPORT. The laws of sparse tables: what a read finds after a write. -/

namespace Sys2Proof.Machine

theorem Tab.get_drop_same {α : Type} (d : α) (t : Tab α) (k : Nat) :
    Tab.get d (t.filter fun x => x.1 != k) k = d := by
  induction t with
  | nil => rfl
  | cons x r ih =>
    by_cases h : x.1 = k
    · simp [h, ih]
    · rw [List.filter_cons_of_pos (by simpa using h)]
      simp [Tab.get, h, ih]

theorem Tab.get_drop_other {α : Type} (d : α) (t : Tab α) {k j : Nat} (hj : j ≠ k) :
    Tab.get d (t.filter fun x => x.1 != k) j = Tab.get d t j := by
  induction t with
  | nil => rfl
  | cons x r ih =>
    by_cases h : x.1 = k
    · rw [List.filter_cons_of_neg (by simp [h])]
      simp [Tab.get, ih, h, Ne.symm hj]
    · rw [List.filter_cons_of_pos (by simpa using h)]
      simp [Tab.get, ih]

theorem Tab.get_ins_other {α : Type} (d : α) (t : Tab α) {k j : Nat} (v : α) (hj : j ≠ k) :
    Tab.get d (Tab.ins t k v) j = Tab.get d t j := by
  induction t with
  | nil => simp [Tab.ins, Tab.get, Ne.symm hj]
  | cons x r ih =>
    simp only [Tab.ins]
    split
    · simp [Tab.get, Ne.symm hj]
    · simp [Tab.get, ih]

theorem Tab.get_ins_same {α : Type} (d : α) (t : Tab α) (k : Nat) (v : α) (h : ∀ x ∈ t, x.1 ≠ k) :
    Tab.get d (Tab.ins t k v) k = v := by
  induction t with
  | nil => simp [Tab.ins, Tab.get]
  | cons x r ih =>
    simp only [Tab.ins]
    split
    · simp [Tab.get]
    · simp [Tab.get, h x (by simp), ih fun y hy => h y (by simp [hy])]

/-- A table gives back what was written. -/
@[simp] theorem Tab.get_put_same {α : Type} [DecidableEq α] (d : α) (t : Tab α) (k : Nat) (v : α) :
    Tab.get d (Tab.put d t k v) k = v := by
  unfold Tab.put
  split
  · rename_i h; rw [Tab.get_drop_same, h]
  · exact Tab.get_ins_same d _ k v (by simp)

/-- A write leaves every other entry. -/
theorem Tab.get_put_other {α : Type} [DecidableEq α] (d : α) (t : Tab α) {k j : Nat} (v : α) (hj : j ≠ k) :
    Tab.get d (Tab.put d t k v) j = Tab.get d t j := by
  unfold Tab.put
  split
  · exact Tab.get_drop_other d t hj
  · rw [Tab.get_ins_other d _ v hj, Tab.get_drop_other d t hj]

end Sys2Proof.Machine
end

