-- ==== Sys2Proof/Tests/Slice0.lean ====
section
/-! SUPPORT. Tests: words written out from the encoding tables (their decoding), ill-formed terms that each check of WellFormed refuses,
values of the spec's examples and tables, and for each statement states that meet its hypotheses. -/

/-- A scalar register set. -/
def Sys2Proof.Machine.State.sr (s : Sys2Proof.Machine.State) (r : Nat) (v : Sys2Proof.W64) : Sys2Proof.Machine.State := { s with cx := { s.cx with s := s.cx.s.setIfInBounds r v } }
/-- A vector register set. -/
def Sys2Proof.Machine.State.vr (s : Sys2Proof.Machine.State) (r : Nat) (d : Sys2Proof.VData) (sc : Sys2Proof.W32) : Sys2Proof.Machine.State := { s with cx := { s.cx with v := s.cx.v.setIfInBounds r ⟨d, sc⟩ } }

namespace Sys2Proof.Tests

set_option Elab.async false

section Words

open Sys2Proof

/-! ## Decodings: the words stand beside the instructions they encode -/

theorem test_decode_C1 : ([
    (0x02000000, [], .nop { g := 2 }),
    (0x06000005, [], .br { g := 2, off := 5 }),
    (0x0A000005, [], .call { g := 2, off := 5 }),
    (0x0E042000, [], .callr { g := 2, d := 1, a := 2, b := 0, f := 0 }),
    (0x12000000, [], .ret { g := 2 }),
    (0x16002000, [], .brr { g := 2, d := 0, a := 2, b := 0, f := 0 }),
    (0x1A088005, [], .bc { g := 2, a := 2, cc := 1, off := 5 }),
    (0x1E083205, [], .bcr { g := 2, a := 2, b := 3, cc := 1, off := 5 }),
    (0x20080000, [], .loop { g := 0, a := 2, bx := 0, by' := 0, n := 0, x := [] }),
    (0x24000005, [], .lend { g := 0, off := 5 }),
    (0x28000005, [], .lbrk { g := 0, off := 5 }),
    (0x2C000005, [], .lcont { g := 0, off := 5 })] : List (W32 × List W32 × Instr)).all
      (fun p => decode .c p.1 p.2.1 == .ok p.2.2) = true := by decide +kernel

theorem test_decode_C2 : ([
    (0x32044080, [], .lrd { g := 2, d := 1, a := 4, b := 2, f := 0 }),
    (0x36000000, [], .btok { g := 2 }),
    (0x20094010, [0x8], .loopBound { g := 0, a := 2, bx := 20, by' := 0, n := 1, x := [0x8] }),
    (0x420420C4, [], .wait { g := 2, ncl := 1, ncs := 2, ncx := 3, ncm := 4 }),
    (0x46448000, [], .fence { g := 2, scope := 2, cls := 9, id := 0 }),
    (0x4A400C00, [], .bar { g := 2, scope := 2, cls := 0, id := 6 }),
    (0x4E400C00, [], .barv { g := 2, scope := 2, cls := 0, id := 6 }),
    (0x52400C00, [], .barw { g := 2, scope := 2, cls := 0, id := 6 }),
    (0x56400C00, [], .sstep { g := 2, scope := 2, cls := 0, id := 6 }),
    (0x62042005, [], .setm { g := 2, d := 1, a := 2, num := 5 }),
    (0x66300000, [0x30001, 0x2], .phint { g := 2, sr := 3, e1 := 0x30001, e2 := 2 }),
    (0x6A000000, [], .resume { g := 2 })] : List (W32 × List W32 × Instr)).all
      (fun p => decode .c p.1 p.2.1 == .ok p.2.2) = true := by decide +kernel

theorem test_decode_C3 : ([
    (0x6E000000, [], .exit { g := 2 }),
    (0x72000000, [], .cede { g := 2 })] : List (W32 × List W32 × Instr)).all
      (fun p => decode .c p.1 p.2.1 == .ok p.2.2) = true := by decide +kernel

theorem test_decode_S1 : ([
    (0x020420C0, [], .add { g := 2, d := 1, a := 2, b := 3, f := 0 }),
    (0x060420C0, [], .sub { g := 2, d := 1, a := 2, b := 3, f := 0 }),
    (0x0A0420C0, [], .mul { g := 2, d := 1, a := 2, b := 3, f := 0 }),
    (0x0E0420C0, [], .mulh { g := 2, d := 1, a := 2, b := 3, f := 0 }),
    (0x120420C0, [], .mulhu { g := 2, d := 1, a := 2, b := 3, f := 0 }),
    (0x160420C0, [], .div { g := 2, d := 1, a := 2, b := 3, f := 0 }),
    (0x1A0420C0, [], .divu { g := 2, d := 1, a := 2, b := 3, f := 0 }),
    (0x1E0420C0, [], .rem { g := 2, d := 1, a := 2, b := 3, f := 0 }),
    (0x220420C0, [], .remu { g := 2, d := 1, a := 2, b := 3, f := 0 }),
    (0x260420C0, [], .and { g := 2, d := 1, a := 2, b := 3, f := 0 }),
    (0x2A0420C0, [], .or { g := 2, d := 1, a := 2, b := 3, f := 0 }),
    (0x2E0420C0, [], .xor { g := 2, d := 1, a := 2, b := 3, f := 0 })] : List (W32 × List W32 × Instr)).all
      (fun p => decode .s p.1 p.2.1 == .ok p.2.2) = true := by decide +kernel

theorem test_decode_S2 : ([
    (0x320420C0, [], .sll { g := 2, d := 1, a := 2, b := 3, f := 0 }),
    (0x360420C0, [], .srl { g := 2, d := 1, a := 2, b := 3, f := 0 }),
    (0x3A0420C0, [], .sra { g := 2, d := 1, a := 2, b := 3, f := 0 }),
    (0x3E0420C0, [], .min { g := 2, d := 1, a := 2, b := 3, f := 0 }),
    (0x420420C0, [], .max { g := 2, d := 1, a := 2, b := 3, f := 0 }),
    (0x460420C0, [], .minu { g := 2, d := 1, a := 2, b := 3, f := 0 }),
    (0x4A0420C0, [], .maxu { g := 2, d := 1, a := 2, b := 3, f := 0 }),
    (0x4E0420C5, [], .cmp { g := 2, d := 1, a := 2, b := 3, f := 5 }),
    (0x520420C9, [], .sel { g := 2, d := 1, a := 2, b := 3, f := 9 }),
    (0x56042000, [], .popc { g := 2, d := 1, a := 2, b := 0, f := 0 }),
    (0x5A042000, [], .clz { g := 2, d := 1, a := 2, b := 0, f := 0 }),
    (0x5E042000, [], .ctz { g := 2, d := 1, a := 2, b := 0, f := 0 })] : List (W32 × List W32 × Instr)).all
      (fun p => decode .s p.1 p.2.1 == .ok p.2.2) = true := by decide +kernel

theorem test_decode_S3 : ([
    (0x620420C0, [], .ppopc { g := 2, d := 1, a := 2, b := 3, f := 0 }),
    (0x6604220F, [], .dep { g := 2, d := 1, a := 2, b := 8, f := 15 }),
    (0x6A04220F, [], .ext { g := 2, d := 1, a := 2, b := 8, f := 15 }),
    (0x6E04220F, [], .exts { g := 2, d := 1, a := 2, b := 8, f := 15 }),
    (0x720420CC, [], .fadd { g := 2, d := 1, a := 2, b := 3, f := 12 }),
    (0x760420CC, [], .fsub { g := 2, d := 1, a := 2, b := 3, f := 12 }),
    (0x7A0420CC, [], .fmul { g := 2, d := 1, a := 2, b := 3, f := 12 }),
    (0x7E0420CC, [], .fdiv { g := 2, d := 1, a := 2, b := 3, f := 12 }),
    (0x820420CC, [], .fma { g := 2, d := 1, a := 2, b := 3, f := 12 }),
    (0x860420C8, [], .fmin { g := 2, d := 1, a := 2, b := 3, f := 8 }),
    (0x8A0420C8, [], .fmax { g := 2, d := 1, a := 2, b := 3, f := 8 }),
    (0x8E0420CB, [], .fcmp { g := 2, d := 1, a := 2, b := 3, f := 11 })] : List (W32 × List W32 × Instr)).all
      (fun p => decode .s p.1 p.2.1 == .ok p.2.2) = true := by decide +kernel

theorem test_decode_S4 : ([
    (0x92042011, [], .fcvt { g := 2, d := 1, a := 2, b := 0, f := 17 }),
    (0x96042000, [], .amaxx { g := 2, d := 1, a := 2, b := 0, f := 0 }),
    (0xA2042007, [0x9], .addi { g := 2, d := 1, a := 2, imm := 7, x := [0x9] }),
    (0xA6042007, [], .andi { g := 2, d := 1, a := 2, imm := 7, x := [] }),
    (0xAA042007, [], .ori { g := 2, d := 1, a := 2, imm := 7, x := [] }),
    (0xAE042007, [], .xori { g := 2, d := 1, a := 2, imm := 7, x := [] }),
    (0xB204203F, [], .slli { g := 2, d := 1, a := 2, imm := 63, x := [] }),
    (0xB604203F, [], .srli { g := 2, d := 1, a := 2, imm := 63, x := [] }),
    (0xBA04203F, [], .srai { g := 2, d := 1, a := 2, imm := 63, x := [] }),
    (0xC2042C05, [], .gld { g := 2, d := 1, a := 2, sz := 6, off := 5, x := [] }),
    (0xC6042405, [], .gst { g := 2, d := 1, a := 2, sz := 2, off := 5, x := [] }),
    (0xCA0420EC, [], .gatom { g := 2, d := 1, a := 2, b := 3, f := 44 })] : List (W32 × List W32 × Instr)).all
      (fun p => decode .s p.1 p.2.1 == .ok p.2.2) = true := by decide +kernel

theorem test_decode_V1 : ([
    (0x02C10E40, [0x3f000000], .vadd { g := 2, d := 48, a := 16, b := 57, t := 0, fzi := false, fzo := false, p := false, x := [0x3f000000] }),
    (0x060420C0, [], .vsub { g := 2, d := 1, a := 2, b := 3, t := 0, fzi := false, fzo := false, p := false, x := [] }),
    (0x0A0420C0, [], .vmul { g := 2, d := 1, a := 2, b := 3, t := 0, fzi := false, fzo := false, p := false, x := [] }),
    (0x0E0420C0, [], .vfma { g := 2, d := 1, a := 2, b := 3, t := 0, fzi := false, fzo := false, p := false, x := [] }),
    (0x120420C0, [], .vfnma { g := 2, d := 1, a := 2, b := 3, t := 0, fzi := false, fzo := false, p := false, x := [] }),
    (0x160420C0, [], .vdiv { g := 2, d := 1, a := 2, b := 3, t := 0, fzi := false, fzo := false, p := false, x := [] }),
    (0x1A0420C0, [], .vmin { g := 2, d := 1, a := 2, b := 3, t := 0, fzi := false, fzo := false, p := false, x := [] }),
    (0x1E0420C0, [], .vmax { g := 2, d := 1, a := 2, b := 3, t := 0, fzi := false, fzo := false, p := false, x := [] }),
    (0x22042E08, [], .vabs { g := 2, d := 1, a := 2, b := 56, t := 1, fzi := false, fzo := false, p := false, x := [] }),
    (0x26042E08, [], .vneg { g := 2, d := 1, a := 2, b := 56, t := 1, fzi := false, fzo := false, p := false, x := [] }),
    (0x2A042E08, [], .vsqrt { g := 2, d := 1, a := 2, b := 56, t := 1, fzi := false, fzo := false, p := false, x := [] }),
    (0x2E042E08, [], .vrsqrt { g := 2, d := 1, a := 2, b := 56, t := 1, fzi := false, fzo := false, p := false, x := [] })] : List (W32 × List W32 × Instr)).all
      (fun p => decode .v p.1 p.2.1 == .ok p.2.2) = true := by decide +kernel

theorem test_decode_V2 : ([
    (0x32042E08, [], .vrcp { g := 2, d := 1, a := 2, b := 56, t := 1, fzi := false, fzo := false, p := false, x := [] }),
    (0x36042E08, [], .vexp2 { g := 2, d := 1, a := 2, b := 56, t := 1, fzi := false, fzo := false, p := false, x := [] }),
    (0x3A042E08, [], .vlog2 { g := 2, d := 1, a := 2, b := 56, t := 1, fzi := false, fzo := false, p := false, x := [] }),
    (0x3E042E08, [], .vexp { g := 2, d := 1, a := 2, b := 56, t := 1, fzi := false, fzo := false, p := false, x := [] }),
    (0x42042E08, [], .vtanh { g := 2, d := 1, a := 2, b := 56, t := 1, fzi := false, fzo := false, p := false, x := [] }),
    (0x46042E08, [], .vsigm { g := 2, d := 1, a := 2, b := 56, t := 1, fzi := false, fzo := false, p := false, x := [] }),
    (0x4A042E08, [], .vsilu { g := 2, d := 1, a := 2, b := 56, t := 1, fzi := false, fzo := false, p := false, x := [] }),
    (0x4E0420E8, [], .vand { g := 2, d := 1, a := 2, b := 3, t := 5, fzi := false, fzo := false, p := false, x := [] }),
    (0x520420C0, [], .vor { g := 2, d := 1, a := 2, b := 3, t := 0, fzi := false, fzo := false, p := false, x := [] }),
    (0x560420C0, [], .vxor { g := 2, d := 1, a := 2, b := 3, t := 0, fzi := false, fzo := false, p := false, x := [] }),
    (0x5A0420E8, [], .vshl { g := 2, d := 1, a := 2, b := 3, t := 5, fzi := false, fzo := false, p := false, x := [] }),
    (0x5E0420E8, [], .vshr { g := 2, d := 1, a := 2, b := 3, t := 5, fzi := false, fzo := false, p := false, x := [] })] : List (W32 × List W32 × Instr)).all
      (fun p => decode .v p.1 p.2.1 == .ok p.2.2) = true := by decide +kernel

theorem test_decode_V3 : ([
    (0x623420C0, [], .vcmp { g := 2, pd := 3, cc := 1, a := 2, b := 3, t := 0, fzi := false, p := false, x := [] }),
    (0x66342E00, [], .vclass { g := 2, pd := 3, cc := 1, a := 2, b := 56, t := 0, fzi := false, p := false, x := [] }),
    (0x6A0420C0, [], .vsel { g := 2, d := 1, a := 2, b := 3, t := 0, fzi := false, fzo := false, p := false, x := [] }),
    (0x6E042040, [], .vcvt { g := 2, d := 1, a := 2, s := 1, t := 0, fzi := false, fzo := false, p := false, x := [] }),
    (0x72042018, [], .vquant { g := 2, d := 1, a := 2, s := 0, t := 3, fzi := false, fzo := false, p := false, x := [] }),
    (0x760420C0, [], .vdequant { g := 2, d := 1, a := 2, s := 3, t := 0, fzi := false, fzo := false, p := false, x := [] }),
    (0x7A0780D8, [], .vsetsc { g := 2, d := 1, a := 56, b := 3, t := 3, fzi := false, fzo := false, p := false, x := [] }),
    (0x7E042018, [], .vgetsc { g := 2, d := 1, a := 2, b := 0, t := 3, fzi := false, fzo := false, p := false, x := [] }),
    (0x82042E08, [], .vredsum { g := 2, d := 1, a := 2, b := 56, t := 1, fzi := false, fzo := false, p := false, x := [] }),
    (0x86042E08, [], .vredmax { g := 2, d := 1, a := 2, b := 56, t := 1, fzi := false, fzo := false, p := false, x := [] }),
    (0x8A042E08, [], .vredmin { g := 2, d := 1, a := 2, b := 56, t := 1, fzi := false, fzo := false, p := false, x := [] }),
    (0x8E042E08, [], .vredamax { g := 2, d := 1, a := 2, b := 56, t := 1, fzi := false, fzo := false, p := false, x := [] })] : List (W32 × List W32 × Instr)).all
      (fun p => decode .v p.1 p.2.1 == .ok p.2.2) = true := by decide +kernel

theorem test_decode_V4 : ([
    (0x92042E08, [], .vscan { g := 2, d := 1, a := 2, b := 56, t := 1, fzi := false, fzo := false, p := false, x := [] }),
    (0x96042E08, [], .vscanmax { g := 2, d := 1, a := 2, b := 56, t := 1, fzi := false, fzo := false, p := false, x := [] }),
    (0x9A0420C0, [], .vperm { g := 2, d := 1, a := 2, b := 3, t := 0, fzi := false, fzo := false, p := false, x := [] }),
    (0x9E0420C0, [], .vbcast { g := 2, d := 1, a := 2, b := 3, t := 0, fzi := false, fzo := false, p := false, x := [] }),
    (0xA20420C0, [], .vins { g := 2, d := 1, a := 2, b := 3, t := 0, fzi := false, fzo := false, p := false, x := [] }),
    (0xA60420C0, [], .vext { g := 2, d := 1, a := 2, b := 3, t := 0, fzi := false, fzo := false, p := false, x := [] }),
    (0xAA0420C0, [], .vzip { g := 2, d := 1, a := 2, b := 3, t := 0, fzi := false, fzo := false, p := false, x := [] }),
    (0xAE0420C0, [], .vunzip { g := 2, d := 1, a := 2, b := 3, t := 0, fzi := false, fzo := false, p := false, x := [] }),
    (0xB20420C0, [], .vsmx { g := 2, d := 1, a := 2, b := 3, t := 0, fzi := false, fzo := false, p := false, x := [] }),
    (0xB6540000, [0x4], .vtok { g := 2, p := 5, mode := 1, e := 4 }),
    (0xBA042E08, [], .vmov { g := 2, d := 1, a := 2, b := 56, t := 1, fzi := false, fzo := false, p := false, x := [] }),
    (0xBE078E28, [], .viota { g := 2, d := 1, a := 56, b := 56, t := 5, fzi := false, fzo := false, p := false, x := [] })] : List (W32 × List W32 × Instr)).all
      (fun p => decode .v p.1 p.2.1 == .ok p.2.2) = true := by decide +kernel

theorem test_decode_V5 : ([
    (0xC2345200, [], .vplog { g := 2, pd := 3, pa := 4, pb := 5, op := 2, sd := 0 }),
    (0xC6045007, [], .vpcnt { g := 2, pd := 0, pa := 4, pb := 5, op := 0, sd := 7 })] : List (W32 × List W32 × Instr)).all
      (fun p => decode .v p.1 p.2.1 == .ok p.2.2) = true := by decide +kernel

theorem test_decode_M1 : ([
    (0x020420C1, [], .mldb { g := 2, d := 1, a := 2, b := 3, f := 1 }),
    (0x060420C0, [], .mma { g := 2, d := 1, a := 2, b := 3, f := 0 }),
    (0x0A042000, [], .mmacro { g := 2, d := 1, a := 2, b := 0, f := 0 }),
    (0x0E0420CD, [], .mdrain { g := 2, d := 1, a := 2, b := 3, f := 13 }),
    (0x12040001, [], .mzero { g := 2, d := 1, a := 0, b := 0, f := 1 }),
    (0x16002000, [], .mrowf { g := 2, d := 0, a := 2, b := 0, f := 0 }),
    (0x1A0400C0, [], .mscan { g := 2, d := 1, a := 0, b := 3, f := 0 }),
    (0x1E000007, [], .mrel { g := 2, d := 0, a := 0, b := 0, f := 7 }),
    (0x22040001, [], .mmode { g := 2, d := 1, a := 0, b := 0, f := 1 }),
    (0x260420C1, [], .mgain { g := 2, d := 1, a := 2, b := 3, f := 1 }),
    (0x2A0420C1, [], .mcarry { g := 2, d := 1, a := 2, b := 3, f := 1 }),
    (0x2E042000, [], .mmask { g := 2, d := 1, a := 2, b := 0, f := 0 })] : List (W32 × List W32 × Instr)).all
      (fun p => decode .m p.1 p.2.1 == .ok p.2.2) = true := by decide +kernel

theorem test_decode_M2 : ([
    (0x32042140, [], .mstat { g := 2, d := 1, a := 2, b := 5, f := 0 }),
    (0x420420C1, [], .dmvld { g := 2, d := 1, a := 2, b := 3, f := 1 }),
    (0x460420C5, [], .dmv { g := 2, d := 1, a := 2, b := 3, f := 5 }),
    (0x4A0420C4, [], .dmdrain { g := 2, d := 1, a := 2, b := 3, f := 4 }),
    (0x4E040000, [], .dmzero { g := 2, d := 1, a := 0, b := 0, f := 0 }),
    (0x520400C0, [], .dmstep { g := 2, d := 1, a := 0, b := 3, f := 0 })] : List (W32 × List W32 × Instr)).all
      (fun p => decode .m p.1 p.2.1 == .ok p.2.2) = true := by decide +kernel

theorem test_decode_X1 : ([
    (0x020420C0, [], .xcopy { g := 2, d := 1, a := 2, b := 3, f := 0 }),
    (0x060420C4, [], .xcopy2d { g := 2, d := 1, a := 2, b := 3, f := 4 }),
    (0x0A0420C4, [], .xgath { g := 2, d := 1, a := 2, b := 3, f := 4 }),
    (0x0E0420C4, [], .xscat { g := 2, d := 1, a := 2, b := 3, f := 4 }),
    (0x120420C4, [], .xmcast { g := 2, d := 1, a := 2, b := 3, f := 4 }),
    (0x16042001, [], .xsend { g := 2, d := 1, a := 2, b := 0, f := 1 }),
    (0x1A0420C3, [], .xred { g := 2, d := 1, a := 2, b := 3, f := 3 }),
    (0x1E0420C1, [], .xredmax { g := 2, d := 1, a := 2, b := 3, f := 1 }),
    (0x220420C0, [], .xshadOpen { g := 2, d := 1, a := 2, b := 3, f := 0 }),
    (0x26002000, [], .xpub { g := 2, d := 0, a := 2, b := 0, f := 0 }),
    (0x2A002000, [], .xkvapp { g := 2, d := 0, a := 2, b := 0, f := 0 }),
    (0x2E0420C0, [], .xplan { g := 2, d := 1, a := 2, b := 3, f := 0 })] : List (W32 × List W32 × Instr)).all
      (fun p => decode .x p.1 p.2.1 == .ok p.2.2) = true := by decide +kernel

theorem test_decode_X2 : ([
    (0x320420C0, [], .xfill { g := 2, d := 1, a := 2, b := 3, f := 0 }),
    (0x360400C0, [], .xwipe { g := 2, d := 1, a := 0, b := 3, f := 0 }),
    (0x3A042012, [], .xsig { g := 2, d := 1, a := 2, b := 0, f := 18 }),
    (0x22002001, [], .xshadDiscard { g := 2, d := 0, a := 2, b := 0, f := 1 }),
    (0x22002002, [], .xshadUnreg { g := 2, d := 0, a := 2, b := 0, f := 2 }),
    (0xE20420C4, [], .xnred { g := 2, d := 1, a := 2, b := 3, f := 4 }),
    (0xE60420C4, [], .xnamax { g := 2, d := 1, a := 2, b := 3, f := 4 }),
    (0xEA0420C0, [], .xnclone { g := 2, d := 1, a := 2, b := 3, f := 0 }),
    (0xEE0420C0, [], .xncomp { g := 2, d := 1, a := 2, b := 3, f := 0 }),
    (0xF20420C1, [], .xncrc { g := 2, d := 1, a := 2, b := 3, f := 1 }),
    (0xF60400C0, [], .xnwipe { g := 2, d := 1, a := 0, b := 3, f := 0 }),
    (0xFA042000, [], .xnstat { g := 2, d := 1, a := 2, b := 0, f := 0 })] : List (W32 × List W32 × Instr)).all
      (fun p => decode .x p.1 p.2.1 == .ok p.2.2) = true := by decide +kernel

theorem test_decode_X3 : ([
    (0xFE0420C0, [], .xnscale { g := 2, d := 1, a := 2, b := 3, f := 0 })] : List (W32 × List W32 × Instr)).all
      (fun p => decode .x p.1 p.2.1 == .ok p.2.2) = true := by decide +kernel

theorem test_decode_A1 : ([
    (0x02042140, [], .agset { g := 2, d := 1, a := 2, b := 5, f := 0 }),
    (0x06042000, [], .agld { g := 2, d := 1, a := 2, b := 0, f := 0 }),
    (0x0A042000, [], .agst { g := 2, d := 1, a := 2, b := 0, f := 0 }),
    (0x0E002000, [], .agstop { g := 2, d := 0, a := 2, b := 0, f := 0 }),
    (0x120421C0, [], .aget { g := 2, d := 1, a := 2, b := 7, f := 0 }),
    (0x22042000, [], .ldv { g := 2, d := 1, a := 2, b := 0, f := 0 }),
    (0x26042000, [], .stv { g := 2, d := 1, a := 2, b := 0, f := 0 }),
    (0x2A042140, [], .lds { g := 2, d := 1, a := 2, b := 5, f := 0 }),
    (0x2E042180, [], .sts { g := 2, d := 1, a := 2, b := 6, f := 0 }),
    (0x42000000, [], .amark { g := 2 }),
    (0x461820C0, [], .spfmt { g := 2, d := 6, a := 2, b := 3, f := 0 }),
    (0x4A0420CC, [], .atom { g := 2, d := 1, a := 2, b := 3, f := 12 })] : List (W32 × List W32 × Instr)).all
      (fun p => decode .a p.1 p.2.1 == .ok p.2.2) = true := by decide +kernel

theorem test_decode_A2 : ([
    (0x62042000, [], .amovToA { g := 2, d := 1, a := 2, b := 0, f := 0 }),
    (0x66042FFF, [], .aadd { g := 2, d := 1, a := 2, imm := 4095, x := [] }),
    (0x62042040, [], .amovToS { g := 2, d := 1, a := 2, b := 1, f := 0 })] : List (W32 × List W32 × Instr)).all
      (fun p => decode .a p.1 p.2.1 == .ok p.2.2) = true := by decide +kernel

theorem test_decode_Y1 : ([
    (0x02040027, [], .ycsrr { g := 2, d := 1, a := 0, num := 39 }),
    (0x06042010, [], .ycsrw { g := 2, d := 1, a := 2, num := 16 }),
    (0x0A042010, [], .ycsrs { g := 2, d := 1, a := 2, num := 16 }),
    (0x0E042010, [], .ycsrc { g := 2, d := 1, a := 2, num := 16 }),
    (0x12002006, [], .ytrap { g := 2, d := 0, a := 2, num := 6 }),
    (0x160020C0, [], .ysig { g := 2, d := 0, a := 2, b := 3, f := 0 }),
    (0x1A042000, [], .yperf { g := 2, d := 1, a := 2, b := 0, f := 0 }),
    (0x220020C0, [], .ytlbi { g := 2, d := 0, a := 2, b := 3, f := 0 }),
    (0x260420C0, [], .yprobe { g := 2, d := 1, a := 2, b := 3, f := 0 }),
    (0x2A0420C0, [], .ygen { g := 2, d := 1, a := 2, b := 3, f := 0 }),
    (0x320420C5, [], .ytqs { g := 2, d := 1, a := 2, b := 3, f := 5 }),
    (0x360420C4, [], .ytqr { g := 2, d := 1, a := 2, b := 3, f := 4 })] : List (W32 × List W32 × Instr)).all
      (fun p => decode .y p.1 p.2.1 == .ok p.2.2) = true := by decide +kernel

theorem test_decode_Y2 : ([
    (0x420420C0, [], .ysave { g := 2, d := 1, a := 2, b := 3, f := 0 }),
    (0x46002000, [], .yrest { g := 2, d := 0, a := 2, b := 0, f := 0 }),
    (0x4A000000, [], .yswap { g := 2, d := 0, a := 0, b := 0, f := 0 }),
    (0x4E0400C0, [], .yctx { g := 2, d := 1, a := 0, b := 3, f := 0 })] : List (W32 × List W32 × Instr)).all
      (fun p => decode .y p.1 p.2.1 == .ok p.2.2) = true := by decide +kernel

/-! ## Ill-formed terms -/

theorem test_illformed_1 : ([
    .callr { g := 2, d := 1, a := 2, b := 1, f := 0 },
    .callr { g := 2, d := 1, a := 2, b := 0, f := 1 },
    .popc { g := 2, d := 1, a := 2, b := 1, f := 0 },
    .popc { g := 2, d := 1, a := 2, b := 0, f := 1 },
    .clz { g := 2, d := 1, a := 2, b := 1, f := 0 },
    .clz { g := 2, d := 1, a := 2, b := 0, f := 1 },
    .ctz { g := 2, d := 1, a := 2, b := 1, f := 0 },
    .ctz { g := 2, d := 1, a := 2, b := 0, f := 1 },
    .amaxx { g := 2, d := 1, a := 2, b := 1, f := 0 },
    .amaxx { g := 2, d := 1, a := 2, b := 0, f := 1 },
    .xnstat { g := 2, d := 1, a := 2, b := 1, f := 0 },
    .xnstat { g := 2, d := 1, a := 2, b := 0, f := 1 },
    .agld { g := 2, d := 1, a := 2, b := 1, f := 0 },
    .agld { g := 2, d := 1, a := 2, b := 0, f := 1 },
    .agst { g := 2, d := 1, a := 2, b := 1, f := 0 },
    .agst { g := 2, d := 1, a := 2, b := 0, f := 1 },
    .ldv { g := 2, d := 1, a := 2, b := 1, f := 0 },
    .ldv { g := 2, d := 1, a := 2, b := 0, f := 1 },
    .stv { g := 2, d := 1, a := 2, b := 1, f := 0 },
    .stv { g := 2, d := 1, a := 2, b := 0, f := 1 },
    .amovToA { g := 2, d := 1, a := 2, b := 1, f := 0 },
    .amovToA { g := 2, d := 1, a := 2, b := 0, f := 1 },
    .yperf { g := 2, d := 1, a := 2, b := 1, f := 0 },
    .yperf { g := 2, d := 1, a := 2, b := 0, f := 1 },
    .brr { g := 2, d := 1, a := 2, b := 0, f := 0 },
    .brr { g := 2, d := 0, a := 2, b := 1, f := 0 },
    .brr { g := 2, d := 0, a := 2, b := 0, f := 1 },
    .mrowf { g := 2, d := 1, a := 2, b := 0, f := 0 },
    .mrowf { g := 2, d := 0, a := 2, b := 1, f := 0 },
    .mrowf { g := 2, d := 0, a := 2, b := 0, f := 1 }] : List Instr).all (fun i => !wf i) = true := by decide +kernel

theorem test_illformed_2 : ([
    .xpub { g := 2, d := 1, a := 2, b := 0, f := 0 },
    .xpub { g := 2, d := 0, a := 2, b := 1, f := 0 },
    .xpub { g := 2, d := 0, a := 2, b := 0, f := 1 },
    .xkvapp { g := 2, d := 1, a := 2, b := 0, f := 0 },
    .xkvapp { g := 2, d := 0, a := 2, b := 1, f := 0 },
    .xkvapp { g := 2, d := 0, a := 2, b := 0, f := 1 },
    .agstop { g := 2, d := 1, a := 2, b := 0, f := 0 },
    .agstop { g := 2, d := 0, a := 2, b := 1, f := 0 },
    .agstop { g := 2, d := 0, a := 2, b := 0, f := 1 },
    .yrest { g := 2, d := 1, a := 2, b := 0, f := 0 },
    .yrest { g := 2, d := 0, a := 2, b := 1, f := 0 },
    .yrest { g := 2, d := 0, a := 2, b := 0, f := 1 },
    .bc { g := 2, a := 2, cc := 6, off := 5 },
    .bcr { g := 2, a := 2, b := 3, cc := 6, off := 5 },
    .loop { g := 1, a := 2, bx := 0, by' := 0, n := 0, x := [] },
    .loop { g := 0, a := 2, bx := 5, by' := 0, n := 0, x := [] },
    .loop { g := 0, a := 2, bx := 0, by' := 5, n := 0, x := [] },
    .loop { g := 0, a := 2, bx := 0, by' := 0, n := 1, x := [] },
    .loop { g := 0, a := 2, bx := 0, by' := 0, n := 0, x := [0x0] },
    .loop { g := 0, a := 2, bx := 0, by' := 0, n := 3, x := [] },
    .loopBound { g := 1, a := 2, bx := 20, by' := 0, n := 1, x := [0x8] },
    .loopBound { g := 0, a := 2, bx := 0, by' := 0, n := 1, x := [0x8] },
    .loopBound { g := 0, a := 2, bx := 20, by' := 5, n := 1, x := [0x8] },
    .loopBound { g := 0, a := 2, bx := 20, by' := 0, n := 1, x := [] },
    .loopBound { g := 0, a := 2, bx := 20, by' := 0, n := 1, x := [0x10000] },
    .loopBound { g := 0, a := 2, bx := 20, by' := 20, n := 2, x := [0x8] },
    .loopBound { g := 0, a := 2, bx := 20, by' := 0, n := 2, x := [0x8] },
    .loopBound { g := 0, a := 2, bx := 0, by' := 0, n := 0, x := [] },
    .lend { g := 3, off := 5 },
    .lbrk { g := 3, off := 5 }] : List Instr).all (fun i => !wf i) = true := by decide +kernel

theorem test_illformed_3 : ([
    .lcont { g := 3, off := 5 },
    .lrd { g := 2, d := 1, a := 6, b := 2, f := 0 },
    .lrd { g := 2, d := 1, a := 4, b := 3, f := 0 },
    .lrd { g := 2, d := 1, a := 4, b := 2, f := 1 },
    .fence { g := 2, scope := 5, cls := 9, id := 0 },
    .fence { g := 2, scope := 2, cls := 0, id := 0 },
    .fence { g := 2, scope := 2, cls := 9, id := 1 },
    .bar { g := 2, scope := 2, cls := 1, id := 6 },
    .bar { g := 2, scope := 0, cls := 0, id := 6 },
    .bar { g := 2, scope := 4, cls := 0, id := 6 },
    .barv { g := 2, scope := 2, cls := 1, id := 6 },
    .barv { g := 2, scope := 0, cls := 0, id := 6 },
    .barv { g := 2, scope := 4, cls := 0, id := 6 },
    .barw { g := 2, scope := 2, cls := 1, id := 6 },
    .barw { g := 2, scope := 0, cls := 0, id := 6 },
    .barw { g := 2, scope := 4, cls := 0, id := 6 },
    .sstep { g := 2, scope := 2, cls := 1, id := 6 },
    .sstep { g := 2, scope := 0, cls := 0, id := 6 },
    .sstep { g := 2, scope := 4, cls := 0, id := 6 },
    .setm { g := 2, d := 1, a := 2, num := 8 },
    .setm { g := 2, d := 1, a := 2, num := 2 },
    .add { g := 2, d := 1, a := 2, b := 3, f := 1 },
    .div { g := 2, d := 1, a := 2, b := 3, f := 1 },
    .sra { g := 2, d := 1, a := 2, b := 3, f := 1 },
    .maxu { g := 2, d := 1, a := 2, b := 3, f := 1 },
    .ppopc { g := 2, d := 1, a := 2, b := 3, f := 1 },
    .xcopy { g := 2, d := 1, a := 2, b := 3, f := 1 },
    .xshadOpen { g := 2, d := 1, a := 2, b := 3, f := 1 },
    .xplan { g := 2, d := 1, a := 2, b := 3, f := 1 },
    .xfill { g := 2, d := 1, a := 2, b := 3, f := 1 }] : List Instr).all (fun i => !wf i) = true := by decide +kernel

theorem test_illformed_4 : ([
    .xnclone { g := 2, d := 1, a := 2, b := 3, f := 1 },
    .xncomp { g := 2, d := 1, a := 2, b := 3, f := 1 },
    .xnscale { g := 2, d := 1, a := 2, b := 3, f := 1 },
    .ygen { g := 2, d := 1, a := 2, b := 3, f := 1 },
    .ysave { g := 2, d := 1, a := 2, b := 3, f := 1 },
    .cmp { g := 2, d := 1, a := 2, b := 3, f := 6 },
    .dep { g := 2, d := 1, a := 2, b := 63, f := 1 },
    .ext { g := 2, d := 1, a := 2, b := 63, f := 1 },
    .exts { g := 2, d := 1, a := 2, b := 63, f := 1 },
    .fadd { g := 2, d := 1, a := 2, b := 3, f := 5 },
    .fadd { g := 2, d := 1, a := 2, b := 3, f := 32 },
    .fsub { g := 2, d := 1, a := 2, b := 3, f := 5 },
    .fsub { g := 2, d := 1, a := 2, b := 3, f := 32 },
    .fmul { g := 2, d := 1, a := 2, b := 3, f := 5 },
    .fmul { g := 2, d := 1, a := 2, b := 3, f := 32 },
    .fdiv { g := 2, d := 1, a := 2, b := 3, f := 5 },
    .fdiv { g := 2, d := 1, a := 2, b := 3, f := 32 },
    .fma { g := 2, d := 1, a := 2, b := 3, f := 5 },
    .fma { g := 2, d := 1, a := 2, b := 3, f := 32 },
    .fmin { g := 2, d := 1, a := 2, b := 3, f := 1 },
    .fmax { g := 2, d := 1, a := 2, b := 3, f := 1 },
    .fcmp { g := 2, d := 1, a := 2, b := 3, f := 5 },
    .fcmp { g := 2, d := 1, a := 2, b := 3, f := 16 },
    .fcvt { g := 2, d := 1, a := 2, b := 1, f := 17 },
    .fcvt { g := 2, d := 1, a := 2, b := 0, f := 5 },
    .fcvt { g := 2, d := 1, a := 2, b := 0, f := 49 },
    .addi { g := 2, d := 1, a := 2, imm := 7, x := [0x1, 0x2, 0x3] },
    .aadd { g := 2, d := 1, a := 2, imm := 4095, x := [0x1, 0x2, 0x3] },
    .slli { g := 2, d := 1, a := 2, imm := 64, x := [] },
    .slli { g := 2, d := 1, a := 2, imm := 63, x := [0x1] }] : List Instr).all (fun i => !wf i) = true := by decide +kernel

theorem test_illformed_5 : ([
    .srli { g := 2, d := 1, a := 2, imm := 64, x := [] },
    .srli { g := 2, d := 1, a := 2, imm := 63, x := [0x1] },
    .srai { g := 2, d := 1, a := 2, imm := 64, x := [] },
    .srai { g := 2, d := 1, a := 2, imm := 63, x := [0x1] },
    .gld { g := 2, d := 1, a := 2, sz := 7, off := 5, x := [] },
    .gld { g := 2, d := 1, a := 2, sz := 6, off := 5, x := [0x1, 0x2] },
    .gld { g := 2, d := 1, a := 2, sz := 6, off := 1, x := [0x1] },
    .gst { g := 2, d := 1, a := 2, sz := 7, off := 5, x := [] },
    .gst { g := 2, d := 1, a := 2, sz := 2, off := 5, x := [0x1, 0x2] },
    .gst { g := 2, d := 1, a := 2, sz := 2, off := 1, x := [0x1] },
    .gst { g := 2, d := 1, a := 2, sz := 1, off := 5, x := [] },
    .gatom { g := 2, d := 1, a := 2, b := 3, f := 13 },
    .vadd { g := 2, d := 48, a := 16, b := 57, t := 3, fzi := false, fzo := false, p := false, x := [0x3f000000] },
    .vadd { g := 2, d := 48, a := 16, b := 57, t := 0, fzi := false, fzo := false, p := false, x := [] },
    .vadd { g := 2, d := 48, a := 16, b := 57, t := 0, fzi := false, fzo := false, p := false, x := [0x1, 0x5] },
    .vadd { g := 2, d := 48, a := 16, b := 57, t := 0, fzi := false, fzo := false, p := false, x := [0x1, 0x2, 0x3] },
    .vadd { g := 2, d := 48, a := 16, b := 57, t := 4, fzi := true, fzo := false, p := false, x := [0x3f000000] },
    .vadd { g := 2, d := 48, a := 16, b := 57, t := 4, fzi := false, fzo := false, p := false, x := [0x1, 0x1] },
    .vdiv { g := 2, d := 1, a := 2, b := 3, t := 4, fzi := false, fzo := false, p := false, x := [] },
    .vmin { g := 2, d := 1, a := 2, b := 3, t := 4, fzi := false, fzo := true, p := false, x := [] },
    .vmin { g := 2, d := 1, a := 2, b := 3, t := 0, fzi := false, fzo := false, p := false, x := [0x1] },
    .vmax { g := 2, d := 1, a := 2, b := 3, t := 4, fzi := false, fzo := true, p := false, x := [] },
    .vmax { g := 2, d := 1, a := 2, b := 3, t := 0, fzi := false, fzo := false, p := false, x := [0x1] },
    .vabs { g := 2, d := 1, a := 2, b := 3, t := 1, fzi := false, fzo := false, p := false, x := [] },
    .vneg { g := 2, d := 1, a := 2, b := 3, t := 1, fzi := false, fzo := false, p := false, x := [] },
    .vsqrt { g := 2, d := 1, a := 2, b := 3, t := 1, fzi := false, fzo := false, p := false, x := [] },
    .vexp { g := 2, d := 1, a := 2, b := 3, t := 1, fzi := false, fzo := false, p := false, x := [] },
    .vredsum { g := 2, d := 1, a := 2, b := 3, t := 1, fzi := false, fzo := false, p := false, x := [] },
    .vredmax { g := 2, d := 1, a := 2, b := 3, t := 1, fzi := false, fzo := false, p := false, x := [] },
    .vredamax { g := 2, d := 1, a := 2, b := 3, t := 1, fzi := false, fzo := false, p := false, x := [] }] : List Instr).all (fun i => !wf i) = true := by decide +kernel

theorem test_illformed_6 : ([
    .vscan { g := 2, d := 1, a := 2, b := 3, t := 1, fzi := false, fzo := false, p := false, x := [] },
    .vscanmax { g := 2, d := 1, a := 2, b := 3, t := 1, fzi := false, fzo := false, p := false, x := [] },
    .vand { g := 2, d := 1, a := 2, b := 3, t := 5, fzi := true, fzo := false, p := false, x := [] },
    .vand { g := 2, d := 1, a := 2, b := 3, t := 0, fzi := true, fzo := false, p := false, x := [] },
    .vsel { g := 2, d := 1, a := 2, b := 3, t := 0, fzi := true, fzo := false, p := false, x := [] },
    .vsel { g := 2, d := 1, a := 2, b := 3, t := 0, fzi := true, fzo := false, p := false, x := [] },
    .vperm { g := 2, d := 1, a := 2, b := 3, t := 0, fzi := true, fzo := false, p := false, x := [] },
    .vperm { g := 2, d := 1, a := 2, b := 3, t := 0, fzi := true, fzo := false, p := false, x := [] },
    .vand { g := 2, d := 1, a := 2, b := 3, t := 5, fzi := false, fzo := true, p := false, x := [] },
    .vshl { g := 2, d := 1, a := 2, b := 3, t := 0, fzi := false, fzo := false, p := false, x := [] },
    .vshr { g := 2, d := 1, a := 2, b := 3, t := 5, fzi := false, fzo := true, p := false, x := [] },
    .vsel { g := 2, d := 1, a := 2, b := 3, t := 0, fzi := false, fzo := false, p := true, x := [] },
    .vsmx { g := 2, d := 1, a := 2, b := 3, t := 0, fzi := false, fzo := false, p := true, x := [] },
    .vsmx { g := 2, d := 1, a := 2, b := 3, t := 1, fzi := false, fzo := false, p := false, x := [] },
    .vcmp { g := 2, pd := 3, cc := 1, a := 2, b := 3, t := 3, fzi := false, p := false, x := [] },
    .vcmp { g := 2, pd := 3, cc := 1, a := 2, b := 3, t := 4, fzi := true, p := false, x := [] },
    .vcmp { g := 2, pd := 3, cc := 1, a := 2, b := 3, t := 0, fzi := false, p := false, x := [0x1] },
    .vclass { g := 2, pd := 3, cc := 1, a := 2, b := 3, t := 0, fzi := false, p := false, x := [] },
    .vclass { g := 2, pd := 3, cc := 1, a := 2, b := 56, t := 0, fzi := true, p := false, x := [] },
    .vclass { g := 2, pd := 3, cc := 1, a := 2, b := 56, t := 4, fzi := false, p := false, x := [] },
    .vcvt { g := 2, d := 1, a := 2, s := 4, t := 5, fzi := false, fzo := false, p := false, x := [0x1] },
    .vcvt { g := 2, d := 1, a := 2, s := 0, t := 4, fzi := false, fzo := true, p := false, x := [] },
    .vcvt { g := 2, d := 1, a := 2, s := 1, t := 4, fzi := true, fzo := false, p := false, x := [] },
    .vquant { g := 2, d := 1, a := 2, s := 3, t := 3, fzi := false, fzo := false, p := false, x := [] },
    .vquant { g := 2, d := 1, a := 2, s := 0, t := 0, fzi := false, fzo := false, p := false, x := [] },
    .vquant { g := 2, d := 1, a := 2, s := 0, t := 3, fzi := false, fzo := false, p := true, x := [] },
    .vdequant { g := 2, d := 1, a := 2, s := 0, t := 0, fzi := false, fzo := false, p := false, x := [] },
    .vdequant { g := 2, d := 1, a := 2, s := 3, t := 3, fzi := false, fzo := false, p := false, x := [] },
    .vdequant { g := 2, d := 1, a := 2, s := 3, t := 0, fzi := false, fzo := false, p := true, x := [] },
    .vsetsc { g := 2, d := 1, a := 3, b := 3, t := 3, fzi := false, fzo := false, p := false, x := [] }] : List Instr).all (fun i => !wf i) = true := by decide +kernel

theorem test_illformed_7 : ([
    .vsetsc { g := 2, d := 1, a := 56, b := 3, t := 0, fzi := false, fzo := false, p := false, x := [] },
    .vsetsc { g := 2, d := 1, a := 56, b := 3, t := 3, fzi := false, fzo := true, p := false, x := [] },
    .vgetsc { g := 2, d := 1, a := 2, b := 1, t := 3, fzi := false, fzo := false, p := false, x := [] },
    .vgetsc { g := 2, d := 1, a := 2, b := 0, t := 0, fzi := false, fzo := false, p := false, x := [] },
    .vbcast { g := 2, d := 1, a := 2, b := 3, t := 0, fzi := false, fzo := false, p := true, x := [] },
    .vbcast { g := 2, d := 1, a := 2, b := 3, t := 0, fzi := false, fzo := false, p := false, x := [0x1] },
    .vext { g := 2, d := 1, a := 2, b := 3, t := 0, fzi := false, fzo := false, p := true, x := [] },
    .vext { g := 2, d := 1, a := 2, b := 3, t := 0, fzi := false, fzo := false, p := false, x := [0x1] },
    .vins { g := 2, d := 1, a := 2, b := 3, t := 0, fzi := false, fzo := false, p := true, x := [] },
    .vins { g := 2, d := 1, a := 2, b := 3, t := 0, fzi := false, fzo := false, p := false, x := [0x1] },
    .vmov { g := 2, d := 1, a := 2, b := 3, t := 1, fzi := false, fzo := false, p := false, x := [] },
    .viota { g := 2, d := 1, a := 3, b := 56, t := 5, fzi := false, fzo := false, p := false, x := [] },
    .viota { g := 2, d := 1, a := 56, b := 56, t := 0, fzi := false, fzo := false, p := false, x := [] },
    .vplog { g := 2, pd := 3, pa := 4, pb := 5, op := 2, sd := 1 },
    .vplog { g := 2, pd := 3, pa := 4, pb := 5, op := 5, sd := 0 },
    .vplog { g := 2, pd := 3, pa := 4, pb := 1, op := 4, sd := 0 },
    .vpcnt { g := 2, pd := 1, pa := 4, pb := 5, op := 0, sd := 7 },
    .vpcnt { g := 2, pd := 0, pa := 4, pb := 5, op := 1, sd := 7 },
    .mldb { g := 2, d := 2, a := 2, b := 3, f := 1 },
    .mldb { g := 2, d := 1, a := 2, b := 3, f := 2 },
    .mma { g := 2, d := 2, a := 2, b := 3, f := 0 },
    .mma { g := 2, d := 1, a := 8, b := 3, f := 0 },
    .mma { g := 2, d := 1, a := 2, b := 3, f := 3 },
    .mma { g := 2, d := 1, a := 1, b := 3, f := 2 },
    .mmacro { g := 2, d := 2, a := 2, b := 0, f := 0 },
    .mmacro { g := 2, d := 1, a := 2, b := 1, f := 0 },
    .mmacro { g := 2, d := 1, a := 2, b := 0, f := 1 },
    .mdrain { g := 2, d := 2, a := 2, b := 3, f := 13 },
    .mdrain { g := 2, d := 1, a := 2, b := 3, f := 16 },
    .mdrain { g := 2, d := 1, a := 2, b := 3, f := 6 }] : List Instr).all (fun i => !wf i) = true := by decide +kernel

theorem test_illformed_8 : ([
    .mzero { g := 2, d := 2, a := 0, b := 0, f := 1 },
    .mzero { g := 2, d := 1, a := 1, b := 0, f := 1 },
    .mzero { g := 2, d := 1, a := 0, b := 1, f := 1 },
    .mzero { g := 2, d := 1, a := 0, b := 0, f := 2 },
    .mscan { g := 2, d := 1, a := 1, b := 3, f := 0 },
    .mscan { g := 2, d := 1, a := 0, b := 3, f := 1 },
    .mrel { g := 2, d := 1, a := 0, b := 0, f := 7 },
    .mrel { g := 2, d := 0, a := 0, b := 0, f := 8 },
    .mmode { g := 2, d := 4, a := 0, b := 0, f := 1 },
    .mmode { g := 2, d := 1, a := 1, b := 0, f := 1 },
    .mmode { g := 2, d := 1, a := 0, b := 0, f := 2 },
    .mgain { g := 2, d := 4, a := 2, b := 3, f := 1 },
    .mgain { g := 2, d := 1, a := 2, b := 3, f := 2 },
    .mcarry { g := 2, d := 4, a := 2, b := 3, f := 1 },
    .mcarry { g := 2, d := 1, a := 2, b := 3, f := 2 },
    .mmask { g := 2, d := 1, a := 2, b := 1, f := 0 },
    .mmask { g := 2, d := 1, a := 2, b := 0, f := 1 },
    .mstat { g := 2, d := 1, a := 4, b := 5, f := 0 },
    .mstat { g := 2, d := 1, a := 2, b := 6, f := 0 },
    .mstat { g := 2, d := 1, a := 2, b := 5, f := 1 },
    .dmvld { g := 2, d := 8, a := 2, b := 3, f := 1 },
    .dmvld { g := 2, d := 1, a := 2, b := 0, f := 1 },
    .dmvld { g := 2, d := 6, a := 2, b := 3, f := 1 },
    .dmvld { g := 2, d := 1, a := 2, b := 3, f := 2 },
    .dmv { g := 2, d := 4, a := 2, b := 3, f := 5 },
    .dmv { g := 2, d := 1, a := 8, b := 3, f := 5 },
    .dmv { g := 2, d := 1, a := 2, b := 3, f := 8 },
    .dmdrain { g := 2, d := 4, a := 2, b := 3, f := 4 },
    .dmdrain { g := 2, d := 1, a := 2, b := 3, f := 8 },
    .dmzero { g := 2, d := 1, a := 1, b := 0, f := 0 }] : List Instr).all (fun i => !wf i) = true := by decide +kernel

theorem test_illformed_9 : ([
    .dmzero { g := 2, d := 1, a := 0, b := 1, f := 0 },
    .dmzero { g := 2, d := 1, a := 0, b := 0, f := 1 },
    .dmstep { g := 2, d := 1, a := 1, b := 3, f := 0 },
    .dmstep { g := 2, d := 1, a := 0, b := 3, f := 1 },
    .xsend { g := 2, d := 1, a := 2, b := 1, f := 1 },
    .xsend { g := 2, d := 1, a := 2, b := 0, f := 2 },
    .xred { g := 2, d := 1, a := 2, b := 3, f := 8 },
    .xred { g := 2, d := 1, a := 2, b := 3, f := 4 },
    .xred { g := 2, d := 1, a := 1, b := 3, f := 5 },
    .xredmax { g := 2, d := 1, a := 2, b := 3, f := 2 },
    .xncrc { g := 2, d := 1, a := 2, b := 3, f := 2 },
    .xshadDiscard { g := 2, d := 0, a := 2, b := 0, f := 0 },
    .xshadDiscard { g := 2, d := 1, a := 2, b := 0, f := 1 },
    .xshadDiscard { g := 2, d := 0, a := 2, b := 1, f := 1 },
    .xshadUnreg { g := 2, d := 0, a := 2, b := 0, f := 3 },
    .xshadUnreg { g := 2, d := 1, a := 2, b := 0, f := 2 },
    .xwipe { g := 2, d := 1, a := 1, b := 3, f := 0 },
    .xwipe { g := 2, d := 1, a := 0, b := 3, f := 1 },
    .xnwipe { g := 2, d := 1, a := 1, b := 3, f := 0 },
    .xnwipe { g := 2, d := 1, a := 0, b := 3, f := 1 },
    .xsig { g := 2, d := 1, a := 2, b := 1, f := 18 },
    .xsig { g := 2, d := 1, a := 2, b := 0, f := 3 },
    .xsig { g := 2, d := 1, a := 2, b := 0, f := 20 },
    .agset { g := 2, d := 1, a := 2, b := 6, f := 0 },
    .agset { g := 2, d := 1, a := 2, b := 5, f := 1 },
    .aget { g := 2, d := 1, a := 2, b := 8, f := 0 },
    .aget { g := 2, d := 1, a := 2, b := 7, f := 1 },
    .lds { g := 2, d := 1, a := 2, b := 7, f := 0 },
    .lds { g := 2, d := 1, a := 2, b := 5, f := 1 },
    .sts { g := 2, d := 1, a := 2, b := 1, f := 0 }] : List Instr).all (fun i => !wf i) = true := by decide +kernel

theorem test_illformed_10 : ([
    .sts { g := 2, d := 1, a := 2, b := 7, f := 0 },
    .spfmt { g := 2, d := 7, a := 2, b := 3, f := 0 },
    .spfmt { g := 2, d := 6, a := 2, b := 3, f := 1 },
    .atom { g := 2, d := 1, a := 2, b := 3, f := 1 },
    .atom { g := 2, d := 1, a := 2, b := 3, f := 45 },
    .amovToS { g := 2, d := 1, a := 2, b := 0, f := 0 },
    .amovToS { g := 2, d := 1, a := 2, b := 1, f := 1 },
    .ycsrr { g := 2, d := 1, a := 1, num := 39 },
    .ycsrr { g := 2, d := 1, a := 0, num := 15 },
    .ycsrw { g := 2, d := 1, a := 2, num := 0 },
    .ycsrw { g := 2, d := 1, a := 2, num := 40 },
    .ycsrs { g := 2, d := 1, a := 2, num := 0 },
    .ycsrs { g := 2, d := 1, a := 2, num := 40 },
    .ycsrc { g := 2, d := 1, a := 2, num := 0 },
    .ycsrc { g := 2, d := 1, a := 2, num := 40 },
    .ytrap { g := 2, d := 1, a := 2, num := 6 },
    .ysig { g := 2, d := 1, a := 2, b := 3, f := 0 },
    .ytlbi { g := 2, d := 1, a := 2, b := 3, f := 0 },
    .ysig { g := 2, d := 0, a := 2, b := 3, f := 1 },
    .yprobe { g := 2, d := 1, a := 2, b := 4, f := 0 },
    .yprobe { g := 2, d := 1, a := 2, b := 3, f := 1 },
    .ytqr { g := 2, d := 3, a := 2, b := 3, f := 4 },
    .yswap { g := 2, d := 1, a := 0, b := 0, f := 0 },
    .yswap { g := 2, d := 0, a := 1, b := 0, f := 0 },
    .yswap { g := 2, d := 0, a := 0, b := 1, f := 0 },
    .yswap { g := 2, d := 0, a := 0, b := 0, f := 1 },
    .yctx { g := 2, d := 1, a := 1, b := 3, f := 0 },
    .yctx { g := 2, d := 1, a := 0, b := 4, f := 0 },
    .yctx { g := 2, d := 1, a := 0, b := 3, f := 1 }] : List Instr).all (fun i => !wf i) = true := by decide +kernel

theorem test_illegal_operands : ([
    .vadd { g := 2, d := 16, a := 1, b := 2, t := 0, fzi := false, fzo := false, p := false, x := [] },
    .vadd { g := 2, d := 57, a := 1, b := 2, t := 0, fzi := false, fzo := false, p := false, x := [] },
    .vadd { g := 2, d := 1, a := 16, b := 2, t := 0, fzi := false, fzo := false, p := false, x := [] },
    .vadd { g := 2, d := 1, a := 57, b := 2, t := 1, fzi := false, fzo := false, p := false, x := [0x10000] },
    .vfma { g := 2, d := 48, a := 2, b := 3, t := 0, fzi := false, fzo := false, p := false, x := [] },
    .vcmp { g := 2, pd := 4, cc := 1, a := 2, b := 3, t := 0, fzi := false, p := false, x := [] },
    .vquant { g := 2, d := 1, a := 13, s := 0, t := 3, fzi := false, fzo := false, p := false, x := [] },
    .vdequant { g := 2, d := 13, a := 1, s := 3, t := 0, fzi := false, fzo := false, p := false, x := [] },
    .vsetsc { g := 2, d := 48, a := 56, b := 3, t := 3, fzi := false, fzo := false, p := false, x := [] },
    .vgetsc { g := 2, d := 1, a := 58, b := 0, t := 3, fzi := false, fzo := false, p := false, x := [] },
    .vtok { g := 2, p := 4, mode := 1, e := 4 },
    .vplog { g := 2, pd := 3, pa := 4, pb := 1, op := 2, sd := 0 },
    .vpcnt { g := 2, pd := 0, pa := 1, pb := 4, op := 0, sd := 7 },
    .dmvld { g := 2, d := 1, a := 15, b := 2, f := 1 },
    .agset { g := 2, d := 2, a := 2, b := 5, f := 0 },
    .agset { g := 2, d := 1, a := 32, b := 5, f := 0 },
    .agld { g := 2, d := 8, a := 0, b := 0, f := 0 },
    .agst { g := 2, d := 1, a := 2, b := 0, f := 0 },
    .agstop { g := 2, d := 0, a := 2, b := 0, f := 0 },
    .aget { g := 2, d := 1, a := 2, b := 7, f := 0 },
    .aget { g := 2, d := 32, a := 0, b := 7, f := 0 },
    .ldv { g := 2, d := 16, a := 2, b := 0, f := 0 },
    .stv { g := 2, d := 1, a := 32, b := 0, f := 0 },
    .lds { g := 2, d := 1, a := 32, b := 5, f := 0 },
    .amovToA { g := 2, d := 32, a := 2, b := 0, f := 0 },
    .aadd { g := 2, d := 1, a := 32, imm := 4095, x := [] },
    .aadd { g := 2, d := 1, a := 2, imm := 4095, x := [0x0, 0x100000] },
    .addi { g := 2, d := 1, a := 2, imm := 7, x := [0x0, 0x100000] },
    .phint { g := 2, sr := 3, e1 := 65536, e2 := 2 },
    .phint { g := 2, sr := 3, e1 := 1, e2 := 1 },
    .phint { g := 2, sr := 3, e1 := 1, e2 := 1048576 },
    .phint { g := 2, sr := 4, e1 := 1, e2 := 0 }] : List Instr).all (fun i => wf i && !operandsOk ⟨16, 4, 2, 0b0011⟩ i) = true := by decide +kernel

theorem test_absent : ([(.b, .mma ⟨0, 0, 1, 2, 0⟩), (.d, .mma ⟨0, 0, 1, 2, 0⟩), (.p, .dmv ⟨0, 0, 1, 2, 0⟩), (.p, .mmode ⟨0, 2, 0, 0, 0⟩),
    (.d, .mgain ⟨0, 0, 8, 2, 0⟩), (.p, .mstat ⟨0, 1, 0, 3, 0⟩), (.p, .xnred ⟨0, 1, 2, 3, 4⟩), (.b, .ycsrr ⟨0, 1, 0, 0⟩)] : List (Profile × Instr)).all
      (fun p => !present p.1 p.2) = true := by decide +kernel

end Words

open Sys2Proof.Machine

/-! ## Values of the spec's examples and tables -/

/-- A context of a profile that holds an iteration of a kernel with 48 vector registers, 16 predicates, two sets and 1,024 rows of
own scratch. -/
def cx (pr : Profile) : Ctx :=
  let id : CtxId := match pr with | .p => ⟨0, 0, false, 0⟩ | .d => ⟨2, 0, false, 0⟩ | .b => ⟨2, 0, true, 0⟩
  { Ctx.idle id with has := true, khd := ⟨pr, false, 48, 16, 2, 0, [⟨1, 0, 0, 1024⟩]⟩ }
/-- A state whose focused context is `cx pr`. -/
def st (pr : Profile) : State := { State.reset with cx := cx pr }
/-- A vector of f32 elements. -/
def f32s (xs : List Nat) : VData := BitVec.ofNat 1024 (xs.foldr (fun x a => x + 2 ^ 32 * a) 0)
/-- What an outcome puts in flight last. -/
def lastRes (o : Out) : Option (Res × Nat × Flags × Bool) :=
  match o with
  | .next t => t.cx.inflight.getLast?.map fun f => (f.res, f.due, f.flags, f.smx)
  | _ => none
/-- A field of the next state. -/
def after {α : Type} (o : Out) (k : State → α) : Option α := match o with | .next t => some (k t) | _ => none

/-- R107's first example word adds 2 in the first iteration, or with no level active (R101). -/
theorem test_step_addi : after (step (State.reset.withFetchWord 32 0xA1300002)) (fun t => t.cx.inflight.map fun f => (f.res, f.due))
    = some [(.s 12 2, 1)] := by decide +kernel
/-- R101: gate 0b11 takes no effect with no level active. -/
theorem test_gate_suppressed : after (step (State.reset.withFetchWord 32 0xA3300002)) (fun t => t.cx.inflight.length) = some 0 := by
  decide +kernel
/-- The example of R162. -/
theorem test_ppopc_survivor : lastRes (exec (.ppopc ⟨0, 7, 4, 5, 0⟩) (((st .p).sr 4 0xB269).sr 5 37)) = some (.s 7 2, 2, 0, false) := by
  decide +kernel
theorem test_ppopc_gone : lastRes (exec (.ppopc ⟨0, 7, 4, 5, 0⟩) (((st .p).sr 4 0xB269).sr 5 36))
    = some (.s 7 0xFFFFFFFFFFFFFFFF, 2, 0, false) := by decide +kernel
/-- The edges of R157. -/
theorem test_div_by_zero : lastRes (exec (.div ⟨0, 1, 2, 3, 0⟩) ((st .p).sr 2 7)) = some (.s 1 0xFFFFFFFFFFFFFFFF, 24, 0, false) := by
  decide +kernel
theorem test_rem_overflow : lastRes (exec (.rem ⟨0, 1, 2, 3, 0⟩) (((st .p).sr 2 0x8000000000000000).sr 3 0xFFFFFFFFFFFFFFFF))
    = some (.s 1 0, 24, 0, false) := by decide +kernel
/-- R161: the count for 0 is 64. -/
theorem test_clz_zero : lastRes (exec (.clz ⟨0, 1, 2, 0, 0⟩) (st .p)) = some (.s 1 64, 1, 0, false) := by decide +kernel
/-- R163: a field at the top, sign-extended. -/
theorem test_exts_top : lastRes (exec (.exts ⟨0, 1, 2, 60, 3⟩) ((st .p).sr 2 0x9000000000000000))
    = some (.s 1 0xFFFFFFFFFFFFFFF9, 1, 0, false) := by decide +kernel
/-- R165, R180: 1.0 / 0.0 is an infinity with DZ (bit 1). -/
theorem test_fdiv_by_zero : (lastRes (exec (.fdiv ⟨0, 1, 2, 3, 0⟩) ((st .p).sr 2 0x3F800000))).map (·.1) = some (.s 1 0x7F800000) := by
  decide +kernel
/-- R164: an enabled trap writes nothing. -/
theorem test_fdiv_trap : after (exec (.fdiv ⟨0, 1, 2, 3, 0⟩) { ((st .p).sr 2 0x3F800000) with cur := { QEntry.none with ten := 31 } })
    (fun t => (t.cx.inflight.length, t.cx.due.map (·.cause))) = some (0, some 0x0E) := by decide +kernel
/-- The example of R240. -/
theorem test_vredsum_example : (lastRes (exec (.vredsum ⟨0, 0x15, 0x14, 0x38, 0, false, false, false, []⟩)
    ((st .d).vr 20 (f32s [0x4B800000, 0x3F800000, 0x3F800000, 0x3F800000]) 0x3F800000))).map (·.1)
      = some (.v 21 (f32s [0x4B800001]) 0x3F800000) := by decide +kernel
/-- The example of R245. -/
theorem test_vsmx_example : lastRes (exec (.vsmx ⟨0, 8, 6, 7, 0, false, false, false, []⟩)
    (((st .d).vr 6 (f32s [0x40000000, 0x40400000, 0, 0, 0x7F800000, 0x3F800000, 0, 0, 0xFF800000, 0, 0, 0, 0x7FC00000, 0x3F800000, 0, 0,
        0x3F800000, 0x40000000]) 0x3F800000).vr 7 (f32s [0x40000000, 0x40A00000, 0, 0, 0x40A00000, 0x40800000, 0, 0, 0xFF800000, 0, 0, 0,
        0x3F800000, 0x3F800000, 0, 0, 0xFF800000]) 0x3F800000))
      = some (.v 8 (f32s [0x40000000, 0x41000000, 0x3F800000, 0x3F800000, 0x7F800000, 0x3F800000, 0x3F800000, 0, 0xFF800000, 0, 0, 0,
          0x7FC00000, 0x7FC00000, 0x7FC00000, 0x7FC00000, 0x3F800000, 0x40000000, 0x3F800000, 0, 0, 0, 0x3F800000, 0x3F800000, 0, 0, 0x3F800000,
          0x3F800000, 0, 0, 0x3F800000, 0x3F800000]) 0x3F800000, 12, 0, true) := by decide +kernel
/-- The partials of the example of R271: 2.0 and 6.5 in units of 2^-18. -/
theorem test_partials_example : ((dotPart false [0x38, 0x40] [0x38, 0x30]).fix, ((dotPart false [0x30, 0x3C] [0x38, 0x48]).fix))
    = (2 * 2 ^ 18, 13 * 2 ^ 17) := by decide +kernel
/-- Its promotion: CE is -1, and the accumulators of the table. -/
theorem test_promotion_example :
    let m := promote (clearedSlot ⟨2, 0, false, 0⟩ .plain) false 0 [(0, 0, ⟨2 * 2 ^ 18, false, [], false, none⟩, 0x3F000000, 0x3E800000),
      (1, 0, ⟨13 * 2 ^ 17, false, [], false, none⟩, 0x40000000, 0x3E800000), (8, 0, ⟨-2 * 2 ^ 18, false, [], false, none⟩, 0x3F000000, 0x3E800000)]
    m.ceOf 0 = some (-1) ∧ [m.elem 0, m.elem 1, m.elem 8].map (·.a) = [0x10000000, 0xD0000000, 0xFFFFFFFFF0000000] := by decide +kernel
/-- The example of R85. -/
theorem test_conversion_example : [0x3F80, 0x4060, 0xBE9A, 0].map (convElem (0x3C000000, false)) = [0x70, 0x7E, 0xE2, 0] := by decide +kernel
/-- The example of R47. -/
theorem test_nest_example : ([0, 1, 2, 3, 4, 5].map fun n => (lnrScalars (some ⟨2, [1, 0], [2, 3], [128, 1], [0, 64]⟩) n).take 3)
    = [[0, 64, 0], [128, 64, 0], [0, 65, 0], [128, 65, 0], [0, 66, 0], [128, 66, 0]] := by decide +kernel
/-- R128: a level with its latched count and the line after its own. -/
theorem test_loop_push : after (exec (.loop ⟨0, 5, 0, 0, 0, []⟩) { ((st .p).sr 5 3) with cur := { QEntry.none with line := 0x100 } })
    (fun t => (t.cx.depth, t.cx.loops.getD 0 Loop.zero)) = some (1, ⟨3, 0, 0x120, 0, 0, 0, 0, 0⟩) := by decide +kernel
/-- R135: a count of 2^32 is the illegal-loop trap. -/
theorem test_loop_count_too_large : after (exec (.loop ⟨0, 5, 0, 0, 0, []⟩) ((st .p).sr 5 0x100000000))
    (fun t => (t.cx.depth, t.cx.due.map (·.cause))) = some (0, some 0x04) := by decide +kernel
/-- R139: a target that is no line address is the alignment trap, and is not taken. -/
theorem test_callr_misaligned : after (exec (.callr ⟨0, 63, 5, 0, 0⟩) ((st .p).sr 5 0x110)) (fun t => (t.cx.nxt, t.cx.due.map (·.cause), t.cx.rs 63))
    = some (none, some 0x0A, 0) := by decide +kernel
/-- R147: setm returns the old value and writes the named fields. -/
theorem test_setm_gpred : after (exec (.setm ⟨0, 6, 5, 5⟩) ((st .p).sr 5 0x113)) (fun t => (t.cx.psel, t.cx.gzero, t.cx.rs 6)) = some (3, true, 0) := by
  decide +kernel
/-- R170, R168: a store changes its 4 bytes, the lowest first. -/
theorem test_gst_performed : after (exec .accessPerformed { { st .p with xlat := (List.range 9).map fun d => ⟨d, 0, 0, 0, 0, 2 ^ 29, 0, 7⟩ } with
    cx := { cx .p with gacc := some ⟨.gst 4 0x1122334455667788, 16, 0, .waiting, 0, 0, 0, false, Journey.start⟩ } })
    (fun t => (List.range 5).map fun k => homeByte t (16 + k)) = some [0x88, 0x77, 0x66, 0x55, 0] := by decide +kernel
/-- R206: agset writes a field of a set. -/
theorem test_agset_base : after (exec (.agset ⟨0, 1, 2, 0, 0⟩) { st .p with cx := { cx .p with a := (cx .p).a.setIfInBounds 2 0x1000000000000040 } })
    (fun t => (t.cx.agSet 1).base) = some 0x1000000000000040 := by decide +kernel
/-- R259: mzero claims a free slot. -/
theorem test_dmzero_claims : after (exec (.dmzero ⟨0, 2, 0, 0, 0⟩) (st .d)) (fun t => (slotAt t ⟨2, 0, false, 0⟩ 2).owner)
    = some (some ⟨2, 0, false, 0⟩) := by decide +kernel
/-- R342: xfill writes its pattern to every word. -/
theorem test_xfill : after (exec (.xfill ⟨0, 1, 2, 3, 0⟩) ((((st .p).sr 1 0x1000000000000080).sr 2 0xAABBCCDD).sr 3 8))
    (fun t => (List.range 9).map fun k => homeByte t (scratchKey 0 (128 + k))) = some [0xDD, 0xCC, 0xBB, 0xAA, 0xDD, 0xCC, 0xBB, 0xAA, 0] := by
  decide +kernel
/-- R407: ytrap is the software trap. -/
theorem test_ytrap : after (exec (.ytrap ⟨0, 0, 5, 9⟩) ((st .p).sr 5 77)) (fun t => t.cx.due.map fun d => (d.cause, d.addr, d.code)) = some (some (0x0F, 77, 9)) := by
  decide +kernel
/-- R446, R303: what reset leaves. -/
theorem test_reset : State.reset.pkg.part = 0xD002 ∧ (State.reset.vault 5).retidle = 32 ∧ State.reset.pkg.phase = .reset := by decide +kernel


/-! ## Witnesses: the hypotheses of each statement are met together -/

/-- A state in which virtual addresses below 2^29 of address space 0 are mapped to the same physical addresses. -/
def mapped (s : State) : State := { s with xlat := (List.range 9).map fun d => ⟨d, 0, 0, 0, 0, 2 ^ 29, 0, 7⟩ }
/-- A context changed. -/
def withCx (s : State) (f : Ctx → Ctx) : State := { s with cx := f s.cx }
/-- A result in flight that lands at a cycle. -/
def flying (r : Res) (due : Nat) (contested : Bool) : InFlight := ⟨r, 1, 0, true, 0, due, 0, 0, 0, .s, Capt.none, contested⟩

theorem witness_ScalarIntegerResults : ∃ i w s, Claims.intForm i = some w ∧ gateOk w.g s.cur.level = true
    ∧ Claims.NoBreach s (w.a :: (w.b.toList ++ w.c.toList)) w.d :=
  ⟨.add ⟨0, 1, 2, 3, 0⟩, _, State.reset, rfl, by decide +kernel, .inl rfl⟩
/-- The same under checking mode, and with s0 as destination. -/
theorem witness_ScalarIntegerResults_checked : ∃ i w s, Claims.intForm i = some w ∧ gateOk w.g s.cur.level = true
    ∧ s.cur.chk = true ∧ w.d = 0 ∧ Claims.NoBreach s (w.a :: (w.b.toList ++ w.c.toList)) w.d :=
  ⟨.sel ⟨1, 0, 2, 3, 4⟩, _, { State.reset with cur := { QEntry.none with chk := true, level := some (true, false) } }, rfl, by decide +kernel,
    rfl, rfl, .inr (by decide +kernel)⟩
theorem witness_ScalarBitResults : ∃ i w s, Claims.bitForm i = some w ∧ gateOk w.g s.cur.level = true
    ∧ Claims.NoBreach s (w.a :: (w.b.toList ++ w.c.toList)) w.d :=
  ⟨.dep ⟨0, 63, 2, 63, 0⟩, _, State.reset, rfl, by decide +kernel, .inl rfl⟩
theorem witness_ScalarFloatResults : ∃ (i : Instr) (w : FR) (lat : Nat) (b c : Option (BitVec 6)) (s : State), wf i = true
    ∧ Claims.fltFields i = some (w, lat, b, c) ∧ gateOk w.g s.cur.level = true ∧ Claims.NoBreach s (w.a :: (b.toList ++ c.toList)) w.d :=
  ⟨.fma ⟨0, 1, 2, 3, 0⟩, _, _, _, _, State.reset, by decide +kernel, rfl, by decide +kernel, .inl rfl⟩
/-- Both sides of the overflow bound of BF16, and a tiny value. -/
theorem witness_RoundingPicksTheNeighbour : bf16 ∈ Claims.roundFormats ∧ Claims.Overflows bf16 1 false (2 ^ 128)
    ∧ ¬ Claims.Overflows bf16 1 false (2 ^ 128 - 1) ∧ Claims.Tiny bf16 1 false (2 ^ (-127 : Int)) ∧ ¬ Claims.Tiny bf16 1 false (2 ^ (-126 : Int)) := by
  have h0 : ¬ (1 : BitVec 2) = 0 := by decide
  have h2 : ¬ (1 : BitVec 2) = 2 := by decide
  have h3 : ¬ (1 : BitVec 2) = 3 := by decide
  refine ⟨by simp [Claims.roundFormats], ?_, ?_, ?_, ?_⟩ <;>
    norm_num [Claims.Overflows, Claims.Tiny, bf16, abs_of_pos, if_neg h0, h0, h2, h3]
/-- Register 0, a register that nothing writes, and one write in flight: at its landing, before the cycle after issue, and in between. -/
theorem witness_ScalarReads : ∃ s : State, (ownsS s.cx 2 = false ∧ ∀ f ∈ s.cx.inflight, f.res.sreg ≠ some 2)
    ∧ (ownsS s.cx 1 = false ∧ ∃ (f : InFlight) (v : W64), s.cx.inflight = [] ++ f :: [] ∧ f.res = .s 1 v
      ∧ (∀ g ∈ ([] ++ [] : List InFlight), g.res.sreg ≠ some 1) ∧ f.due ≤ s.cycle) :=
  ⟨withCx (st .p) fun c => { c with inflight := [flying (.s 1 7) 0 false] }, by decide +kernel, by decide +kernel,
    _, _, rfl, rfl, by simp, by decide +kernel⟩
theorem witness_ScalarReads_window : ∃ (s : State) (f : InFlight), s.cx.inflight = [f] ∧ s.cycle < f.due ∧ f.issued < s.cycle ∧ f.res = .s 1 7
    ∧ ownsS s.cx 1 = false := ⟨withCx { st .p with cycle := 1 } fun c => { c with inflight := [flying (.s 1 7) 2 false] }, _, rfl, by decide +kernel⟩
theorem witness_ScalarReads_old : ∃ (s : State) (f : InFlight), s.cx.inflight = [f] ∧ s.cycle < f.due ∧ s.cycle ≤ f.issued ∧ f.res = .s 1 7
    ∧ ownsS s.cx 1 = false := ⟨withCx (st .p) fun c => { c with inflight := [flying (.s 1 7) 1 false] }, _, rfl, by decide +kernel⟩
theorem witness_ResultsLand : ∃ (s : State) (f : InFlight), s.cx.inflight[s.sub.a]? = some f ∧ f.due ≤ s.cycle ∧ f.contested = false
    ∧ f.res = .s 63 7 ∧ f.flags &&& f.ten = 0 :=
  ⟨withCx (st .p) fun c => { c with inflight := [flying (.s 63 7) 0 false] }, _, rfl, by decide +kernel⟩
theorem witness_CountersFall : ∃ (s : State) (d : Dec), s.cx.decs[s.sub.a]? = some d ∧ d.ctr ≤ 3 :=
  ⟨withCx (st .p) fun c => { c with decs := [⟨3, 0⟩] }, _, rfl, by decide +kernel⟩
theorem witness_GlobalAccessesIssue : ∃ (i : Instr) (w : Claims.GForm) (s : State), wf i = true ∧ Claims.globForm i s = some w
    ∧ gateOk w.g s.cur.level = true ∧ s.cx.gacc = none ∧ s.cur.chk = false :=
  ⟨.gatom ⟨0, 1, 2, 3, 3⟩, _, State.reset, by decide +kernel, rfl, by decide +kernel, rfl, rfl⟩
/-- A gst of four bytes at 16 in the global window, which passes the checks; and a misaligned one, which does not. -/
theorem witness_GlobalAccessesPerform : ∃ (s : State) (g : GAcc), s.Ok ∧ s.sub.acc = .glob ∧ s.sub.ecc ≠ .uncorrectable ∧ s.cx.gacc = some g
    ∧ g.st = .waiting ∧ globResolve s g = .ok [16, 17, 18, 19] ∧ globReleased s g [16, 17, 18, 19] = true
    ∧ (fencedKeys s s.cx.id.die [16, 17, 18, 19] = false ∧ lacksSlot s s.cx.id.die [16, 17, 18, 19] g.go = false ∧ asleepAt s [16, 17, 18, 19] = false)
    ∧ awayDie s [16, 17, 18, 19] = none :=
  ⟨withCx (mapped (st .p)) fun c => { c with gacc := some ⟨.gst 4 0x1122334455667788, 16, 0, .waiting, 0, 0, 0, false, Journey.start⟩ }, _, rfl, rfl,
    by decide +kernel, rfl, rfl, by decide +kernel⟩
/-- A register that an access owns. -/
theorem witness_ScalarReads_owned : ∃ s : State, ownsS s.cx 5 = true ∧ s.cx.inflight = [] ∧ s.cx.rs 5 ≠ 7 ∧ newS s 5 = some 7 :=
  ⟨withCx (st .p) fun c => { c with gacc := some ⟨.gld 4 true, 16, 5, .done 7, 0, 0, 0, false, Journey.start⟩ }, by decide +kernel⟩
theorem witness_GlobalAccessesPerform_fault : ∃ (s : State) (g : GAcc), s.Ok ∧ s.sub.acc = .glob ∧ s.cx.gacc = some g
    ∧ g.st = .waiting ∧ globResolve s g = .error tcAlign :=
  ⟨withCx (mapped (st .p)) fun c => { c with gacc := some ⟨.gst 4 7, 18, 0, .waiting, 0, 0, 0, false, Journey.start⟩ }, _, rfl, rfl, rfl, rfl, by decide +kernel⟩
theorem witness_GlobalResponsesWrite : ∃ (s : State) (g : GAcc), s.cx.gacc = some g ∧ g.st = .done 7 ∧ g.mixed = false ∧ g.sd = 63
    ∧ Claims.returns g.op = true :=
  ⟨withCx (st .p) fun c => { c with gacc := some ⟨.gld 4 true, 16, 63, .done 7, 0, 0, 0, false, Journey.start⟩ }, _, rfl, by decide +kernel⟩
theorem witness_GlobalResponsesWrite_fault : ∃ (s : State) (g : GAcc), s.cx.gacc = some g ∧ g.st = .failed 8 ∧ s.cx.due = none
    ∧ s.cx.pend = none :=
  ⟨withCx (st .p) fun c => { c with gacc := some ⟨.gld 4 true, 16, 63, .failed 8, 0, 0, 0, false, Journey.start⟩ }, _, rfl, by decide +kernel⟩
/-- A gst to memory of package 1 from package 0, which leaves through its fabric port. -/
theorem witness_GlobalAccessesPerform_away : ∃ (s : State) (g : GAcc) (ks : List Nat), s.Ok ∧ s.sub.acc = .glob ∧ s.cx.gacc = some g
    ∧ g.st = .waiting ∧ globResolve s g = .ok ks ∧ globReleased s g ks = true
    ∧ (fencedKeys s s.cx.id.die ks = false ∧ lacksSlot s s.cx.id.die ks g.go = false ∧ asleepAt s ks = false)
    ∧ awayDie s ks = some 8 ∧ g.go.left = none ∧ g.op.isStore = true ∧ leftOnFabric s = [] :=
  let g : GAcc := ⟨.gst 4 7, 16, 0, .waiting, 0, 0, 0, false, { Journey.start with slot := true }⟩
  ⟨withCx { st .p with xlat := [⟨0, 0, 0, 0, 0, 2 ^ 29, 2 ^ 42, 7⟩], pkg := { Pkg.reset with linkup := 1 } } fun c => { c with gacc := some g },
    g, keysFrom (2 ^ 42 + 16) 4, rfl, rfl, rfl, rfl, by decide +kernel⟩


/-- A taken call, a branch that is not taken, and a target at the last line below 2^57. -/
theorem witness_BranchesTransfer : ∃ (i : Instr) (w : Claims.BForm) (s : State), wf i = true ∧ Claims.branchForm i s = some w
    ∧ gateOk w.g s.cur.level = true ∧ Claims.ReadsReady s w.reads ∧ (∀ d, w.link = some d → Claims.WriteReady s d)
    ∧ w.taken = true ∧ Claims.LegalTarget w.target :=
  ⟨.callr ⟨0, 63, 5, 0, 0⟩, _, (st .p).sr 5 0x1FFFFFFFFFFFFE0, by decide +kernel, rfl, by decide +kernel, by unfold Claims.ReadsReady; decide +kernel,
    by intro d h; cases h; unfold Claims.WriteReady; decide +kernel, rfl, by unfold Claims.LegalTarget; decide +kernel⟩
theorem witness_BranchesTransfer_not_taken : ∃ (i : Instr) (w : Claims.BForm) (s : State), wf i = true ∧ Claims.branchForm i s = some w
    ∧ gateOk w.g s.cur.level = true ∧ Claims.ReadsReady s w.reads ∧ (∀ d, w.link = some d → Claims.WriteReady s d) ∧ w.taken = false :=
  ⟨.bc ⟨0, 5, 1, 4⟩, _, st .p, by decide +kernel, rfl, by decide +kernel, by unfold Claims.ReadsReady; decide +kernel,
    (by intro d h; cases h), by decide +kernel⟩
/-- A misaligned target, and the first one at 2^57. -/
theorem witness_BadTargetsTrap : ∀ x ∈ [(0x110 : W64), 0x200000000000000], ∃ (i : Instr) (w : Claims.BForm) (s : State), wf i = true
    ∧ Claims.branchForm i s = some w ∧ gateOk w.g s.cur.level = true ∧ Claims.ReadsReady s w.reads
    ∧ (∀ d, w.link = some d → Claims.WriteReady s d) ∧ w.taken = true ∧ w.target = x ∧ ¬ Claims.LegalTarget w.target := by
  have h (x : W64) (hx : ((st .p).sr 5 x).cx.rs 5 = x) (hr : Claims.ReadsReady ((st .p).sr 5 x) [5]) (hl : ¬ Claims.LegalTarget x) :
      ∃ (i : Instr) (w : Claims.BForm) (s : State), wf i = true
        ∧ Claims.branchForm i s = some w ∧ gateOk w.g s.cur.level = true ∧ Claims.ReadsReady s w.reads
        ∧ (∀ d, w.link = some d → Claims.WriteReady s d) ∧ w.taken = true ∧ w.target = x ∧ ¬ Claims.LegalTarget w.target :=
    ⟨.brr ⟨0, 0, 5, 0, 0⟩, ⟨0, [5], none, true, x⟩, (st .p).sr 5 x, by decide +kernel, by simp only [Claims.branchForm]; congr, rfl, hr,
      (by intro d h; cases h), rfl, rfl, hl⟩
  intro x hx
  simp only [List.mem_cons, List.not_mem_nil, or_false] at hx
  rcases hx with rfl | rfl
  · exact h _ (by decide +kernel) (by unfold Claims.ReadsReady; decide +kernel) (by unfold Claims.LegalTarget; decide +kernel)
  · exact h _ (by decide +kernel) (by unfold Claims.ReadsReady; decide +kernel) (by unfold Claims.LegalTarget; decide +kernel)
/-- Counts 2^32 - 1, 0 and 2^32, and a push at depth 6. -/
theorem witness_LoopsPush : ∃ (w : FL), wf (.loop w) = true ∧ ∀ p ∈ [((0xFFFFFFFF : W64), 5), (0, 5), (0x100000000, 5), (1, 6)],
    ∃ s : State, gateOk w.g s.cur.level = true ∧ Claims.ReadsReady s [w.a] ∧ s.cx.rs w.a.toNat = p.1 ∧ s.cx.depth = p.2 := by
  refine ⟨⟨0, 5, 0, 0, 0, []⟩, by decide +kernel, ?_⟩
  intro p hp
  simp only [List.mem_cons, List.not_mem_nil, or_false] at hp
  unfold Claims.ReadsReady
  rcases hp with rfl | rfl | rfl | rfl
  · exact ⟨withCx ((st .p).sr 5 0xFFFFFFFF) fun c => { c with depth := 5 }, by decide +kernel⟩
  · exact ⟨withCx ((st .p).sr 5 0) fun c => { c with depth := 5 }, by decide +kernel⟩
  · exact ⟨withCx ((st .p).sr 5 0x100000000) fun c => { c with depth := 5 }, by decide +kernel⟩
  · exact ⟨withCx ((st .p).sr 5 1) fun c => { c with depth := 6 }, by decide +kernel⟩
/-- A level active whose body is the line at 0x100 and which ends with the last iteration. -/
def inLoop (d : Nat) (cnt : W32) : State :=
  withCx { st .p with cur := { QEntry.none with line := 0x100 } } fun c => { c with depth := d, loops := Vector.replicate 6 ⟨cnt, 0, 0x100, 2, 5, 6, 1, 0xFFFF⟩ }
theorem witness_IterationsEnd_lend : ∃ (w : FJ) (s : State), wf (.lend w) = true
    ∧ Claims.lineTarget s w.off = (Claims.lev s.cx (s.cx.depth - 1)).body ∧ s.cx.depth = 6 ∧ s.cx.pend = none
    ∧ Claims.LegalTarget (s.cur.line + 32) ∧ (Claims.lev s.cx (s.cx.depth - 1)).n = 2
    ∧ Claims.WriteReady s (Claims.lev s.cx (s.cx.depth - 1)).x ∧ Claims.WriteReady s (Claims.lev s.cx (s.cx.depth - 1)).y :=
  ⟨⟨0, 0⟩, inLoop 6 1, by unfold Claims.lineTarget Claims.lev Claims.LegalTarget Claims.WriteReady; decide +kernel⟩
/-- lend of the innermost level as the claim has it: it falls through, in the last iteration of its level. -/
theorem witness_IterationsEnd_falls : ∃ (i : Instr) (w : FJ) (s : State) (exit : W64) (falls : Bool), wf i = true
    ∧ (i = .lend w ∧ falls = true ∧ exit = s.cur.line + 32 ∧ Claims.lineTarget s w.off = (Claims.lev s.cx (s.cx.depth - 1)).body)
    ∧ s.cx.depth ≠ 0 ∧ s.cx.pend = none
    ∧ (let l := Claims.lev s.cx (s.cx.depth - 1); falls = true ∧ Claims.WriteReady s l.x ∧ Claims.WriteReady s l.y) :=
  ⟨.lend ⟨0, 0⟩, ⟨0, 0⟩, inLoop 6 1, 0x120, true, by decide +kernel, ⟨rfl, rfl, rfl, by unfold Claims.lineTarget Claims.lev; decide +kernel⟩,
    by unfold Claims.lev Claims.WriteReady; decide +kernel⟩
/-- lcont that goes on. -/
theorem witness_IterationsEnd_lcont : ∃ (w : FJ) (s : State), wf (.lcont w) = true ∧ s.cx.depth = 1 ∧ s.cx.pend = none
    ∧ ((Claims.lev s.cx (s.cx.depth - 1)).idx + 1).toNat < (Claims.lev s.cx (s.cx.depth - 1)).cnt.toNat
    ∧ Claims.WriteReady s (Claims.lev s.cx (s.cx.depth - 1)).x ∧ Claims.WriteReady s (Claims.lev s.cx (s.cx.depth - 1)).y :=
  ⟨⟨0, 4⟩, inLoop 1 2, by unfold Claims.lev Claims.WriteReady; decide +kernel⟩
theorem witness_IllegalLoopsTrap : ∃ s : State, s.cx.depth = 1
    ∧ (∃ w, wf (.lend w) = true ∧ Claims.lineTarget s w.off ≠ (Claims.lev s.cx (s.cx.depth - 1)).body)
    ∧ ∃ w, wf (.lrd w) = true ∧ gateOk w.g s.cur.level = true ∧ s.cx.depth ≤ (if w.a = 7 then s.cx.depth - 1 else w.a.toNat) :=
  ⟨inLoop 1 2, rfl, ⟨⟨0, 1⟩, by unfold Claims.lineTarget Claims.lev; decide +kernel⟩, ⟨0, 1, 1, 2, 0⟩, by decide +kernel⟩
theorem witness_IllegalLoopsTrap_no_level : ∃ (s : State) (w : FJ), wf (.lcont w) = true ∧ wf (.lbrk w) = true ∧ s.cx.depth = 0 :=
  ⟨st .p, ⟨0, 4⟩, by decide +kernel⟩
theorem witness_LoopsBreakAndRead : ∃ s : State, s.cx.depth = 6 ∧ (∃ w, wf (.lbrk w) = true ∧ Claims.LegalTarget (Claims.lineTarget s w.off))
    ∧ Claims.HintInside s.cx ∧ ∃ w, wf (.lrd w) = true ∧ gateOk w.g s.cur.level = true ∧ w.a.toNat = 5 ∧ Claims.WriteReady s w.d :=
  ⟨withCx (inLoop 6 2) fun c => { c with hint := ⟨true, 5, 0, 0, 0, 0⟩ }, rfl,
    ⟨⟨0, 4⟩, by unfold Claims.LegalTarget Claims.lineTarget; decide +kernel⟩, by unfold Claims.HintInside; decide +kernel,
    ⟨0, 1, 5, 2, 0⟩, by unfold Claims.WriteReady; decide +kernel⟩


/-- A token that is taken, one that is not, and one with a bad target. -/
theorem witness_WaitsAndFencesPass_btok : ∃ w : FZ, ∀ k ∈ [(⟨true, 0x1FFFFFFFFFFFFE0⟩ : Token), ⟨false, 0⟩, ⟨true, 0x200000000000000⟩],
    ∃ (s : State) (r : List Token), gateOk w.g s.cur.level = true ∧ s.cx.tokens = k :: r :=
  ⟨⟨0⟩, fun k _ => ⟨withCx State.reset fun c => { c with tokens := [k] }, [], (by decide : gateOk 0 none = true), rfl⟩⟩
theorem witness_WaitsAndFencesPass_targets : Claims.LegalTarget 0x1FFFFFFFFFFFFE0 ∧ ¬ Claims.LegalTarget 0x200000000000000 := by
  unfold Claims.LegalTarget; decide +kernel
/-- A wait at its limits, and one past them; a cede with and without a hint. -/
theorem witness_WaitsAndFencesPass : ∃ (s : State) (w u : FW), gateOk w.g s.cur.level = true ∧ gateOk u.g s.cur.level = true ∧ s.cx.pend = none
    ∧ (Claims.Within w.ncl s.cx.ncl ∧ Claims.Within w.ncs s.cx.ncs ∧ Claims.Within w.ncx s.cx.ncx ∧ Claims.Within w.ncm s.cx.ncm)
    ∧ ¬ (Claims.Within u.ncl s.cx.ncl ∧ Claims.Within u.ncs s.cx.ncs ∧ Claims.Within u.ncx s.cx.ncx ∧ Claims.Within u.ncm s.cx.ncm)
    ∧ s.cx.hint.v = true ∧ s.cx.yieldReq = true :=
  ⟨withCx (st .p) fun c => { c with ncl := 62, ncx := 64, hint := ⟨true, 7, 0, 0, 0, 0⟩, yieldReq := true }, ⟨0, 62, 0, 63, 0⟩, ⟨0, 61, 0, 63, 0⟩,
    by unfold Claims.Within; decide +kernel⟩
/-- A fence of a class with nothing pending, and one of a class with a load pending. -/
theorem witness_WaitsAndFencesPass_fence : ∃ (s : State) (w u : FF), gateOk w.g s.cur.level = true ∧ gateOk u.g s.cur.level = true
    ∧ s.cx.pend = none ∧ pendingClasses s (decide (w.scope = 4)) (s.cur.seq / 8 * 8 + 8) &&& w.cls = 0 ∧ pendingClasses s (decide (u.scope = 4)) (s.cur.seq / 8 * 8 + 8) &&& u.cls ≠ 0 :=
  ⟨withCx (st .p) fun c => { c with gacc := some ⟨.gld 4 true, 16, 1, .waiting, 0, 0, 0, false, Journey.start⟩ }, ⟨0, 1, 0, 0⟩, ⟨0, 1, 63, 0⟩, by decide +kernel⟩
/-- An arrival outstanding in the context, made by the instruction of place 0 of line 0, with its phase complete or not. -/
def arrivedOnce (done : Nat) : State :=
  withCx { st .p with bars := [⟨0, 1, 63, 0, done⟩] } fun c => { c with outBars := [⟨1, 63, 1, 1⟩], arrivals := [(1, 63, 1)] }
theorem witness_BarriersArriveAndPass_free : ∃ (s : State) (w : FF), gateOk w.g s.cur.level = true ∧ s.cx.pend = none ∧ s.cx.ncx = 0
    ∧ outOf s.cx w.scope.toNat w.id.toNat = none ∧ released s false (s.cur.seq / 8 * 8 + 8) = true :=
  ⟨st .p, ⟨0, 1, 0, 63⟩, by decide +kernel⟩
theorem witness_BarriersArriveAndPass : ∃ (s : State) (w : FF) (o : OutBar), gateOk w.g s.cur.level = true ∧ s.cx.pend = none ∧ s.cx.ncx = 0
    ∧ outOf s.cx w.scope.toNat w.id.toNat = some o ∧ phaseMet s s.cx o = true ∧ o.by' = s.cur.seq + 1 ∧ released s false (s.cur.seq / 8 * 8 + 8) = true :=
  ⟨arrivedOnce 1, ⟨0, 1, 0, 63⟩, ⟨1, 63, 1, 1⟩, by decide +kernel⟩
theorem witness_BarriersArriveAndPass_waits : ∃ (s : State) (w : FF) (o : OutBar), gateOk w.g s.cur.level = true ∧ s.cx.pend = none ∧ s.cx.ncx ≠ 0
    ∧ outOf s.cx w.scope.toNat w.id.toNat = some o ∧ phaseMet s s.cx o = false :=
  ⟨withCx (arrivedOnce 0) fun c => { c with ncx := 1 }, ⟨0, 1, 0, 63⟩, ⟨1, 63, 1, 1⟩, by decide +kernel⟩
/-- A node instance that has dispatched its iterations. -/
def node0 : GNode := ⟨0, 0, 0, 0, [], .running, 0, none, none, 1, 1, 0, 0, 0, none, false⟩
theorem witness_BarrierPhasesComplete : ∃ (s : State) (b : Barrier) (n : GNode), s.bars[s.sub.a]? = some b ∧ s.node? b.nid = some n
    ∧ n.total ≤ n.next ∧ (∃ c ∈ participants s b, b.done < arrivalsAt c b.scope b.id)
    ∧ ∀ c ∈ participants s b, b.done < arrivalsAt c b.scope b.id :=
  ⟨{ arrivedOnce 0 with nodes := [node0] }, ⟨0, 1, 63, 0, 0⟩, node0, by decide +kernel⟩
theorem witness_SetmWritesModes : ∃ (w : FK) (s : State), wf (.setm w) = true ∧ gateOk w.g s.cur.level = true ∧ Claims.ReadsReady s [w.a]
    ∧ Claims.WriteReady s w.d ∧ w.num = 4 ∧ earlierWritten s.cx (s.cur.seq / 8) = true :=
  ⟨⟨0, 6, 5, 4⟩, st .p, by unfold Claims.ReadsReady Claims.WriteReady; decide +kernel⟩
theorem witness_SetmWritesModes_others : ∀ n ∈ [(3 : BitVec 12), 5, 6, 7], ∃ (w : FK) (s : State), wf (.setm w) = true
    ∧ gateOk w.g s.cur.level = true ∧ Claims.ReadsReady s [w.a] ∧ Claims.WriteReady s w.d ∧ w.num = n := by
  intro n hn
  refine ⟨⟨0, 6, 5, n⟩, st .p, ?_⟩
  unfold Claims.ReadsReady Claims.WriteReady
  revert n
  decide +kernel
theorem witness_HintsAndResume : ∃ (w : FZ) (s : State) (r : Resume), gateOk w.g s.cur.level = true ∧ s.cx.resume = some r ∧ r.ops ≠ [] :=
  ⟨⟨0⟩, withCx (st .p) fun c => { c with resume := some ⟨0x100, [⟨flying (.s 1 7) 4 false, 3⟩]⟩ }, _, by decide +kernel, rfl, by decide +kernel⟩
theorem witness_HintsAndResume_none : ∃ (w : FZ) (s : State), gateOk w.g s.cur.level = true ∧ s.cx.resume = none := ⟨⟨0⟩, st .p, by decide +kernel⟩
theorem witness_ExitEndsTheIteration : ∃ (w : FZ) (s : State), gateOk w.g s.cur.level = true ∧ s.cx.pend = none
    ∧ s.cx.sq = [] ∧ s.cx.vq = [] ∧ s.cx.mq = [] ∧ s.cx.xq = [] ∧ s.cx.aq = [] ∧ s.cx.yq = [] ∧ s.cx.inflight = [] ∧ s.cx.gacc = none
    ∧ s.cx.ncl = 0 ∧ s.cx.ncs = 0 ∧ s.cx.ncx = 0 ∧ s.cx.ncm = 0 ∧ s.cx.accs = [] ∧ s.cx.yfly = none := ⟨⟨0⟩, st .p, by decide +kernel⟩
theorem witness_ExitEndsTheIteration_waits : ∃ (w : FZ) (s : State), gateOk w.g s.cur.level = true ∧ s.cx.pend = none ∧ s.cx.ncm ≠ 0 :=
  ⟨⟨0⟩, withCx (st .p) fun c => { c with ncm := 1 }, by decide +kernel⟩


/-- The conditions of issue of a V instruction, with checking off. -/
def readyB (v : Claims.VIssue) (s : State) : Bool :=
  gateOk v.g s.cur.level && portsReady s.cx v.a v.b && dstRoom s.cx v.dst && !s.cur.chk
theorem ready_of {v : Claims.VIssue} {s : State} (h : readyB v s = true) : v.Ready s := by
  simp only [readyB, Bool.and_eq_true, Bool.not_eq_true'] at h
  exact ⟨h.1.1.1, h.1.1.2, h.1.2, .inl h.2⟩
/-- A state whose load port 7 holds two vectors and whose store port 7 has room for one. -/
def ports (pr : Profile) : State :=
  withCx (st pr) fun c => { c with lports := c.lports.setIfInBounds 7 [⟨1, true, VReg.zero⟩, ⟨2, true, VReg.zero⟩], sports := c.sports.setIfInBounds 7 (List.replicate 7 ⟨0, false, VReg.zero⟩) }
theorem witness_VectorElementwiseResults : ∃ (i : Instr) (w : FV) (lat : Nat) (two rd sa : Bool) (s : State), wf i = true
    ∧ Claims.elemFields i = some (w, lat, two, rd, sa) ∧ rd = true ∧ isVr w.d = true ∧ (Claims.vIssue w lat two rd).Ready s :=
  ⟨.vfma ⟨0, 47, 46, 45, 0, false, false, true, []⟩, _, _, _, _, _, st .d, by decide +kernel, rfl, rfl, by decide +kernel, ready_of (by decide +kernel)⟩
/-- Both operands from load port 7, the result to store port 7. -/
theorem witness_VectorElementwiseResults_ports : ∃ (i : Instr) (w : FV) (lat : Nat) (two rd sa : Bool) (s : State), wf i = true
    ∧ Claims.elemFields i = some (w, lat, two, rd, sa) ∧ rd = false ∧ (Claims.vIssue w lat two rd).Ready s :=
  ⟨.vadd ⟨0, 0x37, 0x37, 0x37, 0, false, false, false, []⟩, _, _, _, _, _, ports .b, by decide +kernel, rfl, rfl, ready_of (by decide +kernel)⟩


theorem witness_VectorMoves : ∀ i ∈ [Instr.vsel ⟨0, 8, 9, 10, 0, false, false, false, []⟩, .vperm ⟨0, 0x37, 0x37, 10, 0, false, false, false, []⟩,
    .vbcast ⟨0, 8, 9, 63, 3, false, false, false, []⟩, .viota ⟨0, 8, 0x38, 0x38, 4, false, false, true, []⟩],
    ∃ (w : FV) (v : Claims.VIssue) (sa : Bool), wf i = true ∧ Claims.moveForm i = some (w, v, sa) ∧ v.Ready (ports .p) := by
  simp only [List.forall_mem_cons, List.not_mem_nil, false_imp_iff, implies_true, and_true]
  refine ⟨⟨_, _, _, ?_, rfl, ready_of ?_⟩, ⟨_, _, _, ?_, rfl, ready_of ?_⟩, ⟨_, _, _, ?_, rfl, ready_of ?_⟩, _, _, _, ?_, rfl, ready_of ?_⟩ <;>
    decide +kernel
theorem witness_VectorMoves_others : ∃ (w : FV), wf (.vins w) = true ∧ isVr w.d = true ∧ wf (.vext w) = true ∧ wf (.vsetsc { w with a := 0x38, t := 3 }) = true
    ∧ (⟨w.g, .sreg w.a, .sreg w.b, false, false, true, .vec w.d 1, w.t, w.t, w.x, 2⟩ : Claims.VIssue).Ready (st .p)
    ∧ (⟨w.g, .vec w.a 1, .sreg w.b, false, false, false, .scal w.d, w.t, w.t, w.x, 3⟩ : Claims.VIssue).Ready (st .p)
    ∧ (⟨w.g, .none, .sreg w.b, false, false, false, .side w.d, w.t, w.t, w.x, 2⟩ : Claims.VIssue).Ready (st .p) :=
  ⟨⟨0, 8, 9, 10, 0, false, false, false, []⟩, by decide +kernel, by decide +kernel, by decide +kernel, by decide +kernel, ready_of (by decide +kernel),
    ready_of (by decide +kernel), ready_of (by decide +kernel)⟩
theorem witness_VectorMoves_vgetsc : ∃ (w : FV), wf (.vgetsc w) = true
    ∧ (⟨w.g, .vec w.a 1, .none, false, false, false, .scal w.d, w.t, w.t, w.x, 3⟩ : Claims.VIssue).Ready (st .p) :=
  ⟨⟨0, 8, 9, 0, 3, false, false, false, []⟩, by decide +kernel, ready_of (by decide +kernel)⟩
theorem witness_VectorPredicates : ∀ i ∈ [Instr.vcmp ⟨0, 15, 2, 8, 9, 0, false, true, []⟩, .vclass ⟨0, 0, 3, 8, 0x38, 1, false, false, []⟩],
    ∃ (w : FVC) (v : Claims.VIssue), wf i = true ∧ Claims.testForm i = some (w, v) ∧ v.Ready (st .p) := by
  simp only [List.forall_mem_cons, List.not_mem_nil, false_imp_iff, implies_true, and_true]
  refine ⟨⟨_, _, ?_, rfl, ready_of ?_⟩, _, _, ?_, rfl, ready_of ?_⟩ <;> decide +kernel
theorem witness_VectorPredicates_others : ∃ (w u : FVP) (x : FVT) (s : State), wf (.vplog w) = true ∧ wf (.vpcnt u) = true ∧ wf (.vtok x) = true
    ∧ (⟨w.g, .preg w.pa, .preg w.pb, false, false, false, .pred w.pd, 0, 0, [], 1⟩ : Claims.VIssue).Ready s
    ∧ (⟨u.g, .preg u.pa, .preg u.pb, false, false, false, .scal u.sd, 0, 0, [], 3⟩ : Claims.VIssue).Ready s
    ∧ (⟨x.g, .preg x.p, .none, false, false, false, .tok (Claims.lineTarget s x.e), 0, 0, [], 2⟩ : Claims.VIssue).Ready s :=
  ⟨⟨0, 15, 1, 2, 3, 0⟩, ⟨0, 0, 1, 2, 0, 63⟩, ⟨0, 1, 2, 8⟩, st .p, by decide +kernel, by decide +kernel, by decide +kernel, ready_of (by decide +kernel),
    ready_of (by decide +kernel), ready_of (by decide +kernel)⟩
theorem witness_VectorConversions : ∃ (w u x : FVK) (s : State), wf (.vcvt w) = true ∧ wf (.vdequant u) = true ∧ wf (.vquant x) = true
    ∧ (⟨w.g, .vec w.a 1, .none, w.p, false, false, .vec w.d 1, w.t, w.s, w.x, 4⟩ : Claims.VIssue).Ready s
    ∧ (⟨u.g, .vec u.a 1, .none, false, false, false, .vec u.d (if u.t = 0 then 4 else 2), u.t, u.s, u.x, 4⟩ : Claims.VIssue).Ready s
    ∧ (⟨x.g, .vec x.a (if x.s = 0 then 4 else 2), .none, false, false, false, .vec x.d 1, x.t, x.s, x.x, 8⟩ : Claims.VIssue).Ready s :=
  ⟨⟨0, 8, 9, 0, 3, false, false, true, []⟩, ⟨0, 44, 9, 3, 0, false, false, false, []⟩, ⟨0, 8, 44, 0, 3, false, false, false, []⟩, st .d, by decide +kernel,
    by decide +kernel, by decide +kernel, ready_of (by decide +kernel), ready_of (by decide +kernel), ready_of (by decide +kernel)⟩
theorem witness_VectorReductions : ∀ i ∈ [Instr.vredsum ⟨0, 8, 9, 0x38, 0, false, false, true, []⟩, .vscanmax ⟨0, 8, 9, 0x38, 0, false, false, true, []⟩],
    ∃ (w : FV) (v : Claims.VIssue), wf i = true ∧ Claims.redForm i = some (w, v) ∧ v.Ready (st .b) := by
  simp only [List.forall_mem_cons, List.not_mem_nil, false_imp_iff, implies_true, and_true]
  refine ⟨⟨_, _, ?_, rfl, ready_of ?_⟩, _, _, ?_, rfl, ready_of ?_⟩ <;> decide +kernel
theorem witness_VectorReductions_vsmx : ∃ w : FV, wf (.vsmx w) = true ∧ (Claims.vIssue w 12 true false).Ready (st .d) :=
  ⟨⟨0, 8, 9, 10, 0, false, false, false, []⟩, by decide +kernel, ready_of (by decide +kernel)⟩


/-- Finite groups, a zero group of BF16, and a group with a NaN. -/
theorem witness_PartialsAreExact : (∃ xs ws : List Nat, xs.length = ws.length ∧ xs ≠ [] ∧ Claims.allFinite false xs ∧ Claims.allFinite false ws)
    ∧ (∃ xs ws : List Nat, xs.length = ws.length ∧ Claims.allFinite true xs ∧ Claims.allFinite true ws ∧ ∃ q ∈ xs.zip ws, Claims.prodOf true q.1 q.2 ≠ 0)
    ∧ (∃ xs ws : List Nat, xs.length = ws.length ∧ Claims.allFinite true xs ∧ Claims.allFinite true ws ∧ ∀ q ∈ xs.zip ws, Claims.prodOf true q.1 q.2 = 0)
    ∧ ∃ xs ws : List Nat, xs.length = ws.length ∧ ¬ Claims.allFinite false xs := by
  unfold Claims.allFinite
  refine ⟨⟨[0x7E], [0xFE], by decide +kernel⟩, ⟨[0x3F80], [0x3F80], by decide +kernel, by decide +kernel, by decide +kernel, _, List.mem_singleton.2 rfl, ?_⟩,
    ⟨[0], [0x3F80], by decide +kernel, by decide +kernel, by decide +kernel, ?_⟩, ⟨[0x7F], [0], by decide +kernel⟩⟩
  · simp only [Claims.prodOf, if_true, show unpack bf16 0x3F80 = .fin false 128 (-7) by decide +kernel]
    norm_num [Claims.ratOf]
  · intro q hq
    simp only [List.zip_cons_cons, List.zip_nil_right, List.mem_singleton] at hq
    rw [hq]
    simp only [Claims.prodOf, if_true, show unpack bf16 0 = .fin false 0 (-133) by decide +kernel]
    norm_num [Claims.ratOf]
/-- Two elements of blocks 0 and 3, the second of which has a CE already and is marked NaN; a NaN mark takes no key away. -/
theorem witness_PartialsArePromoted : ∃ (m : MSlot) (xs : List (Nat × Nat × Part × W32 × W32)), (xs.map (·.1)).Nodup
    ∧ (∀ x ∈ xs, x.2.1 < 4 ∧ x.2.2.1.base = none ∧ if false then x.2.2.1.used = false else x.2.2.1.terms = []) ∧ m.ceOf 3 = some 2 ∧ m.ceOf 0 = none
    ∧ (promVal false 0 ⟨2 * 2 ^ 18, true, [], false, none⟩ 0x3F000000 0x3E800000) = ⟨some (-3), some (2 * 2 ^ 18 * 2 ^ 23, -44)⟩
    ∧ (promVal false 0 ⟨0, true, [], true, none⟩ 0x3F000000 0x3E800000) = ⟨some (-3), none⟩ :=
  ⟨{ MSlot.free with ce := [(3, 2)] }, [(0, 0, ⟨2 * 2 ^ 18, true, [], false, none⟩, 0x3F000000, 0x3E800000),
    (7, 3, ⟨13 * 2 ^ 17, true, [], true, none⟩, 0x40000000, 0x3E800000)], by decide +kernel⟩
/-- A way to say that a computation answers a value. -/
def isOk {α β : Type} (e : Except α β) : Bool := match e with | .ok _ => true | .error _ => false
theorem ok_of {α β : Type} {e : Except α β} (h : isOk e = true) : ∃ b, e = .ok b := by
  cases e with
  | ok b => exact ⟨b, rfl⟩
  | error _ => exact absurd h (by simp [isOk])
theorem reads_of {s : State} {win : List Nat} {a : W64} {n align : Nat}
    (h : (decide (a.toNat / 2 ^ 60 ∈ win) && isOk (resolve s s.cx .rd false false a n align)) = true) :
    Claims.ReadsRange s win a n align (homeNat s (match resolve s s.cx .rd false false a n align with | .ok ks => ks | .error _ => [])) := by
  simp only [Bool.and_eq_true, decide_eq_true_eq] at h
  obtain ⟨ks, e⟩ := ok_of h.2
  exact ⟨h.1, ks, e, by rw [e]⟩
theorem mready_of {s : State} {g : BitVec 2} {lease : Bool} {reads : List VSrc}
    (h : (gateOk g s.cur.level && s.cx.mfly.isEmpty && !s.cur.chk
      && (!lease || (match leaseOf s s.cx.id with | some l => !l.ending && decide (l.cmds < 16) && decide (s.cycle < l.at' + 4096) | none => false))) = true) :
    Claims.MReady s g lease reads := by
  simp only [Bool.and_eq_true, Bool.not_eq_true', List.isEmpty_iff] at h
  refine ⟨h.1.1.1, h.1.1.2, .inl h.1.2, ?_⟩
  rintro rfl
  have h2 := h.2
  cases e : leaseOf s s.cx.id with
  | none => simp [e] at h2
  | some l =>
    simp only [e, Bool.not_true, Bool.false_or, Bool.and_eq_true, Bool.not_eq_true', decide_eq_true_eq] at h2
    exact ⟨l, rfl, h2.1.1, h2.1.2, h2.2⟩
/-- A profile P context with a great-array lease, in its last cycle and with one command left, ranges over its own and its cluster's
scratch, and both slots owned; a profile D one owns its slots. The global addresses are mapped. -/
def arr (pr : Profile) : State :=
  let s := { withCx (mapped (st pr)) fun c => { c with khd := { c.khd with ranges := [⟨1, 0, 0, 1024⟩, ⟨2, 0, 0, 65536⟩] } } with cycle := 4095 }
  let m : MSlot := { MSlot.free with owner := some s.cx.id }
  match pr with
  | .p => s.setGreat s.cx.id.cluster { GArray.zero with slots := Vector.replicate 2 m, lease := some ⟨s.cx.id, 0, 0, 15, false, 0⟩ }
  | _ => s.setDecArr s.cx.id.coreKey (Vector.replicate 4 m)
/-- A block-table header of one layer, one head, 16 elements and two blocks at 0x10000, with the entries of the first block: in
Dawn K at 0x30000 and V at 0x38000, which are FILLING and empty, in Dusk 0x40000 and 0x48000. A stream record of PREFILL at
0x20000 names the table. -/
def kvMem (s : State) : State :=
  [(0x10000, 0x0002001000010001), (0x10040, 0x30000), (0x10048, 0x40000), (0x10060, 0x38000), (0x10068, 0x48000), (0x30000, 0x10000),
    (0x38000, 0x10000), (0x20000, 0x10000), (0x20010, 0x10000), (0x20040, 0x10000)].foldl (fun t p => storeAt t p.1 8 p.2) s
theorem witness_ArrayTablesLoad_mldb : ∃ (w : FR) (s : State) (tile tbl : Nat), wf (.mldb w) = true
    ∧ Claims.MReady s w.g true [.sreg w.a, .sreg w.b] ∧ Claims.ReadsRange s [2] (readOp s 0 (some w.a)) 16384 128 tile
    ∧ Claims.ReadsRange s [2] (readOp s 3 (some w.b)) 8 8 tbl :=
  ⟨⟨0, 1, 2, 3, 1⟩, ((arr .p).sr 2 0x20000000007FC000).sr 3 0x2000000000000008, _, _, by decide +kernel, mready_of (by decide +kernel),
    reads_of (by decide +kernel), reads_of (by decide +kernel)⟩
/-- The row former's block: BTAB at 0x10000, SREC at 0x20000. -/
theorem witness_ArrayTablesLoad_mrowf : ∃ (w : FR) (s : State) (r : RowF), wf (.mrowf w) = true ∧ Claims.MReady s w.g true [.sreg w.a]
    ∧ readRowF s s.cx (readOp s 0 (some w.a)) = .ok r := by
  obtain ⟨r, h⟩ := ok_of (e := readRowF ((storeAt (storeAt (kvMem (arr .p)) 0x400 8 0x10000) 0x428 8 0x20000).sr 2 0x400)
    ((storeAt (storeAt (kvMem (arr .p)) 0x400 8 0x10000) 0x428 8 0x20000).sr 2 0x400).cx 0x400) (by decide +kernel)
  exact ⟨⟨0, 0, 2, 0, 0⟩, (storeAt (storeAt (kvMem (arr .p)) 0x400 8 0x10000) 0x428 8 0x20000).sr 2 0x400, r, by decide +kernel,
    mready_of (by decide +kernel), h⟩
/-- No mask, in the last slot of a decode array; and a mask of one node in the great array. -/
theorem witness_ArrayTablesLoad_mmask : ∃ (w : FR) (s : State), wf (.mmask w) = true ∧ w.d.toNat < Claims.slotCount s.cx.id.prof
    ∧ Claims.MReady s w.g (s.cx.id.prof == .p) [.sreg w.a] ∧ ownSlot s w.d.toNat = true ∧ readOp s 0 (some w.a) = 0 :=
  ⟨⟨0, 3, 2, 0, 0⟩, arr .d, by decide +kernel, by decide +kernel, mready_of (by decide +kernel), by decide +kernel⟩
theorem witness_ArrayTablesLoad_mmask_block : ∃ (w : FR) (s : State), wf (.mmask w) = true ∧ w.d.toNat < Claims.slotCount s.cx.id.prof
    ∧ Claims.MReady s w.g (s.cx.id.prof == .p) [.sreg w.a] ∧ ownSlot s w.d.toNat = true ∧ readOp s 0 (some w.a) ≠ 0
    ∧ ∃ k, readMask s s.cx (readOp s 0 (some w.a)) = .ok k :=
  ⟨⟨0, 1, 2, 0, 0⟩, (storeAt (storeAt (arr .p) 0x400 8 1) 0x440 8 1).sr 2 0x400, by decide +kernel, by decide +kernel,
    mready_of (by decide +kernel), by decide +kernel, by decide +kernel, ok_of (by decide +kernel)⟩
theorem witness_ArrayTablesLoad_dmvld : ∃ (w : FR) (s : State), wf (.dmvld w) = true ∧ Claims.MReady s w.g false [.vec w.a w.b.toNat]
    ∧ portsReady s.cx (.vec w.a w.b.toNat) .none = true :=
  ⟨⟨0, 6, 0x37, 2, 1⟩, ports .d, by decide +kernel, mready_of (by decide +kernel), by decide +kernel⟩
theorem witness_SlotsAreClaimedAndReleased : (∃ (w u x : FR) (s : State), wf (.mzero w) = true ∧ s.cx.id.prof = .p ∧ Claims.MReady s w.g true []
      ∧ (∀ o, (slotAt s s.cx.id w.d.toNat).owner = some o → o = s.cx.id)
      ∧ wf (.mrel u) = true ∧ gateOk u.g s.cur.level = true ∧ s.cx.mfly = [] ∧ ownSlot s 1 = true ∧ u.f.getLsbD 1 = true ∧ u.f.getLsbD 2 = true
      ∧ wf (.mmode x) = true ∧ x.d.toNat < Claims.slotCount s.cx.id.prof ∧ Claims.MReady s x.g (s.cx.id.prof == .p) []
      ∧ ownSlot s x.d.toNat = true ∧ (slotAt s s.cx.id x.d.toNat).mode ≠ .split)
    ∧ ∃ (w : FR) (s : State), wf (.dmzero w) = true ∧ s.cx.id.prof = .d ∧ Claims.MReady s w.g false []
      ∧ (∀ o, (slotAt s s.cx.id w.d.toNat).owner = some o → o = s.cx.id) := by
  have own (s : State) (n : Nat) (h : (slotAt s s.cx.id n).owner = some s.cx.id) (o : CtxId) (e : (slotAt s s.cx.id n).owner = some o) :
      o = s.cx.id := Option.some.inj (e.symm.trans h)
  exact ⟨⟨⟨0, 1, 0, 0, 1⟩, ⟨0, 0, 0, 0, 7⟩, ⟨0, 1, 0, 0, 1⟩, arr .p, by decide +kernel, by decide +kernel, mready_of (by decide +kernel),
      own _ _ (by decide +kernel), by decide +kernel, by decide +kernel, rfl, by decide +kernel, by decide +kernel, by decide +kernel,
      by decide +kernel, by decide +kernel, mready_of (by decide +kernel), by decide +kernel⟩,
    ⟨⟨0, 3, 0, 0, 0⟩, arr .d, by decide +kernel, by decide +kernel, mready_of (by decide +kernel), own _ _ (by decide +kernel)⟩⟩


/-- The mode of a slot set. -/
def slotMode (s : State) (n : Nat) (mode : SlotMode) : State := setSlotAt s s.cx.id n { slotAt s s.cx.id n with mode := mode }
/-- Two rows at the end of the slot from load port 7, and from scratch. -/
theorem witness_RowsAccumulate_mma : ∃ (w : FR) (s : State) (vs : List VReg), wf (.mma w) = true ∧ s.cx.id.prof = .p ∧ w.f.toNat % 4 = 0
    ∧ Claims.MReady s w.g true [.sreg w.b] ∧ Claims.RowsLegal (readOp s 3 (some w.b)) ∧ ownSlot s w.d.toNat = true
    ∧ Claims.PortHolds s w.a.toNat ((readOp s 3 (some w.b)).extractLsb' 16 10).toNat vs := by
  refine ⟨⟨0, 1, 7, 3, 0x3C⟩, withCx ((arr .p).sr 3 0x000201FE) fun c => { c with lports := c.lports.setIfInBounds 7 [⟨1, true, VReg.zero⟩, ⟨2, true, VReg.zero⟩] },
    [VReg.zero, VReg.zero], by decide +kernel, by decide +kernel, by decide +kernel, mready_of (by decide +kernel), ?_, by decide +kernel, ?_⟩
  · unfold Claims.RowsLegal; decide +kernel
  · unfold Claims.PortHolds; decide +kernel
theorem witness_RowsAccumulate_mma_scratch : ∃ (w : FR) (s : State) (rows : List ARow), wf (.mma w) = true ∧ s.cx.id.prof = .p ∧ w.f.toNat % 4 = 1
    ∧ Claims.MReady s w.g true ([.sreg w.a] ++ [.sreg w.b]) ∧ Claims.RowsLegal (readOp s 3 (some w.b)) ∧ ownSlot s w.d.toNat = true
    ∧ (readOp s 3 (some w.b)).extractLsb' 32 7 = 0
    ∧ scratchRows s (readOp s 0 (some w.a)) ((readOp s 3 (some w.b)).extractLsb' 32 32).toNat
        ((readOp s 3 (some w.b)).extractLsb' 16 10).toNat = .ok rows := by
  obtain ⟨rows, h⟩ := ok_of (e := scratchRows (((arr .p).sr 2 0x2000000000000080).sr 3 0x00000080000201FE) 0x2000000000000080 128 2) (by decide +kernel)
  refine ⟨⟨0, 1, 2, 3, 0x31⟩, ((arr .p).sr 2 0x2000000000000080).sr 3 0x00000080000201FE, rows, by decide +kernel, by decide +kernel, by decide +kernel,
    mready_of (by decide +kernel), ?_, by decide +kernel, by decide +kernel, h⟩
  unfold Claims.RowsLegal; decide +kernel
theorem witness_RowsAccumulate_dmv : ∃ (w : FR) (s : State) (vs : List VReg), wf (.dmv w) = true ∧ s.cx.id.prof = .d
    ∧ Claims.MReady s w.g false [.sreg w.b]
    ∧ (let ctl := readOp s 3 (some w.b)
       let row0 := (ctl.extractLsb' 0 10).toNat
       let n := (ctl.extractLsb' 10 8).toNat
       let act := (List.range 8).filter fun i => ctl.getLsbD (18 + i)
       row0 % 2 = 0 ∧ n % 2 = 0 ∧ 2 ≤ n ∧ n ≤ 128 ∧ row0 / 128 = (row0 + n - 1) / 128 ∧ row0 + n ≤ 512 ∧ ctl.extractLsb' 26 6 = 0
         ∧ (∀ i ∈ act, (s.cx.cols.getD i Col.zero).bf = false) ∧ act = [0, 7]
         ∧ ownSlot s w.d.toNat = true ∧ Claims.PortHolds s w.a.toNat (n / 2) vs) := by
  refine ⟨⟨0, 3, 7, 3, 7⟩, withCx ((arr .d).sr 3 0x3F800000020409FE) fun c => { c with lports := c.lports.setIfInBounds 7 [⟨1, true, VReg.zero⟩] },
    [VReg.zero], by decide +kernel, by decide +kernel, mready_of (by decide +kernel), ?_⟩
  unfold Claims.PortHolds; decide +kernel
theorem rowKeys_one {s : State} {wins : List Nat} {a : W64} {n : Nat} {k : List Nat} (h : a.toNat / 2 ^ 60 ∈ wins)
    (e : resolve s s.cx .wr true false a n 1 = .ok k) : Claims.RowKeys s wins [(a, n)] (k ++ []) := ⟨h, k, [], e, rfl, rfl⟩
theorem rowKeys_of {s : State} {wins : List Nat} {l : List (W64 × Nat)} (a : W64) (n : Nat) {k : List Nat} (hl : l = [(a, n)])
    (h : a.toNat / 2 ^ 60 ∈ wins) (e : resolve s s.cx .wr true false a n 1 = .ok k) : Claims.RowKeys s wins l (k ++ []) := hl ▸ rowKeys_one h e
theorem witness_DrainsWriteResults_mdrain : ∃ (w : FR) (s : State) (ks : List Nat), s.Ok ∧ wf (.mdrain w) = true ∧ s.cx.id.prof = .p
    ∧ Claims.MReady s w.g true [.sreg w.a, .sreg w.b]
    ∧ (let at' := readOp s 0 (some w.a)
       let ctl := readOp s 3 (some w.b)
       let m := slotAt s s.cx.id w.d.toNat
       let cols := Claims.drainCols m (ctl.extractLsb' 32 2).toNat
       let z := if w.f.getLsbD 0 then 2 else 4
       let n := (ctl.extractLsb' 16 10).toNat
       w.f.toNat / 2 % 4 = 0 ∧ Claims.RowsLegal ctl ∧ ctl.extractLsb' 34 6 = 0 ∧ ctl.extractLsb' 40 7 = 0 ∧ ownSlot s w.d.toNat = true
         ∧ m.mode = .plain ∧ cols ≠ []
         ∧ Claims.RowKeys s [1, 2] ((List.range n).map fun k => (at' + BitVec.ofNat 64 (k * (ctl.extractLsb' 40 24).toNat), cols.length * z)) ks) := by
  obtain ⟨k, h⟩ := ok_of (e := resolve (((arr .p).sr 2 0x2000000000000080).sr 3 0x00008003000101FF)
    (((arr .p).sr 2 0x2000000000000080).sr 3 0x00008003000101FF).cx .wr true false 0x2000000000000080 512 1) (by decide +kernel)
  refine ⟨⟨0, 1, 2, 3, 9⟩, ((arr .p).sr 2 0x2000000000000080).sr 3 0x00008003000101FF, k ++ [], by unfold State.Ok; decide +kernel, by decide +kernel,
    by decide +kernel, mready_of (by decide +kernel), by decide +kernel, ?_, by decide +kernel, by decide +kernel, by decide +kernel, by decide +kernel,
    by decide +kernel, ?_⟩
  · unfold Claims.RowsLegal; decide +kernel
  · exact rowKeys_of 0x2000000000000080 512 (by decide +kernel) (by decide +kernel) h
theorem witness_DrainsWriteResults_split : ∃ (w : FR) (s : State), wf (.mdrain w) = true ∧ s.cx.id.prof = .p
    ∧ Claims.MReady s w.g true [.sreg w.a, .sreg w.b] ∧ w.f.toNat / 2 % 4 = 2 ∧ Claims.RowsLegal (readOp s 3 (some w.b))
    ∧ (readOp s 3 (some w.b)).extractLsb' 34 6 = 0 ∧ (readOp s 3 (some w.b)).extractLsb' 40 7 = 0 ∧ ownSlot s w.d.toNat = true
    ∧ ownSlot s (1 - w.d.toNat) = true ∧ (slotAt s s.cx.id w.d.toNat).mode = .split ∧ (slotAt s s.cx.id (1 - w.d.toNat)).mode = .plain
    ∧ ((readOp s 3 (some w.b)).extractLsb' 32 2).toNat = 2 := by
  refine ⟨⟨0, 1, 2, 3, 12⟩, slotMode ((arr .p).sr 3 0x0000000202000000) 1 .split, by decide +kernel, by decide +kernel, mready_of (by decide +kernel),
    by decide +kernel, ?_⟩
  unfold Claims.RowsLegal; decide +kernel
theorem witness_DrainsWriteResults_dmdrain : ∃ (w : FR) (s : State) (ks : List Nat), s.Ok ∧ wf (.dmdrain w) = true ∧ s.cx.id.prof = .d
    ∧ Claims.MReady s w.g false [.sreg w.a, .sreg w.b]
    ∧ (let at' := readOp s 0 (some w.a)
       let ctl := readOp s 3 (some w.b)
       let act := (List.range 8).filter fun i => ctl.getLsbD (20 + i)
       let z := if w.f.getLsbD 0 then 2 else 4
       let n := (ctl.extractLsb' 10 10).toNat
       let row0 := (ctl.extractLsb' 0 10).toNat
       row0 ≤ 511 ∧ 1 ≤ n ∧ row0 + n ≤ 512 ∧ ctl.extractLsb' 28 36 = 0 ∧ ownSlot s w.d.toNat = true
         ∧ Claims.RowKeys s [1, 4] ((List.range n).flatMap fun k => act.map fun i =>
            (at' + BitVec.ofNat 64 (if w.f.getLsbD 1 then i * n * z + k * z else k * 8 * z + i * z), z)) ks) := by
  obtain ⟨k, h⟩ := ok_of (e := resolve (((arr .d).sr 2 0x1000000000000080).sr 3 0x080005FF)
    (((arr .d).sr 2 0x1000000000000080).sr 3 0x080005FF).cx .wr true false 0x100000000000009C 4 1) (by decide +kernel)
  refine ⟨⟨0, 3, 2, 3, 4⟩, ((arr .d).sr 2 0x1000000000000080).sr 3 0x080005FF, k ++ [], by unfold State.Ok; decide +kernel, by decide +kernel,
    by decide +kernel, mready_of (by decide +kernel), by decide +kernel, by decide +kernel, by decide +kernel, by decide +kernel, by decide +kernel, ?_⟩
  exact rowKeys_of 0x100000000000009C 4 (by decide +kernel) (by decide +kernel) h
/-- A slot with both CEs, and one with the upper one only. -/
theorem witness_DrainsWriteResults_merge : ∃ (m u : MSlot), m.ceOf 1 = some 3 ∧ m.ceOf 0 = some (-3) ∧ u.ceOf 1 = some 3 ∧ u.ceOf 0 = none :=
  ⟨{ MSlot.free with ce := [(0, -3), (1, 3)] }, { MSlot.free with ce := [(1, 3)] }, by decide +kernel⟩
/-- A row of gains in cluster scratch for the last row of slot 1. -/
def gainRows : State := slotMode (((arr .p).sr 2 0x2000000000000080).sr 3 0x00000080000101FF) 1 .affine
theorem witness_AffineCommandsAct_mgain : ∃ (w : FR) (s : State) (rows : List Nat), wf (.mgain w) = true ∧ s.cx.id.prof = .p
    ∧ Claims.MReady s w.g true [.sreg w.a, .sreg w.b] ∧ Claims.RowsLegal (readOp s 3 (some w.b)) ∧ (readOp s 3 (some w.b)).extractLsb' 32 7 = 0
    ∧ ownSlot s w.d.toNat = true ∧ (slotAt s s.cx.id w.d.toNat).mode = .affine
    ∧ rows.length = ((readOp s 3 (some w.b)).extractLsb' 16 10).toNat ∧ rows ≠ []
    ∧ ∀ k < ((readOp s 3 (some w.b)).extractLsb' 16 10).toNat, Claims.ReadsRange s [1, 2]
      (readOp s 0 (some w.a) + BitVec.ofNat 64 (k * ((readOp s 3 (some w.b)).extractLsb' 32 32).toNat)) (256 * (if w.f.getLsbD 0 then 2 else 4)) 128
      (rows.getD k 0) := by
  obtain ⟨v, hv⟩ : ∃ v, Claims.ReadsRange gainRows [1, 2] (readOp gainRows 0 (some 2)
      + BitVec.ofNat 64 (0 * ((readOp gainRows 3 (some 3)).extractLsb' 32 32).toNat)) 512 128 v := ⟨_, reads_of (by decide +kernel)⟩
  refine ⟨⟨0, 1, 2, 3, 1⟩, gainRows, [v], by decide +kernel, by decide +kernel, mready_of (by decide +kernel), ?_, by decide +kernel,
    by decide +kernel, by decide +kernel, (by decide +kernel : 1 = ((readOp gainRows 3 (some 3)).extractLsb' 16 10).toNat), by simp, ?_⟩
  · unfold Claims.RowsLegal; decide +kernel
  · intro k hk
    have h1 : ((readOp gainRows 3 (some 3)).extractLsb' 16 10).toNat = 1 := by decide +kernel
    obtain rfl : k = 0 := by
      have : k < ((readOp gainRows 3 (some 3)).extractLsb' 16 10).toNat := hk
      omega
    exact hv
/-- The last carries of a great array and of a decode array. -/
theorem witness_AffineCommandsAct_mcarry : ∀ p ∈ [(arr .p, (0x000100FF : W64), (1 : Nat), (0x2000000000000080 : W64)), (arr .d, 0x000101FF, 8, 0x1000000000000080)],
    ∃ (w : FR) (s : State), wf (.mcarry w) = true ∧ s.cx.id = p.1.cx.id ∧ Claims.MReady s w.g (s.cx.id.prof == .p) [.sreg w.a, .sreg w.b]
    ∧ readOp s 3 (some w.b) = p.2.1 ∧ ownSlot s w.d.toNat = true
    ∧ (∃ v, Claims.ReadsRange s [1, 2] (readOp s 0 (some w.a)) (8 * 1 * p.2.2.1) 8 v)
    ∧ (readOp s 0 (some w.a)).toNat % 8 = 0 ∧ ∃ ks, resolve s s.cx .wr true false (readOp s 0 (some w.a)) (8 * 1 * p.2.2.1) 1 = .ok ks := by
  simp only [List.forall_mem_cons, List.not_mem_nil, false_imp_iff, implies_true, and_true]
  exact ⟨⟨⟨0, 1, 2, 3, 0⟩, ((arr .p).sr 2 0x2000000000000080).sr 3 0x000100FF, by decide +kernel, by decide +kernel, mready_of (by decide +kernel),
      by decide +kernel, by decide +kernel, ⟨_, reads_of (by decide +kernel)⟩, by decide +kernel, ok_of (by decide +kernel)⟩,
    ⟨⟨0, 3, 2, 3, 1⟩, ((arr .d).sr 2 0x1000000000000080).sr 3 0x000101FF, by decide +kernel, by decide +kernel, mready_of (by decide +kernel),
      by decide +kernel, by decide +kernel, ⟨_, reads_of (by decide +kernel)⟩, by decide +kernel, ok_of (by decide +kernel)⟩⟩
theorem witness_AffineCommandsAct_dmstep : ∃ (w : FR) (s : State), wf (.dmstep w) = true ∧ s.cx.id.prof = .d ∧ Claims.MReady s w.g false [.sreg w.b]
    ∧ ((readOp s 3 (some w.b)).extractLsb' 0 10).toNat = 511 ∧ ((readOp s 3 (some w.b)).extractLsb' 10 10).toNat = 1
    ∧ (readOp s 3 (some w.b)).extractLsb' 28 36 = 0 ∧ ownSlot s w.d.toNat = true ∧ (slotAt s s.cx.id w.d.toNat).mode = .affine :=
  ⟨⟨0, 3, 0, 3, 0⟩, slotMode ((arr .d).sr 3 0x080005FF) 3 .affine, by decide +kernel, by decide +kernel, mready_of (by decide +kernel), by decide +kernel⟩
theorem witness_AffineCommandsAct_scan : ∀ step ∈ [0, 9, 10], ∃ row0 n l : Nat, 1 ≤ n ∧ row0 + n ≤ 512 ∧ n ≤ 2 ^ l ∧ (∀ k, n ≤ 2 ^ k → l ≤ k) ∧ step ≤ l + 1 := by
  intro step hs
  refine ⟨0, 512, 9, by omega, by omega, by omega, ?_, by simp only [List.mem_cons, List.not_mem_nil, or_false] at hs; omega⟩
  intro k hk
  by_contra h
  exact absurd (hk.trans (Nat.pow_le_pow_right (n := 2) (by omega) (by omega : k ≤ 8))) (by norm_num)
/-- The carries of mcarry and the port of mgain in a decode array. -/
theorem witness_AffineCommandsAct_mgain_decode : ∃ (w : FR) (s : State) (vs : List VReg), wf (.mgain w) = true ∧ s.cx.id.prof = .d
    ∧ Claims.MReady s w.g false [.sreg w.b]
    ∧ (let ctl := readOp s 3 (some w.b)
       let per := 128 / (if w.f.getLsbD 0 then 2 else 4)
       let n := (ctl.extractLsb' 10 10).toNat
       let row0 := (ctl.extractLsb' 0 10).toNat
       n % (per / 8) = 0 ∧ n = 8 ∧ row0 + n = 512 ∧ ctl.extractLsb' 20 44 = 0 ∧ ownSlot s w.d.toNat = true
         ∧ (slotAt s s.cx.id w.d.toNat).mode = .affine ∧ Claims.PortHolds s w.a.toNat (n * 8 / per) vs) := by
  refine ⟨⟨0, 3, 7, 3, 1⟩, withCx (slotMode ((arr .d).sr 3 0x21F8) 3 .affine) fun c => { c with lports := c.lports.setIfInBounds 7 [⟨1, true, VReg.zero⟩] },
    [VReg.zero], by decide +kernel, by decide +kernel, mready_of (by decide +kernel), ?_⟩
  unfold Claims.PortHolds; decide +kernel
/-- A macro descriptor of one group of one row in BF16, at the start of cluster scratch. -/
def macro1 : State :=
  let k := scratchKey (clusterSid 0 0) 0
  (storeAt (storeAt (storeAt (storeAt (storeAt (storeAt (arr .p) k 8 0x2000000000004000) (k + 8) 8 0x4000) (k + 16) 8 0x2000000000000100)
    (k + 24) 8 0x2000000000020000) (k + 32) 8 0x0000008000000080) (k + 40) 8 0x000101FF00010001).sr 2 0x2000000000000000
/-- The descriptor that it holds. -/
def macro1Desc : MacDesc := (parseMac (homeNat macro1 (keysFrom (scratchKey (clusterSid 0 0) 0) 64))).getD ⟨0, 0, 0, 0, 0, 0, 0, 0, 0, false, false, []⟩
theorem witness_LongCommandsAndStatus_mmacro : ∃ (w : FR) (s : State) (v : Nat) (d : MacDesc), wf (.mmacro w) = true ∧ s.cx.id.prof = .p
    ∧ Claims.MReady s w.g true [.sreg w.a] ∧ Claims.ReadsRange s [2] (readOp s 0 (some w.a)) 64 64 v ∧ parseMac v = some d
    ∧ ownSlot s w.d.toNat = true ∧ (slotAt s s.cx.id w.d.toNat).mode = .plain :=
  ⟨⟨0, 1, 2, 0, 0⟩, macro1, homeNat macro1 (keysFrom (scratchKey (clusterSid 0 0) 0) 64), macro1Desc, by decide +kernel, by decide +kernel,
    mready_of (by decide +kernel), ⟨by decide +kernel, _, by decide +kernel, rfl⟩, by decide +kernel⟩
theorem witness_LongCommandsAndStatus_mscan : ∃ (w : FR) (s : State), wf (.mscan w) = true ∧ s.cx.id.prof = .p ∧ Claims.MReady s w.g true [.sreg w.b]
    ∧ Claims.RowsLegal (readOp s 3 (some w.b)) ∧ (readOp s 3 (some w.b)).extractLsb' 32 32 = 0 ∧ ownSlot s w.d.toNat = true
    ∧ (slotAt s s.cx.id w.d.toNat).mode = .affine := by
  refine ⟨⟨0, 1, 0, 3, 0⟩, slotMode ((arr .p).sr 3 0x02000000) 1 .affine, by decide +kernel, by decide +kernel, mready_of (by decide +kernel), ?_⟩
  unfold Claims.RowsLegal; decide +kernel
/-- What a pass of a group gives, and that it gives it with nothing outstanding. -/
def passOf (e : Except (Nat × W64) (MSlot × WBuf × Option W64 × List Nat)) : MSlot × WBuf × Option W64 × List Nat :=
  match e with | .ok x => x | .error _ => (MSlot.free, WBuf.zero, none, [])
def passOk (e : Except (Nat × W64) (MSlot × WBuf × Option W64 × List Nat)) : Bool :=
  match e with | .ok x => x.2.2.1.isNone | .error _ => false
theorem pass_of {e : Except (Nat × W64) (MSlot × WBuf × Option W64 × List Nat)} (h : passOk e = true) :
    e = .ok ((passOf e).1, (passOf e).2.1, none, (passOf e).2.2.2) := by
  match e, h with
  | .ok (a, b, none, d), _ => rfl
/-- Its only group under way. -/
def macroGroup : State :=
  withCx macro1 fun c => { c with mfly := [⟨{ QEntry.none with word := 0x00040000 }, 0x2000000000000000, 0, [], [], .gemm macro1Desc 0⟩] }
theorem witness_LongCommandsAndStatus_group : ∃ (s : State) (h : MCmd) (r : List MCmd) (d : MacDesc) (g : Nat) (m1 m2 : MSlot) (b1 b2 : WBuf) (k1 k2 : List Nat),
    s.cx.mfly = h :: r ∧ h.prog = .gemm d g ∧ s.cx.due = none ∧ s.cx.caps = none ∧ (h.e.word.extractLsb' 18 6).toNat < 2 ∧ leaseReady s s.cx.id = true
    ∧ macPass { countCmd { s with cur := h.e, cx := { s.cx with mfly := r } } s.cx.id with fresh := s.fresh } d (h.e.word.extractLsb' 18 6).toNat g 0
        (slotAt s s.cx.id (h.e.word.extractLsb' 18 6).toNat) = .ok (m1, b1, none, k1)
    ∧ macPass { countCmd { s with cur := h.e, cx := { s.cx with mfly := r } } s.cx.id with fresh := s.fresh } d (h.e.word.extractLsb' 18 6).toNat g 1 m1
        = .ok (m2, b2, none, k2) :=
  ⟨macroGroup, _, [], macro1Desc, 0, _, _, _, _, _, _, rfl, rfl, rfl, rfl, by decide +kernel, by decide +kernel, pass_of (by decide +kernel),
    pass_of (by decide +kernel)⟩
theorem witness_LongCommandsAndStatus_step : ∃ (s : State) (h : MCmd) (r : List MCmd) (l : Nat), s.cx.mfly = h :: r ∧ h.prog = .scan ∧ s.cx.due = none
    ∧ s.cx.caps = none ∧ (h.e.word.extractLsb' 18 6).toNat < 2 ∧ (h.b.extractLsb' 16 10).toNat ≤ 512 ∧ leaseReady s s.cx.id = true
    ∧ (h.b.extractLsb' 16 10).toNat ≤ 2 ^ l ∧ ∀ k, (h.b.extractLsb' 16 10).toNat ≤ 2 ^ k → l ≤ k := by
  refine ⟨withCx (arr .p) fun c => { c with mfly := [⟨{ QEntry.none with word := 0x00040000 }, 0, 0x02000000, [], [], .scan⟩] }, _, [], 9, rfl, rfl, rfl, rfl,
    by decide +kernel, by decide +kernel, by decide +kernel, by decide +kernel, ?_⟩
  intro k hk
  have hk : 512 ≤ 2 ^ k := hk
  by_contra h
  exact absurd (hk.trans (Nat.pow_le_pow_right (n := 2) (by omega) (by omega : k ≤ 8))) (by norm_num)
theorem witness_LongCommandsAndStatus_mstat : ∃ (w : FR) (s : State), wf (.mstat w) = true ∧ gateOk w.g s.cur.level = true ∧ s.cx.mfly = []
    ∧ s.cur.chk = false ∧ w.b = 5 := ⟨⟨0, 1, 3, 5, 0⟩, arr .d, by decide +kernel⟩
/-- A slot that nobody owns, in each array. -/
theorem witness_UnownedSlotsAreRefused : (∃ (w : FR) (s : State), wf (.mdrain w) = true ∧ s.cx.id.prof = .p ∧ Claims.MReady s w.g true [.sreg w.a, .sreg w.b]
      ∧ wf (.mmode { w with f := 0, a := 0, b := 0 }) = true ∧ wf (.mgain w) = true ∧ wf (.mcarry w) = true ∧ wf (.mmask { w with b := 0 }) = true
      ∧ wf (.mscan { w with a := 0 }) = true ∧ ownSlot s w.d.toNat = false ∧ s.cx.due = none ∧ s.cx.pend = none)
    ∧ ∃ (w : FR) (s : State), wf (.dmdrain w) = true ∧ wf (.dmstep { w with a := 0 }) = true ∧ s.cx.id.prof = .d
      ∧ Claims.MReady s w.g false [.sreg w.a, .sreg w.b] ∧ ownSlot s w.d.toNat = false ∧ s.cx.due = none ∧ s.cx.pend = none := by
  refine ⟨⟨⟨0, 1, 2, 3, 0⟩, setSlotAt (arr .p) (arr .p).cx.id 1 MSlot.free, by decide +kernel, by decide +kernel, mready_of (by decide +kernel), ?_⟩,
    ⟨⟨0, 3, 2, 3, 0⟩, st .d, by decide +kernel, by decide +kernel, by decide +kernel, mready_of (by decide +kernel), ?_⟩⟩ <;> decide +kernel


/-- The value of a computation that answers one. -/
def okOr {α β : Type} (e : Except α β) (d : β) : β := match e with | .ok x => x | .error _ => d
theorem ok_okOr {α β : Type} {e : Except α β} {d : β} (h : isOk e = true) : e = .ok (okOr e d) := by
  obtain ⟨b, rfl⟩ := ok_of h
  rfl
theorem xready_of {s : State} {g : BitVec 2} {regs : List (BitVec 6)} (h : (gateOk g s.cur.level && !s.cur.chk) = true) : Claims.XReady s g regs := by
  simp only [Bool.and_eq_true, Bool.not_eq_true'] at h
  exact ⟨h.1, .inl h.2⟩
theorem starts_of {s : State} {as : List W64} {k n : Nat}
    (h : ((as.all fun a => a.toNat % k == 0 && isOk (placeOf s (xctx s) a)) && (pastEnd s (xctx s) (as.map fun a => (a, n))).isNone) = true) :
    Claims.StartsOk s as k n := by
  simp only [Bool.and_eq_true, List.all_eq_true, beq_iff_eq, Option.isNone_iff_eq_none] at h
  exact ⟨fun a ha => ⟨(h.1 a ha).1, ok_of (h.1 a ha).2⟩, h.2⟩
/-- The keys of n units of z bytes. -/
def unitKeys (s : State) (kind : AccessKind) (a : W64) (z : Nat) : Nat → List Nat
  | 0 => []
  | n + 1 => unitKeys s kind a z n ++ okOr (resolve s (xctx s) kind (kind != .rd) false (a + BitVec.ofNat 64 (z * n)) z 1) []
theorem units_of {s : State} {kind : AccessKind} {a : W64} {z n : Nat}
    (h : ((List.range n).all fun j => isOk (resolve s (xctx s) kind (kind != .rd) false (a + BitVec.ofNat 64 (z * j)) z 1)) = true) :
    Claims.UnitKeys s kind a z n (unitKeys s kind a z n) := by
  induction n with
  | zero => rfl
  | succ n ih =>
    simp only [List.range_succ, List.all_append, Bool.and_eq_true, List.all_cons, List.all_nil, and_true] at h
    exact ⟨_, _, ih h.1, ok_okOr h.2, rfl⟩
/-- The keys of words. -/
def wordKeys (s : State) (kind : AccessKind) (as : List W64) : List (List Nat) :=
  as.map fun a => okOr (resolve s (xctx s) kind (kind != .rd) false a 4 1) []
theorem words_of {s : State} {kind : AccessKind} {as : List W64}
    (h : (as.all fun a => isOk (resolve s (xctx s) kind (kind != .rd) false a 4 1)) = true) : Claims.WordKeys s kind as (wordKeys s kind as) := by
  induction as with
  | nil => exact .nil
  | cons a as ih =>
    simp only [List.all_cons, Bool.and_eq_true] at h
    exact .cons (ok_okOr h.1) (ih h.2)
theorem clean_of {s : State} {ps : List Piece} (h : ((ps.all fun p => isOk p.dk && p.src.all fun x => isOk x.k)
      && decide ((ps.flatMap fun p => keysOr p.dk).Nodup) && decide ((Claims.allCells s ps).map (·.1)).Nodup
      && (ps.all fun p => ps.all fun q => p.srcKeys.all fun k => !(keysOr q.dk).contains k)
      && (ps.all fun p => p.srcKeys.all fun k => !((Claims.allCells s ps).map (·.1)).contains k)
      && fabricClear s (ps.flatMap fun p => keysOr p.dk)) = true) : Claims.CleanPieces s ps := by
  simp only [Bool.and_eq_true, List.all_eq_true, decide_eq_true_eq, Bool.not_eq_true', List.contains_eq_mem, decide_eq_false_iff_not] at h
  obtain ⟨⟨⟨⟨⟨h1, h2⟩, h3⟩, h4⟩, h5⟩, h6⟩ := h
  exact ⟨fun p hp => ⟨ok_of (h1 p hp).1, fun x hx => ok_of ((h1 p hp).2 x hx)⟩, h2, h3, h4, h5, h6⟩
/-- A transfer of eight bytes within own scratch, to its last bytes. -/
def copy8 : State := (((arr .p).sr 1 0x100000000001FFF8).sr 2 0x1000000000000000).sr 3 8
/-- Its pieces. -/
def copy8Pieces (s : State) : List Piece := okOr (copyPieces s (xctx s) (xctx s) 0x1000000000000000 0x100000000001FFF8 8) []
theorem witness_CopiesMoveTheirPieces : ∃ (i : Instr) (w : FR) (regs : List (BitVec 6)) (s : State) (rows : List (W64 × W64)) (n : Nat) (idx : List Nat)
    (ps : List Piece), s.Ok ∧ wf i = true ∧ Claims.copyFields i = some (w, regs) ∧ Claims.XReady s w.g regs
    ∧ Claims.copyRowsOf i (Claims.xargs s w) idx = some (rows, n) ∧ rows ≠ [] ∧ n ≠ 0 ∧ Claims.IndexWords i s (Claims.xargs s w) idx
    ∧ Claims.StartsOk s (rows.flatMap fun r => [r.1, r.2]) 4 0 ∧ n % 4 = 0 ∧ pastEnd s (xctx s) (rows.map fun r => (r.1, n)) = none
    ∧ Claims.RowPieces s n rows ps ∧ Claims.CleanPieces s ps ∧ ps ≠ [] :=
  ⟨.xcopy ⟨0, 1, 2, 3, 0⟩, _, _, copy8, [(0x1000000000000000, 0x100000000001FFF8)], 8, [], copy8Pieces copy8 ++ [], by unfold State.Ok; decide +kernel,
    by decide +kernel, rfl, xready_of (by decide +kernel), by decide +kernel, by simp, by omega, rfl, starts_of (by decide +kernel), by omega,
    Option.isNone_iff_eq_none.1 (by decide +kernel), ⟨_, _, ok_okOr (by decide +kernel), rfl, rfl⟩, clean_of (by decide +kernel),
    by rw [Ne, ← List.isEmpty_iff]; decide +kernel⟩
/-- Registers and the list of a gather. -/
def gather1 : State := storeAt (((copy8.sr 2 0x1000000000000000).sr 3 0x400).sr 4 0x100008) 0x400 4 1
/-- The same of a gather of one row of eight bytes by index 1, read from a list at 0x400 of the global window. -/
theorem witness_CopiesMoveTheirPieces_gather : ∃ (i : Instr) (w : FR) (regs : List (BitVec 6)) (s : State) (rows : List (W64 × W64)) (n : Nat)
    (idx : List Nat) (ps : List Piece), s.Ok ∧ wf i = true ∧ Claims.copyFields i = some (w, regs) ∧ Claims.XReady s w.g regs
    ∧ Claims.copyRowsOf i (Claims.xargs s w) idx = some (rows, n) ∧ idx = [1] ∧ n ≠ 0 ∧ Claims.IndexWords i s (Claims.xargs s w) idx
    ∧ Claims.StartsOk s (rows.flatMap fun r => [r.1, r.2]) 4 0 ∧ n % 4 = 0 ∧ pastEnd s (xctx s) (rows.map fun r => (r.1, n)) = none
    ∧ Claims.RowPieces s n rows ps ∧ Claims.CleanPieces s ps := by
  refine ⟨.xgath ⟨0, 1, 2, 3, 4⟩, _, _, gather1, [(0x1000000000000008, 0x100000000001FFF8)], 8, [1],
    okOr (copyPieces gather1 (xctx gather1) (xctx gather1) 0x1000000000000008 0x100000000001FFF8 8) [] ++ [], by unfold State.Ok; decide +kernel,
    by decide +kernel, rfl, xready_of (by decide +kernel), by decide +kernel, by decide +kernel, by omega, ⟨starts_of (by decide +kernel), _,
      words_of (by decide +kernel), by decide +kernel⟩, starts_of (by decide +kernel), by omega,
    Option.isNone_iff_eq_none.1 (by decide +kernel), ⟨_, _, ok_okOr (by decide +kernel), rfl, rfl⟩, clean_of (by decide +kernel)⟩
/-- A strided copy of no rows. -/
theorem witness_CopiesMoveTheirPieces_none : ∃ (i : Instr) (w : FR) (regs : List (BitVec 6)) (s : State) (rows : List (W64 × W64)) (n : Nat) (idx : List Nat),
    wf i = true ∧ Claims.copyFields i = some (w, regs) ∧ Claims.XReady s w.g regs ∧ Claims.copyRowsOf i (Claims.xargs s w) idx = some (rows, n)
    ∧ rows = [] ∧ idx = [] :=
  ⟨.xcopy2d ⟨0, 1, 2, 3, 4⟩, _, _, st .p, [], 0, [], by decide +kernel, rfl, xready_of (by decide +kernel), by decide +kernel, rfl, rfl⟩
/-- A multicast to the first core of the team alone. -/
theorem witness_CopiesMoveTheirPieces_xmcast : ∃ (w : FR) (s : State) (ps : List Piece), s.Ok ∧ wf (.xmcast w) = true
    ∧ Claims.XReady s w.g [w.d, w.a, w.b, w.f]
    ∧ (let x := Claims.xargs s w
       let n := x.b.toNat
       x.c.extractLsb' 16 48 = 0 ∧ (s.cx.id.prof = .p → x.c.extractLsb' 8 8 = 0) ∧ x.d.toNat / 2 ^ 60 = 1 ∧ x.c ≠ 0 ∧ n ≠ 0
         ∧ Claims.StartsOk s [x.a, x.d] 4 0 ∧ n % 4 = 0 ∧ pastEnd s (xctx s) [(x.a, n)] = none
         ∧ castPieces s x.a x.d n ((List.range 16).filter fun t => x.c.getLsbD t) = .ok (ps, false) ∧ Claims.CleanPieces s ps) := by
  have ok {e : Except (Nat × W64) (List Piece × Bool)} (h : (match e with | .ok p => !p.2 | .error _ => false) = true) :
      e = .ok ((okOr e ([], true)).1, false) := by
    match e, h with
    | .ok (p, false), _ => rfl
  exact ⟨⟨0, 1, 2, 3, 4⟩, copy8.sr 4 1, _, by unfold State.Ok; decide +kernel, by decide +kernel, xready_of (by decide +kernel), by decide +kernel,
    by decide +kernel, by decide +kernel, by decide +kernel, by decide +kernel, starts_of (by decide +kernel), by decide +kernel,
    Option.isNone_iff_eq_none.1 (by decide +kernel), ok (by decide +kernel), clean_of (by decide +kernel)⟩
/-- A piece without conversion, and one that turns a BF16 element of own scratch into FP32. -/
theorem witness_CopiesMoveTheirPieces_plain : ∃ (p : Piece) (kss : List (List Nat)), p.src ≠ []
    ∧ List.Forall₂ (fun x ks => x.k = .ok ks ∧ (x.f = (if p.row then 4 else p.df) ∨ x.f = 0 ∨ (p.row = false ∧ p.df = 0))) p.src kss :=
  ⟨⟨0, .ok [0, 1, 2, 3], [⟨0, 4, .ok [8, 9, 10, 11], 0⟩], 2, false⟩, [[8, 9, 10, 11]], by simp, .cons ⟨rfl, .inr (.inl rfl)⟩ .nil⟩
theorem witness_CopiesMoveTheirPieces_converted : ∃ (p : Piece) (x : Src) (ks : List Nat), p.row = false ∧ p.src = [x] ∧ x.k = .ok ks ∧ ks ≠ []
    ∧ (x.f = 1 ∨ x.f = 2 ∨ x.f = 3 ∨ x.f = 4) ∧ (p.df = 1 ∨ p.df = 2 ∨ p.df = 3) ∧ x.f ≠ p.df :=
  ⟨⟨0, .ok [0, 1, 2, 3], [⟨0, 1, .ok [2 ^ 50], 4⟩], 1, false⟩, _, _, rfl, rfl, rfl, by decide +kernel⟩
theorem witness_FillsAndSignalsWrite_xfill : ∃ (w : FR) (s : State) (ks : List Nat), s.Ok ∧ wf (.xfill w) = true ∧ Claims.XReady s w.g [w.d, w.a, w.b]
    ∧ (Claims.xargs s w).b.toNat ≠ 0 ∧ (Claims.xargs s w).b.toNat % 4 = 0 ∧ Claims.StartsOk s [(Claims.xargs s w).d] 4 (Claims.xargs s w).b.toNat
    ∧ Claims.UnitKeys s .wr (Claims.xargs s w).d 4 ((Claims.xargs s w).b.toNat / 4) ks ∧ fabricClear s ks = true :=
  ⟨⟨0, 1, 2, 3, 0⟩, copy8, _, by unfold State.Ok; decide +kernel, by decide +kernel, xready_of (by decide +kernel), by decide +kernel, by decide +kernel,
    starts_of (by decide +kernel), units_of (by decide +kernel), by decide +kernel⟩
theorem witness_FillsAndSignalsWrite_xwipe : ∃ (w : FR) (s : State) (ks : List Nat), s.Ok ∧ wf (.xwipe w) = true ∧ Claims.XReady s w.g [w.d, w.b]
    ∧ (Claims.xargs s w).b.toNat = 128 ∧ Claims.StartsOk s [(Claims.xargs s w).d] 64 (Claims.xargs s w).b.toNat
    ∧ Claims.UnitKeys s .wr (Claims.xargs s w).d 64 ((Claims.xargs s w).b.toNat / 64) ks ∧ ks.Nodup ∧ fabricClear s ks = true
    ∧ ∀ k ∈ ks, k / 64 ∉ s.bad ∧ k / 64 ∉ s.sealed ∧ (k < 2 ^ 50 ∨ redFind s.red (k / 4) = none ∧ (k - 2 ^ 50) % 2 ^ 25 < 2 ^ 24) :=
  ⟨⟨0, 1, 0, 3, 0⟩, ((arr .p).sr 1 0x100000000001FF80).sr 3 128, _, by unfold State.Ok; decide +kernel, by decide +kernel, xready_of (by decide +kernel),
    by decide +kernel, starts_of (by decide +kernel), units_of (by decide +kernel), by decide +kernel⟩
theorem witness_FillsAndSignalsWrite_zero : ∃ (w : FR) (s : State), wf (.xfill w) = true ∧ wf (.xwipe { w with a := 0 }) = true
    ∧ Claims.XReady s w.g [w.d, w.a, w.b] ∧ (Claims.xargs s w).b = 0 :=
  ⟨⟨0, 1, 2, 3, 0⟩, st .p, by decide +kernel, by decide +kernel, xready_of (by decide +kernel), by decide +kernel⟩
theorem witness_FillsAndSignalsWrite_xsend : ∃ (w : FR) (s : State) (ks : List Nat), s.Ok ∧ wf (.xsend w) = true ∧ Claims.XReady s w.g [w.d, w.a]
    ∧ resolve s (xctx s) .wr true false (Claims.xargs s w).d (if w.f.getLsbD 0 then 8 else 4) (if w.f.getLsbD 0 then 8 else 4) = .ok ks ∧ fabricClear s ks = true :=
  ⟨⟨0, 1, 2, 0, 1⟩, copy8, _, by unfold State.Ok; decide +kernel, by decide +kernel, xready_of (by decide +kernel), ok_okOr (d := []) (by decide +kernel),
    by decide +kernel⟩
theorem witness_FillsAndSignalsWrite_xsig : ∃ (w : FR) (s : State) (ks : List Nat), s.Ok ∧ wf (.xsig w) = true ∧ Claims.XReady s w.g [w.d, w.a]
    ∧ w.f.toNat % 4 = 2 ∧ resolve s (xctx s) .rw true false (Claims.xargs s w).d 8 8 = .ok ks ∧ fabricClear s ks = true
    ∧ pendingClasses s (awayDie s ks).isSome s.cur.seq = 0 :=
  ⟨⟨0, 1, 2, 0, 2⟩, (arr .p).sr 1 0x400, _, by unfold State.Ok; decide +kernel, by decide +kernel, xready_of (by decide +kernel), by decide +kernel,
    ok_okOr (d := []) (by decide +kernel), by decide +kernel⟩
/-- An xred of two elements from own scratch into the global window. -/
def red2 : State := (((arr .p).sr 1 0x400).sr 2 0x1000000000000000).sr 3 2
theorem witness_ReductionsAddExactly_xred : ∃ (w : FR) (s : State) (dss sss : List (List Nat)), wf (.xred w) = true ∧ w.f.getLsbD 2 = false
    ∧ w.f.getLsbD 1 = false ∧ Claims.XReady s w.g ([w.d, w.b] ++ [w.a]) ∧ (Claims.xargs s w).b.toNat ≠ 0 ∧ (Claims.xargs s w).d.toNat / 2 ^ 60 = 0
    ∧ Claims.StartsOk s [(Claims.xargs s w).d] 4 (4 * (Claims.xargs s w).b.toNat)
    ∧ Claims.WordKeys s .rw ((List.range (Claims.xargs s w).b.toNat).map fun e => (Claims.xargs s w).d + BitVec.ofNat 64 (4 * e)) dss
    ∧ (∀ ks ∈ dss, ks ≠ []) ∧ Claims.StartsOk s [(Claims.xargs s w).a] 4 (4 * (Claims.xargs s w).b.toNat)
    ∧ List.Forall₂ (fun a k => resolve s (xctx s) .rd false false a 4 1 = .ok k)
        ((List.range (Claims.xargs s w).b.toNat).map fun e => (Claims.xargs s w).a + BitVec.ofNat 64 (4 * e)) sss
    ∧ ∀ ks ∈ sss, ks ≠ [] :=
  ⟨⟨0, 1, 2, 3, 1⟩, red2, _, _, by decide +kernel, by decide +kernel, by decide +kernel, xready_of (by decide +kernel), by decide +kernel, by decide +kernel,
    starts_of (by decide +kernel), words_of (by decide +kernel), by decide +kernel, starts_of (by decide +kernel), words_of (kind := .rd) (by decide +kernel),
    by decide +kernel⟩
/-- A register of word 0x100 open for region 0, and a reduction with one addition left for it. -/
def redAdd (adds : List (Nat × W32 × W64)) (red : List RedLine) : State :=
  { mapped (st .p) with red := red, redWait := [⟨(st .p).cx.id, 0, 0, 0, 0, 0, 0, adds, [0x100]⟩] }
/-- The invariants of the reduction unit that the additions rest on. -/
def RedUnitOk (s : State) (w : RedWait) (word : Nat) : Prop :=
  ctlGen s w.asid (ctlOf s (4 * word)) = w.gen ∧ fabricClear s [4 * word] = true ∧ word / 16 ∉ s.sealed
    ∧ (∀ l ∈ s.red, ∀ g ∈ l.regs, g.word = word → l.line = word / 16) ∧ (∀ l ∈ s.red, l.line = word / 16 → l.rid = w.rid)
    ∧ (∀ l1 l2 : RedLine, l1 ∈ s.red → l2 ∈ s.red → l1.line = l2.line → l1 = l2)
    ∧ ∀ l ∈ s.red, ∀ g h : RedReg, g ∈ l.regs → h ∈ l.regs → g.word = h.word → g = h
theorem witness_ReductionsAddExactly_addition : ∃ (s : State) (w : RedWait) (word : Nat) (v : W32) (a : W64) (r : List (Nat × W32 × W64)) (g : RedReg),
    s.redWait[s.sub.b]? = some w ∧ w.adds = (word, v, a) :: r ∧ redDie w = s.sub.a ∧ RedUnitOk s w word ∧ redFind s.red word = some g := by
  refine ⟨redAdd [(0x100, 0x3F800000, 0x400)] [⟨0x10, 0, 0, 0, [⟨0x100, 5, false, false, false⟩]⟩], ⟨(st .p).cx.id, 0, 0, 0, 0, 0, 0, [(0x100, 0x3F800000, 0x400)], [0x100]⟩, 0x100,
    0x3F800000, 0x400, [], ⟨0x100, 5, false, false, false⟩, by decide +kernel, rfl, by decide +kernel, ⟨by decide +kernel, by decide +kernel, by decide +kernel,
    by decide +kernel, by decide +kernel, ?_, ?_⟩, by decide +kernel⟩
  · intro l1 l2 h1 h2 _
    rw [List.mem_singleton.1 h1, List.mem_singleton.1 h2]
  · intro l hl g h hg hh _
    rw [List.mem_singleton.1 hl] at hg hh
    rw [List.mem_singleton.1 hg, List.mem_singleton.1 hh]
theorem witness_ReductionsAddExactly_opening : ∃ (s : State) (w : RedWait) (word : Nat) (v : W32) (a : W64) (r : List (Nat × W32 × W64)),
    s.redWait[s.sub.b]? = some w ∧ w.adds = (word, v, a) :: r ∧ redDie w = s.sub.a ∧ RedUnitOk s w word ∧ (∀ l ∈ s.red, l.line ≠ word / 16)
    ∧ openLines s (64 * (word / 16) / 2 ^ 39 % 8) < 4096 := by
  refine ⟨redAdd [(0x100, 0x3F800000, 0x400)] [], ⟨(st .p).cx.id, 0, 0, 0, 0, 0, 0, [(0x100, 0x3F800000, 0x400)], [0x100]⟩, 0x100, 0x3F800000, 0x400, [],
    by decide +kernel, rfl, by decide +kernel, ⟨by decide +kernel, by decide +kernel, by decide +kernel, by decide +kernel, by decide +kernel, ?_, ?_⟩, by decide +kernel⟩
  · intro l1 _ h1
    exact absurd h1 (List.not_mem_nil)
  · intro l h1
    exact absurd h1 (List.not_mem_nil)
theorem witness_ReductionsAddExactly_closing : ∃ (s : State) (w : RedWait), s.Ok ∧ s.redWait[s.sub.b]? = some w ∧ w.adds = [] ∧ w.close ≠ [] :=
  ⟨redAdd [] [⟨0x10, 0, 0, 0, [⟨0x100, 5, false, false, false⟩]⟩], ⟨(st .p).cx.id, 0, 0, 0, 0, 0, 0, [], [0x100]⟩, by unfold State.Ok; decide +kernel,
    by decide +kernel⟩
/-- The four kinds of addend. -/
theorem witness_ReductionsAddExactly_register : Claims.isFin (unpack f32 0x3F800000) = true ∧ Claims.isFin (unpack f32 1) = true
    ∧ (unpack f32 0x7FC00000).isNaN = true ∧ unpack f32 0x7F800000 = .inf false ∧ unpack f32 0xFF800000 = .inf true := by decide +kernel
theorem witness_ReductionsAddExactly_xredmax : ∃ (w : FR) (s : State) (dss sss : List (List Nat)), s.Ok ∧ wf (.xredmax w) = true
    ∧ Claims.XReady s w.g [w.d, w.a, w.b] ∧ (Claims.xargs s w).b.toNat ≠ 0
    ∧ Claims.StartsOk s [(Claims.xargs s w).d, (Claims.xargs s w).a] 4 (4 * (Claims.xargs s w).b.toNat)
    ∧ Claims.WordKeys s .rw ((List.range (Claims.xargs s w).b.toNat).map fun e => (Claims.xargs s w).d + BitVec.ofNat 64 (4 * e)) dss
    ∧ Claims.WordKeys s .rd ((List.range (Claims.xargs s w).b.toNat).map fun e => (Claims.xargs s w).a + BitVec.ofNat 64 (4 * e)) sss
    ∧ (∀ ks ∈ dss ++ sss, ks ≠ []) ∧ dss.flatten.Nodup ∧ (∀ k ∈ dss.flatten, k ∉ sss.flatten)
    ∧ fabricClear s ((dss.zip sss).flatMap fun p => p.1 ++ p.2) = true :=
  ⟨⟨0, 1, 2, 3, 1⟩, red2, _, _, by unfold State.Ok; decide +kernel, by decide +kernel, xready_of (by decide +kernel), by decide +kernel,
    starts_of (by decide +kernel), words_of (by decide +kernel), words_of (by decide +kernel), by decide +kernel⟩


/-- A table tree of address space 0 at 0x20000 whose level-2 leaf maps the first 512 MiB to the same physical addresses. -/
def paged (s : State) : State :=
  { [(0x20000, 0x28001), (0x28000, 0x2C001), (0x2C000, 0x1F)].foldl (fun t p => storeAt t p.1 8 p.2) s with asTab := [(0, ⟨0x20000, 0, 0, [], []⟩)] }
/-- A buffer of one page, and the registers that name it and its second range. -/
def shad (h : List Shadow) : State := { ((((paged (st .p)).sr 1 0x110000).sr 2 0x100000).sr 3 0x10000) with shadows := h }
theorem witness_ShadowsPlansAndAppends_open : ∃ (w : FR) (s : State) (p q : List (Nat × BitVec 3)), wf (.xshadOpen w) = true
    ∧ Claims.XReady s w.g [w.d, w.a, w.b]
    ∧ (let x := Claims.xargs s w
       let v := x.a.toNat
       let d := x.d.toNat
       let len := x.b.toNat
       (∀ h ∈ s.shadows, h.asid = s.cx.it.asid → h.base ≠ x.a ∧ shadowClash h v len = false ∧ shadowClash h d len = false)
         ∧ v + len ≤ 2 ^ 57 ∧ d + len ≤ 2 ^ 57 ∧ v % 65536 = 0 ∧ d % 65536 = 0 ∧ len % 65536 = 0 ∧ len ≠ 0 ∧ len ≤ 2 ^ 34 ∧ v + len = d
         ∧ (s.shadows.filter fun h => h.vi == s.cx.it.vi).length < 64 ∧ latchUnits s v (len / 65536) = some p ∧ latchUnits s d (len / 65536) = some q) :=
  ⟨⟨0, 1, 2, 3, 0⟩, shad [⟨0, 0, 0, 0x120000, 0x130000, 0x10000, false, false, [], []⟩], [(0x100000, 7)], [(0x110000, 7)], by decide +kernel,
    xready_of (by decide +kernel), by decide +kernel⟩
theorem witness_ShadowsPlansAndAppends_others : ∃ (w u : FR) (s : State) (h : Shadow), wf (.xshadOpen w) = true ∧ Claims.XReady s w.g [w.d, w.a, w.b]
    ∧ h.second = (Claims.xargs s w).d ∧ h.len = (Claims.xargs s w).b.toNat
    ∧ wf (.xpub u) = true ∧ wf (.xshadDiscard { u with f := 1 }) = true ∧ wf (.xshadUnreg { u with f := 2 }) = true
    ∧ Claims.XReady s u.g [u.a] ∧ pendingClasses s (awayDie s ((h.pa1 ++ h.pa2).map (·.1))).isSome s.cur.seq = 0
    ∧ (Claims.xargs s u).a = (Claims.xargs s w).a ∧ s.shadows.find? (fun h => h.asid == s.cx.it.asid && h.base == (Claims.xargs s w).a) = some h :=
  ⟨⟨0, 1, 2, 3, 0⟩, ⟨0, 0, 2, 0, 0⟩, shad [⟨0, 0, 0, 0x100000, 0x110000, 0x10000, true, false, [(0x100000, 7)], [(0x110000, 7)]⟩],
    ⟨0, 0, 0, 0x100000, 0x110000, 0x10000, true, false, [(0x100000, 7)], [(0x110000, 7)]⟩, by decide +kernel, xready_of (by decide +kernel),
    by decide +kernel, by decide +kernel, by decide +kernel, by decide +kernel, by decide +kernel, xready_of (by decide +kernel), by decide +kernel⟩
/-- A snapshot of one active entry of 17 tokens at 0x400, planned for two cores. -/
def plan2 : State := storeAt (storeAt ((((arr .p).sr 1 0x1000000000000000).sr 2 0x400).sr 3 0x10002) 0x408 8 1) 0x450 4 17
/-- The addresses of the words of its two lists. -/
def plan2Words : List W64 := [0, 4, 8, 12, 64, 68, 72, 76].map fun k => 0x1000000000000000 + k
theorem plan2_words (l : List W64) (h : l = plan2Words) : Claims.WordKeys plan2 .wr l (wordKeys plan2 .wr plan2Words) := by
  subst h
  exact words_of (by decide +kernel)
theorem witness_ShadowsPlansAndAppends_xplan : ∃ (w : FR) (s : State) (hd : Nat) (bs : List Nat) (kss : List (List Nat)), s.Ok ∧ wf (.xplan w) = true
    ∧ Claims.XReady s w.g [w.d, w.a, w.b]
    ∧ (let x := Claims.xargs s w
       let ncore := (x.b.extractLsb' 0 16).toNat
       let maxspan := (x.b.extractLsb' 16 16).toNat
       let rstr := 64 * ((8 + 8 * maxspan + 63) / 64)
       let nact := hd / 2 ^ 64 % 2 ^ 16
       let words := (List.range ncore).flatMap fun c => (Claims.planWords bs ncore maxspan c).zipIdx.flatMap fun p =>
         [(x.d + BitVec.ofNat 64 (c * rstr + 8 * p.2), p.1 % 2 ^ 32), (x.d + BitVec.ofNat 64 (c * rstr + 8 * p.2 + 4), p.1 / 2 ^ 32)]
       x.b.extractLsb' 32 32 = 0 ∧ ncore = 2 ∧ maxspan = 1 ∧ nact = 1 ∧ bs = [2]
         ∧ Claims.StartsOk s [x.a, x.d] 4 0 ∧ (∃ ks, Claims.UnitKeys s .rd x.a 4 16 ks ∧ hd = homeNat s ks)
         ∧ (∃ pss, Claims.WordKeys s .rd ((List.range nact).map fun i => x.a + BitVec.ofNat 64 (64 + 32 * i + 16)) pss
           ∧ bs = pss.map fun k => (homeNat s k + 15) / 16)
         ∧ Claims.WordKeys s .wr (words.map (·.1)) kss ∧ fabricClear s kss.flatten = true) := by
  obtain ⟨hd, ed⟩ : ∃ hd, hd = homeNat plan2 (unitKeys plan2 .rd 0x400 4 16) := ⟨_, rfl⟩
  have en : hd / 2 ^ 64 % 2 ^ 16 = 1 := ed ▸ by decide +kernel
  have ea : (Claims.xargs plan2 ⟨0, 1, 2, 3, 0⟩).a = 0x400 := by decide +kernel
  refine ⟨⟨0, 1, 2, 3, 0⟩, plan2, hd, [2], wordKeys plan2 .wr plan2Words, by unfold State.Ok; decide +kernel, by decide +kernel,
    xready_of (by decide +kernel), ?_⟩
  intro x ncore maxspan rstr nact words
  have ew : words.map (·.1) = plan2Words := by decide +kernel
  refine ⟨by decide +kernel, by decide +kernel, by decide +kernel, en, rfl, starts_of (by decide +kernel), ?_, ?_, plan2_words _ ew, by decide +kernel⟩
  · exact ⟨_, ea ▸ units_of (by decide +kernel), ed⟩
  · rw [show nact = 1 from en, show x.a = 0x400 from ea]
    exact ⟨_, words_of (by decide +kernel), by decide +kernel⟩
/-- The state of an append, and whether there is one. -/
def resOf (s : State) (r : AppRes) : State := match r with | .ok t => t | _ => s
def resOk (r : AppRes) : Bool := match r with | .ok _ => true | _ => false
theorem res_of {s : State} {r : AppRes} (h : resOk r = true) : r = .ok (resOf s r) := by
  cases r with
  | ok _ => rfl
  | _ => exact absurd h Bool.false_ne_true
/-- An append of one token in profile P: its block at 0x400, its rows at 0x800 and 0x840. -/
def append1 : State :=
  [(0x400, 0x20000), (0x410, 0x800), (0x418, 0x840), (0x420, 0x100000000)].foldl (fun t p => storeAt t p.1 8 p.2) ((kvMem (arr .p)).sr 2 0x400)
/-- What it reads before the table, and before the rows. -/
def append1Block : State := noteRead { append1 with fresh := append1.fresh + 1 } 0x400 64
def append1From : State := noteRead (noteRead append1Block 0x20000 72) (BitVec.ofNat 64 0x10000) 64
/-- Its block and table. -/
def append1App : KvApp := (parseApp (homeNat append1 (keysFrom 0x400 64))).getD ⟨0, 0, 0, 0, 0, 0, 0, 0⟩
def append1Tab : KvTab := okOr (streamTab (ctxReader append1Block append1Block.cx 8) 0x20000 0x10000) ⟨0, 0, 0, 0, 0⟩
theorem append1_rows : ∃ u, Claims.Appends append1Tab (Claims.appOf append1 append1App (BitVec.ofNat 64 0x10000) (0x10000 / 2 ^ 48 % 2 ^ 16)) 1 append1From u :=
  ⟨_, _, _, _, ok_okOr (d := none) (by decide +kernel), res_of (s := append1) (by decide +kernel), res_of (s := append1) (by decide +kernel), rfl⟩
theorem witness_ShadowsPlansAndAppends_xkvapp : ∃ (w : FR) (s u : State) (v w0 btab : Nat) (a : KvApp) (t : KvTab), wf (.xkvapp w) = true
    ∧ Claims.XReady s w.g [w.a]
    ∧ (let x := Claims.xargs s w
       let s0 := noteRead { s with fresh := s.fresh + 1 } x.a 64
       let s1 := noteRead (noteRead s0 a.srec 72) (BitVec.ofNat 64 btab) 64
       (∃ ks, resolve s (xctx s) .rd false false x.a 64 64 = .ok ks ∧ v = homeNat s ks) ∧ x.a.toNat / 2 ^ 60 ≤ 2 ∧ parseApp v = some a
         ∧ ctxReader s0 s0.cx 8 a.srec 8 = .ok w0 ∧ ctxReader s0 s0.cx 8 (a.srec + 64) 8 = .ok btab
         ∧ w0 / 2 ^ 32 % 2 ^ 11 = s.dieAddr s.cx.id.die ∧ w0 / 2 ^ 16 % 2 ^ 4 = (if s.cx.id.prof = .p then 1 else 3)
         ∧ streamTab (ctxReader s0 s0.cx 8) a.srec (BitVec.ofNat 64 btab) = .ok t
         ∧ a.layer < t.nlayer ∧ a.kvh < t.nkv ∧ (a.pos0 + a.ntok - 1) / 16 < t.nlb ∧ appChecks s1 a t.hdim = none
         ∧ Claims.Appends t (Claims.appOf s a (BitVec.ofNat 64 btab) (w0 / 2 ^ 48 % 2 ^ 16)) a.ntok s1 u) := by
  obtain ⟨u, h⟩ := append1_rows
  refine ⟨⟨0, 0, 2, 0, 0⟩, append1, u, homeNat append1 (keysFrom 0x400 64), 0x10000, 0x10000, append1App, append1Tab, by decide +kernel,
    xready_of (by decide +kernel), ⟨_, by decide +kernel, rfl⟩, by decide +kernel, by decide +kernel, by decide +kernel, by decide +kernel,
    (by decide +kernel), by decide +kernel, by decide +kernel, by decide +kernel, by decide +kernel, by decide +kernel,
    Option.isNone_iff_eq_none.1 (by decide +kernel), ?_⟩
  have e : append1App.ntok = 1 := by decide +kernel
  have eb : append1App.srec = 0x20000 := by decide +kernel
  have ea : (Claims.xargs append1 ⟨0, 0, 2, 0, 0⟩).a = 0x400 := by decide +kernel
  rw [e, eb, ea]
  exact h


/-- The vaults of a context's core open to address space 0, all of them. -/
def openVault (s : State) : State := s.setVault 0 { Vault.zero with dwin := 0x8000000040000000 }
/-- A profile B context with own scratch and its first vault. -/
def near : State := openVault (withCx (st .b) fun c => { c with khd := { c.khd with ranges := [⟨1, 0, 0, 512⟩] } })
/-- Two groups of two elements, a stride of 16 bytes, in vault memory, with the results in own scratch. -/
def nearGroups : State := (((near.sr 1 0x1000000000000000).sr 2 0x400000003FFFFFE8).sr 3 0x20002).sr 4 16
theorem witness_NearMemoryComputes_groups : ∃ (w : FR) (s : State) (kss : List (List Nat)) (dk : List Nat), s.Ok ∧ wf (.xnred w) = true
    ∧ wf (.xnamax w) = true ∧ Claims.XReady s w.g [w.d, w.a, w.b, w.f]
    ∧ (let x := Claims.xargs s w
       let n := (x.b.extractLsb' 0 16).toNat
       let ngrp := (x.b.extractLsb' 16 16).toNat
       let ty := (x.b.extractLsb' 32 2).toNat
       let stride := (x.c.extractLsb' 0 32).toNat
       let z := if ty = 0 then 4 else if ty = 1 then 2 else 1
       let grp := (List.range ngrp).map fun g => x.a + BitVec.ofNat 64 (g * stride)
       x.b.extractLsb' 34 30 = 0 ∧ n ≠ 0 ∧ ngrp = 2 ∧ ty = 0 ∧ n * ngrp ≤ 2 ^ 20 ∧ stride % 4 = 0 ∧ x.c.extractLsb' 32 32 = 0
         ∧ Claims.inWins x.a [4] ∧ Claims.inWins x.d [1, 4] ∧ x.d.toNat % 4 = 0 ∧ Claims.StartsOk s grp 4 (n * z)
         ∧ pastEnd s (xctx s) [(x.d, 4 * ngrp)] = none ∧ Claims.GroupKeys s grp (n * z) kss
         ∧ resolve s (xctx s) .wr true false x.d (4 * ngrp) 4 = .ok dk ∧ dk.Nodup ∧ (∀ k ∈ dk, k ∉ kss.flatten)
         ∧ ∀ k ∈ kss.flatten, k / 64 ∉ s.bad) := by
  have gk : ∀ {as : List W64} {n : Nat}, (as.all fun a => isOk (resolve nearGroups (xctx nearGroups) .rd false false a n 1)) = true →
      Claims.GroupKeys nearGroups as n (as.map fun a => okOr (resolve nearGroups (xctx nearGroups) .rd false false a n 1) []) := by
    intro as n h
    induction as with
    | nil => exact .nil
    | cons a as ih =>
      simp only [List.all_cons, Bool.and_eq_true] at h
      exact .cons (ok_okOr h.1) (ih h.2)
  refine ⟨⟨0, 1, 2, 3, 4⟩, nearGroups, _, _, by unfold State.Ok; decide +kernel, by decide +kernel, by decide +kernel, xready_of (by decide +kernel),
    by decide +kernel, by decide +kernel, by decide +kernel, by decide +kernel, by decide +kernel, by decide +kernel, by decide +kernel, ?_, ?_,
    by decide +kernel, starts_of (by decide +kernel), Option.isNone_iff_eq_none.1 (by decide +kernel), gk (by decide +kernel),
    ok_okOr (d := []) (by decide +kernel), by decide +kernel⟩ <;> unfold Claims.inWins <;> decide +kernel
theorem mem_keys {k n x : Nat} : x ∈ keysFrom k n ↔ k ≤ x ∧ x < k + n := by
  simp only [keysFrom, List.mem_map, List.mem_range]
  exact ⟨fun ⟨a, h, e⟩ => ⟨by omega, by omega⟩, fun h => ⟨x - k, by omega, by omega⟩⟩
theorem keys_nodup (k n : Nat) : (keysFrom k n).Nodup :=
  List.Nodup.map (fun _ _ h => Nat.add_left_cancel h) List.nodup_range
/-- A clone of the first KiB of the vault to the second. -/
def clone1 : State := ((near.sr 1 0x4000000000000400).sr 2 0x4000000000000000).sr 3 1024
theorem witness_NearMemoryComputes_xnclone : ∃ (w : FR) (s : State) (sk dk : List Nat), s.Ok ∧ wf (.xnclone w) = true ∧ Claims.XReady s w.g [w.d, w.a, w.b]
    ∧ (let x := Claims.xargs s w
       let n := x.b.toNat
       n = 1024 ∧ Claims.inWins x.a [4] ∧ Claims.inWins x.d [4] ∧ x.a.toNat % 1024 = 0 ∧ x.d.toNat % 1024 = 0
         ∧ resolve s (xctx s) .rd true false x.a n 1024 = .ok sk ∧ resolve s (xctx s) .wr true false x.d n 1024 = .ok dk ∧ dk.Nodup
         ∧ (∀ k ∈ dk, k ∉ sk) ∧ ∀ k ∈ sk, k / 64 ∉ s.bad) := by
  refine ⟨⟨0, 1, 2, 3, 0⟩, clone1, keysFrom (2 * 2 ^ 39) 1024, keysFrom (2 * 2 ^ 39 + 1024) 1024, by unfold State.Ok; decide +kernel, by decide +kernel,
    xready_of (by decide +kernel), by decide +kernel, by unfold Claims.inWins; decide +kernel, by unfold Claims.inWins; decide +kernel, by decide +kernel,
    by decide +kernel, by decide +kernel, by decide +kernel, keys_nodup _ _, ?_, by decide +kernel⟩
  intro k h1 h2
  have := mem_keys.1 h1
  have := mem_keys.1 h2
  omega
/-- A wipe of one row, and one of none. -/
theorem witness_NearMemoryComputes_xnwipe : ∀ n ∈ [(1024 : W64), 0], ∃ (w : FR) (s : State) (dk : List Nat), s.Ok ∧ wf (.xnwipe w) = true
    ∧ Claims.XReady s w.g [w.d, w.b] ∧ (Claims.xargs s w).b = n ∧ n.toNat % 1024 = 0 ∧ n.toNat ≤ 2 ^ 24 ∧ Claims.inWins (Claims.xargs s w).d [4]
    ∧ (Claims.xargs s w).d.toNat % 1024 = 0 ∧ (n.toNat ≠ 0 → resolve s (xctx s) .wr true false (Claims.xargs s w).d n.toNat 1024 = .ok dk)
    ∧ (n.toNat = 0 → dk = []) := by
  simp only [List.forall_mem_cons, List.not_mem_nil, false_imp_iff, implies_true, and_true]
  exact ⟨⟨⟨0, 1, 0, 3, 0⟩, (near.sr 1 0x4000000000000400).sr 3 1024, _, by unfold State.Ok; decide +kernel, by decide +kernel, xready_of (by decide +kernel),
      by decide +kernel, by decide +kernel, by decide +kernel, by unfold Claims.inWins; decide +kernel, by decide +kernel,
      fun _ => ok_okOr (d := []) (by decide +kernel), fun h => absurd h (by decide +kernel)⟩,
    ⟨⟨0, 1, 0, 3, 0⟩, near.sr 1 0x4000000000000400, [], by unfold State.Ok; decide +kernel, by decide +kernel, xready_of (by decide +kernel),
      by decide +kernel, by decide +kernel, by decide +kernel, by unfold Claims.inWins; decide +kernel, by decide +kernel,
      fun h => absurd rfl h, fun _ => rfl⟩⟩
/-- A checksum of three bytes, and a chained one of none. -/
theorem witness_NearMemoryComputes_xncrc : ∀ p ∈ [((0 : BitVec 6), (3 : W64)), (1, 0)], ∃ (w : FR) (s : State) (sk dk : List Nat), s.Ok
    ∧ wf (.xncrc w) = true ∧ Claims.XReady s w.g [w.d, w.a, w.b] ∧ w.f = p.1 ∧ (Claims.xargs s w).b = p.2 ∧ Claims.inWins (Claims.xargs s w).a [4]
    ∧ Claims.inWins (Claims.xargs s w).d [1, 4] ∧ (Claims.xargs s w).d.toNat % 4 = 0
    ∧ (p.2.toNat ≠ 0 → resolve s (xctx s) .rd true false (Claims.xargs s w).a p.2.toNat 1 = .ok sk) ∧ (p.2.toNat = 0 → sk = [])
    ∧ (∀ k ∈ sk ++ dk, k / 64 ∉ s.bad)
    ∧ resolve s (xctx s) (if w.f.getLsbD 0 then .rw else .wr) true false (Claims.xargs s w).d 4 4 = .ok dk := by
  simp only [List.forall_mem_cons, List.not_mem_nil, false_imp_iff, implies_true, and_true]
  exact ⟨⟨⟨0, 1, 2, 3, 0⟩, ((near.sr 1 0x4000000000000400).sr 2 0x4000000000000001).sr 3 3, keysFrom (2 * 2 ^ 39 + 1) 3,
      keysFrom (2 * 2 ^ 39 + 1024) 4, by unfold State.Ok; decide +kernel, by decide +kernel, xready_of (by decide +kernel), by decide +kernel,
      by decide +kernel, by unfold Claims.inWins; decide +kernel, by unfold Claims.inWins; decide +kernel, by decide +kernel⟩,
    ⟨⟨0, 1, 2, 3, 1⟩, ((near.sr 1 0x4000000000000400).sr 2 0x4000000000000001).sr 3 0, [], keysFrom (2 * 2 ^ 39 + 1024) 4,
      by unfold State.Ok; decide +kernel, by decide +kernel, xready_of (by decide +kernel), by decide +kernel, by decide +kernel,
      by unfold Claims.inWins; decide +kernel, by unfold Claims.inWins; decide +kernel, by decide +kernel⟩⟩
/-- A LIVE block of 16 elements at the start of the vault, with slot 3 live and scale 1.0. -/
def nearBlock : State :=
  let a := 2 * 2 ^ 39
  storeAt (storeAt (((near.sr 1 0x4000000000000000).sr 2 0x4000000000000000).sr 3 16 |>.sr 5 0x1000000000000000) a 8 0x0000000200050008) (a + 8) 4 0x3F800000
/-- Its header. -/
def nearHdr : KvHdr := okOr (kvHdr (fun _ n => .ok (homeNat nearBlock ((keysFrom (2 * 2 ^ 39) 320).take n))) 0) (KvHdr.parse 0)
theorem near_block : Claims.BlockAt nearBlock 0x4000000000000000 16 16 (keysFrom (2 * 2 ^ 39) 320) nearHdr := by
  unfold Claims.BlockAt; decide +kernel
theorem witness_NearMemoryComputes_xncomp : ∃ (w : FR) (s : State) (hdim : Nat) (ks : List Nat) (h : KvHdr), s.Ok ∧ wf (.xncomp w) = true
    ∧ Claims.XReady s w.g [w.d, w.a, w.b] ∧ (Claims.xargs s w).a.extractLsb' 16 48 = 0
    ∧ Claims.BlockAt s (Claims.xargs s w).d (Claims.xargs s w).b hdim ks h :=
  ⟨⟨0, 1, 0, 3, 0⟩, nearBlock, 16, _, nearHdr, by unfold State.Ok; decide +kernel, by decide +kernel, xready_of (by decide +kernel), by decide +kernel,
    near_block⟩
/-- With and without a place for the magnitude. -/
theorem witness_NearMemoryComputes_xnscale : ∀ d ∈ [(0 : BitVec 6), 5], ∃ (w : FR) (s : State) (hdim : Nat) (ks ak : List Nat) (h : KvHdr), s.Ok
    ∧ wf (.xnscale w) = true ∧ Claims.XReady s w.g [w.d, w.a, w.b] ∧ w.d = d ∧ Claims.BlockAt s (Claims.xargs s w).a (Claims.xargs s w).b hdim ks h
    ∧ unpack f32 h.scale.toNat = .fin false 0x800000 (-23)
    ∧ (w.d = 0 ∧ ak = [] ∨ w.d ≠ 0 ∧ Claims.inWins (Claims.xargs s w).d [1, 4] ∧ (Claims.xargs s w).d.toNat % 4 = 0
      ∧ resolve s (xctx s) .wr true false (Claims.xargs s w).d 4 4 = .ok ak ∧ ∀ k ∈ ak, k ∉ ks) := by
  simp only [List.forall_mem_cons, List.not_mem_nil, false_imp_iff, implies_true, and_true]
  exact ⟨⟨⟨0, 0, 2, 3, 0⟩, nearBlock, 16, _, [], nearHdr, by unfold State.Ok; decide +kernel, by decide +kernel, xready_of (by decide +kernel), rfl,
      near_block, by decide +kernel, .inl ⟨rfl, rfl⟩⟩,
    ⟨⟨0, 5, 2, 3, 0⟩, nearBlock, 16, keysFrom (2 * 2 ^ 39) 320, _, nearHdr, by unfold State.Ok; decide +kernel, by decide +kernel,
      xready_of (by decide +kernel), rfl, near_block, by decide +kernel,
      .inr ⟨by decide, by unfold Claims.inWins; decide +kernel, by decide +kernel, ok_okOr (d := []) (by decide +kernel), by decide +kernel⟩⟩⟩
/-- The last of a base vector core's vaults. -/
theorem witness_NearMemoryComputes_xnstat : ∃ (w : FR) (s : State) (dk : List Nat) (v pa : Nat), s.Ok ∧ wf (.xnstat w) = true
    ∧ Claims.XReady s w.g [w.d, w.a] ∧ (Claims.xargs s w).a.toNat = 3 ∧ Claims.inWins (Claims.xargs s w).d [1] ∧ (Claims.xargs s w).d.toNat % 32 = 0
    ∧ resolve s (xctx s) .wr true false (Claims.xargs s w).d 32 32 = .ok dk
    ∧ placeOf s s.cx (BitVec.ofNat 64 (4 * 2 ^ 60 + (Claims.xargs s w).a.toNat * 2 ^ 32)) = .ok (.vault v pa)
    ∧ (s.vault v).vtax < 2 ^ 32 ∧ (s.vault v).wakewait < 2 ^ 32 ∧ (s.vault v).wakereplay < 2 ^ 32 ∧ (s.vault v).vecc < 2 ^ 32 ∧ (s.vault v).vfgd < 2 ^ 32
    ∧ (s.vault v).sleepMap / 2 ^ 32 < 2 ^ 32 := by
  exact ⟨⟨0, 1, 2, 0, 0⟩, (near.sr 1 0x1000000000000020).sr 2 3, _, 9, 2 * 2 ^ 39 + 9 * 2 ^ 30, by unfold State.Ok; decide +kernel, by decide +kernel,
    xready_of (by decide +kernel), by decide +kernel, by unfold Claims.inWins; decide +kernel, by decide +kernel, ok_okOr (d := []) (by decide +kernel),
    by decide +kernel⟩


/-- An address-register instruction of each kind on set 15, without and with a run. -/
theorem witness_AddressRegistersAndSets : ∀ i ∈ [Instr.agset ⟨0, 15, 31, 5, 0⟩, .agstop ⟨0, 0, 15, 0, 0⟩, .aget ⟨0, 31, 15, 7, 0⟩,
    .amovToA ⟨0, 31, 63, 0, 0⟩, .aadd ⟨0, 31, 31, 4, []⟩],
    ∃ (g : BitVec 2) (rs : List (BitVec 6)) (c : Ctx), wf i = true ∧ Claims.setForm i (st .p) = some (g, rs, c) ∧ gateOk g (st .p).cur.level = true
      ∧ (st .p).cur.chk = false := by
  simp only [List.forall_mem_cons, List.not_mem_nil, false_imp_iff, implies_true, and_true]
  have g (i : Instr) (h : (Claims.setForm i (st .p)).isSome = true)
      (h' : (wf i && gateOk ((Claims.setForm i (st .p)).get h).1 (st .p).cur.level && !(st .p).cur.chk) = true) :
      ∃ (g : BitVec 2) (rs : List (BitVec 6)) (c : Ctx), wf i = true ∧ Claims.setForm i (st .p) = some (g, rs, c) ∧ gateOk g (st .p).cur.level = true
        ∧ (st .p).cur.chk = false := by
    simp only [Bool.and_eq_true, Bool.not_eq_true'] at h'
    exact ⟨_, _, _, h'.1.1, (Option.some_get h).symm, h'.1.2, h'.2⟩
  exact ⟨g _ (by decide +kernel) (by decide +kernel), g _ (by decide +kernel) (by decide +kernel), g _ (by decide +kernel) (by decide +kernel),
    g _ (by decide +kernel) (by decide +kernel), g _ (by decide +kernel) (by decide +kernel)⟩
/-- A run under way: set 15 has its second access of three to make. -/
def run1 (load fault : Bool) : Run := ⟨load, 7, 0x1000000000000000, 32, [3], [128], 3, 1, 1, false, fault, 0, 0, 0, 0, false, 0⟩
def running1 (load fault : Bool) : State :=
  withCx (ports .p) fun c => { c with ag := c.ag.setIfInBounds 15 { AgSet.zero with run := some (run1 load fault) }, khd := { c.khd with ranges := [⟨1, 0, 0, 1024⟩] } }
theorem witness_AddressRegistersAndSets_waits : ∃ (w : FR) (s : State), gateOk w.g s.cur.level = true ∧ (Claims.setOf s.cx w.d.toNat).run ≠ none :=
  ⟨⟨0, 15, 31, 5, 0⟩, running1 true false, by decide +kernel⟩
theorem witness_AddressRegistersAndSets_amov : ∃ (w : FR) (s : State), gateOk w.g s.cur.level = true ∧ Claims.NoBreach s [] w.d :=
  ⟨⟨0, 63, 31, 0, 0⟩, st .p, by decide +kernel, .inl rfl⟩
theorem witness_RunsStart : ∃ (w : FR) (s t : State), w.a.toNat = 15 ∧ gateOk w.g s.cur.level = true ∧ gateOk w.g t.cur.level = true
    ∧ (Claims.setOf s.cx w.a.toNat).run = none ∧ (Claims.setOf t.cx w.a.toNat).run ≠ none :=
  ⟨⟨0, 0, 15, 0, 0⟩, st .p, running1 true false, by decide +kernel⟩
theorem witness_RunsGenerate_load : ∃ (s : State) (r : Run), s.sub.a = 15 ∧ (Claims.setOf s.cx s.sub.a).run = some r ∧ r.next < r.total ∧ r.stop = false
    ∧ r.ready ≤ s.cycle ∧ s.cx.caps = none
    ∧ (∀ g < 16, ∀ q, (Claims.setOf s.cx g).run = some q → q.load = r.load → q.port = r.port → q.aseq < r.aseq → q.total ≤ q.next ∨ q.stop = true)
    ∧ r.load = true ∧ (s.cx.lports.getD r.port []).length < 8 ∧ r.fault = false ∧ Claims.HasRoom s.cx true false := by
  refine ⟨{ running1 true false with sub := { a := 15 } }, run1 true false, rfl, by decide +kernel, by decide +kernel, rfl, by decide +kernel, rfl, ?_, by decide +kernel,
    by decide +kernel, by decide +kernel, fun _ => by decide +kernel, fun h => absurd h (by decide)⟩
  intro g _ q _ _ _ h
  exact absurd h (Nat.not_lt_zero _)
theorem witness_RunsGenerate_load_fault : ∃ (s : State) (r : Run), s.sub.a = 15 ∧ (Claims.setOf s.cx s.sub.a).run = some r ∧ r.next < r.total
    ∧ r.stop = false ∧ r.ready ≤ s.cycle ∧ s.cx.caps = none ∧ r.aseq = 0 ∧ r.load = true ∧ (s.cx.lports.getD r.port []).length < 8 ∧ r.fault = true :=
  ⟨{ running1 true true with sub := { a := 15 } }, run1 true true, by decide +kernel⟩
/-- A store run: of the eight entries of its port the oldest has been written. -/
def storing1 (fault : Bool) : State :=
  withCx { running1 false fault with sub := { a := 15 } } fun c => { c with sports := c.sports.setIfInBounds 7 [⟨1, true, VReg.zero⟩, ⟨2, false, VReg.zero⟩] }
theorem witness_RunsGenerate_store : ∀ b : Bool, ∃ (s : State) (r : Run) (e : PEntry) (es : List PEntry), s.sub.a = 15
    ∧ (Claims.setOf s.cx s.sub.a).run = some r ∧ r.next < r.total ∧ r.stop = false ∧ r.ready ≤ s.cycle ∧ s.cx.caps = none ∧ r.aseq = 0 ∧ r.load = false
    ∧ s.cx.sports.getD r.port [] = e :: es ∧ e.ready = true ∧ r.fault = b ∧ Claims.inQueue s.cx false < 64 ∧ s.cx.accS < 2
  | true => ⟨storing1 true, run1 false true, ⟨1, true, VReg.zero⟩, [⟨2, false, VReg.zero⟩], by decide +kernel⟩
  | false => ⟨storing1 false, run1 false false, ⟨1, true, VReg.zero⟩, [⟨2, false, VReg.zero⟩], by decide +kernel⟩
theorem witness_DirectAccessesEnter : ∀ i ∈ [Instr.ldv ⟨0, 47, 31, 0, 0⟩, .stv ⟨0, 47, 31, 0, 0⟩, .lds ⟨0, 63, 31, 6, 0⟩, .sts ⟨0, 63, 31, 6, 0⟩,
    .amark ⟨0⟩, .spfmt ⟨0, 4, 31, 15, 0⟩, .atom ⟨0, 63, 31, 5, 2⟩], ∃ f : Claims.AForm, wf i = true ∧ Claims.accForm i (st .p) = some f
      ∧ gateOk f.g (st .p).cur.level = true ∧ ¬ Claims.ABreach (st .p) f.reads f.d ∧ Claims.HasRoom (st .p).cx f.ql f.qs := by
  have nb (r d) : ¬ Claims.ABreach (st .p) r d := fun h => absurd h.1 (by decide)
  have room (a b) : Claims.HasRoom (st .p).cx a b := ⟨fun _ => by decide +kernel, fun _ => by decide +kernel⟩
  simp only [List.forall_mem_cons, List.not_mem_nil, false_imp_iff, implies_true, and_true]
  have g (i : Instr) (h : (Claims.accForm i (st .p)).isSome = true)
      (h' : (wf i && gateOk ((Claims.accForm i (st .p)).get h).g (st .p).cur.level) = true) :
      ∃ f : Claims.AForm, wf i = true ∧ Claims.accForm i (st .p) = some f ∧ gateOk f.g (st .p).cur.level = true
        ∧ ¬ Claims.ABreach (st .p) f.reads f.d ∧ Claims.HasRoom (st .p).cx f.ql f.qs := by
    simp only [Bool.and_eq_true] at h'
    exact ⟨_, h'.1, (Option.some_get h).symm, h'.2, nb _ _, room _ _⟩
  exact ⟨g _ (by decide +kernel) (by decide +kernel), g _ (by decide +kernel) (by decide +kernel), g _ (by decide +kernel) (by decide +kernel),
    g _ (by decide +kernel) (by decide +kernel), g _ (by decide +kernel) (by decide +kernel), g _ (by decide +kernel) (by decide +kernel),
    g _ (by decide +kernel) (by decide +kernel)⟩
/-- A queue with 64 accesses. -/
theorem witness_DirectAccessesEnter_full : ∃ (i : Instr) (s : State) (f : Claims.AForm), wf i = true ∧ Claims.accForm i s = some f
    ∧ gateOk f.g s.cur.level = true ∧ ¬ Claims.ABreach s f.reads f.d ∧ ¬ Claims.HasRoom s.cx f.ql f.qs := by
  refine ⟨.ldv ⟨0, 47, 31, 0, 0⟩, withCx (st .p) fun c => { c with accs := List.replicate 64 ⟨.ldv 1, 0, 128, true, false, 0, 0, 0, 0, false, false, Journey.start⟩ }, _,
    by decide +kernel, rfl, by decide +kernel, fun h => absurd h.1 (by decide), fun h => absurd (h.1 rfl).1 (by decide +kernel)⟩
/-- An access that has been presented. -/
def way : Journey := { Journey.start with pres := some 0 }
/-- One access, at a place in own scratch, the first in its order. -/
def accSt (op : AOp) (addr : W64) (size : Nat) (ql qs : Bool) (q : AccQ) : State :=
  { withCx (arr .p) fun c => { c with accs := [⟨op, addr, size, ql, qs, 0, 0, 0, 0, false, false, way⟩] } with sub := { acc := q } }
theorem witness_AccessesPerform : ∀ s ∈ [accSt (.lds 63 6) 0x100000000001FFF8 8 true false .load, accSt (.stv VReg.zero) 0x100000000001FF80 128 false true .store,
    accSt (.atom 0 1 2 3) 0x100000000001FFFC 4 true true .store], ∃ (a : Acc) (ks : List Nat), s.Ok ∧ Claims.Presents s a ∧ a.op.isMark = false
      ∧ s.sub.ecc ≠ .uncorrectable ∧ a.mixed = false ∧ Claims.SizeFits a ∧ accResolve s a = .ok ks ∧ a.chk = false
      ∧ Claims.HopFree s s.cx.id.die ks a.go ∧ awayDie s ks = none ∧ (rowsOf ks).length ≤ 1 := by
  simp only [List.forall_mem_cons, List.not_mem_nil, false_imp_iff, implies_true, and_true]
  refine ⟨⟨⟨.lds 63 6, 0x100000000001FFF8, 8, true, false, 0, 0, 0, 0, false, false, way⟩, keysFrom (scratchKey 0 0x1FFF8) 8, ?_⟩,
    ⟨⟨.stv VReg.zero, 0x100000000001FF80, 128, false, true, 0, 0, 0, 0, false, false, way⟩, keysFrom (scratchKey 0 0x1FF80) 128, ?_⟩,
    ⟨⟨.atom 0 1 2 3, 0x100000000001FFFC, 4, true, true, 0, 0, 0, 0, false, false, way⟩, keysFrom (scratchKey 0 0x1FFFC) 4, ?_⟩⟩
  · refine ⟨by unfold State.Ok; decide +kernel, ⟨by decide +kernel, by decide +kernel, by decide +kernel, .inl (by decide +kernel)⟩, by decide +kernel, by decide +kernel,
      by decide +kernel, ⟨?_, (by intro f d y z h; cases h)⟩, by unfold Claims.HopFree; decide +kernel⟩
    intro d z h
    cases h
    decide +kernel
  · exact ⟨by unfold State.Ok; decide +kernel, ⟨by decide +kernel, by decide +kernel, by decide +kernel, .inr (by decide +kernel)⟩, by decide +kernel, by decide +kernel,
      by decide +kernel, ⟨(by intro d z h; cases h), (by intro f d y z h; cases h)⟩, by unfold Claims.HopFree; decide +kernel⟩
  · refine ⟨by unfold State.Ok; decide +kernel, ⟨by decide +kernel, by decide +kernel, by decide +kernel, .inr (by decide +kernel)⟩, by decide +kernel, by decide +kernel,
      by decide +kernel, ⟨(by intro d z h; cases h), ?_⟩, by unfold Claims.HopFree; decide +kernel⟩
    intro f d y z h
    cases h
    decide +kernel
theorem witness_AccessesPerform_mark : ∃ (s : State) (a : Acc), s.Ok ∧ Claims.Presents s a ∧ a.op = .mark :=
  ⟨accSt .mark 0 0 true true .load, _, by unfold State.Ok; decide +kernel, ⟨rfl, rfl, by decide +kernel, .inl (by decide +kernel)⟩, rfl⟩
/-- The last eight banks of own scratch without a range, and one bank too many. -/
theorem witness_FormatsAreSet : ∃ (s : State) (a : Acc) (f n : Nat), Claims.Presents s a ∧ a.op = .spfmt f n ∧ a.addr.toNat / 2 ^ 60 = 1
    ∧ a.addr.extractLsb' 48 12 = 0 ∧ a.addr.toNat % 2 ^ 48 / sidBank (ownSid s.cx.id) + n = sidCap (ownSid s.cx.id) / sidBank (ownSid s.cx.id)
    ∧ fmtForbidden s 1 (ownSid s.cx.id) (a.addr.toNat % 2 ^ 48 / sidBank (ownSid s.cx.id)) n = false :=
  ⟨accSt (.spfmt 4 8) 0x1000000000020000 0 true true .load, ⟨.spfmt 4 8, 0x1000000000020000, 0, true, true, 0, 0, 0, 0, false, false, way⟩, 4, 8,
    ⟨by decide +kernel, by decide +kernel, by decide +kernel, .inl (by decide +kernel)⟩, rfl, by decide +kernel⟩
theorem witness_FormatsAreSet_illegal : ∃ (s : State) (a : Acc) (f n : Nat), Claims.Presents s a ∧ a.op = .spfmt f n ∧ a.addr.toNat / 2 ^ 60 = 1
    ∧ ¬ (a.addr.toNat % 2 ^ 48 / sidBank (ownSid s.cx.id) + n ≤ sidCap (ownSid s.cx.id) / sidBank (ownSid s.cx.id)) ∧ s.cx.due = none ∧ s.cx.pend = none :=
  ⟨accSt (.spfmt 4 9) 0x1000000000020000 0 true true .load, ⟨.spfmt 4 9, 0x1000000000020000, 0, true, true, 0, 0, 0, 0, false, false, way⟩, 4, 9,
    ⟨by decide +kernel, by decide +kernel, by decide +kernel, .inl (by decide +kernel)⟩, rfl, by decide +kernel⟩
theorem witness_FaultingAccessesPerformNothing : ∃ (s : State) (a : Acc) (c : Nat), s.cx.due = none ∧ s.cx.pend = none ∧ a.op.isMark = false
    ∧ Claims.Presents s a ∧ (∀ f n, a.op ≠ .spfmt f n) ∧ accResolve s a = .error c ∧ s.cx.accs[s.sub.a]? = some a ∧ s.sub.acc = .load ∧ a.ql = true :=
  ⟨accSt (.lds 63 6) 0x100000000001FFFC 8 true false .load, ⟨.lds 63 6, 0x100000000001FFFC, 8, true, false, 0, 0, 0, 0, false, false, way⟩, tcAlign,
    by decide +kernel, by decide +kernel, by decide +kernel, ⟨by decide +kernel, by decide +kernel, by decide +kernel, .inl (by decide +kernel)⟩, (by intro f n h; cases h),
    by decide +kernel, by decide +kernel, by decide +kernel, rfl⟩
/-- A vector load that reaches two rows of own scratch presents itself for both in turn. -/
theorem witness_AccessesPerform_rows : ∀ b : Bool, ∃ (s : State) (a : Acc) (ks : List Nat), s.Ok ∧ Claims.Presents s a ∧ a.op.isMark = false ∧ a.mixed = false
    ∧ accResolve s a = .ok ks ∧ a.chk = false ∧ Claims.HopFree s s.cx.id.die ks a.go ∧ awayDie s ks = none ∧ 1 < (rowsOf ks).length ∧ a.go.half = b := by
  intro b
  refine ⟨withCx (accSt (.ldv 1) 0x1000000000000040 128 true false .load) fun c => { c with accs := c.accs.map fun a => { a with go := { a.go with half := b } } },
    ⟨.ldv 1, 0x1000000000000040, 128, true, false, 0, 0, 0, 0, false, false, { way with half := b }⟩, keysFrom (scratchKey 0 0x40) 128, ?_⟩
  unfold State.Ok Claims.Presents Claims.HopFree
  revert b
  decide +kernel
/-- A vector store to memory of package 1, which leaves through its fabric port, and an access that receives an error completion. -/
theorem witness_AccessesPerform_away : ∃ (s : State) (a : Acc) (ks : List Nat) (d : Nat), s.Ok ∧ Claims.Presents s a ∧ a.op.isMark = false ∧ a.mixed = false
    ∧ accResolve s a = .ok ks ∧ Claims.HopFree s s.cx.id.die ks a.go ∧ awayDie s ks = some d ∧ a.go.left = none ∧ a.kind = .wr ∧ leftOnFabric s = [] := by
  refine ⟨{ accSt (.stv VReg.zero) 0x400 128 false true .store with xlat := [⟨0, 0, 0, 0, 0, 2 ^ 29, 2 ^ 42, 7⟩], pkg := { Pkg.reset with linkup := 1 }, cx := { (accSt (.stv VReg.zero) 0x400 128 false true .store).cx with accs := [⟨.stv VReg.zero, 0x400, 128, false, true, 0, 0, 0, 0, false, false, { way with slot := true }⟩] } },
    ⟨.stv VReg.zero, 0x400, 128, false, true, 0, 0, 0, 0, false, false, { way with slot := true }⟩, keysFrom (2 ^ 42 + 0x400) 128, 8, ?_⟩
  unfold State.Ok Claims.Presents Claims.HopFree
  decide +kernel


theorem yready_of {s : State} {g : BitVec 2} {reads dsts : List (BitVec 6)}
    (h : (gateOk g s.cur.level && (dsts.all fun d => !lineUsePending s.cx s.cur d.toNat) && !s.cur.chk) = true) : Claims.YReady s g reads dsts := by
  simp only [Bool.and_eq_true, List.all_eq_true, Bool.not_eq_true'] at h
  exact ⟨h.1.1, h.1.2, .inl h.2⟩
/-- Each form, of VMODE, of RRB with no level active, and of the last word of the last level, inside one level. -/
theorem witness_ControlRegistersReadAndWrite : ∀ p ∈ [(Instr.ycsrr ⟨0, 63, 0, 0x27⟩, st .p), (.ycsrw ⟨0, 63, 5, 4⟩, st .p), (.ycsrs ⟨0, 63, 5, 2⟩, st .p),
    (.ycsrc ⟨0, 63, 5, 0x27⟩, inLoop 5 1)], ∃ (w : FK) (new : Option W64), wf p.1 = true ∧ Claims.csrForm p.1 p.2 = some (w, new)
      ∧ Claims.YReady p.2 w.g [w.a] [w.d] ∧ (w.num = 4 → earlierWritten p.2.cx (p.2.cur.seq / 8) = true)
      ∧ (new = none ∨ Claims.CrAllowed p.2.cx w.num.toNat) := by
  unfold Claims.CrAllowed
  simp only [List.forall_mem_cons, List.not_mem_nil, false_imp_iff, implies_true, and_true]
  exact ⟨⟨_, _, by decide +kernel, rfl, yready_of (by decide +kernel), by decide +kernel, .inl rfl⟩,
    ⟨_, _, by decide +kernel, rfl, yready_of (by decide +kernel), by decide +kernel, .inr (by decide +kernel)⟩,
    ⟨⟨0, 63, 5, 2⟩, some (Claims.crValue (st .p).cx 0 2 ||| readS (st .p) 0 5), by decide +kernel, rfl, yready_of (by decide +kernel), by decide +kernel,
      .inr (by decide +kernel)⟩,
    ⟨⟨0, 63, 5, 0x27⟩, some (Claims.crValue (inLoop 5 1).cx 0x100 0x27 &&& ~~~ readS (inLoop 5 1) 0 5), by decide +kernel, rfl, yready_of (by decide +kernel),
      by decide +kernel, .inr (by decide +kernel)⟩⟩
/-- RRB inside a level, and a word of an active level. -/
theorem witness_ControlRegistersReadAndWrite_traps : ∀ n ∈ [(2 : BitVec 12), 0x10], ∃ (w : FK) (s : State) (v : W64), wf (.ycsrw w) = true
    ∧ Claims.csrForm (.ycsrw w) s = some (w, some v) ∧ Claims.YReady s w.g [w.a] [w.d] ∧ w.num = n ∧ ¬ Claims.CrAllowed s.cx w.num.toNat := by
  unfold Claims.CrAllowed
  simp only [List.forall_mem_cons, List.not_mem_nil, false_imp_iff, implies_true, and_true]
  exact ⟨⟨⟨0, 1, 5, 2⟩, inLoop 1 1, _, by decide +kernel, rfl, yready_of (by decide +kernel), rfl, by decide +kernel⟩,
    ⟨⟨0, 1, 5, 0x10⟩, inLoop 1 1, _, by decide +kernel, rfl, yready_of (by decide +kernel), rfl, by decide +kernel⟩⟩
theorem witness_TrapsEventsAndContextForms_ytrap : ∃ (w : FK) (s : State), Claims.YReady s w.g [w.a] [] := ⟨⟨0, 0, 5, 4095⟩, st .p, yready_of (by decide +kernel)⟩
/-- A legal event, released and held back by an access, and an illegal one. -/
theorem witness_TrapsEventsAndContextForms_ysig : ∃ (w : FR) (s u v : State), Claims.YReady s w.g [w.a, w.b] [] ∧ Claims.YReady u w.g [w.a, w.b] []
    ∧ Claims.YReady v w.g [w.a, w.b] []
    ∧ (let e := readS s 0 w.a.toNat
       e.extractLsb' 0 2 ≠ 0 ∧ e.extractLsb' 2 6 = 0 ∧ e.extractLsb' 16 48 = 0 ∧ readS u 0 w.a.toNat = e) ∧ released s false s.cur.seq = true
    ∧ released u false u.cur.seq = false ∧ ¬ (readS v 0 w.a.toNat).extractLsb' 2 6 = 0 :=
  ⟨⟨0, 0, 5, 6, 0⟩, (st .p).sr 5 0xFF03, withCx { (st .p).sr 5 0xFF03 with cur := { QEntry.none with seq := 8 } } fun c => { c with
      gacc := some ⟨.gld 4 true, 16, 1, .waiting, 0, 0, 0, false, Journey.start⟩ }, (st .p).sr 5 0x04, yready_of (by decide +kernel), yready_of (by decide +kernel),
    yready_of (by decide +kernel), by decide +kernel⟩
theorem witness_TrapsEventsAndContextForms_yperf : ∀ n ∈ [(7 : W64), 8], ∃ (w : FR) (s : State), Claims.YReady s w.g [w.a] [w.d] ∧ readS s 0 w.a.toNat = n := by
  simp only [List.forall_mem_cons, List.not_mem_nil, false_imp_iff, implies_true, and_true]
  exact ⟨⟨⟨0, 63, 5, 0, 0⟩, (st .p).sr 5 7, yready_of (by decide +kernel), by decide +kernel⟩,
    ⟨⟨0, 63, 5, 0, 0⟩, (st .p).sr 5 8, yready_of (by decide +kernel), by decide +kernel⟩⟩
theorem witness_TrapsEventsAndContextForms_yctx : ∃ (w : FR) (s : State), wf (.yctx w) = true ∧ s.cx.id.ctx = 1 ∧ Claims.YReady s w.g [] [w.d] :=
  ⟨⟨0, 63, 0, 3, 0⟩, withCx (st .p) fun c => { c with id := ⟨0, 0, false, 1⟩ }, by decide +kernel, rfl, yready_of (by decide +kernel)⟩
/-- A C queue that holds something; one that holds an exit alone; no other context; another context that is not blocked. -/
theorem witness_TrapsEventsAndContextForms_yswap : ∃ (w : FR) (s x t u : State) (o : Ctx), Claims.YReady s w.g [] [] ∧ Claims.YReady x w.g [] []
    ∧ Claims.YReady t w.g [] [] ∧ Claims.YReady u w.g [] [] ∧ ¬ Claims.LineDone s.cx ∧ Claims.LineDone x.cx ∧ x.cx.cq ≠ []
    ∧ Claims.LineDone t.cx ∧ (otherCtx t t.cx.id).isNone ∧ Claims.LineDone u.cx ∧ otherCtx u u.cx.id = some o ∧ ctxBlocked u o = false := by
  refine ⟨⟨0, 0, 0, 0, 0⟩, withCx (st .p) fun c => { c with cq := [QEntry.none] },
    withCx (st .p) fun c => { c with cq := [{ QEntry.none with word := ((encode (.exit ⟨0⟩)).map (·.word)).getD 0 }] }, st .p,
    { st .p with parked := [{ Ctx.idle ⟨0, 0, false, 1⟩ with has := true, khd := (cx .p).khd }] },
    { Ctx.idle ⟨0, 0, false, 1⟩ with has := true, khd := (cx .p).khd }, yready_of (by decide +kernel), yready_of (by decide +kernel),
    yready_of (by decide +kernel), yready_of (by decide +kernel), ?_, ?_, by decide +kernel, ?_, by decide +kernel, ?_, by decide +kernel⟩
  · intro h
    obtain ⟨w, e⟩ := h _ rfl
    rw [show QEntry.none.instr .c = some (.nop ⟨0⟩) by decide +kernel] at e
    cases e
  · intro e h
    cases h
    exact ⟨⟨0⟩, by decide +kernel⟩
  · intro e h
    cases h
  · intro e h
    cases h
/-- The last of 64 queues, and one past it. -/
theorem witness_TokenQueueInstructions : ∀ n ∈ [(63 : W64), 64], ∃ (w : FR) (s : State), Claims.YReady s w.g [w.a, w.b] []
    ∧ readS s 0 w.a.toNat = n ∧ (s.vi s.cx.it.vi).tqn = 64 := by
  simp only [List.forall_mem_cons, List.not_mem_nil, false_imp_iff, implies_true, and_true]
  exact ⟨⟨⟨0, 1, 5, 6, 63⟩, { (st .p).sr 5 63 with vis := [(0, { Vi.zero with tqn := 64 })] }, yready_of (by decide +kernel), by decide +kernel⟩,
    ⟨⟨0, 1, 5, 6, 63⟩, { (st .p).sr 5 64 with vis := [(0, { Vi.zero with tqn := 64 })] }, yready_of (by decide +kernel), by decide +kernel⟩⟩
/-- An attempt that succeeds, one that times out and one that goes on. -/
theorem witness_TokenQueueInstructions_attempts : ∀ p ∈ [(1, 63), (0, 0), (0, 63)], ∃ (s : State) (v : W64),
    s.cx.yfly = some (.tq true 63 v 1 0 p.2 0 0) ∧ (∀ r ∈ [1, 0], lineUsePending s.cx { QEntry.none with seq := (s.cx.lineSeq - 1) * 8 } r = false)
    ∧ (Claims.attemptOf (Tab.get [] s.tqs ((s.vi s.cx.it.vi).tqbase + 63)) (Tab.get 0 (s.vi s.cx.it.vi).depth 63) true v).1
      = if p.1 = 1 then 0 else 4 := by
  simp only [List.forall_mem_cons, List.not_mem_nil, false_imp_iff, implies_true, and_true]
  exact ⟨⟨withCx { st .p with vis := [(0, { Vi.zero with tqn := 64, depth := [(63, 1)] })] } fun c => { c with yfly := some (.tq true 63 7 1 0 63 0 0) }, 7, rfl,
      by decide +kernel⟩,
    ⟨withCx { st .p with vis := [(0, { Vi.zero with tqn := 64, depth := [(63, 1)] })], tqs := [(63, [1])] } fun c => { c with
        yfly := some (.tq true 63 7 1 0 0 0 0) }, 7, rfl, by decide +kernel⟩,
    ⟨withCx { st .p with vis := [(0, { Vi.zero with tqn := 64, depth := [(63, 1)] })], tqs := [(63, [1])] } fun c => { c with
        yfly := some (.tq true 63 7 1 0 63 0 0) }, 7, rfl, by decide +kernel⟩⟩
/-- A VI whose ASIDs are 0 to 3, a root register, and a translation of address space 3. -/
def asids (a : W64) : State :=
  { ((st .p).sr 5 a).sr 6 0x8000 with vis := [(0, { Vi.zero with asidn := 4 })], xlat := [⟨0, 0, 3, 0, 0, 65536, 0, 7⟩] }
theorem witness_TranslationInstructions_ytlbi : ∃ (w : FR), Claims.YReady (asids 3) w.g [w.a, w.b] [] ∧ Claims.OwnAsid (asids 3) (readS (asids 3) 0 w.a.toNat)
    ∧ Claims.YReady (asids 4) w.g [w.a, w.b] [] ∧ ¬ Claims.OwnAsid (asids 4) (readS (asids 4) 0 w.a.toNat) := by
  refine ⟨⟨0, 0, 5, 6, 0⟩, yready_of (by decide +kernel), ?_, yready_of (by decide +kernel), ?_⟩ <;> unfold Claims.OwnAsid <;> decide +kernel
theorem witness_TranslationInstructions_yprobe : ∃ (w : FR) (s : State), Claims.YReady s w.g [w.a] [w.d] :=
  ⟨⟨0, 63, 5, 3, 0⟩, mapped (st .p), yready_of (by decide +kernel)⟩
theorem witness_TranslationInstructions_ygen : ∃ (w : FR) (s u v x : State), Claims.YReady s w.g [w.a, w.b] [w.d] ∧ s.cx.yfly = none ∧ w.b ≠ 0
    ∧ Claims.OwnAsid s (readS s 0 w.a.toNat) ∧ Claims.RootLegal s (readS s 3 w.b.toNat) ∧ advanceMark ∉ (s.asid (readS s 0 w.a.toNat).toNat).pending
    ∧ Claims.YReady u w.g [w.a, w.b] [w.d] ∧ u.cx.yfly = none ∧ Claims.OwnAsid u (readS u 0 w.a.toNat) ∧ ¬ Claims.RootLegal u (readS u 3 w.b.toNat)
    ∧ Claims.YReady v w.g [w.a, w.b] [w.d] ∧ v.cx.yfly = some (.gen 3 65536)
    ∧ Claims.YReady x w.g [w.a, w.b] [w.d] ∧ x.cx.yfly = none ∧ Claims.OwnAsid x (readS x 0 w.a.toNat) ∧ Claims.RootLegal x (readS x 3 w.b.toNat)
    ∧ advanceMark ∈ (x.asid (readS x 0 w.a.toNat).toNat).pending := by
  refine ⟨⟨0, 63, 5, 6, 0⟩, asids 3, (asids 3).sr 6 0x8001, withCx (asids 3) fun c => { c with yfly := some (.gen 3 65536) },
    { asids 3 with asTab := [(3, ⟨0, 1, 0, [advanceMark], [⟨none, 0, none⟩]⟩)] }, yready_of (by decide +kernel), rfl, by decide, ?_, ?_, by decide +kernel,
    yready_of (by decide +kernel), rfl, ?_, ?_, yready_of (by decide +kernel), rfl, yready_of (by decide +kernel), rfl, ?_, ?_, by decide +kernel⟩ <;>
    (first | unfold Claims.OwnAsid | unfold Claims.RootLegal) <;> decide +kernel

/-- A context that runs, at the line at 0x100, in the same address space as `mapped`. -/
def atLine (c : Ctx) : Ctx := { c with pc := 0x100, it := { c.it with asid := 0 } }
/-- A line of one nop of the C stream; with an illegal stream code in slot 7; with a word in an empty slot; with a code 8 that extends nothing;
with two transfers; with an illegal word; with LAST. -/
def lineA : Line := [1, 0x02000000, 0, 0, 0, 0, 0, 0]
def lineBad : Line := [0x09000000, 0, 0, 0, 0, 0, 0, 0]
def lineWord : Line := [0, 0, 0, 0, 0, 0, 0, 1]
def lineExt : Line := [8, 0, 0, 0, 0, 0, 0, 0]
def lineTwo : Line := [0x11, 0x06000005, 0x06000005, 0, 0, 0, 0, 0]
def lineLastA : Line := [0x10000001, 0x02000000, 0, 0, 0, 0, 0, 0]
/-- Held by the cache, from memory at the last mapped line, a page that is not mapped, and a fall-through past LAST. -/
theorem witness_LinesAreFetched : ∃ (s u v x : State) (l : Line) (ks : List Nat) (e : Nat),
    (canFetch s = true ∧ (s.cx.resume.isNone = true ∨ s.cx.inLine = true) ∧ ¬ (s.cx.inLine = true ∧ s.cx.nxt.isNone = true ∧ s.cx.last = true)
      ∧ Claims.heldLine (Claims.turnedState s) (Claims.following s.cx) = some l)
    ∧ (canFetch u = true ∧ (u.cx.resume.isNone = true ∨ u.cx.inLine = true) ∧ ¬ (u.cx.inLine = true ∧ u.cx.nxt.isNone = true ∧ u.cx.last = true)
      ∧ Claims.heldLine (Claims.turnedState u) (Claims.following u.cx) = none
      ∧ resolve (Claims.turnedState u) (Claims.turnedState u).cx .ex false false (Claims.following u.cx) 32 32 = .ok ks ∧ fencedKeys u u.cx.id.die ks = false)
    ∧ (canFetch v = true ∧ (v.cx.resume.isNone = true ∨ v.cx.inLine = true) ∧ ¬ (v.cx.inLine = true ∧ v.cx.nxt.isNone = true ∧ v.cx.last = true)
      ∧ Claims.heldLine (Claims.turnedState v) (Claims.following v.cx) = none
      ∧ resolve (Claims.turnedState v) (Claims.turnedState v).cx .ex false false (Claims.following v.cx) 32 32 = .error e)
    ∧ (canFetch x = true ∧ (x.cx.resume.isNone = true ∨ x.cx.inLine = true) ∧ x.cx.inLine = true ∧ x.cx.nxt.isNone = true ∧ x.cx.last = true) :=
  ⟨withCx { mapped (st .p) with icache := [⟨0, 0, 0, 0x120, lineA⟩] } fun c => { atLine c with line := some lineA, inLine := true },
    withCx (mapped (st .p)) fun c => { atLine c with inLine := true, nxt := some 0x1FFFFFE0 },
    withCx (mapped (st .p)) fun c => { atLine c with inLine := true, nxt := some 0x20000000 },
    withCx (mapped (st .p)) fun c => { atLine c with inLine := true, last := true }, lineA, keysFrom 0x1FFFFFE0 32, tcTranslation, by decide +kernel⟩
/-- A line held by the replay buffer that the instruction cache does not hold. -/
theorem witness_LinesAreFetched_replayed : ∃ (s : State) (l : Line), canFetch s = true ∧ s.cx.inLine = true ∧ s.cx.nxt.isNone = true ∧ s.cx.last = false
    ∧ cachedLine (Claims.turnedState s) (Claims.following s.cx) = none ∧ Claims.heldLine (Claims.turnedState s) (Claims.following s.cx) = some l :=
  ⟨withCx (mapped (st .p)) fun c => { atLine c with inLine := true, replay := [(0x120, lineA)] }, lineA, by decide +kernel⟩
/-- A legal line, and one of each kind of R98 that is not, with the lowest such slot. -/
theorem witness_LinesAreFetched_illegal : [lineA, lineLastA, lineBad, lineWord, lineExt, lineTwo, [0x40000000, 0, 0, 0, 0, 0, 0, 0]].map illegalLine
    = [none, none, some 7, some 7, some 1, some 2, some 0] := by decide +kernel
/-- Lines to deliver: illegal ones; one with an illegal instruction; a legal one with room and without; one in a body that is passed over. -/
theorem witness_LinesAreDelivered : ∃ (d f n r k : State),
    (canDeliver d = true ∧ d.cx.line = some lineWord ∧ illegalLine lineWord = some 7)
    ∧ (canDeliver f = true ∧ f.cx.line = some [1, 0xFE000000, 0, 0, 0, 0, 0, 0] ∧ f.cx.skip.isNone = true
        ∧ illegalLine [1, 0xFE000000, 0, 0, 0, 0, 0, 0] = none ∧ firstBad f.cx [1, 0xFE000000, 0, 0, 0, 0, 0, 0] = some (1, tcInstr))
    ∧ (canDeliver n = true ∧ n.cx.line = some lineA ∧ n.cx.skip.isNone = true ∧ firstBad n.cx lineA = none
        ∧ roomFor n.cx (entriesOf n.cx n.cycle lineA) = true)
    ∧ (canDeliver r = true ∧ r.cx.line = some [2, 0x02000000, 0, 0, 0, 0, 0, 0] ∧ r.cx.skip.isNone = true
        ∧ illegalLine [2, 0x02000000, 0, 0, 0, 0, 0, 0] = none ∧ firstBad r.cx [2, 0x02000000, 0, 0, 0, 0, 0, 0] = none
        ∧ roomFor r.cx (entriesOf r.cx r.cycle [2, 0x02000000, 0, 0, 0, 0, 0, 0]) = false)
    ∧ canDeliver k = true ∧ k.cx.line = some lineLastA ∧ k.cx.skip = some 0 ∧ illegalLine lineLastA = none ∧ illegalLine lineA = none :=
  ⟨withCx (st .p) fun c => { atLine c with line := some lineWord }, withCx (st .p) fun c => { atLine c with line := some [1, 0xFE000000, 0, 0, 0, 0, 0, 0] },
    withCx (st .p) fun c => { atLine c with line := some lineA },
    withCx (st .p) fun c => { atLine c with line := some [2, 0x02000000, 0, 0, 0, 0, 0, 0], sq := List.replicate 16 QEntry.none },
    withCx (st .p) fun c => { atLine c with line := some lineLastA, skip := some 0 }, by decide +kernel⟩
/-- A trap whose record is written, one that is lost, and one that waits for an access. -/
theorem witness_TrapsEndTheIteration : ∃ (f : TrapInfo) (s u w : State) (ks : List Nat),
    (s.Ok ∧ s.cx.due = some f ∧ trapReady s = true ∧ (s.vi s.cx.it.vi).trapcnt.toNat < (s.vi s.cx.it.vi).trapn
      ∧ resolve s s.cx .wr false false ((s.vi s.cx.it.vi).trapbase + BitVec.ofNat 64 (64 * (s.vi s.cx.it.vi).trapcnt.toNat)) 64 64 = .ok ks)
    ∧ (u.Ok ∧ u.cx.due = some f ∧ trapReady u = true ∧ (u.vi u.cx.it.vi).trapn ≤ (u.vi u.cx.it.vi).trapcnt.toNat)
    ∧ w.Ok ∧ w.cx.due = some f ∧ trapReady w = false :=
  ⟨⟨0x0F, 0x100, 1, 77, 9, 7, true⟩,
    withCx { mapped (st .p) with vis := [(0, { Vi.zero with trapbase := 0x1000, trapn := 4, trapcnt := 3 })] } fun c => { c with due := some ⟨0x0F, 0x100, 1, 77, 9, 7, true⟩, mode := .ended },
    withCx { mapped (st .p) with vis := [(0, { Vi.zero with trapbase := 0x1000, trapn := 4, trapcnt := 4 })] } fun c => { c with due := some ⟨0x0F, 0x100, 1, 77, 9, 7, true⟩, mode := .ended },
    withCx (st .p) fun c => { c with due := some ⟨0x0F, 0x100, 1, 77, 9, 7, true⟩, mode := .ended, gacc := some ⟨.gld 4 true, 16, 1, .waiting, 0, 0, 0, false, Journey.start⟩ },
    keysFrom 0x10C0 64, by unfold State.Ok; decide +kernel⟩
/-- An entry of a queue. -/
def held (w : W32) : QEntry := { QEntry.none with word := w, line := 0x100, slot := 3, seq := 3 }
/-- The watchdog with a C instruction at its head, an exit, a Y instruction, and nothing; the default limit and a limit of 1. -/
theorem witness_TrapsEndTheIteration_watchdog : ∀ p ∈ [(([held 0x02000000] : List QEntry), ([] : List QEntry)),
    ([held 0x6A000000], []), ([], [held 0]), ([], [])],
    ∃ s : State, s.cx.has = true ∧ s.cx.due.isNone = true ∧ s.cx.pend.isNone = true ∧ s.cx.cq = p.1 ∧ s.cx.yq = p.2
      ∧ (if (s.vi s.cx.it.vi).wdlim.toNat = 0 then 256 else (s.vi s.cx.it.vi).wdlim.toNat) * 65536 ≤ s.cx.wd := by
  simp only [List.forall_mem_cons, List.not_mem_nil, false_imp_iff, implies_true, and_true]
  exact ⟨⟨withCx (st .p) fun c => { c with cq := [held 0x02000000], wd := 16777216 }, by decide +kernel⟩,
    ⟨withCx { st .p with vis := [(0, { Vi.zero with wdlim := 1 })] } fun c => { c with cq := [held 0x6A000000], wd := 65536 }, by decide +kernel⟩,
    ⟨withCx (st .p) fun c => { c with yq := [held 0], wd := 16777216 }, by decide +kernel⟩,
    ⟨withCx (st .p) fun c => { c with wd := 16777216 }, by decide +kernel⟩⟩
/-- The watchdog while a token-queue instruction of slot 5 holds delivery. -/
theorem witness_TrapsEndTheIteration_watchdog_waiting : ∃ (s : State) (y : YFly), s.cx.has = true ∧ s.cx.due.isNone = true ∧ s.cx.pend.isNone = true
    ∧ s.cx.cq = [] ∧ s.cx.yq = [] ∧ s.cx.yfly = some y ∧ s.cx.yseq % 8 = 5 ∧ 256 * 65536 ≤ s.cx.wd :=
  ⟨withCx (st .p) fun c => { c with yfly := some (.tq true 63 7 1 0 63 0 0), yseq := 13, wd := 16777216 }, _, by decide +kernel, by decide +kernel,
    by decide +kernel, rfl, rfl, rfl, by decide +kernel⟩
/-- The other context of core 0, which is not blocked. -/
def second : Ctx := { Ctx.idle ⟨0, 0, false, 1⟩ with has := true, khd := (cx .p).khd, it := { Iter.none with prio := 3 } }
theorem witness_ContextsTakeTurns : ∃ (s u : State) (o : Ctx), (s.cx.has = true ∧ (s.coreSt s.cx.id.coreKey).active = s.cx.id.ctx
      ∧ (s.coreSt s.cx.id.coreKey).change.isNone = true ∧ 64 ≤ s.cx.stall ∧ ctxBlocked s s.cx = true ∧ otherCtx s s.cx.id = some o ∧ ctxBlocked s o = false)
    ∧ ∃ n at', (u.coreSt u.cx.id.coreKey).change = some (n, at') ∧ at' ≤ u.cycle :=
  ⟨withCx { st .p with parked := [second] } fun c => { c with stall := 64, yfly := some (.tq true 63 7 1 0 63 0 0) },
    { st .p with parked := [second], cores := [(0, ⟨0, some (1, 8)⟩)], cycle := 8 }, second, by decide +kernel, 1, 8, by decide +kernel⟩
/-- Requests that are urgent, within a share, and neither; to the array of cluster 0. -/
def asking (rs : List LReq) : State := (st .p).setGreat 0 { GArray.zero with reqs := rs }
theorem witness_LeasesAreGranted : ∀ rs ∈ [[⟨⟨0, 0, false, 0⟩, 0, 0, 5, 8⟩, ⟨⟨0, 1, false, 0⟩, 0, 9, 4, 9⟩], [(⟨⟨0, 1, false, 0⟩, 0, 9, 4, 0⟩ : LReq)]],
    ∃ s : State, (s.great s.sub.a).lease.isNone = true ∧ (s.great s.sub.a).reqs = rs ∧ rs ≠ [] ∧ (∀ q ∈ (s.great s.sub.a).reqs, q.ctx.cluster = s.sub.a) := by
  intro rs h
  refine ⟨asking rs, ?_⟩
  simp only [List.mem_cons, List.not_mem_nil, or_false] at h
  rcases h with rfl | rfl <;> decide +kernel
/-- A lease of the focused context granted at cycle 0. -/
def leased (cmds now : Nat) (busy : List MCmd) : State :=
  withCx { (st .p).setGreat 0 { GArray.zero with lease := some ⟨⟨0, 0, false, 0⟩, 0, 0, cmds, false, 0⟩ } with cycle := now } fun c => { c with mfly := busy }
theorem witness_LeasesEnd : ∃ (s u v w : State) (l k : Lease),
    ((s.great s.sub.a).lease = some k ∧ Claims.AtLimit s k ∧ cmdsAtBoundary s k.ctx = true)
    ∧ ((u.great u.sub.a).lease = some l ∧ l.at' + 4096 ≤ u.cycle)
    ∧ ((v.great v.sub.a).lease = some l ∧ l.idle + 16 ≤ v.cycle ∧ ∀ c, ctxOf v l.ctx = some c → c.mfly = [] ∧ pendingGreat c = false)
    ∧ (w.great w.sub.a).lease = some l ∧ l.ctx = w.cx.id ∧ l.at' + 16384 ≤ w.cycle ∧ cmdsAtBoundary w l.ctx = false ∧ w.cx.due.isNone = true
      ∧ w.cx.pend.isNone = true := by
  refine ⟨leased 16 0 [], leased 15 4096 [], leased 15 16 [], leased 15 16384 [⟨QEntry.none, 0, 0, [], [], .plain⟩], ⟨⟨0, 0, false, 0⟩, 0, 0, 15, false, 0⟩,
    ⟨⟨0, 0, false, 0⟩, 0, 0, 16, false, 0⟩, ⟨by decide +kernel, .inr (.inl (by decide)), by decide +kernel⟩, by decide +kernel, ⟨by decide +kernel, by decide +kernel, ?_⟩,
    by decide +kernel⟩
  intro c h
  rw [show ctxOf (leased 15 16 []) ⟨0, 0, false, 0⟩ = some (leased 15 16 []).cx by decide +kernel] at h
  cases h
  decide +kernel

/-- 8-byte words stored at addresses. -/
def words8 (s : State) (ps : List (Nat × Nat)) : State := ps.foldl (fun t p => storeAt t p.1 8 p.2) s
/-- Region 1: a root of interface 0 and address space 0, which runs. -/
def regA : Region := { newRegion 1 0x1000 none 0 0 .root 0 0 0 0 with started := true, cores := 4, bvc := 4, scratch := 4096, lease := 8, prio := 3 }
/-- Node 2 of instance 1 of region 1, at 0x400, with its words. -/
def nodeA (ws : List W64) : GNode := ⟨2, 1, 1, 0x400, ws, .ready, 2, none, none, 0, 0, 0, 0, 0, none, false⟩
/-- Interface 0 is enabled; the hub's translation of the mapped range stands ready; a SIGNAL node that writes nothing stands at 0x800, and words are stored. -/
def graphOf (r : Region) (n : GNode) (ps : List (Nat × Nat)) : State :=
  { words8 (paged { st .p with cx := Ctx.idle ⟨0, 0, false, 0⟩ }) ((0x800, 0x14) :: ps) with xlat := [⟨6, 0, 0, 0, 0, 2 ^ 29, 0, 7⟩], vis := [(0, { Vi.zero with en := true, asidn := 4, cores := 4, bvc := 4, scratch := 4096, priomax := 15, mincores := 0 })], regions := [r], insts := [⟨1, 1, none, 1, [], false⟩], nodes := [n], sub := { a := 2 }, nextId := 3 }
theorem maystart_of {s : State} {n : GNode} {r : Region}
    (h : (decide (s.node? s.sub.a = some n) && decide (s.region? n.rid = some r) && decide (n.st = .ready) && r.started && !r.completed && !r.stopped
      && viOn s r.vi && (s.nodes.find? (fun m => m.rid == n.rid && m.st == .ready)).all (fun m => m.nid == n.nid) && decide (r.gen = (s.asid r.asid).gen)
      && decide ((sampleCancel s r.rid).isNone = true)) = true) : Claims.MayStart s n r := by
  simp only [Bool.and_eq_true, decide_eq_true_eq, Bool.not_eq_true'] at h
  obtain ⟨⟨⟨⟨⟨⟨⟨⟨⟨h1, h2⟩, h3⟩, h4⟩, h5⟩, h6⟩, h7⟩, h8⟩, h9⟩, h10⟩ := h
  refine ⟨h1, h2, h3, ⟨h4, h5, h6⟩, h7, ?_, h9, Option.isNone_iff_eq_none.1 h10⟩
  intro m hm
  rw [hm] at h8
  exact eq_of_beq (by simpa using h8)
theorem nat_of {s : State} {asid : Nat} {gen : BitVec 16} {va : W64} {n : Nat} (h : isOk (hubNat s asid gen va n) = true) :
    hubNat s asid gen va n = .ok (okOr (hubNat s asid gen va n) 0) := ok_okOr h
theorem deps_of {s : State} {r : Region} {va : W64} {d : Nat}
    (h : (decide (va.toNat / 2 ^ 60 = 0) && decide (va.toNat % 64 = 0) && isOk (hubNat s r.asid r.gen va 8)
      && decide (okOr (hubNat s r.asid r.gen va 8) 0 / 2 ^ 8 % 2 ^ 8 = d)) = true) : Claims.DepsAt s r va d := by
  simp only [Bool.and_eq_true, decide_eq_true_eq] at h
  exact ⟨h.1.1.1, h.1.1.2, _, nat_of h.1.2, h.2⟩
/-- The words of the node that stands at 0x800. -/
def signalWords : List W64 := [0x14, 0, 0, 0, 0, 0, 0, 0]
theorem nodeat_of {s : State} {r : Region} {va : W64} (h : (isOk (hubNat s r.asid r.gen va 64)
      && decide (parseNode (okOr (hubNat s r.asid r.gen va 64) 0) = some signalWords)) = true) : Claims.NodeAt s r va signalWords := by
  simp only [Bool.and_eq_true, decide_eq_true_eq] at h
  refine ⟨⟨_, nat_of h.1, h.2⟩, ?_⟩
  intro m _ hw hk
  simp only [Claims.kindOf, hw] at hk
  exact absurd hk (by decide +kernel)
theorem tested_of {s : State} {n : GNode} {r : Region} (h : isOk (hubNat s r.asid r.gen (n.words.getD 2 0) 8) = true) :
    Claims.Tested s n r (BitVec.ofNat 64 (okOr (hubNat s r.asid r.gen (n.words.getD 2 0) 8) 0) &&& n.words.getD 3 0) := ⟨_, nat_of h, rfl⟩
theorem untested_of {s : State} {n : GNode} {r : Region} (h : isOk (hubNat s r.asid r.gen (n.words.getD 2 0) 8) = false) : ¬ ∃ x, Claims.Tested s n r x := by
  rintro ⟨_, v, hv, _⟩
  rw [hv] at h
  exact absurd h (by simp [isOk])
theorem witness_NodesStart_kernels : ∀ k ∈ [(0x10 : W64), 0x17, 0x14], ∃ (s : State) (n : GNode) (r : Region), Claims.MayStart s n r
    ∧ Claims.kindOf n = k.toNat := by
  have h (k : W64) (h1 : Claims.MayStart (graphOf regA (nodeA [k]) []) (nodeA [k]) regA) (h2 : Claims.kindOf (nodeA [k]) = k.toNat) :
      ∃ (s : State) (n : GNode) (r : Region), Claims.MayStart s n r ∧ Claims.kindOf n = k.toNat := ⟨_, _, _, h1, h2⟩
  simp only [List.forall_mem_cons, List.not_mem_nil, false_imp_iff, implies_true, and_true]
  exact ⟨h _ (maystart_of (by decide +kernel)) (by decide +kernel), h _ (maystart_of (by decide +kernel)) (by decide +kernel),
    h _ (maystart_of (by decide +kernel)) (by decide +kernel)⟩
/-- A COND node whose word 5 equals its operand: it opens the instance at 0x800; with an operand that differs it opens none; and one whose word cannot be read. -/
def condA (p op : W64) : GNode := nodeA [0x11, 0, p, 0xFF, op, 0, 0x800, 0]
theorem witness_NodesStart_cond : ∀ op ∈ [(5 : W64), 6], ∃ (s : State) (n : GNode) (r : Region) (x entry : W64), Claims.MayStart s n r ∧ Claims.kindOf n = 0x11
    ∧ Claims.Tested s n r x ∧ n.words.getD 4 0 = op ∧ entry = (if Claims.condTrue ((n.words.getD 5 0).extractLsb' 0 4).toNat x (n.words.getD 4 0) then n.words.getD 6 0 else n.words.getD 7 0)
    ∧ (entry = 0 ∨ (depthOf s n < 8 ∧ Claims.DepsAt s r entry 0 ∧ Claims.NodeAt s r entry signalWords)) := by
  simp only [List.forall_mem_cons, List.not_mem_nil, false_imp_iff, implies_true, and_true]
  exact ⟨⟨graphOf regA (condA 0x600 5) [(0x600, 5)], condA 0x600 5, regA, _, 0x800, maystart_of (by decide +kernel), by decide +kernel, tested_of (by decide +kernel),
      rfl, by decide +kernel, .inr ⟨by decide +kernel, deps_of (by decide +kernel), nodeat_of (by decide +kernel)⟩⟩,
    ⟨graphOf regA (condA 0x600 6) [(0x600, 5)], condA 0x600 6, regA, _, 0, maystart_of (by decide +kernel), by decide +kernel, tested_of (by decide +kernel),
      rfl, by decide +kernel, .inl rfl⟩⟩
theorem witness_NodesStart_cond_fault : ∃ (s : State) (n : GNode) (r : Region), Claims.MayStart s n r ∧ Claims.kindOf n = 0x11 ∧ ¬ ∃ x, Claims.Tested s n r x :=
  ⟨graphOf regA (condA 0x20000000 5) [], condA 0x20000000 5, regA, maystart_of (by decide +kernel), by decide +kernel, untested_of (by decide +kernel)⟩
/-- A SWITCH of 5 entries: index 5 takes the default; index 4 an entry of its table at 0x700. -/
def switchA (n : W64) (p : W64) : GNode := nodeA [0x13, 0, p, 0xFF, n <<< 32, 0x700, 0x800, 0]
theorem witness_NodesStart_switch : ∃ (s u v : State) (n m f : GNode) (r : Region) (x y : W64) (e : Nat),
    (Claims.MayStart s n r ∧ Claims.kindOf n = 0x13 ∧ Claims.Tested s n r x ∧ ((n.words.getD 4 0).extractLsb' 32 16).toNat ≤ x.toNat / 2 ^ ((n.words.getD 4 0).extractLsb' 0 6).toNat)
    ∧ (Claims.MayStart u m r ∧ Claims.kindOf m = 0x13 ∧ Claims.Tested u m r y ∧ y.toNat / 2 ^ ((m.words.getD 4 0).extractLsb' 0 6).toNat < ((m.words.getD 4 0).extractLsb' 32 16).toNat
      ∧ hubNat u r.asid r.gen (m.words.getD 5 0 + BitVec.ofNat 64 (8 * (y.toNat / 2 ^ ((m.words.getD 4 0).extractLsb' 0 6).toNat))) 8 = .ok e ∧ e = 0x800)
    ∧ Claims.MayStart v f r ∧ Claims.kindOf f = 0x13 ∧ ¬ ∃ x, Claims.Tested v f r x :=
  ⟨graphOf regA (switchA 5 0x600) [(0x600, 5)], graphOf regA (switchA 6 0x600) [(0x600, 5), (0x728, 0x800)], graphOf regA (switchA 6 0x20000000) [],
    switchA 5 0x600, switchA 6 0x600, switchA 6 0x20000000, regA, _, _, _,
    ⟨maystart_of (by decide +kernel), by decide +kernel, tested_of (by decide +kernel), by decide +kernel⟩,
    ⟨maystart_of (by decide +kernel), by decide +kernel, tested_of (by decide +kernel), by decide +kernel, nat_of (by decide +kernel), by decide +kernel⟩,
    maystart_of (by decide +kernel), by decide +kernel, untested_of (by decide +kernel)⟩
/-- LOOP nodes: of count 0 and 1, and with a condition that holds and one that does not. -/
def loopA (w5 op : W64) : GNode := nodeA [0x12, 0, if w5.getLsbD 4 then 0x600 else 0, if w5.getLsbD 4 then 0xFF else 0, op, w5, 0x800, 0]
theorem witness_NodesStart_loop : ∃ (s t u v : State) (n0 n1 n2 n3 : GNode) (r : Region) (x y : W64),
    (Claims.MayStart s n0 r ∧ Claims.kindOf n0 = 0x12 ∧ n0.loopsDone = 0 ∧ (n0.words.getD 5 0).getLsbD 4 = false ∧ ((n0.words.getD 5 0).extractLsb' 32 32).toNat = 0)
    ∧ (Claims.MayStart t n1 r ∧ Claims.kindOf n1 = 0x12 ∧ n1.loopsDone = 0 ∧ (n1.words.getD 5 0).getLsbD 4 = false ∧ 0 < ((n1.words.getD 5 0).extractLsb' 32 32).toNat
      ∧ depthOf t n1 < 8 ∧ Claims.DepsAt t r (n1.words.getD 6 0) 0 ∧ Claims.NodeAt t r (n1.words.getD 6 0) signalWords)
    ∧ (Claims.MayStart u n2 r ∧ Claims.kindOf n2 = 0x12 ∧ n2.loopsDone = 0 ∧ (n2.words.getD 5 0).getLsbD 4 = true ∧ Claims.Tested u n2 r x
      ∧ Claims.condTrue ((n2.words.getD 5 0).extractLsb' 0 4).toNat x (n2.words.getD 4 0) = true ∧ depthOf u n2 < 8 ∧ Claims.DepsAt u r (n2.words.getD 6 0) 0
      ∧ Claims.NodeAt u r (n2.words.getD 6 0) signalWords)
    ∧ Claims.MayStart v n3 r ∧ Claims.kindOf n3 = 0x12 ∧ n3.loopsDone = 0 ∧ (n3.words.getD 5 0).getLsbD 4 = true ∧ Claims.Tested v n3 r y
      ∧ Claims.condTrue ((n3.words.getD 5 0).extractLsb' 0 4).toNat y (n3.words.getD 4 0) = false :=
  ⟨graphOf regA (loopA 0 0) [], graphOf regA (loopA 0x100000000 0) [], graphOf regA (loopA 0x10 5) [(0x600, 5)], graphOf regA (loopA 0x10 6) [(0x600, 5)],
    loopA 0 0, loopA 0x100000000 0, loopA 0x10 5, loopA 0x10 6, regA, _, _,
    ⟨maystart_of (by decide +kernel), by decide +kernel⟩,
    ⟨maystart_of (by decide +kernel), by decide +kernel, by decide +kernel, by decide +kernel, by decide +kernel, by decide +kernel, deps_of (by decide +kernel), nodeat_of (by decide +kernel)⟩,
    ⟨maystart_of (by decide +kernel), by decide +kernel, by decide +kernel, by decide +kernel, tested_of (by decide +kernel), by decide +kernel, by decide +kernel,
      deps_of (by decide +kernel), nodeat_of (by decide +kernel)⟩,
    maystart_of (by decide +kernel), by decide +kernel, by decide +kernel, by decide +kernel, tested_of (by decide +kernel), by decide +kernel⟩
/-- A SIGNAL node that writes, one that adds, and one whose write faults. -/
def signalA (p : W64) (op : W64) : GNode := nodeA [0x14, 0, p, 7, 0x50300 + op, 0, 0, 0]
theorem witness_NodesStart_signal : ∀ p ∈ [((0x600 : W64), (0 : W64), true), (0x1FFFFFF8, 1, true), (0x20000000, 0, false)], ∃ (s : State) (n : GNode) (r : Region),
    Claims.MayStart s n r ∧ Claims.kindOf n = 0x14 ∧ s.Ok ∧ n.words.getD 2 0 = p.1 ∧ n.words.getD 2 0 ≠ 0
      ∧ isOk (agentKeys s hubDie r.asid r.gen (if ((n.words.getD 4 0).extractLsb' 0 2).toNat = 0 then .wr else .rw) (n.words.getD 2 0) 8) = p.2.2 := by
  unfold State.Ok
  simp only [List.forall_mem_cons, List.not_mem_nil, false_imp_iff, implies_true, and_true]
  exact ⟨⟨graphOf regA (signalA 0x600 0) [], signalA 0x600 0, regA, maystart_of (by decide +kernel), by decide +kernel⟩,
    ⟨graphOf regA (signalA 0x1FFFFFF8 1) [], signalA 0x1FFFFFF8 1, regA, maystart_of (by decide +kernel), by decide +kernel⟩,
    ⟨graphOf regA (signalA 0x20000000 0) [], signalA 0x20000000 0, regA, maystart_of (by decide +kernel), by decide +kernel⟩⟩

/-- Work done: a kernel whose one iteration has exited, a SIGNAL, and a COND whose instance is done; no successor, one, and two from a table. -/
theorem witness_NodesComplete : ∀ n ∈ [{ nodeA [0x10] with st := .running, next := 1, total := 1, exited := 1 },
      { nodeA [0x10014, 0x800, 0, 0, 0, 0, 0, 0] with st := .running, finished := true }, { nodeA [0x20011, 0x700, 0, 0, 0, 0, 0x800, 0] with st := .running }],
    ∃ (s : State) (r : Region), s.node? s.sub.a = some n ∧ (s.region? n.rid).isSome = true ∧ (s.inst? n.iid).isSome = true
      ∧ s.region? n.rid = some r ∧ r.stopped = false ∧ r.gen = (s.asid r.asid).gen ∧ Claims.WorkDone s n ∧ (1 < ((n.words.getD 0 0).extractLsb' 16 8).toNat →
        ∃ v, hubNat s r.asid r.gen (n.words.getD 1 0) (8 * ((n.words.getD 0 0).extractLsb' 16 8).toNat) = .ok v) := by
  simp only [List.forall_mem_cons, List.not_mem_nil, false_imp_iff, implies_true, and_true]
  refine ⟨⟨graphOf regA { nodeA [0x10] with st := .running, next := 1, total := 1, exited := 1 } [], regA, by decide +kernel, by decide +kernel, by decide +kernel, by decide +kernel,
      rfl, by decide +kernel, ⟨rfl, .inl (by decide +kernel)⟩, fun h => absurd h (by decide +kernel)⟩,
    ⟨graphOf regA { nodeA [0x10014, 0x800, 0, 0, 0, 0, 0, 0] with st := .running, finished := true } [], regA, by decide +kernel, by decide +kernel, by decide +kernel, by decide +kernel,
      rfl, by decide +kernel, ⟨rfl, .inr (.inl (by decide +kernel))⟩, fun h => absurd h (by decide +kernel)⟩,
    ⟨graphOf regA { nodeA [0x20011, 0x700, 0, 0, 0, 0, 0x800, 0] with st := .running } [(0x700, 0x800), (0x708, 0x840)], regA, by decide +kernel, by decide +kernel, by decide +kernel,
      by decide +kernel, rfl, by decide +kernel, ⟨rfl, .inr (.inr (by decide +kernel))⟩, fun _ => ⟨_, nat_of (by decide +kernel)⟩⟩⟩
/-- Pending counts of a successor: known to be 2 and 1, and read as DEPS = 0. -/
theorem witness_NodesComplete_successors : ∀ d ∈ [(2 : Int), 1, 0], ∃ (s : State) (n : GNode) (r : Region) (i : GInst), s.region? n.rid = some r ∧ s.inst? n.iid = some i
    ∧ r.stopped = false ∧ ((∃ x, i.pending.find? (·.1 == (0x800 : W64)) = some x ∧ x.2 = d) ∨ ((i.pending.find? (·.1 == (0x800 : W64))).isNone = true ∧ ∃ k : Nat, Claims.DepsAt s r 0x800 k ∧ d = k))
    ∧ Claims.NodeAt s r 0x800 signalWords := by
  simp only [List.forall_mem_cons, List.not_mem_nil, false_imp_iff, implies_true, and_true]
  exact ⟨⟨{ graphOf regA (nodeA [0x14]) [] with insts := [⟨1, 1, none, 1, [(0x800, 2)], false⟩] }, nodeA [0x14], regA, ⟨1, 1, none, 1, [(0x800, 2)], false⟩,
      by decide +kernel, by decide +kernel, rfl, .inl ⟨_, rfl, rfl⟩, nodeat_of (by decide +kernel)⟩,
    ⟨{ graphOf regA (nodeA [0x14]) [] with insts := [⟨1, 1, none, 1, [(0x800, 1)], false⟩] }, nodeA [0x14], regA, ⟨1, 1, none, 1, [(0x800, 1)], false⟩,
      by decide +kernel, by decide +kernel, rfl, .inl ⟨_, rfl, rfl⟩, nodeat_of (by decide +kernel)⟩,
    ⟨graphOf regA (nodeA [0x14]) [], nodeA [0x14], regA, ⟨1, 1, none, 1, [], false⟩, by decide +kernel, by decide +kernel, rfl,
      .inr ⟨rfl, 0, deps_of (by decide +kernel), rfl⟩, nodeat_of (by decide +kernel)⟩⟩
/-- A LOOP of count 2 whose first body instance is done. -/
def loopRun : GNode := { loopA 0x200000000 0 with st := .running, loopsDone := 1, loopCount := 2 }
theorem witness_NodesComplete_loop : ∃ (s : State) (n : GNode) (r : Region), s.node? s.sub.a = some n ∧ s.region? n.rid = some r ∧ n.st = .running
    ∧ Claims.kindOf n = 0x12 ∧ n.finished = false ∧ openedDone s n.nid = true ∧ r.stopped = false ∧ r.gen = (s.asid r.asid).gen ∧ ((n.words.getD 7 0).extractLsb' 0 32).toNat = 0
    ∧ (n.words.getD 5 0).getLsbD 4 = false ∧ n.loopsDone < n.loopCount ∧ depthOf s n < 8 ∧ Claims.DepsAt s r (n.words.getD 6 0) 0
    ∧ Claims.NodeAt s r (n.words.getD 6 0) signalWords :=
  ⟨{ graphOf regA loopRun [] with insts := [⟨1, 1, none, 1, [], false⟩, ⟨3, 1, some 2, 2, [], false⟩] }, loopRun, regA, by decide +kernel, by decide +kernel, rfl,
    by decide +kernel, rfl, by decide +kernel, rfl, by decide +kernel, by decide +kernel, by decide +kernel, by decide +kernel, by decide +kernel, deps_of (by decide +kernel), nodeat_of (by decide +kernel)⟩
/-- A kernel node on cluster 0 of die 0, of 2 x 3 iterations. -/
def kernelA : GNode := { nodeA [0x10, 0, 0, 0, 0x100000000, 7, 8, 9] with
  st := .running, khd := some ⟨.p, true, 48, 4, 1, 0x2040, [⟨1, 0, 0, 16⟩]⟩, lnr := some ⟨2, [1, 0], [2, 3], [128, 1], [0, 64]⟩, total := 6, next := 1 }
theorem witness_Dispatch : ∃ (s u : State) (n : GNode) (k : Khd) (r : Region), firstNode s s.sub.ctx = some n ∧ n.khd = some k ∧ s.region? n.rid = some r
    ∧ lowestCtx s n s.sub.ctx = true ∧ (k.prof = .b ∨ (sampleCancel s n.rid).isNone = true) ∧ enterPrefill s n s.sub.ctx = (u, true)
    ∧ (∀ l, n.lnr = some l → ∀ j ∈ l.order, j < 6) ∧ k.rot = true ∧ (otherCtx s s.sub.ctx).isNone = true := by
  refine ⟨graphOf regA kernelA [], graphOf regA kernelA [], kernelA, _, regA, by decide +kernel, rfl, by decide +kernel, by decide +kernel, .inr (by decide +kernel), rfl, ?_,
    by decide +kernel⟩
  intro l h
  cases h
  decide
/-- A region that has not started, with its control block: GRAPH 0x800, CHILD 0x1080, COMPL 0x1100. -/
def regOld : Region := newRegion 1 0x1000 none 0 0 .root 0 0 0 0
def rcbMem (w0 w3 : Nat) : List (Nat × Nat) := [(0x1000, w0), (0x1008, 0x10000), (0x1010, 0x800040004), (0x1018, w3), (0x1028, 0x800), (0x1030, 0x1080), (0x1040, 0x1100)]
def opening (r : Region) (w0 w3 : Nat) : State := { { graphOf r (nodeA [0x14]) (rcbMem w0 w3) with nodes := [], insts := [] } with sub := { a := 1 } }
def rcbA : Rcb := ⟨0, 3, 0, 0, 1, 0, 4, 4, 8, 0, 4096, false, 0, 0x800, 0x1080, 0, 0x1100⟩
def regNew : Region := { regOld with prio := 3, fdom := 1, cores := 4, bvc := 4, lease := 0, scratch := 4096, compl := 0x1100 }
theorem witness_RegionsStart : ∃ (s : State) (r r1 q : Region) (b : Rcb), Claims.MayOpen s r b r1 q ∧ q.gen = (s.asid q.asid).gen ∧ q.fdom ∉ r.halted ∧ r.stopped = false
    ∧ b.graph ≠ 0 ∧ Claims.DepsAt s q b.graph 0 ∧ Claims.NodeAt s q b.graph signalWords ∧ b.child ≠ 0 := by
  refine ⟨opening regOld 0x300000001 4096, regOld, regNew, regNew, rcbA, ⟨by decide +kernel, by decide +kernel, by decide +kernel, ⟨_, nat_of (by decide +kernel), by decide +kernel⟩,
    by decide +kernel, by decide +kernel, ?_, fun h => absurd h (by decide), by decide +kernel⟩, by decide +kernel, by decide +kernel, rfl, by decide, deps_of (by decide +kernel),
    nodeat_of (by decide +kernel), by decide⟩
  have h : (decide (okOr (withSet (opening regOld 0x300000001 4096) regNew rcbA) regOld = regNew) && isOk (withSet (opening regOld 0x300000001 4096) regNew rcbA)) = true := by decide +kernel
  simp only [Bool.and_eq_true, decide_eq_true_eq] at h
  rw [← h.1]
  exact ok_okOr h.2
/-- Control blocks of another kind, and with an address space that is not the interface's. -/
theorem witness_RegionsStart_malformed : ∀ w0 ∈ [0x300000002, 0x50300000001], ∃ (s : State) (r : Region) (v : Nat), s.region? s.sub.a = some r ∧ r.started = false
    ∧ r.completed = false ∧ r.status = 0 ∧ viOn s r.vi = true ∧ hubNat s (rcbSpace s r).1 (rcbSpace s r).2 r.va 128 = .ok v
    ∧ ((parseRcb v).isNone = true ∨ ∃ b, parseRcb v = some b ∧ (effective s r b).isNone = true) := by
  simp only [List.forall_mem_cons, List.not_mem_nil, false_imp_iff, implies_true, and_true]
  exact ⟨⟨opening regOld 0x300000002 4096, regOld, _, by decide +kernel, rfl, rfl, rfl, by decide +kernel, nat_of (by decide +kernel), .inl (by decide +kernel)⟩,
    ⟨opening regOld 0x50300000001 4096, regOld, _, by decide +kernel, rfl, rfl, rfl, by decide +kernel, nat_of (by decide +kernel),
      .inr ⟨{ rcbA with asid := 5 }, by decide +kernel⟩⟩⟩
/-- Regions that complete: a root with a completion record, and an iteration that is degraded. -/
theorem witness_RegionsComplete : ∀ r ∈ [{ regA with compl := 0x1100 }, { regA with origin := .iterate true 5 [0x10000], degraded := true }], ∃ s : State, s.Ok
    ∧ s.region? s.sub.a = some r ∧ r.started = true ∧ r.completed = false ∧ r.gen = (s.asid r.asid).gen
    ∧ (∀ c ∈ r.children, ∃ o, s.region? c = some o ∧ o.completed = true) ∧ graphDone s r = true ∧ (∀ a irq vec, r.origin = .accept a irq vec → ∀ j ∈ s.tw, j.srec = a → j.committed = true)
    ∧ (∀ l ∈ s.red, l.rid ≠ r.rid)
    ∧ isOk (agentKeys s hubDie r.asid r.gen .wr 0x1100 16) = true := by
  simp only [List.forall_mem_cons, List.not_mem_nil, false_imp_iff, implies_true, and_true]
  exact ⟨⟨{ graphOf { regA with compl := 0x1100 } { nodeA [0x14] with st := .done } [] with sub := { a := 1 } }, by unfold State.Ok; decide +kernel, by decide +kernel, rfl, rfl,
      by decide +kernel, (by intro c h; cases h), by decide +kernel, (by intro a i v h; cases h), by decide +kernel⟩,
    ⟨{ graphOf { regA with origin := .iterate true 5 [0x10000], degraded := true } { nodeA [0x14] with st := .done } [] with sub := { a := 1 } }, by unfold State.Ok; decide +kernel,
      by decide +kernel, rfl, rfl, by decide +kernel, (by intro c h; cases h), by decide +kernel, (by intro a i v h; cases h), by decide +kernel⟩⟩
/-- A Midnight iteration on a vault with foreground demand. -/
def midnight : State :=
  { withCx (st .b) fun c => { c with it := { c.it with rid := 1 } } with regions := [{ regA with bw := 1000 }], vaults := [(9, { Vault.zero with fgd := 25, fgdPrev := 25 })], vis := [(0, { Vi.zero with saven := 1, savesz := 4 })], sub := { ctx := ⟨2, 0, true, 0⟩ } }
theorem witness_YieldsAreAsked_midnight : ∃ (s : State) (c : Ctx), s.running.find? (fun c => c.id == s.sub.ctx && demandHigh s c && canYield s c) = some c :=
  ⟨midnight, midnight.cx, by decide +kernel⟩
/-- A node of priority 3 whose region may use one core, which holds an iteration of priority 0. -/
def crowded : State :=
  { { withCx (graphOf { regA with cores := 1 } kernelA []) (fun _ => { cx .p with it := { Iter.none with rid := 1, nid := 7 } }) with vis := [(0, { Vi.zero with en := true, asidn := 4, cores := 4, bvc := 4, scratch := 4096, saven := 1, savesz := 4 })] } with sub := { a := 2, ctx := ⟨0, 9, false, 0⟩ } }
theorem witness_YieldsAreAsked : ∃ (s : State) (n : GNode) (r : Region), (∀ c ∈ s.running, c.id = s.sub.ctx → demandHigh s c = false) ∧ s.node? s.sub.a = some n
    ∧ s.region? n.rid = some r ∧ n.st = .running ∧ n.next < n.total ∧ regionPlaceable s n.rid = true ∧ askOut s n = false
    ∧ (∀ id ∈ allCtxs, eligible s n id = false) ∧ ∃ c, Claims.Victim s n r.prio c := by
  refine ⟨crowded, kernelA, { regA with cores := 1 }, by decide +kernel, by decide +kernel, by decide +kernel, rfl, by decide +kernel, by decide +kernel, by decide +kernel, ?_,
    crowded.cx, ⟨?_, by decide +kernel⟩, ?_⟩
  · have h : (allCtxs.all fun id => !eligible crowded kernelA id) = true := by decide +kernel
    intro id hid
    simpa using List.all_eq_true.1 h id hid
  · exact List.mem_filter.2 ⟨List.mem_cons_self .., rfl⟩
  · intro d hd
    have e : crowded.running = [crowded.cx] := by rfl
    rw [e] at hd
    rw [List.mem_singleton.1 hd.1]
    exact .inr ⟨rfl, le_refl _⟩
/-- Interface 1 has starved; interface 0 uses a core beyond its guarantee. -/
def starved1 : State :=
  { crowded with vis := [(0, { Vi.zero with en := true, saven := 1, savesz := 4 }), (1, { Vi.zero with mincores := 1, starved := 65536 })], sub := { a := 1, ctx := ⟨0, 0, false, 0⟩ } }
theorem witness_YieldsAreAsked_starvation : ∃ (s : State) (c : Ctx), 65536 ≤ (s.vi s.sub.a).starved ∧ viCores s s.sub.a < (s.vi s.sub.a).mincores
    ∧ s.running.find? (fun c => c.id == s.sub.ctx && !c.id.bvc && c.it.vi != s.sub.a && (s.vi c.it.vi).mincores < viCores s c.it.vi && canYield s c) = some c :=
  ⟨starved1, starved1.cx, by decide +kernel⟩
theorem witness_CancelsAreAsked : ∃ (s : State) (ks : List Nat), s.Ok ∧ agentKeys s hubDie s.sub.a (s.asid s.sub.a).gen .wr (s.sub.x + 8) 8 = .ok ks :=
  ⟨{ paged (st .p) with sub := { x := 0x1000 } }, keysFrom 0x1008 8, by unfold State.Ok; decide +kernel, by decide +kernel⟩

/-- A stream of one layer and one block of K and of V: its record at 0x3000 (word 0 and CANCEL given), its table at 0x3400, its seal record at 0x3600; with
the SIGNAL node at 0x800, more words below 0x20000 and the table tree, in ascending order. -/
def strmMem (w0 cancel sealW : Nat) (more : List (Nat × Nat)) : List (Nat × Nat) :=
  [(0x800, 0x14), (0x3000, w0), (0x3008, cancel), (0x3010, 0x10000), (0x3028, 1), (0x3040, 0x3400), (0x3058, 0x3600), (0x3400, 0x1001000010001), (0x3440, 0x4000),
    (0x3450, 0x4400), (0x3600, sealW), (0x4000, 0x20001), (0x4018, 0x3000), (0x4400, 0x20001), (0x4418, 0x3000), (0x5000, 0x50001), (0x5018, 0x3000)]
    ++ more ++ [(0x20000, 0x28001), (0x28000, 0x2C001), (0x2C000, 0x1F)]
/-- The memory cells of words. -/
def cellsOf (ps : List (Nat × Nat)) : List Host.Cell :=
  ps.flatMap fun p => (List.range 8).filterMap fun i => let b := BitVec.ofNat 8 (p.2 / 256 ^ i); if b = 0 then none else some (p.1 + i, b)
/-- A HANDOFF node of layer 0 of the stream, to the die of the scheduler's choice. -/
def handA (rec count : W64) : GNode := nodeA [0x16, 0, rec, 0x7FF, count <<< 16, 0, 0, 0]
/-- The machine with that stream and node; the translations of the hub and of dies 2 and 0 stand ready. -/
def strm (r : Region) (n : GNode) (w0 cancel sealW : Nat) : State :=
  { graphOf r n [] with mem := cellsOf (strmMem w0 cancel sealW []), xlat := [6, 2, 0].map fun d => ⟨d, 0, 0, 0, 0, 2 ^ 29, 0, 7⟩ }
/-- Its record as it is read. -/
def srecAt (s : State) : Srec := okOr (readSrec s 0 0 0x3000) (srecOf 0)
theorem srec_of {s : State} {asid : Nat} {gen : BitVec 16} {va : W64} (h : isOk (readSrec s asid gen va) = true) :
    readSrec s asid gen va = .ok (okOr (readSrec s asid gen va) (srecOf 0)) := ok_okOr h
theorem srecAt_of {s : State} (h : (decide ((s.asid 0).gen = 0) && isOk (readSrec s 0 0 0x3000)) = true) :
    readSrec s 0 (s.asid 0).gen 0x3000 = .ok (srecAt s) := by
  simp only [Bool.and_eq_true, decide_eq_true_eq] at h
  rw [h.1]
  exact srec_of h.2
/-- A read that meets nothing leaves the machine as it is. -/
theorem seen_self (s : State) : Claims.Seen s s := ⟨rfl, fun _ => false, by simp⟩
/-- A layer that says SEAL is sealed as it stands. -/
theorem canseal_of {s : State} {die asid : Nat} {srec : W64} {q : Srec}
    (h : (decide (okOr (engReader s die asid (s.asid asid).gen (q.seals + BitVec.ofNat 64 (32 * 0)) 32) 0 / 2 ^ 63 % 2 = 1)
      && isOk (engReader s die asid (s.asid asid).gen (q.seals + BitVec.ofNat 64 (32 * 0)) 32)
      && isOk (kvTab (engReader s die asid (s.asid asid).gen) q.btab q.layers)) = true) : Claims.CanSeal s die asid srec q [0] := by
  simp only [Bool.and_eq_true, decide_eq_true_eq] at h
  obtain ⟨⟨h1, h2⟩, h3⟩ := h
  obtain ⟨tab, h4⟩ := ok_of h3
  refine ⟨⟨{ s with tw := s.tw.map fun j => if j.srec = srec ∧ (j.notes.any fun x => x.1 == 0) = false then { j with notes := j.notes ++ [(0,
      (Claims.layerBlocks q tab 0).map fun z => (Machine.halfOf s die asid q.btab tab 0 z).getD 0)] } else j }, s,
    okOr (engReader s die asid (s.asid asid).gen (q.seals + BitVec.ofNat 64 (32 * 0)) 32) 0, tab, seen_self s, ok_okOr (d := 0) h2, h4,
    fun _ => ⟨rfl, rfl⟩, fun h0 => ?_⟩, fun _ _ => trivial⟩
  rw [h1] at h0
  exact absurd h0 (by decide)
/-- A record that holds the expected word 0, with and without CANCEL, and one that does not. -/
theorem witness_TransitionsAreAtomic : ∀ c ∈ [0, 1], ∃ (s : State) (e : Srec) (ks : List Nat), s.Ok ∧ agentKeys s hubDie 0 0 .rw 0x3000 16 = .ok ks
    ∧ ((BitVec.ofNat 64 (homeNat s ks)).extractLsb' 16 4).toNat = e.state ∧ ((BitVec.ofNat 64 (homeNat s ks)).extractLsb' 32 11).toNat = e.owner
    ∧ ((BitVec.ofNat 64 (homeNat s ks)).extractLsb' 48 16).toNat = e.sgen ∧ (BitVec.ofNat 64 (homeNat s ks / 2 ^ 64)).getLsbD 0 = (c == 1) := by
  unfold State.Ok
  simp only [List.forall_mem_cons, List.not_mem_nil, false_imp_iff, implies_true, and_true]
  exact ⟨⟨strm regA (nodeA []) 0x10030 0 0, srecAt (strm regA (nodeA []) 0x10030 0 0), keysFrom 0x3000 16, by decide +kernel⟩,
    ⟨strm regA (nodeA []) 0x10030 1 0, srecAt (strm regA (nodeA []) 0x10030 1 0), keysFrom 0x3000 16, by decide +kernel⟩⟩
/-- A HANDOFF node whose record cannot be read, and one in each of the states PREFILL, HANDOFF, DONE and QUEUED. -/
theorem witness_HandoffNodesStart_fault : ∃ (s : State) (n : GNode) (r : Region) (e : Nat), Claims.MayStart s n r ∧ Claims.kindOf n = 0x16
    ∧ readSrec s r.asid r.gen (n.words.getD 2 0) = .error e :=
  ⟨strm regA (handA 0x20000000 1) 0x30 0 0, handA 0x20000000 1, regA, tcTranslation, maystart_of (by decide +kernel), by decide +kernel⟩
theorem witness_HandoffNodesStart : ∀ st ∈ [1, 2, 4, 0], ∃ (s : State) (n : GNode) (r : Region) (q : Srec), Claims.MayStart s n r ∧ Claims.kindOf n = 0x16
    ∧ readSrec s r.asid r.gen (n.words.getD 2 0) = .ok q ∧ q.kind = 0x30 ∧ q.clean = true ∧ Claims.nodeLayers n = [0] ∧ 0 < q.layers
    ∧ ((n.words.getD 3 0).extractLsb' 0 11).toNat = 0x7FF ∧ q.state = st
    ∧ Claims.CanSeal { s with nodes := Claims.nodesWith s n.nid fun m => { m with st := .running } } (q.owner % 8) r.asid (n.words.getD 2 0) q (Claims.nodeLayers n) := by
  have g (k : Nat) (h1 : Claims.MayStart (strm regA (handA 0x3000 1) (0x30 + k * 65536) 0 0x8000000000000000) (handA 0x3000 1) regA)
      (h2 : (isOk (readSrec (strm regA (handA 0x3000 1) (0x30 + k * 65536) 0 0x8000000000000000) 0 0 0x3000)
        && (let q := srecAt (strm regA (handA 0x3000 1) (0x30 + k * 65536) 0 0x8000000000000000)
            decide (q.kind = 0x30) && q.clean && decide (q.layers = 1) && decide (q.state = k))) = true)
      (h3 : Claims.CanSeal { strm regA (handA 0x3000 1) (0x30 + k * 65536) 0 0x8000000000000000 with
          nodes := Claims.nodesWith (strm regA (handA 0x3000 1) (0x30 + k * 65536) 0 0x8000000000000000) 2 fun m => { m with st := .running } }
        ((srecAt (strm regA (handA 0x3000 1) (0x30 + k * 65536) 0 0x8000000000000000)).owner % 8) 0 0x3000
        (srecAt (strm regA (handA 0x3000 1) (0x30 + k * 65536) 0 0x8000000000000000)) [0]) :
      ∃ (s : State) (n : GNode) (r : Region) (q : Srec), Claims.MayStart s n r ∧ Claims.kindOf n = 0x16
        ∧ readSrec s r.asid r.gen (n.words.getD 2 0) = .ok q ∧ q.kind = 0x30 ∧ q.clean = true ∧ Claims.nodeLayers n = [0] ∧ 0 < q.layers
        ∧ ((n.words.getD 3 0).extractLsb' 0 11).toNat = 0x7FF ∧ q.state = k
        ∧ Claims.CanSeal { s with nodes := Claims.nodesWith s n.nid fun m => { m with st := .running } } (q.owner % 8) r.asid (n.words.getD 2 0) q (Claims.nodeLayers n) := by
    simp only [Bool.and_eq_true, decide_eq_true_eq] at h2
    exact ⟨_, _, _, _, h1, by decide +kernel, srec_of h2.1, h2.2.1.1.1, h2.2.1.1.2, by decide +kernel, lt_of_lt_of_eq Nat.one_pos h2.2.1.2.symm, by decide +kernel, h2.2.2, h3⟩
  simp only [List.forall_mem_cons, List.not_mem_nil, false_imp_iff, implies_true, and_true]
  exact ⟨g 1 (maystart_of (by decide +kernel)) (by decide +kernel) (canseal_of (by decide +kernel)),
    g 2 (maystart_of (by decide +kernel)) (by decide +kernel) (canseal_of (by decide +kernel)),
    g 4 (maystart_of (by decide +kernel)) (by decide +kernel) (canseal_of (by decide +kernel)),
    g 0 (maystart_of (by decide +kernel)) (by decide +kernel) (canseal_of (by decide +kernel))⟩
/-- A node that waits for its reservation, with a pool of p on die 2. -/
def waiting19 (w0 : Nat) (p : Pool) : State :=
  let s := strm regA { handA 0x3000 1 with st := .running } w0 0 0
  { s with vis := [(0, { (s.vi 0) with pools := [(2, p)] })] }
theorem witness_ReservationsAreMade : ∀ p ∈ [(0x20030, (⟨0x100000, 2, 5, [], false⟩ : Pool)), (0x10030, ⟨0x100000, 2, 5, [0], false⟩), (0x10030, ⟨0x100000, 2, 5, [], false⟩)],
    ∃ (s : State) (n : GNode) (r : Region) (q : Srec) (tab : KvTab), s.node? s.sub.a = some n ∧ s.region? n.rid = some r ∧ n.st = .running ∧ Claims.kindOf n = 0x16
      ∧ n.finished = false ∧ viOn s r.vi = true ∧ r.gen = (s.asid r.asid).gen ∧ readSrec s r.asid r.gen (n.words.getD 2 0) = .ok q
      ∧ kvTab (engReader s hubDie r.asid r.gen) q.btab q.layers = .ok tab ∧ (jobOf s (n.words.getD 2 0)).isNone = true ∧ q.state = p.1 / 65536 ∧ q.cancel = false
      ∧ 2 * tab.nkv * ((q.prompt + 15) / 16) * q.layers = 2 ∧ poolOf s r.vi 2 = p.2
      ∧ Claims.blockBytes true tab.hdim ≤ (poolOf s r.vi 2).size * 64 := by
  have g (w0 : Nat) (p : Pool) (h : (let s := waiting19 w0 p
      decide (s.node? s.sub.a = some { handA 0x3000 1 with st := .running }) && decide (s.region? 1 = some regA) && viOn s 0 && decide ((0 : BitVec 16) = (s.asid 0).gen)
        && isOk (readSrec s 0 0 0x3000) && decide (kvTab (engReader s hubDie 0 0) (srecAt s).btab (srecAt s).layers = .ok ⟨1, 1, 16, 1, 0⟩) && (jobOf s 0x3000).isNone
        && decide ((srecAt s).state = w0 / 65536) && !(srecAt s).cancel && decide (2 * 1 * (((srecAt s).prompt + 15) / 16) * (srecAt s).layers = 2)
        && decide (poolOf s 0 2 = p) && decide (Claims.blockBytes true 16 ≤ (poolOf s 0 2).size * 64)) = true) :
      ∃ (s : State) (n : GNode) (r : Region) (q : Srec) (tab : KvTab), s.node? s.sub.a = some n ∧ s.region? n.rid = some r ∧ n.st = .running ∧ Claims.kindOf n = 0x16
        ∧ n.finished = false ∧ viOn s r.vi = true ∧ r.gen = (s.asid r.asid).gen ∧ readSrec s r.asid r.gen (n.words.getD 2 0) = .ok q
        ∧ kvTab (engReader s hubDie r.asid r.gen) q.btab q.layers = .ok tab ∧ (jobOf s (n.words.getD 2 0)).isNone = true ∧ q.state = w0 / 65536 ∧ q.cancel = false
        ∧ 2 * tab.nkv * ((q.prompt + 15) / 16) * q.layers = 2 ∧ poolOf s r.vi 2 = p
        ∧ Claims.blockBytes true tab.hdim ≤ (poolOf s r.vi 2).size * 64 := by
    simp only [Bool.and_eq_true, decide_eq_true_eq, Bool.not_eq_true'] at h
    obtain ⟨⟨⟨⟨⟨⟨⟨⟨⟨⟨⟨h1, h2⟩, hv⟩, h3⟩, h4⟩, h5⟩, h6⟩, h7⟩, h8⟩, h9⟩, h10⟩, h11⟩ := h
    exact ⟨waiting19 w0 p, { handA 0x3000 1 with st := .running }, regA, srecAt (waiting19 w0 p), ⟨1, 1, 16, 1, 0⟩,
      h1, h2, rfl, by decide +kernel, rfl, hv, h3, srec_of h4, h5, h6, h7, h8, h9, h10, h11⟩
  simp only [List.forall_mem_cons, List.not_mem_nil, false_imp_iff, implies_true, and_true]
  exact ⟨g 0x20030 ⟨0x100000, 2, 5, [], false⟩ (by decide +kernel), g 0x10030 ⟨0x100000, 2, 5, [0], false⟩ (by decide +kernel),
    g 0x10030 ⟨0x100000, 2, 5, [], false⟩ (by decide +kernel)⟩
/-- With one slot left no die has room for two blocks; with two, die 2 has; a named die that has room is taken, and one without is not. -/
theorem pools_of {p : Pool} {w0 e : Nat} (h : 2 ≤ e ∧ e ≤ 5) (hp : 2 ≤ poolFree (poolOf (waiting19 w0 p) 0 e)) : e = 2 := by
  by_contra hne
  have z : poolOf (waiting19 w0 p) 0 e = Pool.zero := by
    obtain ⟨h2, h5⟩ := h
    have : e = 3 ∨ e = 4 ∨ e = 5 := by omega
    rcases this with rfl | rfl | rfl <;> rfl
  rw [z] at hp
  exact absurd hp (by decide)
theorem witness_ReservationsAreMade_room : (∀ dest ∈ [0x7FF, 2], Claims.Destination (waiting19 0x10030 ⟨0x100000, 2, 5, [], false⟩) 0 dest 2 none 2)
    ∧ ∀ dest ∈ [0x7FF, 2], ¬ ∃ d, Claims.Destination (waiting19 0x10030 ⟨0x100000, 2, 5, [0], false⟩) 0 dest 2 none d := by
  simp only [List.forall_mem_cons, List.not_mem_nil, false_imp_iff, implies_true, and_true]
  have far (p : Pool) (e : Nat) : e ∉ remoteDusk (waiting19 0x10030 p) none := List.not_mem_nil
  have busy {e : Nat} (hp : 2 ≤ poolFree (poolOf (waiting19 0x10030 ⟨0x100000, 2, 5, [0], false⟩) 0 e)) (he : e = 2) : False := by
    rw [he] at hp
    exact absurd hp (by decide +kernel)
  refine ⟨⟨.inl ⟨⟨by decide, by decide, by decide +kernel, by decide +kernel, fun w h => absurd h List.not_mem_nil⟩, ?_⟩,
    by decide +kernel, by decide +kernel, by decide +kernel, fun w h => absurd h List.not_mem_nil⟩, ?_, ?_⟩
  · rintro e ⟨h2, h5, _, hp, _⟩
    rw [pools_of ⟨h2, h5⟩ hp]
    exact .inr ⟨rfl, le_refl _⟩
  · rintro ⟨d, ⟨⟨h2, h5, _, hp, _⟩, _⟩ | ⟨_, ⟨h, _⟩, _⟩⟩
    · exact busy hp (pools_of ⟨h2, h5⟩ hp)
    · exact far _ _ h
  · rintro ⟨d, hd, _, hp, _⟩
    exact busy hp (hd.trans (by decide +kernel))

/-- A hand-off of the stream from die 0 to die 2, whose notice named the source copies, with its two blocks reserved at 0x6000 and 0x6200. -/
def jobA (ls : List TwLayer) (cancelling freed committed : Bool) : TwJob :=
  ⟨2, 0x3000, 0, 0, 0, 2, true, 0, 1, [(0, [0x4000, 0x4400])], ls, cancelling, freed, committed, [(0, 0x6000), (1, 0x6200)]⟩
def layerA (pulls : List Nat) : TwLayer := ⟨0, 2, 0, 0, 0, 1, false, false, pulls⟩
/-- The machine with that hand-off; the subject is block b of layer 0. -/
def pulling (w0 cancel : Nat) (j : TwJob) (b : Nat) : State :=
  { strm regA (nodeA []) w0 cancel 0x8000001000000002 with
    mem := cellsOf (strmMem w0 cancel 0x8000001000000002 [(0x6000, 0x1000000030000), (0x6018, 0x3000)]), tw := [j], sub := { a := 0, b := b, x := 0x3000 } }
/-- Notices of the sealed layer, without and with CANCEL, with no other pull and with one outstanding. -/
theorem witness_Notices : ∀ p ∈ [(0, ([] : List TwLayer)), (1, []), (1, [⟨1, 2, 0, 0, 0, 1, false, false, [0]⟩])], ∃ (s : State) (j : TwJob) (q : Srec) (tab : KvTab) (v : Nat),
    jobOf s s.sub.x = some j ∧ j.srec = s.sub.x ∧ j.cancelling = false ∧ j.committed = false ∧ j.die ≠ 0 ∧ (∀ l ∈ j.layers, l.layer ≠ s.sub.a)
      ∧ s.sub.a < j.nlayers ∧ (∃ as, (s.sub.a, as) ∈ j.notes)
      ∧ kvTab (engReader s j.die j.asid (s.asid j.asid).gen) q.btab q.layers = .ok tab ∧ readSrec s j.asid (s.asid j.asid).gen j.srec = .ok q
      ∧ engReader s j.die j.asid (s.asid j.asid).gen (q.seals + BitVec.ofNat 64 (32 * s.sub.a)) 32 = .ok v ∧ v / 2 ^ 63 % 2 = 1
      ∧ q.cancel = (p.1 == 1) ∧ j.layers = p.2
      ∧ isOk (engKeys s j.die j.asid (s.asid j.asid).gen .wr (q.seals + BitVec.ofNat 64 (32 * s.sub.a) + 16).toNat 16) = true := by
  have g (c : Nat) (ls : List TwLayer) (h : (let s := pulling 0x20030 c (jobA ls false false false) 0
      decide (jobOf s 0x3000 = some (jobA ls false false false)) && decide (∀ l ∈ ls, l.layer ≠ 0) && decide ((s.asid 0).gen = 0) && isOk (readSrec s 0 0 0x3000)
        && isOk (engReader s 2 0 (s.asid 0).gen ((srecAt s).seals + BitVec.ofNat 64 (32 * 0)) 32)
        && decide (okOr (engReader s 2 0 (s.asid 0).gen ((srecAt s).seals + BitVec.ofNat 64 (32 * 0)) 32) 0 / 2 ^ 63 % 2 = 1)
        && decide ((srecAt s).cancel = (c == 1)) && isOk (kvTab (engReader s 2 0 (s.asid 0).gen) (srecAt s).btab (srecAt s).layers) && isOk (engKeys s 2 0 (s.asid 0).gen .wr ((srecAt s).seals + BitVec.ofNat 64 (32 * 0) + 16).toNat 16)) = true) :
      ∃ (s : State) (j : TwJob) (q : Srec) (tab : KvTab) (v : Nat),
        jobOf s s.sub.x = some j ∧ j.srec = s.sub.x ∧ j.cancelling = false ∧ j.committed = false ∧ j.die ≠ 0 ∧ (∀ l ∈ j.layers, l.layer ≠ s.sub.a)
          ∧ s.sub.a < j.nlayers ∧ (∃ as, (s.sub.a, as) ∈ j.notes)
      ∧ kvTab (engReader s j.die j.asid (s.asid j.asid).gen) q.btab q.layers = .ok tab ∧ readSrec s j.asid (s.asid j.asid).gen j.srec = .ok q
          ∧ engReader s j.die j.asid (s.asid j.asid).gen (q.seals + BitVec.ofNat 64 (32 * s.sub.a)) 32 = .ok v ∧ v / 2 ^ 63 % 2 = 1
          ∧ q.cancel = (c == 1) ∧ j.layers = ls
          ∧ isOk (engKeys s j.die j.asid (s.asid j.asid).gen .wr (q.seals + BitVec.ofNat 64 (32 * s.sub.a) + 16).toNat 16) = true := by
    simp only [Bool.and_eq_true, decide_eq_true_eq] at h
    obtain ⟨⟨⟨⟨⟨⟨⟨⟨h1, h2⟩, h3⟩, h3'⟩, h4⟩, h5⟩, h6⟩, ht⟩, h7⟩ := h
    obtain ⟨tab, ht⟩ := ok_of ht
    exact ⟨pulling 0x20030 c (jobA ls false false false) 0, jobA ls false false false, srecAt (pulling 0x20030 c (jobA ls false false false) 0), tab, _, h1, rfl, rfl, rfl,
      (by decide : (2 : Nat) ≠ 0), h2, Nat.one_pos, ⟨_, List.mem_singleton.2 rfl⟩, ht, srecAt_of (by simp only [Bool.and_eq_true, decide_eq_true_eq]; exact ⟨h3, h3'⟩), ok_okOr h4, h5, h6, rfl, h7⟩
  simp only [List.forall_mem_cons, List.not_mem_nil, false_imp_iff, implies_true, and_true]
  exact ⟨g 0 [] (by decide +kernel), g 1 [] (by decide +kernel), g 1 [⟨1, 2, 0, 0, 0, 1, false, false, [0]⟩] (by decide +kernel)⟩
/-- A payload of zeros with one survivor converts to zeros. -/
theorem conv0 : ∃ (sc : W32) (out : List Byte), Claims.ConvertedBlock 0 16 1 (List.replicate 512 0) sc out := by
  have l0 (n : Nat) : leNat (List.replicate n (0 : Byte)) = 0 := by
    induction n with
    | zero => rfl
    | succ n ih => rw [List.replicate_succ]; simp only [leNat]; simpa [leNat] using ih
  have h0 (n : Nat) : leNat (((List.replicate 512 (0 : Byte)).drop n).take 2) = 0 := by rw [List.drop_replicate, List.take_replicate]; exact l0 _
  refine ⟨_, List.replicate 256 0, rfl, List.length_replicate, fun t d ht hd => ⟨0, ?_, fun _ => rfl, fun _ => ?_⟩⟩
  · rw [if_pos rfl, List.getElem?_replicate, if_pos (by omega)]
    rfl
  · simp only [h0, Claims.converted, show unpack bf16 0 = .fin false 0 (-133) by decide +kernel]
    decide +kernel
/-- Block 0 returns while block 1 is still out. -/
theorem witness_PullsReturn : ∃ (s : State) (j : TwJob) (q : Srec) (tab : KvTab) (l : TwLayer) (x : Nat × Nat × Nat × Nat) (a : W64) (ks : List Nat),
    jobOf s s.sub.x = some j ∧ j.srec = s.sub.x ∧ j.layers.find? (·.layer == s.sub.a) = some l ∧ j.cancelling = false
    ∧ readSrec s j.asid (s.asid j.asid).gen j.srec = .ok q ∧ kvTab (engReader s j.die j.asid (s.asid j.asid).gen) q.btab q.layers = .ok tab
    ∧ s.sub.b ∈ l.pulls.take 32 ∧ l.pulls.erase s.sub.b ≠ [] ∧ s.sub.p = false ∧ s.sub.q = false ∧ (Claims.layerBlocks q tab l.layer)[s.sub.b]? = some x
    ∧ (∃ as, j.notes.find? (·.1 == l.layer) = some (l.layer, as) ∧ as[s.sub.b]? = some a) ∧ a ≠ 0 ∧ engKeys s j.die j.asid (s.asid j.asid).gen .rd a.toNat (Claims.blockBytes false tab.hdim) = .ok ks
    ∧ (∀ z ∈ j.blocks, z.1 = l.layer * (Claims.layerBlocks q tab l.layer).length + s.sub.b → ∀ z' ∈ j.blocks, z'.1 = z.1 → z' = z)
    ∧ (l.layer * (Claims.layerBlocks q tab l.layer).length + s.sub.b, (0x6000 : W64)) ∈ j.blocks
    ∧ leNat ((homeBytes s ks).take 64) / 2 ^ 16 % 8 = 2 ∧ leNat ((homeBytes s ks).take 64) / 2 ^ 48 % 2 ^ 16 = q.sgen
    ∧ (∃ h0, kvHdr (engReader s j.die j.asid (s.asid j.asid).gen) (0x6000 : W64).toNat = .ok h0 ∧ h0.state = 3 ∧ h0.gen = (q.sgen + 1) % 65536 ∧ h0.srec = j.srec)
    ∧ ∃ (sc : W32) (out : List Byte), Claims.ConvertedBlock x.2.2.1 tab.hdim (leNat ((homeBytes s ks).take 2)) ((homeBytes s ks).drop 64) sc out := by
  let s := pulling 0x20030 0 (jobA [layerA [0, 1]] false false false) 0
  have hb : leNat ((homeBytes s (okOr (engKeys s 2 0 (s.asid 0).gen .rd 0x4000 576) [])).take 2) = 1 := by decide +kernel
  have hp : (homeBytes s (okOr (engKeys s 2 0 (s.asid 0).gen .rd 0x4000 576) [])).drop 64 = List.replicate 512 0 := by decide +kernel
  refine ⟨s, jobA [layerA [0, 1]] false false false, srecAt s, ⟨1, 1, 16, 1, 0⟩, layerA [0, 1], (0, 0, 0, 0), 0x4000, okOr (engKeys s 2 0 (s.asid 0).gen .rd 0x4000 576) [],
    by decide +kernel, rfl, by decide +kernel, rfl, srecAt_of (by decide +kernel), by decide +kernel, by decide +kernel, by decide +kernel, rfl, rfl, by decide +kernel,
    ⟨[0x4000, 0x4400], rfl, rfl⟩, by decide, ok_okOr (by decide +kernel), by decide +kernel, by decide +kernel, by decide +kernel, by decide +kernel, ⟨⟨0, 3, 0, 1, 0, 0, 0, 0, 0, 0, 0x3000⟩, by decide +kernel⟩, ?_⟩
  rw [hb, hp]
  exact conv0
/-- A return during a cancellation, with another pull outstanding and with none. -/
theorem witness_PullsReturn_cancelling : ∀ ps ∈ [[0, 1], [0]], ∃ (s : State) (j : TwJob) (q : Srec) (l : TwLayer), jobOf s s.sub.x = some j ∧ j.srec = s.sub.x
    ∧ j.layers.find? (·.layer == s.sub.a) = some l ∧ readSrec s j.asid (s.asid j.asid).gen j.srec = .ok q ∧ s.sub.b ∈ l.pulls.take 32 ∧ j.cancelling = true ∧ l.pulls = ps := by
  simp only [List.forall_mem_cons, List.not_mem_nil, false_imp_iff, implies_true, and_true]
  exact ⟨⟨pulling 0x20030 1 (jobA [layerA [0, 1]] true false false) 0, jobA [layerA [0, 1]] true false false, srecAt (pulling 0x20030 1 (jobA [layerA [0, 1]] true false false) 0), layerA [0, 1], by decide +kernel, rfl, by decide +kernel,
      srecAt_of (by decide +kernel), by decide +kernel, rfl, rfl⟩,
    ⟨pulling 0x20030 1 (jobA [layerA [0]] true false false) 0, jobA [layerA [0]] true false false, srecAt (pulling 0x20030 1 (jobA [layerA [0]] true false false) 0), layerA [0], by decide +kernel, rfl, by decide +kernel,
      srecAt_of (by decide +kernel), by decide +kernel, rfl, rfl⟩⟩
/-- The notice of a commit; and that of a release, in HANDOFF and after it. -/
theorem witness_Releases : ∃ (s u v : State) (j k : TwJob) (p q r : Srec), (jobOf s s.sub.x = some j ∧ j.srec = s.sub.x ∧ j.committed = true
      ∧ readSrec s j.asid (s.asid j.asid).gen j.srec = .ok p)
    ∧ (jobOf u u.sub.x = some k ∧ k.srec = u.sub.x ∧ k.cancelling = true ∧ k.freed = true ∧ (u.vi k.vi).disabling = false ∧ readSrec u k.asid (u.asid k.asid).gen k.srec = .ok q ∧ q.state = 2
      ∧ (transit u k.asid (u.asid k.asid).gen k.srec q 5 q.owner q.sgen false).isSome = true)
    ∧ jobOf v v.sub.x = some k ∧ k.srec = v.sub.x ∧ (v.vi k.vi).disabling = false ∧ readSrec v k.asid (v.asid k.asid).gen k.srec = .ok r ∧ r.state ≠ 2 :=
  ⟨pulling 0x30030 0 (jobA [layerA []] false false true) 0, pulling 0x20030 1 (jobA [layerA []] true true false) 0, pulling 0x30030 1 (jobA [layerA []] true true false) 0,
    jobA [layerA []] false false true, jobA [layerA []] true true false, srecAt (pulling 0x30030 0 (jobA [layerA []] false false true) 0),
    srecAt (pulling 0x20030 1 (jobA [layerA []] true true false) 0), srecAt (pulling 0x30030 1 (jobA [layerA []] true true false) 0),
    ⟨by decide +kernel, rfl, rfl, srecAt_of (by decide +kernel)⟩, ⟨by decide +kernel, rfl, rfl, rfl, rfl, srecAt_of (by decide +kernel), by decide +kernel⟩, by decide +kernel, rfl, rfl, srecAt_of (by decide +kernel), by decide +kernel⟩
/-- The region of an admitted stream that die 9 owns in DECODE, in a package that is number 0. -/
def accA : Region := { regA with origin := .accept 0x3000 false 0 }
def lostA (w0 : Nat) : State := { strm accA (nodeA []) w0 0 0 with sub := { a := 9 } }
theorem witness_LostDies : (∃ s : State, s.sub.a / 8 ≠ s.pkg.pkgnum.toNat ∧ s.sub.a < 2048 ∧ (∀ asid srec, Claims.Admitted s asid srec → Claims.Unharmed s asid srec s.sub.a)
      ∧ Claims.Admitted s 0 0x3000)
    ∧ ∃ (s u : State) (g : Region) (srec : W64) (q : Srec), s.sub.a / 8 ≠ s.pkg.pkgnum.toNat ∧ s.sub.a < 2048 ∧ s.regions = [g]
      ∧ (∃ x y, g.origin = .accept srec x y) ∧ readSrec s g.asid (s.asid g.asid).gen srec = .ok q ∧ q.state = 3 ∧ q.owner = s.sub.a ∧ (jobOf s srec).isNone = true
      ∧ transit s g.asid (s.asid g.asid).gen srec q 6 q.owner q.sgen false = some u := by
  refine ⟨⟨lostA 0x30030, by decide +kernel, by decide +kernel, ?_, ⟨accA, List.mem_singleton.2 rfl, rfl, false, 0, rfl⟩⟩,
    lostA 0x900030030, _, accA, 0x3000, srecAt (lostA 0x900030030), by decide +kernel, by decide +kernel, by decide +kernel, ⟨_, _, rfl⟩, srecAt_of (by decide +kernel), by decide +kernel,
    by decide +kernel, by decide +kernel, (Option.some_get (by decide +kernel)).symm⟩
  rintro asid srec ⟨r, hr, ha, x, y, ho⟩ q hq
  rw [show (lostA 0x30030).regions = [accA] from rfl, List.mem_singleton] at hr
  subst hr
  cases ho
  subst ha
  have e : q = srecAt (lostA 0x30030) := by
    have h := srecAt_of (s := lostA 0x30030) (by decide +kernel)
    exact Except.ok.inj (hq.symm.trans h)
  rw [e]
  exact .inr ⟨by decide +kernel, fun j h => absurd (h : jobOf (lostA 0x30030) 0x3000 = some j) (by rw [show jobOf (lostA 0x30030) 0x3000 = none by decide +kernel]; exact nofun)⟩
/-- A hand-off to a die of another package, which the scheduler chose. -/
def lostJob : TwJob := { jobA [] false false false with die := 2057 }
theorem witness_LostDies_destination : ∃ (s : State) (q : Srec), s.sub.a / 8 ≠ s.pkg.pkgnum.toNat ∧ s.sub.a < 2048 ∧ Claims.admissions s = [(0, 0x3000)]
    ∧ readSrec s 0 (s.asid 0).gen 0x3000 = .ok q ∧ q.state = 2 ∧ jobOf s 0x3000 = some lostJob ∧ lostJob.die ≠ 0 ∧ dieGlob s lostJob.die = s.sub.a
    ∧ dieGone s lostJob.src = false ∧ lostJob.cancelling = false ∧ lostJob.any = true ∧ lostJob.retries < 3 :=
  ⟨{ lostA 0x20030 with tw := [lostJob] }, srecAt { lostA 0x20030 with tw := [lostJob] }, by decide +kernel, by decide, by decide +kernel,
    srecAt_of (by decide +kernel), by decide +kernel⟩
/-- A LANDED copy of a committed stream, and a table with a window of 16. -/
def live19 (p : Nat × Nat) (x : W64) : State := { words8 (strm regA (nodeA []) 0x30030 0 0) [p] with sub := { x := x } }
theorem witness_LiveRewrite : ∃ (s : State) (h : KvHdr) (q : Srec), kvHdr (engReader s hubDie s.sub.a (s.asid s.sub.a).gen) s.sub.x.toNat = .ok h
    ∧ readSrec s s.sub.a (s.asid s.sub.a).gen h.srec = .ok q ∧ h.state = 4 ∧ q.state = 3 ∧ q.sgen = h.gen :=
  ⟨live19 (0x5000, 0x40001) 0x5000, ⟨1, 4, 0, 0, 0, 0, 0, 0, 0, 0, 0x3000⟩,
    srecAt (live19 (0x5000, 0x40001) 0x5000), by decide +kernel, srecAt_of (by decide +kernel), by decide +kernel⟩
/-- Pools: a FREED block in slot 0 with nothing waiting, a pool with nothing in it, one of a die of another package, one that is busy, one that is being wiped. -/
def pool19 (b : Nat) (p : Pool) (x : W64) (c : Nat) : State :=
  let s := words8 (strm regA (nodeA []) 0x30030 0 0) [(0x5000, 0x60001)]
  { s with vis := [(0, { (s.vi 0) with pools := [(b, p)] })], sub := { a := 0, b := b, c := c, x := x, p := true }, pkg := { Pkg.reset with phase := .ready } }
theorem witness_Pools : ∃ (s t u v : State), (s.Ok ∧ s.sub.c ∈ (poolOf s s.sub.a s.sub.b).busy ∧ (∀ w ∈ s.kvq, ¬ (w.vi = s.sub.a ∧ w.die = s.sub.b)) ∧ ∃ x, engReader s hubDie (poolSpace s s.sub.a (poolOf s s.sub.a s.sub.b).base)
        (s.asid (poolSpace s s.sub.a (poolOf s s.sub.a s.sub.b).base)).gen ((poolOf s s.sub.a s.sub.b).base + BitVec.ofNat 64 (s.sub.c * (poolOf s s.sub.a s.sub.b).size * 64)) 64 = .ok x
        ∧ x / 2 ^ 16 % 8 = 6)
    ∧ (t.sub.a < 64 ∧ t.sub.b ≤ 5 ∧ t.pkg.phase = .ready ∧ (poolOf t t.sub.a t.sub.b).wiping = false ∧ (poolOf t t.sub.a t.sub.b).busy = [])
    ∧ (u.sub.a < 64 ∧ 2048 ≤ u.sub.b ∧ u.sub.b < 4096 ∧ (poolOf u u.sub.a u.sub.b).busy ≠ [])
    ∧ (poolOf v v.sub.a v.sub.b).wiping = true ∧ ∀ w ∈ v.kvq, ¬ (w.vi = v.sub.a ∧ w.die = v.sub.b) :=
  ⟨pool19 2 ⟨0x5000, 2, 5, [0, 1], false⟩ 0 0, pool19 2 ⟨0, 0, 0, [], false⟩ 0x5000002 0, pool19 2057 ⟨0x5000, 2, 5, [1], false⟩ 0x6000 0, pool19 2 ⟨0x5000, 2, 5, [], true⟩ 0 0,
    ⟨by unfold State.Ok; decide +kernel, by decide +kernel, by decide +kernel, okOr (engReader (pool19 2 ⟨0x5000, 2, 5, [0, 1], false⟩ 0 0) hubDie 0 0 0x5000 64) 0, by decide +kernel⟩, by decide +kernel⟩
/-- A stream in DECODE with a sliding window. -/
theorem witness_Windows : ∃ (s : State) (q : Srec) (tab : KvTab), readSrec s s.sub.a (s.asid s.sub.a).gen s.sub.x = .ok q ∧ q.state = 3
    ∧ kvTab (engReader s hubDie s.sub.a (s.asid s.sub.a).gen) q.btab q.layers = .ok tab ∧ tab.win = 16 :=
  ⟨live19 (0x3408, 16) 0x3000, srecAt (live19 (0x3408, 16) 0x3000), ⟨1, 1, 16, 1, 16⟩,
    srecAt_of (by decide +kernel), by decide +kernel, by decide +kernel, rfl⟩

/-- A chain of SCALE and DRAW at 0x7000, a descriptor of one shard of two tokens on die 2 at 0x7100, its logits at 0x7200, an output record of one token at 0x7400 and
one of STATUS 3 at 0x7480, mask blocks of one node at 0x7500 and of two at 0x7580, a chain of VERIFY alone at 0x7600, its tokens at 0x7800, a list of one bias
at 0x7880, and another stream, in DECODE, at 0x6800. -/
def smpMem (w0 : Nat) : List (Nat × Nat) :=
  strmMem w0 0 0 [(0x6800, 0x30030), (0x6810, 0x10000), (0x6828, 1), (0x6830, 8), (0x6840, 0x3400), (0x6848, 0x7000), (0x6858, 0x3600),
    (0x7000, 0x50), (0x7008, 0x7040), (0x7010, 0x3F800000), (0x7040, 0x550), (0x7070, 0x500000005), (0x7078, 0x7800),
    (0x7100, 0x20000000101), (0x7108, 8), (0x7110, 3), (0x7140, 0x7200), (0x7148, 0x2000002000000), (0x7200, 0x400000003F800000),
    (0x7400, 1), (0x7408, 3), (0x7440, 0x7F00000009), (0x7480, 0x30000), (0x7500, 1), (0x7540, 1), (0x7548, 3),
    (0x7580, 2), (0x75C0, 1), (0x75C8, 3), (0x75D0, 3), (0x75D8, 4),
    (0x7600, 0x650), (0x7610, 0x7500), (0x7618, 0x7700), (0x7638, 0x7800), (0x7800, 0x100000000), (0x7880, 0x3F80000000000001)]
def drawChain : List (List W64) := [[0x50, 0x7040, 0x3F800000, 0, 0, 0, 0, 0], [0x550, 0, 0, 0, 0, 0, 0x500000005, 0x7800]]
def verifyChain : List (List W64) := [[0x650, 0, 0x7500, 0x7700, 0, 0, 0, 0x7800]]
def desc20 : LogitDesc := ⟨1, false, 2, 8, 3, [(0x7200, 0, 2, 2)]⟩
def sampleA (chain : W64) : GNode := nodeA [0x15, 0, 0x3000, chain, 0x7100, 0x7400, 0, 0]
/-- The record of the stream at 0x3000 in a state, as it is read. -/
def rec20 (state : Nat) : Srec := ⟨0x30, 0, state, false, 0, 0, false, 0, 1, 0, 1, 0, 0, 0, 0, 0x3400, 0, 0, 0x3600, true⟩
def smp (n : GNode) (w0 : Nat) : State := { strm regA n w0 0 0 with mem := cellsOf (smpMem w0), pkg := { Pkg.reset with phase := .ready } }
/-- A SAMPLE node of a stream in PREFILL, of one that is DONE, and one whose chain is none. -/
theorem witness_SampleNodesStart : (∃ (s : State) (n : GNode) (r : Region) (q : Srec), Claims.MayStart s n r ∧ Claims.kindOf n = 0x15 ∧ q.kind = 0x30 ∧ q.clean = true
      ∧ readSrec s r.asid r.gen (n.words.getD 2 0) = .ok q ∧ q.state = 1 ∧ readChain s r.asid r.gen 7 (n.words.getD 3 0) none = .ok drawChain
      ∧ readLogits s r.asid r.gen (n.words.getD 4 0) = .ok desc20 ∧ ∀ b ∈ drawChain, Claims.stageNo b ≠ 6)
    ∧ (∃ (s : State) (n : GNode) (r : Region) (q : Srec), Claims.MayStart s n r ∧ Claims.kindOf n = 0x15 ∧ q.kind = 0x30 ∧ q.clean = true
      ∧ readSrec s r.asid r.gen (n.words.getD 2 0) = .ok q ∧ q.state = 4 ∧ readLogits s r.asid r.gen (n.words.getD 4 0) = .ok desc20
      ∧ agentKeys s hubDie r.asid r.gen .wr (n.words.getD 5 0) 64 = .ok (keysFrom 0x7400 64) ∧ s.Ok)
    ∧ ∃ (s : State) (n : GNode) (r : Region) (q : Srec) (e : Nat × W64), Claims.MayStart s n r ∧ Claims.kindOf n = 0x15 ∧ q.kind = 0x30 ∧ q.clean = true
      ∧ readSrec s r.asid r.gen (n.words.getD 2 0) = .ok q ∧ q.state = 1 ∧ readChain s r.asid r.gen 7 (n.words.getD 3 0) none = .error e :=
  ⟨⟨smp (sampleA 0x7000) 0x10030, sampleA 0x7000, regA, rec20 1, maystart_of (by decide +kernel), rfl, rfl, rfl,
      (by decide +kernel : readSrec (smp (sampleA 0x7000) 0x10030) 0 0 0x3000 = .ok (rec20 1)), rfl,
      (by decide +kernel : readChain (smp (sampleA 0x7000) 0x10030) 0 0 7 0x7000 none = .ok drawChain),
      (by decide +kernel : readLogits (smp (sampleA 0x7000) 0x10030) 0 0 0x7100 = .ok desc20), by decide⟩,
    ⟨smp (sampleA 0x7000) 0x40030, sampleA 0x7000, regA, rec20 4, maystart_of (by decide +kernel), rfl, rfl, rfl,
      (by decide +kernel : readSrec (smp (sampleA 0x7000) 0x40030) 0 0 0x3000 = .ok (rec20 4)), rfl,
      (by decide +kernel : readLogits (smp (sampleA 0x7000) 0x40030) 0 0 0x7100 = .ok desc20),
      (by decide +kernel : agentKeys (smp (sampleA 0x7000) 0x40030) hubDie 0 0 .wr 0x7400 64 = .ok (keysFrom 0x7400 64)), by unfold State.Ok; decide +kernel⟩,
    ⟨smp (sampleA 0x7100) 0x10030, sampleA 0x7100, regA, rec20 1, (2, 0x7100), maystart_of (by decide +kernel), rfl, rfl, rfl,
      (by decide +kernel : readSrec (smp (sampleA 0x7100) 0x10030) 0 0 0x3000 = .ok (rec20 1)), rfl,
      (by decide +kernel : readChain (smp (sampleA 0x7100) 0x10030) 0 0 7 0x7100 none = .error (2, 0x7100))⟩⟩
/-- The work of that node at the engine of its shard, and when the shard has reported, for either chain. -/
def samp20 (chain : List (List W64)) (sh : List (Nat × List (List W32))) : Samp := ⟨2, 0x3000, chain, desc20, 0x7400, sh, false⟩
def drawing (chain : List (List W64)) (sh : List (Nat × List (List W32))) : State :=
  { smp { sampleA 0x7000 with st := .running } 0x10030 with samps := [samp20 chain sh], sub := { a := 2, b := 0 } }
def done20 : List (Nat × List (List W32)) := [(0, [[0x3F800000, 0x40000000]])]
theorem clean20 (chain : List (List W64)) : Claims.RowsClean (samp20 chain done20) 0 := by
  intro l hl w hw
  have e : Claims.rowLogits (samp20 chain done20) 0 = [[0x3F800000, 0x40000000]] := rfl
  rw [e, List.mem_singleton] at hl
  subst hl
  have h : ∀ w ∈ ([0x3F800000, 0x40000000] : List W32), (val32 w).isNaN = false := by
    simp only [List.forall_mem_cons, List.not_mem_nil, false_imp_iff, implies_true, and_true]
    decide +kernel
  exact h w hw
theorem witness_TokensAreDrawn : (∃ (s : State) (x : Samp) (n : GNode) (r : Region) (v : Nat), s.samps.find? (·.nid == s.sub.a) = some x ∧ s.node? s.sub.a = some n
      ∧ s.region? n.rid = some r ∧ s.sub.b < x.desc.shards.length ∧ (∀ z ∈ x.shards, z.1 ≠ s.sub.b) ∧ (∀ b ∈ x.chain, Claims.stageNo b ≠ 1 ∧ Claims.stageNo b ≠ 3)
      ∧ hubNat s r.asid r.gen ((x.desc.shards.getD s.sub.b (0, 0, 0, 0)).1 + BitVec.ofNat 64 (0 * x.desc.rstride)) (4 * 2) = .ok v
      ∧ (x.chain.find? (fun b => Claims.stageNo b == 2)).isNone = true ∧ ¬ Claims.EngineDown s (x.desc.shards.getD s.sub.b (0, 0, 0, 0)).2.2.2)
    ∧ (∃ (s : State) (x : Samp) (n : GNode) (r : Region) (q : Srec), s.samps.find? (·.nid == s.sub.a) = some x ∧ s.node? s.sub.a = some n ∧ s.region? n.rid = some r
      ∧ x.desc.shards.length ≤ x.shards.length ∧ readSrec s r.asid r.gen x.srec = .ok q ∧ Claims.stageNo (x.chain.getLastD []) = 5
      ∧ (∀ b ∈ x.chain, Claims.stageNo b ≠ 4) ∧ Claims.RowsClean x 0)
    ∧ ∃ (s : State) (x : Samp) (n : GNode) (r : Region) (q : Srec) (m : MaskBlk) (ds : List Nat), s.samps.find? (·.nid == s.sub.a) = some x ∧ s.node? s.sub.a = some n
      ∧ s.region? n.rid = some r ∧ x.desc.shards.length ≤ x.shards.length ∧ readSrec s r.asid r.gen x.srec = .ok q ∧ Claims.stageNo (x.chain.getLastD []) = 6
      ∧ verifyMask s r.asid r.gen x.desc ((x.chain.getLastD []).getD 2 0) = .ok m ∧ m.nnode ≤ 64
      ∧ words32 s r.asid r.gen ((x.chain.getLastD []).getD 3 0) m.nnode = .ok ds :=
  ⟨⟨drawing drawChain [], samp20 drawChain [], { sampleA 0x7000 with st := .running }, regA, 0x400000003F800000, rfl, rfl, rfl, by decide, nofun, by decide,
      (by decide +kernel : hubNat (drawing drawChain []) 0 0 0x7200 8 = .ok 0x400000003F800000), rfl, by unfold Claims.EngineDown; decide +kernel⟩,
    ⟨drawing drawChain done20, samp20 drawChain done20, { sampleA 0x7000 with st := .running }, regA, rec20 1, rfl, rfl, rfl, by decide,
      (by decide +kernel : readSrec (drawing drawChain done20) 0 0 0x3000 = .ok (rec20 1)), rfl, by decide, clean20 _⟩,
    ⟨drawing verifyChain done20, samp20 verifyChain done20, { sampleA 0x7000 with st := .running }, regA, rec20 1, ⟨0x7500, 1, 0, 0, 0, 0, 0, [1], [3]⟩, [0], rfl, rfl, rfl, by decide,
      (by decide +kernel : readSrec (drawing verifyChain done20) 0 0 0x3000 = .ok (rec20 1)), rfl,
      (by decide +kernel : verifyMask (drawing verifyChain done20) 0 0 desc20 0x7500 = .ok ⟨0x7500, 1, 0, 0, 0, 0, 0, [1], [3]⟩), by decide,
      (by decide +kernel : words32 (drawing verifyChain done20) 0 0 0x7700 1 = .ok [0])⟩⟩
/-- A chain of BIAS, PENALTY, FILTER and DRAW, and one of VERIFY with the mask of two nodes. -/
def fullChain : List (List W64) := [[0x150, 0x7040, 0x7880, 1, 0, 0, 0, 0], [0x350, 0x7040, 2, 0x3F800000, 0, 0, 0, 0],
  [0x450, 0x7040, 0, 0x3F000000, 0, 64, 0, 0], [0x550, 0, 0, 0, 0, 0, 0x500000005, 0x7800]]
def treeChain : List (List W64) := [[0x650, 0, 0x7580, 0x7700, 0, 0, 0, 0x7800]]
def tree20 : MaskBlk := ⟨0x7580, 2, 0, 0, 0, 0, 0, [1, 3], [3, 4]⟩
/-- A shard of a chain with every stage but SCALE and MASK; windows of a DRAW and of a VERIFY, before and after ROOTPOS; a row that a FILTER does not cut. -/
theorem witness_TokensAreDrawn_stages : (∃ (s : State) (x : Samp) (n : GNode) (r : Region) (v : Nat) (b c : List W64) (l : Nat) (win : List Nat),
      s.samps.find? (·.nid == s.sub.a) = some x ∧ s.node? s.sub.a = some n ∧ s.region? n.rid = some r ∧ s.sub.b < x.desc.shards.length
      ∧ (∀ z ∈ x.shards, z.1 ≠ s.sub.b) ∧ ¬ Claims.EngineDown s (x.desc.shards.getD s.sub.b (0, 0, 0, 0)).2.2.2
      ∧ Claims.stageNo (x.chain.getLastD []) ≠ 6
      ∧ hubNat s r.asid r.gen ((x.desc.shards.getD s.sub.b (0, 0, 0, 0)).1 + BitVec.ofNat 64 (0 * x.desc.rstride)) (4 * 2) = .ok v
      ∧ x.chain.find? (fun b => Claims.stageNo b == 1) = some b ∧ hubNat s r.asid r.gen (b.getD 2 0) (4 * (2 * 1)) = .ok l
      ∧ x.chain.find? (fun b => Claims.stageNo b == 2) = none
      ∧ x.chain.find? (fun b => Claims.stageNo b == 3) = some c ∧ windowTokens s r.asid r.gen x.chain x.desc 0 ((c.getD 2 0).extractLsb' 0 16).toNat = .ok win)
    ∧ (∃ (s : State) (chain : List (List W64)) (d : LogitDesc) (v : Nat), Claims.stageNo (chain.getLastD []) = 5
      ∧ hubNat s 0 0 ((chain.getLastD []).getD 7 0 + BitVec.ofNat 64 (4 * (d.rootpos + 1 - 2))) (4 * (d.rootpos + 1 - (d.rootpos + 1 - 2))) = .ok v)
    ∧ (∃ (s : State) (chain : List (List W64)) (d : LogitDesc) (m : MaskBlk) (ds : List Nat) (v : Nat), Claims.stageNo (chain.getLastD []) ≠ 5
      ∧ verifyMask s 0 0 d ((chain.getLastD []).getD 2 0) = .ok m ∧ words32 s 0 0 ((chain.getLastD []).getD 3 0) m.nnode = .ok ds
      ∧ d.rootpos < m.pos.getD 1 0 + 1 - 1 ∧ m.pos.getD 1 0 + 1 - 2 ≤ d.rootpos
      ∧ hubNat s 0 0 ((chain.getLastD []).getD 7 0 + BitVec.ofNat 64 (4 * (m.pos.getD 1 0 + 1 - 2)))
          (4 * (min (m.pos.getD 1 0) d.rootpos + 1 - (m.pos.getD 1 0 + 1 - 2))) = .ok v)
    ∧ ∃ (x : Samp) (f : List W64), Claims.RowsClean x 0 ∧ x.chain.find? (fun b => Claims.stageNo b == 4) = some f
      ∧ ∀ l ∈ rowTokens x 0, (l.filter fun a => a.2.2.1 != negInf).length ≤ ((f.getD 5 0).extractLsb' 0 11).toNat :=
  ⟨⟨drawing fullChain [], samp20 fullChain [], { sampleA 0x7000 with st := .running }, regA, 0x400000003F800000, fullChain.getD 0 [], fullChain.getD 1 [],
      0x3F80000000000001, [0, 0], rfl, rfl, rfl, by decide, nofun, by unfold Claims.EngineDown; decide +kernel, by decide,
      (by decide +kernel : hubNat (drawing fullChain []) 0 0 0x7200 8 = .ok 0x400000003F800000), rfl,
      (by decide +kernel : hubNat (drawing fullChain []) 0 0 0x7880 8 = .ok 0x3F80000000000001), rfl, rfl,
      (by decide +kernel : windowTokens (drawing fullChain []) 0 0 fullChain desc20 0 2 = .ok [0, 0])⟩,
    ⟨drawing drawChain [], drawChain, desc20, 0, rfl, (by decide +kernel : hubNat (drawing drawChain []) 0 0 0x7808 8 = .ok 0)⟩,
    ⟨drawing treeChain [], treeChain, { desc20 with nrow := 2 }, tree20, [0, 0], 0, by decide,
      (by decide +kernel : verifyMask (drawing treeChain []) 0 0 { desc20 with nrow := 2 } 0x7580 = .ok tree20),
      (by decide +kernel : words32 (drawing treeChain []) 0 0 0x7700 2 = .ok [0, 0]), by decide, by decide,
      (by decide +kernel : hubNat (drawing treeChain []) 0 0 0x780C 4 = .ok 0)⟩,
    ⟨samp20 fullChain done20, fullChain.getD 2 [], clean20 _, rfl, by decide +kernel⟩⟩
/-- The output record of the stream at 0x6800, and one of STATUS 3. -/
def rec20b : Srec := ⟨0x30, 0, 3, false, 0, 0, false, 0, 1, 0, 1, 0, 8, 0, 0, 0x3400, 0x7000, 0, 0x3600, true⟩
def committing (y : W64) : State := { smp (sampleA 0x7000) 0x10030 with sub := { a := 0, x := 0x6800, y := y } }
theorem witness_TokensAreCommitted : (∃ (s : State) (q : Srec) (hd es : Nat), readSrec s (s.vi s.sub.a).asidbase (s.asid (s.vi s.sub.a).asidbase).gen s.sub.x = .ok q
      ∧ hubNat s (s.vi s.sub.a).asidbase (s.asid (s.vi s.sub.a).asidbase).gen s.sub.y 64 = .ok hd ∧ s.pkg.phase = .ready ∧ hd / 2 ^ 16 % 8 ≠ 3
      ∧ (∀ o ∈ s.regions, o.completed = false) ∧ s.sub.opt = none
      ∧ readChain s (s.vi s.sub.a).asidbase (s.asid (s.vi s.sub.a).asidbase).gen 7 (Claims.ChainAt s s.sub.x s.sub.y q) none = .ok drawChain
      ∧ hubNat s (s.vi s.sub.a).asidbase (s.asid (s.vi s.sub.a).asidbase).gen (s.sub.y + 64) (8 * (hd % 2 ^ 7)) = .ok es)
    ∧ ∃ (s : State) (q : Srec) (hd : Nat), readSrec s (s.vi s.sub.a).asidbase (s.asid (s.vi s.sub.a).asidbase).gen s.sub.x = .ok q
      ∧ hubNat s (s.vi s.sub.a).asidbase (s.asid (s.vi s.sub.a).asidbase).gen s.sub.y 64 = .ok hd ∧ s.pkg.phase = .ready ∧ hd / 2 ^ 16 % 8 = 3 :=
  ⟨⟨committing 0x7400, rec20b, 1 + 2 ^ 64 * 3, 0x7F00000009, (by decide +kernel : readSrec (committing 0x7400) 0 0 0x6800 = .ok rec20b),
      (by decide +kernel : hubNat (committing 0x7400) 0 0 0x7400 64 = .ok (1 + 2 ^ 64 * 3)), rfl, by decide, by decide, rfl,
      (by decide +kernel : readChain (committing 0x7400) 0 0 7 (Claims.ChainAt (committing 0x7400) 0x6800 0x7400 rec20b) none = .ok drawChain),
      (by decide +kernel : hubNat (committing 0x7400) 0 0 0x7440 8 = .ok 0x7F00000009)⟩,
    ⟨committing 0x7480, rec20b, 0x30000, (by decide +kernel : readSrec (committing 0x7480) 0 0 0x6800 = .ok rec20b),
      (by decide +kernel : hubNat (committing 0x7480) 0 0 0x7480 64 = .ok 0x30000), rfl, by decide⟩⟩

/-- A package in READY whose interface 0 is as given, and a subject. -/
def rdy (v : Vi) (b : Subject) : State := { State.reset with pkg := { Pkg.reset with phase := .ready }, vis := [(0, v)], sub := b }
/-- Interface 0 with two token queues and a work queue of 16 entries. -/
def vi21 : Vi := { Vi.zero with tqn := 2, asidn := 4, wq := Vector.replicate 4 ⟨0x6000, 4, true, 1, 0⟩ }
/-- Before READY; an interface that may be enabled, one that is, the depth of a queue that takes one and of one that is absent, tails within and beyond the queue. -/
theorem witness_InterfaceRegisters : (∃ s : State, s.sub.a < 64 ∧ s.pkg.phase ≠ .ready)
    ∧ (∃ s : State, s.sub.a < 64 ∧ s.pkg.phase = .ready ∧ (s.vi s.sub.a).en = false ∧ Claims.MayEnable s s.sub.a ∧ (s.vi s.sub.a).saveuse = 0 ∧ s.sub.b = 0x308)
    ∧ (∃ s : State, s.sub.a < 64 ∧ s.pkg.phase = .ready ∧ (s.vi s.sub.a).en = true ∧ (s.vi s.sub.a).saveuse ≠ 0 ∧ (s.vi s.sub.a).tqn ≤ s.sub.b)
    ∧ (∃ s : State, s.sub.a < 64 ∧ s.pkg.phase = .ready ∧ s.sub.b < (s.vi s.sub.a).tqn ∧ (Tab.get [] s.tqs ((s.vi s.sub.a).tqbase + s.sub.b)).length ≤ s.sub.c % 512)
    ∧ ∀ x ∈ [(2 : W64), 99], ∃ s : State, s.sub.a < 64 ∧ s.pkg.phase = .ready ∧ s.sub.b < 4 ∧ s.sub.x = x
        ∧ (2 ^ (Claims.queueAt (s.vi s.sub.a) s.sub.b).log2n < (s.sub.x.extractLsb' 0 32 - (Claims.queueAt (s.vi s.sub.a) s.sub.b).head).toNat ↔ x = 99) := by
  simp only [List.forall_mem_cons, List.not_mem_nil, false_imp_iff, implies_true, and_true]
  exact ⟨⟨State.reset, by decide +kernel⟩, ⟨rdy vi21 { b := 0x308 }, by decide +kernel, by decide +kernel, by decide +kernel,
      ⟨by decide +kernel, by decide +kernel, by decide +kernel, by decide +kernel, fun w h => absurd h (by rw [show Claims.othersOn (rdy vi21 { b := 0x308 }) (rdy vi21 { b := 0x308 }).sub.a = [] by decide +kernel]; exact List.not_mem_nil)⟩,
      by decide +kernel⟩,
    ⟨rdy { vi21 with en := true, saveuse := 1 } { b := 2 }, by decide +kernel⟩, ⟨rdy vi21 { b := 1, c := 5 }, by decide +kernel⟩,
    ⟨rdy vi21 { x := 2 }, by decide +kernel⟩, ⟨rdy vi21 { x := 99 }, by decide +kernel⟩⟩
/-- Writes to a configuration block, to RETIDLE, to registers of a VI page that only store, to the queues' control word, and commands with and without GO. -/
theorem witness_InterfaceRegisters_writes : (∃ (s : State) (n off : Nat), s.pkg.phase = .ready ∧ s.sub.opt = none ∧ n < 64 ∧ off < 64 ∧ s.sub.a = 0x2000 + 64 * n + off)
    ∧ (∃ (s : State) (w : Nat), s.pkg.phase = .ready ∧ s.sub.opt = none ∧ w < 2048 ∧ s.sub.a = 0x8000 + 8 * w)
    ∧ (∀ a ∈ [0x18, 0x88, 0xC8, 0x328], ∃ (s : State) (n : Nat), s.pkg.phase = .ready ∧ s.sub.opt = some n ∧ n < 64 ∧ s.sub.a = a
        ∧ (Claims.pageStored (s.vi n) s.sub.a s.sub.x).isSome = true)
    ∧ ∀ p ∈ [(0x20, (0 : W64)), (0xC0, 0x80030000), (0xC0, 0)], ∃ (s : State) (n : Nat), s.pkg.phase = .ready ∧ s.sub.opt = some n ∧ n < 64 ∧ s.sub.a = p.1 ∧ s.sub.x = p.2
        ∧ (s.vi n).cmdBusy = false := by
  simp only [List.forall_mem_cons, List.not_mem_nil, false_imp_iff, implies_true, and_true]
  exact ⟨⟨rdy vi21 { a := 0x2010 }, 0, 0x10, by decide +kernel⟩, ⟨rdy vi21 { a := 0x8008 }, 1, by decide +kernel⟩,
    ⟨⟨rdy vi21 { a := 0x18, opt := some 0 }, 0, by decide +kernel⟩, ⟨rdy vi21 { a := 0x88, opt := some 0 }, 0, by decide +kernel⟩,
      ⟨rdy vi21 { a := 0xC8, opt := some 0 }, 0, by decide +kernel⟩, ⟨rdy vi21 { a := 0x328, opt := some 0 }, 0, by decide +kernel⟩⟩,
    ⟨rdy vi21 { a := 0x20, opt := some 0 }, 0, by decide +kernel⟩, ⟨rdy vi21 { a := 0xC0, opt := some 0, x := 0x80030000 }, 0, by decide +kernel⟩,
    ⟨rdy vi21 { a := 0xC0, opt := some 0 }, 0, by decide +kernel⟩⟩
/-- A work queue at 0x6000 with the words of one entry, under a root that is active or not; a batch table of one stream stands at 0x6400. -/
def queued21 (es : List (Nat × Nat)) (root : Bool) : State :=
  let s := strm regA (nodeA []) 0x30030 0 0
  { s with
    mem := cellsOf (strmMem 0x30030 0 0 (es ++ [(0x6400, 0x100000000), (0x6408, 0x3000)]))
    pkg := { Pkg.reset with phase := .ready }, sub := { a := 0, b := 0 }
    vis := [(0, { vi21 with en := true, rootact := root, root := if root then some 1 else none, btbase := 0x6400, btn := 1 })] }
theorem served21 {s : State} (h : (viOn s 0 && decide (s.pkg.phase = .ready) && decide (s.sub.a = 0) && decide (s.sub.b = 0) && decide ((s.vi 0).turn = 0)
    && decide ((Claims.queueAt (s.vi 0) 0).en = true ∧ 4 ≤ (Claims.queueAt (s.vi 0) 0).log2n ∧ (Claims.queueAt (s.vi 0) 0).log2n ≤ 16) && decide ((Claims.queueAt (s.vi 0) 0).head ≠ (Claims.queueAt (s.vi 0) 0).tail)) = true)
    (hr : s.regions = [regA]) : Claims.Served s := by
  simp only [Bool.and_eq_true, decide_eq_true_eq] at h
  obtain ⟨⟨⟨⟨⟨⟨h1, h2⟩, h3⟩, h4⟩, h5⟩, h6⟩, h7⟩ := h
  refine ⟨by rw [h3]; exact h1, h2, ⟨0, by rw [h3, h4, h5], by decide, fun i hi => absurd hi (Nat.not_lt_zero i)⟩, ?_⟩
  rw [h3, h4]
  rintro (h | h | ⟨e, _, _, r, hm, _, _, _, i, n, ls, ho⟩)
  · exact h h6
  · exact h7 h
  · rw [hr, List.mem_singleton] at hm
    subst hm
    cases ho
/-- The entry at the head: a NOP, one of an unknown OP, a START of a root and of a child, an ADMIT, an ITERATE without and with a snapshot. -/
theorem witness_WorkQueuesServe : ∀ p ∈ [(([] : List (Nat × Nat)), false, (0 : W64), (0 : W64), (0 : W64), (0 : W64)), ([(0x6000, 9)], false, 9, 0, 0, 0),
      ([(0x6000, 1), (0x6008, 0x1000), (0x6010, 1)], false, 1, 0x1000, 1, 0), ([(0x6000, 1), (0x6008, 0x1000)], true, 1, 0x1000, 0, 0),
      ([(0x6000, 2), (0x6008, 0x3000), (0x6010, 0x1010000)], true, 2, 0x3000, 0x1010000, 0), ([(0x6000, 3), (0x6008, 0x1000)], true, 3, 0x1000, 0, 0),
      ([(0x6000, 3), (0x6008, 0x1000), (0x6018, 0x6800)], true, 3, 0x1000, 0, 0x6800)],
    ∃ s : State, Claims.Served s ∧ Claims.HeadIs s s.sub.a s.sub.b [p.2.2.1, p.2.2.2.1, p.2.2.2.2.1, p.2.2.2.2.2, 0, 0, 0, 0]
      ∧ (s.vi s.sub.a).rootact = p.2.1 ∧ (p.2.1 = false ∨ Claims.ActiveRoot s s.sub.a regA) ∧ Claims.Readable s 0 (s.asid 0).gen 0x1000 128 := by
  have g (es : List (Nat × Nat)) (b : Bool) (w0 w1 w2 w3 : W64) (h : Claims.Served (queued21 es b))
      (h1 : (let s := queued21 es b
        decide ((s.vi 0).asidbase = 0) && decide ((s.asid 0).gen = 0) && isOk (hubNat s 0 0 0x6000 64) && decide ((List.range 8).map (fun j => BitVec.ofNat 64 (okOr (hubNat s 0 0 0x6000 64) 0 / 2 ^ (64 * j))) = [w0, w1, w2, w3, 0, 0, 0, 0])
          && isOk (hubNat s 0 0 0x1000 128) && decide ((s.vi 0).rootact = b) && (!b || decide ((s.vi 0).root = some 1 ∧ s.region? 1 = some regA))) = true) :
      ∃ s : State, Claims.Served s ∧ Claims.HeadIs s s.sub.a s.sub.b [w0, w1, w2, w3, 0, 0, 0, 0]
        ∧ (s.vi s.sub.a).rootact = b ∧ (b = false ∨ Claims.ActiveRoot s s.sub.a regA) ∧ Claims.Readable s 0 (s.asid 0).gen 0x1000 128 := by
    simp only [Bool.and_eq_true, decide_eq_true_eq] at h1
    obtain ⟨⟨⟨⟨⟨⟨a1, a2⟩, a3⟩, a4⟩, a5⟩, a6⟩, a7⟩ := h1
    refine ⟨queued21 es b, h, ⟨_, nat_of a3, a4.symm⟩, a6, ?_, ⟨_, nat_of a5⟩⟩
    cases b with
    | false => exact .inl rfl
    | true => exact .inr ⟨a6, ⟨1, of_decide_eq_true a7⟩, .inl rfl⟩
  rintro p hp
  simp only [List.mem_cons, List.not_mem_nil, or_false] at hp
  obtain rfl | rfl | rfl | rfl | rfl | rfl | rfl := hp
  · exact g [] false 0 0 0 0 (served21 (by decide +kernel) rfl) (by decide +kernel)
  · exact g [(0x6000, 9)] false 9 0 0 0 (served21 (by decide +kernel) rfl) (by decide +kernel)
  · exact g [(0x6000, 1), (0x6008, 0x1000), (0x6010, 1)] false 1 0x1000 1 0 (served21 (by decide +kernel) rfl) (by decide +kernel)
  · exact g [(0x6000, 1), (0x6008, 0x1000)] true 1 0x1000 0 0 (served21 (by decide +kernel) rfl) (by decide +kernel)
  · exact g [(0x6000, 2), (0x6008, 0x3000), (0x6010, 0x1010000)] true 2 0x3000 0x1010000 0 (served21 (by decide +kernel) rfl) (by decide +kernel)
  · exact g [(0x6000, 3), (0x6008, 0x1000)] true 3 0x1000 0 0 (served21 (by decide +kernel) rfl) (by decide +kernel)
  · exact g [(0x6000, 3), (0x6008, 0x1000), (0x6018, 0x6800)] true 3 0x1000 0 0x6800 (served21 (by decide +kernel) rfl) (by decide +kernel)
/-- A snapshot of a batch table with one active entry, of a stream in DECODE. -/
theorem witness_WorkQueuesServe_snapshot : ∃ (s : State) (q : Srec) (w : Vi) (ks : List Nat),
    hubNat s (s.vi s.sub.a).asidbase (s.asid (s.vi s.sub.a).asidbase).gen ((s.vi s.sub.a).btbase + BitVec.ofNat 64 (32 * 0)) 32 = .ok (2 ^ 32 + 2 ^ 64 * 0x3000)
    ∧ min 1024 (s.vi s.sub.a).btn = 1 ∧ (s.vi s.sub.a).batch = [] ∧ Claims.BatchesTaken s s.sub.a regA [2 ^ 32 + 2 ^ 64 * 0x3000] 0 (s.vi s.sub.a) 0 w 0
    ∧ [0] = (List.range (s.vi s.sub.a).btn).filter (fun j => (Tab.get Batch.zero w.batch j).active) ∧ Claims.NotCancelled s regA (Tab.get Batch.zero w.batch 0).stream
    ∧ Claims.SnapEntryIs s regA 0 (Tab.get Batch.zero w.batch 0) (2 ^ 64 * 0x3000 + 2 ^ 128 * q.pos + 2 ^ 160 * q.gentok)
    ∧ agentKeys s hubDie regA.asid regA.gen .wr 0x6800 96 = .ok ks ∧ s.Ok := by
  have hq : readSrec (queued21 [(0x6000, 3), (0x6008, 0x1000), (0x6018, 0x6800)] true) 0 0 0x3000 = .ok (rec20 3) := by decide +kernel
  have hv : readSrec (queued21 [(0x6000, 3), (0x6008, 0x1000), (0x6018, 0x6800)] true) regA.asid regA.gen (BitVec.ofNat 64 ((2 ^ 32 + 2 ^ 64 * 0x3000) / 2 ^ 64)) = .ok (rec20 3) := hq
  let s := queued21 [(0x6000, 3), (0x6008, 0x1000), (0x6018, 0x6800)] true
  let w : Vi := { (s.vi s.sub.a) with batch := [(0, ⟨true, 0, 0x3000, 0⟩)] }
  have even : ¬ Claims.Torn s 0 (2 ^ 32 + 2 ^ 64 * 0x3000) := by rintro (h | h); exacts [absurd h (by decide), List.not_mem_nil h]
  have good : Claims.BatchValid s s.sub.a regA (2 ^ 32 + 2 ^ 64 * 0x3000) :=
    ⟨by decide, by decide, by decide, by decide, fun _ => ⟨by decide, rec20 3, hv, rfl⟩⟩
  refine ⟨s, rec20 3, w, keysFrom 0x6800 96, (by decide +kernel : hubNat s 0 0 0x6400 32 = .ok (2 ^ 32 + 2 ^ 64 * 0x3000)), rfl, rfl,
    ⟨w, 0, ⟨rfl, rfl⟩, fun h => absurd h even, fun _ => ⟨rfl, fun _ => ⟨rfl, ?_⟩, fun h => absurd good h⟩⟩, rfl, ?_, ⟨rec20 3, hq, by decide +kernel⟩,
    (by decide +kernel : agentKeys s hubDie 0 0 .wr 0x6800 96 = .ok (keysFrom 0x6800 96)), by unfold State.Ok; decide +kernel⟩
  · rintro (_ | j)
    · rfl
    · rfl
  · intro q h
    cases hq.symm.trans h
    exact .inl rfl

/-- An interface whose disabling has begun, and where nothing runs. -/
def off22 : State := rdy { vi21 with en := true, disabling := true } {}
theorem off22_runs (s : State) (h : s.running = []) : ∀ c ∈ s.running, c.it.vi ≠ s.sub.a := fun c hc => absurd hc (by rw [h]; exact List.not_mem_nil)
/-- An interface that is off; one to disable; one whose disabling waits for an iteration, and for a hand-off; and one whose disabling can end. -/
theorem witness_InterfacesAreDisabled : (∃ s : State, s.sub.a < 64 ∧ s.pkg.phase = .ready ∧ (s.vi s.sub.a).en = false)
    ∧ (∃ s : State, s.sub.a < 64 ∧ s.pkg.phase = .ready ∧ (s.vi s.sub.a).en = true ∧ (s.vi s.sub.a).disabling = false ∧ (∀ c ∈ s.running, c.it.vi ≠ s.sub.a)
      ∧ (∀ x ∈ s.saved, x.vi ≠ s.sub.a) ∧ (s.regions.map (·.rid)).Nodup ∧ s.regions ≠ [])
    ∧ (∃ s : State, s.sub.a < 64 ∧ s.pkg.phase = .ready ∧ (s.vi s.sub.a).en = true ∧ (s.vi s.sub.a).disabling = true ∧ ∃ c ∈ s.running, c.it.vi = s.sub.a)
    ∧ (∃ s : State, s.sub.a < 64 ∧ s.pkg.phase = .ready ∧ (s.vi s.sub.a).en = true ∧ (s.vi s.sub.a).disabling = true ∧ (∀ c ∈ s.running, c.it.vi ≠ s.sub.a)
      ∧ (∃ j ∈ s.tw, Claims.AtWork s.sub.a j) ∧ ∀ j ∈ s.tw, Claims.AtWork s.sub.a j → j.cancelling = true)
    ∧ ∃ s : State, s.sub.a < 64 ∧ s.pkg.phase = .ready ∧ (s.vi s.sub.a).en = true ∧ (s.vi s.sub.a).disabling = true ∧ (∀ c ∈ s.running, c.it.vi ≠ s.sub.a)
      ∧ (∀ j ∈ s.tw, ¬ Claims.AtWork s.sub.a j) ∧ (∀ r ∈ s.regions, r.vi = s.sub.a → r.completed = true ∧ ∀ a b c, r.origin ≠ .accept a b c)
      ∧ ∀ x ∈ s.samps, ∀ m, s.node? x.nid = some m → ∀ r ∈ s.regions, r.rid = m.rid → r.vi ≠ s.sub.a := by
  refine ⟨⟨rdy vi21 {}, by decide +kernel⟩,
    ⟨{ rdy { vi21 with en := true } {} with regions := [regA] }, by decide +kernel, by decide +kernel, by decide +kernel, by decide +kernel, off22_runs _ (by decide +kernel),
      fun x h => absurd (h : x ∈ []) List.not_mem_nil, by decide +kernel⟩,
    ⟨{ off22 with cx := cx .p }, by decide +kernel, by decide +kernel, by decide +kernel, by decide +kernel, cx .p, by decide +kernel⟩,
    ⟨{ off22 with tw := [jobA [layerA [0]] true false false] }, by decide +kernel, by decide +kernel, by decide +kernel, by decide +kernel, off22_runs _ (by decide +kernel),
      ⟨jobA [layerA [0]] true false false, List.mem_singleton.2 rfl, ?_⟩, ?_⟩,
    ⟨{ off22 with regions := [{ regA with completed := true }] }, by decide +kernel, by decide +kernel, by decide +kernel, by decide +kernel, off22_runs _ (by decide +kernel),
      fun j h => absurd (h : j ∈ []) List.not_mem_nil, ?_, fun x h => absurd (h : x ∈ []) List.not_mem_nil⟩⟩
  · unfold Claims.AtWork
    decide +kernel
  · intro j h _
    have e : j = jobA [layerA [0]] true false false := List.mem_singleton.1 h
    rw [e]
    rfl
  · intro r h _
    have e : r = { regA with completed := true } := List.mem_singleton.1 h
    rw [e]
    exact ⟨rfl, fun a b c h => by cases h⟩
/-- Each command of the page, for an ASID of the interface, with an advance already in progress and without one; and for one that is not. -/
def page22 (op x : Nat) : State := rdy { vi21 with cmdRun := some (op, x, 0x8000) } {}
theorem witness_PageCommandsAct : (∀ op ∈ [1, 2, 3, 4, 5], ∀ x ∈ [0, 9], ∃ s : State, s.sub.a < 64 ∧ s.pkg.phase = .ready ∧ (s.vi s.sub.a).cmdFor = none
      ∧ (s.vi s.sub.a).cmdRun = some (op, x, 0x8000) ∧ ((s.vi s.sub.a).asidbase ≤ x ∧ x < (s.vi s.sub.a).asidbase + (s.vi s.sub.a).asidn ↔ x = 0) ∧ Claims.RootLegal s 0x8000)
    ∧ ∃ s : State, (s.vi s.sub.a).cmdRun = some (3, 0, 0x8000) ∧ advanceMark ∈ (s.asid 0).pending := by
  have h : ∀ op ∈ [1, 2, 3, 4, 5], ∀ x ∈ [0, 9], (page22 op x).sub.a < 64 ∧ (page22 op x).pkg.phase = .ready ∧ ((page22 op x).vi (page22 op x).sub.a).cmdFor = none
      ∧ ((page22 op x).vi (page22 op x).sub.a).cmdRun = some (op, x, 0x8000)
      ∧ (((page22 op x).vi (page22 op x).sub.a).asidbase ≤ x ∧ x < ((page22 op x).vi (page22 op x).sub.a).asidbase + ((page22 op x).vi (page22 op x).sub.a).asidn ↔ x = 0)
      ∧ Claims.RootLegal (page22 op x) 0x8000 := by
    unfold Claims.RootLegal
    decide +kernel
  exact ⟨fun op ho x hx => ⟨page22 op x, h op ho x hx⟩, { page22 3 0 with asTab := [(0, ⟨0, 1, 0, [advanceMark], []⟩)] }, by decide +kernel⟩

/-- Nothing redirects or refuses an access of the focused context to the first 512 MiB, which its die's buffer maps to the same physical addresses. -/
structure Plain16 (s : State) : Prop where
  xlat : s.xlat = [⟨0, 0, 0, 0, 0, 2 ^ 29, 0, 7⟩, ⟨6, 0, 0, 0, 0, 2 ^ 29, 0, 7⟩]
  shadows : s.shadows = []
  die : s.cx.id.die = 0
  it : s.cx.it.asid = 0 ∧ s.cx.it.gen = 0
  asid : (s.asid 0).gen = 0 ∧ (s.asid 0).pending = []
  pkg : s.pkg.pkgnum = 0
theorem translate16 {s : State} (h : Plain16 s) (kind : AccessKind) (va : Nat) (hv : va < 2 ^ 29) :
    translate s s.cx.id.die s.cx.id.coreKey s.cx.it.asid s.cx.it.gen kind false va = .ok va := by
  unfold Machine.translate shadowHidden shadowAt leafOf xlatHit
  rw [h.shadows, h.xlat, h.die, h.it.1, h.it.2, h.asid.1]
  have hp : permOk kind 7#3 = true := by cases kind <;> rfl
  have hv' : va < 536870912 := hv
  simp [hv', hp]
theorem globKeys16 {s : State} (h : Plain16 s) (kind : AccessKind) (va n : Nat) (hv : va + n ≤ 2 ^ 29) : globKeys s s.cx kind false va n = .ok (keysFrom va n) := by
  induction n with
  | zero => rfl
  | succ k ih =>
    unfold globKeys
    rw [ih (by omega), translate16 h kind (va + k) (by omega)]
    simp [keysFrom, List.range_succ]
theorem resolve16 {s : State} (h : Plain16 s) (kind : AccessKind) (a : W64) (n : Nat) (hv : a.toNat + n ≤ 2 ^ 29) (ha : a.toNat % 64 = 0) :
    resolve s s.cx kind false false a n 64 = .ok (keysFrom a.toNat n) := by
  have hpl : placeOf s s.cx a = .ok (.glob a.toNat) := by
    unfold placeOf
    have e : a.toNat / 2 ^ 60 = 0 := Nat.div_eq_of_lt (by omega)
    simp only [e]
    rw [if_pos (by omega)]
  have hk : ∀ k ∈ keysFrom a.toNat n, k < 2 ^ 29 := by
    intro k hk
    simp only [keysFrom, List.mem_map, List.mem_range] at hk
    omega
  unfold resolve
  rw [hpl]
  have hal : alignedTo a 64 = true := by unfold alignedTo; simpa using ha
  simp only [hal, Bool.not_true, Bool.false_eq_true, if_false]
  rw [if_neg (by omega), globKeys16 h kind a.toNat n hv]
  have hg : gensOk s s.cx (keysFrom a.toNat n) = true := by
    unfold gensOk ctlGen
    rw [h.it.1, h.it.2]
    simp [h.asid.1, h.asid.2]
  have hr : (keysFrom a.toNat n).all (reaches s s.cx.id.die) = true := by
    rw [List.all_eq_true]
    intro k hm
    have := hk k hm
    unfold reaches
    rw [h.pkg, h.die, Nat.div_eq_of_lt (by omega : k < 2 ^ 42), Nat.div_eq_of_lt (by omega : k < 2 ^ 39)]
    rfl
  simp [hg, hr]
theorem areaAt16 {s : State} (h : Plain16 s) (kind : AccessKind) (a : W64) (n : Nat) (hv : a.toNat + n ≤ 2 ^ 29) (ha : a.toNat % 64 = 0) :
    Claims.AreaAt s kind a n (keysFrom a.toNat n) := by
  refine ⟨fun k hk => ⟨_, resolve16 h kind _ 64 ?_ ?_⟩, resolve16 h kind a n hv ha⟩
  · have : (a + BitVec.ofNat 64 (64 * k)).toNat = a.toNat + 64 * k := by simp; omega
    omega
  · have : (a + BitVec.ofNat 64 (64 * k)).toNat = a.toNat + 64 * k := by simp; omega
    omega
theorem leNat_zeros (xs : List Byte) {ys : List Byte} (h : ∀ b ∈ ys, b = 0) : leNat (xs ++ ys) = leNat xs := by
  have z : ∀ ys : List Byte, (∀ b ∈ ys, b = 0) → leNat ys = 0 := by
    intro ys h
    induction ys with
    | nil => rfl
    | cons b r ih => simp [leNat, h b (by simp), ih (fun c hc => h c (by simp [hc]))]
  induction xs with
  | nil => exact z ys h
  | cons b r ih => simp only [List.cons_append, leNat, ih]
/-- The value of an area beyond whose first m bytes memory lists nothing is that of those bytes. -/
theorem home16 {s : State} (hr : s.red = []) (hb : s.bad = []) {a m n : Nat} (hm : m ≤ n) (ha : a + n ≤ 2 ^ 50) (hc : ∀ c ∈ s.mem, c.1 < a + m) :
    homeNat s (keysFrom a n) = homeNat s (keysFrom a m) := by
  have hz : ∀ (cs : List Host.Cell) (k : Nat), (∀ c ∈ cs, c.1 ≠ k) → k < 2 ^ 50 → Mem.get cs k = 0 := by
    intro cs k h hk
    induction cs with
    | nil => simp only [Mem.get, memDefault]; rw [if_neg (by simp; omega)]
    | cons c r ih => simp only [Mem.get]; rw [if_neg (h c (by simp))]; exact ih fun d hd => h d (by simp [hd])
  obtain ⟨j, rfl⟩ : ∃ j, n = m + j := ⟨n - m, by omega⟩
  unfold homeNat homeBytes keysFrom
  rw [List.range_add, List.map_append, List.map_append]
  refine leNat_zeros _ fun b hmem => ?_
  simp only [List.mem_map, List.mem_range] at hmem
  obtain ⟨k, ⟨i, ⟨x, hx, rfl⟩, rfl⟩, rfl⟩ := hmem
  unfold homeByte badByte
  rw [hr, hb]
  simp only [redFind, List.contains_nil, Bool.false_and, Bool.false_eq_true, if_false]
  exact hz _ _ (fun c h => by have := hc c h; omega) (by omega)
/-- A kernel node at 0x800 with its header at 0x900, and at 0x100000 an area of a context of that node. -/
def mem16 : List (Nat × Nat) := [(0x800, 0x10), (0x810, 0x900), (0x900, 0x200000021), (0x100000, 0x40), (0x100010, 0x800), (0x100020, 0x10800)]
def area16 : Nat := 0x40 + 2 ^ 128 * 0x800 + 2 ^ 256 * 0x10800
def ctx16 : Ctx := { cx .p with khd := ⟨.p, false, 48, 16, 2, 0, []⟩ }
def ctx16c : Ctx := { ctx16 with caps := some [] }
def sav16 (c : Ctx) : State := { State.reset with cx := c, xlat := [⟨0, 0, 0, 0, 0, 2 ^ 29, 0, 7⟩, ⟨6, 0, 0, 0, 0, 2 ^ 29, 0, 7⟩], mem := cellsOf mem16, cycle := 100, vis := [(0, { Vi.zero with en := true, saven := 1, savesz := 4, savebase := 0x100000, cores := 4 })] }
theorem plain16 {c : Ctx} (hd : c.id.die = 0) (hi : c.it.asid = 0 ∧ c.it.gen = 0) : Plain16 (sav16 c) := ⟨rfl, rfl, hd, hi, ⟨rfl, rfl⟩, rfl⟩
/-- A ysave whose address is none, one that begins, one that meets a condition, and one that writes its area. -/
theorem witness_SoftwareSavesWriteTheArea : ∀ w ∈ [(⟨0, 7, 5, 6, 0⟩ : FR)], (∃ s : State, s.Ok ∧ Claims.YReady s w.g [w.a, w.b] [w.d] ∧ Claims.areaCause (readS s 0 w.a.toNat) = some 0x0A)
    ∧ (∃ s : State, s.Ok ∧ Claims.YReady s w.g [w.a, w.b] [w.d] ∧ Claims.areaCause (readS s 0 w.a.toNat) = none ∧ s.cx.caps = none ∧ onlyY s.cx = true ∧ lineActed s.cx w.d.toNat = true)
    ∧ (∃ (s : State) (p : TrapInfo), s.Ok ∧ Claims.YReady s w.g [w.a, w.b] [w.d] ∧ Claims.areaCause (readS s 0 w.a.toNat) = none ∧ s.cx.caps = some [] ∧ s.cx.pend = some p ∧ s.cx.due = none)
    ∧ ∃ (s : State) (ks : List Nat), s.Ok ∧ Claims.YReady s w.g [w.a, w.b] [w.d] ∧ Claims.areaCause (readS s 0 w.a.toNat) = none ∧ s.cx.caps = some [] ∧ s.cx.pend = none
      ∧ saveDrained s = true ∧ areaSize s { s.cx with nxt := none, pc := s.cur.line, inLine := true } ≤ (readS s 3 w.b.toNat).toNat
      ∧ Claims.AreaAt s .wr (readS s 0 w.a.toNat) (areaSize s { s.cx with nxt := none, pc := s.cur.line, inLine := true }) ks ∧ Claims.AreaFits s.cx [] := by
  simp only [List.forall_mem_cons, List.not_mem_nil, false_imp_iff, implies_true, and_true]
  refine ⟨⟨(sav16 ctx16).sr 5 0x100001, by unfold State.Ok; decide +kernel, yready_of (by decide +kernel), by decide +kernel⟩,
    ⟨((sav16 ctx16).sr 5 0x100000).sr 6 0x10800, by unfold State.Ok; decide +kernel, yready_of (by decide +kernel), by decide +kernel⟩,
    ⟨((sav16 { ctx16 with caps := some [], pend := some ⟨0x0F, 0x100, 1, 77, 9, 7, true⟩ }).sr 5 0x100000).sr 6 0x10800, ⟨0x0F, 0x100, 1, 77, 9, 7, true⟩, by unfold State.Ok; decide +kernel,
      yready_of (by decide +kernel), by decide +kernel⟩,
    ⟨((sav16 ctx16c).sr 5 0x100000).sr 6 0x10800, keysFrom 0x100000 0x10800, by unfold State.Ok; decide +kernel, yready_of (by decide +kernel), by decide +kernel,
      by decide +kernel, by decide +kernel, by decide +kernel, by decide +kernel, ?_, by unfold Claims.AreaFits; decide +kernel⟩⟩
  rw [show areaSize (((sav16 ctx16c).sr 5 0x100000).sr 6 0x10800) { (((sav16 ctx16c).sr 5 0x100000).sr 6 0x10800).cx with
      nxt := none, pc := (((sav16 ctx16c).sr 5 0x100000).sr 6 0x10800).cur.line, inLine := true } = 0x10800 by decide +kernel,
    show readS (((sav16 ctx16c).sr 5 0x100000).sr 6 0x10800) 0 (5 : BitVec 6).toNat = 0x100000 by decide +kernel]
  exact areaAt16 (s := ((sav16 ctx16c).sr 5 0x100000).sr 6 0x10800) ⟨rfl, rfl, rfl, ⟨rfl, rfl⟩, ⟨rfl, rfl⟩, rfl⟩ .wr 0x100000 0x10800 (by decide) (by decide)
/-- A boundary where a save does not fit, where one begins, where one meets a condition, and where one writes its area. -/
def bound16 (f : Ctx → Ctx) : State := sav16 (f { ctx16 with mode := .boundary })
theorem witness_BoundarySavesFreeTheContext : (∃ s : State, s.Ok ∧ s.cx.has = true ∧ s.cx.mode = .boundary ∧ queuesEmpty s.cx = true ∧ s.cx.caps = none ∧ s.cx.yieldReq = true ∧ saveFits s s.cx = false)
    ∧ (∃ s : State, s.Ok ∧ s.cx.has = true ∧ s.cx.mode = .boundary ∧ queuesEmpty s.cx = true ∧ s.cx.caps = none ∧ s.cx.yieldReq = true ∧ saveFits s s.cx = true ∧ s.cx.id.prof ≠ .b)
    ∧ (∃ (s : State) (p : TrapInfo), s.Ok ∧ s.cx.has = true ∧ s.cx.mode = .boundary ∧ queuesEmpty s.cx = true ∧ s.cx.caps = some [] ∧ s.cx.pend = some p ∧ s.cx.due = none)
    ∧ ∃ (s : State) (slot : Nat) (ks : List Nat), s.Ok ∧ s.cx.has = true ∧ s.cx.mode = .boundary ∧ queuesEmpty s.cx = true ∧ s.cx.caps = some [] ∧ s.cx.pend = none
      ∧ saveDrained s = true ∧ freeSaveSlot s s.cx.it.vi = some slot ∧ Claims.AreaAt s .wr (saveSlotAt (s.vi s.cx.it.vi) slot) (areaSize s s.cx) ks ∧ Claims.AreaFits s.cx [] := by
  refine ⟨⟨{ bound16 fun c => { c with yieldReq := true } with vis := [] }, by unfold State.Ok; decide +kernel⟩, ⟨bound16 fun c => { c with yieldReq := true }, by unfold State.Ok; decide +kernel⟩,
    ⟨bound16 fun c => { c with caps := some [], pend := some ⟨0x0F, 0x100, 1, 77, 9, 7, true⟩ }, ⟨0x0F, 0x100, 1, 77, 9, 7, true⟩, by unfold State.Ok; decide +kernel⟩,
    ⟨bound16 fun c => { c with caps := some [] }, 0, keysFrom 0x100000 0x10800, by unfold State.Ok; decide +kernel, by decide +kernel, by decide +kernel, by decide +kernel,
      by decide +kernel, by decide +kernel, by decide +kernel, by decide +kernel, ?_, by unfold Claims.AreaFits; decide +kernel⟩⟩
  rw [show areaSize (bound16 fun c => { c with caps := some [] }) (bound16 fun c => { c with caps := some [] }).cx = 0x10800 by decide +kernel,
    show saveSlotAt ((bound16 fun c => { c with caps := some [] }).vi (bound16 fun c => { c with caps := some [] }).cx.it.vi) 0 = 0x100000 by decide +kernel]
  exact areaAt16 (s := bound16 fun c => { c with caps := some [] }) ⟨rfl, rfl, rfl, ⟨rfl, rfl⟩, ⟨rfl, rfl⟩, rfl⟩ .wr 0x100000 0x10800 (by decide) (by decide)
/-- What memory holds at the two areas. -/
theorem homeA {s : State} (hr : s.red = []) (hb : s.bad = []) (hm : s.mem = cellsOf mem16) :
    homeNat s (keysFrom 0x100000 0x10800) = homeNat s (keysFrom 0x100000 0x28) := by
  refine home16 hr hb (by decide) (by decide) ?_
  rw [hm]
  decide +kernel
/-- A yrest whose address is none, one of an area of another kind, and one that comes back; and a saved iteration that may come back. -/
theorem witness_RestoresBringTheContextBack : ∀ w ∈ [(⟨0, 0, 5, 0, 0⟩ : FR)], (∃ s : State, Claims.YReady s w.g [w.a] [] ∧ Claims.areaCause (readS s 0 w.a.toNat) = some 0x0A)
    ∧ (∃ (s : State) (ks : List Nat), Claims.YReady s w.g [w.a] [] ∧ Claims.areaCause (readS s 0 w.a.toNat) = none ∧ Claims.AreaAt s .rd (readS s 0 w.a.toNat) 0x10800 ks
      ∧ Claims.AreaAt s .rd (readS s 0 w.a.toNat) (Claims.areaBytes (homeNat s ks)) ks ∧ areaFits s (homeNat s ks) = false)
    ∧ ∃ (s : State) (ks : List Nat), Claims.YReady s w.g [w.a] [] ∧ Claims.areaCause (readS s 0 w.a.toNat) = none ∧ Claims.AreaAt s .rd (readS s 0 w.a.toNat) 0x10800 ks
      ∧ Claims.AreaAt s .rd (readS s 0 w.a.toNat) (Claims.areaBytes (homeNat s ks)) ks ∧ areaFits s (homeNat s ks) = true ∧ s.cx.ncl = 0 ∧ s.cx.ncs = 0 ∧ s.cx.ncx = 0 ∧ s.cx.ncm = 0
      ∧ restoreWaits s s.cx (homeNat s ks) = false ∧ ∀ x ∈ areaSlots (homeNat s ks), homeNat s ks / 2 ^ (8 * x.2 + 8) % 2 = 0 := by
  have h1 : homeNat ((sav16 ctx16).sr 5 0x100000) (keysFrom 0x100000 0x10800) = area16 :=
    (homeA (s := (sav16 ctx16).sr 5 0x100000) rfl rfl rfl).trans (by decide +kernel)
  have h2 : homeNat ((sav16 ctx16).sr 5 0x200000) (keysFrom 0x200000 0x10800) = 0 := by
    refine (home16 (s := (sav16 ctx16).sr 5 0x200000) (m := 0) rfl rfl (by decide) (by decide) ?_).trans (by decide +kernel)
    rw [show ((sav16 ctx16).sr 5 0x200000).mem = cellsOf mem16 from rfl]
    decide +kernel
  simp only [List.forall_mem_cons, List.not_mem_nil, false_imp_iff, implies_true, and_true]
  refine ⟨⟨(sav16 ctx16).sr 5 0x100001, yready_of (by decide +kernel), by decide +kernel⟩,
    ⟨(sav16 ctx16).sr 5 0x200000, keysFrom 0x200000 0x10800, yready_of (by decide +kernel), by decide +kernel, ?_, ?_, ?_⟩,
    ⟨(sav16 ctx16).sr 5 0x100000, keysFrom 0x100000 0x10800, yready_of (by decide +kernel), by decide +kernel, ?_, ?_, ?_⟩⟩
  · rw [show readS ((sav16 ctx16).sr 5 0x200000) 0 (5 : BitVec 6).toNat = 0x200000 by decide +kernel]
    exact areaAt16 (s := (sav16 ctx16).sr 5 0x200000) ⟨rfl, rfl, rfl, ⟨rfl, rfl⟩, ⟨rfl, rfl⟩, rfl⟩ .rd 0x200000 0x10800 (by decide) (by decide)
  · rw [h2, show readS ((sav16 ctx16).sr 5 0x200000) 0 (5 : BitVec 6).toNat = 0x200000 by decide +kernel]
    exact areaAt16 (s := (sav16 ctx16).sr 5 0x200000) ⟨rfl, rfl, rfl, ⟨rfl, rfl⟩, ⟨rfl, rfl⟩, rfl⟩ .rd 0x200000 0x10800 (by decide) (by decide)
  · rw [h2]
    decide +kernel
  · rw [show readS ((sav16 ctx16).sr 5 0x100000) 0 (5 : BitVec 6).toNat = 0x100000 by decide +kernel]
    exact areaAt16 (s := (sav16 ctx16).sr 5 0x100000) ⟨rfl, rfl, rfl, ⟨rfl, rfl⟩, ⟨rfl, rfl⟩, rfl⟩ .rd 0x100000 0x10800 (by decide) (by decide)
  · rw [h1, show Claims.areaBytes area16 = 0x10800 by decide +kernel, show readS ((sav16 ctx16).sr 5 0x100000) 0 (5 : BitVec 6).toNat = 0x100000 by decide +kernel]
    exact areaAt16 (s := (sav16 ctx16).sr 5 0x100000) ⟨rfl, rfl, rfl, ⟨rfl, rfl⟩, ⟨rfl, rfl⟩, rfl⟩ .rd 0x100000 0x10800 (by decide) (by decide)
  · rw [h1]
    decide +kernel
/-- A saved iteration that may come back, with its area, and one whose area is not mapped. -/
def back16 (base : W64) : State :=
  { graphOf regA (nodeA [0x10]) [] with
    xlat := [⟨0, 0, 0, 0, 0, 2 ^ 29, 0, 7⟩, ⟨6, 0, 0, 0, 0, 2 ^ 29, 0, 7⟩], asTab := [], mem := cellsOf mem16, sub := { a := 0, ctx := ⟨0, 0, false, 0⟩ }
    saved := [⟨0, 0, { ctx16 with it := { ctx16.it with rid := 1, nid := 2 } }⟩]
    vis := [(0, { Vi.zero with en := true, saven := 1, savesz := 4, saveuse := 1, savebase := base, cores := 4, scratch := 4096 })] }
theorem witness_RestoresBringTheContextBack_saved : (∃ (s : State) (v : Saved) (e : Nat × W64), Claims.MayReturn s v
      ∧ areaFault (Claims.comingBack s v) .rd (saveSlotAt (s.vi v.vi) v.slot) 0x10800 = some e)
    ∧ ∃ (s : State) (v : Saved) (ks : List Nat), Claims.MayReturn s v ∧ v.ctx.id.bvc = false ∧ Claims.AreaAt (Claims.comingBack s v) .rd (saveSlotAt (s.vi v.vi) v.slot) 0x10800 ks
      ∧ Claims.AreaAt (Claims.comingBack s v) .rd (saveSlotAt (s.vi v.vi) v.slot) (Claims.areaBytes (homeNat (Claims.comingBack s v) ks)) ks
      ∧ restoreWaits s (Claims.comingBack s v).cx (homeNat (Claims.comingBack s v) ks) = false
      ∧ ∀ x ∈ areaSlots (homeNat (Claims.comingBack s v) ks), homeNat (Claims.comingBack s v) ks / 2 ^ (8 * x.2 + 8) % 2 = 0 := by
  let v : Saved := ⟨0, 0, { ctx16 with it := { ctx16.it with rid := 1, nid := 2 } }⟩
  have h1 : homeNat (Claims.comingBack (back16 0x100000) v) (keysFrom 0x100000 0x10800) = area16 :=
    (homeA (s := Claims.comingBack (back16 0x100000) v) rfl rfl rfl).trans (by decide +kernel)
  have pl : Plain16 (Claims.comingBack (back16 0x100000) v) := ⟨rfl, rfl, rfl, ⟨rfl, rfl⟩, ⟨rfl, rfl⟩, rfl⟩
  refine ⟨⟨back16 0x30000000, v, (tcTranslation, 0x30000000), ⟨by decide +kernel, by decide +kernel, .inr (by decide +kernel)⟩, by decide +kernel⟩,
    ⟨back16 0x100000, v, keysFrom 0x100000 0x10800, ⟨by decide +kernel, by decide +kernel, .inr (by decide +kernel)⟩, by decide +kernel, ?_, ?_, ?_⟩⟩
  · rw [show saveSlotAt ((back16 0x100000).vi v.vi) v.slot = 0x100000 by decide +kernel]
    exact areaAt16 pl .rd 0x100000 0x10800 (by decide) (by decide)
  · rw [h1, show Claims.areaBytes area16 = 0x10800 by decide +kernel, show saveSlotAt ((back16 0x100000).vi v.vi) v.slot = 0x100000 by decide +kernel]
    exact areaAt16 pl .rd 0x100000 0x10800 (by decide) (by decide)
  · rw [h1]
    decide +kernel

/-- A global load at vault 0 of die 2 that has been in bank 0's path since cycle 0; the bank sleeps, and wakes since the cycle given, if any. -/
def waiting23 (cyc : Nat) (waking : Option Nat) : State :=
  { withCx (st .p) fun c => { c with gacc := some ⟨.gld 4 true, 16, 5, .waiting, 0, 0, 0, false, { way with arr := some 0 }⟩ } with
    cycle := cyc, xlat := [⟨0, 0, 0, 0, 0, 2 ^ 29, 2 ^ 40, 7⟩], vaults := [(0, { Vault.zero with banks := [(0, ⟨true, waking, 0, 0, 0, 0⟩)] })] }
/-- Windows of the direct-row range, legal and not; a bank that goes to sleep; one that wakes while its access waits, at 120 ns and later. -/
theorem witness_VaultControllersAct : (∀ x ∈ [(0x8000000040000000 : W64), 1], ∃ s : State, s.sub.a < 2048 ∧ s.pkg.phase = .ready ∧ s.sub.x = x
      ∧ ((s.sub.x.extractLsb' 0 14).toNat ≤ (s.sub.x.extractLsb' 16 15).toNat ↔ x ≠ 1) ∧ (s.sub.x.extractLsb' 16 15).toNat ≤ 16384)
    ∧ (∃ s : State, s.sub.a < 2048 ∧ s.sub.b < 64 ∧ (s.bank s.sub.a s.sub.b).asleep = false ∧ (s.vault s.sub.a).retidle ≠ 0
      ∧ (s.vault s.sub.a).retidle.toNat * 64 * 19 ≤ (s.cycle - (s.bank s.sub.a s.sub.b).last) * 10)
    ∧ (∃ s : State, s.sub.a < 2048 ∧ s.sub.b < 64 ∧ (s.bank s.sub.a s.sub.b).waking = some 0 ∧ ∃ j ∈ waitersAt s s.sub.a s.sub.b, Claims.Late s j ∧ j.arr ≠ some (s.cycle - 228))
    ∧ (∃ s : State, s.sub.a < 2048 ∧ s.sub.b < 64 ∧ (s.bank s.sub.a s.sub.b).waking = some 0 ∧ waitersAt s s.sub.a s.sub.b ≠ []
      ∧ ∀ j ∈ waitersAt s s.sub.a s.sub.b, Claims.Late s j → j.arr = some (s.cycle - 228))
    ∧ (∃ (s : State) (late : List Ctx), s.sub.a < 2048 ∧ s.sub.b < 64 ∧ (s.bank s.sub.a s.sub.b).waking = some 0 ∧ (∃ j ∈ waitersAt s s.sub.a s.sub.b, Claims.Late s j)
      ∧ late.Sublist s.running ∧ (∀ c ∈ s.running, c ∈ late ↔ ∃ j ∈ Claims.waitersOf s c s.sub.a s.sub.b, j.back = true ∨ Claims.Late s j) ∧ s.running.Nodup)
    ∧ (∃ s : State, s.sub.a < 2048 ∧ 0 < s.sub.d ∧ s.sub.b ≤ s.sub.d ∧ s.sub.c ≤ s.sub.d)
    ∧ ∃ s : State, ∃ l, s.wc.find? (fun l => l.line == s.sub.a) = some l ∧ (l.valid = BitVec.allOnes 64 ∨ l.at' + 512 ≤ s.cycle) := by
  have late : (decide (waitersAt (waiting23 300 (some 0)) 0 0 = [{ way with arr := some 0 }])
      && decide ((waiting23 300 (some 0)).running = [(waiting23 300 (some 0)).cx])
      && decide (waitersAt { waiting23 300 (some 0) with cx := (waiting23 300 (some 0)).cx, parked := [] } 0 0 = [{ way with arr := some 0 }])) = true := by decide +kernel
  simp only [Bool.and_eq_true, decide_eq_true_eq] at late
  obtain ⟨⟨l1, l2⟩, l3⟩ := late
  have isLate : Claims.Late (waiting23 300 (some 0)) { way with arr := some 0 } := ⟨rfl, 0, rfl, by decide⟩
  simp only [List.forall_mem_cons, List.not_mem_nil, false_imp_iff, implies_true, and_true]
  refine ⟨⟨⟨rdy vi21 { x := 0x8000000040000000 }, by decide +kernel⟩, ⟨rdy vi21 { x := 1 }, by decide +kernel⟩⟩,
    ⟨{ State.reset with cycle := 10000 }, by decide +kernel⟩,
    ⟨waiting23 300 (some 0), by decide +kernel, by decide +kernel, by decide +kernel, { way with arr := some 0 }, ?_, isLate, by decide +kernel⟩,
    ⟨waiting23 228 (some 0), by decide +kernel, by decide +kernel, by decide +kernel, by decide +kernel, ?_⟩,
    ⟨waiting23 300 (some 0), [(waiting23 300 (some 0)).cx], by decide +kernel, by decide +kernel, by decide +kernel, ⟨{ way with arr := some 0 }, ?_, isLate⟩, ?_, ?_, ?_⟩,
    ⟨{ State.reset with sub := { b := 1, c := 2, d := 3 } }, by decide +kernel⟩,
    ⟨{ State.reset with wc := [⟨0, 1, 0⟩], cycle := 512 }, ⟨0, 1, 0⟩, rfl, .inr (by decide)⟩⟩
  · rw [show waitersAt (waiting23 300 (some 0)) (waiting23 300 (some 0)).sub.a (waiting23 300 (some 0)).sub.b = _ from l1]
    exact List.mem_singleton.2 rfl
  · intro j h _
    have e : waitersAt (waiting23 228 (some 0)) 0 0 = [{ way with arr := some 0 }] := by decide +kernel
    have hj : j = { way with arr := some 0 } := by
      rw [← List.mem_singleton, ← e]
      exact h
    rw [hj]
    rfl
  · rw [show waitersAt (waiting23 300 (some 0)) (waiting23 300 (some 0)).sub.a (waiting23 300 (some 0)).sub.b = _ from l1]
    exact List.mem_singleton.2 rfl
  · rw [l2]
  · intro c hc
    rw [l2, List.mem_singleton] at hc
    subst hc
    refine ⟨fun _ => ⟨{ way with arr := some 0 }, ?_, .inr isLate⟩, fun _ => List.mem_singleton.2 rfl⟩
    unfold Claims.waitersOf
    rw [show waitersAt { waiting23 300 (some 0) with cx := (waiting23 300 (some 0)).cx, parked := [] } (waiting23 300 (some 0)).sub.a (waiting23 300 (some 0)).sub.b = _ from l3]
    exact List.mem_singleton.2 rfl
  · rw [l2]
    exact List.nodup_singleton _
/-- A context of die 0 under address space 0, whose table tree stands at 0x20000, with an entry of the table as given. -/
def tree23 (e : AsEntry) (b : Subject) (x : List Xlat) : State := { paged (st .p) with asTab := [(0, e)], sub := b, xlat := x }
/-- The same tree with no context, for work of the hub. -/
def hub23 (x : List Xlat) : State := { paged { st .p with cx := Ctx.idle ⟨0, 0, false, 0⟩ } with regions := [regA], sub := { a := 6, b := 0, x := 0x300 }, xlat := x }
/-- Walks that fill, that find the translation there, and that fail, for a context and for the hub. -/
theorem witness_Translations : (∀ x ∈ [([] : List Xlat), [⟨0, 0, 0, 0, 0, 2 ^ 29, 0, 7⟩]], ∃ (s : State) (c : Ctx) (l : Leaf),
      s.running.find? (fun c => c.id.die == s.sub.a && c.it.asid == s.sub.b) = some c ∧ walk s s.sub.b (s.sub.x.toNat % 2 ^ 57) = .ok l ∧ permOk s.sub.kind l.perm = true
        ∧ ((xlatHit s s.sub.a c.id.coreKey s.sub.b c.it.gen (s.sub.x.toNat % 2 ^ 57)).isSome = true ↔ x ≠ []) ∧ c.it.gen = (s.asid s.sub.b).gen)
    ∧ (∃ (s : State) (e : Nat), s.running.find? (fun c => c.id.die == s.sub.a && c.it.asid == s.sub.b) ≠ none ∧ walk s s.sub.b (s.sub.x.toNat % 2 ^ 57) = .error e)
    ∧ ∀ x ∈ [([] : List Xlat), [⟨6, 0, 0, 0, 0, 2 ^ 29, 0, 7⟩]], ∃ (s : State) (r : Region) (l : Leaf),
      s.running.find? (fun c => c.id.die == s.sub.a && c.it.asid == s.sub.b) = none ∧ s.sub.a < 7 ∧ s.regions.find? (fun r => r.asid == s.sub.b && !r.completed) = some r
        ∧ walk s s.sub.b (s.sub.x.toNat % 2 ^ 57) = .ok l ∧ permOk s.sub.kind l.perm = true
        ∧ ((xlatHit s s.sub.a 0 s.sub.b r.gen (s.sub.x.toNat % 2 ^ 57)).isSome = true ↔ x ≠ []) ∧ r.gen = (s.asid s.sub.b).gen := by
  simp only [List.forall_mem_cons, List.not_mem_nil, false_imp_iff, implies_true, and_true]
  let e : AsEntry := ⟨0x20000, 0, 0, [], []⟩
  exact ⟨⟨⟨tree23 e { x := 0x300 } [], cx .p, ⟨0, 2 ^ 29, 0, 7⟩, by decide +kernel⟩,
      ⟨tree23 e { x := 0x300 } [⟨0, 0, 0, 0, 0, 2 ^ 29, 0, 7⟩], cx .p, ⟨0, 2 ^ 29, 0, 7⟩, by decide +kernel⟩⟩,
    ⟨tree23 e { x := 0x20000000 } [], tcTranslation, by decide +kernel⟩,
    ⟨hub23 [], regA, ⟨0, 2 ^ 29, 0, 7⟩, by decide +kernel⟩, ⟨hub23 [⟨6, 0, 0, 0, 0, 2 ^ 29, 0, 7⟩], regA, ⟨0, 2 ^ 29, 0, 7⟩, by decide +kernel⟩⟩
/-- A controller that has yet to adopt; an advance that all have adopted, alone and with another behind it, and one that a fabric access still holds back. -/
theorem witness_Generations : (∃ s : State, s.sub.a ≠ advanceMark ∧ s.sub.a ∈ (s.asid s.sub.b).pending)
    ∧ (∃ s : State, (s.asid s.sub.a).pending = [advanceMark] ∧ leftOld s s.sub.a = true)
    ∧ ∀ ws ∈ [([] : List Advance), [⟨none, 0, some 0x8000⟩]], ∃ (s : State) (w : Advance), (s.asid s.sub.a).pending = [advanceMark] ∧ leftOld s s.sub.a = false
      ∧ (s.asid s.sub.a).queue = w :: ws ∧ (s.running.map (·.id)).Nodup := by
  simp only [List.forall_mem_cons, List.not_mem_nil, false_imp_iff, implies_true, and_true]
  exact ⟨⟨tree23 ⟨0x20000, 1, 0, [7, advanceMark], []⟩ { a := 7 } [], by decide +kernel⟩,
    ⟨{ withCx (st .p) fun c => { c with gacc := some ⟨.gld 4 true, 16, 5, .waiting, 0, 0, 0, false, { way with left := some (0, 0) }⟩ } with
      asTab := [(0, ⟨0x20000, 1, 0, [advanceMark], []⟩)] }, by decide +kernel⟩,
    ⟨tree23 ⟨0x20000, 1, 0, [advanceMark], [⟨some ⟨0, 0, false, 0⟩, 0, none⟩]⟩ {} [], ⟨some ⟨0, 0, false, 0⟩, 0, none⟩, by decide +kernel⟩,
    ⟨tree23 ⟨0x20000, 1, 0, [advanceMark], [⟨none, 0, none⟩, ⟨none, 0, some 0x8000⟩]⟩ {} [], ⟨none, 0, none⟩, by decide +kernel⟩⟩
/-- A scalar load of a base vector core through the direct-row window. -/
theorem witness_DirectRowsAreAccessed : ∃ (s : State) (a : Acc) (ks : List Nat), s.Ok ∧ s.cx.accs[s.sub.a]? = some a ∧ accOk s s.sub.a = true ∧ s.cx.id.prof = .b
    ∧ a.addr.toNat / 2 ^ 60 = 4 ∧ a.op.isMark = false ∧ s.sub.ecc ≠ .uncorrectable ∧ a.mixed = false ∧ Claims.SizeFits a ∧ accResolve s a = .ok ks
    ∧ a.chk = false ∧ Claims.HopFree s s.cx.id.die ks a.go ∧ awayDie s ks = none ∧ (rowsOf ks).length ≤ 1 := by
  refine ⟨{ withCx (st .b) fun c => { c with accs := [⟨.lds 63 6, 0x4000000000000040, 8, true, false, 0, 0, 0, 0, false, false, way⟩] } with
      vaults := [(0, { Vault.zero with dwin := 0x8000000040000000 })] },
    ⟨.lds 63 6, 0x4000000000000040, 8, true, false, 0, 0, 0, 0, false, false, way⟩, keysFrom (2 ^ 40 + 0x40) 8, by unfold State.Ok; decide +kernel, by decide +kernel, by decide +kernel,
    by decide +kernel, by decide +kernel, rfl, by decide +kernel, rfl, ⟨?_, (by intro f d y z h; cases h)⟩, by unfold Claims.HopFree; decide +kernel⟩
  intro d z h
  cases h
  decide +kernel

/-- Links with modules left, of each kind. -/
theorem witness_LinksAndPorts : ∀ p ∈ [(0, 2, 4), (2, 3, 2), (6, 0, 1)], ∃ (s : State) (n : Nat), Claims.modulesOf s.sub.a s.sub.b = some n ∧ n = p.2.2
    ∧ s.sub.a = p.1 ∧ s.sub.b = p.2.1 ∧ (s.link s.sub.a s.sub.b).lost < n := by
  simp only [List.forall_mem_cons, List.not_mem_nil, false_imp_iff, implies_true, and_true]
  exact ⟨⟨{ State.reset with sub := { a := 0, b := 2 } }, 4, by unfold Claims.modulesOf; decide +kernel⟩,
    ⟨{ State.reset with sub := { a := 2, b := 3 } }, 2, by unfold Claims.modulesOf; decide +kernel⟩, ⟨{ State.reset with sub := { a := 6, b := 0 } }, 1, by unfold Claims.modulesOf; decide +kernel⟩⟩
/-- A scalar load of a context of die 0 that reads memory of die 1 and has no slot. -/
theorem witness_LinksAndPorts_slots : ∃ (s : State) (c : Ctx) (ks : List Nat) (j : Journey), s.running.find? (·.id == s.sub.ctx) = some c
    ∧ slotSeeker (focusOn s c.id) s.sub.acc s.sub.c = some (ks, j) ∧ s.sub.a = c.id.die ∧ s.sub.b = answerDie (focusOn s c.id) c.id.die ks
    ∧ lacksSlot (focusOn s c.id) c.id.die ks j = true ∧ slotsInUse s s.sub.a s.sub.b < 64 ∧ s.sub.acc = .glob :=
  ⟨{ withCx (st .p) fun c => { c with gacc := some ⟨.gld 4 true, 16, 5, .waiting, 0, 0, 0, false, way⟩ } with
      xlat := [⟨0, 0, 0, 0, 0, 2 ^ 29, 2 ^ 39, 7⟩], sub := { a := 0, b := 1, ctx := ⟨0, 0, false, 0⟩ } },
    { cx .p with gacc := some ⟨.gld 4 true, 16, 5, .waiting, 0, 0, 0, false, way⟩ }, keysFrom (2 ^ 39 + 16) 4, way, by decide +kernel⟩
/-- Ports while training and in READY, up and down; the endpoint of the package that bridges. -/
theorem witness_LinksAndPorts_ports : (∀ p ∈ [Phase.links, Phase.ready], ∃ s : State, s.sub.a < 18 ∧ s.pkg.phase = p ∧ s.pkg.linkup.getLsbD s.sub.a = true)
    ∧ ∀ a ∈ [8, 4], ∃ s : State, s.pkg.bridge = true ∧ s.sub.a = a ∧ s.sub.a < s.pkg.lanes := by
  simp only [List.forall_mem_cons, List.not_mem_nil, false_imp_iff, implies_true, and_true]
  exact ⟨⟨⟨{ State.reset with pkg := { Pkg.reset with phase := .links, linkup := 8 }, sub := { a := 3 } }, by decide +kernel⟩,
      ⟨{ State.reset with pkg := { Pkg.reset with phase := .ready, linkup := 8 }, sub := { a := 3 } }, by decide +kernel⟩⟩,
    ⟨{ State.reset with pkg := { Pkg.reset with bridge := true }, sub := { a := 8 } }, by decide +kernel⟩,
    ⟨{ State.reset with pkg := { Pkg.reset with bridge := true }, sub := { a := 4 } }, by decide +kernel⟩⟩
theorem quiet24 (v : Vi) (b : Subject) (d : Nat) (h : v.pools = []) : Claims.Quiet (rdy v b) d := by
  refine ⟨fun c hc => absurd hc (by rw [show (rdy v b).running = [] from rfl]; exact List.not_mem_nil), fun x h => absurd (h : x ∈ []) List.not_mem_nil, ?_,
    fun x h => absurd (h : x ∈ []) List.not_mem_nil, ?_⟩
  · rintro asid srec ⟨r, hr, _⟩
    exact absurd (hr : r ∈ []) List.not_mem_nil
  · intro vi
    have e : poolOf (rdy v b) vi d = Pool.zero := by
      unfold poolOf
      rcases vi with _ | n
      · rw [show (rdy v b).vi 0 = v from rfl, h]
        rfl
      · rfl
    rw [e]
    rfl
/-- A die that may be reset, before READY and in it; one that is quiescing, one that has quiesced, and one whose neighbours are all fenced; one that retrains. -/
theorem witness_DiesAreReset : (∃ s : State, s.sub.a < 6 ∧ (Claims.Busy s s.sub.a ∨ s.pkg.phase ≠ .ready))
    ∧ (∃ s : State, s.sub.a < 6 ∧ ¬ Claims.Busy s s.sub.a ∧ s.pkg.phase = .ready ∧ Claims.Quiet s s.sub.a ∧ s.Ok)
    ∧ (∃ (s : State) (r : DieRst), s.rsts.find? (·.die == s.sub.a) = some r ∧ s.sub.b ∈ r.asked ∧ s.sub.b ∉ r.quiet ∧ ∀ c ∈ s.running, c.id.die ≠ s.sub.b)
    ∧ (∃ (s : State) (r : DieRst), s.rsts.find? (·.die == s.sub.a) = some r ∧ s.sub.b ∈ r.quiet ∧ s.sub.b ∉ r.fenced ∧ (∀ c ∈ s.running, c.id.die ≠ s.sub.b)
      ∧ (∀ w ∈ s.redWait, w.ctx.die ≠ s.sub.b) ∧ ∀ j ∈ s.tw, j.die ≠ s.sub.b)
    ∧ (∃ (s : State) (r : DieRst), s.rsts.find? (·.die == s.sub.a) = some r ∧ (∀ d ∈ r.asked, d ∈ r.fenced) ∧ s.sub.a ∉ s.downDies ∧ Claims.Quiet s s.sub.a ∧ s.Ok)
    ∧ ∃ s : State, s.sub.a ∈ s.downDies ∧ s.sub.a < 7 := by
  refine ⟨⟨State.reset, by decide +kernel, .inr (by decide +kernel)⟩, ⟨rdy vi21 { a := 1 }, by decide +kernel, ?_, by decide +kernel, quiet24 _ _ _ rfl, by unfold State.Ok; decide +kernel⟩,
    ⟨{ rdy vi21 { a := 1, b := 2 } with rsts := [⟨1, [2, 6], [], []⟩] }, ⟨1, [2, 6], [], []⟩, by decide +kernel⟩,
    ⟨{ rdy vi21 { a := 1, b := 2 } with rsts := [⟨1, [2, 6], [2], []⟩] }, ⟨1, [2, 6], [2], []⟩, by decide +kernel⟩,
    ⟨{ rdy vi21 { a := 1 } with rsts := [⟨1, [2, 6], [2, 6], [6, 2]⟩] }, ⟨1, [2, 6], [2, 6], [6, 2]⟩, by decide +kernel, by decide +kernel, by decide +kernel,
      quiet24 vi21 { a := 1 } 1 rfl, by unfold State.Ok; decide +kernel⟩,
    ⟨{ rdy vi21 { a := 1 } with downDies := [1] }, by decide +kernel⟩⟩
  rintro (⟨r, hr, _⟩ | h)
  · exact absurd (hr : r ∈ []) List.not_mem_nil
  · exact absurd (h : 1 ∈ []) List.not_mem_nil
/-- Every phase of bring-up, an image that passes and one that fails, an edge of the lifecycle that is fused, and one that is not. -/
theorem witness_BringUp : (∀ p ∈ [Phase.reset, Phase.links, Phase.ready], ∃ s : State, s.pkg.phase = p)
    ∧ (∃ s : State, s.pkg.phase = .reset ∧ s.sub.img.present = true ∧ s.sub.img.headerOk = true ∧ s.sub.img.hashOk = true ∧ s.sub.img.sigOk = true ∧ s.pkg.minsvn.toNat ≤ s.sub.img.fwsvn)
    ∧ (∃ s : State, s.pkg.phase = .reset ∧ s.sub.img.present = false)
    ∧ ∃ s : State, s.sub.p = true ∧ s.sub.q = true ∧ s.pkg.lcs.toNat = 1 ∧ s.sub.a = 2 := by
  simp only [List.forall_mem_cons, List.not_mem_nil, false_imp_iff, implies_true, and_true]
  exact ⟨⟨⟨State.reset, rfl⟩, ⟨{ State.reset with pkg := { Pkg.reset with phase := .links } }, rfl⟩, ⟨rdy vi21 {}, rfl⟩⟩,
    ⟨{ State.reset with sub := { img := ⟨true, true, true, true, 3, []⟩ } }, by decide +kernel⟩,
    ⟨{ State.reset with sub := { img := ⟨false, false, false, false, 0, []⟩ } }, by decide +kernel⟩,
    ⟨{ State.reset with pkg := { Pkg.reset with lcs := 1 }, sub := { a := 2, p := true, q := true } }, by decide +kernel⟩⟩
/-- A power limit that is taken; the lifecycle states with and without a report; counters before READY and in it. -/
theorem witness_PowerAndManagement : (∃ s : State, s.pkg.phase = .ready ∧ 400 ≤ s.sub.a ∧ s.sub.a ≤ 2000 ∧ (s.vis.map (·.1)).Nodup)
    ∧ (∀ l ∈ [(0 : BitVec 2), 1, 2, 3], ∃ s : State, s.pkg.lcs = l) ∧ (∃ s : State, s.pkg.phase ≠ .ready)
    ∧ ∀ a ∈ [5, 6, 127], ∃ s : State, s.sub.a = a := by
  exact ⟨⟨rdy vi21 { a := 400 }, by decide +kernel⟩, fun l _ => ⟨{ State.reset with pkg := { Pkg.reset with lcs := l } }, rfl⟩, ⟨State.reset, by decide +kernel⟩,
    fun a _ => ⟨{ State.reset with sub := { a := a } }, rfl⟩⟩
/-- A queue head of each stream whose turn it is: one that takes effect, and one whose gate suppresses it. -/
def headOf (st' : Stream) (e : QEntry) : State := { (st .p) with phase := phaseOf st', cx := (cx .p).setQueue st' [e] }
def nopEntry (g : BitVec 2) : QEntry := { QEntry.none with word := 0#6 ++ g ++ 0#24, level := some (true, false) }
theorem witness_StepsRunTheDecodedInstruction : ∀ p ∈ [(0, true), (2, false)], ∃ (s : State) (i : Instr) (e : QEntry), Claims.MayIssue s .c e [] ∧ decode .c e.word e.ext = .ok i
    ∧ (Claims.takesEffect (e.word.extractLsb' 24 2) e.level ↔ p.2 = true) ∧ behindS s.cx s.cycle e i = false := by
  simp only [List.forall_mem_cons, List.not_mem_nil, false_imp_iff, implies_true, and_true]
  exact ⟨⟨headOf .c (nopEntry 0), .nop ⟨0⟩, nopEntry 0, ⟨rfl, rfl, rfl, by decide +kernel, by decide +kernel, by decide +kernel⟩, by decide +kernel,
      by unfold Claims.takesEffect nopEntry; decide +kernel, by decide +kernel⟩,
    ⟨headOf .c (nopEntry 2), .nop ⟨2⟩, nopEntry 2, ⟨rfl, rfl, rfl, by decide +kernel, by decide +kernel, by decide +kernel⟩, by decide +kernel,
      by unfold Claims.takesEffect nopEntry; decide +kernel, by decide +kernel⟩⟩
/-- A well-formed instruction with its words; a state with memory in its canonical form whose step answers a next state. -/
theorem witness_EncodedInstructions : ∃ (i : Instr) (x : Enc), wf i = true ∧ encode i = some x :=
  ⟨.addi ⟨1, 12, 0, 2, []⟩, _, by decide +kernel, rfl⟩
theorem witness_StepsKeepMemoryCanonical : ∃ s t : State, s.Ok ∧ step s = .next t := by
  have h : (match step State.reset with | .next _ => true | _ => false) = true := by decide +kernel
  refine ⟨State.reset, (match step State.reset with | .next t => t | _ => State.reset), by unfold State.Ok; decide +kernel, ?_⟩
  revert h
  cases step State.reset <;> intro h
  · rfl
  · exact Bool.noConfusion h
  · exact Bool.noConfusion h

end Sys2Proof.Tests
end

section
/-! SUPPORT. The decoder's rule for a word that its stream's map and the encoder agree on. -/

namespace Sys2Proof

/-- R97, R99, R102: the decoder accepts the map's candidate when its encoding gives the same words back and its form is legal. -/
theorem decode_of_candidate {st : Stream} {w : W32} {x : List W32} {i : Instr} (hc : candidate st w x = some i)
    (he : encode i = some ⟨st, w, x⟩) (hw : wf i = true) : decode st w x = .ok i := by
  simp [decode, hc, he, hw]

end Sys2Proof
end

section
/-! CERTIFICATE. Sequencing and control: nop (R153). -/

namespace Sys2Proof

/-- R107: opcode 0x00 of the C map is nop, whatever the gate. -/
theorem candC_packZ_nop (w : FZ) : candC (packZ 0x00 w) [] = some (.nop w) := by
  unfold candC
  rw [op_packZ, fields_packZ]
  rfl

/-- R153: a nop's word in format Z decodes to it. -/
theorem decode_packZ_nop (w : FZ) : decode .c (packZ 0x00 w) [] = .ok (.nop w) :=
  decode_of_candidate (candC_packZ_nop w) rfl rfl

/-- R153: the word of a nop with gate 0 is all zero. -/
theorem packZ_nop_zero : packZ 0x00 ⟨0⟩ = 0 := rfl

namespace Machine

/-- R153: nop has no effect in any state. -/
theorem exec_nop (w : FZ) (s : State) : exec (.nop w) s = .next s := rfl

end Machine

/-- Settles O53: each gate's nop word is a packed one, which decodes to its own fields; the zero word is gate 0's. -/
theorem nopHasNoEffect : Obligations.NopHasNoEffect := by
  unfold Obligations.NopHasNoEffect
  have hzero : decode .c 0 [] = .ok (.nop ⟨0⟩) := packZ_nop_zero ▸ decode_packZ_nop ⟨0⟩
  exact ⟨fun g => decode_packZ_nop ⟨g⟩, hzero, Machine.exec_nop⟩

end Sys2Proof
end

section
/-! SUPPORT. The laws of the integer values of the S stream: each value function of the model is the word operation that R156,
R157, R159 and R160 state. -/

namespace Sys2Proof.Machine

/-! ## Products -/

/-- The high half of a 128-bit integer is its quotient by 2^64. -/
theorem extractHigh_ofInt (p : Int) : (BitVec.ofInt 128 p).extractLsb' 64 64 = toW (p / 2 ^ 64) := by
  apply BitVec.eq_of_toNat_eq
  simp only [toW, BitVec.extractLsb'_toNat, BitVec.toNat_ofInt, Nat.shiftRight_eq_div_pow]
  omega

theorem valMulh_eq :
    valMulh = pureVal fun x y _ => (x.signExtend 128 * y.signExtend 128).extractLsb' 64 64 := by
  have high (x y : W64) : toW (x.toInt * y.toInt / 2 ^ 64) = (x.signExtend 128 * y.signExtend 128).extractLsb' 64 64 := by
    rw [BitVec.signExtend, BitVec.signExtend, ← BitVec.ofInt_mul, extractHigh_ofInt]
  simp only [valMulh, high]

theorem valMulhu_eq :
    valMulhu = pureVal fun x y _ => (x.setWidth 128 * y.setWidth 128).extractLsb' 64 64 := by
  have high (x y : W64) : natW (x.toNat * y.toNat / 2 ^ 64) = (x.setWidth 128 * y.setWidth 128).extractLsb' 64 64 := by
    apply BitVec.eq_of_toNat_eq
    simp only [natW, BitVec.extractLsb'_toNat, BitVec.toNat_mul, BitVec.toNat_ofNat, Nat.shiftRight_eq_div_pow,
      BitVec.toNat_setWidth_of_le (show 64 ≤ 128 by decide)]
    omega
  simp only [valMulhu, high]

/-! ## Quotients and remainders -/

/-- The truncated quotient of two integers is the signed quotient of their words, the overflow of R157 included. -/
theorem toW_tdiv (x y : W64) : toW (x.toInt.tdiv y.toInt) = x.sdiv y := by
  apply BitVec.eq_of_toInt_eq
  rw [BitVec.toInt_sdiv, toW, BitVec.toInt_ofInt]

/-- The truncated remainder is what the signed quotient leaves. -/
theorem toW_tmod (x y : W64) : toW (x.toInt.tmod y.toInt) = x - y * x.sdiv y := by
  apply eq_sub_of_add_eq
  calc toW (x.toInt.tmod y.toInt) + y * x.sdiv y
      = toW (x.toInt.tmod y.toInt + y.toInt * x.toInt.tdiv y.toInt) := by
        simp only [← toW_tdiv, toW, BitVec.ofInt_add, BitVec.ofInt_mul, BitVec.ofInt_toInt]
    _ = x := by rw [Int.tmod_add_mul_tdiv, toW, BitVec.ofInt_toInt]

/-- R157: the one signed quotient that overflows is its own dividend. -/
theorem intMin_sdiv_neg_one : (BitVec.intMin 64).sdiv (-1) = BitVec.intMin 64 := by decide

/-- The unsigned remainder is what the unsigned quotient leaves. -/
theorem natW_mod (x y : W64) : natW (x.toNat % y.toNat) = x - y * (x / y) := by
  apply eq_sub_of_add_eq
  apply BitVec.eq_of_toNat_eq
  simp [natW, Nat.mod_add_div, Nat.mod_eq_of_lt x.isLt]

/-- The unsigned quotient of two words. -/
theorem natW_div (x y : W64) : natW (x.toNat / y.toNat) = x / y := by
  apply BitVec.eq_of_toNat_eq
  rw [natW, BitVec.toNat_ofNat, BitVec.toNat_udiv, Nat.mod_eq_of_lt (Nat.lt_of_le_of_lt (Nat.div_le_self ..) x.isLt)]

/-- R157: division by 0 gives all ones, and the overflow gives the dividend. -/
theorem sdivW_eq (x y : W64) : sdivW x y =
    if y = 0 then 0xFFFFFFFFFFFFFFFF else if x = BitVec.intMin 64 ∧ y = -1 then BitVec.intMin 64 else x.sdiv y := by
  unfold sdivW
  rw [toW_tdiv]
  by_cases overflow : x = BitVec.intMin 64 ∧ y = -1
  · rw [if_pos overflow, overflow.1, overflow.2, intMin_sdiv_neg_one]
    rfl
  · rw [if_neg overflow]
    rfl

/-- R157: the remainder of a division by 0 is the dividend, and that of the overflow is 0. -/
theorem sremW_eq (x y : W64) : sremW x y =
    if y = 0 then x else if x = BitVec.intMin 64 ∧ y = -1 then 0 else x - y * x.sdiv y := by
  unfold sremW
  rw [toW_tmod]
  by_cases overflow : x = BitVec.intMin 64 ∧ y = -1
  · rw [if_pos overflow, overflow.1, overflow.2, intMin_sdiv_neg_one]
    rfl
  · rw [if_neg overflow]

theorem valDiv_eq : valDiv = pureVal fun x y _ =>
    if y = 0 then 0xFFFFFFFFFFFFFFFF else if x = BitVec.intMin 64 ∧ y = -1 then BitVec.intMin 64 else x.sdiv y := by
  simp only [valDiv, sdivW_eq]

theorem valDivu_eq : valDivu = pureVal fun x y _ => if y = 0 then 0xFFFFFFFFFFFFFFFF else x / y := by
  simp only [valDivu, natW_div]
  rfl

theorem valRem_eq : valRem = pureVal fun x y _ =>
    if y = 0 then x else if x = BitVec.intMin 64 ∧ y = -1 then 0 else x - y * x.sdiv y := by
  simp only [valRem, sremW_eq]

theorem valRemu_eq : valRemu = pureVal fun x y _ => if y = 0 then x else x - y * (x / y) := by
  simp only [valRemu, natW_mod]

/-! ## Shifts -/

/-- R156: a shift uses the low 6 bits of its distance. -/
theorem toNat_and_63 (y : W64) : (y &&& 63).toNat = y.toNat % 64 :=
  (BitVec.toNat_and y 63).trans (Nat.and_two_pow_sub_one_eq_mod y.toNat 6)

theorem valSll_eq : valSll = pureVal fun x y _ => x <<< (y &&& 63).toNat := by
  simp only [valSll, toNat_and_63]

theorem valSrl_eq : valSrl = pureVal fun x y _ => x >>> (y &&& 63).toNat := by
  simp only [valSrl, toNat_and_63]

theorem valSra_eq : valSra = pureVal fun x y _ => x.sshiftRight (y &&& 63).toNat := by
  simp only [valSra, toNat_and_63]

/-! ## Minima and maxima -/

theorem valMin_eq : valMin = pureVal fun x y _ => BitVec.ofInt 64 (min x.toInt y.toInt) := by
  simp only [valMin, min_def, apply_ite (BitVec.ofInt 64), BitVec.ofInt_toInt]

theorem valMax_eq : valMax = pureVal fun x y _ => BitVec.ofInt 64 (max x.toInt y.toInt) := by
  simp only [valMax, max_def, apply_ite (BitVec.ofInt 64), BitVec.ofInt_toInt]

theorem valMinu_eq : valMinu = pureVal fun x y _ => BitVec.ofNat 64 (min x.toNat y.toNat) := by
  simp only [valMinu, min_def, apply_ite (BitVec.ofNat 64), BitVec.ofNat_toNat, BitVec.setWidth_eq]

theorem valMaxu_eq : valMaxu = pureVal fun x y _ => BitVec.ofNat 64 (max x.toNat y.toNat) := by
  simp only [valMaxu, max_def, apply_ite (BitVec.ofNat 64), BitVec.ofNat_toNat, BitVec.setWidth_eq]

/-! ## Comparison and selection -/

/-- The word of a decided condition is 1 where it holds. -/
theorem boolW_decide (p : Prop) [Decidable p] : boolW (decide p) = Claims.oneIf p := by
  unfold boolW Claims.oneIf
  simp only [decide_eq_true_eq]

/-- R159: each of the six conditions; the codes from 5 on compare unsigned, as 5 does. -/
theorem boolW_cmpHolds (cc : BitVec 6) (x y : W64) : boolW (cmpHolds cc.toNat x y) = Claims.cmpSpec cc x y := by
  unfold cmpHolds Claims.cmpSpec
  generalize cc.toNat = code
  match code with
  | 0 => exact (congrArg boolW (beq_eq_decide x y)).trans (boolW_decide (x = y))
  | 1 =>
    show boolW (!(x == y)) = Claims.oneIf (x ≠ y)
    rw [beq_eq_decide, ← decide_not, boolW_decide]
  | 2 => exact boolW_decide (x.toInt < y.toInt)
  | 3 => exact boolW_decide (y.toInt ≤ x.toInt)
  | 4 => exact boolW_decide (x.toNat < y.toNat)
  | _ + 5 => exact boolW_decide (y.toNat ≤ x.toNat)

theorem valCmp_eq (w : FR) : valCmp w = pureVal fun x y _ => Claims.cmpSpec w.f x y := by
  simp only [valCmp, boolW_cmpHolds]

theorem valSel_eq : valSel = pureVal fun x y z => if z ≠ 0 then x else y := by
  simp only [valSel, bne_iff_ne]

end Sys2Proof.Machine
end

section
/-! SUPPORT. The completion of an S instruction whose value needs no rounding and raises no flag. -/

namespace Sys2Proof.Machine

/-- What puts results in flight changes nothing but them. -/
theorem onlyCx_launch (s : State) (fs : List InFlight) :
    Claims.OnlyCx s (launch s fs) { s.cx with inflight := s.cx.inflight ++ fs } :=
  ⟨rfl, fun _ => rfl⟩

/-- A result that the executing instruction puts in flight is as R125 describes it. -/
theorem isResult_mkFlight (s : State) (st : Stream) (lat : Nat) (res : Res) (fl : Flags) (smx : Bool) (src : Capt) :
    Claims.IsResult s (mkFlight s st lat res fl smx src) st lat res fl :=
  ⟨rfl, rfl, rfl, rfl, rfl, rfl, rfl, rfl, rfl, rfl⟩

/-- An optional source that names no register in an ownership window breaches none. -/
theorem any_breachS_eq_false {c : Ctx} {now : Nat} {r : Option (BitVec 6)}
    (h : ∀ n ∈ r.toList, breachS c now n.toNat = false) : (r.any fun n => breachS c now n.toNat) = false := by
  cases r with
  | none => rfl
  | some n => exact h n List.mem_cons_self

/-- R127: without a breach, the check at the issue of an S instruction passes. -/
theorem breachCheck_eq_false {s : State} {a d : BitVec 6} {b c : Option (BitVec 6)}
    (h : Claims.NoBreach s (a :: (b.toList ++ c.toList)) d) :
    (s.cur.chk && ([some a, b, c].any (fun r => r.any fun n => breachS s.cx s.cycle n.toNat)
      || (VDst.scal d).breach s)) = false := by
  rcases h with off | ⟨reads, dest⟩
  · rw [off, Bool.false_and]
  · have ha : breachS s.cx s.cycle a.toNat = false := reads a List.mem_cons_self
    have hb := any_breachS_eq_false fun n hn => reads n (List.mem_cons_of_mem a (List.mem_append_left c.toList hn))
    have hc := any_breachS_eq_false fun n hn => reads n (List.mem_cons_of_mem a (List.mem_append_right b.toList hn))
    simp [ha, hb, hc, dest]

/-- A form completes where each of its instructions issues the form's value without flags. -/
theorem completes_of_issue {form : Instr → Option Claims.SForm}
    (issues : ∀ i w s, form i = some w → exec i s = issueScalar w.g w.d (some w.a) w.b w.c w.lat (pureVal w.val) s) :
    Claims.Completes form := by
  intro i w s hw gate quiet
  exact ⟨_, _, (issues i w s hw).trans (issueScalar_next gate (breachCheck_eq_false quiet) (BitVec.zero_and)),
    onlyCx_launch s _, isResult_mkFlight s ..⟩

end Sys2Proof.Machine
end

section
/-! CERTIFICATE. The integer instructions of two or three registers (R155 to R160). -/

namespace Sys2Proof.Machine

/-- R155 to R160: an integer instruction of two or three registers issues as its form says. -/
theorem exec_intForm (i : Instr) (w : Claims.SForm) (s : State) (h : Claims.intForm i = some w) :
    exec i s = issueScalar w.g w.d (some w.a) w.b w.c w.lat (pureVal w.val) s := by
  cases i with
  | add w => cases h; rfl
  | sub w => cases h; rfl
  | mul w => cases h; rfl
  | mulh w => cases h; exact congrArg (issueR2 w 4 · s) valMulh_eq
  | mulhu w => cases h; exact congrArg (issueR2 w 4 · s) valMulhu_eq
  | div w => cases h; exact congrArg (issueR2 w 24 · s) valDiv_eq
  | divu w => cases h; exact congrArg (issueR2 w 24 · s) valDivu_eq
  | rem w => cases h; exact congrArg (issueR2 w 24 · s) valRem_eq
  | remu w => cases h; exact congrArg (issueR2 w 24 · s) valRemu_eq
  | and w => cases h; rfl
  | or w => cases h; rfl
  | xor w => cases h; rfl
  | sll w => cases h; exact congrArg (issueR2 w 1 · s) valSll_eq
  | srl w => cases h; exact congrArg (issueR2 w 1 · s) valSrl_eq
  | sra w => cases h; exact congrArg (issueR2 w 1 · s) valSra_eq
  | min w => cases h; exact congrArg (issueR2 w 1 · s) valMin_eq
  | max w => cases h; exact congrArg (issueR2 w 1 · s) valMax_eq
  | minu w => cases h; exact congrArg (issueR2 w 1 · s) valMinu_eq
  | maxu w => cases h; exact congrArg (issueR2 w 1 · s) valMaxu_eq
  | cmp w => cases h; exact congrArg (issueR2 w 1 · s) (valCmp_eq w)
  | sel w => cases h; exact congrArg (issueScalar w.g w.d (some w.a) (some w.b) (some w.f) 1 · s) valSel_eq
  | _ => nomatch h

end Sys2Proof.Machine

namespace Sys2Proof

/-- Settles O1: each integer instruction issues its form's value, and what issues a value without flags completes. -/
theorem scalarIntegerResults : Obligations.ScalarIntegerResults := by
  unfold Obligations.ScalarIntegerResults
  exact Machine.completes_of_issue Machine.exec_intForm

end Sys2Proof
end

section
/-! SUPPORT. The laws of rounding a magnitude to the multiples of a step (R178, R179), and that the model's toGrid does it. -/

namespace Sys2Proof.Machine

/-- The four rounding modes. -/
theorem mode_cases (rm : BitVec 2) : rm = 0 ∨ rm = 1 ∨ rm = 2 ∨ rm = 3 := by
  revert rm
  decide

/-- R178, R179: the mode takes the magnitude of a value of this sign away from zero. -/
abbrev AwayFromZero (rm : BitVec 2) (neg : Bool) : Prop := (rm = 2 ∧ neg = true) ∨ (rm = 3 ∧ neg = false)

/-- The mode rounds the magnitude a to n steps s: to the nearer multiple, and to the even one of two equally near, or to the
next one on its side. -/
def RoundsToMultiple (rm : BitVec 2) (neg : Bool) (s a : ℚ) (n : ℕ) : Prop :=
  if rm = 0 then |n * s - a| ≤ s / 2 ∧ (|n * s - a| = s / 2 → Even n)
  else if AwayFromZero rm neg then a ≤ n * s ∧ n * s < a + s
  else n * s ≤ a ∧ a < n * s + s

/-- Rounding to a step s below b takes the magnitude a to b or past it. -/
def ReachesBound (rm : BitVec 2) (neg : Bool) (s b a : ℚ) : Prop :=
  if rm = 0 then b - s / 2 ≤ a else if AwayFromZero rm neg then b - s < a else b ≤ a

section
variable {rm : BitVec 2} {neg : Bool} {s a b : ℚ} {n k : ℕ}

theorem roundsToMultiple_of_eq (hs : 0 < s) (h : n * s = a) : RoundsToMultiple rm neg s a n := by
  unfold RoundsToMultiple
  subst h
  split_ifs
  · rw [sub_self, abs_zero]
    exact ⟨by linarith, fun h => absurd h (by linarith)⟩
  · exact ⟨le_rfl, by linarith⟩
  · exact ⟨le_rfl, by linarith⟩

theorem roundsToMultiple_mul_right {t : ℚ} (ht : 0 < t) (h : RoundsToMultiple rm neg s a n) :
    RoundsToMultiple rm neg (s * t) (a * t) n := by
  unfold RoundsToMultiple at h ⊢
  have scaled : |n * (s * t) - a * t| = |n * s - a| * t := by
    rw [← mul_assoc, ← sub_mul, abs_mul, abs_of_pos ht]
  have half : s * t / 2 = s / 2 * t := by ring
  rw [scaled, half, ← mul_assoc, ← add_mul, ← add_mul, mul_le_mul_iff_left₀ ht, mul_le_mul_iff_left₀ ht,
    mul_le_mul_iff_left₀ ht, mul_lt_mul_iff_left₀ ht, mul_lt_mul_iff_left₀ ht, mul_left_inj' ht.ne']
  exact h

theorem reaches_of_le (hs : 0 < s) (h : b ≤ a) : ReachesBound rm neg s b a := by
  unfold ReachesBound
  split_ifs <;> linarith

theorem not_reaches_of_le (hs : 0 < s) (h : a ≤ b - s) : ¬ ReachesBound rm neg s b a := by
  unfold ReachesBound
  split_ifs <;> linarith

theorem ReachesBound.mono {s' : ℚ} (hs : s ≤ s') (h : ReachesBound rm neg s b a) : ReachesBound rm neg s' b a := by
  unfold ReachesBound at h ⊢
  split_ifs at h ⊢ <;> linarith

theorem mul_add_le_mul_of_lt (hs : 0 < s) (h : n < k) : n * s + s ≤ k * s := by
  rw [← add_one_mul]
  exact mul_le_mul_of_nonneg_right (by exact_mod_cast h) hs.le

theorem RoundsToMultiple.le_of_mul_le (hs : 0 < s) (h : RoundsToMultiple rm neg s a n) (hk : k * s ≤ a) : k ≤ n := by
  by_contra hlt
  have step := mul_add_le_mul_of_lt hs (not_le.1 hlt)
  unfold RoundsToMultiple at h
  split_ifs at h
  · linarith [(abs_le.1 h.1).1]
  · linarith
  · linarith

theorem RoundsToMultiple.le_of_le_mul (hs : 0 < s) (h : RoundsToMultiple rm neg s a n) (hk : a ≤ k * s) : n ≤ k := by
  by_contra hlt
  have step := mul_add_le_mul_of_lt hs (not_le.1 hlt)
  unfold RoundsToMultiple at h
  split_ifs at h
  · linarith [(abs_le.1 h.1).2]
  · linarith
  · linarith

/-- A magnitude rounds to an even multiple of the step or past it exactly when it reaches that multiple: the tie below an even
multiple goes to it. -/
theorem RoundsToMultiple.le_iff_reaches (hs : 0 < s) (hk : Even k) (h : RoundsToMultiple rm neg s a n) :
    k ≤ n ↔ ReachesBound rm neg s (k * s) a := by
  have up (hle : k ≤ n) : k * s ≤ n * s := mul_le_mul_of_nonneg_right (Nat.cast_le.2 hle) hs.le
  have down (hlt : n < k) : n * s + s ≤ k * s := mul_add_le_mul_of_lt hs hlt
  unfold RoundsToMultiple at h
  unfold ReachesBound
  split_ifs at h ⊢
  · obtain ⟨near, tie⟩ := h
    refine ⟨fun hle => by linarith [up hle, (abs_le.1 near).2], fun reach => not_lt.1 fun hlt => ?_⟩
    have below : s / 2 ≤ |n * s - a| := by linarith [down hlt, neg_le_abs (n * s - a)]
    have even : Even n := tie (le_antisymm near below)
    have adjacent : (k : ℚ) * s = (n + 1 : ℕ) * s := by
      push_cast
      linarith [down hlt, (abs_le.1 near).1]
    obtain rfl : k = n + 1 := Nat.cast_injective (mul_right_cancel₀ hs.ne' adjacent)
    exact Nat.even_add_one.1 hk even
  · exact ⟨fun hle => by linarith [up hle], fun reach => not_lt.1 fun hlt => by linarith [down hlt]⟩
  · exact ⟨fun hle => by linarith [up hle], fun reach => not_lt.1 fun hlt => by linarith [down hlt]⟩

end

/-! ## toGrid -/

section
variable {rm : BitVec 2} {neg : Bool} {m h n r k : ℕ} {e q : ℤ}

/-- An exponent on the grid: the rounding is exact. -/
theorem toGrid_add_left : toGrid rm neg m (q + k) q false = (m * 2 ^ k, false) := by
  unfold toGrid
  rw [if_pos (by omega), add_sub_cancel_left, Int.toNat_natCast]

/-- Where the quotient n by 2h leaves the remainder r, the mode goes up to n + 1. -/
abbrev RoundsUp (rm : BitVec 2) (neg : Bool) (h n r : ℕ) : Prop :=
  if rm = 0 then h < r ∨ (r = h ∧ n % 2 = 1) else AwayFromZero rm neg ∧ r ≠ 0

/-- An exponent below the grid: the quotient by the step or the next integer, inexact where a remainder is left. -/
theorem toGrid_add_right : toGrid rm neg m e (e + (k + 1 : ℕ)) false =
    (if RoundsUp rm neg (2 ^ k) (m / 2 ^ (k + 1)) (m % 2 ^ (k + 1)) then m / 2 ^ (k + 1) + 1 else m / 2 ^ (k + 1),
      m % 2 ^ (k + 1) != 0) := by
  unfold toGrid
  rw [if_neg (by omega), add_sub_cancel_left, Int.toNat_natCast]
  rcases mode_cases rm with rfl | rfl | rfl | rfl <;> cases neg <;> simp [RoundsUp, AwayFromZero]

theorem not_roundsUp_zero (hh : 0 < h) : ¬ RoundsUp rm neg h n 0 := by
  rw [RoundsUp]
  split_ifs <;> omega

/-- R179: the quotient or the next integer, as the mode says, is the rounding of 2hn + r to a step of 2h. -/
theorem roundsToMultiple_quotient (hr : r < 2 * h) :
    RoundsToMultiple rm neg (2 * h) (n * (2 * h) + r) (if RoundsUp rm neg h n r then n + 1 else n : ℕ) := by
  have below : (r : ℚ) < 2 * h := by exact_mod_cast hr
  have nonneg : (0 : ℚ) ≤ r := r.cast_nonneg
  have gap_up : |((n + 1 : ℕ) : ℚ) * (2 * h) - (n * (2 * h) + r)| = 2 * h - r := by
    rw [abs_of_nonneg] <;> push_cast <;> linarith
  have gap_down : |(n : ℚ) * (2 * h) - (n * (2 * h) + r)| = r := by
    rw [abs_sub_comm, add_sub_cancel_left, abs_of_nonneg nonneg]
  unfold RoundsToMultiple
  split_ifs with nearest up away up up
  · have : (h : ℚ) ≤ r := by exact_mod_cast (by omega : h ≤ r)
    rw [gap_up, Nat.even_iff]
    refine ⟨by linarith, fun tie => ?_⟩
    have : r = h := by exact_mod_cast (by linarith : (r : ℚ) = h)
    omega
  · have : (r : ℚ) ≤ h := by exact_mod_cast (by omega : r ≤ h)
    rw [gap_down, Nat.even_iff]
    refine ⟨by linarith, fun tie => ?_⟩
    have : r = h := by exact_mod_cast (by linarith : (r : ℚ) = h)
    omega
  · have : (0 : ℚ) < r := by exact_mod_cast Nat.pos_of_ne_zero up.2
    push_cast
    exact ⟨by linarith, by linarith⟩
  · have : (r : ℚ) = 0 := by exact_mod_cast not_not.1 fun hne => up ⟨away, hne⟩
    exact ⟨by linarith, by linarith⟩
  · exact absurd up.1 away
  · exact ⟨by linarith, by linarith⟩

/-- R179: what toGrid answers is the mode's rounding of m x 2^e to the step 2^q. -/
theorem toGrid_roundsToMultiple : RoundsToMultiple rm neg (2 ^ q) (m * 2 ^ e) (toGrid rm neg m e q false).1 := by
  rcases le_or_gt q e with aligned | below
  · obtain ⟨k, rfl⟩ := Int.le.dest aligned
    rw [toGrid_add_left]
    refine roundsToMultiple_of_eq (by positivity) ?_
    rw [zpow_add₀ two_ne_zero, zpow_natCast]
    push_cast
    ring
  · obtain ⟨k, rfl⟩ := Int.lt.dest below
    rw [toGrid_add_right]
    have small : m % 2 ^ (k + 1) < 2 * 2 ^ k := (Nat.mod_lt m (Nat.two_pow_pos (k + 1))).trans_eq (pow_succ' 2 k)
    have quotient := roundsToMultiple_mul_right (zpow_pos two_pos e)
      (roundsToMultiple_quotient (rm := rm) (neg := neg) (n := m / 2 ^ (k + 1)) small)
    have step : (2 : ℚ) * ((2 ^ k : ℕ) : ℚ) = 2 ^ (k + 1) := by push_cast; ring
    have divMod : ((m / 2 ^ (k + 1) : ℕ) : ℚ) * 2 ^ (k + 1) + (m % 2 ^ (k + 1) : ℕ) = m := by
      exact_mod_cast Nat.div_add_mod' m (2 ^ (k + 1))
    rwa [step, divMod, mul_comm (2 ^ (k + 1) : ℚ), ← zpow_natCast, ← zpow_add₀ two_ne_zero] at quotient

/-- toGrid reports the roundings that are not exact. -/
theorem toGrid_inexact :
    (toGrid rm neg m e q false).2 = true ↔ ((toGrid rm neg m e q false).1 : ℚ) * 2 ^ q ≠ m * 2 ^ e := by
  rcases le_or_gt q e with aligned | below
  · obtain ⟨k, rfl⟩ := Int.le.dest aligned
    have same : ((m * 2 ^ k : ℕ) : ℚ) * 2 ^ q = m * 2 ^ (q + k) := by
      rw [zpow_add₀ two_ne_zero, zpow_natCast]
      push_cast
      ring
    rw [toGrid_add_left]
    exact iff_of_false Bool.false_ne_true (not_not.2 same)
  · obtain ⟨k, rfl⟩ := Int.lt.dest below
    rw [toGrid_add_right, zpow_add₀ two_ne_zero, zpow_natCast, mul_left_comm, mul_comm (m : ℚ), bne_iff_ne, not_iff_not,
      mul_right_inj' (zpow_ne_zero e two_ne_zero)]
    norm_cast
    constructor
    · intro remainder
      rw [remainder, if_neg (not_roundsUp_zero (Nat.two_pow_pos k)), Nat.div_mul_cancel (Nat.dvd_of_mod_eq_zero remainder)]
    · intro multiple
      rw [← multiple, Nat.mul_mod_left]

end

end Sys2Proof.Machine
end

section
/-! SUPPORT. The laws of rnd: the rounding to a significand of fb + 1 bits, with the step of the subnormals below 2^emin (R179,
R180). -/

namespace Sys2Proof.Machine

/-! ## Powers of two -/

section
variable {fb n : ℕ} {q E : ℤ}

theorem two_pow_mul_zpow (fb : ℕ) (q : ℤ) : ((2 ^ fb : ℕ) : ℚ) * 2 ^ q = 2 ^ (q + fb) := by
  rw [Nat.cast_pow, Nat.cast_ofNat, ← zpow_natCast, ← zpow_add₀ two_ne_zero, add_comm]

theorem two_zpow_sub_one (E : ℤ) : (2 : ℚ) ^ (E - 1) = 2 ^ E / 2 := by
  rw [zpow_sub₀ two_ne_zero, zpow_one]

theorem even_two_pow {n : ℕ} (h : 0 < n) : Even (2 ^ n) := even_two.pow_of_ne_zero h.ne'

/-- A significand of fb + 1 bits has its leading bit at the exponent fb above its unit. -/
theorem zpow_le_significand_iff (low : 2 ^ fb ≤ n) (high : n < 2 ^ (fb + 1)) : (2 : ℚ) ^ E ≤ n * 2 ^ q ↔ E ≤ q + fb := by
  have pos : (0 : ℚ) < 2 ^ q := by positivity
  constructor
  · intro h
    have upper : (2 : ℚ) ^ E < 2 ^ (q + (fb + 1 : ℕ)) := by
      rw [← two_pow_mul_zpow]
      exact h.trans_lt (mul_lt_mul_of_pos_right (Nat.cast_lt.2 high) pos)
    have := (zpow_lt_zpow_iff_right₀ one_lt_two).1 upper
    omega
  · intro h
    calc (2 : ℚ) ^ E ≤ 2 ^ (q + fb) := zpow_le_zpow_right₀ one_le_two h
      _ = (2 ^ fb : ℕ) * 2 ^ q := (two_pow_mul_zpow fb q).symm
      _ ≤ n * 2 ^ q := mul_le_mul_of_nonneg_right (Nat.cast_le.2 low) pos.le

end

/-! ## The leading bit -/

/-- The exponent of the leading bit of m x 2^e. -/
def leadExp (m : ℕ) (e : ℤ) : ℤ := (Nat.log2 m : ℤ) + e

theorem zpow_leadExp_le {m : ℕ} (hm : m ≠ 0) (e : ℤ) : (2 : ℚ) ^ leadExp m e ≤ m * 2 ^ e := by
  rw [leadExp, add_comm, ← two_pow_mul_zpow]
  exact mul_le_mul_of_nonneg_right (Nat.cast_le.2 (Nat.log2_self_le hm)) (by positivity)

theorem lt_zpow_leadExp_add_one (m : ℕ) (e : ℤ) : (m : ℚ) * 2 ^ e < 2 ^ (leadExp m e + 1) := by
  have : leadExp m e + 1 = e + (Nat.log2 m + 1 : ℕ) := by
    unfold leadExp
    omega
  rw [this, ← two_pow_mul_zpow]
  exact mul_lt_mul_of_pos_right (Nat.cast_lt.2 Nat.lt_log2_self) (by positivity)

/-- A magnitude with its leading bit at lg, rounded to a grid no finer than fb + 1 bits, comes to 2^E or past it exactly when
it reaches 2^E in the step of fb + 1 bits below 2^E. -/
theorem RoundsToMultiple.zpow_le_iff_reaches {rm : BitVec 2} {neg : Bool} {a : ℚ} {n fb : ℕ} {q lg E : ℤ} (low : 2 ^ lg ≤ a)
    (high : a < 2 ^ (lg + 1)) (hq : lg - fb ≤ q) (hE : q = lg - fb ∨ q ≤ E - 1 - fb) (h : RoundsToMultiple rm neg (2 ^ q) a n) :
    (2 : ℚ) ^ E ≤ n * 2 ^ q ↔ ReachesBound rm neg (2 ^ (E - 1 - fb)) (2 ^ E) a := by
  have pos : (0 : ℚ) < 2 ^ q := by positivity
  have step_pos : (0 : ℚ) < 2 ^ (E - 1 - fb) := by positivity
  rcases le_or_gt E lg with above | below
  · obtain rfl : q = lg - fb := by omega
    have lead : ((2 ^ fb : ℕ) : ℚ) * 2 ^ (lg - fb) = 2 ^ lg := by rw [two_pow_mul_zpow, sub_add_cancel]
    have full : 2 ^ fb ≤ n := h.le_of_mul_le pos (lead.trans_le low)
    have reached : (2 : ℚ) ^ E ≤ 2 ^ lg := zpow_le_zpow_right₀ one_le_two above
    exact iff_of_true (reached.trans (lead.symm.trans_le (mul_le_mul_of_nonneg_right (Nat.cast_le.2 full) pos.le)))
      (reaches_of_le step_pos (reached.trans low))
  · rcases eq_or_lt_of_le (by omega : q ≤ E - 1 - fb) with rfl | finer
    · have top : ((2 ^ (fb + 1) : ℕ) : ℚ) * 2 ^ (E - 1 - fb) = 2 ^ E := by
        rw [two_pow_mul_zpow]
        congr 1
        omega
      have reach := h.le_iff_reaches pos (even_two_pow fb.succ_pos)
      rwa [top, ← Nat.cast_le (α := ℚ), ← mul_le_mul_iff_left₀ pos, top] at reach
    · have top : a ≤ (2 ^ (fb + 1) : ℕ) * 2 ^ q := by
        rw [two_pow_mul_zpow]
        exact high.le.trans (zpow_le_zpow_right₀ one_le_two (by omega))
      have rounded := mul_le_mul_of_nonneg_right (Nat.cast_le (α := ℚ).2 (h.le_of_le_mul pos top)) pos.le
      rw [two_pow_mul_zpow] at top rounded
      have half : (2 : ℚ) ^ (q + (fb + 1 : ℕ)) ≤ 2 ^ (E - 1) := zpow_le_zpow_right₀ one_le_two (by omega)
      have step : (2 : ℚ) ^ (E - 1 - fb) ≤ 2 ^ (E - 1) := zpow_le_zpow_right₀ one_le_two (by omega)
      have whole : (0 : ℚ) < 2 ^ E := by positivity
      rw [two_zpow_sub_one E] at half step
      exact iff_of_false (by linarith) (not_reaches_of_le step_pos (by linarith))

/-! ## The grid of rnd -/

/-- The grid that rnd rounds m x 2^e to: fb + 1 bits, and below 2^emin the step of the subnormals (R179). -/
def gridExp (fb : ℕ) (emin : ℤ) (m : ℕ) (e : ℤ) : ℤ := max (leadExp m e - fb) (emin - fb)

/-- The multiple of its grid that rnd rounds m x 2^e to. -/
abbrev gridSig (fb : ℕ) (emin : ℤ) (rm : BitVec 2) (neg : Bool) (m : ℕ) (e : ℤ) : ℕ :=
  (toGrid rm neg m e (gridExp fb emin m e) false).1

section
variable {fb : ℕ} {emin : ℤ} {rm : BitVec 2} {neg : Bool} {m : ℕ} {e E : ℤ}

theorem gridSig_le : gridSig fb emin rm neg m e ≤ 2 ^ (fb + 1) := by
  refine toGrid_roundsToMultiple.le_of_le_mul (by positivity) ?_
  rw [two_pow_mul_zpow]
  refine (lt_zpow_leadExp_add_one m e).le.trans (zpow_le_zpow_right₀ one_le_two ?_)
  unfold gridExp
  omega

theorem le_gridSig (hm : m ≠ 0) : gridExp fb emin m e = emin - fb ∨ 2 ^ fb ≤ gridSig fb emin rm neg m e := by
  refine (eq_or_ne (gridExp fb emin m e) (emin - fb)).imp_right fun coarse => ?_
  refine toGrid_roundsToMultiple.le_of_mul_le (by positivity) ?_
  rw [two_pow_mul_zpow]
  refine (zpow_le_zpow_right₀ one_le_two ?_).trans (zpow_leadExp_le hm e)
  unfold gridExp at coarse ⊢
  omega

/-- rnd rounds to its grid, and renormalises what came to fb + 2 bits. -/
theorem rnd_eq (hm : m ≠ 0) : rnd fb emin rm neg m e false =
    { n := if gridSig fb emin rm neg m e = 2 ^ (fb + 1) then 2 ^ fb else gridSig fb emin rm neg m e
      q := if gridSig fb emin rm neg m e = 2 ^ (fb + 1) then gridExp fb emin m e + 1 else gridExp fb emin m e
      inexact := (toGrid rm neg m e (gridExp fb emin m e) false).2
      tiny := leadExp m e < emin
        && !((toGrid rm neg m e (leadExp m e - fb) false).1 == 2 ^ (fb + 1) && leadExp m e + 1 == emin) } := by
  unfold rnd gridSig gridExp leadExp
  rw [if_neg (by simpa using hm)]
  simp only [beq_iff_eq]
  split_ifs <;> rfl

variable {r : Rnd} (hm : m ≠ 0) (hr : rnd fb emin rm neg m e false = r)
include hm hr

theorem rnd_value : (r.n : ℚ) * 2 ^ r.q = gridSig fb emin rm neg m e * 2 ^ gridExp fb emin m e := by
  rw [← hr, rnd_eq hm]
  by_cases top : gridSig fb emin rm neg m e = 2 ^ (fb + 1)
  · simp only [top, if_true, two_pow_mul_zpow]
    congr 1
    omega
  · simp only [if_neg top]

theorem rnd_n_lt : r.n < 2 ^ (fb + 1) := by
  rw [← hr, rnd_eq hm]
  dsimp only
  split_ifs with top
  · exact Nat.pow_lt_pow_right one_lt_two fb.lt_succ_self
  · exact lt_of_le_of_ne gridSig_le top

theorem le_rnd_q : emin - fb ≤ r.q := by
  have : emin - fb ≤ gridExp fb emin m e := le_max_right _ _
  rw [← hr, rnd_eq hm]
  dsimp only
  split_ifs <;> omega

theorem rnd_normal : r.q = emin - fb ∨ 2 ^ fb ≤ r.n := by
  rw [← hr, rnd_eq hm]
  dsimp only
  split_ifs with top
  · exact .inr le_rfl
  · exact le_gridSig hm

theorem rnd_even (hfb : 0 < fb) : Even r.n ↔ Even (gridSig fb emin rm neg m e) := by
  rw [← hr, rnd_eq hm]
  dsimp only
  split_ifs with top
  · exact iff_of_true (even_two_pow hfb) (top ▸ even_two_pow fb.succ_pos)
  · rfl

theorem rnd_inexact : r.inexact = true ↔ (r.n : ℚ) * 2 ^ r.q ≠ m * 2 ^ e := by
  rw [rnd_value hm hr, ← toGrid_inexact, ← hr, rnd_eq hm]

/-- Above the smallest normal, the result comes to 2^E exactly when the value reaches it at the precision of the normals. -/
theorem zpow_le_rnd_iff_reaches (hE : emin < E) :
    (2 : ℚ) ^ E ≤ r.n * 2 ^ r.q ↔ ReachesBound rm neg (2 ^ (E - 1 - fb)) (2 ^ E) (m * 2 ^ e) := by
  rw [rnd_value hm hr]
  refine toGrid_roundsToMultiple.zpow_le_iff_reaches (zpow_leadExp_le hm e) (lt_zpow_leadExp_add_one m e) (le_max_left _ _) ?_
  unfold gridExp
  omega

/-- Tiny(x) of R180: rounded to fb + 1 bits without a bound on the exponent, m x 2^e stays below 2^emin. -/
theorem rnd_tiny : r.tiny = true ↔ ¬ ReachesBound rm neg (2 ^ (emin - 1 - fb)) (2 ^ emin) (m * 2 ^ e) := by
  have low := zpow_leadExp_le hm e
  have high := lt_zpow_leadExp_add_one m e
  have unbounded : RoundsToMultiple rm neg (2 ^ (leadExp m e - fb)) (m * 2 ^ e) _ := toGrid_roundsToMultiple
  have full := unbounded.le_of_mul_le (k := 2 ^ fb) (by positivity) (by rwa [two_pow_mul_zpow, sub_add_cancel])
  have most := unbounded.le_of_le_mul (k := 2 ^ (fb + 1)) (by positivity) (by
    rw [two_pow_mul_zpow, Nat.cast_succ, ← add_assoc, sub_add_cancel]
    exact high.le)
  rw [← unbounded.zpow_le_iff_reaches low high le_rfl (.inl rfl), ← hr, rnd_eq hm]
  dsimp only
  generalize (toGrid rm neg m e (leadExp m e - fb) false).1 = u at full most
  rcases eq_or_lt_of_le most with rfl | less
  · rw [two_pow_mul_zpow, zpow_le_zpow_iff_right₀ one_lt_two]
    simp only [BEq.rfl, Bool.true_and, Bool.and_eq_true, decide_eq_true_eq, Bool.not_eq_true', beq_eq_false_iff_ne]
    omega
  · rw [zpow_le_significand_iff full less]
    simp [less.ne]

/-- A result below the smallest normal comes from a tiny value. -/
theorem rnd_tiny_of_lt (hfb : 0 < fb) (h : r.n < 2 ^ fb) : r.tiny = true := by
  have small : gridSig fb emin rm neg m e < 2 ^ fb := by
    rw [← hr, rnd_eq hm] at h
    dsimp only at h
    split_ifs at h
    · exact absurd h (lt_irrefl _)
    · exact h
  have grid := (le_gridSig hm).resolve_right (not_le.2 small)
  have rounds : RoundsToMultiple rm neg (2 ^ (emin - fb)) (m * 2 ^ e) (gridSig fb emin rm neg m e) :=
    grid ▸ toGrid_roundsToMultiple
  have normal := rounds.le_iff_reaches (by positivity) (even_two_pow hfb)
  rw [two_pow_mul_zpow, sub_add_cancel] at normal
  rw [rnd_tiny hm hr]
  exact fun reach => absurd (normal.2 (reach.mono (zpow_le_zpow_right₀ one_le_two (by omega)))) (not_le.2 small)

end

end Sys2Proof.Machine
end

section
/-! SUPPORT. The neighbours of a value (R179): what the rounding of its magnitude on a grid is among the other values. -/

namespace Sys2Proof.Machine

/-- u does not lie between a and a multiple of the step s beside it: it is a multiple, or below a multiple that is not above a. -/
def GridGap (s a u : ℚ) : Prop := (∃ j : ℤ, u = j * s) ∨ ∃ k : ℕ, u < k * s ∧ k * s ≤ a

section
variable {rm : BitVec 2} {neg : Bool} {s a u : ℚ} {n : ℕ}

theorem mul_le_mul_of_lt_add (hs : 0 < s) {j k : ℤ} (h : j * s < k * s + s) : (j : ℚ) * s ≤ k * s := by
  rw [← add_one_mul, mul_lt_mul_iff_left₀ hs] at h
  exact mul_le_mul_of_nonneg_right (Int.cast_le.2 (Int.lt_add_one_iff.1 (by exact_mod_cast h))) hs.le

/-- RNE: nothing is nearer, and an even multiple is chosen where something else is as near. -/
theorem RoundsToMultiple.nearest (hs : 0 < s) (h : RoundsToMultiple 0 neg s a n) (hu : GridGap s a u) :
    |n * s - a| ≤ |u - a| ∧ (|n * s - a| = |u - a| → u ≠ n * s → Even n) := by
  obtain ⟨near, tie⟩ : |n * s - a| ≤ s / 2 ∧ (|n * s - a| = s / 2 → Even n) := h
  have others (j : ℤ) (hj : j ≠ n) : s / 2 ≤ |j * s - a| := by
    have apart : s ≤ |(j : ℚ) * s - n * s| := by
      rw [← sub_mul, abs_mul, abs_of_pos hs]
      exact le_mul_of_one_le_left hs.le (by exact_mod_cast Int.one_le_abs (sub_ne_zero.2 hj))
    linarith [abs_sub_le (j * s) a (n * s), abs_sub_comm a (n * s)]
  rcases hu with ⟨j, rfl⟩ | ⟨k, above, below⟩
  · rcases eq_or_ne j n with rfl | hj
    · exact ⟨le_rfl, fun _ hne => absurd rfl hne⟩
    · exact ⟨near.trans (others j hj), fun same _ => tie (le_antisymm near (same ▸ others j hj))⟩
  · have closer : |n * s - a| < |u - a| := by
      calc |n * s - a| ≤ |k * s - a| := by
            rcases eq_or_ne k n with rfl | hk
            · exact le_rfl
            · exact near.trans (others k (by exact_mod_cast hk))
        _ = a - k * s := by rw [abs_sub_comm, abs_of_nonneg (sub_nonneg.2 below)]
        _ < a - u := sub_lt_sub_left above a
        _ ≤ |u - a| := by rw [abs_sub_comm]; exact le_abs_self _
    exact ⟨closer.le, fun same => absurd same closer.ne⟩

theorem RoundsToMultiple.away (hs : 0 < s) (hrm : rm ≠ 0) (hm : AwayFromZero rm neg) (h : RoundsToMultiple rm neg s a n)
    (hu : GridGap s a u) : a ≤ n * s ∧ (a ≤ u → n * s ≤ u) := by
  rw [RoundsToMultiple, if_neg hrm, if_pos hm] at h
  refine ⟨h.1, fun hau => ?_⟩
  rcases hu with ⟨j, rfl⟩ | ⟨k, above, below⟩
  · exact mul_le_mul_of_lt_add hs (j := n) (h.2.trans_le (by linarith))
  · linarith

theorem RoundsToMultiple.toward (hs : 0 < s) (hrm : rm ≠ 0) (hm : ¬ AwayFromZero rm neg) (h : RoundsToMultiple rm neg s a n)
    (hu : GridGap s a u) : n * s ≤ a ∧ (u ≤ a → u ≤ n * s) := by
  rw [RoundsToMultiple, if_neg hrm, if_neg hm] at h
  refine ⟨h.1, fun hua => ?_⟩
  rcases hu with ⟨j, rfl⟩ | ⟨k, above, below⟩
  · exact mul_le_mul_of_lt_add hs (k := n) (hua.trans_lt h.2)
  · exact above.le.trans (mul_le_mul_of_lt_add hs (j := k) (k := n) (below.trans_lt h.2))

end

/-! ## Signs -/

/-- The sign of a value as a factor. -/
abbrev signFactor (neg : Bool) : ℚ := if neg then -1 else 1

theorem signFactor_ne_zero (neg : Bool) : signFactor neg ≠ 0 := by
  cases neg <;> simp [signFactor]

theorem signFactor_mul_self (neg : Bool) (x : ℚ) : signFactor neg * (signFactor neg * x) = x := by
  cases neg <;> simp [signFactor]

theorem abs_signFactor_mul (neg : Bool) (x : ℚ) : |signFactor neg * x| = |x| := by
  rw [abs_mul]
  cases neg <;> simp [signFactor]

theorem ratOf_fin (neg : Bool) (m : ℕ) (e : ℤ) : Claims.ratOf (.fin neg m e) = signFactor neg * (m * 2 ^ e) := mul_assoc ..

theorem abs_ratOf_fin (neg : Bool) (m : ℕ) (e : ℤ) : |Claims.ratOf (.fin neg m e)| = m * 2 ^ e := by
  rw [ratOf_fin, abs_signFactor_mul, abs_of_nonneg (by positivity)]

/-- A signed value is an integer multiple of its unit, under either sign. -/
theorem exists_int_signFactor_mul_ratOf (neg s : Bool) (n : ℕ) (q : ℤ) :
    ∃ j : ℤ, j ≤ n ∧ signFactor neg * Claims.ratOf (.fin s n q) = j * 2 ^ q := by
  by_cases same : neg = s
  · subst same
    exact ⟨n, le_rfl, by rw [ratOf_fin, signFactor_mul_self, Int.cast_natCast]⟩
  · refine ⟨-n, by omega, ?_⟩
    rw [ratOf_fin, Bool.eq_not_of_ne same]
    cases s <;> simp [signFactor]

/-! ## Neighbours -/

section
variable {f : Fmt} {rm : BitVec 2} {neg : Bool} {s a x : ℚ} {n p : ℕ}

/-- R179: the rounding of a magnitude on a grid without gaps for the format is, with the sign, the neighbour of the mode. -/
theorem neighbour_of_roundsToMultiple (ha : 0 < a) (hs : 0 < s) (h : RoundsToMultiple rm neg s a n)
    (hy : Claims.ratOf (unpack f p) = signFactor neg * (n * s)) (hp : Even n → p % 2 = 0)
    (gap : ∀ q, Claims.FinitePat f q → GridGap s a (signFactor neg * Claims.ratOf (unpack f q))) :
    Claims.Neighbour f rm (signFactor neg * a) p := by
  intro q hq
  have hu := gap q hq
  obtain ⟨u, hz⟩ : ∃ u, Claims.ratOf (unpack f q) = signFactor neg * u := ⟨_, (signFactor_mul_self neg _).symm⟩
  rw [hz, signFactor_mul_self] at hu
  dsimp only
  rw [hy, hz, ← mul_sub, ← mul_sub, abs_signFactor_mul, abs_signFactor_mul]
  rcases eq_or_ne rm 0 with rfl | directed
  · rw [if_pos rfl]
    obtain ⟨near, tie⟩ := h.nearest hs hu
    exact ⟨near, fun same hne => hp (tie same fun heq => hne (congrArg _ heq))⟩
  · rw [if_neg directed]
    by_cases away : AwayFromZero rm neg
    · have outer := h.away hs directed away hu
      rcases away with ⟨rfl, rfl⟩ | ⟨rfl, rfl⟩
      · simpa [signFactor] using outer
      · simpa [signFactor] using outer
    · have inner := h.toward hs directed away hu
      cases neg with
      | false =>
        have down : rm = 2 ∨ rm = 1 ∧ 0 ≤ signFactor false * a := by
          rcases mode_cases rm with nearest | toward | down | up
          · exact absurd nearest directed
          · exact .inr ⟨toward, by simpa [signFactor] using ha.le⟩
          · exact .inl down
          · exact absurd (.inr ⟨up, rfl⟩) away
        rw [if_pos down]
        simpa [signFactor] using inner
      | true =>
        have up : ¬ (rm = 2 ∨ rm = 1 ∧ 0 ≤ signFactor true * a) := by
          rintro (down | ⟨-, nonneg⟩)
          · exact away (.inl ⟨down, rfl⟩)
          · exact absurd nonneg (by simpa [signFactor] using ha)
        rw [if_neg up]
        simpa [signFactor] using inner

/-- A value of the format is its own neighbour in every mode. -/
theorem neighbour_of_eq (h : Claims.ratOf (unpack f p) = x) : Claims.Neighbour f rm x p := by
  subst h
  intro q _
  dsimp only
  rw [sub_self, abs_zero]
  split_ifs
  · exact ⟨abs_nonneg _, fun same other => absurd (sub_eq_zero.1 (abs_eq_zero.1 same.symm)) other⟩
  · exact ⟨le_rfl, id⟩
  · exact ⟨le_rfl, id⟩

end

end Sys2Proof.Machine
end

section
/-! SUPPORT. The laws of patterns (R173): their fields, the pattern of a significand, and the values of the finite ones. -/

namespace Sys2Proof.Machine

/-! ## The fields of a pattern -/

section
variable {f : Fmt} {neg : Bool} {x r n : ℕ}

theorem zeroPat_eq (f : Fmt) (neg : Bool) : zeroPat f neg = neg.toNat * 2 ^ f.eb * 2 ^ f.fb := by
  cases neg <;> simp [zeroPat, pow_add]

theorem magnitude_lt (hx : x < 2 ^ f.eb) (hr : r < 2 ^ f.fb) : x * 2 ^ f.fb + r < 2 ^ (f.eb + f.fb) := by
  calc x * 2 ^ f.fb + r < (x + 1) * 2 ^ f.fb := by rw [add_one_mul]; omega
    _ ≤ 2 ^ f.eb * 2 ^ f.fb := Nat.mul_le_mul_right _ hx
    _ = 2 ^ (f.eb + f.fb) := (pow_add ..).symm

theorem signOf_zeroPat_add (h : n < 2 ^ (f.eb + f.fb)) : signOf f (zeroPat f neg + n) = neg := by
  rw [signOf, zeroPat_eq, mul_assoc, ← pow_add, add_comm, Nat.add_mul_div_right _ _ (by positivity), Nat.div_eq_of_lt h]
  cases neg <;> rfl

theorem expOf_zeroPat_add (hx : x < 2 ^ f.eb) (hr : r < 2 ^ f.fb) : expOf f (zeroPat f neg + (x * 2 ^ f.fb + r)) = x := by
  rw [expOf, zeroPat_eq, ← add_assoc, ← add_mul, add_comm, Nat.add_mul_div_right _ _ (by positivity), Nat.div_eq_of_lt hr,
    zero_add, Nat.mul_add_mod_self_right, Nat.mod_eq_of_lt hx]

theorem fracOf_zeroPat_add (hr : r < 2 ^ f.fb) : fracOf f (zeroPat f neg + (x * 2 ^ f.fb + r)) = r := by
  rw [fracOf, zeroPat_eq, ← add_assoc, ← add_mul, Nat.mul_add_mod_self_right, Nat.mod_eq_of_lt hr]

/-- R173: the value of a pattern from its fields, in a format with infinities. -/
theorem unpack_eq (he : f.e4 = false) (p : ℕ) : unpack f p =
    if expOf f p = 2 ^ f.eb - 1 then (if fracOf f p = 0 then .inf (signOf f p) else .nan (signOf f p))
    else if expOf f p = 0 then .fin (signOf f p) (fracOf f p) (f.emin - f.fb)
    else .fin (signOf f p) (2 ^ f.fb + fracOf f p) (expOf f p - f.bias - f.fb) := by
  simp [unpack, he]

end

/-! ## The formats with infinities -/

/-- The formats with infinities (R173): the exponent fields from 1 to 2 x bias are those of the normals. -/
structure Interchange (f : Fmt) : Prop where
  e4 : f.e4 = false
  exponents : 2 ^ f.eb = 2 * f.bias + 2
  fraction : 0 < f.fb
  bias : 0 < f.bias

theorem interchange_of_mem {f : Fmt} (h : f ∈ Claims.roundFormats) : Interchange f := by
  rcases List.mem_cons.1 h with rfl | h
  · exact ⟨rfl, rfl, by decide, by decide⟩
  rcases List.mem_cons.1 h with rfl | h
  · exact ⟨rfl, rfl, by decide, by decide⟩
  obtain rfl := List.mem_singleton.1 h
  exact ⟨rfl, rfl, by decide, by decide⟩

/-- The significand n in units of 2^q is one of the format: within its precision and its range of exponents, and normalised
above the subnormals. -/
structure Encodable (f : Fmt) (n : ℕ) (q : ℤ) : Prop where
  lt : n < 2 ^ (f.fb + 1)
  le : f.emin - f.fb ≤ q
  normal : q = f.emin - f.fb ∨ 2 ^ f.fb ≤ n
  range : 2 ^ f.fb ≤ n → q + f.fb ≤ f.bias

theorem encodable_zero (f : Fmt) : Encodable f 0 (f.emin - f.fb) :=
  ⟨by positivity, le_rfl, .inl rfl, fun normal => absurd normal (not_le.2 (by positivity))⟩

/-- The exponent field of the significand n in units of 2^q: 0 for a subnormal, which has no leading bit. -/
def expField (f : Fmt) (n : ℕ) (q : ℤ) : ℕ := if n < 2 ^ f.fb then 0 else (q + f.fb + f.bias).toNat

/-- The fraction field of the significand n: what it has below the leading bit of a normal. -/
def fracField (f : Fmt) (n : ℕ) : ℕ := if n < 2 ^ f.fb then n else n - 2 ^ f.fb

/-- The pattern of the significand n in units of 2^q. -/
def packPat (f : Fmt) (neg : Bool) (n : ℕ) (q : ℤ) : ℕ :=
  zeroPat f neg + (expField f n q * 2 ^ f.fb + fracField f n)

section
variable {f : Fmt} {neg : Bool} {n p : ℕ} {q : ℤ}

theorem packPat_of_lt (h : n < 2 ^ f.fb) : packPat f neg n q = zeroPat f neg + n := by
  rw [packPat, expField, fracField, if_pos h, if_pos h, zero_mul, zero_add]

theorem packPat_of_le (h : 2 ^ f.fb ≤ n) :
    packPat f neg n q = zeroPat f neg + (q + f.fb + f.bias).toNat * 2 ^ f.fb + (n - 2 ^ f.fb) := by
  rw [packPat, expField, fracField, if_neg (not_lt.2 h), if_neg (not_lt.2 h), add_assoc (zeroPat f neg)]

theorem Encodable.expField_lt (hf : Interchange f) (h : Encodable f n q) : expField f n q < 2 ^ f.eb - 1 := by
  have exponents := hf.exponents
  unfold expField
  split_ifs with subnormal
  · omega
  · have := h.range (not_lt.1 subnormal)
    omega

theorem Encodable.fracField_lt (h : Encodable f n q) : fracField f n < 2 ^ f.fb := by
  have := h.lt
  rw [pow_succ] at this
  unfold fracField
  split_ifs <;> omega

theorem Encodable.magnitude_lt (hf : Interchange f) (h : Encodable f n q) :
    expField f n q * 2 ^ f.fb + fracField f n < 2 ^ (f.eb + f.fb) :=
  Machine.magnitude_lt ((h.expField_lt hf).trans_le (Nat.sub_le _ _)) h.fracField_lt

theorem signOf_packPat (hf : Interchange f) (h : Encodable f n q) : signOf f (packPat f neg n q) = neg :=
  signOf_zeroPat_add (h.magnitude_lt hf)

theorem packPat_lt (hf : Interchange f) (h : Encodable f n q) : packPat f neg n q < 2 ^ (1 + f.eb + f.fb) := by
  have magnitude := h.magnitude_lt hf
  have sign : zeroPat f neg ≤ 2 ^ (f.eb + f.fb) := by
    unfold zeroPat
    split_ifs
    · exact le_rfl
    · exact Nat.zero_le _
  rw [add_assoc, pow_add, pow_one]
  unfold packPat
  omega

/-- The last fraction bit of a pattern is that of its significand. -/
theorem packPat_mod_two (hf : Interchange f) : packPat f neg n q % 2 = n % 2 := by
  have even : 2 ^ f.fb % 2 = 0 := Nat.even_iff.1 (even_two_pow hf.fraction)
  unfold packPat fracField
  rw [zeroPat_eq, ← add_assoc, ← add_mul, Nat.add_mod, Nat.mul_mod, even, Nat.mul_zero, Nat.zero_mod, zero_add, Nat.mod_mod]
  split_ifs <;> omega

/-- R173: the pattern of a significand stands for it. -/
theorem unpack_packPat (hf : Interchange f) (h : Encodable f n q) : unpack f (packPat f neg n q) = .fin neg n q := by
  have finite := h.expField_lt hf
  rw [unpack_eq hf.e4, signOf_packPat hf h, packPat, expOf_zeroPat_add (finite.trans_le (Nat.sub_le _ _)) h.fracField_lt,
    fracOf_zeroPat_add h.fracField_lt, if_neg finite.ne]
  rcases lt_or_ge n (2 ^ f.fb) with subnormal | normal
  · rw [expField, fracField, if_pos subnormal, if_pos subnormal, if_pos rfl, h.normal.resolve_right (not_le.2 subnormal)]
  · have low : 1 - (f.bias : ℤ) - f.fb ≤ q := h.le
    have nonzero : (q + f.fb + f.bias).toNat ≠ 0 := by omega
    rw [expField, fracField, if_neg (not_lt.2 normal), if_neg (not_lt.2 normal), if_neg nonzero, Nat.add_sub_cancel' normal]
    congr 1
    omega

theorem finitePat_packPat (hf : Interchange f) (h : Encodable f n q) : Claims.FinitePat f (packPat f neg n q) :=
  ⟨packPat_lt hf h, by rw [unpack_packPat hf h]; rfl⟩

/-- R173: a finite pattern stands for a significand of fb + 1 bits in units no smaller than the step of the subnormals. -/
theorem unpack_of_finitePat (hf : Interchange f) (h : Claims.FinitePat f p) :
    ∃ s n q, unpack f p = .fin s n q ∧ n < 2 ^ (f.fb + 1) ∧ f.emin - f.fb ≤ q := by
  have frac : fracOf f p < 2 ^ f.fb := Nat.mod_lt _ (by positivity)
  have finite := h.2
  rw [unpack_eq hf.e4] at finite ⊢
  rw [pow_succ]
  unfold Fmt.emin
  split_ifs at finite ⊢ with infinite zeroFrac subnormal
  · cases finite
  · cases finite
  · exact ⟨_, _, _, rfl, by omega, le_rfl⟩
  · exact ⟨_, _, _, rfl, by omega, by omega⟩

/-- The grid that a value is rounded to leaves no finite value of the format between the value and a multiple beside it. -/
theorem gridGap_of_finitePat {m : ℕ} (hf : Interchange f) (hm : m ≠ 0) (h : Claims.FinitePat f p) (neg : Bool) (e : ℤ) :
    GridGap (2 ^ gridExp f.fb f.emin m e) (m * 2 ^ e) (signFactor neg * Claims.ratOf (unpack f p)) := by
  obtain ⟨s, n, q, unpacked, precision, bound⟩ := unpack_of_finitePat hf h
  obtain ⟨j, magnitude, value⟩ := exists_int_signFactor_mul_ratOf neg s n q
  rw [unpacked, value]
  rcases le_or_gt (gridExp f.fb f.emin m e) q with onGrid | finer
  · obtain ⟨k, rfl⟩ := Int.le.dest onGrid
    refine .inl ⟨j * 2 ^ k, ?_⟩
    rw [zpow_add₀ two_ne_zero, zpow_natCast]
    push_cast
    ring
  · have leading : gridExp f.fb f.emin m e + f.fb = leadExp m e := by
      unfold gridExp at finer ⊢
      omega
    have below : j < ((2 ^ (f.fb + 1) : ℕ) : ℤ) := by omega
    refine .inr ⟨2 ^ f.fb, ?_, ?_⟩
    · calc (j : ℚ) * 2 ^ q < (2 ^ (f.fb + 1) : ℕ) * 2 ^ q :=
            mul_lt_mul_of_pos_right (by exact_mod_cast below) (by positivity)
        _ = 2 ^ (q + (f.fb + 1 : ℕ)) := two_pow_mul_zpow ..
        _ ≤ 2 ^ (gridExp f.fb f.emin m e + f.fb) := zpow_le_zpow_right₀ one_le_two (by omega)
        _ = (2 ^ f.fb : ℕ) * 2 ^ gridExp f.fb f.emin m e := (two_pow_mul_zpow ..).symm
    · rw [two_pow_mul_zpow, leading]
      exact zpow_leadExp_le hm e

end

end Sys2Proof.Machine
end

section
/-! CERTIFICATE. RoundFmt (R179) and the flags NX, UF and OF (R180). -/

namespace Sys2Proof.Machine

/-! ## The bounds of R179 and R180 -/

section
variable {f : Fmt} {rm : BitVec 2} {neg : Bool} {x : ℚ}

/-- R179: a magnitude overflows when its rounding comes to the power of two past the greatest finite value. -/
theorem overflows_iff_reaches : Claims.Overflows f rm neg x
    ↔ ReachesBound rm neg (2 ^ ((f.bias + 1 : ℤ) - 1 - f.fb)) (2 ^ (f.bias + 1 : ℤ)) |x| := by
  have step : (2 : ℚ) ^ ((f.bias + 1 : ℤ) - 1 - f.fb) = 2 ^ (-(f.fb : ℤ)) * 2 ^ (f.bias : ℤ) := by
    rw [← zpow_add₀ two_ne_zero]
    congr 1
    ring
  have half : (2 : ℚ) ^ ((f.bias : ℤ) - f.fb - 1) = 2 ^ (-(f.fb : ℤ)) * 2 ^ (f.bias : ℤ) / 2 := by
    rw [two_zpow_sub_one, ← zpow_add₀ two_ne_zero, sub_eq_neg_add]
  have past : (2 : ℚ) ^ (f.bias + 1 : ℤ) = 2 * 2 ^ (f.bias : ℤ) := by
    rw [add_comm, zpow_one_add₀ two_ne_zero]
  unfold Claims.Overflows ReachesBound Claims.greatest
  rw [step, half, past]
  split_ifs
  · ring_nf
  · ring_nf
  · rfl

/-- R180: a value other than 0 is tiny when its rounding at the precision of the normals stays below the smallest of them. -/
theorem tiny_iff_not_reaches :
    Claims.Tiny f rm neg x ↔ x ≠ 0 ∧ ¬ ReachesBound rm neg (2 ^ (f.emin - 1 - f.fb)) (2 ^ f.emin) |x| := by
  have step : (2 : ℚ) ^ (-(f.bias : ℤ) - f.fb) = 2 ^ (f.emin - 1 - f.fb) := by
    congr 1
    unfold Fmt.emin
    ring
  have half : (2 : ℚ) ^ (-1 - (f.bias : ℤ) - f.fb) = 2 ^ (f.emin - 1 - f.fb) / 2 := by
    rw [← two_zpow_sub_one]
    congr 1
    unfold Fmt.emin
    ring
  unfold Claims.Tiny ReachesBound
  rw [step, half]
  split_ifs
  · rw [not_le]; rfl
  · rw [not_lt]; rfl
  · rw [not_le]; rfl

theorem not_overflows_zero (f : Fmt) (rm : BitVec 2) (neg : Bool) : ¬ Claims.Overflows f rm neg 0 := by
  rw [overflows_iff_reaches, abs_zero]
  exact not_reaches_of_le (by positivity) (sub_nonneg.2 (zpow_le_zpow_right₀ one_le_two (by omega)))

/-- The model's result of an overflow is R179's. -/
theorem overflowPat_eq (hf : Interchange f) : overflowPat f rm neg = Claims.overflowResult f rm neg := by
  have magnitude_pos : 0 < (2 ^ f.eb - 1) * 2 ^ f.fb := by
    have := hf.exponents
    exact Nat.mul_pos (by omega) (Nat.two_pow_pos f.fb)
  rcases mode_cases rm with rfl | rfl | rfl | rfl <;> cases neg <;>
    simp [overflowPat, Claims.overflowResult, maxPat, infPat, zeroPat, hf.e4, Nat.add_sub_assoc magnitude_pos]

end

/-! ## The result of RoundFmt -/

section
variable {f : Fmt} {rm : BitVec 2} {neg : Bool} {m : ℕ} {e : ℤ}

/-- R179: an exact zero keeps its sign. -/
theorem roundFmt_zero (f : Fmt) : roundFmt f rm false (.fin neg 0 e) false = (packPat f neg 0 (f.emin - f.fb), 0) := by
  rw [packPat_of_lt (Nat.two_pow_pos f.fb)]
  rfl

/-- RoundFmt raises a flag for each inexact result, and only for one. -/
theorem roundingFlags_eq_zero (inexact tiny : Bool) :
    (if inexact then (if tiny then flUF ||| flNX else flNX) else 0) = 0 ↔ inexact = false := by
  cases inexact <;> cases tiny <;> decide

variable {r : Rnd} (hm : m ≠ 0) (hr : rnd f.fb f.emin rm neg m e false = r)
include hm hr

theorem rnd_inexact_iff_ne : r.inexact = true ↔ Claims.ratOf (.fin neg r.n r.q) ≠ Claims.ratOf (.fin neg m e) := by
  rw [ratOf_fin, ratOf_fin, ne_eq, mul_right_inj' (signFactor_ne_zero neg)]
  exact rnd_inexact hm hr

theorem rnd_tiny_iff_tiny : r.tiny = true ↔ Claims.Tiny f rm neg (Claims.ratOf (.fin neg m e)) := by
  have nonzero : Claims.ratOf (.fin neg m e) ≠ 0 := by
    rw [← abs_pos, abs_ratOf_fin]
    positivity
  rw [tiny_iff_not_reaches, abs_ratOf_fin, and_iff_right nonzero]
  exact rnd_tiny hm hr

variable (hf : Interchange f)
include hf

/-- R179: RoundFmt packs the rounded significand, or overflows where its exponent is too great. -/
theorem roundFmt_eq : roundFmt f rm false (.fin neg m e) false =
    if 2 ^ f.fb ≤ r.n ∧ f.bias + 1 ≤ r.q + f.fb then (overflowPat f rm neg, flOF ||| flNX)
    else (packPat f neg r.n r.q, if r.inexact then (if r.tiny then flUF ||| flNX else flNX) else 0) := by
  have exponents : (2 : ℤ) ^ f.eb = 2 * f.bias + 2 := by exact_mod_cast hf.exponents
  unfold roundFmt
  simp only [hr, beq_iff_eq, Bool.false_eq_true, if_false]
  rcases lt_or_ge r.n (2 ^ f.fb) with subnormal | normal
  · have bounded : ¬ (2 ^ f.fb ≤ r.n ∧ f.bias + 1 ≤ r.q + f.fb) := fun h => absurd h.1 (not_le.2 subnormal)
    rw [if_neg bounded, if_pos subnormal, packPat_of_lt subnormal, if_pos (rnd_tiny_of_lt hm hr hf.fraction subnormal)]
    split_ifs with zero
    · rw [zero, add_zero]
    · rw [zero, add_zero]
    · rfl
    · rfl
  · have nonzero : r.n ≠ 0 := ((Nat.two_pow_pos f.fb).trans_le normal).ne'
    rw [if_neg nonzero, if_neg (not_lt.2 normal), packPat_of_le normal]
    exact if_congr (by omega) rfl rfl

theorem rnd_overflows : 2 ^ f.fb ≤ r.n ∧ f.bias + 1 ≤ r.q + f.fb
    ↔ Claims.Overflows f rm neg (Claims.ratOf (.fin neg m e)) := by
  have past : f.emin < f.bias + 1 := by
    have := hf.bias
    unfold Fmt.emin
    omega
  rw [overflows_iff_reaches, abs_ratOf_fin, ← zpow_le_rnd_iff_reaches hm hr past]
  rcases lt_or_ge r.n (2 ^ f.fb) with subnormal | normal
  · have grid := (rnd_normal hm hr).resolve_right (not_le.2 subnormal)
    refine iff_of_false (fun h => absurd h.1 (not_le.2 subnormal)) (not_le.2 ?_)
    calc (r.n : ℚ) * 2 ^ r.q < (2 ^ f.fb : ℕ) * 2 ^ r.q := mul_lt_mul_of_pos_right (Nat.cast_lt.2 subnormal) (by positivity)
      _ = 2 ^ f.emin := by rw [two_pow_mul_zpow, grid, sub_add_cancel]
      _ < 2 ^ (f.bias + 1 : ℤ) := zpow_lt_zpow_right₀ one_lt_two past
  · rw [zpow_le_significand_iff normal (rnd_n_lt hm hr)]
    exact and_iff_right normal

theorem encodable_rnd (h : ¬ Claims.Overflows f rm neg (Claims.ratOf (.fin neg m e))) : Encodable f r.n r.q := by
  rw [← rnd_overflows hm hr hf] at h
  exact ⟨rnd_n_lt hm hr, le_rnd_q hm hr, rnd_normal hm hr, fun normal => by omega⟩

/-- R179: what the rounded significand packs to is the neighbour that the mode picks. -/
theorem neighbour_rnd (h : Encodable f r.n r.q) :
    Claims.Neighbour f rm (Claims.ratOf (.fin neg m e)) (packPat f neg r.n r.q) := by
  rw [ratOf_fin]
  refine neighbour_of_roundsToMultiple (by positivity) (by positivity) toGrid_roundsToMultiple ?_ (fun even => ?_)
    fun q hq => gridGap_of_finitePat hf hm hq neg e
  · rw [unpack_packPat hf h, ratOf_fin, rnd_value hm hr]
  · rwa [packPat_mod_two hf, ← Nat.even_iff, rnd_even hm hr hf.fraction]

end

end Sys2Proof.Machine

namespace Sys2Proof

open Machine

/-- Settles O3: a zero is packed as it is; the significand that rnd answers for another value is the mode's on the grid of the
format, and what it packs to is the neighbour, unless its exponent is too great. -/
theorem roundingPicksTheNeighbour : Obligations.RoundingPicksTheNeighbour := by
  unfold Obligations.RoundingPicksTheNeighbour
  intro f mem rm neg m e
  have hf := interchange_of_mem mem
  rcases eq_or_ne m 0 with rfl | hm
  · have zero (q : ℤ) : Claims.ratOf (.fin neg 0 q) = 0 := by rw [ratOf_fin, Nat.cast_zero, zero_mul, mul_zero]
    have enc := encodable_zero f
    have value : Claims.ratOf (unpack f (packPat f neg 0 (f.emin - f.fb))) = 0 := by rw [unpack_packPat hf enc, zero]
    simp only [roundFmt_zero, zero]
    exact ⟨fun overflow => absurd overflow (not_overflows_zero f rm neg),
      fun _ => ⟨finitePat_packPat hf enc, neighbour_of_eq value, signOf_packPat hf enc, iff_of_true trivial value,
        fun differs => absurd value differs, fun differs => absurd value differs⟩⟩
  · obtain ⟨r, hr⟩ : ∃ r, rnd f.fb f.emin rm neg m e false = r := ⟨_, rfl⟩
    have overflows := rnd_overflows hm hr hf
    have inexact := rnd_inexact_iff_ne hm hr
    have tiny := rnd_tiny_iff_tiny hm hr
    simp only [roundFmt_eq hm hr hf]
    refine ⟨fun overflow => ?_, fun fits => ?_⟩
    · rw [if_pos (overflows.2 overflow), overflowPat_eq hf]
    · have enc := encodable_rnd hm hr hf fits
      rw [if_neg (mt overflows.1 fits), unpack_packPat hf enc]
      refine ⟨finitePat_packPat hf enc, neighbour_rnd hm hr hf enc, signOf_packPat hf enc, ?_, fun differs small => ?_,
        fun differs large => ?_⟩
      · exact (roundingFlags_eq_zero r.inexact r.tiny).trans (by rw [← Bool.not_eq_true, inexact, not_not])
      · rw [if_pos (inexact.2 differs), if_pos (tiny.2 small)]
      · rw [if_pos (inexact.2 differs), if_neg (mt tiny.1 large)]

end Sys2Proof
end
